-- ==== Sys2Proof/Word.lean ====
section
/-! DEFINITION. The word types of the machine and the sparse store that registers and memory are kept in. -/

namespace Sys2Proof

/-- One byte, the smallest addressable unit (R2). -/
abbrev Byte := BitVec 8

/-- A 32-bit lane value (R121). -/
abbrev Word := BitVec 32

/-- A 64-bit scalar value, mask or address (R121). -/
abbrev DWord := BitVec 64

/-- A sparse store of `w`-bit values by number: (number, value) pairs with numbers strictly rising; a number that is not
listed holds 0, and no pair lists a 0. -/
abbrev Cells (w : Nat) := List (Nat × BitVec w)

/-- All ones. -/
abbrev ones64 : DWord := 0xFFFFFFFFFFFFFFFF

end Sys2Proof
end

