-- ==== Sys2Proof/Config.lean ====
section
/-! DEFINITION. What is fixed for the machine (figures of the spec), and the free values: constants with no body, which no
proof can evaluate. Each free value has a row in notes/assumptions/. -/

namespace Sys2Proof.Config

/-! ### Figures of the spec -/

/-- Core dies (R8). -/
def dies : Nat := 4
/-- Logical quads per die (R8, R9). -/
def quadsPerDie : Nat := 40
/-- Quads built per die (R8). -/
def quadsBuilt : Nat := 42
/-- Cores per die (R9). -/
def coresPerDie : Nat := 160
/-- Logical cores of the package (R9). -/
def cores : Nat := 640
/-- Wave slots per core (R70). -/
def slotsPerCore : Nat := 16
/-- Scratchpad bytes per core (R138). -/
def spBytes : Nat := 0x100000
/-- Bytes of a die's staging pool (R82). -/
def poolBytes : Nat := 0x80000000
/-- Ticks in one microsecond at 1.1 GHz (R3). -/
def ticksPerUs : Nat := 1100
/-- Ticks in 24 hours (R12). -/
def ticksPerDay : Nat := 86400 * 1000000 * ticksPerUs
/-- Flits that a link's replay buffer holds (R29). -/
def replayFlits : Nat := 512

/-! ### Constants of one implementation -/

/-- CAPS.cxl: the second tier is in CXL form (R15, R16, R42); fused when the module is built. (DESIGN CHOICE: log 19) -/
opaque cxl : Bool
/-- LINKPAIR.pkgtag (R42), fused. -/
opaque pkgtag : Word
/-- Which two of the 42 physical quads of a die the fuses leave as spares (R10). -/
opaque fusedSpare : Nat → Nat → Bool
/-- 4 KiB units of the memory expander at a CXL port: 2^29 for one of 2,048 GiB, fewer for a smaller one, 0 for none (R16). -/
opaque expander : Nat → Nat
/-- Page requests that the host allows to be outstanding (R44). -/
opaque priAllocation : Nat
/-- Spare rows of a first-tier bank (R12). -/
opaque sparesPerBank : Nat
/-- The hash that spreads peer requests over the links (R32), of the 4 KiB-aligned address. (DESIGN CHOICE: log 20) -/
opaque routeHash : Nat → Nat
/-- Certificates that attestation returns (R66). -/
opaque certificates : List Byte
/-- Measurement of the mask ROM, the fuses, the repair record (as a list of retired quads) and the interface version (R66). -/
opaque measurement : List (Nat × Nat) → List Byte
/-- Temperatures of the four dies as the sensors read them (R66). -/
opaque temperature : Nat → Nat → Nat
/-- Module power in watts as the sensors read it (R66). -/
opaque modulePower : Nat → Nat

/-! ### Free values, each applied to the counter of State or to the operands it depends on -/

/-- Which of the enabled moves comes next when the agenda names none. -/
opaque choose : Nat → Nat
/-- The ticks that pass in one step (R200: time passes; the manual fixes no cycle counts that results depend on). -/
opaque elapsed : Nat → Nat
/-- Which way the step of the time-of-day counter is rounded at a given frequency offset (R61): true for up. (DESIGN CHOICE: log 4) -/
opaque taiRound : BitVec 64 → Bool
/-- Whether a TLB that may hold a translation uses it (R154). -/
opaque tlbHolds : Nat → Bool
/-- Whether an access, of the lanes of a mask, sees a write that nothing orders before it, by the write's number (R169). -/
opaque sees : Nat → Nat → Nat → Bool
/-- Whether a write takes its place in the modification order of its bytes before an earlier one that nothing orders, by their numbers
(R166, R362). -/
opaque sinks : Nat → Nat → Nat → Bool
/-- Whether a load whose value is not due yet reads its bytes again, by its lane (R166, R362). -/
opaque rereads : Nat → Nat → Bool
/-- How many of the oldest writes have become visible to every agent. -/
opaque settled : Nat → Nat
/-- Whether a core that holds a clause line goes on using it (R206). (DESIGN CHOICE: log 22) -/
opaque holdsLine : Nat → Bool
/-- How many 256-byte steps a cancelled or stopped copy had completed (R304, R159). (DESIGN CHOICE: log 23) -/
opaque stepsDone : Nat → Nat
/-- Which of the two allowed values an overlapped destination byte keeps (R54, R300): true for the earlier step's.
(DESIGN CHOICE: log 24) -/
opaque overlapEarlier : Nat → Bool
/-- The form the codec leaves a sector in after a write through a COMPRESSIBLE mapping (R160, R161). (DESIGN CHOICE: log 25) -/
opaque sectorForm : Nat → BitVec 2
/-- Whether a peer that is reachable answers within the peer timeout (R33). (DESIGN CHOICE: log 21) -/
opaque peerAnswers : Nat → Bool
/-- Whether a store or atomic that was reported unreachable was performed at the peer (R33). -/
opaque peerPerformed : Nat → Bool
/-- What a team's state that found no room in the save pool holds after it resumes (R91). (DESIGN CHOICE: log 26) -/
opaque lost : Nat → BitVec 64
/-- Which classes a power-cap bubble holds at a moment (R23, R215): 0 none, 1 MTX alone, else MTX, VEC and MEM. (DESIGN CHOICE: log 27) -/
opaque bubble : Nat → Nat
/-- Which free place of the spill area takes a spilled entry: the order there belongs to the device (R114). -/
opaque spillPlace : Nat → Nat
/-- Numbers of the 128-byte lines that a die cache holds modified (R203). -/
opaque dirtyLines : Nat → List Nat
/-- What a scan section holds where no resident team's state is: registers of free latches and free codebook banks, and the 8 bytes
given for a register that differs by lane (R203). (DESIGN CHOICE: log 28) -/
opaque scanByte : Nat → BitVec 8
/-- Rows of the first tier with a correctable event in a step: die, bank and row (R11, R12). -/
opaque correctable : Nat → List (Nat × Nat × Nat)
/-- Correctable events elsewhere in the package in a step (R66). -/
opaque corrections : Nat → Nat
/-- Flits that one request takes, less 1 and modulo the replay buffer's size (R28, R29, R32). (DESIGN CHOICE: log 29) -/
opaque flitsOf : Nat → Nat
/-- The lane that lane repair removes after 8 CRC failures in a row, among those in use (R29, R30). -/
opaque badLane : Nat → Nat
/-- Body bytes of the scan section of kind 7, whose layout belongs to the device (R203). -/
opaque implState : Nat → List Byte

end Sys2Proof.Config
end

