-- ==== Sys2Proof/Syntax.lean ====
section
/-! DEFINITION. The instructions and events of the machine: operand kinds (R231), one structure of operands per shape of
encoding, and the one inductive `Instr` with a constructor per row of spec/opcode_table.json. -/

namespace Sys2Proof

/-! ### Operand kinds (R121, R122, R231) -/

/-- Slot of the state whose lanes an instruction serves (R106, R221). -/
abbrev Slot := Fin 4
/-- Lookahead (R127, R221). -/
abbrev La := Fin 16
/-- A v register, v0 to v127. -/
abbrev VReg := Fin 128
/-- An s register. -/
abbrev SReg := Fin 64
/-- A block number; 255 halts (R229). -/
abbrev BlockNo := Fin 256

/-- Vector source (R231): v and s registers, the uniform specials, the per-lane specials. -/
inductive VSrc where
  | v (n : VReg) | s (n : SReg) | zero | lid | wid | tix | blk | nblk
  deriving DecidableEq, Repr

/-- Vector destination (R231). -/
inductive VDst where
  | v (n : VReg) | zero
  deriving DecidableEq, Repr

/-- Scalar source (R231). -/
inductive SSrc where
  | s (n : SReg) | h (n : Fin 16) | w (n : Fin 16) | zero | wid | tix | exm | tags | amax | mvc | mrp | fml | fflags
  deriving DecidableEq, Repr

/-- Scalar destination (R231, R255). -/
inductive SDst where
  | s (n : SReg) | h (n : Fin 16) | w (n : Fin 16) | zero | exm | amax | mvc | mrp | fflags
  deriving DecidableEq, Repr

/-- Mask source (R231). -/
inductive MSrc where
  | m (n : Fin 8) | exm | fml | zero
  deriving DecidableEq, Repr

/-- Mask destination (R231). -/
inductive MDst where
  | m (n : Fin 8) | exm | zero
  deriving DecidableEq, Repr

/-- Mask or scalar source, of MMOV and the tag waits (R283, R302). -/
inductive MSSrc where
  | m (n : Fin 8) | sc (x : SSrc)
  deriving DecidableEq, Repr

/-- Mask or scalar destination, of MMOV (R283). -/
inductive MSDst where
  | m (n : Fin 8) | sc (x : SDst)
  deriving DecidableEq, Repr

/-- An s register or zero: M base, the data of a scalar store, the register of CSRR and TICK (R231, R285, R334). -/
inductive SZ where
  | s (n : SReg) | zero
  deriving DecidableEq, Repr

/-- M index (R231). -/
inductive MIdx where
  | v (n : VReg) | s (n : SReg) | zero
  deriving DecidableEq, Repr

/-- Format tags (R177); the constructors stand in the order of their codes 0 to 13. -/
inductive Tag where
  | raw | f32 | bf16x2 | f16x2 | e4m3x4 | e5m2x4 | e2m1x8 | s32 | n32 | s16x2 | n16x2 | s8x4 | n8x4 | cbix2
  deriving DecidableEq, Repr

/-- Rounding modes (R179), codes 0 to 4. -/
inductive Rnd where
  | rne | rz | ru | rd | sr
  deriving DecidableEq, Repr

/-- Permutations (R225), but for code 0. -/
inductive PCode where
  | bfly (k : Fin 6) | rot (k : Fin 7) | rev | bc (l : Fin 64)
  deriving DecidableEq, Repr

/-- The permuted source of an instruction, if any (R224). -/
inductive Perm where
  | none | a (p : PCode) | b (p : PCode) | c (p : PCode)
  deriving DecidableEq, Repr

/-- Conditions of NEXTC (R229), codes 0 to 5. -/
inductive NCond where
  | nz | z | neg | nneg | odd | even
  deriving DecidableEq, Repr

/-- Conditions of SCMP (R254), codes 0 to 5. -/
inductive SCond where
  | eq | ne | lt | ge | ltn | gen
  deriving DecidableEq, Repr

/-- Conditions of VCMP (R263), codes 0 to 5. -/
inductive VCond where
  | eq | ne | lt | le | gt | ge
  deriving DecidableEq, Repr

/-- Conditions of VFCMP (R267), codes 0 to 7. -/
inductive FCond where
  | eq | ne | lt | le | gt | ge | un | ord
  deriving DecidableEq, Repr

/-- Operations of VRED and VSCAN (R282), codes 0 to 5. -/
inductive ROp where
  | add | min | max | and | or | xor
  deriving DecidableEq, Repr

/-- Barrier scopes (R229), codes 0 to 4. -/
inductive Scope where
  | core | quad | die | pkg | pod
  deriving DecidableEq, Repr

/-- Scopes of ICINV (R339), codes 0 to 3. -/
inductive IScope where
  | core | quad | die | pkg
  deriving DecidableEq, Repr

/-- Memory orders (R226), codes 0 to 3. -/
inductive Order where
  | plain | acq | rel | ar
  deriving DecidableEq, Repr

/-- Order and observer set (R165, R226). -/
structure Ord where
  order : Order
  obs : Byte
  deriving DecidableEq, Repr

/-- What a vector load loads (R233): 32 bits with a tag, or a narrow integer extended. -/
inductive LdTy where
  | tag (t : Tag) | n8 | s8 | n16 | s16
  deriving DecidableEq, Repr

/-- Width of a vector store (R233), codes 0 to 2. -/
inductive VW where
  | b32 | b8 | b16
  deriving DecidableEq, Repr

/-- Width and extension of a scalar load (R233), codes 0 to 6. -/
inductive SLdW where
  | n8 | s8 | n16 | s16 | n32 | s32 | b64
  deriving DecidableEq, Repr

/-- Width of a scalar store (R233), codes 0 to 3. -/
inductive SStW where
  | b8 | b16 | b32 | b64
  deriving DecidableEq, Repr

/-- Memory spaces (R233, R297), codes 0 to 4: global, team scratchpad, the quad neighbours' scratchpads. -/
inductive Space where
  | gm | sp | q1 | q2 | q3
  deriving DecidableEq, Repr

/-- Atomic operations (R227), codes 0 to 12. -/
inductive AOp where
  | add | and | or | xor | min | max | minn | maxn | xchg | cas | faddF32 | faddBf16 | faddF16
  deriving DecidableEq, Repr

/-- The address terms of an M-format word (R226). -/
structure MAddr where
  base : SZ
  index : MIdx
  scale : Fin 4
  off : BitVec 12
  deriving DecidableEq, Repr

/-- Whole tile or one half (R228, R308), codes 0 to 2. -/
inductive Half where
  | whole | lo | hi
  deriving DecidableEq, Repr

/-- An A operand of MMA (R310): address register and space, or generator. -/
inductive AOpd where
  | addr (s : SReg) (sp : Bool) | gen (g : Fin 8)
  deriving DecidableEq, Repr

/-- A B operand of MMA (R310): address, generator, or codebook with its bank. -/
inductive BOpd where
  | addr (s : SReg) (sp : Bool) | gen (g : Fin 8) | cb (s : SReg) (sp : Bool) (bank : Fin 16)
  deriving DecidableEq, Repr

/-- Fields of GSET (R322), codes 0 to 5. -/
inductive GField where
  | seed | scale | param | row0 | col0 | ctl
  deriving DecidableEq, Repr

/-! ### Shapes: the operands of an instruction, by the layout of its word -/

/-- Only a slot. -/
structure Bare where
  slot : Slot
  deriving DecidableEq, Repr

/-- NEXT (R240). -/
structure Next where
  slot : Slot
  bt : BlockNo
  deriving DecidableEq, Repr

/-- NEXTC (R240). -/
structure NextC where
  slot : Slot
  src : VSrc
  bt : BlockNo
  bf : BlockNo
  cond : NCond
  keep : Bool
  deriving DecidableEq, Repr

/-- NEXTM (R240). -/
structure NextM where
  slot : Slot
  src : MSrc
  bt : BlockNo
  bf : BlockNo
  deriving DecidableEq, Repr

/-- NEXTX (R240). -/
structure NextX where
  slot : Slot
  src : VReg
  deriving DecidableEq, Repr

/-- CALLA (R244). -/
structure CallA where
  slot : Slot
  img : SReg
  bt : BlockNo
  deriving DecidableEq, Repr

/-- BAR, BARA, BARW (R247). -/
structure Bar where
  slot : Slot
  scope : Scope
  deriving DecidableEq, Repr

/-- A scalar instruction of one source (R252). -/
structure S1 where
  slot : Slot
  d : SDst
  a : SSrc
  deriving DecidableEq, Repr

/-- A scalar instruction of two sources (R252). -/
structure S2 where
  slot : Slot
  d : SDst
  a : SSrc
  b : SSrc
  deriving DecidableEq, Repr

/-- SSEL and SADDC (R252). -/
structure S3 where
  slot : Slot
  d : SDst
  a : SSrc
  b : SSrc
  c : SSrc
  deriving DecidableEq, Repr

/-- SCMP (R254). -/
structure SCmp where
  slot : Slot
  d : SDst
  a : SSrc
  b : SSrc
  cond : SCond
  deriving DecidableEq, Repr

/-- A scalar immediate form (R230, R252). -/
structure SI where
  slot : Slot
  d : SDst
  a : SSrc
  imm : BitVec 32
  deriving DecidableEq, Repr

/-- The i form of SCMP (R254). -/
structure SCmpI where
  slot : Slot
  d : SDst
  a : SSrc
  cond : SCond
  imm : BitVec 28
  deriving DecidableEq, Repr

/-- SLI and SLIH (R230, R253). -/
structure SLi where
  slot : Slot
  d : SDst
  imm : BitVec 32
  deriving DecidableEq, Repr

/-- A vector instruction of one source (R224). -/
structure V1 where
  slot : Slot
  fmt : Tag
  rnd : Rnd
  d : VDst
  a : VSrc
  perm : Perm
  deriving DecidableEq, Repr

/-- A vector instruction of two sources. -/
structure V2 where
  slot : Slot
  fmt : Tag
  rnd : Rnd
  d : VDst
  a : VSrc
  b : VSrc
  perm : Perm
  deriving DecidableEq, Repr

/-- A vector instruction of three sources. -/
structure V3 where
  slot : Slot
  fmt : Tag
  rnd : Rnd
  d : VDst
  a : VSrc
  b : VSrc
  c : VSrc
  perm : Perm
  deriving DecidableEq, Repr

/-- VCMP (R263). -/
structure VCmp where
  slot : Slot
  fmt : Tag
  cond : VCond
  d : VDst
  a : VSrc
  b : VSrc
  perm : Perm
  deriving DecidableEq, Repr

/-- VFCMP (R267). -/
structure VFCmp where
  slot : Slot
  fmt : Tag
  cond : FCond
  d : VDst
  a : VSrc
  b : VSrc
  perm : Perm
  deriving DecidableEq, Repr

/-- VSEL (R264). -/
structure VSel where
  slot : Slot
  d : VDst
  a : VSrc
  b : VSrc
  m : MSrc
  perm : Perm
  deriving DecidableEq, Repr

/-- VLI (R230, R264). -/
structure VLi where
  slot : Slot
  tag : Tag
  d : VDst
  imm : Word
  deriving DecidableEq, Repr

/-- VCVT, VCVTI, VCVTF, VPACK, VUNPK (R271 to R274). -/
structure VCvt where
  slot : Slot
  dst : Tag
  src : Tag
  rnd : Rnd
  sat : Bool
  amax : Bool
  sub : Fin 4
  d : VDst
  a : VSrc
  b : VSrc
  perm : Perm
  deriving DecidableEq, Repr

/-- VXPD (R277). -/
structure Vxpd where
  slot : Slot
  d : VDst
  a : VSrc
  e : SSrc
  bank : Fin 16
  hi : Bool
  perm : Perm
  deriving DecidableEq, Repr

/-- VGETTAG and VRFL (R275, R281). -/
structure VToS where
  slot : Slot
  d : SDst
  a : VSrc
  perm : Perm
  deriving DecidableEq, Repr

/-- AMAXR (R276). -/
structure AmaxR where
  slot : Slot
  fmt : Tag
  a : VSrc
  perm : Perm
  deriving DecidableEq, Repr

/-- AMAXC (R276). -/
structure AmaxC where
  slot : Slot
  d : SDst
  deriving DecidableEq, Repr

/-- VBCS and VCMPR (R280). -/
structure VM where
  slot : Slot
  d : VDst
  a : VSrc
  m : MSrc
  perm : Perm
  deriving DecidableEq, Repr

/-- VBAL (R281). -/
structure VBal where
  slot : Slot
  d : MDst
  a : VSrc
  perm : Perm
  deriving DecidableEq, Repr

/-- VPFX (R281). -/
structure VPfx where
  slot : Slot
  d : VDst
  m : MSrc
  deriving DecidableEq, Repr

/-- VRED (R282). -/
structure VRed where
  slot : Slot
  fmt : Tag
  rnd : Rnd
  op : ROp
  d : SDst
  a : VSrc
  perm : Perm
  deriving DecidableEq, Repr

/-- VSCAN (R282). -/
structure VScan where
  slot : Slot
  fmt : Tag
  rnd : Rnd
  op : ROp
  excl : Bool
  d : VDst
  a : VSrc
  perm : Perm
  deriving DecidableEq, Repr

/-- MAND, MOR, MXOR (R283). -/
structure M2 where
  slot : Slot
  d : MDst
  a : MSrc
  b : MSrc
  deriving DecidableEq, Repr

/-- MNOT (R283). -/
structure M1 where
  slot : Slot
  d : MDst
  a : MSrc
  deriving DecidableEq, Repr

/-- MPOPC and MFFS (R283). -/
structure MToS where
  slot : Slot
  d : SDst
  a : MSrc
  deriving DecidableEq, Repr

/-- MMOV (R283). -/
structure MMov where
  slot : Slot
  d : MSDst
  a : MSSrc
  deriving DecidableEq, Repr

/-- GSET (R322). -/
structure GSet where
  slot : Slot
  g : Fin 8
  a : SSrc
  field : GField
  deriving DecidableEq, Repr

/-- GADV (R323). -/
structure GAdv where
  slot : Slot
  g : Fin 8
  a : SSrc
  col : Bool
  deriving DecidableEq, Repr

/-- GRD (R324). -/
structure Grd where
  slot : Slot
  d : VDst
  g : Fin 8
  r : VSrc
  c : VSrc
  deriving DecidableEq, Repr

/-- VLD, and VLDS with its scratchpad space in q (R285). -/
structure VLd where
  slot : Slot
  la : La
  q : Fin 4
  ty : LdTy
  d : VDst
  addr : MAddr
  ord : Ord
  deriving DecidableEq, Repr

/-- VST, and VSTS with its scratchpad space in q (R285). -/
structure VSt where
  slot : Slot
  la : La
  q : Fin 4
  w : VW
  src : VSrc
  addr : MAddr
  ord : Ord
  deriving DecidableEq, Repr

/-- VCST (R287). -/
structure VCst where
  slot : Slot
  la : La
  src : VSrc
  m : MSrc
  addr : MAddr
  ord : Ord
  deriving DecidableEq, Repr

/-- SLD (R285). -/
structure SLd where
  slot : Slot
  la : La
  space : Space
  w : SLdW
  d : SReg
  addr : MAddr
  ord : Ord
  deriving DecidableEq, Repr

/-- SST (R285). -/
structure SSt where
  slot : Slot
  la : La
  space : Space
  w : SStW
  src : SZ
  addr : MAddr
  ord : Ord
  deriving DecidableEq, Repr

/-- VATOM (R288). -/
structure VAtom where
  slot : Slot
  la : La
  space : Space
  op : AOp
  nr : Bool
  data : VReg
  addr : MAddr
  ord : Ord
  deriving DecidableEq, Repr

/-- SATOM (R288). -/
structure SAtom where
  slot : Slot
  la : La
  space : Space
  wide : Bool
  op : AOp
  nr : Bool
  data : SReg
  addr : MAddr
  ord : Ord
  deriving DecidableEq, Repr

/-- LDL (R291). -/
structure Ldl where
  slot : Slot
  la : La
  d : VDst
  addr : MAddr
  ord : Ord
  deriving DecidableEq, Repr

/-- STC (R291); `n` is the value count minus 1. -/
structure Stc where
  slot : Slot
  la : La
  vf : VReg
  vs : VReg
  n : Fin 4
  ord : Ord
  deriving DecidableEq, Repr

/-- FENCE (R294). -/
structure Fence where
  slot : Slot
  obs : Byte
  deriving DecidableEq, Repr

/-- FENCEX (R295). -/
structure FenceX where
  slot : Slot
  obs : Byte
  vec : Bool
  mtx : Bool
  cpy : Bool
  deriving DecidableEq, Repr

/-- SPLK (R296). -/
structure SpLk where
  slot : Slot
  la : La
  d : VDst
  addr : MAddr
  deriving DecidableEq, Repr

/-- SPSET (R296). -/
structure SpSet where
  slot : Slot
  la : La
  n : SReg
  src : SReg
  deriving DecidableEq, Repr

/-- SPCLR (R296). -/
structure SpClr where
  slot : Slot
  la : La
  n : SReg
  deriving DecidableEq, Repr

/-- SPGET (R296). -/
structure SpGet where
  slot : Slot
  la : La
  d : SReg
  n : SReg
  deriving DecidableEq, Repr

/-- GLD and GST (R325). -/
structure GMem where
  slot : Slot
  la : La
  g : Fin 8
  addr : MAddr
  deriving DecidableEq, Repr

/-- MMA and MMAZ (R310). -/
structure Mma where
  slot : Slot
  tile : Fin 16
  half : Half
  fmt : Tag
  ta : Bool
  tb : Bool
  a : AOpd
  b : BOpd
  deriving DecidableEq, Repr

/-- MZERO (R314). -/
structure MZero where
  slot : Slot
  tile : Fin 16
  half : Half
  deriving DecidableEq, Repr

/-- MLD (R315). -/
structure MLd where
  slot : Slot
  tile : Fin 16
  half : Half
  fmt : Tag
  tr : Bool
  s : SReg
  sp : Bool
  deriving DecidableEq, Repr

/-- MST (R316). -/
structure MSt where
  slot : Slot
  la : La
  tile : Fin 16
  half : Half
  fmt : Tag
  sat : Bool
  amax : Bool
  rnd : Rnd
  s : SReg
  sp : Bool
  deriving DecidableEq, Repr

/-- MRSTL (R318). -/
structure MRstl where
  slot : Slot
  entry : Fin 16
  deriving DecidableEq, Repr

/-- CBWR (R330). -/
structure CbWr where
  slot : Slot
  la : La
  bank : Fin 16
  e : SSrc
  w : SSrc
  deriving DecidableEq, Repr

/-- CBCFG (R331). -/
structure CbCfg where
  slot : Slot
  bank : Fin 16
  c : SSrc
  deriving DecidableEq, Repr

/-- CBINV (R332). -/
structure CbInv where
  slot : Slot
  bank : Fin 16
  deriving DecidableEq, Repr

/-- CPY and CPYN (R297); `install` names the register that holds the entry number. -/
structure Cpy where
  slot : Slot
  h : Fin 16
  sa : SReg
  tag : Fin 64
  src : Space
  dst : Space
  install : Option SReg
  deriving DecidableEq, Repr

/-- TWANY, TWALL, TCLR (R302). -/
structure TMask where
  slot : Slot
  a : MSSrc
  deriving DecidableEq, Repr

/-- TFFR (R302). -/
structure TFfr where
  slot : Slot
  d : SDst
  a : MSSrc
  deriving DecidableEq, Repr

/-- HTEST (R303). -/
structure HTest where
  slot : Slot
  d : SDst
  h : Fin 16
  deriving DecidableEq, Repr

/-- HWAIT and HCANCEL (R302, R304). -/
structure HOp where
  slot : Slot
  h : Fin 16
  deriving DecidableEq, Repr

/-- CBLD (R329). -/
structure CbLd where
  slot : Slot
  h : Fin 16
  sa : SReg
  tag : Fin 64
  sp : Bool
  bank : Fin 8
  deriving DecidableEq, Repr

/-- SWTRAP and PMARK (R230). -/
structure Imm16 where
  slot : Slot
  imm : BitVec 16
  deriving DecidableEq, Repr

/-- CSRR (R337). -/
structure CsrR where
  slot : Slot
  d : SZ
  csr : BitVec 16
  deriving DecidableEq, Repr

/-- CSRW (R337). -/
structure CsrW where
  slot : Slot
  csr : BitVec 16
  src : SReg
  deriving DecidableEq, Repr

/-- ICINV (R339). -/
structure IcInv where
  slot : Slot
  scope : IScope
  deriving DecidableEq, Repr

/-- TICK (R340). -/
structure TickI where
  slot : Slot
  d : SZ
  deriving DecidableEq, Repr

/-! ### Arguments of the package's events -/

/-- One ATS translation the host grants: context PASID, 4 KiB page of the untranslated address, host page, and the grant
(R43, R153). -/
structure AtsEntry where
  pasid : Nat
  page : Nat
  host : Nat
  rd : Bool
  wr : Bool
  at_ : Bool
  deriving DecidableEq, Repr

/-- PRI response codes (R44). -/
inductive PriCode where
  | success | invalid | failure
  deriving DecidableEq, Repr

/-- What a request between packages does (R289, R290). -/
inductive PeerOp where
  | read (n : Nat)
  | write (bytes : List Byte)
  | atomic (op : AOp) (wide : Bool) (x y : DWord)
  deriving DecidableEq, Repr

/-- A request between packages as it arrives over Transom (R31, R32): the pod ids of its sender and of the package it is
addressed to, the hops made, the local-map address and the operation; the agent of the sender whose access it is, by a number that the
sender gives it, with the access's order and observer set, which for a store after a FENCE of that agent are a release with the FENCE's
set (R165, R168). -/
structure PeerReq where
  src : Nat
  dst : Nat
  hops : Nat
  addr : Nat
  op : PeerOp
  agent : Nat := 0
  ord : Ord := ⟨.plain, 0⟩
  deriving DecidableEq, Repr

/-! ### The instructions and events -/

/-- What the driver writes into the entry of a vector in a function's MSI-X table: its address, its data and its mask (R60). -/
structure MsixWrite where
  vec : Nat
  addr : DWord
  data : Word
  masked : Bool
  deriving DecidableEq, Repr

/-- One constructor per row of spec/opcode_table.json; those without operands stand last. -/
inductive Instr where
  /-- R65 FUNCTION_LEVEL_RESET (event). -/
  | functionLevelReset (link : Fin 2)
  /-- R40 PCIE_LINK_DOWN (event). -/
  | pcieLinkDown (link : Fin 2) (lost : List Nat)
  /-- R43 ATS_INVALIDATE (event). -/
  | atsInvalidate (fn : Fin 2) (pasid : Nat) (page : Nat) (pages : Nat) (grants : List AtsEntry)
  /-- R44 PRI_RESPONSE (event). -/
  | priResponse (ctx : Nat) (page : Nat) (code : PriCode) (grants : List AtsEntry)
  /-- R60 MSIX_UNMASK (event). -/
  | msixUnmask (fn : Fin 2) (x : MsixWrite)
  /-- R24 UNCORRECTED_ERROR (event). -/
  | uncorrectedError (w : Nat) (source : Nat) (addr : Nat)
  /-- R12 ROW_RETIRE (event). -/
  | rowRetire (die : Fin 4) (bank : Nat) (row : Nat)
  /-- R27 D2D_LINK_FAILURE (event). -/
  | d2dLinkFailure (die : Fin 4) (bit : Fin 2)
  /-- R29 FLIT_RECEIVE (event). -/
  | flitReceive (link : Fin 12) (flit : List Byte)
  /-- R30 LANE_REPAIR (event). -/
  | laneRepair (link : Fin 12) (lane : Fin 8)
  /-- R32 PEER_REQUEST_FORWARD (event). -/
  | peerRequestForward (r : PeerReq)
  /-- R36 TRANSOM_LINK_TRAINED (event). -/
  | transomLinkTrained (link : Fin 12)
  /-- R290 PEER_REQUEST_ARRIVAL (event). -/
  | peerRequestArrival (r : PeerReq)
  /-- R77 POD_ARRIVAL (event). -/
  | podArrival (mem : Nat) (launchid : Nat) (phase : Nat) (final : Bool)
  /-- R77 POD_RELEASE (event). -/
  | podRelease (launchid : Nat) (phase : Nat)
  /-- R23 POWER_CAP (event). -/
  | powerCap (watts : Nat)
  /-- R66 ONE_LINK_RESET (event). -/
  | oneLinkReset (link : Fin 2)
  /-- R66 SHUTTER_READOUT (event). -/
  | shutterReadout (t : DWord) (bytes : Nat)
  /-- R66 REPAIR_APPEND (event). -/
  | repairAppend (die : Fin 4) (quad : Nat)
  /-- R47 DOORBELL_WIDX (event). -/
  | doorbellWidx (q : Nat) (v : DWord) (whole : Bool)
  /-- R42 ADMQ_WIDX (event). -/
  | admqWidx (v : DWord)
  /-- R40 LINKPAIR_PAIRED (event). -/
  | linkpairPaired (link : Fin 2) (v : Bool)
  /-- R57 FQ_ENABLE (event). -/
  | fqEnable (v : DWord)
  /-- R34 PODID_WRITE (event). -/
  | podidWrite (v : Word)
  /-- R37 XPEERTO_WRITE (event). -/
  | xpeertoWrite (v : DWord)
  /-- R36 XLSTAT_CLRCNT (event). -/
  | xlstatClrcnt (link : Fin 12)
  /-- R64 TIMETABLE_SKIPS_CLEAR (event). -/
  | timetableSkipsClear (n : Fin 256) (v : DWord)
  /-- R202 SHUTTER_ARM (event). -/
  | shutterArm (v : Bool)
  /-- R209 QCTL_STOP (event). -/
  | qctlStop (g : Nat)
  /-- R209 QCTL_RESUME (event). -/
  | qctlResume (g : Nat)
  /-- R212 DSTEP_GO (event). -/
  | dstepGo (core : Nat)
  /-- R5 REGISTER_WRITE (event). -/
  | registerWrite (off : Nat) (v : DWord)
  /-- R48 PACKET_CONSUME (event). -/
  | packetConsume (q : Nat)
  /-- R50 NOP_PACKET (event). -/
  | nopPacket (q : Nat)
  /-- R51 LAUNCH (event). -/
  | launch (q : Nat)
  /-- R53 LAUNCH_COMPLETE (event). -/
  | launchComplete (l : Nat)
  /-- R54 COPY (event). -/
  | copy (q : Nat)
  /-- R54 COPY_PACKET_COMPLETE (event). -/
  | copyPacketComplete (q : Nat) (i : Nat)
  /-- R54 SIGNAL (event). -/
  | signal (q : Nat)
  /-- R54 WAIT (event). -/
  | wait (q : Nat)
  /-- R54 WAIT_POLL (event). -/
  | waitPoll (q : Nat)
  /-- R54 TIMESTAMP (event). -/
  | timestamp (q : Nat)
  /-- R73 TEAM_PLACE (event). -/
  | teamPlace (l : Nat)
  /-- R98 WAVE_START (event). -/
  | waveStart (w : Nat)
  /-- R94 CLAUSE_START (event). -/
  | clauseStart (core : Nat)
  /-- R127 LONG_LATENCY_COMPLETE (event). -/
  | longLatencyComplete (w : Nat)
  /-- R306 MATRIX_ENGINE_PERFORM (event). -/
  | matrixEnginePerform (core : Nat)
  /-- R108 VOTE (event). -/
  | vote (w : Nat)
  /-- R115 QUANTUM_END (event). -/
  | quantumEnd (w : Nat)
  /-- R112 UNPARK (event). -/
  | unpark (w : Nat)
  /-- R120 WAIT_SATISFIED (event). -/
  | waitSatisfied (w : Nat) (f : Nat)
  /-- R249 BARRIER_RELEASE (event). -/
  | barrierRelease (scope : Scope) (l : Nat) (unit : Nat)
  /-- R97 WAVE_END (event). -/
  | waveEnd (w : Nat)
  /-- R97 TEAM_END (event). -/
  | teamEnd (t : Nat)
  /-- R132 TRAP_ENTRY (event). -/
  | trapEntry (w : Nat)
  /-- R84 LOG_APPLY (event). -/
  | logApply (t : Nat)
  /-- R85 TICKET_RELEASE (event). -/
  | ticketRelease (l : Nat)
  /-- R301 COMMAND_COMPLETE (event). -/
  | commandComplete (t : Nat) (tag : Nat)
  /-- R329 CBLD_COMPLETE (event). -/
  | cbldComplete (t : Nat) (tag : Nat)
  /-- R241 NEXT. -/
  | next (o : Next)
  /-- R241 NEXTC. -/
  | nextc (o : NextC)
  /-- R241 NEXTM. -/
  | nextm (o : NextM)
  /-- R241 NEXTX. -/
  | nextx (o : NextX)
  /-- R241 HALT. -/
  | halt (o : Bare)
  /-- R242 YIELD. -/
  | yield (o : Bare)
  /-- R245 CALLA. -/
  | calla (o : CallA)
  /-- R246 RETA. -/
  | reta (o : Bare)
  /-- R249 BAR. -/
  | bar (o : Bar)
  /-- R249 BARA. -/
  | bara (o : Bar)
  /-- R249 BARW. -/
  | barw (o : Bar)
  /-- R253 SADD. -/
  | sadd (o : S2)
  /-- R253 SSUB. -/
  | ssub (o : S2)
  /-- R253 SMUL. -/
  | smul (o : S2)
  /-- R253 SMULH. -/
  | smulh (o : S2)
  /-- R253 SMULHN. -/
  | smulhn (o : S2)
  /-- R253 SAND. -/
  | sand (o : S2)
  /-- R253 SOR. -/
  | sor (o : S2)
  /-- R253 SXOR. -/
  | sxor (o : S2)
  /-- R253 SNOT. -/
  | snot (o : S1)
  /-- R253 SSHL. -/
  | sshl (o : S2)
  /-- R253 SSHR. -/
  | sshr (o : S2)
  /-- R253 SSRA. -/
  | ssra (o : S2)
  /-- R253 SMIN. -/
  | smin (o : S2)
  /-- R253 SMAX. -/
  | smax (o : S2)
  /-- R253 SMINN. -/
  | sminn (o : S2)
  /-- R253 SMAXN. -/
  | smaxn (o : S2)
  /-- R254 SCMP. -/
  | scmp (o : SCmp)
  /-- R253 SSEL. -/
  | ssel (o : S3)
  /-- R253 SMOV. -/
  | smov (o : S1)
  /-- R253 SLI. -/
  | sli (o : SLi)
  /-- R253 SLIH. -/
  | slih (o : SLi)
  /-- R253 SCLZ. -/
  | sclz (o : S1)
  /-- R253 SPOPC. -/
  | spopc (o : S1)
  /-- R253 SADDC. -/
  | saddc (o : S3)
  /-- R252 SADD_I. -/
  | saddI (o : SI)
  /-- R252 SSUB_I. -/
  | ssubI (o : SI)
  /-- R252 SMUL_I. -/
  | smulI (o : SI)
  /-- R252 SAND_I. -/
  | sandI (o : SI)
  /-- R252 SOR_I. -/
  | sorI (o : SI)
  /-- R252 SXOR_I. -/
  | sxorI (o : SI)
  /-- R254 SSHL_I. -/
  | sshlI (o : SI)
  /-- R254 SSHR_I. -/
  | sshrI (o : SI)
  /-- R254 SSRA_I. -/
  | ssraI (o : SI)
  /-- R252 SMIN_I. -/
  | sminI (o : SI)
  /-- R252 SMAX_I. -/
  | smaxI (o : SI)
  /-- R252 SMINN_I. -/
  | sminnI (o : SI)
  /-- R252 SMAXN_I. -/
  | smaxnI (o : SI)
  /-- R254 SCMP_I. -/
  | scmpI (o : SCmpI)
  /-- R262 VADD. -/
  | vadd (o : V2)
  /-- R262 VSUB. -/
  | vsub (o : V2)
  /-- R262 VMUL. -/
  | vmul (o : V2)
  /-- R262 VMULH. -/
  | vmulh (o : V2)
  /-- R262 VMULHN. -/
  | vmulhn (o : V2)
  /-- R262 VMAD. -/
  | vmad (o : V3)
  /-- R262 VADDS. -/
  | vadds (o : V2)
  /-- R262 VSUBS. -/
  | vsubs (o : V2)
  /-- R262 VAND. -/
  | vand (o : V2)
  /-- R262 VOR. -/
  | vor (o : V2)
  /-- R262 VXOR. -/
  | vxor (o : V2)
  /-- R262 VNOT. -/
  | vnot (o : V1)
  /-- R262 VSHL. -/
  | vshl (o : V2)
  /-- R262 VSHR. -/
  | vshr (o : V2)
  /-- R262 VSRA. -/
  | vsra (o : V2)
  /-- R262 VMIN. -/
  | vmin (o : V2)
  /-- R262 VMAX. -/
  | vmax (o : V2)
  /-- R262 VMINN. -/
  | vminn (o : V2)
  /-- R262 VMAXN. -/
  | vmaxn (o : V2)
  /-- R262 VABS. -/
  | vabs (o : V1)
  /-- R262 VNEG. -/
  | vneg (o : V1)
  /-- R263 VCMP. -/
  | vcmp (o : VCmp)
  /-- R264 VSEL. -/
  | vsel (o : VSel)
  /-- R262 VPOPC. -/
  | vpopc (o : V1)
  /-- R262 VCLZ. -/
  | vclz (o : V1)
  /-- R264 VBFX. -/
  | vbfx (o : V2)
  /-- R264 VBFI. -/
  | vbfi (o : V3)
  /-- R264 VMOV. -/
  | vmov (o : V1)
  /-- R264 VLI. -/
  | vli (o : VLi)
  /-- R265 VDOT4. -/
  | vdot4 (o : V3)
  /-- R266 VFADD. -/
  | vfadd (o : V2)
  /-- R266 VFSUB. -/
  | vfsub (o : V2)
  /-- R266 VFMUL. -/
  | vfmul (o : V2)
  /-- R266 VFMA. -/
  | vfma (o : V3)
  /-- R266 VFMS. -/
  | vfms (o : V3)
  /-- R266 VFNMA. -/
  | vfnma (o : V3)
  /-- R190 VFMIN. -/
  | vfmin (o : V2)
  /-- R190 VFMAX. -/
  | vfmax (o : V2)
  /-- R267 VFCMP. -/
  | vfcmp (o : VFCmp)
  /-- R266 VFABS. -/
  | vfabs (o : V1)
  /-- R266 VFNEG. -/
  | vfneg (o : V1)
  /-- R268 VFCLS. -/
  | vfcls (o : V1)
  /-- R269 VFDOT2. -/
  | vfdot2 (o : V3)
  /-- R270 VRCP. -/
  | vrcp (o : V1)
  /-- R270 VRSQ. -/
  | vrsq (o : V1)
  /-- R270 VSQRT. -/
  | vsqrt (o : V1)
  /-- R270 VDIV. -/
  | vdiv (o : V2)
  /-- R270 VEXP2. -/
  | vexp2 (o : V1)
  /-- R270 VLOG2. -/
  | vlog2 (o : V1)
  /-- R270 VSINT. -/
  | vsint (o : V1)
  /-- R270 VCOST. -/
  | vcost (o : V1)
  /-- R272 VCVT. -/
  | vcvt (o : VCvt)
  /-- R273 VCVTI. -/
  | vcvti (o : VCvt)
  /-- R273 VCVTF. -/
  | vcvtf (o : VCvt)
  /-- R274 VPACK. -/
  | vpack (o : VCvt)
  /-- R274 VUNPK. -/
  | vunpk (o : VCvt)
  /-- R277 VXPD. -/
  | vxpd (o : Vxpd)
  /-- R275 VRETAG. -/
  | vretag (o : V1)
  /-- R275 VGETTAG. -/
  | vgettag (o : VToS)
  /-- R276 AMAXR. -/
  | amaxr (o : AmaxR)
  /-- R276 AMAXC. -/
  | amaxc (o : AmaxC)
  /-- R280 VSHFL. -/
  | vshfl (o : V2)
  /-- R281 VBAL. -/
  | vbal (o : VBal)
  /-- R281 VPFX. -/
  | vpfx (o : VPfx)
  /-- R282 VRED. -/
  | vred (o : VRed)
  /-- R282 VSCAN. -/
  | vscan (o : VScan)
  /-- R280 VCMPR. -/
  | vcmpr (o : VM)
  /-- R281 VRFL. -/
  | vrfl (o : VToS)
  /-- R280 VBCS. -/
  | vbcs (o : VM)
  /-- R283 MAND. -/
  | mand (o : M2)
  /-- R283 MOR. -/
  | mor (o : M2)
  /-- R283 MXOR. -/
  | mxor (o : M2)
  /-- R283 MNOT. -/
  | mnot (o : M1)
  /-- R283 MPOPC. -/
  | mpopc (o : MToS)
  /-- R283 MFFS. -/
  | mffs (o : MToS)
  /-- R283 MMOV. -/
  | mmov (o : MMov)
  /-- R322 GSET. -/
  | gset (o : GSet)
  /-- R324 GRD. -/
  | grd (o : Grd)
  /-- R323 GADV. -/
  | gadv (o : GAdv)
  /-- R286 VLD. -/
  | vld (o : VLd)
  /-- R286 VST. -/
  | vst (o : VSt)
  /-- R286 VLDS. -/
  | vlds (o : VLd)
  /-- R286 VSTS. -/
  | vsts (o : VSt)
  /-- R286 SLD. -/
  | sld (o : SLd)
  /-- R286 SST. -/
  | sst (o : SSt)
  /-- R289 VATOM. -/
  | vatom (o : VAtom)
  /-- R289 SATOM. -/
  | satom (o : SAtom)
  /-- R287 VCST_GM. -/
  | vcstGm (o : VCst)
  /-- R287 VCST_SP. -/
  | vcstSp (o : VCst)
  /-- R292 LDL_GM_32. -/
  | ldlGm32 (o : Ldl)
  /-- R292 LDL_GM_64. -/
  | ldlGm64 (o : Ldl)
  /-- R292 LDL_SP_32. -/
  | ldlSp32 (o : Ldl)
  /-- R292 LDL_SP_64. -/
  | ldlSp64 (o : Ldl)
  /-- R293 STC. -/
  | stc (o : Stc)
  /-- R292 LKCLR. -/
  | lkclr (o : Bare)
  /-- R294 FENCE. -/
  | fence (o : Fence)
  /-- R295 FENCEX. -/
  | fencex (o : FenceX)
  /-- R296 SPLK. -/
  | splk (o : SpLk)
  /-- R296 SPSET. -/
  | spset (o : SpSet)
  /-- R296 SPCLR. -/
  | spclr (o : SpClr)
  /-- R296 SPGET. -/
  | spget (o : SpGet)
  /-- R325 GLD_GM. -/
  | gldGm (o : GMem)
  /-- R325 GLD_SP. -/
  | gldSp (o : GMem)
  /-- R325 GST_GM. -/
  | gstGm (o : GMem)
  /-- R325 GST_SP. -/
  | gstSp (o : GMem)
  /-- R313 MMA. -/
  | mma (o : Mma)
  /-- R313 MMAZ. -/
  | mmaz (o : Mma)
  /-- R314 MZERO. -/
  | mzero (o : MZero)
  /-- R316 MST. -/
  | mst (o : MSt)
  /-- R315 MLD. -/
  | mld (o : MLd)
  /-- R318 MRSTL. -/
  | mrstl (o : MRstl)
  /-- R330 CBWR. -/
  | cbwr (o : CbWr)
  /-- R331 CBCFG. -/
  | cbcfg (o : CbCfg)
  /-- R332 CBINV. -/
  | cbinv (o : CbInv)
  /-- R298 CPY. -/
  | cpy (o : Cpy)
  /-- R299 CPYN. -/
  | cpyn (o : Cpy)
  /-- R302 TWANY. -/
  | twany (o : TMask)
  /-- R302 TWALL. -/
  | twall (o : TMask)
  /-- R302 TFFR. -/
  | tffr (o : TFfr)
  /-- R302 TCLR. -/
  | tclr (o : TMask)
  /-- R303 HTEST. -/
  | htest (o : HTest)
  /-- R302 HWAIT. -/
  | hwait (o : HOp)
  /-- R304 HCANCEL. -/
  | hcancel (o : HOp)
  /-- R329 CBLD. -/
  | cbld (o : CbLd)
  /-- R335 SWTRAP. -/
  | swtrap (o : Imm16)
  /-- R335 BRK. -/
  | brk (o : Bare)
  /-- R336 ERET. -/
  | eret (o : Bare)
  /-- R337 CSRR. -/
  | csrr (o : CsrR)
  /-- R337 CSRW. -/
  | csrw (o : CsrW)
  /-- R339 ICINV. -/
  | icinv (o : IcInv)
  /-- R340 TICK. -/
  | tick (o : TickI)
  /-- R340 PMARK. -/
  | pmark (o : Imm16)
  /-- R341 LACQ. -/
  | lacq (o : Bare)
  /-- R341 LREL. -/
  | lrel (o : Bare)
  /-- R342 TKWAIT. -/
  | tkwait (o : Bare)
  /-- R342 TKREL. -/
  | tkrel (o : Bare)
  /-- R40 PCIE_LINK_UP (event). -/
  | pcieLinkUp (link : Fin 2)
  /-- R65 PACKAGE_RESET (event). -/
  | packageReset
  /-- R61 PPS_EDGE (event). -/
  | ppsEdge
  /-- R24 LAUNCH_RESTART (event). -/
  | launchRestart
  /-- R33 PEER_TIMEOUT (event). -/
  | peerTimeout
  /-- R66 ATTESTATION (event). -/
  | attestation
  /-- R66 SENSORS (event). -/
  | sensors
  /-- R66 MODULE_RESET (event). -/
  | moduleReset
  /-- R66 WICKET_PACKAGE_RESET (event). -/
  | wicketPackageReset
  /-- R66 REPAIR_READ (event). -/
  | repairRead
  /-- R202 SHUTTER_NOW (event). -/
  | shutterNow
  /-- R202 SHUTTER_GATE (event). -/
  | shutterGate
  /-- R203 SHUTTER_UNGATE (event). -/
  | shutterUngate
  /-- R203 SHUTTER_DATA (event). -/
  | shutterData
  /-- R54 WAIT_TIMEOUT (event). -/
  | waitTimeout
  /-- R56 CTX_CREATE (event). -/
  | ctxCreate
  /-- R56 CTX_DESTROY (event). -/
  | ctxDestroy
  /-- R56 QUEUE_CREATE (event). -/
  | queueCreate
  /-- R56 QUEUE_DESTROY (event). -/
  | queueDestroy
  /-- R56 SET_RANGE (event). -/
  | setRange
  /-- R56 SET_PTBASE (event). -/
  | setPtbase
  /-- R162 SET_APERTURE (event). -/
  | setAperture
  /-- R88 PREEMPT (event). -/
  | preempt
  /-- R92 PREEMPT_RESUME (event). -/
  | preemptResume
  /-- R88 PREEMPT_DRAINED (event). -/
  | preemptDrained
  /-- R88 DRAIN_LIMIT (event). -/
  | drainLimit
  /-- R62 TIMETABLE_SET (event). -/
  | timetableSet
  /-- R61 SET (event). -/
  | timeSet
  /-- R61 OFFSET (event). -/
  | timeOffset
  /-- R61 RATE (event). -/
  | timeRate
  /-- R61 SET_AT_PPS (event). -/
  | setAtPps
  /-- R56 ICINV_BROADCAST (event). -/
  | icinvBroadcast
  /-- R213 TRACE_CONFIG (event). -/
  | traceConfig
  /-- R59 RETRY (event). -/
  | retry
  /-- R59 FAULT_REPLY_TRAP (event). -/
  | faultReplyTrap
  /-- R59 KILL (event). -/
  | kill
  /-- R59 RELEASE_CORE (event). -/
  | releaseCore
  /-- R57 FAULT_RECORD_WRITE (event). -/
  | faultRecordWrite
  /-- R62 TIMETABLE_SLOT (event). -/
  | timetableSlot
  /-- R63 TIMETABLE_DEFERRED_START (event). -/
  | timetableDeferredStart
  /-- R67 ARBITER_SERVE (event). -/
  | arbiterServe
  /-- R74 GANG_PLACE (event). -/
  | gangPlace
  /-- R68 AGING (event). -/
  | aging
  /-- R215 HIST_SAMPLE (event). -/
  | histSample
  /-- R215 HIST_FLUSH (event). -/
  | histFlush
  /-- R243 NOP. -/
  | nop
  deriving DecidableEq, Repr

end Sys2Proof
end

