-- ==== Sys2Proof/WellFormed.lean ====
section
/-! DEFINITION. Which instructions are well formed: the limits the instruction chapters set on operands and formats beyond the
kinds of operand (R222 check 6 but for block numbers, bank and tile numbers, which depend on the image and the team). -/

namespace Sys2Proof

/-- A v register as source. -/
def VSrc.isV : VSrc → Bool
  | .v _ => true
  | _ => false

/-- A permutation is legal only on a source that is a v register (R224); an absent source is given as zero. -/
def Perm.wf (p : Perm) (a b c : VSrc) : Bool :=
  match p with
  | .none => true
  | .a _ => a.isV
  | .b _ => b.isV
  | .c _ => c.isV

/-- Integer formats (R261). -/
def Tag.isInt : Tag → Bool
  | .s32 | .n32 | .s16x2 | .n16x2 | .s8x4 | .n8x4 => true
  | _ => false

/-- Signed integer formats. -/
def Tag.isSigned : Tag → Bool
  | .s32 | .s16x2 | .s8x4 => true
  | _ => false

/-- The formats of the floating-point instructions (R266). -/
def Tag.isFloat : Tag → Bool
  | .f32 | .bf16x2 | .f16x2 => true
  | _ => false

/-- Every floating-point tag (R177, R271). -/
def Tag.isAnyFloat : Tag → Bool
  | .f32 | .bf16x2 | .f16x2 | .e4m3x4 | .e5m2x4 | .e2m1x8 => true
  | _ => false

/-- Elements in one lane (R177, R271). -/
def Tag.cnt : Tag → Nat
  | .raw | .f32 | .s32 | .n32 => 1
  | .bf16x2 | .f16x2 | .s16x2 | .n16x2 | .cbix2 => 2
  | .e4m3x4 | .e5m2x4 | .s8x4 | .n8x4 => 4
  | .e2m1x8 => 8

/-- A run of n v registers lies within v0 to v63 or within v64 to v127, and does not start at zero (R259). -/
def VDst.run (d : VDst) (n : Nat) : Bool :=
  match d with
  | .v r => decide (r.val % 64 + n ≤ 64)
  | .zero => false

/-- Order legal where plain and `o` are; plain carries no observers (R226, R284). -/
def Ord.okFor (r : Ord) (o : Order) : Bool :=
  match r.order with
  | .plain => r.obs == 0
  | x => x == o

/-- Order of an atomic (R226). -/
def Ord.okAtomic (r : Ord) : Bool :=
  match r.order with
  | .plain => r.obs == 0
  | _ => true

/-- A scalar form's index (R285). -/
def MIdx.scalar : MIdx → Bool
  | .v _ => false
  | _ => true

/-- A register field that an instruction does not use holds 0, which reads as v0. -/
def VSrc.unused (a : VSrc) : Bool := a == .v 0

/-- One-source vector instruction over a set of formats, not rounding. -/
def V1.ok (o : V1) (f : Tag → Bool) : Bool := f o.fmt && o.rnd == .rne && o.perm.wf o.a .zero .zero

/-- Two-source vector instruction over a set of formats, not rounding. -/
def V2.ok (o : V2) (f : Tag → Bool) : Bool := f o.fmt && o.rnd == .rne && o.perm.wf o.a o.b .zero

/-- Two-source vector instruction that rounds (R266). -/
def V2.okRnd (o : V2) : Bool := o.fmt.isFloat && o.rnd != .sr && o.perm.wf o.a o.b .zero

/-- Three-source vector instruction over a set of formats, not rounding. -/
def V3.ok (o : V3) (f : Tag → Bool) : Bool := f o.fmt && o.rnd == .rne && o.perm.wf o.a o.b o.c

/-- Three-source vector instruction that rounds (R266, R269). -/
def V3.okRnd (o : V3) (f : Tag → Bool) : Bool := f o.fmt && o.rnd != .sr && o.perm.wf o.a o.b o.c

/-- VCVT (R271). -/
def VCvt.okCvt (o : VCvt) : Bool :=
  let ns := o.src.cnt
  let nd := o.dst.cnt
  o.src.isAnyFloat && o.dst.isAnyFloat && o.src != o.dst &&
    if nd = ns then o.b.unused && o.sub == 0 && o.perm.wf o.a .zero .zero
    else if nd > ns then decide (o.sub.val < nd / (2 * ns)) && o.perm.wf o.a o.b .zero
    else decide (o.sub.val < ns / (2 * nd)) && o.rnd == .rne && !o.sat && o.b.unused && o.perm.wf o.a .zero .zero && o.d.run 2

/-- VCVTI (R273). -/
def VCvt.okCvtI (o : VCvt) : Bool :=
  (match o.src with
    | .f32 => o.dst == .s32 || o.dst == .n32
    | .bf16x2 | .f16x2 => o.dst == .s16x2 || o.dst == .n16x2
    | _ => false) && !o.sat && o.sub == 0 && o.b.unused && o.perm.wf o.a .zero .zero

/-- VCVTF (R273). -/
def VCvt.okCvtF (o : VCvt) : Bool :=
  (match o.src with
    | .s32 | .n32 => o.dst == .f32
    | .s16x2 | .n16x2 => o.dst == .bf16x2 || o.dst == .f16x2
    | _ => false) && !o.amax && o.sub == 0 && o.b.unused && o.perm.wf o.a .zero .zero

/-- VPACK (R274). -/
def VCvt.okPack (o : VCvt) : Bool :=
  (match o.src with
    | .s32 | .n32 => o.dst == .s16x2 || o.dst == .n16x2
    | .s16x2 | .n16x2 => o.dst == .s8x4 || o.dst == .n8x4
    | _ => false) && o.rnd == .rne && !o.amax && o.sub == 0 && o.perm.wf o.a o.b .zero

/-- VUNPK (R274). -/
def VCvt.okUnpk (o : VCvt) : Bool :=
  (match o.src with
    | .s16x2 => o.dst == .s32
    | .n16x2 => o.dst == .n32
    | .s8x4 => o.dst == .s16x2
    | .n8x4 => o.dst == .n16x2
    | .cbix2 => o.dst == .n32
    | _ => false) && o.rnd == .rne && !o.sat && !o.amax && o.sub == 0 && o.b.unused && o.perm.wf o.a .zero .zero && o.d.run 2

/-- Format, operation and rounding of VRED and VSCAN (R282). -/
def ROp.ok (op : ROp) (fmt : Tag) (rnd : Rnd) : Bool :=
  if fmt.isInt then rnd == .rne
  else fmt.isFloat && match op with
    | .add => rnd != .sr
    | .min | .max => rnd == .rne
    | _ => false

/-- Atomic operation, nr and width (R227). -/
def AOp.ok (op : AOp) (nr wide : Bool) : Bool :=
  match op with
  | .xchg | .cas => !nr
  | .faddF32 | .faddBf16 | .faddF16 => !wide
  | _ => true

/-- Inputs of MMA (R310). -/
def Tag.isMma : Tag → Bool
  | .bf16x2 | .f16x2 | .e4m3x4 | .e5m2x4 | .e2m1x8 => true
  | _ => false

/-- Operand registers of MMA (R310). -/
def AOpd.ok : AOpd → Bool
  | .addr s _ => decide (s.val ≤ 62)
  | .gen _ => true

/-- Operand registers of MMA; a codebook needs fmt e4m3 or e5m2 (R310). -/
def BOpd.ok (f : Tag) : BOpd → Bool
  | .addr s _ => decide (s.val ≤ 62)
  | .gen _ => true
  | .cb s _ _ => decide (s.val ≤ 61) && (f == .e4m3x4 || f == .e5m2x4)

/-- Format of MLD (R315). -/
def MLd.ok (o : MLd) : Bool :=
  decide (o.s.val ≤ 62) && match o.half with
    | .whole => o.fmt.isAnyFloat
    | _ => o.fmt == .bf16x2 || o.fmt == .f16x2

/-- Spaces and operand run of a copy (R297). -/
def Cpy.ok (o : Cpy) (run : Nat) : Bool :=
  !(o.src == .gm && o.dst == .gm) && (o.install == none || (o.src == .gm && o.dst == .sp)) && decide (o.sa.val + run ≤ 63)

/-- An instruction meets every limit of its description that its word alone decides (R222 check 6). An event is always well
formed. (DESIGN CHOICE: log 9) -/
def Instr.wf : Instr → Bool
  | .packageReset => true
  | .functionLevelReset _ => true
  | .pcieLinkDown _ _ => true
  | .atsInvalidate _ _ _ _ _ => true
  | .priResponse _ _ _ _ => true
  | .msixUnmask _ _ => true
  | .ppsEdge => true
  | .uncorrectedError _ _ _ => true
  | .launchRestart => true
  | .rowRetire _ _ _ => true
  | .d2dLinkFailure _ _ => true
  | .flitReceive _ _ => true
  | .laneRepair _ _ => true
  | .peerRequestForward _ => true
  | .peerTimeout => true
  | .podArrival _ _ _ _ => true
  | .podRelease _ _ => true
  | .attestation => true
  | .sensors => true
  | .powerCap _ => true
  | .moduleReset => true
  | .wicketPackageReset => true
  | .oneLinkReset _ => true
  | .shutterReadout _ _ => true
  | .repairRead => true
  | .repairAppend _ _ => true
  | .doorbellWidx _ _ _ => true
  | .admqWidx _ => true
  | .linkpairPaired _ _ => true
  | .fqEnable _ => true
  | .podidWrite _ => true
  | .xpeertoWrite _ => true
  | .xlstatClrcnt _ => true
  | .timetableSkipsClear _ _ => true
  | .shutterArm _ => true
  | .shutterNow => true
  | .shutterGate => true
  | .shutterUngate => true
  | .shutterData => true
  | .qctlStop _ => true
  | .qctlResume _ => true
  | .dstepGo _ => true
  | .registerWrite _ _ => true
  | .packetConsume _ => true
  | .nopPacket _ => true
  | .launch _ => true
  | .launchComplete _ => true
  | .copy _ => true
  | .copyPacketComplete _ _ => true
  | .signal _ => true
  | .wait _ => true
  | .waitPoll _ => true
  | .waitTimeout => true
  | .timestamp _ => true
  | .ctxCreate => true
  | .ctxDestroy => true
  | .queueCreate => true
  | .queueDestroy => true
  | .setRange => true
  | .setPtbase => true
  | .setAperture => true
  | .preempt => true
  | .preemptResume => true
  | .preemptDrained => true
  | .drainLimit => true
  | .timetableSet => true
  | .timeSet => true
  | .timeOffset => true
  | .timeRate => true
  | .setAtPps => true
  | .icinvBroadcast => true
  | .traceConfig => true
  | .retry => true
  | .faultReplyTrap => true
  | .kill => true
  | .releaseCore => true
  | .faultRecordWrite => true
  | .timetableSlot => true
  | .timetableDeferredStart => true
  | .arbiterServe => true
  | .gangPlace => true
  | .aging => true
  | .teamPlace _ => true
  | .waveStart _ => true
  | .clauseStart _ => true
  | .longLatencyComplete _ => true
  | .matrixEnginePerform _ => true
  | .vote _ => true
  | .quantumEnd _ => true
  | .unpark _ => true
  | .waitSatisfied _ _ => true
  | .barrierRelease _ _ _ => true
  | .waveEnd _ => true
  | .teamEnd _ => true
  | .trapEntry _ => true
  | .logApply _ => true
  | .ticketRelease _ => true
  | .commandComplete _ _ => true
  | .cbldComplete _ _ => true
  | .histSample => true
  | .histFlush => true
  | .nop => true
  | .next _ => true
  | .nextc o => !o.keep || o.bf == 0
  | .nextm _ => true
  | .nextx _ => true
  | .halt _ => true
  | .yield _ => true
  | .calla _ => true
  | .reta _ => true
  | .bar o => o.slot == 0
  | .bara o => o.slot == 0
  | .barw o => o.slot == 0
  | .sadd _ => true
  | .ssub _ => true
  | .smul _ => true
  | .smulh _ => true
  | .smulhn _ => true
  | .sand _ => true
  | .sor _ => true
  | .sxor _ => true
  | .snot _ => true
  | .sshl _ => true
  | .sshr _ => true
  | .ssra _ => true
  | .smin _ => true
  | .smax _ => true
  | .sminn _ => true
  | .smaxn _ => true
  | .scmp _ => true
  | .ssel _ => true
  | .smov _ => true
  | .sli _ => true
  | .slih _ => true
  | .sclz _ => true
  | .spopc _ => true
  | .saddc _ => true
  | .saddI _ => true
  | .ssubI _ => true
  | .smulI _ => true
  | .sandI _ => true
  | .sorI _ => true
  | .sxorI _ => true
  | .sshlI o => decide (o.imm.toNat < 64)
  | .sshrI o => decide (o.imm.toNat < 64)
  | .ssraI o => decide (o.imm.toNat < 64)
  | .sminI _ => true
  | .smaxI _ => true
  | .sminnI _ => true
  | .smaxnI _ => true
  | .scmpI _ => true
  | .vadd o => o.ok Tag.isInt
  | .vsub o => o.ok Tag.isInt
  | .vmul o => o.ok Tag.isInt
  | .vmulh o => o.ok Tag.isInt
  | .vmulhn o => o.ok Tag.isInt
  | .vmad o => o.ok Tag.isInt
  | .vadds o => o.ok Tag.isInt
  | .vsubs o => o.ok Tag.isInt
  | .vand o => o.ok (· == .raw)
  | .vor o => o.ok (· == .raw)
  | .vxor o => o.ok (· == .raw)
  | .vnot o => o.ok (· == .raw)
  | .vshl o => o.ok Tag.isInt
  | .vshr o => o.ok Tag.isInt
  | .vsra o => o.ok Tag.isInt
  | .vmin o => o.ok Tag.isInt
  | .vmax o => o.ok Tag.isInt
  | .vminn o => o.ok Tag.isInt
  | .vmaxn o => o.ok Tag.isInt
  | .vabs o => o.ok Tag.isSigned
  | .vneg o => o.ok Tag.isSigned
  | .vcmp o => o.fmt.isInt && o.perm.wf o.a o.b .zero
  | .vsel o => o.perm.wf o.a o.b .zero
  | .vpopc o => o.ok Tag.isInt
  | .vclz o => o.ok Tag.isInt
  | .vbfx o => o.ok (fun f => f == .s32 || f == .n32)
  | .vbfi o => o.ok (· == .raw)
  | .vmov o => o.ok (fun f => f == .raw || !o.a.isV)
  | .vli _ => true
  | .vdot4 o => o.ok (fun f => f == .s8x4 || f == .n8x4)
  | .vfadd o => o.okRnd
  | .vfsub o => o.okRnd
  | .vfmul o => o.okRnd
  | .vfma o => o.okRnd Tag.isFloat
  | .vfms o => o.okRnd Tag.isFloat
  | .vfnma o => o.okRnd Tag.isFloat
  | .vfmin o => o.ok Tag.isFloat
  | .vfmax o => o.ok Tag.isFloat
  | .vfcmp o => o.fmt.isFloat && o.perm.wf o.a o.b .zero
  | .vfabs o => o.ok Tag.isFloat
  | .vfneg o => o.ok Tag.isFloat
  | .vfcls o => o.ok Tag.isFloat
  | .vfdot2 o => o.okRnd (fun f => f == .bf16x2 || f == .f16x2)
  | .vrcp o => o.ok (· == .f32)
  | .vrsq o => o.ok (· == .f32)
  | .vsqrt o => o.ok (· == .f32)
  | .vdiv o => o.ok (· == .f32)
  | .vexp2 o => o.ok (· == .f32)
  | .vlog2 o => o.ok (· == .f32)
  | .vsint o => o.ok (· == .f32)
  | .vcost o => o.ok (· == .f32)
  | .vcvt o => o.okCvt
  | .vcvti o => o.okCvtI
  | .vcvtf o => o.okCvtF
  | .vpack o => o.okPack
  | .vunpk o => o.okUnpk
  | .vxpd o => o.perm.wf o.a .zero .zero && o.d.run 8
  | .vretag o => o.ok (fun _ => true)
  | .vgettag o => o.a.isV && o.perm.wf o.a .zero .zero
  | .amaxr o => o.fmt.isAnyFloat && o.perm.wf o.a .zero .zero
  | .amaxc _ => true
  | .vshfl o => o.ok (· == .raw)
  | .vbal o => o.perm.wf o.a .zero .zero
  | .vpfx _ => true
  | .vred o => o.op.ok o.fmt o.rnd && o.perm.wf o.a .zero .zero
  | .vscan o => o.op.ok o.fmt o.rnd && o.perm.wf o.a .zero .zero
  | .vcmpr o => o.perm.wf o.a .zero .zero
  | .vrfl o => o.perm.wf o.a .zero .zero
  | .vbcs o => o.perm.wf o.a .zero .zero
  | .mand _ => true
  | .mor _ => true
  | .mxor _ => true
  | .mnot _ => true
  | .mpopc _ => true
  | .mffs _ => true
  | .mmov _ => true
  | .gset _ => true
  | .grd _ => true
  | .gadv _ => true
  | .vld o => o.q == 0 && o.ord.okFor .acq
  | .vst o => o.q == 0 && o.ord.okFor .rel
  | .vlds o => o.ord.okFor .acq
  | .vsts o => o.ord.okFor .rel
  | .sld o => o.addr.index.scalar && o.ord.okFor .acq
  | .sst o => o.addr.index.scalar && o.ord.okFor .rel
  | .vatom o => o.addr.off == 0 && o.op.ok o.nr false && o.ord.okAtomic && (o.op != .cas || o.data.val % 64 != 63)
  | .satom o => o.addr.off == 0 && o.addr.index.scalar && o.op.ok o.nr o.wide && o.ord.okAtomic && (o.op != .cas || o.data.val != 63)
  | .vcstGm o => o.addr.index == .zero && o.addr.scale == 0 && o.ord.okFor .rel
  | .vcstSp o => o.addr.index == .zero && o.addr.scale == 0 && o.ord.okFor .rel
  | .ldlGm32 o => o.ord.okFor .acq
  | .ldlGm64 o => o.ord.okFor .acq && o.d.run 2
  | .ldlSp32 o => o.ord.okFor .acq
  | .ldlSp64 o => o.ord.okFor .acq && o.d.run 2
  | .stc o => o.ord.okFor .rel && decide (o.vf.val % 64 + o.n.val + 1 ≤ 64)
  | .lkclr _ => true
  | .fence _ => true
  | .fencex o => (o.vec && o.mtx) || (o.vec && o.cpy) || (o.mtx && o.cpy)
  | .splk _ => true
  | .spset _ => true
  | .spclr _ => true
  | .spget _ => true
  | .gldGm o => o.addr.index == .zero && o.addr.scale == 0
  | .gldSp o => o.addr.index == .zero && o.addr.scale == 0
  | .gstGm o => o.addr.index == .zero && o.addr.scale == 0
  | .gstSp o => o.addr.index == .zero && o.addr.scale == 0
  | .mma o => o.fmt.isMma && o.a.ok && o.b.ok o.fmt
  | .mmaz o => o.fmt.isMma && o.a.ok && o.b.ok o.fmt
  | .mzero _ => true
  | .mst o => o.fmt.isAnyFloat && o.rnd != .sr && decide (o.s.val ≤ 62)
  | .mld o => o.ok
  | .mrstl _ => true
  | .cbwr _ => true
  | .cbcfg _ => true
  | .cbinv _ => true
  | .cpy o => o.ok 3
  | .cpyn o => o.ok 2
  | .twany _ => true
  | .twall _ => true
  | .tffr _ => true
  | .tclr _ => true
  | .htest _ => true
  | .hwait _ => true
  | .hcancel _ => true
  | .cbld _ => true
  | .swtrap _ => true
  | .brk _ => true
  | .eret _ => true
  | .csrr _ => true
  | .csrw _ => true
  | .icinv _ => true
  | .tick _ => true
  | .pmark _ => true
  | .lacq _ => true
  | .lrel _ => true
  | .tkwait _ => true
  | .tkrel _ => true
  | .pcieLinkUp _ => true
  | .transomLinkTrained _ => true
  | .peerRequestArrival _ => true

end Sys2Proof
end

