-- ==== Sys2Proof/Decode.lean ====
section
/-! DEFINITION. Instruction words (R221 to R235): fields of the six formats, operand numbers, the opcode map, the decoder,
total on any word and rejecting by name, and the encoder written from the same tables. -/

namespace Sys2Proof

/-! ### Codes of the enumerated fields -/

/-- The code of a Tag (R177). -/
def Tag.bits : Tag → BitVec 4
  | .raw => 0
  | .f32 => 1
  | .bf16x2 => 2
  | .f16x2 => 3
  | .e4m3x4 => 4
  | .e5m2x4 => 5
  | .e2m1x8 => 6
  | .s32 => 7
  | .n32 => 8
  | .s16x2 => 9
  | .n16x2 => 10
  | .s8x4 => 11
  | .n8x4 => 12
  | .cbix2 => 13

/-- The Tag of a code; none where reserved (R177). -/
def Tag.ofBits (x : BitVec 4) : Option Tag :=
  match x.toNat with
  | 0 => some .raw
  | 1 => some .f32
  | 2 => some .bf16x2
  | 3 => some .f16x2
  | 4 => some .e4m3x4
  | 5 => some .e5m2x4
  | 6 => some .e2m1x8
  | 7 => some .s32
  | 8 => some .n32
  | 9 => some .s16x2
  | 10 => some .n16x2
  | 11 => some .s8x4
  | 12 => some .n8x4
  | 13 => some .cbix2
  | _ => none

/-- The code of a Rnd (R179). -/
def Rnd.bits : Rnd → BitVec 3
  | .rne => 0
  | .rz => 1
  | .ru => 2
  | .rd => 3
  | .sr => 4

/-- The Rnd of a code; none where reserved (R179). -/
def Rnd.ofBits (x : BitVec 3) : Option Rnd :=
  match x.toNat with
  | 0 => some .rne
  | 1 => some .rz
  | 2 => some .ru
  | 3 => some .rd
  | 4 => some .sr
  | _ => none

/-- The code of a NCond (R229). -/
def NCond.bits : NCond → BitVec 4
  | .nz => 0
  | .z => 1
  | .neg => 2
  | .nneg => 3
  | .odd => 4
  | .even => 5

/-- The NCond of a code; none where reserved (R229). -/
def NCond.ofBits (x : BitVec 4) : Option NCond :=
  match x.toNat with
  | 0 => some .nz
  | 1 => some .z
  | 2 => some .neg
  | 3 => some .nneg
  | 4 => some .odd
  | 5 => some .even
  | _ => none

/-- The code of a SCond (R254). -/
def SCond.bits : SCond → BitVec 4
  | .eq => 0
  | .ne => 1
  | .lt => 2
  | .ge => 3
  | .ltn => 4
  | .gen => 5

/-- The SCond of a code; none where reserved (R254). -/
def SCond.ofBits (x : BitVec 4) : Option SCond :=
  match x.toNat with
  | 0 => some .eq
  | 1 => some .ne
  | 2 => some .lt
  | 3 => some .ge
  | 4 => some .ltn
  | 5 => some .gen
  | _ => none

/-- The code of a VCond (R263). -/
def VCond.bits : VCond → BitVec 4
  | .eq => 0
  | .ne => 1
  | .lt => 2
  | .le => 3
  | .gt => 4
  | .ge => 5

/-- The VCond of a code; none where reserved (R263). -/
def VCond.ofBits (x : BitVec 4) : Option VCond :=
  match x.toNat with
  | 0 => some .eq
  | 1 => some .ne
  | 2 => some .lt
  | 3 => some .le
  | 4 => some .gt
  | 5 => some .ge
  | _ => none

/-- The code of a FCond (R267). -/
def FCond.bits : FCond → BitVec 4
  | .eq => 0
  | .ne => 1
  | .lt => 2
  | .le => 3
  | .gt => 4
  | .ge => 5
  | .un => 6
  | .ord => 7

/-- The FCond of a code; none where reserved (R267). -/
def FCond.ofBits (x : BitVec 4) : Option FCond :=
  match x.toNat with
  | 0 => some .eq
  | 1 => some .ne
  | 2 => some .lt
  | 3 => some .le
  | 4 => some .gt
  | 5 => some .ge
  | 6 => some .un
  | 7 => some .ord
  | _ => none

/-- The code of a ROp (R282). -/
def ROp.bits : ROp → BitVec 4
  | .add => 0
  | .min => 1
  | .max => 2
  | .and => 3
  | .or => 4
  | .xor => 5

/-- The ROp of a code; none where reserved (R282). -/
def ROp.ofBits (x : BitVec 4) : Option ROp :=
  match x.toNat with
  | 0 => some .add
  | 1 => some .min
  | 2 => some .max
  | 3 => some .and
  | 4 => some .or
  | 5 => some .xor
  | _ => none

/-- The code of a Scope (R229). -/
def Scope.bits : Scope → BitVec 4
  | .core => 0
  | .quad => 1
  | .die => 2
  | .pkg => 3
  | .pod => 4

/-- The Scope of a code; none where reserved (R229). -/
def Scope.ofBits (x : BitVec 4) : Option Scope :=
  match x.toNat with
  | 0 => some .core
  | 1 => some .quad
  | 2 => some .die
  | 3 => some .pkg
  | 4 => some .pod
  | _ => none

/-- The code of a IScope (R339). -/
def IScope.bits : IScope → BitVec 2
  | .core => 0
  | .quad => 1
  | .die => 2
  | .pkg => 3

/-- The IScope of a code; none where reserved (R339). -/
def IScope.ofBits (x : BitVec 2) : Option IScope :=
  match x.toNat with
  | 0 => some .core
  | 1 => some .quad
  | 2 => some .die
  | 3 => some .pkg
  | _ => none

/-- The code of a Order (R226). -/
def Order.bits : Order → BitVec 2
  | .plain => 0
  | .acq => 1
  | .rel => 2
  | .ar => 3

/-- The Order of a code; none where reserved (R226). -/
def Order.ofBits (x : BitVec 2) : Option Order :=
  match x.toNat with
  | 0 => some .plain
  | 1 => some .acq
  | 2 => some .rel
  | 3 => some .ar
  | _ => none

/-- The code of a Space (R233). -/
def Space.bits : Space → BitVec 3
  | .gm => 0
  | .sp => 1
  | .q1 => 2
  | .q2 => 3
  | .q3 => 4

/-- The Space of a code; none where reserved (R233). -/
def Space.ofBits (x : BitVec 3) : Option Space :=
  match x.toNat with
  | 0 => some .gm
  | 1 => some .sp
  | 2 => some .q1
  | 3 => some .q2
  | 4 => some .q3
  | _ => none

/-- The code of a AOp (R227). -/
def AOp.bits : AOp → BitVec 4
  | .add => 0
  | .and => 1
  | .or => 2
  | .xor => 3
  | .min => 4
  | .max => 5
  | .minn => 6
  | .maxn => 7
  | .xchg => 8
  | .cas => 9
  | .faddF32 => 10
  | .faddBf16 => 11
  | .faddF16 => 12

/-- The AOp of a code; none where reserved (R227). -/
def AOp.ofBits (x : BitVec 4) : Option AOp :=
  match x.toNat with
  | 0 => some .add
  | 1 => some .and
  | 2 => some .or
  | 3 => some .xor
  | 4 => some .min
  | 5 => some .max
  | 6 => some .minn
  | 7 => some .maxn
  | 8 => some .xchg
  | 9 => some .cas
  | 10 => some .faddF32
  | 11 => some .faddBf16
  | 12 => some .faddF16
  | _ => none

/-- The code of a Half (R228). -/
def Half.bits : Half → BitVec 2
  | .whole => 0
  | .lo => 1
  | .hi => 2

/-- The Half of a code; none where reserved (R228). -/
def Half.ofBits (x : BitVec 2) : Option Half :=
  match x.toNat with
  | 0 => some .whole
  | 1 => some .lo
  | 2 => some .hi
  | _ => none

/-- The code of a GField (R322). -/
def GField.bits : GField → BitVec 4
  | .seed => 0
  | .scale => 1
  | .param => 2
  | .row0 => 3
  | .col0 => 4
  | .ctl => 5

/-- The GField of a code; none where reserved (R322). -/
def GField.ofBits (x : BitVec 4) : Option GField :=
  match x.toNat with
  | 0 => some .seed
  | 1 => some .scale
  | 2 => some .param
  | 3 => some .row0
  | 4 => some .col0
  | 5 => some .ctl
  | _ => none

/-- The code of a VW (R233). -/
def VW.bits : VW → BitVec 2
  | .b32 => 0
  | .b8 => 1
  | .b16 => 2

/-- The VW of a code; none where reserved (R233). -/
def VW.ofBits (x : BitVec 2) : Option VW :=
  match x.toNat with
  | 0 => some .b32
  | 1 => some .b8
  | 2 => some .b16
  | _ => none

/-- The code of a SLdW (R233). -/
def SLdW.bits : SLdW → BitVec 3
  | .n8 => 0
  | .s8 => 1
  | .n16 => 2
  | .s16 => 3
  | .n32 => 4
  | .s32 => 5
  | .b64 => 6

/-- The SLdW of a code; none where reserved (R233). -/
def SLdW.ofBits (x : BitVec 3) : Option SLdW :=
  match x.toNat with
  | 0 => some .n8
  | 1 => some .s8
  | 2 => some .n16
  | 3 => some .s16
  | 4 => some .n32
  | 5 => some .s32
  | 6 => some .b64
  | _ => none

/-- The code of a SStW (R233). -/
def SStW.bits : SStW → BitVec 2
  | .b8 => 0
  | .b16 => 1
  | .b32 => 2
  | .b64 => 3

/-- The SStW of a code; none where reserved (R233). -/
def SStW.ofBits (x : BitVec 2) : Option SStW :=
  match x.toNat with
  | 0 => some .b8
  | 1 => some .b16
  | 2 => some .b32
  | 3 => some .b64
  | _ => none

/-! ### Register numbers (R231) -/

/-- The register number of a vector source. -/
def VSrc.bits : VSrc → Byte
  | .v n => BitVec.ofNat 8 n | .s n => BitVec.ofNat 8 (128 + n) | .zero => 240 | .lid => 241 | .wid => 242 | .tix => 243
  | .blk => 244 | .nblk => 245

/-- The vector source of a register number (R231). -/
def VSrc.ofBits (x : Byte) : Option VSrc :=
  if h : x.toNat < 128 then some (.v ⟨x.toNat, h⟩)
  else if h : x.toNat - 128 < 64 then some (.s ⟨x.toNat - 128, h⟩)
  else match x.toNat with
    | 240 => some .zero | 241 => some .lid | 242 => some .wid | 243 => some .tix | 244 => some .blk | 245 => some .nblk
    | _ => none

/-- The register number of a vector destination. -/
def VDst.bits : VDst → Byte
  | .v n => BitVec.ofNat 8 n | .zero => 240

/-- The vector destination of a register number (R231). -/
def VDst.ofBits (x : Byte) : Option VDst :=
  if h : x.toNat < 128 then some (.v ⟨x.toNat, h⟩) else if x.toNat = 240 then some .zero else none

/-- The register number of a v register. -/
def vregBits (n : VReg) : Byte := BitVec.ofNat 8 n

/-- The v register of a register number (R231). -/
def vregOfBits (x : Byte) : Option VReg := if h : x.toNat < 128 then some ⟨x.toNat, h⟩ else none

/-- The register number of an s register. -/
def sregBits (n : SReg) : Byte := BitVec.ofNat 8 (128 + n)

/-- The s register of a register number (R231). -/
def sregOfBits (x : Byte) : Option SReg :=
  if h : 128 ≤ x.toNat ∧ x.toNat < 192 then some ⟨x.toNat - 128, by omega⟩ else none

/-- The register number of a g register. -/
def gregBits (n : Fin 8) : Byte := BitVec.ofNat 8 (192 + n)

/-- The g register of a register number (R231). -/
def gregOfBits (x : Byte) : Option (Fin 8) :=
  if h : 192 ≤ x.toNat ∧ x.toNat < 200 then some ⟨x.toNat - 192, by omega⟩ else none

/-- The register number of an h register. -/
def hregBits (n : Fin 16) : Byte := BitVec.ofNat 8 (200 + n)

/-- The h register of a register number (R231). -/
def hregOfBits (x : Byte) : Option (Fin 16) :=
  if h : 200 ≤ x.toNat ∧ x.toNat < 216 then some ⟨x.toNat - 200, by omega⟩ else none

/-- The register number of a scalar source. -/
def SSrc.bits : SSrc → Byte
  | .s n => sregBits n | .h n => hregBits n | .w n => BitVec.ofNat 8 (216 + n) | .zero => 240 | .wid => 242 | .tix => 243
  | .exm => 246 | .tags => 247 | .amax => 248 | .mvc => 249 | .mrp => 250 | .fml => 251 | .fflags => 252

/-- The scalar source of a register number (R231). -/
def SSrc.ofBits (x : Byte) : Option SSrc :=
  if h : 128 ≤ x.toNat ∧ x.toNat < 192 then some (.s ⟨x.toNat - 128, by omega⟩)
  else if h : 200 ≤ x.toNat ∧ x.toNat < 216 then some (.h ⟨x.toNat - 200, by omega⟩)
  else if h : 216 ≤ x.toNat ∧ x.toNat < 232 then some (.w ⟨x.toNat - 216, by omega⟩)
  else match x.toNat with
    | 240 => some .zero | 242 => some .wid | 243 => some .tix | 246 => some .exm | 247 => some .tags | 248 => some .amax
    | 249 => some .mvc | 250 => some .mrp | 251 => some .fml | 252 => some .fflags
    | _ => none

/-- The register number of a scalar destination. -/
def SDst.bits : SDst → Byte
  | .s n => sregBits n | .h n => hregBits n | .w n => BitVec.ofNat 8 (216 + n) | .zero => 240
  | .exm => 246 | .amax => 248 | .mvc => 249 | .mrp => 250 | .fflags => 252

/-- The scalar destination of a register number (R231). -/
def SDst.ofBits (x : Byte) : Option SDst :=
  if h : 128 ≤ x.toNat ∧ x.toNat < 192 then some (.s ⟨x.toNat - 128, by omega⟩)
  else if h : 200 ≤ x.toNat ∧ x.toNat < 216 then some (.h ⟨x.toNat - 200, by omega⟩)
  else if h : 216 ≤ x.toNat ∧ x.toNat < 232 then some (.w ⟨x.toNat - 216, by omega⟩)
  else match x.toNat with
    | 240 => some .zero | 246 => some .exm | 248 => some .amax | 249 => some .mvc | 250 => some .mrp | 252 => some .fflags
    | _ => none

/-- The register number of a mask register. -/
def mregBits (n : Fin 8) : Byte := BitVec.ofNat 8 (232 + n)

/-- The mask register of a register number (R231). -/
def mregOfBits (x : Byte) : Option (Fin 8) :=
  if h : 232 ≤ x.toNat ∧ x.toNat < 240 then some ⟨x.toNat - 232, by omega⟩ else none

/-- The register number of a mask source. -/
def MSrc.bits : MSrc → Byte
  | .m n => mregBits n | .exm => 246 | .fml => 251 | .zero => 240

/-- The mask source of a register number (R231). -/
def MSrc.ofBits (x : Byte) : Option MSrc :=
  match mregOfBits x with
  | some n => some (.m n)
  | none => match x.toNat with
    | 240 => some .zero | 246 => some .exm | 251 => some .fml | _ => none

/-- The register number of a mask destination. -/
def MDst.bits : MDst → Byte
  | .m n => mregBits n | .exm => 246 | .zero => 240

/-- The mask destination of a register number (R231). -/
def MDst.ofBits (x : Byte) : Option MDst :=
  match mregOfBits x with
  | some n => some (.m n)
  | none => match x.toNat with
    | 240 => some .zero | 246 => some .exm | _ => none

/-- The register number of a mask or scalar source. -/
def MSSrc.bits : MSSrc → Byte
  | .m n => mregBits n | .sc x => x.bits

/-- The mask or scalar source of a register number (R231, R283). -/
def MSSrc.ofBits (x : Byte) : Option MSSrc :=
  match mregOfBits x with
  | some n => some (.m n)
  | none => (SSrc.ofBits x).map .sc

/-- The register number of a mask or scalar destination. -/
def MSDst.bits : MSDst → Byte
  | .m n => mregBits n | .sc x => x.bits

/-- The mask or scalar destination of a register number (R231, R283). -/
def MSDst.ofBits (x : Byte) : Option MSDst :=
  match mregOfBits x with
  | some n => some (.m n)
  | none => (SDst.ofBits x).map .sc

/-- The register number of an s register or zero. -/
def SZ.bits : SZ → Byte
  | .s n => sregBits n | .zero => 240

/-- The s register or zero of a register number. -/
def SZ.ofBits (x : Byte) : Option SZ :=
  match sregOfBits x with
  | some n => some (.s n)
  | none => if x.toNat = 240 then some .zero else none

/-- The register number of an index. -/
def MIdx.bits : MIdx → Byte
  | .v n => vregBits n | .s n => sregBits n | .zero => 240

/-- The index of a register number (R231). -/
def MIdx.ofBits (x : Byte) : Option MIdx :=
  match vregOfBits x with
  | some n => some (.v n)
  | none => match sregOfBits x with
    | some n => some (.s n)
    | none => if x.toNat = 240 then some .zero else none

/-- The code of a permutation (R225). -/
def PCode.bits : PCode → BitVec 7
  | .bfly k => BitVec.ofNat 7 (1 + k) | .rot k => BitVec.ofNat 7 (7 + k) | .rev => 14 | .bc l => BitVec.ofNat 7 (64 + l)

/-- The permutation of a code other than 0 (R225). -/
def PCode.ofBits (x : BitVec 7) : Option PCode :=
  if h : 1 ≤ x.toNat ∧ x.toNat < 7 then some (.bfly ⟨x.toNat - 1, by omega⟩)
  else if h : 7 ≤ x.toNat ∧ x.toNat < 14 then some (.rot ⟨x.toNat - 7, by omega⟩)
  else if x.toNat = 14 then some .rev
  else if h : 64 ≤ x.toNat then some (.bc ⟨x.toNat - 64, by have := x.isLt; omega⟩)
  else none

/-- The psel field (R224). -/
def Perm.psel : Perm → BitVec 2
  | .none => 0 | .a _ => 0 | .b _ => 1 | .c _ => 2

/-- The perm field (R224). -/
def Perm.bits : Perm → BitVec 7
  | .none => 0 | .a p | .b p | .c p => p.bits

/-- The permuted source of psel and perm (R224): with perm 0, psel must be 0; psel 3 is reserved. -/
def Perm.ofBits (psel : BitVec 2) (perm : BitVec 7) : Option Perm :=
  if perm.toNat = 0 then (if psel.toNat = 0 then some .none else Option.none)
  else match psel.toNat with
    | 0 => (PCode.ofBits perm).map .a
    | 1 => (PCode.ofBits perm).map .b
    | 2 => (PCode.ofBits perm).map .c
    | _ => Option.none

/-! ### Fields of the formats (R221, R223, R224, R228, R297, R329): bits [53:0], the word below the opcode -/

/-- The low 54 bits of a word in R format. -/
structure FR where
  slot : BitVec 2
  la : BitVec 4 := 0
  d : Byte := 0
  a : Byte := 0
  b : Byte := 0
  c : Byte := 0
  fmt : BitVec 4 := 0
  rnd : BitVec 3 := 0
  psel : BitVec 2 := 0
  perm : BitVec 7 := 0
  deriving DecidableEq, Repr

/-- The R-format fields of 54 bits. -/
def FR.of (x : BitVec 54) : FR :=
  { slot := x.extractLsb' 52 2, la := x.extractLsb' 48 4, d := x.extractLsb' 40 8, a := x.extractLsb' 32 8,
    b := x.extractLsb' 24 8, c := x.extractLsb' 16 8, fmt := x.extractLsb' 12 4, rnd := x.extractLsb' 9 3,
    psel := x.extractLsb' 7 2, perm := x.extractLsb' 0 7 }

/-- The 54 bits of R-format fields. -/
def FR.bits (r : FR) : BitVec 54 :=
  r.slot ++ r.la ++ r.d ++ r.a ++ r.b ++ r.c ++ r.fmt ++ r.rnd ++ r.psel ++ r.perm

/-- The low 54 bits of a word in I format. -/
structure FI where
  slot : BitVec 2
  la : BitVec 4 := 0
  d : Byte := 0
  a : Byte := 0
  imm : BitVec 32 := 0
  deriving DecidableEq, Repr

/-- The I-format fields of 54 bits. -/
def FI.of (x : BitVec 54) : FI :=
  { slot := x.extractLsb' 52 2, la := x.extractLsb' 48 4, d := x.extractLsb' 40 8, a := x.extractLsb' 32 8,
    imm := x.extractLsb' 0 32 }

/-- The 54 bits of I-format fields. -/
def FI.bits (r : FI) : BitVec 54 := r.slot ++ r.la ++ r.d ++ r.a ++ r.imm

/-- The low 54 bits of a word in M format. -/
structure FM where
  slot : BitVec 2
  la : BitVec 4 := 0
  data : Byte := 0
  base : Byte := 0
  index : Byte := 0
  scale : BitVec 2 := 0
  order : BitVec 2 := 0
  obs : Byte := 0
  off : BitVec 12 := 0
  deriving DecidableEq, Repr

/-- The M-format fields of 54 bits. -/
def FM.of (x : BitVec 54) : FM :=
  { slot := x.extractLsb' 52 2, la := x.extractLsb' 48 4, data := x.extractLsb' 40 8, base := x.extractLsb' 32 8,
    index := x.extractLsb' 24 8, scale := x.extractLsb' 22 2, order := x.extractLsb' 20 2, obs := x.extractLsb' 12 8,
    off := x.extractLsb' 0 12 }

/-- The 54 bits of M-format fields. -/
def FM.bits (r : FM) : BitVec 54 :=
  r.slot ++ r.la ++ r.data ++ r.base ++ r.index ++ r.scale ++ r.order ++ r.obs ++ r.off

/-- The low 54 bits of a word in X format. -/
structure FX where
  slot : BitVec 2
  la : BitVec 4 := 0
  tile : BitVec 4 := 0
  half : BitVec 2 := 0
  fmt : BitVec 4 := 0
  ta : BitVec 1 := 0
  tb : BitVec 1 := 0
  akind : BitVec 2 := 0
  bkind : BitVec 2 := 0
  aop : Byte := 0
  bop : Byte := 0
  bank : BitVec 4 := 0
  aspc : BitVec 1 := 0
  bspc : BitVec 1 := 0
  rnd : BitVec 3 := 0
  rsv : BitVec 7 := 0
  deriving DecidableEq, Repr

/-- The X-format fields of 54 bits. -/
def FX.of (x : BitVec 54) : FX :=
  { slot := x.extractLsb' 52 2, la := x.extractLsb' 48 4, tile := x.extractLsb' 44 4, half := x.extractLsb' 42 2,
    fmt := x.extractLsb' 38 4, ta := x.extractLsb' 37 1, tb := x.extractLsb' 36 1, akind := x.extractLsb' 34 2,
    bkind := x.extractLsb' 32 2, aop := x.extractLsb' 24 8, bop := x.extractLsb' 16 8, bank := x.extractLsb' 12 4,
    aspc := x.extractLsb' 11 1, bspc := x.extractLsb' 10 1, rnd := x.extractLsb' 7 3, rsv := x.extractLsb' 0 7 }

/-- The 54 bits of X-format fields. -/
def FX.bits (r : FX) : BitVec 54 :=
  r.slot ++ r.la ++ r.tile ++ r.half ++ r.fmt ++ r.ta ++ r.tb ++ r.akind ++ r.bkind ++ r.aop ++ r.bop ++ r.bank ++ r.aspc ++
    r.bspc ++ r.rnd ++ r.rsv

/-- The low 54 bits of a word in C format. -/
structure FC where
  slot : BitVec 2
  la : BitVec 4 := 0
  bt : Byte := 0
  bf : Byte := 0
  creg : Byte := 0
  cc : BitVec 4 := 0
  keep : BitVec 1 := 0
  rsv : BitVec 19 := 0
  deriving DecidableEq, Repr

/-- The C-format fields of 54 bits. -/
def FC.of (x : BitVec 54) : FC :=
  { slot := x.extractLsb' 52 2, la := x.extractLsb' 48 4, bt := x.extractLsb' 40 8, bf := x.extractLsb' 32 8,
    creg := x.extractLsb' 24 8, cc := x.extractLsb' 20 4, keep := x.extractLsb' 19 1, rsv := x.extractLsb' 0 19 }

/-- The 54 bits of C-format fields. -/
def FC.bits (r : FC) : BitVec 54 := r.slot ++ r.la ++ r.bt ++ r.bf ++ r.creg ++ r.cc ++ r.keep ++ r.rsv

/-- The low 54 bits of a word in S format. -/
structure FS where
  slot : BitVec 2
  la : BitVec 4 := 0
  reg : Byte := 0
  rsv : Byte := 0
  csr : BitVec 16 := 0
  imm : BitVec 16 := 0
  deriving DecidableEq, Repr

/-- The S-format fields of 54 bits. -/
def FS.of (x : BitVec 54) : FS :=
  { slot := x.extractLsb' 52 2, la := x.extractLsb' 48 4, reg := x.extractLsb' 40 8, rsv := x.extractLsb' 32 8,
    csr := x.extractLsb' 16 16, imm := x.extractLsb' 0 16 }

/-- The 54 bits of S-format fields. -/
def FS.bits (r : FS) : BitVec 54 := r.slot ++ r.la ++ r.reg ++ r.rsv ++ r.csr ++ r.imm

/-- The low 54 bits of CPY and CPYN: R format with the copy modifier (R297). -/
structure FK where
  slot : BitVec 2
  la : BitVec 4 := 0
  d : Byte := 0
  a : Byte := 0
  b : Byte := 0
  c : Byte := 0
  src : BitVec 3 := 0
  dst : BitVec 3 := 0
  ins : BitVec 1 := 0
  rsv : BitVec 9 := 0
  deriving DecidableEq, Repr

/-- The copy fields of 54 bits (R297). -/
def FK.of (x : BitVec 54) : FK :=
  { slot := x.extractLsb' 52 2, la := x.extractLsb' 48 4, d := x.extractLsb' 40 8, a := x.extractLsb' 32 8,
    b := x.extractLsb' 24 8, c := x.extractLsb' 16 8, src := x.extractLsb' 13 3, dst := x.extractLsb' 10 3,
    ins := x.extractLsb' 9 1, rsv := x.extractLsb' 0 9 }

/-- The 54 bits of copy fields. -/
def FK.bits (r : FK) : BitVec 54 :=
  r.slot ++ r.la ++ r.d ++ r.a ++ r.b ++ r.c ++ r.src ++ r.dst ++ r.ins ++ r.rsv

/-- The low 54 bits of CBLD: R format with its modifier (R329). -/
structure FB where
  slot : BitVec 2
  la : BitVec 4 := 0
  d : Byte := 0
  a : Byte := 0
  b : Byte := 0
  c : Byte := 0
  spc : BitVec 3 := 0
  rsv : BitVec 10 := 0
  bank : BitVec 3 := 0
  deriving DecidableEq, Repr

/-- The CBLD fields of 54 bits (R329). -/
def FB.of (x : BitVec 54) : FB :=
  { slot := x.extractLsb' 52 2, la := x.extractLsb' 48 4, d := x.extractLsb' 40 8, a := x.extractLsb' 32 8,
    b := x.extractLsb' 24 8, c := x.extractLsb' 16 8, spc := x.extractLsb' 13 3, rsv := x.extractLsb' 3 10,
    bank := x.extractLsb' 0 3 }

/-- The 54 bits of CBLD fields. -/
def FB.bits (r : FB) : BitVec 54 := r.slot ++ r.la ++ r.d ++ r.a ++ r.b ++ r.c ++ r.spc ++ r.rsv ++ r.bank

/-- The ext byte, an R-format c (R224). -/
structure Ext where
  sel : BitVec 4 := 0
  sat : BitVec 1 := 0
  amax : BitVec 1 := 0
  sub : BitVec 2 := 0
  deriving DecidableEq, Repr

/-- The fields of an ext byte. -/
def Ext.of (x : Byte) : Ext :=
  { sel := x.extractLsb' 4 4, sat := x.extractLsb' 3 1, amax := x.extractLsb' 2 1, sub := x.extractLsb' 0 2 }

/-- The byte of ext fields. -/
def Ext.bits (e : Ext) : Byte := e.sel ++ e.sat ++ e.amax ++ e.sub

/-- The modifier of an R-format word is all zero. -/
def FR.noMod (x : FR) : Bool := x.fmt == 0 && x.rnd == 0 && x.psel == 0 && x.perm == 0

/-- No flag or sub-code in the ext byte. -/
def Ext.selOnly (e : Ext) : Bool := e.sat == 0 && e.amax == 0 && e.sub == 0

/-- A bit as a Bool. -/
def bit1 (x : BitVec 1) : Bool := x == 1

/-- A guard of the decoder: a field that must be zero, or a fixed value. -/
def must (b : Bool) : Option Unit := if b then some () else none

/-! ### Shapes: operands from fields, and fields of operands -/

/-- HALT, YIELD, RETA (R240, R242, R246). -/
def Bare.ofC (x : FC) : Option Bare := do
  must (x == { slot := x.slot })
  pure ⟨x.slot.toFin⟩

/-- The fields of a bare control instruction. -/
def Bare.wordC (o : Bare) : FC := { slot := .ofFin o.slot }

/-- LKCLR (R227). -/
def Bare.ofM (x : FM) : Option Bare := do
  must (x == { slot := x.slot })
  pure ⟨x.slot.toFin⟩

/-- The fields of LKCLR. -/
def Bare.wordM (o : Bare) : FM := { slot := .ofFin o.slot }

/-- BRK, ERET, LACQ, LREL, TKWAIT, TKREL (R334). -/
def Bare.ofS (x : FS) : Option Bare := do
  must (x == { slot := x.slot })
  pure ⟨x.slot.toFin⟩

/-- The fields of a bare system instruction. -/
def Bare.wordS (o : Bare) : FS := { slot := .ofFin o.slot }

/-- NEXT (R240). -/
def Next.of (x : FC) : Option Next := do
  must (x == { slot := x.slot, bt := x.bt })
  pure ⟨x.slot.toFin, x.bt.toFin⟩

/-- The fields of NEXT. -/
def Next.word (o : Next) : FC := { slot := .ofFin o.slot, bt := .ofFin o.bt }

/-- NEXTC (R240). -/
def NextC.of (x : FC) : Option NextC := do
  must (x.la == 0 && x.rsv == 0)
  let src ← VSrc.ofBits x.creg
  let cond ← NCond.ofBits x.cc
  pure ⟨x.slot.toFin, src, x.bt.toFin, x.bf.toFin, cond, bit1 x.keep⟩

/-- The fields of NEXTC. -/
def NextC.word (o : NextC) : FC :=
  { slot := .ofFin o.slot, bt := .ofFin o.bt, bf := .ofFin o.bf, creg := o.src.bits, cc := o.cond.bits, keep := .ofBool o.keep }

/-- NEXTM (R240). -/
def NextM.of (x : FC) : Option NextM := do
  must (x.la == 0 && x.rsv == 0 && x.cc == 0 && x.keep == 0)
  let src ← MSrc.ofBits x.creg
  pure ⟨x.slot.toFin, src, x.bt.toFin, x.bf.toFin⟩

/-- The fields of NEXTM. -/
def NextM.word (o : NextM) : FC :=
  { slot := .ofFin o.slot, bt := .ofFin o.bt, bf := .ofFin o.bf, creg := o.src.bits }

/-- NEXTX (R240). -/
def NextX.of (x : FC) : Option NextX := do
  must (x == { slot := x.slot, creg := x.creg })
  let src ← vregOfBits x.creg
  pure ⟨x.slot.toFin, src⟩

/-- The fields of NEXTX. -/
def NextX.word (o : NextX) : FC := { slot := .ofFin o.slot, creg := vregBits o.src }

/-- CALLA (R244). -/
def CallA.of (x : FC) : Option CallA := do
  must (x == { slot := x.slot, creg := x.creg, bt := x.bt })
  let img ← sregOfBits x.creg
  pure ⟨x.slot.toFin, img, x.bt.toFin⟩

/-- The fields of CALLA. -/
def CallA.word (o : CallA) : FC := { slot := .ofFin o.slot, creg := sregBits o.img, bt := .ofFin o.bt }

/-- BAR, BARA, BARW (R247). -/
def Bar.of (x : FC) : Option Bar := do
  must (x == { slot := x.slot, cc := x.cc })
  let scope ← Scope.ofBits x.cc
  pure ⟨x.slot.toFin, scope⟩

/-- The fields of a barrier instruction. -/
def Bar.word (o : Bar) : FC := { slot := .ofFin o.slot, cc := o.scope.bits }

/-- One-source scalar (R252). -/
def S1.of (x : FR) : Option S1 := do
  must (x == { slot := x.slot, d := x.d, a := x.a })
  let d ← SDst.ofBits x.d
  let a ← SSrc.ofBits x.a
  pure ⟨x.slot.toFin, d, a⟩

/-- The fields of a one-source scalar instruction. -/
def S1.word (o : S1) : FR := { slot := .ofFin o.slot, d := o.d.bits, a := o.a.bits }

/-- Two-source scalar (R252). -/
def S2.of (x : FR) : Option S2 := do
  must (x == { slot := x.slot, d := x.d, a := x.a, b := x.b })
  let d ← SDst.ofBits x.d
  let a ← SSrc.ofBits x.a
  let b ← SSrc.ofBits x.b
  pure ⟨x.slot.toFin, d, a, b⟩

/-- The fields of a two-source scalar instruction. -/
def S2.word (o : S2) : FR := { slot := .ofFin o.slot, d := o.d.bits, a := o.a.bits, b := o.b.bits }

/-- SSEL and SADDC (R252). -/
def S3.of (x : FR) : Option S3 := do
  must (x == { slot := x.slot, d := x.d, a := x.a, b := x.b, c := x.c })
  let d ← SDst.ofBits x.d
  let a ← SSrc.ofBits x.a
  let b ← SSrc.ofBits x.b
  let c ← SSrc.ofBits x.c
  pure ⟨x.slot.toFin, d, a, b, c⟩

/-- The fields of SSEL and SADDC. -/
def S3.word (o : S3) : FR := { slot := .ofFin o.slot, d := o.d.bits, a := o.a.bits, b := o.b.bits, c := o.c.bits }

/-- SCMP (R254). -/
def SCmp.of (x : FR) : Option SCmp := do
  must (x == { slot := x.slot, d := x.d, a := x.a, b := x.b, c := x.c } && (Ext.of x.c).selOnly)
  let d ← SDst.ofBits x.d
  let a ← SSrc.ofBits x.a
  let b ← SSrc.ofBits x.b
  let cond ← SCond.ofBits (Ext.of x.c).sel
  pure ⟨x.slot.toFin, d, a, b, cond⟩

/-- The fields of SCMP. -/
def SCmp.word (o : SCmp) : FR :=
  { slot := .ofFin o.slot, d := o.d.bits, a := o.a.bits, b := o.b.bits, c := Ext.bits { sel := o.cond.bits } }

/-- Scalar immediate form (R230, R252). -/
def SI.of (x : FI) : Option SI := do
  must (x.la == 0)
  let d ← SDst.ofBits x.d
  let a ← SSrc.ofBits x.a
  pure ⟨x.slot.toFin, d, a, x.imm⟩

/-- The fields of a scalar immediate form. -/
def SI.word (o : SI) : FI := { slot := .ofFin o.slot, d := o.d.bits, a := o.a.bits, imm := o.imm }

/-- The i form of SCMP: imm[31:28] is the condition (R254). -/
def SCmpI.of (x : FI) : Option SCmpI := do
  must (x.la == 0)
  let d ← SDst.ofBits x.d
  let a ← SSrc.ofBits x.a
  let cond ← SCond.ofBits (x.imm.extractLsb' 28 4)
  pure ⟨x.slot.toFin, d, a, cond, x.imm.extractLsb' 0 28⟩

/-- The fields of the i form of SCMP. -/
def SCmpI.word (o : SCmpI) : FI :=
  { slot := .ofFin o.slot, d := o.d.bits, a := o.a.bits, imm := o.cond.bits ++ o.imm }

/-- SLI and SLIH: a must be zero (R253). -/
def SLi.of (x : FI) : Option SLi := do
  must (x.la == 0 && x.a == 0)
  let d ← SDst.ofBits x.d
  pure ⟨x.slot.toFin, d, x.imm⟩

/-- The fields of SLI and SLIH. -/
def SLi.word (o : SLi) : FI := { slot := .ofFin o.slot, d := o.d.bits, imm := o.imm }

/-- One-source vector (R224). -/
def V1.of (x : FR) : Option V1 := do
  must (x.la == 0 && x.b == 0 && x.c == 0)
  let fmt ← Tag.ofBits x.fmt
  let rnd ← Rnd.ofBits x.rnd
  let d ← VDst.ofBits x.d
  let a ← VSrc.ofBits x.a
  let p ← Perm.ofBits x.psel x.perm
  pure ⟨x.slot.toFin, fmt, rnd, d, a, p⟩

/-- The fields of a one-source vector instruction. -/
def V1.word (o : V1) : FR :=
  { slot := .ofFin o.slot, fmt := o.fmt.bits, rnd := o.rnd.bits, d := o.d.bits, a := o.a.bits, psel := o.perm.psel,
    perm := o.perm.bits }

/-- Two-source vector. -/
def V2.of (x : FR) : Option V2 := do
  must (x.la == 0 && x.c == 0)
  let fmt ← Tag.ofBits x.fmt
  let rnd ← Rnd.ofBits x.rnd
  let d ← VDst.ofBits x.d
  let a ← VSrc.ofBits x.a
  let b ← VSrc.ofBits x.b
  let p ← Perm.ofBits x.psel x.perm
  pure ⟨x.slot.toFin, fmt, rnd, d, a, b, p⟩

/-- The fields of a two-source vector instruction. -/
def V2.word (o : V2) : FR :=
  { slot := .ofFin o.slot, fmt := o.fmt.bits, rnd := o.rnd.bits, d := o.d.bits, a := o.a.bits, b := o.b.bits,
    psel := o.perm.psel, perm := o.perm.bits }

/-- Three-source vector. -/
def V3.of (x : FR) : Option V3 := do
  must (x.la == 0)
  let fmt ← Tag.ofBits x.fmt
  let rnd ← Rnd.ofBits x.rnd
  let d ← VDst.ofBits x.d
  let a ← VSrc.ofBits x.a
  let b ← VSrc.ofBits x.b
  let c ← VSrc.ofBits x.c
  let p ← Perm.ofBits x.psel x.perm
  pure ⟨x.slot.toFin, fmt, rnd, d, a, b, c, p⟩

/-- The fields of a three-source vector instruction. -/
def V3.word (o : V3) : FR :=
  { slot := .ofFin o.slot, fmt := o.fmt.bits, rnd := o.rnd.bits, d := o.d.bits, a := o.a.bits, b := o.b.bits, c := o.c.bits,
    psel := o.perm.psel, perm := o.perm.bits }

/-- VCMP (R263). -/
def VCmp.of (x : FR) : Option VCmp := do
  must (x.la == 0 && x.rnd == 0 && (Ext.of x.c).selOnly)
  let fmt ← Tag.ofBits x.fmt
  let cond ← VCond.ofBits (Ext.of x.c).sel
  let d ← VDst.ofBits x.d
  let a ← VSrc.ofBits x.a
  let b ← VSrc.ofBits x.b
  let p ← Perm.ofBits x.psel x.perm
  pure ⟨x.slot.toFin, fmt, cond, d, a, b, p⟩

/-- The fields of VCMP. -/
def VCmp.word (o : VCmp) : FR :=
  { slot := .ofFin o.slot, fmt := o.fmt.bits, d := o.d.bits, a := o.a.bits, b := o.b.bits, c := Ext.bits { sel := o.cond.bits },
    psel := o.perm.psel, perm := o.perm.bits }

/-- VFCMP (R267). -/
def VFCmp.of (x : FR) : Option VFCmp := do
  must (x.la == 0 && x.rnd == 0 && (Ext.of x.c).selOnly)
  let fmt ← Tag.ofBits x.fmt
  let cond ← FCond.ofBits (Ext.of x.c).sel
  let d ← VDst.ofBits x.d
  let a ← VSrc.ofBits x.a
  let b ← VSrc.ofBits x.b
  let p ← Perm.ofBits x.psel x.perm
  pure ⟨x.slot.toFin, fmt, cond, d, a, b, p⟩

/-- The fields of VFCMP. -/
def VFCmp.word (o : VFCmp) : FR :=
  { slot := .ofFin o.slot, fmt := o.fmt.bits, d := o.d.bits, a := o.a.bits, b := o.b.bits, c := Ext.bits { sel := o.cond.bits },
    psel := o.perm.psel, perm := o.perm.bits }

/-- VSEL (R264). -/
def VSel.of (x : FR) : Option VSel := do
  must (x.la == 0 && x.fmt == 0 && x.rnd == 0)
  let d ← VDst.ofBits x.d
  let a ← VSrc.ofBits x.a
  let b ← VSrc.ofBits x.b
  let m ← MSrc.ofBits x.c
  let p ← Perm.ofBits x.psel x.perm
  pure ⟨x.slot.toFin, d, a, b, m, p⟩

/-- The fields of VSEL. -/
def VSel.word (o : VSel) : FR :=
  { slot := .ofFin o.slot, d := o.d.bits, a := o.a.bits, b := o.b.bits, c := o.m.bits, psel := o.perm.psel,
    perm := o.perm.bits }

/-- VLI: a[3:0] is the tag (R230, R264). -/
def VLi.of (x : FI) : Option VLi := do
  must (x.la == 0 && x.a.extractLsb' 4 4 == 0)
  let t ← Tag.ofBits (x.a.extractLsb' 0 4)
  let d ← VDst.ofBits x.d
  pure ⟨x.slot.toFin, t, d, x.imm⟩

/-- The fields of VLI. -/
def VLi.word (o : VLi) : FI :=
  { slot := .ofFin o.slot, d := o.d.bits, a := (0 : BitVec 4) ++ o.tag.bits, imm := o.imm }

/-- VCVT, VCVTI, VCVTF, VPACK, VUNPK (R271 to R274). -/
def VCvt.of (x : FR) : Option VCvt := do
  must (x.la == 0)
  let dst ← Tag.ofBits x.fmt
  let src ← Tag.ofBits (Ext.of x.c).sel
  let rnd ← Rnd.ofBits x.rnd
  let d ← VDst.ofBits x.d
  let a ← VSrc.ofBits x.a
  let b ← VSrc.ofBits x.b
  let p ← Perm.ofBits x.psel x.perm
  pure ⟨x.slot.toFin, dst, src, rnd, bit1 (Ext.of x.c).sat, bit1 (Ext.of x.c).amax, (Ext.of x.c).sub.toFin, d, a, b, p⟩

/-- The fields of a conversion. -/
def VCvt.word (o : VCvt) : FR :=
  { slot := .ofFin o.slot, fmt := o.dst.bits, rnd := o.rnd.bits, d := o.d.bits, a := o.a.bits, b := o.b.bits,
    c := Ext.bits { sel := o.src.bits, sat := .ofBool o.sat, amax := .ofBool o.amax, sub := .ofFin o.sub },
    psel := o.perm.psel, perm := o.perm.bits }

/-- VXPD (R277). -/
def Vxpd.of (x : FR) : Option Vxpd := do
  must (x.la == 0 && x.fmt == Tag.f32.bits && x.rnd == 0 && (Ext.of x.c).sat == 0 && (Ext.of x.c).amax == 0
    && (Ext.of x.c).sub.extractLsb' 1 1 == 0)
  let d ← VDst.ofBits x.d
  let a ← VSrc.ofBits x.a
  let e ← SSrc.ofBits x.b
  let p ← Perm.ofBits x.psel x.perm
  pure ⟨x.slot.toFin, d, a, e, (Ext.of x.c).sel.toFin, bit1 ((Ext.of x.c).sub.extractLsb' 0 1), p⟩

/-- The fields of VXPD. -/
def Vxpd.word (o : Vxpd) : FR :=
  { slot := .ofFin o.slot, fmt := Tag.f32.bits, d := o.d.bits, a := o.a.bits, b := o.e.bits,
    c := Ext.bits { sel := .ofFin o.bank, sub := (0 : BitVec 1) ++ BitVec.ofBool o.hi }, psel := o.perm.psel,
    perm := o.perm.bits }

/-- VGETTAG and VRFL (R275, R281). -/
def VToS.of (x : FR) : Option VToS := do
  must (x.la == 0 && x.b == 0 && x.c == 0 && x.fmt == 0 && x.rnd == 0)
  let d ← SDst.ofBits x.d
  let a ← VSrc.ofBits x.a
  let p ← Perm.ofBits x.psel x.perm
  pure ⟨x.slot.toFin, d, a, p⟩

/-- The fields of VGETTAG and VRFL. -/
def VToS.word (o : VToS) : FR :=
  { slot := .ofFin o.slot, d := o.d.bits, a := o.a.bits, psel := o.perm.psel, perm := o.perm.bits }

/-- AMAXR (R276). -/
def AmaxR.of (x : FR) : Option AmaxR := do
  must (x.la == 0 && x.d == 0 && x.b == 0 && x.c == 0 && x.rnd == 0)
  let fmt ← Tag.ofBits x.fmt
  let a ← VSrc.ofBits x.a
  let p ← Perm.ofBits x.psel x.perm
  pure ⟨x.slot.toFin, fmt, a, p⟩

/-- The fields of AMAXR. -/
def AmaxR.word (o : AmaxR) : FR :=
  { slot := .ofFin o.slot, fmt := o.fmt.bits, a := o.a.bits, psel := o.perm.psel, perm := o.perm.bits }

/-- AMAXC (R276). -/
def AmaxC.of (x : FR) : Option AmaxC := do
  must (x == { slot := x.slot, d := x.d })
  let d ← SDst.ofBits x.d
  pure ⟨x.slot.toFin, d⟩

/-- The fields of AMAXC. -/
def AmaxC.word (o : AmaxC) : FR := { slot := .ofFin o.slot, d := o.d.bits }

/-- VBCS and VCMPR (R280). -/
def VM.of (x : FR) : Option VM := do
  must (x.la == 0 && x.c == 0 && x.fmt == 0 && x.rnd == 0)
  let d ← VDst.ofBits x.d
  let a ← VSrc.ofBits x.a
  let m ← MSrc.ofBits x.b
  let p ← Perm.ofBits x.psel x.perm
  pure ⟨x.slot.toFin, d, a, m, p⟩

/-- The fields of VBCS and VCMPR. -/
def VM.word (o : VM) : FR :=
  { slot := .ofFin o.slot, d := o.d.bits, a := o.a.bits, b := o.m.bits, psel := o.perm.psel, perm := o.perm.bits }

/-- VBAL (R281). -/
def VBal.of (x : FR) : Option VBal := do
  must (x.la == 0 && x.b == 0 && x.c == 0 && x.fmt == 0 && x.rnd == 0)
  let d ← MDst.ofBits x.d
  let a ← VSrc.ofBits x.a
  let p ← Perm.ofBits x.psel x.perm
  pure ⟨x.slot.toFin, d, a, p⟩

/-- The fields of VBAL. -/
def VBal.word (o : VBal) : FR :=
  { slot := .ofFin o.slot, d := o.d.bits, a := o.a.bits, psel := o.perm.psel, perm := o.perm.bits }

/-- VPFX (R281). -/
def VPfx.of (x : FR) : Option VPfx := do
  must (x == { slot := x.slot, d := x.d, a := x.a })
  let d ← VDst.ofBits x.d
  let m ← MSrc.ofBits x.a
  pure ⟨x.slot.toFin, d, m⟩

/-- The fields of VPFX. -/
def VPfx.word (o : VPfx) : FR := { slot := .ofFin o.slot, d := o.d.bits, a := o.m.bits }

/-- VRED (R282). -/
def VRed.of (x : FR) : Option VRed := do
  must (x.la == 0 && x.b == 0 && (Ext.of x.c).selOnly)
  let fmt ← Tag.ofBits x.fmt
  let rnd ← Rnd.ofBits x.rnd
  let op ← ROp.ofBits (Ext.of x.c).sel
  let d ← SDst.ofBits x.d
  let a ← VSrc.ofBits x.a
  let p ← Perm.ofBits x.psel x.perm
  pure ⟨x.slot.toFin, fmt, rnd, op, d, a, p⟩

/-- The fields of VRED. -/
def VRed.word (o : VRed) : FR :=
  { slot := .ofFin o.slot, fmt := o.fmt.bits, rnd := o.rnd.bits, d := o.d.bits, a := o.a.bits,
    c := Ext.bits { sel := o.op.bits }, psel := o.perm.psel, perm := o.perm.bits }

/-- VSCAN (R282). -/
def VScan.of (x : FR) : Option VScan := do
  must (x.la == 0 && x.b == 0 && (Ext.of x.c).sat == 0 && (Ext.of x.c).amax == 0 && (Ext.of x.c).sub.extractLsb' 1 1 == 0)
  let fmt ← Tag.ofBits x.fmt
  let rnd ← Rnd.ofBits x.rnd
  let op ← ROp.ofBits (Ext.of x.c).sel
  let d ← VDst.ofBits x.d
  let a ← VSrc.ofBits x.a
  let p ← Perm.ofBits x.psel x.perm
  pure ⟨x.slot.toFin, fmt, rnd, op, bit1 ((Ext.of x.c).sub.extractLsb' 0 1), d, a, p⟩

/-- The fields of VSCAN. -/
def VScan.word (o : VScan) : FR :=
  { slot := .ofFin o.slot, fmt := o.fmt.bits, rnd := o.rnd.bits, d := o.d.bits, a := o.a.bits,
    c := Ext.bits { sel := o.op.bits, sub := (0 : BitVec 1) ++ BitVec.ofBool o.excl }, psel := o.perm.psel, perm := o.perm.bits }

/-- MAND, MOR, MXOR (R283). -/
def M2.of (x : FR) : Option M2 := do
  must (x == { slot := x.slot, d := x.d, a := x.a, b := x.b })
  let d ← MDst.ofBits x.d
  let a ← MSrc.ofBits x.a
  let b ← MSrc.ofBits x.b
  pure ⟨x.slot.toFin, d, a, b⟩

/-- The fields of a two-source mask instruction. -/
def M2.word (o : M2) : FR := { slot := .ofFin o.slot, d := o.d.bits, a := o.a.bits, b := o.b.bits }

/-- MNOT (R283). -/
def M1.of (x : FR) : Option M1 := do
  must (x == { slot := x.slot, d := x.d, a := x.a })
  let d ← MDst.ofBits x.d
  let a ← MSrc.ofBits x.a
  pure ⟨x.slot.toFin, d, a⟩

/-- The fields of MNOT. -/
def M1.word (o : M1) : FR := { slot := .ofFin o.slot, d := o.d.bits, a := o.a.bits }

/-- MPOPC and MFFS (R283). -/
def MToS.of (x : FR) : Option MToS := do
  must (x == { slot := x.slot, d := x.d, a := x.a })
  let d ← SDst.ofBits x.d
  let a ← MSrc.ofBits x.a
  pure ⟨x.slot.toFin, d, a⟩

/-- The fields of MPOPC and MFFS. -/
def MToS.word (o : MToS) : FR := { slot := .ofFin o.slot, d := o.d.bits, a := o.a.bits }

/-- MMOV (R283). -/
def MMov.of (x : FR) : Option MMov := do
  must (x == { slot := x.slot, d := x.d, a := x.a })
  let d ← MSDst.ofBits x.d
  let a ← MSSrc.ofBits x.a
  pure ⟨x.slot.toFin, d, a⟩

/-- The fields of MMOV. -/
def MMov.word (o : MMov) : FR := { slot := .ofFin o.slot, d := o.d.bits, a := o.a.bits }

/-- GSET (R322). -/
def GSet.of (x : FR) : Option GSet := do
  must (x == { slot := x.slot, d := x.d, a := x.a, c := x.c } && (Ext.of x.c).selOnly)
  let g ← gregOfBits x.d
  let a ← SSrc.ofBits x.a
  let f ← GField.ofBits (Ext.of x.c).sel
  pure ⟨x.slot.toFin, g, a, f⟩

/-- The fields of GSET. -/
def GSet.word (o : GSet) : FR :=
  { slot := .ofFin o.slot, d := gregBits o.g, a := o.a.bits, c := Ext.bits { sel := o.field.bits } }

/-- GADV: sel 0 row, 1 col (R323). -/
def GAdv.of (x : FR) : Option GAdv := do
  must (x == { slot := x.slot, d := x.d, a := x.a, c := x.c } && (Ext.of x.c).selOnly
    && (Ext.of x.c).sel.extractLsb' 1 3 == 0)
  let g ← gregOfBits x.d
  let a ← SSrc.ofBits x.a
  pure ⟨x.slot.toFin, g, a, bit1 ((Ext.of x.c).sel.extractLsb' 0 1)⟩

/-- The fields of GADV. -/
def GAdv.word (o : GAdv) : FR :=
  { slot := .ofFin o.slot, d := gregBits o.g, a := o.a.bits,
    c := Ext.bits { sel := (0 : BitVec 3) ++ BitVec.ofBool o.col } }

/-- GRD (R324). -/
def Grd.of (x : FR) : Option Grd := do
  must (x.la == 0 && x.fmt == Tag.f32.bits && x.rnd == 0 && x.psel == 0 && x.perm == 0)
  let d ← VDst.ofBits x.d
  let g ← gregOfBits x.a
  let r ← VSrc.ofBits x.b
  let c ← VSrc.ofBits x.c
  pure ⟨x.slot.toFin, d, g, r, c⟩

/-- The fields of GRD. -/
def Grd.word (o : Grd) : FR :=
  { slot := .ofFin o.slot, fmt := Tag.f32.bits, d := o.d.bits, a := gregBits o.g, b := o.r.bits, c := o.c.bits }

/-- The address terms of M-format fields (R226). -/
def MAddr.of (x : FM) : Option MAddr := do
  let b ← SZ.ofBits x.base
  let i ← MIdx.ofBits x.index
  pure ⟨b, i, x.scale.toFin, x.off⟩

/-- The order and observer set of M-format fields (R226). -/
def Ord.of (x : FM) : Option Ord := do
  let o ← Order.ofBits x.order
  pure ⟨o, x.obs⟩

/-- Type of a vector load from its five bits (R233). -/
def LdTy.ofBits (x : BitVec 5) : Option LdTy :=
  match x.toNat with
  | 16 => some .n8 | 17 => some .s8 | 18 => some .n16 | 19 => some .s16
  | _ => if x.extractLsb' 4 1 == 0 then (Tag.ofBits (x.extractLsb' 0 4)).map .tag else none

/-- The five bits of a vector load's type (R233). -/
def LdTy.bits : LdTy → BitVec 5
  | .tag t => (0 : BitVec 1) ++ t.bits | .n8 => 16 | .s8 => 17 | .n16 => 18 | .s16 => 19

/-- Vector load; q and the type come from the opcode (R285). -/
def VLd.of (q : Fin 4) (ty : LdTy) (x : FM) : Option VLd := do
  let d ← VDst.ofBits x.data
  let a ← MAddr.of x
  let r ← Ord.of x
  pure ⟨x.slot.toFin, x.la.toFin, q, ty, d, a, r⟩

/-- The fields of a vector load. -/
def VLd.word (o : VLd) : FM :=
  { slot := .ofFin o.slot, la := .ofFin o.la, data := o.d.bits, base := o.addr.base.bits, index := o.addr.index.bits,
    scale := .ofFin o.addr.scale, order := o.ord.order.bits, obs := o.ord.obs, off := o.addr.off }

/-- Vector store (R285). -/
def VSt.of (q : Fin 4) (w : VW) (x : FM) : Option VSt := do
  let d ← VSrc.ofBits x.data
  let a ← MAddr.of x
  let r ← Ord.of x
  pure ⟨x.slot.toFin, x.la.toFin, q, w, d, a, r⟩

/-- The fields of a vector store. -/
def VSt.word (o : VSt) : FM :=
  { slot := .ofFin o.slot, la := .ofFin o.la, data := o.src.bits, base := o.addr.base.bits, index := o.addr.index.bits,
    scale := .ofFin o.addr.scale, order := o.ord.order.bits, obs := o.ord.obs, off := o.addr.off }

/-- VCST: index names the keep mask (R227). -/
def VCst.of (x : FM) : Option VCst := do
  must (x.scale == 0)
  let d ← VSrc.ofBits x.data
  let b ← SZ.ofBits x.base
  let m ← MSrc.ofBits x.index
  let r ← Ord.of x
  pure ⟨x.slot.toFin, x.la.toFin, d, m, ⟨b, .zero, 0, x.off⟩, r⟩

/-- The fields of VCST. -/
def VCst.word (o : VCst) : FM :=
  { slot := .ofFin o.slot, la := .ofFin o.la, data := o.src.bits, base := o.addr.base.bits, index := o.m.bits,
    order := o.ord.order.bits, obs := o.ord.obs, off := o.addr.off }

/-- Scalar load (R285). -/
def SLd.of (sp : Space) (w : SLdW) (x : FM) : Option SLd := do
  let d ← sregOfBits x.data
  let a ← MAddr.of x
  let r ← Ord.of x
  pure ⟨x.slot.toFin, x.la.toFin, sp, w, d, a, r⟩

/-- The fields of a scalar load. -/
def SLd.word (o : SLd) : FM :=
  { slot := .ofFin o.slot, la := .ofFin o.la, data := sregBits o.d, base := o.addr.base.bits, index := o.addr.index.bits,
    scale := .ofFin o.addr.scale, order := o.ord.order.bits, obs := o.ord.obs, off := o.addr.off }

/-- Scalar store (R285). -/
def SSt.of (sp : Space) (w : SStW) (x : FM) : Option SSt := do
  let d ← SZ.ofBits x.data
  let a ← MAddr.of x
  let r ← Ord.of x
  pure ⟨x.slot.toFin, x.la.toFin, sp, w, d, a, r⟩

/-- The fields of a scalar store. -/
def SSt.word (o : SSt) : FM :=
  { slot := .ofFin o.slot, la := .ofFin o.la, data := o.src.bits, base := o.addr.base.bits, index := o.addr.index.bits,
    scale := .ofFin o.addr.scale, order := o.ord.order.bits, obs := o.ord.obs, off := o.addr.off }

/-- The offset field of an atomic: op, nr and reserved zeros (R227). -/
def AOp.field (op : AOp) (nr : Bool) : BitVec 12 := op.bits ++ BitVec.ofBool nr ++ (0 : BitVec 7)

/-- VATOM (R227, R288). -/
def VAtom.of (sp : Space) (x : FM) : Option VAtom := do
  must (x.off.extractLsb' 0 7 == 0)
  let op ← AOp.ofBits (x.off.extractLsb' 8 4)
  let d ← vregOfBits x.data
  let a ← MAddr.of x
  let r ← Ord.of x
  pure ⟨x.slot.toFin, x.la.toFin, sp, op, bit1 (x.off.extractLsb' 7 1), d, { a with off := 0 }, r⟩

/-- The fields of VATOM. -/
def VAtom.word (o : VAtom) : FM :=
  { slot := .ofFin o.slot, la := .ofFin o.la, data := vregBits o.data, base := o.addr.base.bits, index := o.addr.index.bits,
    scale := .ofFin o.addr.scale, order := o.ord.order.bits, obs := o.ord.obs, off := o.op.field o.nr }

/-- SATOM (R227, R288). -/
def SAtom.of (sp : Space) (wide : Bool) (x : FM) : Option SAtom := do
  must (x.off.extractLsb' 0 7 == 0)
  let op ← AOp.ofBits (x.off.extractLsb' 8 4)
  let d ← sregOfBits x.data
  let a ← MAddr.of x
  let r ← Ord.of x
  pure ⟨x.slot.toFin, x.la.toFin, sp, wide, op, bit1 (x.off.extractLsb' 7 1), d, { a with off := 0 }, r⟩

/-- The fields of SATOM. -/
def SAtom.word (o : SAtom) : FM :=
  { slot := .ofFin o.slot, la := .ofFin o.la, data := sregBits o.data, base := o.addr.base.bits, index := o.addr.index.bits,
    scale := .ofFin o.addr.scale, order := o.ord.order.bits, obs := o.ord.obs, off := o.op.field o.nr }

/-- LDL (R227, R291). -/
def Ldl.of (x : FM) : Option Ldl := do
  let d ← VDst.ofBits x.data
  let a ← MAddr.of x
  let r ← Ord.of x
  pure ⟨x.slot.toFin, x.la.toFin, d, a, r⟩

/-- The fields of LDL. -/
def Ldl.word (o : Ldl) : FM :=
  { slot := .ofFin o.slot, la := .ofFin o.la, data := o.d.bits, base := o.addr.base.bits, index := o.addr.index.bits,
    scale := .ofFin o.addr.scale, order := o.ord.order.bits, obs := o.ord.obs, off := o.addr.off }

/-- STC (R227, R291). -/
def Stc.of (x : FM) : Option Stc := do
  must (x.base == 240 && x.scale == 0 && x.off.extractLsb' 2 10 == 0)
  let vf ← vregOfBits x.data
  let vs ← vregOfBits x.index
  let r ← Ord.of x
  pure ⟨x.slot.toFin, x.la.toFin, vf, vs, (x.off.extractLsb' 0 2).toFin, r⟩

/-- The fields of STC. -/
def Stc.word (o : Stc) : FM :=
  { slot := .ofFin o.slot, la := .ofFin o.la, data := vregBits o.vf, base := 240, index := vregBits o.vs,
    order := o.ord.order.bits, obs := o.ord.obs, off := (0 : BitVec 10) ++ (.ofFin o.n : BitVec 2) }

/-- FENCE (R227). -/
def Fence.of (x : FM) : Option Fence := do
  must (x == { slot := x.slot, obs := x.obs })
  pure ⟨x.slot.toFin, x.obs⟩

/-- The fields of FENCE. -/
def Fence.word (o : Fence) : FM := { slot := .ofFin o.slot, obs := o.obs }

/-- FENCEX: offset bits 0 vec, 1 mtx, 2 cpy (R227, R295). -/
def FenceX.of (x : FM) : Option FenceX := do
  must (x == { slot := x.slot, obs := x.obs, off := x.off } && x.off.extractLsb' 3 9 == 0)
  pure ⟨x.slot.toFin, x.obs, bit1 (x.off.extractLsb' 0 1), bit1 (x.off.extractLsb' 1 1), bit1 (x.off.extractLsb' 2 1)⟩

/-- The fields of FENCEX. -/
def FenceX.word (o : FenceX) : FM :=
  { slot := .ofFin o.slot, obs := o.obs,
    off := (0 : BitVec 9) ++ BitVec.ofBool o.cpy ++ BitVec.ofBool o.mtx ++ BitVec.ofBool o.vec }

/-- SPLK (R296). -/
def SpLk.of (x : FM) : Option SpLk := do
  must (x.order == 0 && x.obs == 0)
  let d ← VDst.ofBits x.data
  let a ← MAddr.of x
  pure ⟨x.slot.toFin, x.la.toFin, d, a⟩

/-- The fields of SPLK. -/
def SpLk.word (o : SpLk) : FM :=
  { slot := .ofFin o.slot, la := .ofFin o.la, data := o.d.bits, base := o.addr.base.bits, index := o.addr.index.bits,
    scale := .ofFin o.addr.scale, off := o.addr.off }

/-- What SPSET, SPCLR and SPGET share: index zero, everything but data and base fixed (R227, R296). -/
def FM.spTab (x : FM) : Bool := x == { slot := x.slot, la := x.la, data := x.data, base := x.base, index := 240 }

/-- SPSET (R296). -/
def SpSet.of (x : FM) : Option SpSet := do
  must x.spTab
  let n ← sregOfBits x.base
  let s ← sregOfBits x.data
  pure ⟨x.slot.toFin, x.la.toFin, n, s⟩

/-- The fields of SPSET. -/
def SpSet.word (o : SpSet) : FM :=
  { slot := .ofFin o.slot, la := .ofFin o.la, data := sregBits o.src, base := sregBits o.n, index := 240 }

/-- SPCLR (R296). -/
def SpClr.of (x : FM) : Option SpClr := do
  must (x.spTab && x.data == 240)
  let n ← sregOfBits x.base
  pure ⟨x.slot.toFin, x.la.toFin, n⟩

/-- The fields of SPCLR. -/
def SpClr.word (o : SpClr) : FM :=
  { slot := .ofFin o.slot, la := .ofFin o.la, data := 240, base := sregBits o.n, index := 240 }

/-- SPGET (R296). -/
def SpGet.of (x : FM) : Option SpGet := do
  must x.spTab
  let d ← sregOfBits x.data
  let n ← sregOfBits x.base
  pure ⟨x.slot.toFin, x.la.toFin, d, n⟩

/-- The fields of SPGET. -/
def SpGet.word (o : SpGet) : FM :=
  { slot := .ofFin o.slot, la := .ofFin o.la, data := sregBits o.d, base := sregBits o.n, index := 240 }

/-- GLD and GST (R325). -/
def GMem.of (x : FM) : Option GMem := do
  must (x.index == 240 && x.scale == 0 && x.order == 0 && x.obs == 0)
  let g ← gregOfBits x.data
  let b ← SZ.ofBits x.base
  pure ⟨x.slot.toFin, x.la.toFin, g, ⟨b, .zero, 0, x.off⟩⟩

/-- The fields of GLD and GST. -/
def GMem.word (o : GMem) : FM :=
  { slot := .ofFin o.slot, la := .ofFin o.la, data := gregBits o.g, base := o.addr.base.bits, index := 240, off := o.addr.off }

/-- A operand of MMA (R228, R310). -/
def AOpd.of (x : FX) : Option AOpd :=
  match x.akind.toNat with
  | 0 => (sregOfBits x.aop).map (AOpd.addr · (bit1 x.aspc))
  | 1 => if x.aspc == 0 then (gregOfBits x.aop).map .gen else none
  | _ => none

/-- B operand of MMA (R228, R310). -/
def BOpd.of (x : FX) : Option BOpd :=
  match x.bkind.toNat with
  | 0 => if x.bank == 0 then (sregOfBits x.bop).map (BOpd.addr · (bit1 x.bspc)) else none
  | 1 => if x.bank == 0 && x.bspc == 0 then (gregOfBits x.bop).map .gen else none
  | 2 => (sregOfBits x.bop).map (BOpd.cb · (bit1 x.bspc) x.bank.toFin)
  | _ => none

/-- MMA and MMAZ (R310). -/
def Mma.of (x : FX) : Option Mma := do
  must (x.la == 0 && x.rnd == 0 && x.rsv == 0)
  let h ← Half.ofBits x.half
  let f ← Tag.ofBits x.fmt
  let a ← AOpd.of x
  let b ← BOpd.of x
  pure ⟨x.slot.toFin, x.tile.toFin, h, f, bit1 x.ta, bit1 x.tb, a, b⟩

/-- The A fields of an MMA word. -/
def AOpd.put (r : FX) : AOpd → FX
  | .addr s sp => { r with akind := 0, aop := sregBits s, aspc := .ofBool sp }
  | .gen g => { r with akind := 1, aop := gregBits g }

/-- The B fields of an MMA word. -/
def BOpd.put (r : FX) : BOpd → FX
  | .addr s sp => { r with bkind := 0, bop := sregBits s, bspc := .ofBool sp }
  | .gen g => { r with bkind := 1, bop := gregBits g }
  | .cb s sp k => { r with bkind := 2, bop := sregBits s, bspc := .ofBool sp, bank := .ofFin k }

/-- The fields of MMA and MMAZ. -/
def Mma.word (o : Mma) : FX :=
  BOpd.put (AOpd.put
    { slot := .ofFin o.slot, tile := .ofFin o.tile, half := o.half.bits, fmt := o.fmt.bits, ta := .ofBool o.ta,
      tb := .ofBool o.tb } o.a) o.b

/-- MZERO (R314). -/
def MZero.of (x : FX) : Option MZero := do
  must (x == { slot := x.slot, tile := x.tile, half := x.half })
  let h ← Half.ofBits x.half
  pure ⟨x.slot.toFin, x.tile.toFin, h⟩

/-- The fields of MZERO. -/
def MZero.word (o : MZero) : FX := { slot := .ofFin o.slot, tile := .ofFin o.tile, half := o.half.bits }

/-- MLD (R315). -/
def MLd.of (x : FX) : Option MLd := do
  must (x == { slot := x.slot, tile := x.tile, half := x.half, fmt := x.fmt, ta := x.ta, aop := x.aop, aspc := x.aspc })
  let h ← Half.ofBits x.half
  let f ← Tag.ofBits x.fmt
  let s ← sregOfBits x.aop
  pure ⟨x.slot.toFin, x.tile.toFin, h, f, bit1 x.ta, s, bit1 x.aspc⟩

/-- The fields of MLD. -/
def MLd.word (o : MLd) : FX :=
  { slot := .ofFin o.slot, tile := .ofFin o.tile, half := o.half.bits, fmt := o.fmt.bits, ta := .ofBool o.tr,
    aop := sregBits o.s, aspc := .ofBool o.sp }

/-- MST (R316): [37] sat, [36] amax. -/
def MSt.of (x : FX) : Option MSt := do
  must (x ==
    { slot := x.slot, la := x.la, tile := x.tile, half := x.half, fmt := x.fmt, ta := x.ta, tb := x.tb, aop := x.aop,
      aspc := x.aspc, rnd := x.rnd })
  let h ← Half.ofBits x.half
  let f ← Tag.ofBits x.fmt
  let r ← Rnd.ofBits x.rnd
  let s ← sregOfBits x.aop
  pure ⟨x.slot.toFin, x.la.toFin, x.tile.toFin, h, f, bit1 x.ta, bit1 x.tb, r, s, bit1 x.aspc⟩

/-- The fields of MST. -/
def MSt.word (o : MSt) : FX :=
  { slot := .ofFin o.slot, la := .ofFin o.la, tile := .ofFin o.tile, half := o.half.bits, fmt := o.fmt.bits,
    ta := .ofBool o.sat, tb := .ofBool o.amax, aop := sregBits o.s, aspc := .ofBool o.sp, rnd := o.rnd.bits }

/-- MRSTL (R318). -/
def MRstl.of (x : FX) : Option MRstl := do
  must (x == { slot := x.slot, tile := x.tile })
  pure ⟨x.slot.toFin, x.tile.toFin⟩

/-- The fields of MRSTL. -/
def MRstl.word (o : MRstl) : FX := { slot := .ofFin o.slot, tile := .ofFin o.entry }

/-- CBWR (R330). -/
def CbWr.of (x : FR) : Option CbWr := do
  must (x == { slot := x.slot, la := x.la, a := x.a, b := x.b, c := x.c } && (Ext.of x.c).selOnly)
  let e ← SSrc.ofBits x.a
  let w ← SSrc.ofBits x.b
  pure ⟨x.slot.toFin, x.la.toFin, (Ext.of x.c).sel.toFin, e, w⟩

/-- The fields of CBWR. -/
def CbWr.word (o : CbWr) : FR :=
  { slot := .ofFin o.slot, la := .ofFin o.la, a := o.e.bits, b := o.w.bits, c := Ext.bits { sel := .ofFin o.bank } }

/-- CBCFG (R331). -/
def CbCfg.of (x : FR) : Option CbCfg := do
  must (x == { slot := x.slot, a := x.a, c := x.c } && (Ext.of x.c).selOnly)
  let c ← SSrc.ofBits x.a
  pure ⟨x.slot.toFin, (Ext.of x.c).sel.toFin, c⟩

/-- The fields of CBCFG. -/
def CbCfg.word (o : CbCfg) : FR := { slot := .ofFin o.slot, a := o.c.bits, c := Ext.bits { sel := .ofFin o.bank } }

/-- CBINV (R332). -/
def CbInv.of (x : FR) : Option CbInv := do
  must (x == { slot := x.slot, c := x.c } && (Ext.of x.c).selOnly)
  pure ⟨x.slot.toFin, (Ext.of x.c).sel.toFin⟩

/-- The fields of CBINV. -/
def CbInv.word (o : CbInv) : FR := { slot := .ofFin o.slot, c := Ext.bits { sel := .ofFin o.bank } }

/-- CPY and CPYN (R235, R297). -/
def Cpy.of (x : FK) : Option Cpy := do
  must (x.la == 0 && x.rsv == 0 && x.b.extractLsb' 6 2 == 0)
  let h ← hregOfBits x.d
  let sa ← sregOfBits x.a
  let src ← Space.ofBits x.src
  let dst ← Space.ofBits x.dst
  let ins ← if x.ins == 1 then (sregOfBits x.c).map some else if x.c == 0 then some none else none
  pure ⟨x.slot.toFin, h, sa, (x.b.extractLsb' 0 6).toFin, src, dst, ins⟩

/-- The fields of CPY and CPYN. -/
def Cpy.word (o : Cpy) : FK :=
  { slot := .ofFin o.slot, d := hregBits o.h, a := sregBits o.sa, b := (0 : BitVec 2) ++ (.ofFin o.tag : BitVec 6),
    c := match o.install with | some n => sregBits n | none => 0, src := o.src.bits, dst := o.dst.bits,
    ins := .ofBool o.install.isSome }

/-- TWANY, TWALL, TCLR (R302). -/
def TMask.of (x : FR) : Option TMask := do
  must (x == { slot := x.slot, a := x.a })
  let a ← MSSrc.ofBits x.a
  pure ⟨x.slot.toFin, a⟩

/-- The fields of TWANY, TWALL and TCLR. -/
def TMask.word (o : TMask) : FR := { slot := .ofFin o.slot, a := o.a.bits }

/-- TFFR (R302). -/
def TFfr.of (x : FR) : Option TFfr := do
  must (x == { slot := x.slot, d := x.d, a := x.a })
  let d ← SDst.ofBits x.d
  let a ← MSSrc.ofBits x.a
  pure ⟨x.slot.toFin, d, a⟩

/-- The fields of TFFR. -/
def TFfr.word (o : TFfr) : FR := { slot := .ofFin o.slot, d := o.d.bits, a := o.a.bits }

/-- HTEST (R303). -/
def HTest.of (x : FR) : Option HTest := do
  must (x == { slot := x.slot, d := x.d, a := x.a })
  let d ← SDst.ofBits x.d
  let h ← hregOfBits x.a
  pure ⟨x.slot.toFin, d, h⟩

/-- The fields of HTEST. -/
def HTest.word (o : HTest) : FR := { slot := .ofFin o.slot, d := o.d.bits, a := hregBits o.h }

/-- HWAIT and HCANCEL (R302, R304). -/
def HOp.of (x : FR) : Option HOp := do
  must (x == { slot := x.slot, a := x.a })
  let h ← hregOfBits x.a
  pure ⟨x.slot.toFin, h⟩

/-- The fields of HWAIT and HCANCEL. -/
def HOp.word (o : HOp) : FR := { slot := .ofFin o.slot, a := hregBits o.h }

/-- CBLD (R329). -/
def CbLd.of (x : FB) : Option CbLd := do
  must (x.la == 0 && x.rsv == 0 && x.c == 0 && x.b.extractLsb' 6 2 == 0 && x.spc.extractLsb' 1 2 == 0)
  let h ← hregOfBits x.d
  let sa ← sregOfBits x.a
  pure ⟨x.slot.toFin, h, sa, (x.b.extractLsb' 0 6).toFin, bit1 (x.spc.extractLsb' 0 1), x.bank.toFin⟩

/-- The fields of CBLD. -/
def CbLd.word (o : CbLd) : FB :=
  { slot := .ofFin o.slot, d := hregBits o.h, a := sregBits o.sa, b := (0 : BitVec 2) ++ (.ofFin o.tag : BitVec 6),
    spc := (0 : BitVec 2) ++ BitVec.ofBool o.sp, bank := .ofFin o.bank }

/-- SWTRAP and PMARK (R230). -/
def Imm16.of (x : FS) : Option Imm16 := do
  must (x == { slot := x.slot, imm := x.imm })
  pure ⟨x.slot.toFin, x.imm⟩

/-- The fields of SWTRAP and PMARK. -/
def Imm16.word (o : Imm16) : FS := { slot := .ofFin o.slot, imm := o.imm }

/-- CSRR (R334, R337). -/
def CsrR.of (x : FS) : Option CsrR := do
  must (x == { slot := x.slot, reg := x.reg, csr := x.csr })
  let d ← SZ.ofBits x.reg
  pure ⟨x.slot.toFin, d, x.csr⟩

/-- The fields of CSRR. -/
def CsrR.word (o : CsrR) : FS := { slot := .ofFin o.slot, reg := o.d.bits, csr := o.csr }

/-- CSRW (R334, R337). -/
def CsrW.of (x : FS) : Option CsrW := do
  must (x == { slot := x.slot, reg := x.reg, csr := x.csr })
  let s ← sregOfBits x.reg
  pure ⟨x.slot.toFin, x.csr, s⟩

/-- The fields of CSRW. -/
def CsrW.word (o : CsrW) : FS := { slot := .ofFin o.slot, reg := sregBits o.src, csr := o.csr }

/-- ICINV (R230, R339). -/
def IcInv.of (x : FS) : Option IcInv := do
  must (x == { slot := x.slot, imm := x.imm } && x.imm.extractLsb' 2 14 == 0)
  let sc ← IScope.ofBits (x.imm.extractLsb' 0 2)
  pure ⟨x.slot.toFin, sc⟩

/-- The fields of ICINV. -/
def IcInv.word (o : IcInv) : FS := { slot := .ofFin o.slot, imm := (0 : BitVec 14) ++ o.scope.bits }

/-- TICK (R340). -/
def TickI.of (x : FS) : Option TickI := do
  must (x == { slot := x.slot, reg := x.reg })
  let d ← SZ.ofBits x.reg
  pure ⟨x.slot.toFin, d⟩

/-- The fields of TICK. -/
def TickI.word (o : TickI) : FS := { slot := .ofFin o.slot, reg := o.d.bits }

/-! ### The opcode map (R232, R233) -/

/-- Sequencer, control and scalar opcodes, 0x000 to 0x07F. -/
def parseCtl (op : Nat) (x : BitVec 54) : Option Instr :=
  match op with
  | 0 => if x = 0 then some .nop else none
  | 0x1 => (Next.of (FC.of x)).map .next
  | 0x2 => (NextC.of (FC.of x)).map .nextc
  | 0x3 => (NextM.of (FC.of x)).map .nextm
  | 0x4 => (NextX.of (FC.of x)).map .nextx
  | 0x5 => (Bare.ofC (FC.of x)).map .halt
  | 0x6 => (Bare.ofC (FC.of x)).map .yield
  | 0x8 => (CallA.of (FC.of x)).map .calla
  | 0x9 => (Bare.ofC (FC.of x)).map .reta
  | 0xa => (Bar.of (FC.of x)).map .bar
  | 0xb => (Bar.of (FC.of x)).map .bara
  | 0xc => (Bar.of (FC.of x)).map .barw
  | 0x40 => (S2.of (FR.of x)).map .sadd
  | 0x41 => (S2.of (FR.of x)).map .ssub
  | 0x42 => (S2.of (FR.of x)).map .smul
  | 0x43 => (S2.of (FR.of x)).map .smulh
  | 0x44 => (S2.of (FR.of x)).map .smulhn
  | 0x45 => (S2.of (FR.of x)).map .sand
  | 0x46 => (S2.of (FR.of x)).map .sor
  | 0x47 => (S2.of (FR.of x)).map .sxor
  | 0x48 => (S1.of (FR.of x)).map .snot
  | 0x49 => (S2.of (FR.of x)).map .sshl
  | 0x4a => (S2.of (FR.of x)).map .sshr
  | 0x4b => (S2.of (FR.of x)).map .ssra
  | 0x4c => (S2.of (FR.of x)).map .smin
  | 0x4d => (S2.of (FR.of x)).map .smax
  | 0x4e => (S2.of (FR.of x)).map .sminn
  | 0x4f => (S2.of (FR.of x)).map .smaxn
  | 0x50 => (SCmp.of (FR.of x)).map .scmp
  | 0x51 => (S3.of (FR.of x)).map .ssel
  | 0x52 => (S1.of (FR.of x)).map .smov
  | 0x53 => (SLi.of (FI.of x)).map .sli
  | 0x54 => (SLi.of (FI.of x)).map .slih
  | 0x55 => (S1.of (FR.of x)).map .sclz
  | 0x56 => (S1.of (FR.of x)).map .spopc
  | 0x57 => (S3.of (FR.of x)).map .saddc
  | 0x58 => (SI.of (FI.of x)).map .saddI
  | 0x59 => (SI.of (FI.of x)).map .ssubI
  | 0x5a => (SI.of (FI.of x)).map .smulI
  | 0x5b => (SI.of (FI.of x)).map .sandI
  | 0x5c => (SI.of (FI.of x)).map .sorI
  | 0x5d => (SI.of (FI.of x)).map .sxorI
  | 0x5e => (SI.of (FI.of x)).map .sshlI
  | 0x5f => (SI.of (FI.of x)).map .sshrI
  | 0x60 => (SI.of (FI.of x)).map .ssraI
  | 0x61 => (SI.of (FI.of x)).map .sminI
  | 0x62 => (SI.of (FI.of x)).map .smaxI
  | 0x63 => (SI.of (FI.of x)).map .sminnI
  | 0x64 => (SI.of (FI.of x)).map .smaxnI
  | 0x65 => (SCmpI.of (FI.of x)).map .scmpI
  | _ => none

/-- Vector integer and floating-point opcodes, 0x080 to 0x0FF. -/
def parseVec (op : Nat) (x : BitVec 54) : Option Instr :=
  match op with
  | 0x80 => (V2.of (FR.of x)).map .vadd
  | 0x81 => (V2.of (FR.of x)).map .vsub
  | 0x82 => (V2.of (FR.of x)).map .vmul
  | 0x83 => (V2.of (FR.of x)).map .vmulh
  | 0x84 => (V2.of (FR.of x)).map .vmulhn
  | 0x85 => (V3.of (FR.of x)).map .vmad
  | 0x86 => (V2.of (FR.of x)).map .vadds
  | 0x87 => (V2.of (FR.of x)).map .vsubs
  | 0x88 => (V2.of (FR.of x)).map .vand
  | 0x89 => (V2.of (FR.of x)).map .vor
  | 0x8a => (V2.of (FR.of x)).map .vxor
  | 0x8b => (V1.of (FR.of x)).map .vnot
  | 0x8c => (V2.of (FR.of x)).map .vshl
  | 0x8d => (V2.of (FR.of x)).map .vshr
  | 0x8e => (V2.of (FR.of x)).map .vsra
  | 0x8f => (V2.of (FR.of x)).map .vmin
  | 0x90 => (V2.of (FR.of x)).map .vmax
  | 0x91 => (V2.of (FR.of x)).map .vminn
  | 0x92 => (V2.of (FR.of x)).map .vmaxn
  | 0x93 => (V1.of (FR.of x)).map .vabs
  | 0x94 => (V1.of (FR.of x)).map .vneg
  | 0x95 => (VCmp.of (FR.of x)).map .vcmp
  | 0x96 => (VSel.of (FR.of x)).map .vsel
  | 0x97 => (V1.of (FR.of x)).map .vpopc
  | 0x98 => (V1.of (FR.of x)).map .vclz
  | 0x99 => (V2.of (FR.of x)).map .vbfx
  | 0x9a => (V3.of (FR.of x)).map .vbfi
  | 0x9b => (V1.of (FR.of x)).map .vmov
  | 0x9c => (VLi.of (FI.of x)).map .vli
  | 0x9d => (V3.of (FR.of x)).map .vdot4
  | 0xc0 => (V2.of (FR.of x)).map .vfadd
  | 0xc1 => (V2.of (FR.of x)).map .vfsub
  | 0xc2 => (V2.of (FR.of x)).map .vfmul
  | 0xc3 => (V3.of (FR.of x)).map .vfma
  | 0xc4 => (V3.of (FR.of x)).map .vfms
  | 0xc5 => (V3.of (FR.of x)).map .vfnma
  | 0xc6 => (V2.of (FR.of x)).map .vfmin
  | 0xc7 => (V2.of (FR.of x)).map .vfmax
  | 0xc8 => (VFCmp.of (FR.of x)).map .vfcmp
  | 0xc9 => (V1.of (FR.of x)).map .vfabs
  | 0xca => (V1.of (FR.of x)).map .vfneg
  | 0xcb => (V1.of (FR.of x)).map .vfcls
  | 0xcc => (V3.of (FR.of x)).map .vfdot2
  | 0xd0 => (V1.of (FR.of x)).map .vrcp
  | 0xd1 => (V1.of (FR.of x)).map .vrsq
  | 0xd2 => (V1.of (FR.of x)).map .vsqrt
  | 0xd3 => (V2.of (FR.of x)).map .vdiv
  | 0xd4 => (V1.of (FR.of x)).map .vexp2
  | 0xd5 => (V1.of (FR.of x)).map .vlog2
  | 0xd6 => (V1.of (FR.of x)).map .vsint
  | 0xd7 => (V1.of (FR.of x)).map .vcost
  | _ => none

/-- Conversion, cross-lane, mask and generator opcodes, 0x100 to 0x13F. -/
def parseConv (op : Nat) (x : BitVec 54) : Option Instr :=
  match op with
  | 0x100 => (VCvt.of (FR.of x)).map .vcvt
  | 0x101 => (VCvt.of (FR.of x)).map .vcvti
  | 0x102 => (VCvt.of (FR.of x)).map .vcvtf
  | 0x103 => (VCvt.of (FR.of x)).map .vpack
  | 0x104 => (VCvt.of (FR.of x)).map .vunpk
  | 0x105 => (Vxpd.of (FR.of x)).map .vxpd
  | 0x106 => (V1.of (FR.of x)).map .vretag
  | 0x107 => (VToS.of (FR.of x)).map .vgettag
  | 0x108 => (AmaxR.of (FR.of x)).map .amaxr
  | 0x109 => (AmaxC.of (FR.of x)).map .amaxc
  | 0x110 => (V2.of (FR.of x)).map .vshfl
  | 0x111 => (VBal.of (FR.of x)).map .vbal
  | 0x112 => (VPfx.of (FR.of x)).map .vpfx
  | 0x113 => (VRed.of (FR.of x)).map .vred
  | 0x114 => (VScan.of (FR.of x)).map .vscan
  | 0x115 => (VM.of (FR.of x)).map .vcmpr
  | 0x116 => (VToS.of (FR.of x)).map .vrfl
  | 0x117 => (VM.of (FR.of x)).map .vbcs
  | 0x118 => (M2.of (FR.of x)).map .mand
  | 0x119 => (M2.of (FR.of x)).map .mor
  | 0x11a => (M2.of (FR.of x)).map .mxor
  | 0x11b => (M1.of (FR.of x)).map .mnot
  | 0x11c => (MToS.of (FR.of x)).map .mpopc
  | 0x11d => (MToS.of (FR.of x)).map .mffs
  | 0x11e => (MMov.of (FR.of x)).map .mmov
  | 0x120 => (GSet.of (FR.of x)).map .gset
  | 0x121 => (Grd.of (FR.of x)).map .grd
  | 0x122 => (GAdv.of (FR.of x)).map .gadv
  | _ => none

/-- Memory opcodes without sub-code, 0x210 to 0x23F. -/
def parseMemOne (op : Nat) (x : BitVec 54) : Option Instr :=
  match op with
  | 0x210 => (VCst.of (FM.of x)).map .vcstGm
  | 0x211 => (VCst.of (FM.of x)).map .vcstSp
  | 0x218 => (Ldl.of (FM.of x)).map .ldlGm32
  | 0x219 => (Ldl.of (FM.of x)).map .ldlGm64
  | 0x21a => (Ldl.of (FM.of x)).map .ldlSp32
  | 0x21b => (Ldl.of (FM.of x)).map .ldlSp64
  | 0x21c => (Stc.of (FM.of x)).map .stc
  | 0x21d => (Bare.ofM (FM.of x)).map .lkclr
  | 0x21e => (Fence.of (FM.of x)).map .fence
  | 0x21f => (FenceX.of (FM.of x)).map .fencex
  | 0x220 => (SpLk.of (FM.of x)).map .splk
  | 0x221 => (SpSet.of (FM.of x)).map .spset
  | 0x222 => (SpClr.of (FM.of x)).map .spclr
  | 0x223 => (SpGet.of (FM.of x)).map .spget
  | 0x228 => (GMem.of (FM.of x)).map .gldGm
  | 0x229 => (GMem.of (FM.of x)).map .gldSp
  | 0x22a => (GMem.of (FM.of x)).map .gstGm
  | 0x22b => (GMem.of (FM.of x)).map .gstSp
  | _ => none

/-- Matrix opcodes, 0x2C0 to 0x2FF. -/
def parseMtx (op : Nat) (x : BitVec 54) : Option Instr :=
  match op with
  | 0x2c0 => (Mma.of (FX.of x)).map .mma
  | 0x2c1 => (Mma.of (FX.of x)).map .mmaz
  | 0x2c2 => (MZero.of (FX.of x)).map .mzero
  | 0x2c3 => (MSt.of (FX.of x)).map .mst
  | 0x2c4 => (MLd.of (FX.of x)).map .mld
  | 0x2c5 => (MRstl.of (FX.of x)).map .mrstl
  | 0x2c6 => (CbWr.of (FR.of x)).map .cbwr
  | 0x2c7 => (CbCfg.of (FR.of x)).map .cbcfg
  | 0x2c8 => (CbInv.of (FR.of x)).map .cbinv
  | _ => none

/-- Asynchronous opcodes, 0x300 to 0x33F. -/
def parseAsy (op : Nat) (x : BitVec 54) : Option Instr :=
  match op with
  | 0x300 => (Cpy.of (FK.of x)).map .cpy
  | 0x301 => (Cpy.of (FK.of x)).map .cpyn
  | 0x302 => (TMask.of (FR.of x)).map .twany
  | 0x303 => (TMask.of (FR.of x)).map .twall
  | 0x304 => (TFfr.of (FR.of x)).map .tffr
  | 0x305 => (TMask.of (FR.of x)).map .tclr
  | 0x306 => (HTest.of (FR.of x)).map .htest
  | 0x307 => (HOp.of (FR.of x)).map .hwait
  | 0x308 => (HOp.of (FR.of x)).map .hcancel
  | 0x309 => (CbLd.of (FB.of x)).map .cbld
  | _ => none

/-- System opcodes, 0x340 to 0x37F. -/
def parseSys (op : Nat) (x : BitVec 54) : Option Instr :=
  match op with
  | 0x340 => (Imm16.of (FS.of x)).map .swtrap
  | 0x341 => (Bare.ofS (FS.of x)).map .brk
  | 0x342 => (Bare.ofS (FS.of x)).map .eret
  | 0x343 => (CsrR.of (FS.of x)).map .csrr
  | 0x344 => (CsrW.of (FS.of x)).map .csrw
  | 0x345 => (IcInv.of (FS.of x)).map .icinv
  | 0x346 => (TickI.of (FS.of x)).map .tick
  | 0x347 => (Imm16.of (FS.of x)).map .pmark
  | 0x348 => (Bare.ofS (FS.of x)).map .lacq
  | 0x349 => (Bare.ofS (FS.of x)).map .lrel
  | 0x34a => (Bare.ofS (FS.of x)).map .tkwait
  | 0x34b => (Bare.ofS (FS.of x)).map .tkrel
  | _ => none

/-- Memory blocks with sub-codes (R233). -/
def parseMemSub (op : Nat) (x : BitVec 54) : Option Instr :=
  let r := FM.of x
  if 0x140 ≤ op ∧ op < 0x160 then do
    let ty ← LdTy.ofBits (BitVec.ofNat 5 (op - 0x140))
    (VLd.of 0 ty r).map .vld
  else if 0x160 ≤ op ∧ op < 0x164 then do
    let w ← VW.ofBits (BitVec.ofNat 2 (op - 0x160))
    (VSt.of 0 w r).map .vst
  else if 0x180 ≤ op ∧ op < 0x200 then do
    let ty ← LdTy.ofBits (BitVec.ofNat 5 (op - 0x180))
    (VLd.of (BitVec.ofNat 2 ((op - 0x180) / 32)).toFin ty r).map .vlds
  else if 0x200 ≤ op ∧ op < 0x210 then do
    let w ← VW.ofBits (BitVec.ofNat 2 (op - 0x200))
    (VSt.of (BitVec.ofNat 2 ((op - 0x200) / 4)).toFin w r).map .vsts
  else if 0x240 ≤ op ∧ op < 0x268 then do
    let spc ← Space.ofBits (BitVec.ofNat 3 ((op - 0x240) / 8))
    let w ← SLdW.ofBits (BitVec.ofNat 3 (op - 0x240))
    (SLd.of spc w r).map .sld
  else if 0x280 ≤ op ∧ op < 0x294 then do
    let spc ← Space.ofBits (BitVec.ofNat 3 ((op - 0x280) / 4))
    let w ← SStW.ofBits (BitVec.ofNat 2 (op - 0x280))
    (SSt.of spc w r).map .sst
  else if 0x2A0 ≤ op ∧ op < 0x2A5 then do
    let spc ← Space.ofBits (BitVec.ofNat 3 (op - 0x2A0))
    (VAtom.of spc r).map .vatom
  else if 0x2A8 ≤ op ∧ op < 0x2B2 then do
    let spc ← Space.ofBits (BitVec.ofNat 3 ((op - 0x2A8) / 2))
    (SAtom.of spc ((op - 0x2A8) % 2 == 1) r).map .satom
  else none

/-- The instruction of an opcode and the low 54 bits of its word, before the limits of `Instr.wf`. -/
def parse (op : Nat) (x : BitVec 54) : Option Instr :=
  if op < 0x80 then parseCtl op x
  else if op < 0x100 then parseVec op x
  else if op < 0x140 then parseConv op x
  else if op < 0x210 then parseMemSub op x
  else if op < 0x240 then parseMemOne op x
  else if op < 0x2C0 then parseMemSub op x
  else if op < 0x300 then parseMtx op x
  else if op < 0x340 then parseAsy op x
  else if op < 0x380 then parseSys op x
  else none


/-- The opcode and the low 54 bits of an instruction; none for an event, which has no word (R221, R232, R233). -/
def Instr.code : Instr → Option (Nat × BitVec 54)
  | .packageReset => none
  | .functionLevelReset _ => none
  | .pcieLinkDown _ _ => none
  | .atsInvalidate _ _ _ _ _ => none
  | .priResponse _ _ _ _ => none
  | .msixUnmask _ _ => none
  | .ppsEdge => none
  | .uncorrectedError _ _ _ => none
  | .launchRestart => none
  | .rowRetire _ _ _ => none
  | .d2dLinkFailure _ _ => none
  | .flitReceive _ _ => none
  | .laneRepair _ _ => none
  | .peerRequestForward _ => none
  | .peerTimeout => none
  | .podArrival _ _ _ _ => none
  | .podRelease _ _ => none
  | .attestation => none
  | .sensors => none
  | .powerCap _ => none
  | .moduleReset => none
  | .wicketPackageReset => none
  | .oneLinkReset _ => none
  | .shutterReadout _ _ => none
  | .repairRead => none
  | .repairAppend _ _ => none
  | .doorbellWidx _ _ _ => none
  | .admqWidx _ => none
  | .linkpairPaired _ _ => none
  | .fqEnable _ => none
  | .podidWrite _ => none
  | .xpeertoWrite _ => none
  | .xlstatClrcnt _ => none
  | .timetableSkipsClear _ _ => none
  | .shutterArm _ => none
  | .shutterNow => none
  | .shutterGate => none
  | .shutterUngate => none
  | .shutterData => none
  | .qctlStop _ => none
  | .qctlResume _ => none
  | .dstepGo _ => none
  | .registerWrite _ _ => none
  | .packetConsume _ => none
  | .nopPacket _ => none
  | .launch _ => none
  | .launchComplete _ => none
  | .copy _ => none
  | .copyPacketComplete _ _ => none
  | .signal _ => none
  | .wait _ => none
  | .waitPoll _ => none
  | .waitTimeout => none
  | .timestamp _ => none
  | .ctxCreate => none
  | .ctxDestroy => none
  | .queueCreate => none
  | .queueDestroy => none
  | .setRange => none
  | .setPtbase => none
  | .setAperture => none
  | .preempt => none
  | .preemptResume => none
  | .preemptDrained => none
  | .drainLimit => none
  | .timetableSet => none
  | .timeSet => none
  | .timeOffset => none
  | .timeRate => none
  | .setAtPps => none
  | .icinvBroadcast => none
  | .traceConfig => none
  | .retry => none
  | .faultReplyTrap => none
  | .kill => none
  | .releaseCore => none
  | .faultRecordWrite => none
  | .timetableSlot => none
  | .timetableDeferredStart => none
  | .arbiterServe => none
  | .gangPlace => none
  | .aging => none
  | .teamPlace _ => none
  | .waveStart _ => none
  | .clauseStart _ => none
  | .longLatencyComplete _ => none
  | .matrixEnginePerform _ => none
  | .vote _ => none
  | .quantumEnd _ => none
  | .unpark _ => none
  | .waitSatisfied _ _ => none
  | .barrierRelease _ _ _ => none
  | .waveEnd _ => none
  | .teamEnd _ => none
  | .trapEntry _ => none
  | .logApply _ => none
  | .ticketRelease _ => none
  | .commandComplete _ _ => none
  | .cbldComplete _ _ => none
  | .histSample => none
  | .histFlush => none
  | .nop => some (0, 0)
  | .next o => some (0x1, o.word.bits)
  | .nextc o => some (0x2, o.word.bits)
  | .nextm o => some (0x3, o.word.bits)
  | .nextx o => some (0x4, o.word.bits)
  | .halt o => some (0x5, o.wordC.bits)
  | .yield o => some (0x6, o.wordC.bits)
  | .calla o => some (0x8, o.word.bits)
  | .reta o => some (0x9, o.wordC.bits)
  | .bar o => some (0xa, o.word.bits)
  | .bara o => some (0xb, o.word.bits)
  | .barw o => some (0xc, o.word.bits)
  | .sadd o => some (0x40, o.word.bits)
  | .ssub o => some (0x41, o.word.bits)
  | .smul o => some (0x42, o.word.bits)
  | .smulh o => some (0x43, o.word.bits)
  | .smulhn o => some (0x44, o.word.bits)
  | .sand o => some (0x45, o.word.bits)
  | .sor o => some (0x46, o.word.bits)
  | .sxor o => some (0x47, o.word.bits)
  | .snot o => some (0x48, o.word.bits)
  | .sshl o => some (0x49, o.word.bits)
  | .sshr o => some (0x4a, o.word.bits)
  | .ssra o => some (0x4b, o.word.bits)
  | .smin o => some (0x4c, o.word.bits)
  | .smax o => some (0x4d, o.word.bits)
  | .sminn o => some (0x4e, o.word.bits)
  | .smaxn o => some (0x4f, o.word.bits)
  | .scmp o => some (0x50, o.word.bits)
  | .ssel o => some (0x51, o.word.bits)
  | .smov o => some (0x52, o.word.bits)
  | .sli o => some (0x53, o.word.bits)
  | .slih o => some (0x54, o.word.bits)
  | .sclz o => some (0x55, o.word.bits)
  | .spopc o => some (0x56, o.word.bits)
  | .saddc o => some (0x57, o.word.bits)
  | .saddI o => some (0x58, o.word.bits)
  | .ssubI o => some (0x59, o.word.bits)
  | .smulI o => some (0x5a, o.word.bits)
  | .sandI o => some (0x5b, o.word.bits)
  | .sorI o => some (0x5c, o.word.bits)
  | .sxorI o => some (0x5d, o.word.bits)
  | .sshlI o => some (0x5e, o.word.bits)
  | .sshrI o => some (0x5f, o.word.bits)
  | .ssraI o => some (0x60, o.word.bits)
  | .sminI o => some (0x61, o.word.bits)
  | .smaxI o => some (0x62, o.word.bits)
  | .sminnI o => some (0x63, o.word.bits)
  | .smaxnI o => some (0x64, o.word.bits)
  | .scmpI o => some (0x65, o.word.bits)
  | .vadd o => some (0x80, o.word.bits)
  | .vsub o => some (0x81, o.word.bits)
  | .vmul o => some (0x82, o.word.bits)
  | .vmulh o => some (0x83, o.word.bits)
  | .vmulhn o => some (0x84, o.word.bits)
  | .vmad o => some (0x85, o.word.bits)
  | .vadds o => some (0x86, o.word.bits)
  | .vsubs o => some (0x87, o.word.bits)
  | .vand o => some (0x88, o.word.bits)
  | .vor o => some (0x89, o.word.bits)
  | .vxor o => some (0x8a, o.word.bits)
  | .vnot o => some (0x8b, o.word.bits)
  | .vshl o => some (0x8c, o.word.bits)
  | .vshr o => some (0x8d, o.word.bits)
  | .vsra o => some (0x8e, o.word.bits)
  | .vmin o => some (0x8f, o.word.bits)
  | .vmax o => some (0x90, o.word.bits)
  | .vminn o => some (0x91, o.word.bits)
  | .vmaxn o => some (0x92, o.word.bits)
  | .vabs o => some (0x93, o.word.bits)
  | .vneg o => some (0x94, o.word.bits)
  | .vcmp o => some (0x95, o.word.bits)
  | .vsel o => some (0x96, o.word.bits)
  | .vpopc o => some (0x97, o.word.bits)
  | .vclz o => some (0x98, o.word.bits)
  | .vbfx o => some (0x99, o.word.bits)
  | .vbfi o => some (0x9a, o.word.bits)
  | .vmov o => some (0x9b, o.word.bits)
  | .vli o => some (0x9c, o.word.bits)
  | .vdot4 o => some (0x9d, o.word.bits)
  | .vfadd o => some (0xc0, o.word.bits)
  | .vfsub o => some (0xc1, o.word.bits)
  | .vfmul o => some (0xc2, o.word.bits)
  | .vfma o => some (0xc3, o.word.bits)
  | .vfms o => some (0xc4, o.word.bits)
  | .vfnma o => some (0xc5, o.word.bits)
  | .vfmin o => some (0xc6, o.word.bits)
  | .vfmax o => some (0xc7, o.word.bits)
  | .vfcmp o => some (0xc8, o.word.bits)
  | .vfabs o => some (0xc9, o.word.bits)
  | .vfneg o => some (0xca, o.word.bits)
  | .vfcls o => some (0xcb, o.word.bits)
  | .vfdot2 o => some (0xcc, o.word.bits)
  | .vrcp o => some (0xd0, o.word.bits)
  | .vrsq o => some (0xd1, o.word.bits)
  | .vsqrt o => some (0xd2, o.word.bits)
  | .vdiv o => some (0xd3, o.word.bits)
  | .vexp2 o => some (0xd4, o.word.bits)
  | .vlog2 o => some (0xd5, o.word.bits)
  | .vsint o => some (0xd6, o.word.bits)
  | .vcost o => some (0xd7, o.word.bits)
  | .vcvt o => some (0x100, o.word.bits)
  | .vcvti o => some (0x101, o.word.bits)
  | .vcvtf o => some (0x102, o.word.bits)
  | .vpack o => some (0x103, o.word.bits)
  | .vunpk o => some (0x104, o.word.bits)
  | .vxpd o => some (0x105, o.word.bits)
  | .vretag o => some (0x106, o.word.bits)
  | .vgettag o => some (0x107, o.word.bits)
  | .amaxr o => some (0x108, o.word.bits)
  | .amaxc o => some (0x109, o.word.bits)
  | .vshfl o => some (0x110, o.word.bits)
  | .vbal o => some (0x111, o.word.bits)
  | .vpfx o => some (0x112, o.word.bits)
  | .vred o => some (0x113, o.word.bits)
  | .vscan o => some (0x114, o.word.bits)
  | .vcmpr o => some (0x115, o.word.bits)
  | .vrfl o => some (0x116, o.word.bits)
  | .vbcs o => some (0x117, o.word.bits)
  | .mand o => some (0x118, o.word.bits)
  | .mor o => some (0x119, o.word.bits)
  | .mxor o => some (0x11a, o.word.bits)
  | .mnot o => some (0x11b, o.word.bits)
  | .mpopc o => some (0x11c, o.word.bits)
  | .mffs o => some (0x11d, o.word.bits)
  | .mmov o => some (0x11e, o.word.bits)
  | .gset o => some (0x120, o.word.bits)
  | .grd o => some (0x121, o.word.bits)
  | .gadv o => some (0x122, o.word.bits)
  | .vld o => some (0x140 + o.ty.bits.toNat, o.word.bits)
  | .vst o => some (0x160 + o.w.bits.toNat, o.word.bits)
  | .vlds o => some (0x180 + 32 * o.q.val + o.ty.bits.toNat, o.word.bits)
  | .vsts o => some (0x200 + 4 * o.q.val + o.w.bits.toNat, o.word.bits)
  | .sld o => some (0x240 + 8 * o.space.bits.toNat + o.w.bits.toNat, o.word.bits)
  | .sst o => some (0x280 + 4 * o.space.bits.toNat + o.w.bits.toNat, o.word.bits)
  | .vatom o => some (0x2A0 + o.space.bits.toNat, o.word.bits)
  | .satom o => some (0x2A8 + 2 * o.space.bits.toNat + o.wide.toNat, o.word.bits)
  | .vcstGm o => some (0x210, o.word.bits)
  | .vcstSp o => some (0x211, o.word.bits)
  | .ldlGm32 o => some (0x218, o.word.bits)
  | .ldlGm64 o => some (0x219, o.word.bits)
  | .ldlSp32 o => some (0x21a, o.word.bits)
  | .ldlSp64 o => some (0x21b, o.word.bits)
  | .stc o => some (0x21c, o.word.bits)
  | .lkclr o => some (0x21d, o.wordM.bits)
  | .fence o => some (0x21e, o.word.bits)
  | .fencex o => some (0x21f, o.word.bits)
  | .splk o => some (0x220, o.word.bits)
  | .spset o => some (0x221, o.word.bits)
  | .spclr o => some (0x222, o.word.bits)
  | .spget o => some (0x223, o.word.bits)
  | .gldGm o => some (0x228, o.word.bits)
  | .gldSp o => some (0x229, o.word.bits)
  | .gstGm o => some (0x22a, o.word.bits)
  | .gstSp o => some (0x22b, o.word.bits)
  | .mma o => some (0x2c0, o.word.bits)
  | .mmaz o => some (0x2c1, o.word.bits)
  | .mzero o => some (0x2c2, o.word.bits)
  | .mst o => some (0x2c3, o.word.bits)
  | .mld o => some (0x2c4, o.word.bits)
  | .mrstl o => some (0x2c5, o.word.bits)
  | .cbwr o => some (0x2c6, o.word.bits)
  | .cbcfg o => some (0x2c7, o.word.bits)
  | .cbinv o => some (0x2c8, o.word.bits)
  | .cpy o => some (0x300, o.word.bits)
  | .cpyn o => some (0x301, o.word.bits)
  | .twany o => some (0x302, o.word.bits)
  | .twall o => some (0x303, o.word.bits)
  | .tffr o => some (0x304, o.word.bits)
  | .tclr o => some (0x305, o.word.bits)
  | .htest o => some (0x306, o.word.bits)
  | .hwait o => some (0x307, o.word.bits)
  | .hcancel o => some (0x308, o.word.bits)
  | .cbld o => some (0x309, o.word.bits)
  | .swtrap o => some (0x340, o.word.bits)
  | .brk o => some (0x341, o.wordS.bits)
  | .eret o => some (0x342, o.wordS.bits)
  | .csrr o => some (0x343, o.word.bits)
  | .csrw o => some (0x344, o.word.bits)
  | .icinv o => some (0x345, o.word.bits)
  | .tick o => some (0x346, o.word.bits)
  | .pmark o => some (0x347, o.word.bits)
  | .lacq o => some (0x348, o.wordS.bits)
  | .lrel o => some (0x349, o.wordS.bits)
  | .tkwait o => some (0x34a, o.wordS.bits)
  | .tkrel o => some (0x34b, o.wordS.bits)
  | .pcieLinkUp _ => none
  | .transomLinkTrained _ => none
  | .peerRequestArrival _ => none

/-! ### Classes (R220, R235) -/

/-- Clause classes (R218), codes 0 to 4. -/
inductive Cls where
  | vec | mem | mtx | asy | sys
  deriving DecidableEq, Repr

/-- The class of a code; 5 to 15 are reserved (R218). -/
def Cls.ofBits (x : BitVec 4) : Option Cls :=
  match x.toNat with
  | 0 => some .vec | 1 => some .mem | 2 => some .mtx | 3 => some .asy | 4 => some .sys | _ => none

/-- The code of a class (R218). -/
def Cls.bits : Cls → BitVec 4
  | .vec => 0 | .mem => 1 | .mtx => 2 | .asy => 3 | .sys => 4

/-- An opcode is in the map (R232 to R234). -/
def opKnown (op : Nat) : Bool :=
  (op < 0x0D && op != 7) || (0x40 ≤ op && op < 0x66) || (0x80 ≤ op && op < 0x9E) || (0xC0 ≤ op && op < 0xCD)
  || (0xD0 ≤ op && op < 0xD8) || (0x100 ≤ op && op < 0x10A) || (0x110 ≤ op && op < 0x11F) || (0x120 ≤ op && op < 0x123)
  || (0x140 ≤ op && op < 0x14E) || (0x150 ≤ op && op < 0x154) || (0x160 ≤ op && op < 0x163)
  || (0x180 ≤ op && op < 0x200 && (op % 32 < 14 || (16 ≤ op % 32 && op % 32 < 20)))
  || (0x200 ≤ op && op < 0x210 && op % 4 != 3) || (0x210 ≤ op && op < 0x212) || (0x218 ≤ op && op < 0x224)
  || (0x228 ≤ op && op < 0x22C) || (0x240 ≤ op && op < 0x268 && op % 8 != 7) || (0x280 ≤ op && op < 0x294)
  || (0x2A0 ≤ op && op < 0x2A5) || (0x2A8 ≤ op && op < 0x2B2) || (0x2C0 ≤ op && op < 0x2C9) || (0x300 ≤ op && op < 0x30A)
  || (0x340 ≤ op && op < 0x34C)

/-- The class of a known opcode other than NOP's (R235). -/
def opCls (op : Nat) : Cls :=
  if op < 0x140 then .vec else if op < 0x2C0 then .mem else if op < 0x300 then .mtx else if op < 0x340 then .asy else .sys

/-! ### Decoding and encoding a word -/

/-- Why a word is not an instruction of the clause it stands in (R222). Each raises ILLOP; the detail byte is 2 for the class
and 1 for the rest. -/
inductive Illegal where
  /-- The opcode is reserved or in the header range (R234, R222 check 1). -/
  | opcode
  /-- The opcode belongs to another class (R220, R222 check 2). -/
  | cls
  /-- A reserved field is not zero, or a field holds no legal value or register (R222 checks 4 to 6). -/
  | field
  /-- The operands break a limit of the instruction's description (R222 check 6). -/
  | operands
  deriving DecidableEq, Repr

/-- The opcode of a word (R221). -/
def wordOp (w : DWord) : Nat := (w.extractLsb' 54 10).toNat

/-- The instruction of a word, total and rejecting by name (R222 checks 1 and 4 to 6). -/
def decode (w : DWord) : Except Illegal Instr :=
  if opKnown (wordOp w) then
    match parse (wordOp w) (w.extractLsb' 0 54) with
    | some i => if i.wf then .ok i else .error .operands
    | none => .error .field
  else .error .opcode

/-- The instruction of a word standing in a clause of a class (R220, R222): NOP belongs to every class. -/
def decodeIn (c : Cls) (w : DWord) : Except Illegal Instr :=
  if opKnown (wordOp w) then
    if wordOp w = 0 ∨ opCls (wordOp w) = c then decode w else .error .cls
  else .error .opcode

/-- The word of an instruction; none for an event. -/
def encode (i : Instr) : Option DWord := i.code.map fun p => BitVec.ofNat 10 p.1 ++ p.2

/-- Little-endian value of bytes (R2). -/
def leNat : List Byte → Nat
  | [] => 0
  | b :: r => b.toNat + 256 * leNat r

/-- The n bytes of a value, least significant first (R2). -/
def leBytes : Nat → Nat → List Byte
  | 0, _ => []
  | n + 1, x => BitVec.ofNat 8 x :: leBytes n (x / 256)

/-- The instruction the decoder reads from eight bytes in memory, lowest address first (R2, R221). -/
def decodeBytes (b : List Byte) : Except Illegal Instr := decode (BitVec.ofNat 64 (leNat b))

/-- The instruction of a table word: its nbits bits, the rest of the 64-bit word zero, laid out little-endian. -/
def decodeTableWord (nbits w : Nat) : Option Instr :=
  match decodeBytes (leBytes 8 (w % 2 ^ nbits)) with
  | .ok i => some i
  | .error _ => none


end Sys2Proof
end

