-- ==== Sys2Proof/Machine/State.lean ====
section
/-! DEFINITION. The state of the machine as plain data, the reasons a step can stop, and the state after reset. Each field
names the rule that gives it; NOTES.md and INVENTORY.md list the reset values. -/

namespace Sys2Proof.Machine

/-! ### Reasons to stop -/

/-- Why a step ends in a fault. -/
inductive Fault where
  /-- Raised by the meaning of an instruction when no wave is issuing (no clause in progress, or another wave's turn). Safe: a
  step issues an instruction only for a wave whose clause is in progress. -/
  | noWave
  deriving DecidableEq, Repr

/-- Why an instruction is refused. -/
inductive Refusal where
  /-- Raised by a dispatch arm whose instruction has no meaning yet. Safe: nothing follows from it. -/
  | notModelled (mnemonic : String)
  deriving DecidableEq, Repr

/-! ### Registers of a wave (R121, R122) -/

/-- The registers of one wave as its clause started, before the writes that are pending (R126). Numbers: lane l of register
vr is cell 64·r + l; tags by register; the rest by register number. -/
structure Regs where
  /-- v0 to v127 (R121); v64 to v127 are the latch pair's while the wave holds its latch (R124). -/
  v : Cells 32 := []
  /-- Format tags of v0 to v127, as codes (R177, R178). -/
  vt : Cells 4 := []
  /-- s0 to s63. -/
  s : Cells 64 := []
  /-- m0 to m7. -/
  m : Cells 64 := []
  /-- g0 to g7, each a 256-bit descriptor (R320). -/
  g : Cells 256 := []
  /-- Frequency tables of the generator slots: entry k of slot n is cell 256·n + k (R320). -/
  gtab : Cells 32 := []
  /-- Table address of a slot whose reload on resume faulted (R326). -/
  gbad : Cells 64 := []
  /-- h0 to h15. -/
  h : Cells 32 := []
  /-- w0 to w15 as the wave sees them: the team's at its clause start, with its own due writes (R125). -/
  w : Cells 64 := []
  /-- Execute mask (R117). -/
  exm : DWord := ones64
  /-- Running maximum, NaN bit [32] (R122, R185). -/
  amax : BitVec 33 := 0
  /-- Valid rows of A (R122). -/
  mvc : BitVec 7 := 64
  /-- Matrix row progress (R122, R307). -/
  mrp : BitVec 7 := 0
  /-- Faulting lanes; 0 outside a handler (R122). -/
  fml : DWord := 0
  /-- NV, DZ, OF, UF, NX in bits 4 to 0 (R122, R184). -/
  fflags : BitVec 5 := 0
  /-- nblk of each lane (R108). -/
  nblk : Cells 8 := []
  /-- Returned lanes (R119). -/
  ret : DWord := 0
  /-- SRSEED (R338). -/
  srseed : DWord := 0
  /-- SRCTR (R338). -/
  srctr : DWord := 0
  deriving DecidableEq, Repr

/-- One effect of an instruction on registers, taking place at its due position (R126, R260, R337). (DEDUCED: log 60) -/
inductive Eff where
  /-- Lanes of a v register, and its tag when any lane is written (R178). -/
  | vrow (r : VReg) (lanes : List (Nat × Word)) (tag : Tag)
  | sreg (n : SReg) (x : DWord)
  | hreg (n : Fin 16) (x : Word)
  | wreg (n : Fin 16) (x : DWord)
  | mreg (n : Fin 8) (x : DWord)
  /-- One field of a generator descriptor (R322, R323). -/
  | gfield (n : Fin 8) (f : GField) (x : DWord)
  /-- A whole descriptor, and its table when loaded (R325). -/
  | gdesc (n : Fin 8) (x : BitVec 256) (tab : Option (List Word))
  | exm (x : DWord)
  | amaxSet (x : BitVec 33)
  /-- An amax update: a maximum, and the sticky NaN bit (R185, R260). -/
  | amaxUpd (x : BitVec 33)
  /-- AMAXC: takes amax to the destination and clears it, in one step at its due position (R276). -/
  | amaxTake (d : SDst)
  | mvc (x : BitVec 7)
  | mrp (x : BitVec 7)
  | flagsSet (x : BitVec 5)
  /-- Flags raised: an OR (R184, R260). -/
  | flagsOr (x : BitVec 5)
  /-- nblk of a lane, and its returned bit (R241, R246). -/
  | nblk (l : Nat) (b : BlockNo) (ret : Bool)
  /-- TCLR (R302). -/
  | tclr (x : DWord)
  /-- LREL (R341). -/
  | lrel
  /-- CSRW of a wave or team register (R337). -/
  | csrw (n : Nat) (x : DWord)
  /-- SRCTR advances (R180). -/
  | srctr
  deriving DecidableEq, Repr

/-- Effects that are not yet due: those of the instruction at position `pos`, due at position `due` of the clause (R126). -/
structure Pend where
  pos : Nat
  due : Nat
  /-- The instruction is a long-latency one, with its window in positions pos + 1 to due − 1 (R127). -/
  long : Bool := false
  /-- Its work has completed. -/
  completed : Bool := false
  effs : List Eff
  /-- Source registers of a long-latency instruction, by number, for checked mode (R128). -/
  srcs : List Nat := []
  /-- Destination registers, by number, for checked mode (R128). -/
  dsts : List Nat := []
  /-- The codebook bank that it reads until it is due (R278). -/
  bank : Option Nat := none
  deriving DecidableEq, Repr

/-! ### Order and visibility (R164 to R173) -/

/-- A write as an agent knows it, by its number: bit k of `paths` says that reads on path k (0 vec, 1 mtx, 2 cpy) come after it
(R171); `here` are the paths that a FENCEX of the agent itself joined it to. -/
structure Known where
  id : Nat
  paths : BitVec 3
  here : BitVec 3 := 0
  deriving DecidableEq, Repr

/-- A release (R167, R168): the core and the observer set of the agent, what it had written or observed, and, for an agent of another
package, that package (R165). -/
structure Release where
  core : Nat
  obs : Byte
  known : List Known
  peer : Option Nat := none
  deriving DecidableEq, Repr

/-- A write that some agent may not see yet (R169): its number, its issuer, its place, and what the bytes held before. -/
structure Write where
  id : Nat
  /-- Key of the issuing wave, or number of the agent of another package, and the lanes that it counts as issued by. -/
  wave : Nat
  lanes : DWord := 0
  core : Nat
  /-- Its path: 0 vec, 1 mtx, 2 cpy. -/
  path : Nat := 0
  pa : Nat
  old : List Byte
  /-- Key of its launch. -/
  launch : Nat := 0
  /-- Every agent sees it. -/
  all : Bool := false
  atomic : Bool := false
  /-- Number of the engine's command or instruction that wrote it (R172, R300). -/
  cmd : Option Nat := none
  /-- The releases that it is: its own, and its wave's fences before it (R168). -/
  rels : List Release := []
  /-- The package that it came from, when that is another (R165). -/
  peer : Option Nat := none
  /-- Writes to its bytes that come before it (R166, R167). -/
  after : List Nat := []
  /-- Its place in the modification orders of its bytes is settled (R166, R362). -/
  placed : Bool := false
  deriving DecidableEq, Repr

/-- A FENCE or FENCEX that has taken effect, in their one order (R168): what it puts before later fences. -/
abbrev FenceRec := Release

/-! ### Traps, waits and memory operations -/

/-- A peer access without its response: its deadline (R33, R37), its address, and the link that it took (R32, R35). -/
structure PeerWait where
  due : Nat
  link : Nat
  pa : Nat := 0
  deriving DecidableEq, Repr

/-- A reply of the driver that comes while the wave is saved (R59). -/
inductive Reply where
  | retry | trap
  deriving DecidableEq, Repr

/-- A trap being raised (R132 to R134). -/
structure Trap where
  cause : Nat
  detail : Nat := 0
  fword : Word := 0
  faddr : DWord := 0
  fml : DWord := 0
  access : Byte := 0
  /-- Position of the trapping instruction. -/
  pos : Nat := 0
  /-- Further positions to re-issue (R134, R307). -/
  more : List Nat := []
  /-- Resume "after" (R133). -/
  after : Bool := false
  /-- A clause header check failed, or the clause could not be fetched: nothing of the line has issued (R219). -/
  header : Bool := false
  /-- The check of a call or vote at the clause's end failed: cont is the end of the clause (R245). -/
  atEnd : Bool := false
  /-- The kept set of a compress-store, by its position (R287). -/
  kept : List (Nat × DWord) := []
  /-- A watchpoint that another lane of the instruction has hit (R208). -/
  watch : Option Nat := none
  deriving DecidableEq, Repr

/-- What a blocked fragment waits for (R120). -/
inductive Wait where
  /-- HWAIT (R302). -/
  | handle (h : Word)
  /-- TWANY (R302). -/
  | tagAny (m : DWord)
  /-- TWALL (R302). -/
  | tagAll (m : DWord)
  /-- LACQ (R341). -/
  | latch
  /-- TKWAIT (R342). -/
  | tkwait
  /-- TKREL (R342). -/
  | tkrel
  /-- BAR and BARW (R249). -/
  | bar (sc : Scope)
  /-- A clause's handle wait mask (R219). -/
  | mask (m : BitVec 16)
  deriving DecidableEq, Repr

/-- A wait that has ended: the commands that it has waited for, and the trap that it ends in (R172, R302). -/
structure Passed where
  seqs : List Nat := []
  trap : Option Trap := none
  deriving DecidableEq, Repr

/-- What one access does. -/
inductive AccKind where
  | load
  | store
  | atomic (op : AOp)
  | ldl
  | stc
  /-- GLD: a descriptor, and its table when its kind is ROTARY (R325). -/
  | gld
  /-- GST: the 32 bytes in the operation's values (R325). -/
  | gst
  deriving DecidableEq, Repr

/-- One access of a lane (R284): its space and address, its size in bytes, and its operands. -/
structure Acc where
  lane : Nat
  kind : AccKind
  sp : Space
  va : DWord
  size : Nat
  x : DWord := 0
  y : DWord := 0
  /-- Element number of a compress-store (R287). -/
  elem : Nat := 0
  deriving DecidableEq, Repr

/-- What becomes of the values an access returns. -/
inductive MemRes where
  | none
  /-- A vector register; narrow integers are extended (R286). -/
  | vreg (r : VReg) (ty : LdTy)
  /-- An atomic's old value: the register keeps its tag, or takes the format of a floating add (R288). -/
  | vold (r : VReg) (tag : Tag)
  /-- Two vector registers of a 64-bit LDL (R291). -/
  | vpair (r : VReg)
  /-- A scalar register, with its extension (R286). -/
  | sreg (r : SReg) (w : SLdW)
  /-- STC's status (R293). -/
  | status (r : VReg)
  /-- A generator slot (R325). -/
  | gen (g : Fin 8)
  deriving DecidableEq, Repr

/-- A memory operation in progress: the accesses still to perform, and what their results become (R127, R157). -/
structure MemOp where
  pos : Nat
  accs : List Acc
  res : MemRes := .none
  /-- Order of the access (R226). -/
  ord : Ord := ⟨.plain, 0⟩
  /-- Compress-store: accesses perform in order and stop at the first that faults (R158). -/
  seq : Bool := false
  /-- The operation counts as issued by every lane of this mask (R166, R292). -/
  lanes : DWord := 0
  /-- STC's values by lane: up to four (R293). -/
  vals : List (Nat × List Word) := []
  /-- No atomic value is returned (R288). -/
  nr : Bool := false
  /-- A compress-store's kept set (R287). -/
  kept : DWord := 0
  deriving DecidableEq, Repr

/-- An access that waits for the reply to a fault record, for a PRI response, or for a peer (R157, R44, R33). -/
structure Stall where
  op : MemOp
  /-- Key of the fault that the wait is on; for a peer access none. -/
  fault : Option Nat
  /-- Page waited on (R44, R157). -/
  page : Nat := 0
  peer : Option PeerWait := none
  /-- A fetch by the sequencer: the trap it raises when it is not resolved (R105, R245, R371). -/
  trap : Option Trap := none
  /-- A reply that came while the team was saved, and applies when it resumes (R59). -/
  reply : Option Reply := none
  /-- Writes that came before the access as it issued (R167). -/
  known : List Known := []
  deriving DecidableEq, Repr

/-- A load that has performed and whose values are not due yet: of these accesses nothing has fixed yet which write each reads, so that it
may still read a later one (R166, R362). -/
structure Late where
  op : MemOp
  /-- Writes that come before it (R167). -/
  known : List Known := []
  deriving DecidableEq, Repr

/-! ### Waves, fragments and clauses -/

/-- The clause line a wave is issuing from (R217, R218). -/
structure Clause where
  /-- Image offset of the line. -/
  off : Nat
  cls : Cls
  count : Nat
  e : Bool
  k : Bool
  words : List DWord
  deriving DecidableEq, Repr

/-- A fragment (R113), with the blocks of its state (R104) and what it waits for. (DESIGN CHOICE: log 74) (DEDUCED: log 78) -/
structure Frag where
  mask : DWord
  /-- Image offset of the next clause. -/
  cp : Nat
  state : Nat
  blocks : List Nat
  parked : Bool := false
  age : Nat := 0
  quantum : Nat := 0
  blocked : Option Wait := none
  /-- The clause whose last instruction, a Block one, the fragment stands at (R235); with no instruction left, its end (R250). -/
  held : Option Clause := none
  /-- What the wait at that instruction came to, once it has ended (R302). -/
  past : Option Passed := none
  /-- Where ERET has it go on in that clause: replay bits, position, and the frame's fml (R135, R250). -/
  todo : Option (Nat × Nat × DWord) := none
  /-- Its clause, which is not complete, has issued a YIELD (R242). -/
  yield : Bool := false
  /-- Place of its record in the spill area, when the split table does not hold it (R114). -/
  spill : Option Nat := none
  deriving DecidableEq, Repr

/-- The image header (R99). -/
structure Header where
  nblocks : Nat
  entry : Nat
  nstates : Nat
  nrestart : Nat
  blocktab : Nat
  statetab : Nat
  index : Nat
  restart : Nat
  code : Nat
  codebytes : Nat
  pool : Nat
  poolbytes : Nat
  size : Nat
  deriving DecidableEq, Repr

/-- A link word (R292): its space, address and size. -/
structure LinkWord where
  sp : Bool
  va : DWord
  pa : Nat
  size : Nat
  deriving DecidableEq, Repr

/-- The state of a link set (R292). -/
inductive LinkSt where
  | open_ | conflict | cleared
  deriving DecidableEq, Repr

/-- The link set of a lane (R292). A lane without one has an empty, open set. -/
structure Link where
  lane : Nat
  st : LinkSt
  words : List LinkWord
  deriving DecidableEq, Repr

/-- Arrival and waiting masks of one barrier scope (R249), with the ticks a SYNC record reports (R216). (DESIGN CHOICE: log 84) -/
structure WBar where
  scope : Scope
  arr : DWord
  wait : DWord
  tick : Nat
  /-- What the arrivals release (R251). -/
  known : List Known := []
  deriving DecidableEq, Repr

/-- What a wave does next. -/
inductive Stage where
  /-- Placed, its first clause not yet reached (R98). -/
  | entering
  /-- Resumed, and its restart label's state not yet reached (R319). -/
  | label
  /-- Its next clause may be chosen (R93). -/
  | ready
  /-- Issuing from a clause. -/
  | issue
  /-- Inside a clause that its class has yet to take up again (R93). -/
  | inside
  /-- Waiting for long-latency work at a position or at the end of a clause (R127, R306). -/
  | long
  /-- The clause's E bit: a vote follows (R108). -/
  | vote
  /-- The quantum has ended (R115). -/
  | quantum
  /-- The quantum has ended and its parked fragments have aged; those past the park limit unpark before the switch (R112). -/
  | switch
  /-- A trap waits for long-latency work to complete (R132). -/
  | trap
  /-- No fragment left; ends when its work has completed (R97). -/
  | ending
  | ended
  deriving DecidableEq, Repr

/-- A restart declaration (R318). -/
structure Restart where
  img : DWord
  entry : Nat
  depth : Nat
  block : Nat
  tiles : BitVec 16
  deriving DecidableEq, Repr

/-- A call that its clause's end performs (R245). -/
structure Call where
  target : DWord
  ret : BlockNo
  pos : Nat
  deriving DecidableEq, Repr

/-- A step in progress (R212): one instruction, or one clause. -/
inductive Step1 where
  | instr | clause
  deriving DecidableEq, Repr

/-- One wave (R98). -/
structure Wave where
  /-- Unique key. -/
  key : Nat
  /-- Key of its team, and its number in the team (wid). -/
  team : Nat
  wid : Nat
  /-- Core · 16 + wave slot; none while its team is saved. -/
  place : Option Nat
  img : DWord := 0
  hdr : Option Header := none
  regs : Regs := {}
  /-- blk of each lane (R97). -/
  blk : Cells 8 := []
  pend : List Pend := []
  frags : List Frag := []
  /-- List index of the current fragment. -/
  cur : Nat := 0
  stage : Stage := .entering
  clause : Option Clause := none
  pos : Nat := 0
  /-- Call depth (R118); the call stack lies in the wave area (R131). -/
  depth : Nat := 0
  call : Option Call := none
  /-- SPSLOT as the wave sees it: the team's at its clause start, with its own due writes (R338). -/
  lg : Nat := 8
  /-- Ticks for which the wave has been ready for its current clause (R94). -/
  age : Nat := 0
  trap : Option Trap := none
  stalls : List Stall := []
  inHandler : Bool := false
  /-- Positions still to re-issue after ERET, then the position to continue at (R135). -/
  replay : List Nat := []
  cont : Nat := 0
  /-- Lanes a re-issued vector memory instruction acts in (R156). -/
  redo : Option DWord := none
  /-- The original kept sets of the compress-stores that trapped, by position (R287). -/
  packs : List (Nat × DWord) := []
  /-- A watchpoint that lanes of a trapped instruction have hit, by its position: its trap follows the instruction (R208). -/
  watched : Option (Nat × Nat) := none
  /-- YIELD issued in the clause (R242). -/
  yielded : Bool := false
  restart : Option Restart := none
  links : List Link := []
  bars : List WBar := []
  /-- Stall reason code (R214). -/
  reason : Nat := 0
  /-- Skid of the current stop (R209). -/
  skid : Nat := 0
  stepping : Option Step1 := none
  /-- The step has issued its instruction, or stands in the clause that it completes (R212). -/
  stepped : Bool := false
  /-- The last step ended blocked (R210). -/
  stepBlocked : Bool := false
  /-- Fragments that were blocked when a trap was taken, whose waits ERET resumes (R120, R250). -/
  kept : List Frag := []
  /-- What the trapped clause had reached, which ERET takes up again: its line, a YIELD, and a call that passed its checks (R242,
  R245). -/
  keptCp : Nat := 0
  keptYield : Bool := false
  keptCall : Option Call := none
  /-- Writes that come before the wave's later accesses (R167, R168, R171). -/
  known : List Known := []
  /-- Writes that a lane of the wave has read or made, by lane mask: it sees none older (R166). -/
  saw : List (DWord × Nat) := []
  /-- Its fences, the latest of each observer set: a later plain store acts as a release (R168). -/
  rels : List Release := []
  /-- Some of its stores stand in the team's log (R173). -/
  logged : Bool := false
  /-- Releases whose values its plain loads have read: a later fence acts as the acquire (R168). -/
  heard : List Release := []
  /-- Loads that have performed and whose values are not due (R166, R362). -/
  late : List Late := []
  /-- What barrier phases that have released put before it, for the BARW that has yet to wait on them (R251). -/
  passed : List (Scope × List Known) := []
  /-- CTXMEM is due when the team resumes (R91). -/
  short : Bool := false
  /-- The wave area as saved (R131, R137). -/
  area : List Byte := []
  deriving DecidableEq, Repr

/-! ### Teams and launches -/

/-- An accumulator tile (R308, R309): tags of the lo and hi half (0 raw, 1 f32, 2 bf16, 3 f16, 4 zero), and cell 64·i + j. -/
structure Tile where
  lo : Nat := 1
  hi : Nat := 1
  cells : Cells 32 := []
  deriving DecidableEq, Repr

/-- The backing of a codebook bank (R327). -/
inductive Backing where
  | empty
  | source (sp : Bool) (va : DWord)
  | none
  deriving DecidableEq, Repr

/-- A codebook bank (R197, R327). -/
structure Bank where
  entries : Cells 64 := []
  e : BitVec 6 := 0
  zero : Bool := false
  sticky : Bool := false
  gen : BitVec 16 := 0
  backing : Backing := .empty
  /-- A reload that faulted on resume: cause and address for the first reader (R333). -/
  bad : Option (Nat × DWord) := Option.none
  deriving DecidableEq, Repr

/-- The latch of a wave pair and its registers v64 to v127 (R124). -/
structure Latch where
  owner : Option Nat := none
  waiter : Option Nat := none
  v : Cells 32 := []
  vt : Cells 4 := []
  deriving DecidableEq, Repr

/-- What a completion tag holds (R146, R148): its generation, whether a command is in flight, and the last command's status,
bytes done and fault. (DESIGN CHOICE: log 13) -/
structure TagSt where
  gen : BitVec 22 := 0
  busy : Bool := false
  status : Nat := 1
  done : Nat := 0
  cause : Nat := 0
  faddr : DWord := 0
  access : Byte := 0
  /-- Source of a fault whose cause is ECC (R58). -/
  ecc : Nat := 8
  cls : Nat := 1
  /-- Numbers of its commands, by generation (R172). -/
  seqs : List (Nat × Nat) := []
  deriving DecidableEq, Repr

/-- A copy or codebook-load command in flight (R297 to R301, R329). -/
structure Cmd where
  tag : Nat
  /-- Place in the order in which commands and matrix instructions issued (R328). -/
  seq : Nat
  /-- Key of the issuing wave. -/
  wave : Nat
  src : Space
  dst : Space
  sa : DWord
  da : DWord
  /-- Dimensions: count, source stride, destination stride (R299). -/
  dims : List (Nat × DWord × DWord) := []
  /-- A codebook load into this bank. -/
  bank : Option Nat := none
  install : Option Nat := none
  done : Nat := 0
  cancel : Bool := false
  /-- Fault it waits on (R159): its address, and whether the byte was to be written. -/
  fault : Option Nat := none
  page : Nat := 0
  va : DWord := 0
  wr : Bool := false
  peer : Option PeerWait := none
  /-- Writes that its reads come after (R171, R295). -/
  known : List Known := []
  /-- What source bytes that its own steps overwrote held before, by address in memory (R300). -/
  orig : List Host.Cell := []
  deriving DecidableEq, Repr

/-- What an entry of a staging log brings with it when it is applied: the wave that issued it, its command, the number of the first of its
writes, the releases that it is, and whether it came from a .rel access (R168, R172, R173). -/
structure LogTag where
  wave : Nat := 0
  cmd : Option Nat := none
  id : Nat := 0
  rels : List Release := []
  rel : Bool := false
  deriving DecidableEq, Repr

/-- An entry of a staging log (R81): bytes of one 32-byte block, with the place and length of each access in it, or one atomic. -/
inductive LogE where
  | write (block : Nat) (mask : BitVec 32) (bytes : List Byte) (cmp : Bool) (parts : List (Nat × Nat)) (tag : LogTag)
  | atomic (op : AOp) (pa : Nat) (size : Nat) (x : DWord) (cmp : Bool) (tag : LogTag)
  deriving DecidableEq, Repr

/-- A matrix instruction with the snapshot taken at issue (R306). -/
structure MtxJob where
  wave : Nat
  /-- Place in the order in which commands and matrix instructions issued (R328). -/
  seq : Nat
  pos : Nat
  instr : Instr
  /-- aop and bop registers with those that follow. -/
  a0 : DWord := 0
  a1 : DWord := 0
  b0 : DWord := 0
  b1 : DWord := 0
  b2 : DWord := 0
  ga : BitVec 256 := 0
  gb : BitVec 256 := 0
  gaTab : List Word := []
  gbTab : List Word := []
  mvc : Nat := 64
  start : Nat := 0
  /-- Fault it waits on under STALL (R157), with its address. -/
  fault : Option Nat := none
  page : Nat := 0
  va : DWord := 0
  /-- The fault has been answered with TRAP (R59). -/
  trapped : Bool := false
  peer : Option PeerWait := none
  /-- Flags raised on the rows already done (R184, R307). -/
  flags : BitVec 5 := 0
  /-- Writes that its reads come after (R171, R295). -/
  known : List Known := []
  deriving DecidableEq, Repr

/-- A team (R97), placed, saved or ended with its log queued. -/
structure Team where
  key : Nat
  launch : Nat
  ctx : Nat
  tix : Nat
  /-- Core while placed. -/
  core : Option Nat
  slots : List Nat := []
  /-- Core-absolute start of the scratchpad run (R72). -/
  spBase : Nat := 0
  /-- Staging log run: die and offset in its pool (R82). -/
  logDie : Nat := 0
  logBase : Nat := 0
  w : Cells 64 := []
  tags : DWord := 0
  tagst : List (Nat × TagSt) := []
  cmds : List Cmd := []
  /-- Scratchpad tag table entries (R141). -/
  tab : Cells 64 := []
  /-- Slots that an installing copy made valid, with the number of its writes (R144). -/
  installs : List (Nat × Nat) := []
  /-- SPSLOT (R142, R338). -/
  lg : Nat := 8
  tiles : List Tile := []
  banks : List Bank := []
  latches : List Latch := []
  log : List LogE := []
  direct : Bool := false
  wantDirect : Bool := false
  /-- Tick from which it waits for the position (R216). -/
  wantSince : Nat := 0
  /-- The ticket is released (R85). -/
  released : Bool := false
  /-- TKREL has been issued and waits for the position (R85). -/
  wantRelease : Bool := false
  ended : Bool := false
  saved : Bool := false
  /-- What its waves had written and observed when it ended (R343). -/
  known : List Known := []
  /-- A forced save has been asked for (R89). -/
  toSave : Bool := false
  /-- KILL came while it was saved, and applies when it resumes (R59). -/
  toKill : Bool := false
  resumes : Nat := 0
  replays : Nat := 0
  /-- Scratchpad as saved (R137). -/
  sp : Cells 8 := []
  /-- Matrix work that waits on a fault, while the team is saved (R89). -/
  jobs : List MtxJob := []
  /-- Offset and size of the save record in the pool (R91). -/
  rec_ : Option (Nat × Nat) := none
  start : Nat := 0
  deriving DecidableEq, Repr

/-- The fields of a LAUNCH packet (R51). -/
structure LaunchPkt where
  image : DWord
  args : DWord
  sigaddr : DWord
  sigval : DWord
  teams : Nat
  spbytes : Nat
  waves : Nat
  lanes : Nat
  ntags : Nat
  ntiles : Nat
  nbanks : Nat
  mode : Nat
  latch : Bool
  co : Bool
  affinity : Bool
  idem : Bool
  logsz : Nat
  id : Word
  podgrp : Nat
  deriving DecidableEq, Repr

/-- A phase of a barrier (R249): scope, unit (team key, global quad, die, or 0) and phase number. -/
structure Phase where
  scope : Scope
  unit : Nat
  n : Nat
  deriving DecidableEq, Repr

/-- A launch in progress. -/
structure Launch where
  key : Nat
  ctx : Nat
  /-- Queue, and packet index or timetable entry. -/
  queue : Nat
  idx : Nat
  tt : Option Nat
  /-- Slot time of a timetable launch (R67). -/
  slotTime : Nat := 0
  p : LaunchPkt
  /-- Lowest team never placed (R70). -/
  next : Nat := 0
  /-- Teams to re-run: index, re-runs so far, and the core they ran on (R24, R25). -/
  redo : List (Nat × Nat × Nat) := []
  lastDie : Option Nat := none
  /-- Teams ended and done with. -/
  finished : List Nat := []
  /-- Tickets released or voided (R84 to R87). -/
  released : List Nat := []
  voided : List Nat := []
  reruns : Nat := 0
  restarts : Nat := 0
  /-- Poisoned lines that struck teams of the launch, by team index (R25, R58). -/
  struck : List (Nat × Nat) := []
  /-- Quad of each group of four teams placed, by group (R75). -/
  groups : List (Nat × Nat) := []
  /-- Writes that the tickets released so far put before those of higher teams (R85). -/
  known : List Known := []
  /-- Drains for a restart (R24). -/
  restarting : Bool := false
  error : Bool := false
  aborted : Bool := false
  hold : Bool := false
  phases : List Phase := []
  /-- Pod phase for which the arrival message has been sent (R77). -/
  podSent : Option Nat := none
  /-- Fault its completion record waits on (R372). -/
  fault : Option Nat := none
  peer : Option PeerWait := none
  /-- The record has been written or given up. -/
  done : Bool := false
  deriving DecidableEq, Repr

/-! ### Cores, quads, engines -/

/-- A clause line held by a core or a quad (R206): context, virtual address, 128 bytes. -/
structure Line where
  ctx : Nat
  va : DWord
  bytes : List Byte
  deriving DecidableEq, Repr

/-- A state-cache entry (R107): context, image and key, then state number, first clause offset. -/
structure ScEntry where
  ctx : Nat
  img : DWord
  key : Word
  state : Nat
  first : Nat
  deriving DecidableEq, Repr

/-- What a core holds besides its waves. -/
structure Core where
  id : Nat
  /-- Held under R25: the fault record's key. -/
  held : Option Nat := none
  lines : List Line := []
  sc : List ScEntry := []
  mtx : List MtxJob := []
  /-- Slot that most recently started a clause of each class, by class code (R94). -/
  last : List (Nat × Nat) := []
  /-- DSTEP (R211). -/
  stepDone : Bool := false
  stepMode : Bool := false
  stepSlot : Nat := 0
  deriving DecidableEq, Repr

/-- A quad's stop state (R209, R210) and shared instruction cache (R206). -/
structure Quad where
  id : Nat
  stopped : Bool := false
  kind : Nat := 0
  num : Nat := 0
  pos : Nat := 0
  slot : Nat := 0
  path : Nat := 0
  missed : Nat := 0
  tick : Nat := 0
  addr : DWord := 0
  hits : List (Nat × Nat) := []
  lines : List Line := []
  deriving DecidableEq, Repr

/-! ### Contexts, queues, host -/

/-- A range table entry (R150). -/
structure Range where
  n : Nat
  base : DWord
  limit : DWord
  offset : DWord
  attrs : Word
  deriving DecidableEq, Repr

/-- A PREEMPT in progress (R88). -/
structure Preempt where
  /-- Drain time still left, in ticks. -/
  left : Nat
  forced : Bool
  deriving DecidableEq, Repr

/-- A context (R56). -/
structure Ctx where
  id : Nat
  pasid : Nat
  mem : Nat
  trapImg : DWord
  /-- Policy TRAP; else STALL. -/
  trapPolicy : Bool
  checked : Bool
  drain : Nat
  q : Nat
  p : Nat
  ranges : List Range := []
  root : Option Nat := none
  preempt : Option Preempt := none
  stopped : Bool := false
  poolbase : Nat := 0
  poolsize : Nat := 0
  deriving DecidableEq, Repr

/-- A transform aperture (R162, R163). -/
structure Aperture where
  n : Nat
  kind : Nat
  ctx : Nat
  param : Word
  base : DWord
  size : DWord
  bufA : DWord
  bufB : DWord
  pitch : DWord
  deriving DecidableEq, Repr

/-- Queue states (R46) other than ABSENT, which an unlisted queue has. -/
inductive QSt where
  | ok
  | error (code : Nat)
  deriving DecidableEq, Repr

/-- A consumed packet (R48). -/
structure Pkt where
  i : Nat
  bytes : List Byte
  started : Bool := false
  done : Bool := false
  /-- Tick and time of day at its start (R54). -/
  tick : Nat := 0
  tai : Nat := 0
  /-- Timeout clock at its start (R54, R202). -/
  clk : Nat := 0
  /-- Tick of its consumption (R216). -/
  seen : Nat := 0
  /-- Fault it waits on (R372). -/
  fault : Option Nat := none
  peer : Option PeerWait := none
  /-- A SIGNAL's message that waits for its vector to be unmasked, as 2048·function + vector (R50, R60). -/
  msg : Option Nat := none
  deriving DecidableEq, Repr

/-- A user queue (R45 to R48). -/
structure Queue where
  id : Nat
  ctx : Nat
  ring : DWord
  wb : DWord
  n : Nat
  prio : Nat
  weight : Nat
  vec : Nat
  st : QSt := .ok
  widx : DWord := 0
  ridx : Nat := 0
  lastWb : Nat := 0
  pkts : List Pkt := []
  /-- Packet index that completed last (R216). -/
  lastDone : Nat := 0
  lastTick : Nat := 0
  level : Nat := 0
  /-- Services left in the current round (R67). -/
  credit : Nat := 0
  /-- Ticks the candidate has gone unserved (R68). -/
  unserved : Nat := 0
  destroy : Option Bool := none
  /-- A fault of the ring or write-back address (R57). -/
  fault : Option Nat := none
  peer : Option PeerWait := none
  deriving DecidableEq, Repr

/-- A COPY packet under way (R54). -/
structure PkgCopy where
  queue : Nat
  idx : Nat
  ctx : Nat
  src : DWord
  dst : DWord
  len : Nat
  sig : DWord
  sigval : DWord
  fill : Bool
  engine : Option Nat := none
  done : Nat := 0
  fault : Option Nat := none
  peer : Option PeerWait := none
  /-- What source bytes that its own steps overwrote held before, by address in memory (R54). -/
  orig : List Host.Cell := []
  deriving DecidableEq, Repr

/-- A fault record's content before it is written (R57). -/
structure FaultRec where
  key : Nat
  kind : Nat
  access : Byte := 0
  code : Nat := 0
  ctx : Nat := 0
  queue : Nat := 0
  core : Nat := 0xFFFF
  wave : Nat := 0xFF
  addr : DWord := 0
  launchid : Word := 0
  team : Nat := 0
  tick : Nat := 0
  deriving DecidableEq, Repr

/-- A record written that may be answered (R59). -/
structure OpenFault where
  id : Nat
  key : Nat
  kind : Nat
  core : Nat
  ctx : Nat
  page : Nat := 0
  deriving DecidableEq, Repr

/-- A timetable entry (R62 to R64). -/
structure TtEntry where
  n : Nat
  policy : Nat
  queue : Nat
  period : Nat
  phase : Nat
  pkt : Nat
  /-- Next slot time in ns. -/
  next : Nat := 0
  pending : Option Nat := none
  /-- The launch it started last was a deferred one (R63). -/
  late : Bool := false
  deriving DecidableEq, Repr

/-- A PRI page request outstanding (R44). -/
structure PriReq where
  ctx : Nat
  page : Nat
  /-- Key of the fault a wait on this page quotes. -/
  key : Nat
  /-- The record that a refusal writes: it names the first that waited (R44, R57). -/
  rec_ : FaultRec := { key := 0, kind := 2 }
  /-- It has been sent; others wait for the host's allocation. -/
  sent : Bool := true
  deriving DecidableEq, Repr

/-- A member's arrival at a pod barrier that the root holds (R77). -/
structure PodArr where
  mem : Nat
  launchid : Nat
  phase : Nat
  final : Bool
  /-- The pod group, known for the root's own arrival. -/
  grp : Option Nat := none
  deriving DecidableEq, Repr

/-- A request that waits to leave on a link: its flits, its address, and the request when another package's is forwarded (R29, R30, R32). -/
structure Queued where
  flits : Nat
  pa : Nat
  req : Option PeerReq := none
  deriving DecidableEq, Repr

/-- What an agent of another package knows of the writes here: the package, its number there, and the writes (R165, R167). -/
structure PeerAgent where
  pkg : Nat
  agent : Nat
  known : List Known := []
  /-- Writes that it has read or made (R166). -/
  saw : List (DWord × Nat) := []
  deriving DecidableEq, Repr

/-- State of one Transom link (R28 to R30, R36). -/
structure XLink where
  n : Nat
  up : Bool := false
  down : Bool := true
  lanemap : BitVec 8 := 0xFF
  retries : Nat := 0
  repairs : Nat := 0
  /-- Sequence number expected next, and whether later flits are discarded until it comes (R29). -/
  expect : BitVec 12 := 0
  discarding : Bool := false
  crcRow : Nat := 0
  /-- Highest sequence number acknowledged by the other end; before any, that of no flit. -/
  acked : BitVec 12 := 0xFFF
  /-- Sequence number of the next flit sent. -/
  sent : BitVec 12 := 0
  /-- Requests that wait for room in the replay buffer (R29). -/
  queue : List Queued := []
  deriving DecidableEq, Repr

/-- One source of trace records (R214). -/
structure TraceSrc where
  id : Nat
  last : Nat
  lost : Nat
  resync : Bool
  deriving DecidableEq, Repr

/-- One histogram bin of a die (R215): context, clause address, cap; none for the overflow bin. -/
structure Bin where
  die : Nat
  ctx : Nat
  va : Option DWord
  cap : Bool
  counts : List (Nat × Nat)
  sat : Bool := false
  deriving DecidableEq, Repr

/-- A translation that a TLB may hold (R154): the context, the page, and the entry it came from with the bits of its span. -/
structure TlbEntry where
  ctx : Nat
  page : Nat
  /-- A host delegate entry (R153). -/
  host : Bool
  e : DWord
  k : Nat
  deriving DecidableEq, Repr

/-- An MSI-X table entry (R60): function and vector as 2048·function + vector, its address and data. -/
structure MsixEntry where
  k : Nat
  addr : DWord
  data : Word
  deriving DecidableEq, Repr

/-- What the package sends out other than memory writes. (DESIGN CHOICE: log 93) -/
inductive Output where
  | msix (fn vec : Nat) (addr : DWord) (data : Word)
  | invalidateDone (fn pasid page : Nat)
  | pageRequest (pasid page : Nat)
  | podArrive (root launchid phase : Nat) (final : Bool)
  | podRelease (mem launchid phase : Nat)
  | forward (r : PeerReq)
  | discard (r : PeerReq)
  | peerReply (dst : Nat) (bytes : List Byte)
  | peerError (dst : Nat)
  | flits (link : Nat) (first : BitVec 12)
  | ack (link : Nat) (seq : BitVec 12)
  | attest (certs meas : List Byte)
  | sensor (temps : List Nat) (power corrected uncorrected : Nat) (spareRows : List (Nat × Nat)) (spareQuads : List Nat)
      (lanes : List Nat)
  | repair (r : List (Nat × Nat))
  | scan (bytes : List Byte)
  | read (x : DWord)
  | report (what : Nat) (die : Nat)
  deriving DecidableEq, Repr

/-- What happens next: an event or one instruction of a wave. -/
inductive Move where
  | wave (key : Nat)
  | ev (i : Instr)
  deriving DecidableEq, Repr

/-! ### The machine -/

/-- The whole package, and the world's part that acts on it. (DESIGN CHOICE: log 30, 56) -/
structure State where
  /-- Moves that come next, oldest first: outside inputs and choices made. With none, a free choice among the enabled. -/
  agenda : List Move
  /-- The model's own counter, which free values are drawn with. -/
  nondet : Nat
  /-- The model's own counter of keys. -/
  fresh : Nat
  /-- The wave whose instruction is being issued. -/
  cur : Option Nat
  /-- What has been sent out, oldest first. -/
  outbox : List Output
  /-- Memory: physical byte addresses below 2^56 (R18), then the scratchpads, byte a of core c at 2^56 + 2^20·c + a. -/
  mem : List Host.Cell
  /-- Poisoned 128-byte lines, by line number (R11). -/
  poison : List Nat
  /-- Bytes of poisoned lines that the access in progress has rewritten, by line (R11). -/
  rewrote : Cells 128
  /-- Writes that some agent may not see yet, oldest first (R169). -/
  hist : List Write
  /-- Number of the next such write. -/
  written : Nat
  /-- Fences that have taken effect, oldest first (R168). -/
  fences : List FenceRec
  /-- Agents of other packages that have read or written here (R165). -/
  peers : List PeerAgent
  /-- Forms of 256-byte sectors that are not raw, by sector number (R160). -/
  forms : Cells 2
  /-- CAPS.ready (R42). -/
  ready : Bool
  /-- CAPS.diesok (R42). -/
  diesok : BitVec 4
  /-- The package is down and needs a reset (R10, R27). -/
  dead : Bool
  /-- Repair record: die and physical quad retired (R10). -/
  repair : List (Nat × Nat)
  /-- Physical quad of each logical quad, by global quad number (R10). -/
  quadMap : List Nat
  /-- Power cap in watts (R23). -/
  cap : Nat
  /-- Rows retired: die, bank, row (R12), and banks reported exhausted. -/
  rows : List (Nat × Nat × Nat)
  /-- Correctable events of first-tier rows: tick, then die, bank and row (R11, R12). -/
  rowEvents : List (Nat × Nat × Nat × Nat)
  /-- Correctable and uncorrected event counts (R66). -/
  corrected : Nat
  uncorrected : Nat
  /-- Global tick (R200). -/
  tick : Nat
  /-- Ticks that passed while the package was not gated: the clock of timeouts (R202). -/
  clock : Nat
  /-- Time-of-day counter in units of 2^-32 ns (R61). -/
  tai : Nat
  /-- Frequency offset in 2^-16 ppb (R61). -/
  taiRate : DWord
  ppsTick : DWord
  ppsTai : DWord
  /-- Tick of the last accepted PPS edge. -/
  ppsLast : Option Nat
  /-- A SET_AT_PPS that waits: its value and status address (R61). -/
  ppsSet : Option (DWord × Nat)
  /-- Links up, and paired bits (R40). -/
  link0 : Bool
  link1 : Bool
  paired0 : Bool
  paired1 : Bool
  /-- MSI-X vectors unmasked, and pending bits, as 2048·function + vector (R60). -/
  unmasked : List Nat
  pending : List Nat
  /-- What the driver has written into the MSI-X tables. -/
  msixTab : List MsixEntry
  /-- What the host answers to translation requests (R43). -/
  iommu : List AtsEntry
  pri : List PriReq
  tlb : List TlbEntry
  /-- Control-region registers that only store what is written, by offset (R4, R5). -/
  ctl : Cells 64
  admEnable : Bool
  admLg : Nat
  admWidx : DWord
  admRidx : Nat
  /-- The admin packet being executed: its bytes, and what it waits for. -/
  adm : Option (List Byte)
  fqEnable : Bool
  fqLg : Nat
  fqTail : Nat
  fqHead : DWord
  fqHeld : List FaultRec
  fqOpen : List OpenFault
  ctxs : List Ctx
  apertures : List Aperture
  queues : List Queue
  launches : List Launch
  teams : List Team
  waves : List Wave
  cores : List Core
  quads : List Quad
  copies : List PkgCopy
  /-- Global quad of a die's most recent placement (R73). -/
  dispatch : List (Nat × Nat)
  timetable : List TtEntry
  /-- Timetable counters: fires and skips, by entry (R64). -/
  fires : Cells 64
  skips : Cells 64
  /-- Shutter (R201). -/
  shutTick : DWord
  shutArm : Bool
  /-- Gate at the next tick. -/
  shutNow : Bool
  gated : Bool
  stream : List Byte
  /-- Doorbell writes held while gated (R202). -/
  heldDoors : List (Nat × DWord)
  /-- What the links received while gated, which they hold (R202). -/
  heldEvents : List Instr
  /-- Transom. -/
  podid : Nat
  podidSet : Bool
  peerTo : Nat
  links : List XLink
  podArrs : List PodArr
  /-- Trace ring (R213). -/
  trAddr : Nat
  trSize : Nat
  trMask : DWord
  trTail : Nat
  trHead : DWord
  trStat : BitVec 2
  trSrcs : List TraceSrc
  bins : List Bin
  /-- Tick of the last histogram sample and flush. -/
  histLast : Nat
  flushLast : Nat
  deriving DecidableEq, Repr

/-- The machine right after power-good or package reset, before its mask ROM sequence runs (R65).
(DESIGN CHOICE: log 12, 15) (PRESUMED: log 14) -/
def State.reset : State :=
  { agenda := [], nondet := 0, fresh := 0, cur := none, outbox := [], mem := [], poison := [], rewrote := [], hist := [], written := 0, fences := [], peers := [],
    forms := [], ready := false, diesok := 0xF, dead := false, repair := [], quadMap := [], cap := 3200, rows := [], rowEvents := [], corrected := 0,
    uncorrected := 0, tick := 0, clock := 0, tai := 0, taiRate := 0, ppsTick := 0, ppsTai := 0, ppsLast := none, ppsSet := none,
    link0 := false, link1 := false, paired0 := false, paired1 := false, unmasked := [], pending := [], msixTab := [], iommu := [],
    pri := [], tlb := [], ctl := [], admEnable := false, admLg := 0, admWidx := 0, admRidx := 0, adm := none, fqEnable := false,
    fqLg := 0, fqTail := 0, fqHead := 0, fqHeld := [], fqOpen := [], ctxs := [], apertures := [], queues := [],
    launches := [], teams := [], waves := [], cores := [], quads := [], copies := [], dispatch := [], timetable := [],
    fires := [], skips := [], shutTick := 0, shutArm := false, shutNow := false, gated := false, stream := [],
    heldDoors := [], heldEvents := [], podid := 0, podidSet := false, peerTo := 2000, links := [], podArrs := [], trAddr := 0,
    trSize := 0, trMask := 0, trTail := 0, trHead := 0, trStat := 0, trSrcs := [], bins := [], histLast := 0, flushLast := 0 }

end Sys2Proof.Machine
end

