-- ==== Sys2Proof/Machine/Cells.lean ====
section
/-! DEFINITION. Sparse stores (registers, memory) in one canonical form, bytes and words, lane masks, lists by key. -/

namespace Sys2Proof.Machine

/-! ### Sparse stores -/

/-- The value at a number; 0 where nothing is listed. (DESIGN CHOICE: log 11) -/
def cget {w : Nat} : Cells w → Nat → BitVec w
  | [], _ => 0
  | (a, x) :: t, k => if a = k then x else cget t k

/-- Insertion before the first greater number. -/
def cins {w : Nat} : Cells w → Nat → BitVec w → Cells w
  | [], k, x => [(k, x)]
  | (a, y) :: t, k, x => if k < a then (k, x) :: (a, y) :: t else (a, y) :: cins t k x

/-- Everything but one number. -/
def cdel {w : Nat} (c : Cells w) (k : Nat) : Cells w := c.filter fun p => p.1 != k

/-- A value written: the store stays sorted and lists no 0. -/
def cset {w : Nat} (c : Cells w) (k : Nat) (x : BitVec w) : Cells w :=
  if x = 0 then cdel c k else cins (cdel c k) k x

/-- Several values written, in order. -/
def csetAll {w : Nat} (c : Cells w) (l : List (Nat × BitVec w)) : Cells w := l.foldl (fun c p => cset c p.1 p.2) c

/-- The canonical form: numbers strictly rising, no 0 listed. -/
def cwf {w : Nat} : Cells w → Bool
  | [] => true
  | [(_, x)] => x != 0
  | (a, x) :: (b, y) :: t => x != 0 && decide (a < b) && cwf ((b, y) :: t)

/-- The cells of a range of numbers. -/
def crange {w : Nat} (c : Cells w) (lo n : Nat) : Cells w := c.filter fun p => decide (lo ≤ p.1 ∧ p.1 < lo + n)

/-- The store without a range of numbers. -/
def cclear {w : Nat} (c : Cells w) (lo n : Nat) : Cells w := c.filter fun p => !decide (lo ≤ p.1 ∧ p.1 < lo + n)

/-- A range moved to another base. -/
def cmove {w : Nat} (c : Cells w) (lo n dst : Nat) : Cells w := (crange c lo n).map fun p => (p.1 - lo + dst, p.2)

/-! ### Memory (R2): an unlisted byte reads as 0 -/

/-- The canonical form of a memory. -/
abbrev Memory.wf (m : List Host.Cell) : Bool := cwf (w := 8) m

/-- n bytes from an address upward. -/
def mbytes (m : List Host.Cell) (a : Nat) : Nat → List Byte
  | 0 => []
  | n + 1 => cget (w := 8) m a :: mbytes m (a + 1) n

/-- The little-endian value of n bytes (R2). -/
def mnat (m : List Host.Cell) (a n : Nat) : Nat := leNat (mbytes m a n)

/-- Bytes written from an address upward. -/
def mput (m : List Host.Cell) (a : Nat) : List Byte → List Host.Cell
  | [] => m
  | b :: r => mput (cset (w := 8) m a b) (a + 1) r

/-- Little-endian value of n bytes of a byte list, from an offset. -/
def bnat (b : List Byte) (off n : Nat) : Nat := leNat ((b.drop off).take n)

/-- Whether n bytes of a byte list from an offset are all 0. -/
def bzero (b : List Byte) (off n : Nat) : Bool := ((b.drop off).take n).all (· == 0)

/-- Little-endian bytes of a bit vector. -/
def bvBytes {w : Nat} (n : Nat) (x : BitVec w) : List Byte := leBytes n x.toNat

/-! ### Masks of lanes -/

/-- Bit l of a mask. -/
abbrev bit (m : DWord) (l : Nat) : Bool := m.getLsbD l

/-- The mask of one lane. -/
def laneBit (l : Nat) : DWord := (1 : DWord) <<< l

/-- The lanes of a mask, ascending. -/
def lanesOf (m : DWord) : List Nat := (List.range 64).filter fun l => m.getLsbD l

/-- The mask of the lanes with a property. -/
def maskOf (p : Nat → Bool) : DWord :=
  (List.range 64).foldl (fun m l => if p l then m ||| laneBit l else m) 0

/-- The mask of a list of lanes. -/
def maskList (ls : List Nat) : DWord := ls.foldl (fun m l => m ||| laneBit l) 0

/-- Set bits of a word. -/
def popcount {w : Nat} (x : BitVec w) : Nat := (List.range w).foldl (fun n i => if x.getLsbD i then n + 1 else n) 0

/-- Leading zero bits of a word. -/
def clz {w : Nat} (x : BitVec w) : Nat := w - (if x = 0 then 0 else Nat.log2 x.toNat + 1)

/-- The lowest set bit of a word, or its width when it is 0. -/
def ffs {w : Nat} (x : BitVec w) : Nat := ((List.range w).find? fun i => x.getLsbD i).getD w

/-- Sign extension to 64 bits. -/
def sext64 {w : Nat} (x : BitVec w) : DWord := x.signExtend 64

/-- Zero extension to 64 bits. -/
def zext64 {w : Nat} (x : BitVec w) : DWord := x.setWidth 64

/-! ### Lists by key -/

/-- The entry of a list of pairs, or a default. -/
def lget {α : Type} (l : List (Nat × α)) (k : Nat) (d : α) : α :=
  match l.find? (fun p => p.1 == k) with
  | some p => p.2
  | none => d

/-- An entry of a list of pairs replaced or added. -/
def lset {α : Type} (l : List (Nat × α)) (k : Nat) (x : α) : List (Nat × α) :=
  if l.any (fun p => p.1 == k) then l.map (fun p => if p.1 == k then (k, x) else p) else l ++ [(k, x)]

/-- Every element with a property changed. -/
def lmap {α : Type} (l : List α) (p : α → Bool) (f : α → α) : List α := l.map fun x => if p x then f x else x

/-- An element put in the place of those with a property, or added at the end. -/
def lput {α : Type} (l : List α) (p : α → Bool) (x : α) : List α :=
  if l.any p then l.map (fun y => if p y then x else y) else l ++ [x]

/-! ### The parts of the state by key -/

/-- A wave by key. -/
def State.wave? (s : State) (k : Nat) : Option Wave := s.waves.find? fun w => w.key == k

/-- A wave put back. -/
def State.putWave (s : State) (w : Wave) : State := { s with waves := lput s.waves (fun x => x.key == w.key) w }

/-- A team by key. -/
def State.team? (s : State) (k : Nat) : Option Team := s.teams.find? fun t => t.key == k

/-- A team put back. -/
def State.putTeam (s : State) (t : Team) : State := { s with teams := lput s.teams (fun x => x.key == t.key) t }

/-- A launch by key. -/
def State.launch? (s : State) (k : Nat) : Option Launch := s.launches.find? fun l => l.key == k

/-- A launch put back. -/
def State.putLaunch (s : State) (l : Launch) : State := { s with launches := lput s.launches (fun x => x.key == l.key) l }

/-- A context by number. -/
def State.ctx? (s : State) (k : Nat) : Option Ctx := s.ctxs.find? fun c => c.id == k

/-- A context put back. -/
def State.putCtx (s : State) (c : Ctx) : State := { s with ctxs := lput s.ctxs (fun x => x.id == c.id) c }

/-- A queue by number; none when ABSENT (R46). -/
def State.queue? (s : State) (k : Nat) : Option Queue := s.queues.find? fun q => q.id == k

/-- A queue put back. -/
def State.putQueue (s : State) (q : Queue) : State := { s with queues := lput s.queues (fun x => x.id == q.id) q }

/-- A core; one without entry holds nothing. -/
def State.core (s : State) (c : Nat) : Core := (s.cores.find? fun x => x.id == c).getD { id := c }

/-- A core put back. -/
def State.putCore (s : State) (c : Core) : State := { s with cores := lput s.cores (fun x => x.id == c.id) c }

/-- A quad; one without entry is not stopped. -/
def State.quad (s : State) (g : Nat) : Quad := (s.quads.find? fun x => x.id == g).getD { id := g }

/-- A quad put back. -/
def State.putQuad (s : State) (q : Quad) : State := { s with quads := lput s.quads (fun x => x.id == q.id) q }

/-- A Transom link (R36). -/
def State.link (s : State) (n : Nat) : XLink := (s.links.find? fun x => x.n == n).getD { n := n }

/-- A Transom link put back. -/
def State.putLink (s : State) (l : XLink) : State := { s with links := lput s.links (fun x => x.n == l.n) l }

/-- A message sent out. -/
def State.out (s : State) (o : Output) : State := { s with outbox := s.outbox ++ [o] }

/-- A free choice: the number to draw it with, and the state after. -/
def State.draw (s : State) : Nat × State := (s.nondet, { s with nondet := s.nondet + 1 })

/-- A key never used before. -/
def State.newKey (s : State) : Nat × State := (s.fresh, { s with fresh := s.fresh + 1 })

/-- The core of a wave (R9), when placed. -/
def Wave.coreNo (w : Wave) : Nat := (w.place.getD 0) / 16

/-- The wave slot of a wave, when placed. -/
def Wave.slotNo (w : Wave) : Nat := (w.place.getD 0) % 16

/-- Global quad of a core (R9). -/
def quadOf (c : Nat) : Nat := c / 4

/-- Die of a core (R9). -/
def dieOf (c : Nat) : Nat := c / 160

/-- Position of a core in its quad (R9). -/
def posOf (c : Nat) : Nat := c % 4

/-- The time-of-day counter in ns (R42). -/
def State.taiNs (s : State) : DWord := BitVec.ofNat 64 (s.tai / 2 ^ 32)

/-- Of two candidates the one that the selector prefers: the greater age, then the lesser number. -/
def older (a b : Nat × Nat) : Bool := b.1 < a.1 || (b.1 == a.1 && a.2 < b.2)

/-- The best of a list by age and number. -/
def bestBy {α : Type} (f : α → Nat × Nat) : List α → Option α
  | [] => none
  | x :: t => match bestBy f t with
    | none => some x
    | some y => some (if older (f y) (f x) then y else x)

end Sys2Proof.Machine
end

