-- ==== Sys2Proof/Machine/Flags.lean ====
section
/-! DEFINITION. The floating-point flags (R122, R184). -/

namespace Sys2Proof.Machine

/-- Flags raised by an operation: NV, DZ, OF, UF, NX in bits 4 to 0 (R184). -/
abbrev Flags := BitVec 5

def flagNV : Flags := 16
def flagDZ : Flags := 8
def flagOF : Flags := 4
def flagUF : Flags := 2
def flagNX : Flags := 1

/-- A flag when a condition holds. -/
def flagIf (b : Bool) (f : Flags) : Flags := if b then f else 0

/-- A value with the flags its computation raised. -/
abbrev Fl (α : Type) := α × Flags

/-- The flags of a list of computations together: an instruction ORs the flags of its lanes and elements (R184). -/
def flagsAll {α : Type} (l : List (Fl α)) : Flags := l.foldl (fun f p => f ||| p.2) 0

end Sys2Proof.Machine
end

