-- ==== Sys2Proof/Machine/Fp.lean ====
section
/-! DEFINITION. Number formats, exact values, rounding, conversion, exact sums, special functions (R175 to R190). -/

namespace Sys2Proof.Machine

/-! ### Formats and exact values (R175) -/

/-- Floating-point formats of elements (R175). -/
inductive FFmt where
  | f32 | bf16 | f16 | e4m3 | e5m2 | e2m1
  deriving DecidableEq, Repr

/-- Bits of an element. -/
def FFmt.width : FFmt → Nat
  | .f32 => 32 | .bf16 => 16 | .f16 => 16 | .e4m3 => 8 | .e5m2 => 8 | .e2m1 => 4

/-- Mantissa bits. -/
def FFmt.wm : FFmt → Nat
  | .f32 => 23 | .bf16 => 7 | .f16 => 10 | .e4m3 => 3 | .e5m2 => 2 | .e2m1 => 1

/-- Exponent bits. -/
def FFmt.we : FFmt → Nat
  | .f32 => 8 | .bf16 => 8 | .f16 => 5 | .e4m3 => 4 | .e5m2 => 5 | .e2m1 => 2

/-- Exponent bias. -/
def FFmt.bias : FFmt → Int
  | .f32 => 127 | .bf16 => 127 | .f16 => 15 | .e4m3 => 7 | .e5m2 => 15 | .e2m1 => 1

/-- The format has infinities. -/
def FFmt.hasInf : FFmt → Bool
  | .e4m3 | .e2m1 => false
  | _ => true

/-- Encoding of the largest finite value. -/
def FFmt.maxBits : FFmt → Nat
  | .f32 => 0x7F7FFFFF | .bf16 => 0x7F7F | .f16 => 0x7BFF | .e4m3 => 0x7E | .e5m2 => 0x7B | .e2m1 => 0x7

/-- Encoding of +∞, where the format has one. -/
def FFmt.infBits : FFmt → Nat
  | .f32 => 0x7F800000 | .bf16 => 0x7F80 | .f16 => 0x7C00 | .e5m2 => 0x7C | .e4m3 => 0x7F | .e2m1 => 0x7

/-- The canonical NaN (R175); e2m1 has none, and a NaN converted to it gives +0 (R182). -/
def FFmt.nanBits : FFmt → Nat
  | .f32 => 0x7FC00000 | .bf16 => 0x7FC0 | .f16 => 0x7E00 | .e4m3 => 0x7F | .e5m2 => 0x7E | .e2m1 => 0

/-- The sign bit. -/
def FFmt.signBit (f : FFmt) : Nat := 2 ^ (f.width - 1)

/-- An exact value: a NaN (signalling or quiet), an infinity, or (−1)^neg · m · 2^e; a zero has a sign. -/
inductive FVal where
  | nan (sig : Bool)
  | inf (neg : Bool)
  | fin (neg : Bool) (m : Nat) (e : Int)
  deriving DecidableEq, Repr

/-- The exact value of the bits x in a format (R175). -/
def value (f : FFmt) (x : Nat) : FVal :=
  let neg := decide (x / f.signBit % 2 = 1)
  let m := x % 2 ^ f.wm
  let e := x / 2 ^ f.wm % 2 ^ f.we
  let top := 2 ^ f.we - 1
  if f.hasInf ∧ e = top then
    if m = 0 then .inf neg else .nan (decide (m / 2 ^ (f.wm - 1) = 0))
  else if f = .e4m3 ∧ e = top ∧ m = 7 then .nan false
  else if e = 0 then .fin neg m (1 - f.bias - f.wm)
  else .fin neg (m + 2 ^ f.wm) (e - f.bias - f.wm)

/-- Both operands' sign bits combined with an encoding of a magnitude. -/
def withSign (f : FFmt) (neg : Bool) (x : Nat) : Nat := if neg then x + f.signBit else x

/-- Bit length. -/
def blen (m : Nat) : Nat := if m = 0 then 0 else Nat.log2 m + 1

/-! ### Rounding (R179 to R184) -/

/-- Whether an exact value between n and n + 1 units, at rem / 2^s above n, is rounded up in magnitude; `draw` is the 24-bit
draw of stochastic rounding (R179, R180). -/
def roundsUp (r : Rnd) (neg : Bool) (draw n rem s : Nat) : Bool :=
  match r with
  | .rne => decide (2 * rem > 2 ^ s) || (decide (2 * rem = 2 ^ s) && decide (n % 2 = 1))
  | .rz => false
  | .ru => !neg && decide (rem ≠ 0)
  | .rd => neg && decide (rem ≠ 0)
  | .sr => decide (draw * 2 ^ s < rem * 2 ^ 24)

/-- m · 2^e rounded to a multiple of 2^q: the multiple, and whether it was exact. -/
def roundAt (r : Rnd) (neg : Bool) (draw m : Nat) (e q : Int) : Nat × Bool :=
  if q ≤ e then (m * 2 ^ (e - q).toNat, true)
  else
    let s := (q - e).toNat
    let n := m / 2 ^ s
    let rem := m % 2 ^ s
    (if roundsUp r neg draw n rem s then n + 1 else n, decide (rem = 0))

/-- Result of an overflow without saturation, as IEEE 754 gives it: infinite, or the largest finite value (R181); sr acts away
from zero (R180). -/
def overflowInf (r : Rnd) (neg : Bool) : Bool :=
  match r with
  | .rne | .sr => true
  | .rz => false
  | .ru => !neg
  | .rd => neg

/-- Encoding of an overflow (R181). -/
def overflowBits (f : FFmt) (r : Rnd) (sat neg : Bool) : Nat :=
  if sat || f == .e2m1 || !overflowInf r neg then withSign f neg f.maxBits
  else if f = .e4m3 then f.nanBits
  else withSign f neg f.infBits

/-- The largest finite magnitude as m and e. -/
def FFmt.maxFin (f : FFmt) : Nat × Int :=
  let x := f.maxBits
  (x % 2 ^ f.wm + 2 ^ f.wm, (x / 2 ^ f.wm : Nat) - f.bias - f.wm)

/-- n · 2^q exceeds the largest finite magnitude. -/
def overflows (f : FFmt) (n : Nat) (q : Int) : Bool :=
  let (m, e) := f.maxFin
  if q ≤ e then decide (n > m * 2 ^ (e - q).toNat) else decide (n * 2 ^ (q - e).toNat > m)

/-- Encoding of n · 2^q, a magnitude the format can represent, q at least the exponent of its last place. -/
def packMag (f : FFmt) (n : Nat) (q : Int) : Nat :=
  if n < 2 ^ f.wm then n
  else
    let c := n / 2 ^ (f.wm + 1)
    let n' := if c = 0 then n else n / 2
    let q' := if c = 0 then q else q + 1
    (q' + f.wm + f.bias).toNat * 2 ^ f.wm + (n' - 2 ^ f.wm)

/-- A finite exact value rounded once (R179): the result's bits and flags (R184). Tininess is judged after rounding with
unbounded exponent. -/
def roundFin (f : FFmt) (r : Rnd) (sat : Bool) (draw : Nat) (neg : Bool) (m : Nat) (e : Int) : Fl Nat :=
  if m = 0 then (withSign f neg 0, 0)
  else
    let top : Int := blen m - 1 + e
    let emin : Int := 1 - f.bias
    let q := max top emin - f.wm
    let (n, exact) := roundAt r neg draw m e q
    if overflows f n q then (overflowBits f r sat neg, flagOF ||| flagNX)
    else
      let (u, _) := roundAt r neg draw m e (top - f.wm)
      let tiny := decide (top < emin) && !decide (u = 2 ^ (f.wm + 1) ∧ top + 1 = emin)
      (withSign f neg (packMag f n q), flagIf (!exact) flagNX ||| flagIf (!exact && tiny) flagUF)

/-- round(y, fmt, mode, sat) (R179 to R184, R237). -/
def round (f : FFmt) (r : Rnd) (sat : Bool) (draw : Nat) : FVal → Fl Nat
  | .nan sig => (f.nanBits, flagIf (sig || f == .e2m1) flagNV)
  | .inf neg =>
    if f = .e2m1 ∨ sat then (withSign f neg f.maxBits, flagNX)
    else if f = .e4m3 then (f.nanBits, flagNV)
    else (withSign f neg f.infBits, 0)
  | .fin neg m e => roundFin f r sat draw neg m e

/-! ### Exact arithmetic (R186 to R188, R266) -/

/-- The value with its sign flipped. -/
def FVal.neg : FVal → FVal
  | .nan s => .nan s
  | .inf n => .inf (!n)
  | .fin n m e => .fin (!n) m e

/-- The product of two values, exact; ∞ × 0 is a NaN with NV, and a signalling input sets NV (R188). -/
def fmul (a b : FVal) : Fl FVal :=
  match a, b with
  | .nan s, .nan t => (.nan false, flagIf (s || t) flagNV)
  | .nan s, _ => (.nan false, flagIf s flagNV)
  | _, .nan t => (.nan false, flagIf t flagNV)
  | .inf n, .inf k => (.inf (n != k), 0)
  | .inf n, .fin k m _ => if m = 0 then (.nan false, flagNV) else (.inf (n != k), 0)
  | .fin k m _, .inf n => if m = 0 then (.nan false, flagNV) else (.inf (n != k), 0)
  | .fin n m e, .fin k m' e' => (.fin (n != k) (m * m') (e + e'), 0)

/-- The signed integer of a finite value in units of 2^q, q at most its exponent. -/
def units (neg : Bool) (m : Nat) (e q : Int) : Int :=
  let x : Int := (m * 2 ^ (e - q).toNat : Nat)
  if neg then -x else x

/-- Smallest exponent among the finite values with a nonzero magnitude. -/
def minExp (l : List FVal) : Int :=
  l.foldl (fun q v => match v with | .fin _ m e => if m = 0 then q else min q e | _ => q) 4096

/-- The exact sum of values, with the flags of its special cases and the sign of an exact zero (R187, R188). -/
def fsum (r : Rnd) (l : List FVal) : Fl FVal :=
  let sig := l.any fun v => v == .nan true
  let nan := l.any fun v => v == .nan true || v == .nan false
  let pos := l.any fun v => v == .inf false
  let neg := l.any fun v => v == .inf true
  if nan || (pos && neg) then (.nan false, flagIf (sig || (pos && neg)) flagNV)
  else if pos then (.inf false, 0)
  else if neg then (.inf true, 0)
  else
    let q := minExp l
    let s := l.foldl (fun (t : Int) v => match v with | .fin n m e => if m = 0 then t else t + units n m e q | _ => t) 0
    if s = 0 then
      let allNeg := l.all fun v => match v with | .fin n m _ => n && m == 0 | _ => false
      let allPos := l.all fun v => match v with | .fin n m _ => !n && m == 0 | _ => false
      (.fin (allNeg || (r == .rd && !allPos)) 0 0, 0)
    else (.fin (decide (s < 0)) s.natAbs q, 0)

/-- x · y + z rounded once, with every flag (R266). -/
def ffma (f : FFmt) (r : Rnd) (x y z : FVal) : Fl Nat :=
  let (p, a) := fmul x y
  let (s, b) := fsum r [p, z]
  let (o, c) := round f r false 0 s
  (o, a ||| b ||| c)

/-- A sum rounded once. -/
def faddN (f : FFmt) (r : Rnd) (l : List FVal) : Fl Nat :=
  let (s, b) := fsum r l
  let (o, c) := round f r false 0 s
  (o, b ||| c)

/-- Order of two values neither of which is a NaN; −0 and +0 are equal. -/
def fcmp (a b : FVal) : Ordering :=
  match a, b with
  | .inf n, .inf k => if n = k then .eq else if n then .lt else .gt
  | .inf n, _ => if n then .lt else .gt
  | _, .inf k => if k then .gt else .lt
  | .fin n m e, .fin k m' e' =>
    let q := min e e'
    compare (units n m e q) (units k m' e' q)
  | _, _ => .eq

/-- A NaN. -/
def FVal.isNan : FVal → Bool
  | .nan _ => true
  | _ => false

/-- A signalling NaN. -/
def FVal.isSig : FVal → Bool
  | .nan s => s
  | _ => false

/-- The value's sign. -/
def FVal.sgn : FVal → Bool
  | .nan _ => false
  | .inf n => n
  | .fin n _ _ => n

/-- a lies below b, with −0 below +0 (R190). -/
def fless (a b : FVal) : Bool :=
  match fcmp a b with
  | .lt => true
  | .gt => false
  | .eq => a.sgn && !b.sgn

/-- minimumNumber or maximumNumber over a list of values (R190, R282): NaNs are passed over; all NaN gives a NaN. -/
def fminmax (mx : Bool) (l : List FVal) : Fl FVal :=
  let nums := l.filter fun v => !v.isNan
  let r := match nums with
    | [] => FVal.nan false
    | v :: t => t.foldl (fun a b => if mx then (if fless a b then b else a) else (if fless b a then b else a)) v
  (r, flagIf (l.any FVal.isSig) flagNV)

/-- A value converted to an integer format of n bits, rounded by the mode and saturated (R182, R183). -/
def toInt (signed : Bool) (n : Nat) (r : Rnd) (draw : Nat) : FVal → Fl (BitVec 32)
  | .nan _ => (0, flagNV)
  | .inf neg => (BitVec.ofInt 32 (if neg then (if signed then -2 ^ (n - 1) else 0) else
      (if signed then 2 ^ (n - 1) - 1 else 2 ^ n - 1)), flagNV)
  | .fin neg m e =>
    let (k, exact) := roundAt r neg draw m e 0
    let v : Int := if neg then -(k : Int) else k
    let lo : Int := if signed then -2 ^ (n - 1) else 0
    let hi : Int := if signed then 2 ^ (n - 1) - 1 else 2 ^ n - 1
    if v < lo then (BitVec.ofInt 32 lo, flagNV)
    else if v > hi then (BitVec.ofInt 32 hi, flagNV)
    else (BitVec.ofInt 32 v, flagIf (!exact) flagNX)

/-- An integer as an exact value. -/
def ofInt (v : Int) : FVal := .fin (decide (v < 0)) v.natAbs 0

/-! ### Special functions (R189): the exact result, or one that lies strictly between the same two representable values -/

/-- Integer square root by bits: n bits of result, from the top. -/
def isqrtGo (x : Nat) : Nat → Nat → Nat
  | 0, r => r
  | k + 1, r => let t := r + 2 ^ k; isqrtGo x k (if t * t ≤ x then t else r)

/-- Integer square root. -/
def isqrt (x : Nat) : Nat := isqrtGo x (blen x / 2 + 1) 0

/-- A magnitude with a sticky bit below it: m · 2^e when exact, else a value strictly between it and the next. -/
def sticky (neg : Bool) (m : Nat) (exact : Bool) (e : Int) : FVal :=
  .fin neg (2 * m + if exact then 0 else 1) (e - 1)

/-- a / b (R189, VDIV). -/
def fdiv (a b : FVal) : Fl FVal :=
  match a, b with
  | .nan s, .nan t => (.nan false, flagIf (s || t) flagNV)
  | .nan s, _ => (.nan false, flagIf s flagNV)
  | _, .nan t => (.nan false, flagIf t flagNV)
  | .inf _, .inf _ => (.nan false, flagNV)
  | .inf n, .fin k _ _ => (.inf (n != k), 0)
  | .fin n _ _, .inf k => (.fin (n != k) 0 0, 0)
  | .fin n m e, .fin k m' e' =>
    if m' = 0 then (if m = 0 then (.nan false, flagNV) else (.inf (n != k), flagDZ))
    else
      let x := m * 2 ^ 80
      (sticky (n != k) (x / m') (decide (x % m' = 0)) (e - e' - 80), 0)

/-- Square root of a positive m · 2^e. -/
def sqrtPos (m : Nat) (e : Int) : FVal :=
  let k : Nat := if e % 2 = 0 then 80 else 81
  let x := m * 2 ^ k
  let r := isqrt x
  sticky false r (decide (r * r = x)) ((e - k) / 2)

/-- VSQRT (R189). -/
def fsqrt : FVal → Fl FVal
  | .nan s => (.nan false, flagIf s flagNV)
  | .inf n => if n then (.nan false, flagNV) else (.inf false, 0)
  | .fin n m e =>
    if m = 0 then (.fin n 0 0, 0) else if n then (.nan false, flagNV) else (sqrtPos m e, 0)

/-- VRSQ (R189). -/
def frsq : FVal → Fl FVal
  | .nan s => (.nan false, flagIf s flagNV)
  | .inf n => if n then (.nan false, flagNV) else (.fin false 0 0, 0)
  | .fin n m e =>
    if m = 0 then (.inf n, flagDZ) else if n then (.nan false, flagNV)
    else
      let k : Nat := if e % 2 = 0 then 240 else 241
      let x := 2 ^ k / m
      let r := isqrt x
      (sticky false r (decide (r * r * m = 2 ^ k)) ((-e - k) / 2), 0)

/-- VRCP (R189). -/
def frcp (v : FVal) : Fl FVal := fdiv (.fin false 1 0) v

/-- Bits of the fixed-point series. (UNVERIFIED: log 130) -/
def fixP : Nat := 440

/-- ln 2 in units of 2^-440, rounded down. -/
def ln2Fix : Nat := 1967993017450341159941259058247707673170273436274736432620672316440916855485724492362804444458040432929760893851004249265809758697505

/-- π in units of 2^-440, rounded down. -/
def piFix : Nat := 8919653111686155361594895283741457667927754617975811017404146498622904977937858519328448476565678712740932499400936380777796272225360

/-- Product of two fixed-point numbers. -/
def fixMul (a b : Nat) : Nat := a * b / 2 ^ fixP

/-- Σ x^k / k! from a term onward, x in fixed point: n further terms. -/
def expGo (x : Nat) : Nat → Nat → Nat → Nat → Nat
  | 0, _, _, acc => acc
  | n + 1, k, t, acc => let t' := fixMul t x / k; expGo x n (k + 1) t' (acc + t')

/-- e^x in fixed point, 0 ≤ x < 1. -/
def expFix (x : Nat) : Nat := expGo x 110 1 (2 ^ fixP) (2 ^ fixP)

/-- Σ z^(2k+1) / (2k+1), z in fixed point. -/
def atanhGo (z2 : Nat) : Nat → Nat → Nat → Nat → Nat
  | 0, _, _, acc => acc
  | n + 1, k, t, acc => let t' := fixMul t z2; atanhGo z2 n (k + 2) t' (acc + t' / k)

/-- ln(a / b) in fixed point, 1 ≤ a / b < 2. -/
def lnFix (a b : Nat) : Nat :=
  let z := (a - b) * 2 ^ fixP / (a + b)
  2 * atanhGo (fixMul z z) 150 3 z z

/-- Σ ±x^k / k! of every second term: sine from k = 1, cosine from k = 0; signs alternate. -/
def trigGo (x2 : Nat) : Nat → Nat → Nat → Bool → Int → Int
  | 0, _, _, _, acc => acc
  | n + 1, k, t, neg, acc =>
    let t' := fixMul t x2 / (k * (k + 1))
    trigGo x2 n (k + 2) t' (!neg) (if neg then acc - t' else acc + t')

/-- sin of an angle in fixed point, 0 ≤ x < 1. -/
def sinFix (x : Nat) : Nat := (trigGo (fixMul x x) 60 2 x true x).toNat

/-- cos of an angle in fixed point, 0 ≤ x < 1. -/
def cosFix (x : Nat) : Nat := (trigGo (fixMul x x) 60 1 (2 ^ fixP) true (2 ^ fixP)).toNat

/-- VEXP2 (R189). -/
def fexp2 : FVal → Fl FVal
  | .nan s => (.nan false, flagIf s flagNV)
  | .inf n => (if n then .fin false 0 0 else .inf false, 0)
  | .fin n m e =>
    if m = 0 then (.fin false 1 0, 0)
    else if (blen m : Int) + e > 12 then (.fin false 3 (if n then -4000 else 4000), 0)
    else
      let x := units n m e (min e 0)
      let d : Int := 2 ^ (-(min e 0)).toNat
      let i := x / d
      let fr := (x % d).toNat
      if fr = 0 then (.fin false 1 i, 0)
      else (sticky false (expFix (fr * ln2Fix / d.toNat)) false (i - fixP), 0)

/-- VLOG2 (R189). -/
def flog2 : FVal → Fl FVal
  | .nan s => (.nan false, flagIf s flagNV)
  | .inf n => if n then (.nan false, flagNV) else (.inf false, 0)
  | .fin n m e =>
    if m = 0 then (.inf true, flagDZ) else if n then (.nan false, flagNV)
    else
      let i : Int := blen m - 1 + e
      let b := 2 ^ (blen m - 1)
      if m = b then (.fin (decide (i < 0)) i.natAbs 0, 0)
      else
        let fr : Int := (lnFix m b * 2 ^ fixP / ln2Fix : Nat)
        let t : Int := i * 2 ^ fixP + fr
        (sticky (decide (t < 0)) (if t < 0 then (-t).toNat - 1 else t.toNat) false (-(fixP : Int)), 0)

/-- The fraction of a turn of a finite value, as num / 2^k: 8 · num / 2^k gives the octant. -/
def turnOf (neg : Bool) (m : Nat) (e : Int) : Nat × Nat :=
  let k := (-(min e 0)).toNat
  let x := units neg m e (min e 0)
  ((x % (2 ^ k : Nat)).toNat, k)

/-- sin(2π · a / 2^k) for 0 ≤ a < 2^k: sign and magnitude in fixed point, and whether it is exact. -/
def sinTurn (a k : Nat) : Bool × Nat × Bool :=
  let a4 := a * 4
  let d := 2 ^ k
  let quad := a4 / d
  let r := a4 % d
  let neg := decide (quad ≥ 2)
  if r = 0 then (neg, if quad % 2 = 0 then 0 else 2 ^ fixP, true)
  else
    -- the angle within the quadrant, r / d of a quarter turn, reflected in odd quadrants
    let p := if quad % 2 = 0 then r else d - r
    if 2 * p ≤ d then (neg, sinFix (p * piFix / (2 * d)), false)
    else (neg, cosFix ((d - p) * piFix / (2 * d)), false)

/-- VSINT: sin(2πx) (R189). -/
def fsint : FVal → Fl FVal
  | .nan s => (.nan false, flagIf s flagNV)
  | .inf _ => (.nan false, flagNV)
  | .fin n m e =>
    let (a, k) := turnOf n m e
    let (neg, x, exact) := sinTurn a k
    if x = 0 ∧ exact then (.fin n 0 0, 0) else (sticky neg x exact (-(fixP : Int)), 0)

/-- VCOST: cos(2πx) = sin(2π(x + 1/4)) (R189). -/
def fcost : FVal → Fl FVal
  | .nan s => (.nan false, flagIf s flagNV)
  | .inf _ => (.nan false, flagNV)
  | .fin n m e =>
    let (a, k) := turnOf n m e
    let (neg, x, exact) := sinTurn ((4 * a + 2 ^ k) % 2 ^ (k + 2)) (k + 2)
    if x = 0 ∧ exact then (.fin false 0 0, 0) else (sticky neg x exact (-(fixP : Int)), 0)

/-- A special function on an f32 word (R189): rounded once by rne. -/
def special (g : FVal → Fl FVal) (x : Word) : Fl Word :=
  let (y, a) := g (value .f32 x.toNat)
  let (o, b) := round .f32 .rne false 0 y
  (BitVec.ofNat 32 o, a ||| b)

/-! ### amax (R185) -/

/-- The f32 encoding of a magnitude, exact for every input format. -/
def magBits (v : FVal) : BitVec 33 :=
  match v with
  | .nan _ => 0x100000000
  | .inf _ => 0x7F800000
  | .fin _ m e => BitVec.ofNat 33 (roundFin .f32 .rne false 0 false m e).1

/-- An amax update applied: the larger magnitude, read as unsigned, and the sticky NaN bit (R185). -/
def amaxJoin (a b : BitVec 33) : BitVec 33 :=
  let m := max (a.extractLsb' 0 32).toNat (b.extractLsb' 0 32).toNat
  ((a.extractLsb' 32 1 ||| b.extractLsb' 32 1) ++ BitVec.ofNat 32 m : BitVec 33)

/-- The update of a list of inputs. -/
def amaxOf (l : List FVal) : BitVec 33 := l.foldl (fun a v => amaxJoin a (magBits v)) 0

end Sys2Proof.Machine
end

