-- ==== Sys2Proof/Machine/Gen.lean ====
section
/-! DEFINITION. The mix function, generators and codebooks (R191 to R199). -/

namespace Sys2Proof.Machine

/-! ### mix (R191) -/

/-- The mix function (R191). -/
def mix (row col seed : DWord) : DWord :=
  let x := (row * 0xD6E8FEB86659FD93) ^^^ (col * 0xA0761D6478BD642F) ^^^ seed
  let x := x ^^^ (x >>> 32)
  let x := x * 0x9E3779B97F4A7C15
  let x := x ^^^ (x >>> 29)
  let x := x * 0xBF58476D1CE4E5B9
  x ^^^ (x >>> 32)

/-- The draw of stochastic rounding for element k of a lane (R180): bits [63:40] of mix. -/
def srDraw (srctr srseed : DWord) (tix wid lane k : Nat) : Nat :=
  ((mix (srctr * 8 + BitVec.ofNat 64 k) (BitVec.ofNat 64 (tix * 1024 + wid * 64 + lane)) srseed).extractLsb' 40 24).toNat

/-! ### Descriptor fields (R320) -/

/-- seed, bits [63:0]. -/
def gSeed (d : BitVec 256) : DWord := d.extractLsb' 0 64
/-- scale, bits [95:64]. -/
def gScale (d : BitVec 256) : Word := d.extractLsb' 64 32
/-- param, bits [127:96]. -/
def gParam (d : BitVec 256) : Word := d.extractLsb' 96 32
/-- row0, bits [159:128]. -/
def gRow0 (d : BitVec 256) : Word := d.extractLsb' 128 32
/-- col0, bits [191:160]. -/
def gCol0 (d : BitVec 256) : Word := d.extractLsb' 160 32
/-- kind, bits [195:192]. -/
def gKind (d : BitVec 256) : Nat := (d.extractLsb' 192 4).toNat
/-- sub, bits [199:196]. -/
def gSub (d : BitVec 256) : Nat := (d.extractLsb' 196 4).toNat
/-- scope, bits [201:200]. -/
def gScope (d : BitVec 256) : Nat := (d.extractLsb' 200 2).toNat
/-- fchk, bits [205:202]. -/
def gFchk (d : BitVec 256) : BitVec 4 := d.extractLsb' 202 4
/-- faddr, bits [255:206]: bits [56:7] of the frequency table's virtual address. -/
def gFaddr (d : BitVec 256) : BitVec 50 := d.extractLsb' 206 50

/-- The canonical virtual address of a slot's frequency table: faddr × 128, sign-extended from bit 56 (R149, R320). -/
def gTabVa (d : BitVec 256) : DWord := sext64 (gFaddr d ++ (0 : BitVec 7))

/-- The descriptor with bits [lo + w − 1 : lo] replaced. -/
def gPut {w : Nat} (d : BitVec 256) (lo : Nat) (x : BitVec w) : BitVec 256 :=
  let m : BitVec 256 := (BitVec.ofNat 256 (2 ^ w - 1)) <<< lo
  (d &&& ~~~m) ||| ((x.setWidth 256) <<< lo)

/-- One field written (R322, R323): the ctl field takes bits [13:0] into [205:192] and [63:14] into faddr, but for a ROTARY
kind over a ROTARY one faddr is kept. -/
def gSetField (d : BitVec 256) (f : GField) (x : DWord) : BitVec 256 :=
  match f with
  | .seed => gPut d 0 x
  | .scale => gPut d 64 (x.extractLsb' 0 32)
  | .param => gPut d 96 (x.extractLsb' 0 32)
  | .row0 => gPut d 128 (x.extractLsb' 0 32)
  | .col0 => gPut d 160 (x.extractLsb' 0 32)
  | .ctl =>
    let d' := gPut d 192 (x.extractLsb' 0 14)
    if (x.extractLsb' 0 4).toNat = 5 then d' else gPut d' 206 (x.extractLsb' 14 50)

/-- The conditions of R321 under which reading a generator raises GENCFG; `fmt` is the reading MMA's format, none for GRD. -/
def gBad (d : BitVec 256) (fmt : Option Tag) : Bool :=
  let k := gKind d
  k == 0 || k > 5
  || (if k == 4 then gSub d > 2 else gSub d != 0)
  || (match value .f32 (gScale d).toNat with | .fin _ _ _ => false | _ => true)
  || (k == 4 && gSub d == 2 && (gParam d).extractLsb' 24 8 != 0)
  || (match fmt with | some t => gFchk d != 0 && gFchk d != t.bits | none => false)

/-- The effective seed (R192). -/
def gSeedEff (d : BitVec 256) (launchid : Word) (tix wid : Nat) : DWord :=
  let id : DWord := match gScope d with
    | 0 => 0
    | 1 => zext64 launchid
    | 2 => BitVec.ofNat 64 tix
    | _ => BitVec.ofNat 64 (tix * 16 + wid)
  gSeed d ^^^ mix id 0 0

/-- t[k] = round(2^30 · sin(πk / 2048)) (R195): πk / 2048 is k / 4096 of a turn. -/
def rotTab (k : Nat) : Int :=
  let (_, x, _) := sinTurn k 12
  (((x >>> (fixP - 31)) + 1) / 2 : Nat)

/-- The exact value of a ROTARY element (R195), as an integer of 2^-50 units before the scale. -/
def rotary (tab : Nat → Word) (r c : Word) : Int :=
  let f := tab ((c >>> 1).toNat % 256)
  let ph := r * f
  let ph := if c.getLsbD 0 then ph else ph + 0x40000000
  let q := (ph.extractLsb' 30 2).toNat
  let i := (ph.extractLsb' 20 10).toNat
  let fr : Int := (ph.extractLsb' 0 20).toNat
  let (lo, hi) := if q % 2 = 0 then (rotTab i, rotTab (i + 1)) else (rotTab (1024 - i), rotTab (1023 - i))
  let v := lo * 2 ^ 20 + (hi - lo) * fr
  if q ≥ 2 then -v else v

/-- An integer of 2^-k units times the scale, exact; a zero is +0 (R196). -/
def scaled (sigma : FVal) (v : Int) (k : Nat) : FVal :=
  match sigma with
  | .fin n m e =>
    if v = 0 ∨ m = 0 then .fin false 0 0
    else .fin (n != decide (v < 0)) (m * v.natAbs) (e - k)
  | x => x

/-- G(r, c), exact (R193 to R195). SIGN and MASK give ±σ itself, a negative zero scale included. -/
def gExact (d : BitVec 256) (tab : Nat → Word) (seed : DWord) (r c : Word) : FVal :=
  let sigma := value .f32 (gScale d).toNat
  let x := mix (zext64 r) (zext64 c) seed
  let p := gParam d
  let zero := FVal.fin false 0 0
  match gKind d with
  | 1 => if x.getLsbD 63 then sigma.neg else sigma
  | 2 => scaled sigma ((List.range 8).foldl (fun (t : Int) k => t + (x.extractLsb' (8 * k) 8).toNat) (-1020)) 0
  | 3 => scaled sigma (x.extractLsb' 40 24).toNat 24
  | 4 =>
    match gSub d with
    | 0 => if (r.toNat : Int) + p.toInt ≥ c.toNat then sigma else zero
    | 1 => if ((r.toNat : Int) - c.toNat).natAbs ≤ p.toNat then sigma else zero
    | _ => if (x.extractLsb' 40 24).toNat < (p.extractLsb' 0 24).toNat then sigma else zero
  | _ => scaled sigma (rotary tab r c) 50

/-- A generator value in an output format (R196): rounded once by rne, saturating. -/
def gValue (f : FFmt) (d : BitVec 256) (tab : Nat → Word) (seed : DWord) (r c : Word) : Nat :=
  (round f .rne true 0 (gExact d tab seed r c)).1

/-! ### Codebooks (R197, R198) -/

/-- Why a decode has no plain result. -/
inductive CbRes where
  | els (l : List FVal)
  /-- Invalid entry in TRAP mode: the entry number. -/
  | bad (e : Nat)
  /-- Invalid entry in ZERO mode. -/
  | zeros
  deriving DecidableEq, Repr

/-- Eight elements of a valid entry (R198). -/
def cbElems (entry : DWord) (x : BitVec 16) (escale : Byte) (ebank : Int) : List FVal :=
  let par := (List.range 7).foldl (fun b i => b != x.getLsbD i) (entry.getLsbD 32)
  (List.range 8).map fun i =>
    if escale = 0xFF then FVal.nan false
    else .fin (if i = 7 then par else x.getLsbD i) (entry.extractLsb' (4 * i) 4).toNat (ebank + escale.toNat - 127)

/-- Index x with a scale byte in a bank (R198). -/
def cbDecode (b : Bank) (x : BitVec 16) (escale : Byte) : CbRes :=
  let e := (x.extractLsb' 7 9).toNat
  let entry := cget b.entries e
  if entry.getLsbD 63 then .els (cbElems entry x escale b.e.toInt)
  else if b.zero then .zeros
  else .bad e

end Sys2Proof.Machine
end

