-- ==== Sys2Proof/Machine/Operands.lean ====
section
/-! DEFINITION. What an issuing instruction sees (R126, R231, R237): the registers due at its position, its operands, its
lanes, and the effects it has on registers. -/

namespace Sys2Proof

open Machine

namespace Machine

/-! ### Effects on registers (R126, R260) -/

/-- Team-wide registers narrower than 64 bits as a scalar destination stores them (R255). -/
def Regs.putS (r : Regs) (d : SDst) (x : DWord) : Regs :=
  match d with
  | .s n => { r with s := cset r.s n x }
  | .h n => { r with h := cset r.h n (x.extractLsb' 0 32) }
  | .w n => { r with w := cset r.w n x }
  | .zero => r
  | .exm => { r with exm := x }
  | .amax => { r with amax := x.extractLsb' 0 33 }
  | .mvc => { r with mvc := x.extractLsb' 0 7 }
  | .mrp => { r with mrp := x.extractLsb' 0 7 }
  | .fflags => { r with fflags := x.extractLsb' 0 5 }

/-- One effect on the registers (R126). Effects on the team alone (TCLR, LREL, SPSLOT, FRAME) change no register here. -/
def Regs.put (r : Regs) : Eff → Regs
  | .vrow v lanes tag =>
    if lanes.isEmpty then r
    else { r with v := csetAll r.v (lanes.map fun p => (64 * v.val + p.1, p.2)), vt := cset r.vt v.val tag.bits }
  | .sreg n x => { r with s := cset r.s n x }
  | .hreg n x => { r with h := cset r.h n x }
  | .wreg n x => { r with w := cset r.w n x }
  | .mreg n x => { r with m := cset r.m n x }
  | .gfield n f x => { r with g := cset r.g n (gSetField (cget r.g n) f x) }
  | .gdesc n x tab =>
    let gtab := match tab with
      | some t => csetAll (cclear r.gtab (256 * n) 256) (t.zipIdx.map fun p => (256 * n.val + p.2, p.1))
      | none => r.gtab
    { r with g := cset r.g n x, gtab := gtab, gbad := cset r.gbad n 0 }
  | .exm x => { r with exm := x }
  | .amaxSet x => { r with amax := x }
  | .amaxUpd x => { r with amax := amaxJoin r.amax x }
  | .amaxTake d => ({ r with amax := 0 }).putS d (r.amax.setWidth 64)
  | .mvc x => { r with mvc := x }
  | .mrp x => { r with mrp := x }
  | .flagsSet x => { r with fflags := x }
  | .flagsOr x => { r with fflags := r.fflags ||| x }
  | .nblk l b ret =>
    { r with nblk := cset r.nblk l (BitVec.ofNat 8 b.val), ret := if ret then r.ret ||| laneBit l else r.ret &&& ~~~laneBit l }
  | .tclr _ => r
  | .lrel => r
  | .csrw n x => if n = 0x10 then { r with srseed := x } else if n = 0x11 then { r with srctr := x } else r
  | .srctr => { r with srctr := r.srctr + 1 }

/-- Effects in order. -/
def Regs.putAll (r : Regs) (l : List Eff) : Regs := l.foldl Regs.put r

/-- An entry whose long-latency work has still to complete. -/
def Pend.waits (p : Pend) : Bool := p.long && !p.completed

/-- Where an entry stands in the order in which writes prevail (R126, R127): a fixed-latency one at its position, a long-latency one
after every position of its window. (DEDUCED: log 43) -/
def Pend.rank (p : Pend) : Nat := if p.long then 2 * (p.due - 1) + 1 else 2 * p.pos

/-- An entry put behind those that a number does not place after it. -/
def Pend.ins (f : Pend → Nat) (p : Pend) : List Pend → List Pend
  | [] => [p]
  | q :: t => if f p < f q then p :: q :: t else q :: Pend.ins f p t

/-- Entries sorted by a number; equal ones keep their order. -/
def sortPend (f : Pend → Nat) (l : List Pend) : List Pend := l.foldl (fun a p => Pend.ins f p a) []

/-- fflags and amax while the effects of a clause fall due, one after another (R260, R276): their values, the highest rank that has
acted on each, the rank of the explicit write in force, and what each AMAXC took, by position. -/
structure Accum where
  fflags : BitVec 5
  amax : BitVec 33
  fAny : Nat := 0
  fSet : Nat := 0
  aAny : Nat := 0
  aSet : Nat := 0
  took : List (Nat × BitVec 33) := []
  deriving DecidableEq, Repr

/-- An explicit write of fflags: one that is later in program order prevails (R126, R260). -/
def Accum.setFlags (a : Accum) (rank : Nat) (x : BitVec 5) : Accum :=
  if a.fAny ≤ rank then { a with fflags := x, fAny := rank, fSet := rank } else a

/-- An effect falling due: an update joins the value in force, unless an explicit write later in program order is in force; AMAXC takes
what stands there, and what falls due later lands in the cleared amax (R260, R276). (DEDUCED: log 132) -/
def Accum.put (rank pos : Nat) (a : Accum) : Eff → Accum
  | .flagsSet x => a.setFlags rank x
  | .flagsOr x => if a.fSet ≤ rank then { a with fflags := a.fflags ||| x, fAny := max a.fAny rank } else a
  | .amaxSet x => if a.aAny ≤ rank then { a with amax := x, aAny := rank, aSet := rank } else a
  | .amaxUpd x => if a.aSet ≤ rank then { a with amax := amaxJoin a.amax x, aAny := max a.aAny rank } else a
  | .amaxTake d =>
    let t := { a with took := (pos, a.amax) :: a.took, amax := (match d with | .amax => a.amax | _ => 0), aAny := 0, aSet := 0 }
    match d with
    | .fflags => t.setFlags rank (a.amax.extractLsb' 0 5)
    | _ => t
  | _ => a

/-- fflags and amax after entries that are due, in the order in which they fall due. -/
def Regs.accum (r : Regs) (l : List Pend) : Accum :=
  (sortPend Pend.due (sortPend Pend.rank l)).foldl (fun a p => p.effs.foldl (Accum.put p.rank p.pos) a)
    { fflags := r.fflags, amax := r.amax }

/-- The effects of an entry, with the value that AMAXC took. -/
def Regs.putPend (a : Accum) (r : Regs) (p : Pend) : Regs :=
  p.effs.foldl (fun r e => match e with
    | .amaxTake d => r.putS d ((lget a.took p.pos 0).setWidth 64)
    | e => r.put e) r

/-- Registers after entries that are due: of two writes of one register, the later in program order prevails (R126). -/
def Regs.after (r : Regs) (l : List Pend) : Regs :=
  let a := r.accum l
  { (sortPend Pend.rank l).foldl (Regs.putPend a) r with fflags := a.fflags, amax := a.amax }

/-- The registers that an instruction at position `j` sees (R126, R127): the clause's start, with the effects that are due. -/
def Wave.regsAt (w : Wave) (j : Nat) : Regs := w.regs.after (w.pend.filter fun p => p.due ≤ j)

/-- The registers once everything pending is due: at the end of a clause (R126). -/
def Wave.regsEnd (w : Wave) : Regs := w.regs.after w.pend

/-! ### The issuing instruction's surroundings (R237) -/

/-- What an instruction of the issuing wave sees. -/
structure Env where
  s : State
  w : Wave
  t : Team
  l : Launch
  c : Ctx
  f : Frag
  cl : Clause
  r : Regs
  deriving DecidableEq, Repr

/-- Surroundings of a wave with a current fragment, whatever it is doing. -/
def State.envOf (s : State) (w : Wave) (cl : Clause) : Option Env :=
  match s.team? w.team, w.frags[w.cur]? with
  | some t, some f =>
    match s.launch? t.launch, s.ctx? t.ctx with
    | some l, some c => some { s, w, t, l, c, f, cl, r := w.regsAt w.pos }
    | _, _ => none
  | _, _ => none

/-- The surroundings of the instruction being issued: the wave whose turn it is stands inside a clause. (DESIGN CHOICE: log 10) -/
def State.env? (s : State) : Option Env :=
  match s.cur with
  | none => none
  | some k =>
    match s.wave? k with
    | none => none
    | some w =>
      match w.stage, w.clause with
      | .issue, some cl => if w.pos < cl.count then s.envOf w cl else none
      | _, _ => none

namespace Env

/-- Lane l belongs to the fragment and to slot k's block (R237). -/
def inslot (e : Env) (k : Slot) (l : Nat) : Bool :=
  bit e.f.mask l && (match e.f.blocks[k.val]? with | some b => (cget e.w.blk l).toNat == b | none => false)

/-- Lane l is in slot k and its exm bit is 1 (R237). -/
def active (e : Env) (k : Slot) (l : Nat) : Bool := e.inslot k l && bit e.r.exm l

/-- Some lane is in slot k (R237). -/
def anylane (e : Env) (k : Slot) : Bool := (List.range 64).any (e.inslot k)

/-- Lanes in slot k, ascending. -/
def inLanes (e : Env) (k : Slot) : List Nat := (List.range 64).filter (e.inslot k)

/-- Active lanes of slot k, ascending. -/
def lanes (e : Env) (k : Slot) : List Nat := (List.range 64).filter (e.active k)

/-- The mode of checked timing is on (R128). -/
def checked (e : Env) : Bool := e.cl.k || e.c.checked

/-- Writes to global memory enter the team's log (R79). -/
def staged (e : Env) : Bool := e.l.p.mode != 0 && !e.t.direct

/-- Core of the wave. -/
def coreNo (e : Env) : Nat := e.w.coreNo

end Env

/-! ### Reading operands (R225, R231, R237) -/

end Machine

/-- The lane a permuted source is read from (R225). -/
def PCode.plane (p : PCode) (l : Nat) : Nat :=
  match p with
  | .bfly k => l ^^^ (2 ^ k.val)
  | .rot k => 8 * (l / 8) + (l + k.val + 1) % 8
  | .rev => 63 - l
  | .bc m => m.val

/-- Permutation of operand a, b or c. -/
def Perm.onA : Perm → Option PCode | .a p => some p | _ => Option.none
def Perm.onB : Perm → Option PCode | .b p => some p | _ => Option.none
def Perm.onC : Perm → Option PCode | .c p => some p | _ => Option.none

namespace Machine

/-- Tag of a v register (R177, R178). -/
def Regs.tag (r : Regs) (n : VReg) : Tag := (Tag.ofBits (cget r.vt n.val)).getD .raw

namespace Env

/-- Lane l of a v register. -/
def vlane (e : Env) (n : VReg) (l : Nat) : Word := cget e.r.v (64 * n.val + l)

/-- rd(x, l) of R237. -/
def rd (e : Env) (x : VSrc) (p : Option PCode) (l : Nat) : Word :=
  match x with
  | .v n => e.vlane n (match p with | some q => q.plane l | none => l)
  | .s n => (cget e.r.s n.val).extractLsb' 0 32
  | .zero => 0
  | .lid => BitVec.ofNat 32 l
  | .wid => BitVec.ofNat 32 e.w.wid
  | .tix => BitVec.ofNat 32 e.t.tix
  | .blk => (cget e.w.blk l).setWidth 32
  | .nblk => (cget e.r.nblk l).setWidth 32

/-- tag_check(x, fmt, i) of R237: FMTCHK's fault word when the tag differs; only v registers have tags. -/
def tagBad (e : Env) (x : VSrc) (fmt : Tag) (i : Nat) : Option Word :=
  match x with
  | .v n => if e.r.tag n = fmt then none else some (BitVec.ofNat 32 ((e.r.tag n).bits.toNat + 16 * i))
  | _ => none

/-- A scalar source, zero-extended (R252). -/
def srd (e : Env) (x : SSrc) : DWord :=
  match x with
  | .s n => cget e.r.s n.val
  | .h n => zext64 (cget e.r.h n.val)
  | .w n => cget e.r.w n.val
  | .zero => 0
  | .wid => BitVec.ofNat 64 e.w.wid
  | .tix => BitVec.ofNat 64 e.t.tix
  | .exm => e.r.exm
  | .tags => e.t.tags
  | .amax => zext64 e.r.amax
  | .mvc => zext64 e.r.mvc
  | .mrp => zext64 e.r.mrp
  | .fml => e.r.fml
  | .fflags => zext64 e.r.fflags

/-- A mask source. -/
def mrd (e : Env) (x : MSrc) : DWord :=
  match x with
  | .m n => cget e.r.m n.val
  | .exm => e.r.exm
  | .fml => e.r.fml
  | .zero => 0

/-- A mask or scalar source (R283, R302). -/
def msrd (e : Env) (x : MSSrc) : DWord :=
  match x with
  | .m n => cget e.r.m n.val
  | .sc y => e.srd y

/-- An s register. -/
def sreg (e : Env) (n : SReg) : DWord := cget e.r.s n.val

/-- An s register or zero. -/
def szrd (e : Env) : SZ → DWord | .s n => e.sreg n | .zero => 0

/-- ea(l) of R226. -/
def ea (e : Env) (a : MAddr) (l : Nat) : DWord :=
  let idx : Word := match a.index with
    | .v n => e.vlane n l
    | .s n => (e.sreg n).extractLsb' 0 32
    | .zero => 0
  e.szrd a.base + (sext64 idx <<< a.scale.val) + sext64 a.off

end Env

/-! ### Register numbers, for checked mode and the latch (R124, R128, R231) -/

end Machine

def VSrc.num (x : VSrc) : List Nat := [x.bits.toNat]
def VDst.num (x : VDst) : List Nat := [x.bits.toNat]
def SSrc.num (x : SSrc) : List Nat := [x.bits.toNat]
def SDst.num (x : SDst) : List Nat := [x.bits.toNat]
def MSrc.num (x : MSrc) : List Nat := [x.bits.toNat]
def MDst.num (x : MDst) : List Nat := [x.bits.toNat]
def MSSrc.num (x : MSSrc) : List Nat := [x.bits.toNat]
def MSDst.num (x : MSDst) : List Nat := [x.bits.toNat]
def SZ.num (x : SZ) : List Nat := [x.bits.toNat]

namespace Machine

def snum (n : SReg) : List Nat := [128 + n.val]
def gnum (n : Fin 8) : List Nat := [192 + n.val]
def hnum (n : Fin 16) : List Nat := [200 + n.val]

end Machine

/-- The registers of a memory operand. -/
def MAddr.nums (a : MAddr) : List Nat := a.base.num ++ [a.index.bits.toNat]

/-- A run of n consecutive v registers from a destination. -/
def VDst.runNums (d : VDst) (n : Nat) : List Nat :=
  match d with
  | .v r => (List.range n).map (r.val + ·)
  | .zero => [240]

namespace Machine

/-- The number by which checked mode knows a control and status register. -/
def csrNum (n : Nat) : Nat := 0x1000 + n

/-! ### Writing operands -/

end Machine

/-- A lane-wise write (R237 write): the values of the lanes given, with the result tag. -/
def VDst.put (d : VDst) (lanes : List (Nat × Word)) (tag : Tag) : List Eff :=
  match d with
  | .v n => [.vrow n lanes tag]
  | .zero => []

/-- Register i of a run of v registers. -/
def VDst.putRun (d : VDst) (i : Nat) (lanes : List (Nat × Word)) (tag : Tag) : List Eff :=
  match d with
  | .v n => if h : n.val + i < 128 then [.vrow ⟨n.val + i, h⟩ lanes tag] else []
  | .zero => []

/-- A scalar write (R255): none for a value above 64 to mvc or mrp, which raises ILLOP with detail 1. -/
def SDst.put (d : SDst) (x : DWord) : Option (List Eff) :=
  match d with
  | .s n => some [.sreg n x]
  | .h n => some [.hreg n (x.extractLsb' 0 32)]
  | .w n => some [.wreg n x]
  | .zero => some []
  | .exm => some [.exm x]
  | .amax => some [.amaxSet (x.extractLsb' 0 33)]
  | .mvc => if x.toNat > 64 then none else some [.mvc (x.extractLsb' 0 7)]
  | .mrp => if x.toNat > 64 then none else some [.mrp (x.extractLsb' 0 7)]
  | .fflags => some [.flagsSet (x.extractLsb' 0 5)]

/-- A mask write. -/
def MDst.put (d : MDst) (x : DWord) : List Eff :=
  match d with
  | .m n => [.mreg n x]
  | .exm => [.exm x]
  | .zero => []

namespace Machine

/-- Flags raised; none raised is no write of fflags (R260). -/
def flagEff (f : Flags) : List Eff := if f = 0 then [] else [.flagsOr f]

/-- fflags among the registers an instruction writes. -/
def flagNum (f : Flags) : List Nat := if f = 0 then [] else [252]

/-! ### Elements of a lane (R176) -/

/-- elem(x, w, k). -/
def elem (x : Word) (w k : Nat) : Nat := (x.toNat >>> (k * w)) % 2 ^ w

/-- A lane built of elements of w bits, lowest first. -/
def ofElems (w : Nat) (l : List Nat) : Word := BitVec.ofNat 32 (l.foldr (fun x n => x % 2 ^ w + n * 2 ^ w) 0)

end Machine

/-- Element width of a tag. -/
def Tag.width (t : Tag) : Nat := 32 / t.cnt

/-- The floating-point format of a tag's elements. -/
def Tag.ffmt : Tag → Option FFmt
  | .f32 => some .f32 | .bf16x2 => some .bf16 | .f16x2 => some .f16
  | .e4m3x4 => some .e4m3 | .e5m2x4 => some .e5m2 | .e2m1x8 => some .e2m1
  | _ => none

namespace Machine

/-- Signed reading of w bits. -/
def sval (w x : Nat) : Int := if x < 2 ^ (w - 1) then x else (x : Int) - 2 ^ w

/-- An integer stored mod 2^w. -/
def wrapN (w : Nat) (v : Int) : Nat := (v % 2 ^ w).toNat

end Machine

/-- The unsigned counterpart of an integer format (R261). -/
def Tag.unsigned : Tag → Tag
  | .s32 => .n32 | .s16x2 => .n16x2 | .s8x4 => .n8x4 | t => t

namespace Machine

/-- The tag of a bitwise result (R178): that of the sources that are v registers when they agree, else raw. -/
def bitTag (r : Regs) (l : List VSrc) : Tag :=
  match l.filterMap (fun x => match x with | .v n => some (r.tag n) | _ => none) with
  | [] => .raw
  | t :: ts => if ts.all (· == t) then t else .raw

/-- The tag of a copied source; raw for one that has none (R178, R280). (DESIGN CHOICE: log 168) -/
def copyTag (r : Regs) (x : VSrc) : Tag := match x with | .v n => r.tag n | _ => .raw

end Machine

end Sys2Proof
end

