-- ==== Sys2Proof/Machine/Translate.lean ====
section
/-! DEFINITION. Physical memory and translation (R11, R18 to R21, R31 to R33, R149 to R153, R160 to R163). -/

namespace Sys2Proof

open Machine

namespace Machine

/-- What an access needs from a mapping (R150, R151). -/
inductive Need where
  | rd | wr | atom | fetch
  deriving DecidableEq, Repr

/-- Why an access is not performed (R155). -/
inductive Flt where
  /-- ALIGN or PROT, by code (R133). -/
  | trap (cause : Nat)
  /-- PAGE of a device mapping. -/
  | page
  /-- No usable translation by the host: PRI follows (R44). -/
  | host
  /-- An uncorrected error, with its source (R58) and the poisoned line, where it is one. -/
  | ecc (src : Nat) (line : Option Nat)
  /-- No response of a peer yet (R33). -/
  | peer
  deriving DecidableEq, Repr

/-- Codes of R133. -/
def causeIllop : Nat := 1
def causeIllconv : Nat := 2
def causeFmtchk : Nat := 3
def causeTiming : Nat := 4
def causeLatch : Nat := 5
def causePage : Nat := 6
def causeProt : Nat := 7
def causeAlign : Nat := 8
def causeCbidx : Nat := 9
def causeGencfg : Nat := 10
def causeBrk : Nat := 11
def causeWatch : Nat := 12
def causeStep : Nat := 13
def causeSwtrap : Nat := 14
def causeEcc : Nat := 15
def causeCtxmem : Nat := 16

/-- A PROT. -/
abbrev Flt.prot : Flt := .trap causeProt
/-- An ALIGN. -/
abbrev Flt.align : Flt := .trap causeAlign

/-! ### The physical address map (R18 to R21, R31) -/

/-- First tier of the four dies: 48 GiB from each multiple of 2^36 (R19). -/
def inTier1 (a : Nat) : Bool := a / 2 ^ 36 < 4 && a % 2 ^ 36 < 48 * 2 ^ 30

/-- The 4 KiB unit of a second-tier address, counted from the start of the window (R17). -/
def tier2Unit (a : Nat) : Nat := (a - 2 ^ 42) / 4096
/-- Its channel in LPDDR form, and its port in CXL form (R17). -/
def tier2Channel (a : Nat) : Nat := tier2Unit a % 24
def tier2Port (a : Nat) : Nat := tier2Unit a % 6
/-- Die of a CXL port: ports 0 to 5 are attached to dies 0, 0, 1, 1, 2 and 3 (R16). -/
def portDie (p : Nat) : Nat := if p < 2 then 0 else if p < 4 then 1 else p - 2
/-- Home die of a line: the die that carries it, or that owns its channel or port (R14, R15, R17). -/
def homeDie (a : Nat) : Nat :=
  if a < 2 ^ 42 then a / 2 ^ 36 else if Config.cxl then portDie (tier2Port a) else tier2Channel a / 6

/-- Second-tier window: 2^42 to 2^44 − 1; in CXL form without the units that its port's expander lacks (R16, R17, R19).
(DESIGN CHOICE: log 16) -/
def inTier2 (a : Nat) : Bool :=
  2 ^ 42 ≤ a && a < 2 ^ 44 && (!Config.cxl || decide (tier2Unit a / 6 < Config.expander (tier2Port a)))

/-- Control region: 4 GiB from 2^40 (R19). -/
def inControl (a : Nat) : Bool := 2 ^ 40 ≤ a && a < 2 ^ 40 + 2 ^ 32

/-- A populated local-map address outside the control region (R19, R20). -/
def localOk (a : Nat) : Bool := inTier1 a || inTier2 a

/-- Every byte of a second-tier range is populated: of each port, the last unit of the range is (R16, R17). -/
def tier2Range (a n : Nat) : Bool :=
  let u := tier2Unit a
  let v := tier2Unit (a + (n - 1))
  inTier2 a && inTier2 (a + (n - 1)) && (!Config.cxl || (List.range 6).all fun p =>
    let d := (v + 6 - p) % 6
    decide (v < u + d ∨ (v - d) / 6 < Config.expander p))

/-- Every byte of a local range is populated (R19, R20). -/
def rangeOk (a n : Nat) : Bool :=
  (inTier1 a && inTier1 (a + (n - 1)) && decide (a / 2 ^ 36 = (a + (n - 1)) / 2 ^ 36)) || tier2Range a n

/-- A physical address as accesses use it: none where R20, R21 or R31 raise PROT; the package's own pod id is served from the
local map. -/
def State.phys (s : State) (pa : Nat) : Option Nat :=
  match pa / 2 ^ 54 with
  | 0 => if pa < 2 ^ 44 ∧ localOk pa then some pa else none
  | 1 => if pa / 2 ^ 52 % 4 = 0 then some pa else none
  | 2 =>
    let a := pa % 2 ^ 44
    if inControl a then none
    else if pa / 2 ^ 44 % 2 ^ 10 = s.podid then (if localOk a then some a else none)
    else some pa
  | _ => none

/-- A peer target. -/
def isPeer (pa : Nat) : Bool := pa / 2 ^ 54 = 2
/-- A host target. -/
def isHost (pa : Nat) : Bool := pa / 2 ^ 54 = 1

/-- The links that may carry traffic to a peer and are up (R32, R35). -/
def State.route (s : State) (peer : Nat) : List Nat :=
  let x := cget s.ctl (0x10_2000 + 4 * peer)
  if x.getLsbD 12 then (List.range 12).filter fun n => x.getLsbD n && (s.link n).up else []

/-- The link that a request to a peer takes, by a hash of the 4 KiB-aligned address; none when no masked link is up (R32, R33). -/
def State.linkTo (s : State) (peer addr : Nat) : Option Nat :=
  let ls := s.route peer
  ls[Config.routeHash (addr / 4096) % ls.length]?

/-- The link for a physical address that is a peer's (R32). -/
def State.linkOf (s : State) (pa : Nat) : Option Nat := s.linkTo (pa / 2 ^ 44 % 2 ^ 10) pa

/-- A request is for the 4 KiB unit of an address. -/
def PeerWait.serves (w : PeerWait) (pa : Nat) : Bool := w.pa / 4096 == pa / 4096

/-- Whether a peer access has an answer: unreachable gives ECC source 8, no response yet waits (R33). A request that has taken a
link keeps it while that link is up, whatever its route entry becomes (R35). -/
def State.peerChk (s : State) (pa : Nat) (answers : Bool) (via : Option PeerWait := none) : Option Flt :=
  if isPeer pa then
    let there := via.any (fun w => w.serves pa && (s.link w.link).up) || (s.linkOf pa).isSome
    if !there then some (.ecc 8 none) else if answers then none else some .peer
  else none

/-- Flits of a link sent and not acknowledged, which its replay buffer holds (R29). -/
def XLink.unacked (l : XLink) : Nat := (l.sent - l.acked - 1).toNat

/-- Flits that one request takes. -/
def flitCount (draw : Nat) : Nat := 1 + Config.flitsOf draw % Config.replayFlits

/-- Requests leave in order while the replay buffer has room for their flits; the others wait (R29). The requests forwarded. -/
def XLink.drain (l : XLink) : List Queued → XLink × List PeerReq
  | [] => ({ l with queue := [] }, [])
  | x :: t =>
    if l.unacked + x.flits ≤ Config.replayFlits then
      let (l, out) := { l with sent := l.sent + BitVec.ofNat 12 x.flits }.drain t
      (l, x.req.toList ++ out)
    else ({ l with queue := x :: t }, [])

/-- Requests added to those that wait on a link, of which it sends what it can. -/
def State.push (s : State) (l : XLink) (q : List Queued) : State :=
  let (l, out) := l.drain (l.queue ++ q)
  out.foldl (fun s r => s.out (.forward r)) (s.putLink l)

/-- Flits of requests to peers leave on their links (R28, R29, R32). -/
def State.sendFlits (s : State) (pas : List Nat) : State :=
  pas.foldl (fun s pa =>
    if isPeer pa then match s.linkOf pa with
      | some n => s.push { s.link n with n } [{ flits := flitCount s.nondet, pa }]
      | none => s
    else s) s

/-- Deadline and link of a peer access issued now (R33, R35, R37). -/
def State.peerDue (s : State) (pa : Nat) : PeerWait :=
  { due := s.clock + s.peerTo * Config.ticksPerUs, link := (s.linkOf pa).getD 0, pa }

/-- ECC source of a poisoned line (R58). -/
def tierSrc (pa : Nat) : Nat := if isHost pa then 9 else if inTier1 pa then 4 else 5

/-- The bytes at a physical address, or the error a poisoned line reports (R11). (DESIGN CHOICE: log 54) -/
def readAt (poison : List Nat) (m : List Host.Cell) (pa n : Nat) : Except Flt (List Byte) :=
  match poison.find? (fun k => decide (k * 128 < pa + n ∧ pa < k * 128 + 128)) with
  | some k => .error (.ecc (tierSrc pa) (some k))
  | none => .ok (mbytes m pa n)

/-! ### Writing (R11, R161, R292) -/

/-- Link sets that a write of n bytes at a physical address touches become CONFLICT, but those of the lanes of the wave that
writes (R292). -/
def hitLinks (who : Option (Nat × DWord)) (pa n : Nat) (w : Wave) : Wave :=
  if w.links.isEmpty then w else
  { w with links := w.links.map fun k =>
      let own := match who with | some (key, lanes) => key == w.key && bit lanes k.lane | none => false
      if !own && k.st == .open_ && k.words.any (fun x => decide (x.pa < pa + n ∧ pa < x.pa + x.size)) then
        { k with st := .conflict }
      else k }

/-- Bytes of line k that n bytes from an address cover. -/
def lineMask (k pa n : Nat) : BitVec 128 :=
  let lo := max pa (128 * k) - 128 * k
  let hi := min (pa + n) (128 * k + 128) - 128 * k
  if lo < hi then BitVec.ofNat 128 (2 ^ (hi - lo) - 1) <<< lo else 0

/-- Poisoned lines after n bytes are written, with what the access in progress has rewritten of the others: the poison of a line ends
once it is rewritten in full (R11, R26). (DESIGN CHOICE: log 133) -/
def State.rewrite (s : State) (pa n : Nat) : List Nat × Cells 128 :=
  s.poison.foldl (fun a k =>
    let m := cget a.2 k ||| lineMask k pa n
    if m = BitVec.allOnes 128 then (a.1, cdel a.2 k) else (a.1 ++ [k], cset a.2 k m)) ([], s.rewrote)

/-- Numbers of the 256-byte sectors that n bytes from an address touch (R160). -/
def sectors (pa n : Nat) : List Nat := if n = 0 then [] else (List.range ((pa % 256 + n + 255) / 256)).map (pa / 256 + ·)

/-- Forms of the sectors that a write touches (R160, R161): they follow the mapping; cmp counts only in the two tiers. -/
def State.formsAfter (s : State) (pa n : Nat) (cmp : Bool) : Cells 2 :=
  if cmp && localOk pa then (sectors pa n).foldl (fun f k => cset f k (Config.sectorForm (s.nondet + k))) s.forms
  else if s.forms.isEmpty then [] else (sectors pa n).foldl (fun f k => cset f k 0) s.forms

/-- Ranges overlap. -/
def meets (a n b m : Nat) : Bool := decide (a < b + m ∧ b < a + n)

/-- The 8-byte units of a range: what one write makes known is one of them, the widest access that is single-copy atomic (R166). -/
def grains (pa n : Nat) : List (Nat × Nat) :=
  if n ≤ 8 - pa % 8 then [(pa, n)]
  else (List.range ((pa % 8 + n + 7) / 8)).map fun i =>
    let lo := max pa (pa / 8 * 8 + 8 * i)
    (lo, min (pa + n) (pa / 8 * 8 + 8 * i + 8) - lo)

/-- An earlier write that program order puts before another agent's access, for the bytes that they share: of one of its lanes, or of the
same agent of another package (R166), of its own command (R300), or of an earlier instruction of its matrix engine (R306). -/
def Write.inOrder (e : Write) (peer : Option Nat) (wave core path : Nat) (lanes : DWord) (cmd : Option Nat) : Bool :=
  (path == 0 && e.path == 0 && e.wave == wave && e.peer == peer && e.lanes &&& lanes != 0)
  || (e.cmd.isSome && e.cmd == cmd) || (path == 1 && e.path == 1 && e.core == core)

/-- A write with the writes to its bytes that come before it: those that its issuer knows, which it brings with it, and those of program
order. -/
def State.ordered (s : State) (x : Write) : Write :=
  { x with after := (s.hist.filter fun e => meets e.pa e.old.length x.pa x.old.length
      && (x.after.contains e.id || e.inOrder x.peer x.wave x.core x.path x.lanes x.cmd)).map (·.id) }

/-- A write as it is remembered: its unit, its number, and what its bytes held. -/
def State.asWrite (s : State) (ev : Write) (id : Nat) (p : Nat × Nat) : Write :=
  s.ordered { ev with id, pa := p.1, old := mbytes s.mem p.1 p.2 }

/-- Bytes written at a physical address by lanes of a wave, or by another agent, with the writes that are remembered for them: poison ends
on a full line, the sectors' forms follow the mapping, and link sets conflict. (DEDUCED: log 42) -/
def State.storeWith (s : State) (who : Option (Nat × DWord)) (pa : Nat) (bytes : List Byte) (cmp : Bool) (more : List Write) (written : Nat) :
    State :=
  let n := bytes.length
  let lines : List Nat × Cells 128 := if s.poison.isEmpty then ([], []) else s.rewrite pa n
  { s with
    mem := mput s.mem pa bytes, poison := lines.1, rewrote := lines.2, forms := s.formsAfter pa n cmp, waves := s.waves.map (hitLinks who pa n)
    hist := s.hist ++ more, written }

/-- The writes that are remembered for a range, numbered from one on: of an agent whose writes others may not see yet, or, while some are
remembered, one that all see. -/
def State.remember (s : State) (ev : Option Write) (pa n id : Nat) : List Write :=
  if ev.isSome || !s.hist.isEmpty then
    (grains pa n).zipIdx.map fun p =>
      s.asWrite (ev.getD { id := 0, wave := 0, core := 0, pa := 0, old := [], all := true }) (id + p.2) p.1
  else []

/-- Bytes written, and remembered as writes that agents may not see yet (`ev`), or that all see. -/
def State.storeAs (s : State) (ev : Option Write) (who : Option (Nat × DWord)) (pa : Nat) (bytes : List Byte) (cmp : Bool) : State :=
  let more := s.remember ev pa bytes.length s.written
  s.storeWith who pa bytes cmp more (s.written + more.length)

/-- An atomic that releases and writes nothing: it takes its place in the modification order (R289). -/
def State.note (s : State) (ev : Write) (places : List (Nat × Nat)) : State :=
  places.foldl (fun s p => { s with hist := s.hist ++ [s.asWrite ev s.written p], written := s.written + 1 }) s

/-- A write that every agent sees. -/
def State.store (s : State) (who : Option (Nat × DWord)) (pa : Nat) (bytes : List Byte) (cmp : Bool) : State :=
  s.storeAs none who pa bytes cmp

/-! ### Range table and page tables (R149 to R153) -/

/-- A translation: the address, and whether the mapping is COMPRESSIBLE. -/
structure Tr where
  pa : Nat
  cmp : Bool
  deriving DecidableEq, Repr

/-- Canonical virtual address (R149). -/
def canonical (va : DWord) : Bool := sext64 (va.extractLsb' 0 57) == va

/-- Bit of a range attribute word that an access needs (R150). -/
def Need.rangeBit : Need → Nat
  | .rd => 1 | .wr => 2 | .atom => 3 | .fetch => 4

/-- Bit of a page table entry that an access needs (R151). -/
def Need.pteBit : Need → Nat
  | .rd => 2 | .wr => 3 | .atom => 4 | .fetch => 5

/-- Translation by a range entry that hits (R150). -/
def State.byRange (s : State) (need : Need) (r : Range) (va : DWord) : Except Flt Tr :=
  let pa := (va + r.offset).toNat
  if !r.attrs.getLsbD need.rangeBit then .error .prot
  else if pa ≥ 2 ^ 56 ∨ isHost pa then .error .prot
  else match s.phys pa with
    | some p => .ok ⟨p, r.attrs.getLsbD 5⟩
    | none => .error .prot

/-- Translation by the host (R43, R44, R153). -/
def State.byHost (s : State) (need : Need) (pasid : Nat) (va : DWord) : Except Flt Tr :=
  let page := va.toNat / 4096
  match s.iommu.find? (fun e => e.pasid == pasid && e.page == page) with
  | none => .error .host
  | some e =>
    let ok := match need with | .rd => e.rd | .wr => e.wr | .atom => e.at_ | .fetch => false
    if ok then
      match s.phys (2 ^ 54 + (e.host * 4096 + va.toNat % 4096) % 2 ^ 54) with
      | some p => .ok ⟨p, false⟩
      | none => .error .prot
    else .error .host

/-- A page table entry. -/
def State.pte (s : State) (table idx : Nat) : Except Flt DWord :=
  match s.phys table with
  | some a =>
    if localOk a && localOk (a + 8 * idx) then (readAt s.poison s.mem (a + 8 * idx) 8).map fun b => BitVec.ofNat 64 (leNat b) else .error .prot
  | none => .error .prot

/-- Type of a page table entry (R151). -/
def pteType (e : DWord) : Nat := (e.extractLsb' 0 2).toNat

/-- A leaf whose span is 2^k bytes (R151). -/
def State.leaf (s : State) (need : Need) (e : DWord) (k : Nat) (va : DWord) : Except Flt Tr :=
  let base := e.toNat % 2 ^ 56 / 4096 * 4096
  if base % 2 ^ k ≠ 0 ∨ !e.getLsbD need.pteBit then .error .prot
  else match s.phys (base + va.toNat % 2 ^ k) with
    | some p => if isHost p then .error .prot else .ok ⟨p, e.getLsbD 6⟩
    | none => .error .prot

/-- Errors of an entry at a level that apply whatever its type but invalid (R151). -/
def pteBad (level : Nat) (e : DWord) : Bool :=
  e.extractLsb' 56 8 != 0 || e.extractLsb' 8 4 != 0 || (level != 1 && e.getLsbD 7)

/-- A host delegate entry (R153). -/
def State.delegate (s : State) (need : Need) (pasid : Nat) (e : DWord) (va : DWord) : Except Flt Tr :=
  if need = .fetch ∨ e.extractLsb' 12 44 ≠ 0 ∨ !e.getLsbD need.pteBit then .error .prot else s.byHost need pasid va

/-- The entry that the walk below a table at a level ends at (R151, R152). (DEDUCED: log 37) -/
def State.walk (s : State) (c : Ctx) (va : DWord) : Nat → Nat → Except Flt TlbEntry
  | 0, _ => .error .prot
  | level + 1, table =>
    let shift := 12 + 9 * level
    let idx := va.toNat / 2 ^ shift % (if level = 3 then 2 ^ 18 else 512)
    let found (host : Bool) (e : DWord) (k : Nat) : TlbEntry := { ctx := c.id, page := va.toNat / 4096, host, e, k }
    let entry (e : DWord) : Except Flt TlbEntry :=
      match pteType e with
      | 0 => .error .page
      | 1 => if level = 0 ∨ pteBad (level + 1) e then .error .prot
             else s.walk c va level (e.toNat % 2 ^ 56 / 4096 * 4096)
      | 2 => if level = 3 ∨ pteBad (level + 1) e then .error .prot else .ok (found false e shift)
      | _ => if pteBad (level + 1) e then .error .prot else .ok (found true e 0)
    if level = 0 then
      match s.pte table (idx / 16 * 16) with
      | .error f => .error f
      | .ok g =>
        if pteType g = 2 ∧ g.getLsbD 7 then (if pteBad 1 g then .error .prot else .ok (found false g 16))
        else match s.pte table idx with
          | .error f => .error f
          | .ok e => entry e
    else match s.pte table idx with
      | .error f => .error f
      | .ok e => entry e

/-- The entry that the page tables of a context give for an address now. -/
def State.walked (s : State) (c : Ctx) (va : DWord) : Except Flt TlbEntry :=
  match c.root with
  | some t => s.walk c va 4 t
  | none => .error .page

/-- An entry that a TLB may hold for an address, and goes on using (R154). (DESIGN CHOICE: log 36) -/
def State.cached (s : State) (c : Ctx) (va : DWord) : Option TlbEntry :=
  s.tlb.find? fun x => x.ctx == c.id && x.page / 2 ^ (x.k - 12) == va.toNat / 4096 / 2 ^ (x.k - 12) && Config.tlbHolds (s.nondet + x.e.toNat)

/-- An entry used for an access (R151, R153). -/
def State.apply (s : State) (c : Ctx) (need : Need) (va : DWord) (x : TlbEntry) : Except Flt Tr :=
  if x.host then s.delegate need c.pasid x.e va else s.leaf need x.e x.k va

/-- The range entry that an address hits, the lowest-numbered first (R149, R150). -/
def Ctx.range? (c : Ctx) (va : DWord) : Option Range :=
  (List.range 16).findSome? fun n => c.ranges.find? fun r => r.n == n && r.attrs.getLsbD 0
    && decide (r.base.toNat ≤ va.toNat ∧ va.toNat ≤ r.limit.toNat)

/-- Translation without apertures: the range table, then a TLB or the page tables (R149, R154). -/
def State.translate (s : State) (c : Ctx) (need : Need) (va : DWord) : Except Flt Tr :=
  if !canonical va then .error .prot
  else match c.range? va with
    | some r => s.byRange need r va
    | none =>
      match s.cached c va with
      | some x => s.apply c need va x
      | none => match s.walked c va with
        | .ok x => s.apply c need va x
        | .error f => .error f

/-- An entry gives some access of an address a translation: one that only faults is not kept (R149). -/
def State.serves (s : State) (c : Ctx) (va : DWord) (x : TlbEntry) : Bool :=
  [Need.rd, .wr, .atom, .fetch].any fun need => (s.apply c need va x).isOk

/-- Translations of addresses that have been used stay in a TLB (R154). -/
def State.fillTlb (s : State) (c : Ctx) (vas : List DWord) : State :=
  if c.root.isNone then s
  else vas.foldl (fun s va =>
    if !canonical va || (c.range? va).isSome then s
    else match s.walked c va with
      | .ok x => if s.tlb.contains x || !s.serves c va x then s else { s with tlb := s.tlb ++ [x] }
      | .error _ => s) s

/-- The translations of a context are discarded from every TLB (R56, R154). -/
def State.dropTlb (s : State) (ctx : Nat) : State := { s with tlb := s.tlb.filter fun x => x.ctx != ctx }

/-! ### Pieces of an access, with the transforms (R162, R163) -/

/-- A part of an access after translation. -/
inductive Piece where
  /-- Bytes in memory. -/
  | mem (pa n : Nat) (cmp : Bool)
  /-- The first n bytes of one element of a CONVERT aperture, stored at pa. -/
  | conv (pa n : Nat) (stored viewed : FFmt)
  /-- The first n bytes of element k of an index word of a CBVIEW aperture. -/
  | cbv (idx scale table : Nat) (e : Int) (k n : Nat)
  deriving DecidableEq, Repr

/-- Format codes of CONVERT (R163). -/
def convFmt : Nat → FFmt
  | 1 => .f32 | 2 => .bf16 | 3 => .f16 | 4 => .e4m3 | _ => .e5m2

/-- Element size of an aperture's view; INTERLEAVE is viewed by bytes. (DESIGN CHOICE: log 55) -/
def Aperture.esize (a : Aperture) : Nat :=
  match a.kind with
  | 1 => 2 ^ (a.param.extractLsb' 0 2).toNat
  | 2 => (convFmt (a.param.extractLsb' 4 4).toNat).width / 8
  | 3 => 2
  | _ => 1

/-- The piece of a view that starts at offset o, of n bytes within one element (R163). -/
def Aperture.piece (a : Aperture) (o n : Nat) : Piece :=
  let e := a.esize
  match a.kind with
  | 1 =>
    let ncols := (a.param.extractLsb' 8 24).toNat
    .mem (a.bufA.toNat + (o / e % ncols) * a.pitch.toNat + (o / e / ncols) * e + o % e) n false
  | 2 =>
    let st := convFmt (a.param.extractLsb' 0 4).toNat
    .conv (a.bufA.toNat + (o / e) * (st.width / 8)) n st (convFmt (a.param.extractLsb' 4 4).toNat)
  | 3 =>
    let k := o / 2
    .cbv (a.bufA.toNat + 2 * (k / 8)) (a.bufB.toNat + k / 48) a.pitch.toNat (a.param.extractLsb' 0 6).toInt (k % 8) n
  | _ => .mem ((if o / 256 % 2 = 1 then a.bufB.toNat else a.bufA.toNat) + o / 512 * 256 + o % 256) n false

/-- Ranges of physical memory that an aperture's view covers: start and bytes (R162, R163). (DEDUCED: log 131) -/
def Aperture.spans (a : Aperture) : List (Nat × Nat) :=
  let n := a.size.toNat / a.esize
  match a.kind with
  | 1 =>
    let ncols := (a.param.extractLsb' 8 24).toNat
    [(a.bufA.toNat, (min n ncols - 1) * a.pitch.toNat + (n + ncols - 1) / ncols * a.esize)]
  | 2 => [(a.bufA.toNat, n * ((convFmt (a.param.extractLsb' 0 4).toNat).width / 8))]
  | 3 => [(a.bufA.toNat, 2 * ((n + 7) / 8)), (a.bufB.toNat, (n + 47) / 48), (a.pitch.toNat, 4096)]
  | _ => [(a.bufA.toNat, n / 2), (a.bufB.toNat, n / 2)]

/-- Every byte that a piece of a view reads or writes is populated (R20). -/
def Piece.populated : Piece → Bool
  | .mem pa n _ => rangeOk pa n
  | .conv pa _ st _ => rangeOk pa (st.width / 8)
  | .cbv idx scale table _ _ _ => rangeOk idx 2 && localOk scale && rangeOk table 4096

/-- The aperture of a context that holds an address, the lowest-numbered first (R149). -/
def State.aperture? (s : State) (ctx : Nat) (va : DWord) : Option Aperture :=
  if s.apertures.isEmpty then none
  else (List.range 32).findSome? fun n => s.apertures.find? fun a => a.n == n && a.ctx == ctx
    && decide (a.base.toNat ≤ va.toNat ∧ va.toNat < a.base.toNat + a.size.toNat)

/-- The pieces of n bytes from a virtual address, or the fault and the address it is for. `plain` is false for strong accesses.
Atomics, strong accesses, fetches and writes to a CBVIEW raise PROT in an aperture; an access must be aligned to its element
size and cover whole elements when it writes (R162), which is checked after those (DESIGN CHOICE: log 167). A piece of a plain
mapping lies in one line of 128 bytes, so that the check of its first byte holds for each (R20, R150). -/
def State.pieces (s : State) (c : Ctx) (need : Need) (plain : Bool) : Nat → DWord → Nat → Except (Flt × DWord) (List Piece)
  | 0, _, _ => .ok []
  | fuel + 1, va, n =>
    if n = 0 then .ok []
    else
      let one : Except (Flt × DWord) (Piece × Nat) :=
        match (if canonical va then s.aperture? c.id va else none) with
        | some a =>
          let e := a.esize
          let o := va.toNat - a.base.toNat
          if need = .atom ∨ need = .fetch ∨ !plain ∨ (a.kind = 3 ∧ need = .wr) then .error (.prot, va)
          else if o % e ≠ 0 ∨ (need = .wr ∧ n < e) then .error (.align, va)
          else if !(a.piece o (min n e)).populated then .error (.prot, va)
          else .ok (a.piece o (min n e), min n e)
        | none =>
          match s.translate c need va with
          | .error f => .error (f, va)
          | .ok t => let k := min n (min (128 - va.toNat % 128) (128 - t.pa % 128))
                     .ok (.mem t.pa k t.cmp, k)
      match one with
      | .error x => .error x
      | .ok (p, k) =>
        match s.pieces c need plain fuel (va + BitVec.ofNat 64 k) (n - k) with
        | .error x => .error x
        | .ok l => .ok (p :: l)

/-- Bytes of a floating-point value in a format. -/
def fbytes (f : FFmt) (v : FVal) : List Byte := leBytes (f.width / 8) (round f .rne false 0 v).1

/-- What a piece reads from a memory (R163). -/
def Piece.read (poison : List Nat) (m : List Host.Cell) : Piece → Except Flt (List Byte)
  | .mem pa n _ => readAt poison m pa n
  | .conv pa n st vw => do
    let b ← readAt poison m pa (st.width / 8)
    return (fbytes vw (value st (leNat b))).take n
  | .cbv idx sc tab e k n => do
    let i ← readAt poison m idx 2
    let y ← readAt poison m sc 1
    let x : BitVec 16 := BitVec.ofNat 16 (leNat i)
    let w ← readAt poison m (tab + 8 * (x.extractLsb' 7 9).toNat) 8
    let entry : DWord := BitVec.ofNat 64 (leNat w)
    let v := if entry.getLsbD 63 then ((cbElems entry x (BitVec.ofNat 8 (leNat y)) e)[k]?).getD (.fin false 0 0)
             else .fin false 0 0
    return (fbytes .bf16 v).take n

/-- Where a piece is stored, and the bytes stored, for the bytes of the view. -/
def Piece.bytes (p : Piece) (b : List Byte) : Nat × List Byte × Bool :=
  match p with
  | .mem pa n cmp => (pa, b.take n, cmp)
  | .conv pa _ st vw => (pa, fbytes st (value vw (leNat (b.take (vw.width / 8)))), false)
  | .cbv idx _ _ _ _ _ => (idx, [], false)

/-- Bytes of the view that a piece covers. -/
def Piece.size : Piece → Nat
  | .mem _ n _ => n
  | .conv _ n _ _ => n
  | .cbv _ _ _ _ _ n => n

/-- First physical address of a piece. -/
def Piece.pa : Piece → Nat
  | .mem pa _ _ => pa
  | .conv pa _ _ _ => pa
  | .cbv i _ _ _ _ _ => i

/-- What pieces read, in order. -/
def readPieces (poison : List Nat) (m : List Host.Cell) : List Piece → Except Flt (List Byte)
  | [] => .ok []
  | p :: t => do return (← p.read poison m) ++ (← readPieces poison m t)

/-- What pieces store, in order. -/
def storePieces : List Piece → List Byte → List (Nat × List Byte × Bool)
  | [], _ => []
  | p :: t, b => p.bytes b :: storePieces t (b.drop p.size)

/-! ### The scratchpad (R138 to R140) -/

/-- Address in memory of byte a of core c's scratchpad. -/
def spAddr (c a : Nat) : Nat := 2 ^ 56 + 2 ^ 20 * c + a

/-- spbytes rounded up to 4 KiB (R71, R141). -/
def roundUp4K (n : Nat) : Nat := (n + 4095) / 4096 * 4096

/-- The core a neighbour space names (R140). -/
def neighbour (c k : Nat) : Nat := c / 4 * 4 + ((c % 4) ^^^ k)

/-- Number of a neighbour space, 0 for the team's own. -/
def spaceQ : Space → Nat
  | .gm => 0 | .sp => 0 | .q1 => 1 | .q2 => 2 | .q3 => 3

/-- Byte range of a team's scratchpad run. -/
def State.ownRun (s : State) (launch core a n : Nat) : Bool :=
  s.teams.any fun t => t.launch == launch && t.core == some core && !t.ended && (match s.launch? t.launch with
    | some l => decide (t.spBase ≤ a ∧ a + n ≤ t.spBase + roundUp4K l.p.spbytes)
    | none => false)

/-- Where an access to a scratchpad space falls, or PROT (R139, R140): a neighbour access is judged byte by byte. -/
def State.spAt (s : State) (t : Team) (l : Launch) (core : Nat) (sp : Space) (a : DWord) (n : Nat) : Except Flt Nat :=
  match spaceQ sp with
  | 0 => if a.toNat + n ≤ l.p.spbytes then .ok (spAddr core (t.spBase + a.toNat)) else .error .prot
  | k =>
    let c := neighbour core k
    if a.toNat + n ≤ Config.spBytes ∧ (List.range n).all (fun i => s.ownRun l.key c (a.toNat + i) 1) then
      .ok (spAddr c a.toNat)
    else .error .prot

end Machine

/-- The value an atomic leaves, of a size in bytes (R289). -/
def AOp.apply (op : AOp) (size : Nat) (old x y : DWord) : DWord :=
  let w := 8 * size
  let sg (v : DWord) : Int := sval w (v.toNat % 2 ^ w)
  let un (v : DWord) : Nat := v.toNat % 2 ^ w
  let fadd (f : FFmt) : DWord :=
    BitVec.ofNat 64 ((List.range (32 / f.width)).foldr (fun k n =>
      (faddN f .rne [value f (elem (old.extractLsb' 0 32) f.width k), value f (elem (x.extractLsb' 0 32) f.width k)]).1
        % 2 ^ f.width + n * 2 ^ f.width) 0)
  let r := match op with
    | .add => old + x
    | .and => old &&& x
    | .or => old ||| x
    | .xor => old ^^^ x
    | .min => if sg x < sg old then x else old
    | .max => if sg old < sg x then x else old
    | .minn => if un x < un old then x else old
    | .maxn => if un old < un x then x else old
    | .xchg => x
    | .cas => if un old = un x then y else old
    | .faddF32 => fadd .f32
    | .faddBf16 => fadd .bf16
    | .faddF16 => fadd .f16
  BitVec.ofNat 64 (r.toNat % 2 ^ w)

namespace Machine

/-- A team waits for the position, from a tick (R84, R216). -/
def Team.want (t : Team) (tick : Nat) : Team :=
  if t.wantDirect then t else { t with wantDirect := true, wantSince := tick }

/-- A team holds the Threshold position: every lower ticket is released or void (R84, R87). -/
def Launch.holds (l : Launch) (tix : Nat) : Bool :=
  (List.range tix).all fun k => l.released.contains k || l.voided.contains k

end Machine

end Sys2Proof
end

