-- ==== Sys2Proof/Machine/Visible.lean ====
section
/-! DEFINITION. What orders accesses of different agents (R164 to R173, R294, R295): which writes come before an agent's accesses, and
what an access that nothing orders may see. Every write is in memory at once; a reader that no chain of orderings brings after it may
see what the bytes held before, a write that nothing orders may take its place before earlier ones, and a load whose value is not due may
yet read a later write (R169, R362). (DESIGN CHOICE: log 6) -/

namespace Sys2Proof.Machine

/-! ### Known writes -/

/-- The writes of one list joined to another. -/
def joinKnown (a b : List Known) : List Known :=
  b.foldl (fun a k =>
    if a.any fun x => x.id == k.id then
      a.map fun x => if x.id = k.id then { x with paths := x.paths ||| k.paths, here := x.here ||| k.here } else x
    else a ++ [k]) a

/-- Writes seen, joined to those seen before, by write. -/
def joinSaw (a b : List (DWord × Nat)) : List (DWord × Nat) :=
  b.foldl (fun a x => if a.any fun y => y.2 == x.2 then a.map fun y => if y.2 = x.2 then (y.1 ||| x.1, y.2) else y else a ++ [x]) a

/-- Releases heard, each once. -/
def joinRels (a b : List Release) : List Release := b.foldl (fun a r => if a.contains r then a else a ++ [r]) a

/-- What passes to another agent: not the paths that the agent's own FENCEX joined (R171). -/
def passOn (l : List Known) : List Known := l.map fun k => { k with here := 0 }

/-! ### Writes that stand in a staging log (R79 to R81, R173) -/

/-- What an entry brings with it. -/
def LogE.tag : LogE → LogTag
  | .write _ _ _ _ _ t => t
  | .atomic _ _ _ _ _ t => t

/-- The units that an entry writes. -/
def LogE.units : LogE → List (Nat × Nat)
  | .write block _ _ _ parts _ => parts.flatMap fun p => grains (32 * block + p.1) p.2
  | .atomic _ pa size _ _ _ => [(pa, size)]

/-- Numbers of the writes that an entry makes. -/
def LogE.ids (e : LogE) : List Nat := (List.range e.units.length).map (e.tag.id + ·)

/-- The writes of logged entries, as vec writes that are known. -/
def loggedIds (l : List LogE) : List Known := l.flatMap fun e => e.ids.map fun n => { id := n, paths := 1 }

/-- The entries of every log with a property of what they bring. -/
def State.logsOf (s : State) (p : LogTag → Bool) : List LogE := s.teams.flatMap fun t => t.log.filter fun e => p e.tag

/-! ### What a wave releases (R167) -/

/-- The writes of a wave's vec path, those in its team's log among them. -/
def State.ownWrites (s : State) (w : Wave) : List Known :=
  ((s.hist.filter fun e => e.wave == w.key && e.path == 0 && e.peer.isNone).map fun e => { id := e.id, paths := 1 })
    ++ (if w.logged then loggedIds (s.logsOf fun t => t.wave == w.key && t.cmd.isNone) else [])

/-- What a release or fence of a wave orders before it: what the wave knows, its own earlier writes, and those that it has observed
(R167). -/
def State.released (s : State) (w : Wave) : List Known :=
  joinKnown (joinKnown w.known (s.ownWrites w)) (w.saw.map fun x => { id := x.2, paths := 1 })

/-- A wave that now knows more. -/
def Wave.learn (w : Wave) (l : List Known) : Wave := if l.isEmpty then w else { w with known := joinKnown w.known l }

/-- The wave with a key learns. -/
def State.learn (s : State) (key : Nat) (l : List Known) : State :=
  match s.wave? key with
  | some w => if l.isEmpty then s else s.putWave (w.learn l)
  | none => s

/-! ### Observer sets (R165) -/

/-- Core b lies within the scope of an observer set of core a: the widest that it names, or core. -/
def inScope (obs : Byte) (a b : Nat) : Bool :=
  if obs.getLsbD 3 then true else if obs.getLsbD 2 then dieOf a == dieOf b else if obs.getLsbD 1 then quadOf a == quadOf b else a == b

/-- An observer set of an agent of core a covers an agent of core b on a path: 0 vec, 1 mtx, 2 cpy (R165). -/
def covers (obs : Byte) (a b path : Nat) : Bool :=
  inScope obs a b && (path == 0 || (path == 2 && obs.getLsbD 4) || (path == 1 && obs.getLsbD 5))

/-- An observer set of an agent covers the vec path of another: an agent of another package through its peer bit; of two agents of one
other package the cores are not known, and the pkg bit covers all (R165). -/
def reaches (obs : Byte) (pa : Option Nat) (a : Nat) (pb : Option Nat) (b : Nat) : Bool :=
  if pa = pb then (if pa.isNone then covers obs a b 0 else obs.getLsbD 3) else obs.getLsbD 6

/-- A release and an acquire, or two fences, of two agents cover each other (R168). -/
def syncs (r : Release) (core : Nat) (obs : Byte) (peer : Option Nat := none) : Bool :=
  reaches r.obs r.peer r.core peer core && reaches obs peer core r.peer r.core

/-! ### What a reader sees -/

/-- Who reads: its wave, lanes, core and path, what comes before its accesses, what its lanes have seen, its command, and its package, where
that is another. -/
structure Reader where
  wave : Nat
  lanes : DWord
  core : Nat
  path : Nat
  known : List Known := []
  saw : List (DWord × Nat) := []
  cmd : Option Nat := none
  peer : Option Nat := none

/-- A write that a reader must see: one that all see, one that program order puts before it (R166, R300, R306), one that its lane has seen, or
one that happens before it and that it can see on its path (R169, R171). -/
def Reader.knows (r : Reader) (e : Write) : Bool :=
  e.all || e.inOrder r.peer r.wave r.core r.path r.lanes r.cmd
  || r.known.any (fun k => k.id == e.id && (k.paths ||| k.here).getLsbD r.path)
  || r.saw.any fun x => x.2 == e.id && x.1 &&& r.lanes != 0

/-- A reader sees a write, at a moment named by a number (R169). -/
def Reader.sees (d : Nat) (r : Reader) (e : Write) : Bool := r.knows e || Config.sees d e.id r.lanes.toNat

/-- The package as a reader, for packets and its copy engines: it sees what every agent sees. -/
def packageReader : Reader := { wave := 0, lanes := 0, core := 0, path := 3 }

/-- Bytes as they were before a write, but where a later write has been seen. -/
def putOld (m : List Host.Cell) (e : Write) (seen : List (Nat × Nat)) : List Host.Cell :=
  e.old.zipIdx.foldl (fun m p =>
    let a := e.pa + p.2
    if seen.any fun x => decide (x.1 ≤ a ∧ a < x.1 + x.2) then m else cset (w := 8) m a p.1) m

/-- Memory with the writes that a reader does not see taken back, newest first; `seen` are the bytes of those that it sees. -/
def unsee (d : Nat) (r : Reader) : List Write → List Host.Cell → List (Nat × Nat) → List Host.Cell
  | [], m, _ => m
  | e :: t, m, seen =>
    if r.sees d e then unsee d r t m ((e.pa, e.old.length) :: seen) else unsee d r t (putOld m e seen) seen

/-- Memory as a reader sees it (R169). -/
def State.seenBy (s : State) (r : Reader) : List Host.Cell :=
  if s.hist.isEmpty then s.mem else unsee s.nondet r s.hist.reverse s.mem []

/-- The writes to a range that a reader saw at a moment, and must go on seeing (R166). -/
def State.sawOf (s : State) (d : Nat) (r : Reader) (pa n : Nat) : List (DWord × Nat) :=
  (s.hist.filter fun e => meets e.pa e.old.length pa n && !r.knows e && r.sees d e).map fun e => (r.lanes, e.id)

/-- The releases that a write is, each of which orders the write itself before what it synchronizes with: its reader's later accesses come
after the read of it (R166 to R168). -/
def Write.releases (e : Write) : List Release := e.rels.map fun r => { r with known := joinKnown r.known [{ id := e.id, paths := 1 }] }

/-- Releases whose values an acquire of a range reads: those of the writes it sees that no later one hides, and, where it reads an
atomic's value, those before it in the modification order (R168). `later` are the bytes of later writes seen. -/
def readRels (sees : Write → Bool) (pa n : Nat) : List Write → List (Nat × Nat) → Bool → List Release
  | [], _, _ => []
  | e :: t, later, chain =>
    if !meets e.pa e.old.length pa n then readRels sees pa n t later chain
    else
      let shown := sees e && (List.range n).any fun i =>
        decide (e.pa ≤ pa + i ∧ pa + i < e.pa + e.old.length) && !later.any fun x => decide (x.1 ≤ pa + i ∧ pa + i < x.1 + x.2)
      (if shown || chain then e.releases else [])
        ++ readRels sees pa n t (if sees e then (e.pa, e.old.length) :: later else later) (chain || (shown && e.atomic))

/-- The releases whose values an access of a range reads (R168). A home access, an atomic's, sees every write (R170). -/
def State.relsOf (s : State) (d : Nat) (r : Reader) (home : Bool) (pa n : Nat) : List Release :=
  readRels (fun e => home || r.sees d e) pa n s.hist.reverse [] false

/-- What an acquire brings: what the releases that it synchronizes with had before them (R168). -/
def acquired (core : Nat) (obs : Byte) (l : List Release) (peer : Option Nat := none) : List Known :=
  (l.filter fun x => syncs x core obs peer).foldl (fun l x => joinKnown l x.known) []

/-! ### Fences (R167, R168, R171, R294, R295) -/

/-- The paths that FENCEX names join the writes on them that happen before it, or that precede it in the wave (R171). -/
def State.joinPaths (s : State) (w : Wave) (names : BitVec 3) : Wave :=
  let on (e : Write) : Bool := names.getLsbD e.path
  let own : List Known := (s.hist.filter fun e => e.wave == w.key && on e).map fun e => { id := e.id, paths := names ||| (1 <<< e.path) }
  let known := w.known.map fun k =>
    if s.hist.any fun e => e.id == k.id && on e && e.wave != w.key then { k with here := k.here ||| names } else k
  { w with known := joinKnown known own }

/-- What comes before a fence: what its wave releases, and what every earlier fence and the releases that its loads have read had before
them, where each covers the other (R168). -/
def State.beforeFence (s : State) (w : Wave) (obs : Byte) : List Known :=
  joinKnown (s.released w) (acquired w.coreNo obs (s.fences ++ w.heard))

/-- FENCE or FENCEX by a wave: what comes before it comes before the wave's later accesses, on the paths that it joins; its later stores are
releases (R168, R171). -/
def State.fenced (s : State) (w : Wave) (obs : Byte) (names : BitVec 3) : State × Wave :=
  if s.hist.isEmpty && !w.logged then (s, w)
  else
    let w := { w with known := s.beforeFence w obs, heard := [] }
    let w := if names = 0 then w else s.joinPaths w names
    let x : FenceRec := { core := w.coreNo, obs, known := passOn w.known }
    ({ s with fences := s.fences ++ [x] }, { w with rels := x :: w.rels.filter fun y => y.obs != obs })

/-- Writes of commands that a wave has waited for come before its later accesses on its vec path (R172). -/
def State.waited (s : State) (seqs : List Nat) : List Known :=
  let of (c : Option Nat) : Bool := match c with | some q => seqs.contains q | none => false
  ((s.hist.filter fun e => of e.cmd).map fun e => { id := e.id, paths := 1 }) ++ loggedIds (s.logsOf fun t => of t.cmd)

/-- Everything a team has written comes before the later accesses of its waves (R90). -/
def State.teamWrites (s : State) (keys : List Nat) : List Known :=
  ((s.hist.filter fun e => keys.contains e.wave && e.peer.isNone).map fun e => { id := e.id, paths := 7 })
    ++ loggedIds (s.logsOf fun t => keys.contains t.wave)

/-- The writes of a launch are seen by all (R50). -/
def State.showLaunch (s : State) (key : Nat) : State :=
  { s with hist := s.hist.map fun e => if e.launch = key then { e with all := true } else e }

/-! ### Modification orders (R166, R362) -/

/-- What the first of later writes to a byte found there, or else what memory holds: what stands after them in the byte's order. -/
def standing (a : Nat) (m : List Host.Cell) : List Write → Byte
  | [] => cget (w := 8) m a
  | y :: t => if y.pa ≤ a ∧ a < y.pa + y.old.length then y.old.getD (a - y.pa) 0 else standing a m t

/-- That value changed. -/
def stand (a : Nat) (v : Byte) (m : List Host.Cell) : List Write → List Write × List Host.Cell
  | [] => ([], cset (w := 8) m a v)
  | y :: t =>
    if y.pa ≤ a ∧ a < y.pa + y.old.length then ({ y with old := y.old.set (a - y.pa) v } :: t, m)
    else
      let r := stand a v m t
      (y :: r.1, r.2)

/-- Two writes, e and then x, with those after them and memory. -/
structure Pair where
  e : Write
  x : Write
  later : List Write
  m : List Host.Cell

/-- The two change places in the modification order of a byte. -/
def Pair.swapAt (p : Pair) (a : Nat) : Pair :=
  let found := p.e.old.getD (a - p.e.pa) 0
  let ofE := p.x.old.getD (a - p.x.pa) 0
  let ofX := standing a p.m p.later
  let r := stand a ofE p.m p.later
  { e := { p.e with old := p.e.old.set (a - p.e.pa) ofX }, x := { p.x with old := p.x.old.set (a - p.x.pa) found }, later := r.1, m := r.2 }

/-- They change places in that of every byte that they share. -/
def Pair.swap (p : Pair) : Pair :=
  ((List.range p.x.old.length).map (p.x.pa + ·)).foldl (fun q a => if p.e.pa ≤ a ∧ a < p.e.pa + p.e.old.length then q.swapAt a else q) p

/-- Nothing orders a new write after an earlier one to its bytes. -/
def Write.free (x e : Write) : Bool := e.placed && !x.atomic && !e.atomic && !x.all && !e.all && !x.after.contains e.id

/-- A new write goes beneath earlier ones, newest first, as long as nothing orders it after them and the free choice says so: it, those then
after it, those still before it, and memory. None when it stays. -/
def sink (d : Nat) (x : Write) (later : List Write) (m : List Host.Cell) : List Write → Option (Write × List Write × List Write × List Host.Cell)
  | [] => none
  | e :: t =>
    if !meets x.pa x.old.length e.pa e.old.length then sink d x (e :: later) m t
    else if x.free e && Config.sinks d x.id e.id then
      let p := Pair.swap { e, x, later, m }
      match sink d p.x (p.e :: p.later) p.m t with
      | some r => some r
      | none => some (p.x, p.e :: p.later, t, p.m)
    else none

/-- The new writes take their places; `done` are those before, newest first. Fuel counts writes. -/
def placeWrites (d : Nat) : Nat → List Write → List Write → List Host.Cell → List Write × List Host.Cell
  | fuel + 1, done, x :: t, m =>
    match if x.placed then none else sink d x t m done with
    | none => placeWrites d fuel (x :: done) t m
    | some (x, later, before, m) =>
      let n := later.length - t.length
      placeWrites d fuel ((later.take n).reverse ++ x :: before) (later.drop n) m
  | _, done, l, m => (done.reverse ++ l, m)

/-- Writes take their places in the modification orders of their bytes (R166, R362). Time makes the oldest visible to every agent; with none
left, no fence matters. -/
def State.settleWrites (s : State) : State :=
  if s.hist.isEmpty then s
  else
    let (hist, mem) := placeWrites s.nondet s.hist.length [] s.hist s.mem
    let hist := (hist.map fun e => { e with placed := true }).drop (Config.settled s.nondet)
    { s with hist, mem, fences := if hist.isEmpty then [] else s.fences }

end Sys2Proof.Machine
end

