-- ==== Sys2Proof/Machine/Image.lean ====
section
/-! DEFINITION. The automaton image (R99 to R109), its checks (R105), instruction caches (R206, R217 to R219). -/

namespace Sys2Proof.Machine

/-- Why a part of an image is not reached. -/
inductive ImgErr where
  /-- The fetch is not performed, for a virtual address. -/
  | flt (f : Flt) (va : DWord)
  /-- The part at a virtual address fails its checks: ILLOP with detail 3 (R105). -/
  | bad (va : DWord)
  deriving DecidableEq, Repr

/-- Bytes of a wave area, which have no virtual address; a poisoned line gives none (R11, R26, R131). -/
def State.areaRead (s : State) (pa n : Nat) : Except ImgErr (List Byte) :=
  match readAt s.poison s.mem pa n with
  | .error f => .error (.flt f 0)
  | .ok b => .ok b

/-- n bytes fetched from a virtual address (R150, R151: the x permission). -/
def State.fetch (s : State) (c : Ctx) (va : DWord) (n : Nat) : Except ImgErr (List Byte) :=
  match s.pieces c .fetch true (n + 1) va n with
  | .error (f, a) => .error (.flt f a)
  | .ok ps =>
    match ps.findSome? fun p => s.peerChk p.pa true with
    | some f => .error (.flt f va)
    | none =>
      match readPieces s.poison s.mem ps with
      | .error f => .error (.flt f va)
      | .ok b => .ok b

/-- Virtual address of an offset of an image. -/
def imgAt (img : DWord) (off : Nat) : DWord := img + BitVec.ofNat 64 off

/-- Bytes at an offset of an image. -/
def State.part (s : State) (c : Ctx) (img : DWord) (off n : Nat) : Except ImgErr (List Byte) :=
  s.fetch c (imgAt img off) n

/-- The fields of a header (R99). -/
def Header.of (b : List Byte) : Header :=
  { nblocks := bnat b 6 1, entry := bnat b 7 1, nstates := bnat b 8 2, nrestart := bnat b 10 1, blocktab := bnat b 16 4,
    statetab := bnat b 20 4, index := bnat b 24 4, restart := bnat b 28 4, code := bnat b 32 4, codebytes := bnat b 36 4,
    pool := bnat b 40 4, poolbytes := bnat b 44 4, size := bnat b 48 4 }

/-- The checks of a header: magic, version, reserved bytes, limits and alignment of R99 (R105). -/
def headerOk (b : List Byte) : Bool :=
  let h := Header.of b
  bnat b 0 4 == 0x4E4C5848 && bnat b 4 2 == 0x0100 && bzero b 11 5 && bzero b 52 76
  && 1 ≤ h.nblocks && h.nblocks ≤ 255 && h.entry < h.nblocks && h.nblocks ≤ h.nstates && h.nstates ≤ 4096 && h.nrestart ≤ 16
  && h.blocktab % 32 == 0 && h.statetab % 16 == 0 && h.index % 8 == 0 && h.restart % 4 == 0
  && (h.nrestart != 0 || h.restart == 0) && h.code % 128 == 0 && h.codebytes % 128 == 0 && h.pool % 8 == 0
  && h.blocktab + 32 * h.nblocks ≤ h.size && h.statetab + 16 * h.nstates ≤ h.size && h.index + 8 * h.nstates ≤ h.size
  && h.restart + 4 * h.nrestart ≤ h.size && h.code + h.codebytes ≤ h.size && h.pool + h.poolbytes ≤ h.size

/-- The header of an image (R99, R105). -/
def State.header (s : State) (c : Ctx) (img : DWord) : Except ImgErr Header :=
  match s.part c img 0 128 with
  | .error e => .error e
  | .ok b => if headerOk b then .ok (Header.of b) else .error (.bad img)

/-- A block table entry (R100). -/
structure BlockEntry where
  join : Bool
  single : Nat
  cover : List Nat
  deriving DecidableEq, Repr

/-- Entry b of the block table, checked (R100, R105). -/
def State.blockEntry (s : State) (c : Ctx) (img : DWord) (h : Header) (b : Nat) : Except ImgErr BlockEntry :=
  match s.part c img (h.blocktab + 32 * b) 32 with
  | .error e => .error e
  | .ok x =>
    let n := bnat x 2 1
    let cover := (List.range n).map fun i => bnat x (16 + 2 * i) 2
    let single := bnat x 4 2
    if bnat x 0 2 / 2 = 0 ∧ bzero x 3 1 ∧ bzero x 6 10 ∧ n ≤ 8 ∧ single < h.nstates ∧ cover.all (· < h.nstates) then
      .ok ⟨bnat x 0 2 % 2 == 1, single, cover⟩
    else .error (.bad (imgAt img (h.blocktab + 32 * b)))

/-- The blocks of a key, up to its first unused byte (R104). -/
def keyBlocks (key : Nat) : List Nat :=
  ((List.range 4).map fun i => key / 256 ^ i % 256).takeWhile (· != 255)

/-- The key of an ascending list of at most four blocks (R104). -/
def keyOf (bs : List Nat) : Nat := (List.range 4).foldl (fun k i => k + (bs[i]?).getD 255 * 256 ^ i) 0

/-- A list strictly ascending. -/
def ascending : List Nat → Bool
  | a :: b :: t => a < b && ascending (b :: t)
  | _ => true

/-- Key and first-clause offset of state n as they stand (R101). -/
def State.stateRaw (s : State) (c : Ctx) (img : DWord) (h : Header) (n : Nat) : Except ImgErr (Nat × Nat) :=
  match s.part c img (h.statetab + 16 * n) 16 with
  | .error e => .error e
  | .ok x => .ok (bnat x 0 4, bnat x 4 4)

/-- State n, selected for the key of a list of blocks, checked (R101, R105). Its first-clause offset. -/
def State.stateFor (s : State) (c : Ctx) (img : DWord) (h : Header) (n : Nat) (bs : List Nat) : Except ImgErr Nat :=
  match s.stateRaw c img h n with
  | .error e => .error e
  | .ok (key, first) =>
    if key = keyOf bs ∧ bs ≠ [] ∧ ascending bs ∧ bs.all (· < h.nblocks) ∧ h.code ≤ first ∧ first < h.code + h.codebytes then
      .ok first
    else .error (.bad (imgAt img (h.statetab + 16 * n)))

/-- Binary search of the state index (R102); lo and hi + 1 bound the search. -/
def State.search (s : State) (c : Ctx) (img : DWord) (h : Header) (key : Nat) : Nat → Nat → Nat → Except ImgErr (Option Nat)
  | 0, _, _ => .ok none
  | fuel + 1, lo, hi =>
    if lo < hi then
      let mid := (lo + (hi - 1)) / 2
      match s.part c img (h.index + 8 * mid) 8 with
      | .error e => .error e
      | .ok x =>
        let k := bnat x 0 4
        if k = key then (if bnat x 4 2 < h.nstates then .ok (some (bnat x 4 2)) else .error (.bad (imgAt img (h.index + 8 * mid))))
        else if k < key then s.search c img h key fuel (mid + 1) hi
        else s.search c img h key fuel lo mid
    else .ok none

/-- State number and first clause of a set of at most four blocks, by a core's state cache or the index (R102, R107). -/
def State.lookup (s : State) (c : Ctx) (core : Nat) (img : DWord) (h : Header) (bs : List Nat) :
    Except ImgErr (Option (Nat × Nat)) :=
  match (s.core core).sc.find? fun e => e.ctx == c.id && e.img == img && e.key.toNat == keyOf bs with
  | some e => .ok (some (e.state, e.first))
  | none =>
    match s.search c img h (keyOf bs) 13 0 h.nstates with
    | .error e => .error e
    | .ok none => .ok none
    | .ok (some n) =>
      match s.stateFor c img h n bs with
      | .error e => .error e
      | .ok first => .ok (some (n, first))

/-- A hit put first in a core's state cache of 64 entries, least recently used last (R107). -/
def State.fillState (s : State) (ctx core : Nat) (img : DWord) (bs : List Nat) (n first : Nat) : State :=
  let k := s.core core
  let e : ScEntry := ⟨ctx, img, BitVec.ofNat 32 (keyOf bs), n, first⟩
  s.putCore { k with sc := (e :: k.sc.filter fun x => !(x.ctx == ctx && x.img == img && x.key == e.key)).take 64 }

/-- A fragment's state as the vote finds it: number, first clause, blocks. -/
structure Found where
  state : Nat
  first : Nat
  blocks : List Nat
  deriving DecidableEq, Repr

/-- The singleton state of a block (R100, R104). -/
def State.single (s : State) (c : Ctx) (img : DWord) (h : Header) (b : Nat) : Except ImgErr Found :=
  match s.blockEntry c img h b with
  | .error e => .error e
  | .ok e =>
    match s.stateFor c img h e.single [b] with
    | .error x => .error x
    | .ok first => .ok ⟨e.single, first, [b]⟩

/-- The largest cover state of block b within a set, the earliest of equal size; its singleton when none is larger (R109). -/
def State.best (s : State) (c : Ctx) (img : DWord) (h : Header) (b : Nat) (rem : List Nat) :
    List Nat → Nat × List Nat → Except ImgErr (Nat × List Nat)
  | [], best => .ok best
  | t :: ts, best =>
    match s.stateRaw c img h t with
    | .error e => .error e
    | .ok (key, _) =>
      let bs := keyBlocks key
      s.best c img h b rem ts
        (if bs.contains b ∧ bs.all (rem.contains ·) ∧ best.2.length < bs.length then (t, bs) else best)

/-- The split of a vote set (R109); fuel counts blocks. -/
def State.split (s : State) (c : Ctx) (img : DWord) (h : Header) : Nat → List Nat → Except ImgErr (List Found)
  | 0, _ => .ok []
  | _, [] => .ok []
  | fuel + 1, b :: rem =>
    match s.blockEntry c img h b with
    | .error e => .error e
    | .ok e =>
      match s.best c img h b (b :: rem) e.cover (e.single, [b]) with
      | .error x => .error x
      | .ok (n, bs) =>
        match s.stateFor c img h n bs with
        | .error x => .error x
        | .ok first =>
          match s.split c img h fuel (rem.filter fun x => !bs.contains x) with
          | .error x => .error x
          | .ok l => .ok (⟨n, first, bs⟩ :: l)

/-- The states of a set of blocks: the one found, or a split (R108). -/
def State.statesOf (s : State) (c : Ctx) (core : Nat) (img : DWord) (h : Header) (bs : List Nat) : Except ImgErr (List Found) :=
  if bs.length ≤ 4 then
    match s.lookup c core img h bs with
    | .error e => .error e
    | .ok (some (n, first)) => .ok [⟨n, first, bs⟩]
    | .ok none => s.split c img h bs.length bs
  else s.split c img h bs.length bs

/-- Every block of a state is a JOIN block (R110); entries are read up to the first that is not. -/
def State.allJoin (s : State) (c : Ctx) (img : DWord) (h : Header) : List Nat → Except ImgErr Bool
  | [] => .ok true
  | b :: t =>
    match s.blockEntry c img h b with
    | .error e => .error e
    | .ok e => if e.join then s.allJoin c img h t else .ok false

/-- A restart table entry (R103): its block and tile mask. -/
def State.restartEntry (s : State) (c : Ctx) (img : DWord) (h : Header) (n : Nat) : Except ImgErr (Nat × BitVec 16) :=
  match s.part c img (h.restart + 4 * n) 4 with
  | .error e => .error e
  | .ok x => .ok (bnat x 0 1, BitVec.ofNat 16 (bnat x 1 2))

/-! ### Clause lines (R206, R217 to R219) -/

/-- The words of a 128-byte line. -/
def lineWords (b : List Byte) : List DWord := (List.range 16).map fun i => BitVec.ofNat 64 (bnat b (8 * i) 8)

/-- The header of a clause line, checked (R218, R219). -/
def clauseOf (off : Nat) (ws : List DWord) : Option Clause :=
  match ws with
  | [] => none
  | h :: r =>
    match Cls.ofBits (h.extractLsb' 56 4) with
    | none => none
    | some cls =>
      let n := (h.extractLsb' 52 4).toNat
      if h.extractLsb' 60 4 = 0xE ∧ n ≠ 0 ∧ h.extractLsb' 48 2 = 0 ∧ h.extractLsb' 0 32 = 0 then
        some { off, cls, count := n, e := h.getLsbD 51, k := h.getLsbD 50, words := r }
      else none

/-- The wait mask of a clause header (R218). -/
def waitMask (ws : List DWord) : BitVec 16 := ((ws[0]?).getD 0).extractLsb' 32 16

/-- A line held by a core or its quad, when it goes on using it (R206). -/
def State.heldLine (s : State) (ctx core : Nat) (va : DWord) : Option (List Byte) :=
  match ((s.core core).lines ++ (s.quad (quadOf core)).lines).find? fun x => x.ctx == ctx && x.va == va with
  | some x => if Config.holdsLine s.nondet then some x.bytes else none
  | none => none

/-- The clause line at an offset of an image: held, or fetched whole (R105, R206, R219). -/
def State.line (s : State) (c : Ctx) (core : Nat) (img : DWord) (h : Header) (off : Nat) : Except ImgErr (List Byte) :=
  if h.code ≤ off ∧ off + 128 ≤ h.code + h.codebytes then
    let va := imgAt img off
    match s.heldLine c.id core va with
    | some b => .ok b
    | none => s.fetch c va 128
  else .error (.bad (imgAt img off))

/-- A line kept by a core and its quad (R206). -/
def State.keepLine (s : State) (ctx core : Nat) (va : DWord) (b : List Byte) : State :=
  let x : Line := ⟨ctx, va, b⟩
  let ins (l : List Line) : List Line := x :: l.filter fun y => !(y.ctx == ctx && y.va == va)
  let s := { s with nondet := s.nondet + 1 }
  let k := s.core core
  let s := s.putCore { k with lines := ins k.lines }
  let q := s.quad (quadOf core)
  s.putQuad { q with lines := ins q.lines }

end Sys2Proof.Machine
end

