-- ==== Sys2Proof/Machine/Ops.lean ====
section
/-! DEFINITION. The shared operations of the sequencer: checks at issue (R222), effects falling due (R126), the end of a
clause (R108, R217, R245), taking a trap (R131 to R136) and returning from it (R135, R336), team ends and errors (R24, R87). -/

namespace Sys2Proof.Machine

/-! ### Fault and trace records -/

/-- A fault waits to be written to the fault queue (R57). -/
def State.report (s : State) (r : FaultRec) : State := { s with fqHeld := s.fqHeld ++ [{ r with tick := s.tick }] }

/-- Host bus address as a physical address (R18). -/
def hostPa (a : Nat) : Nat := 2 ^ 54 + a

/-- Bytes the device writes at a host bus address; it issues none above 2^52 − 1 (R21). (DESIGN CHOICE: log 122, 134) -/
def State.toHost (s : State) (a : Nat) (b : List Byte) : State :=
  if a + b.length ≤ 2 ^ 52 then s.store none (hostPa a) b false else s

/-- Bytes the device reads at a host bus address: zeros where it issues none (R21). (DESIGN CHOICE: log 134) -/
def State.fromHost (s : State) (a n : Nat) : List Byte :=
  if a + n ≤ 2 ^ 52 then mbytes s.mem (hostPa a) n else List.replicate n 0

/-- Little-endian bytes of a natural number. -/
abbrev le (n x : Nat) : List Byte := leBytes n x

/-- Source of trace records (R214). -/
def State.trSrc (s : State) (src : Nat) : TraceSrc :=
  (s.trSrcs.find? fun x => x.id == src).getD { id := src, last := s.tick, lost := 0, resync := true }

/-- Event records of a kind are enabled for a context: bit 0, the kind's bit, and the context filter (R213). -/
def State.tracing (s : State) (en ctx : Nat) : Bool :=
  s.trSize != 0 && s.trMask.getLsbD 0 && s.trMask.getLsbD en
  && (!s.trMask.getLsbD 48 || (s.trMask.extractLsb' 32 10).toNat == ctx)

/-- A record of a source: its words beyond the kind and delta of word 0 (R213, R214). Each record, with the RESYNC it needs, is
written as one trace line. With no room it is dropped and counted. (DESIGN CHOICE: log 71) -/
def State.trace (s : State) (src kind en ctx payload : Nat) (more : List Nat) : State :=
  if !s.tracing en ctx then s
  else
    let x := s.trSrc src
    let put (y : TraceSrc) (s : State) : State := { s with trSrcs := lput s.trSrcs (fun z => z.id == src) y }
    if s.trSize < s.trTail - s.trHead.toNat + 64 then
      put { x with lost := min (x.lost + 1) 0xFFFFFFFF, resync := true } { s with trStat := s.trStat ||| 2 }
    else
      let re := x.resync || 0xFFFFFF < s.tick - x.last
      let delta := if re then 0 else s.tick - x.last
      let head := if re then [0x80 + x.lost * 2 ^ 32, s.tick] else []
      let ws := head ++ [kind + delta * 256 + payload * 2 ^ 32] ++ more
      let line := le 8 (1 + ws.length * 256 + src * 65536) ++ (ws.map (le 8)).flatten
      let s := s.toHost (s.trAddr + s.trTail % s.trSize) (line ++ List.replicate (64 - line.length) 0)
      put { x with last := s.tick, lost := 0, resync := false } { s with trTail := s.trTail + 64 }

/-- Instructions of the clause in progress. -/
def Wave.count (w : Wave) : Nat := match w.clause with | some c => c.count | none => 0

/-! ### Teams that stop early (R24, R25, R87, R136) -/

/-- Pool bytes in use, in the context header (R130). -/
def State.poolUse (s : State) (c : Ctx) (f : Nat → Nat) : State :=
  s.store none (c.mem + 16) (le 8 (f (mnat s.mem (c.mem + 16) 8))) false

/-- The save record of a team is freed (R130). -/
def State.freeRecord (s : State) (t : Team) : State :=
  match t.rec_, s.ctx? t.ctx with
  | some r, some c => s.poolUse c fun n => n - r.2
  | _, _ => s

/-- A team's waves, its matrix work, its save record and the team itself leave the package; its log is discarded. -/
def State.dropTeam (s : State) (t : Team) : State :=
  let keys := (s.waves.filter fun w => w.team == t.key).map fun w => w.key
  { s.freeRecord t with
    teams := s.teams.filter fun x => x.key != t.key
    waves := s.waves.filter fun w => w.team != t.key
    cores := s.cores.map fun k => { k with mtx := k.mtx.filter fun j => !keys.contains j.wave } }

/-- A SYNC record (R216): source, scope, context and unit, then last arriver and longest waiter with their ticks. -/
def State.sync (s : State) (src scope ctx unit last lastTick long longTick : Nat) : State :=
  s.trace src 0x48 2 ctx (scope + ctx * 8 + unit % 2 ^ 19 * 2 ^ 13) [last % 2 ^ 32 + long % 2 ^ 32 * 2 ^ 32, lastTick, longTick]

/-- The SYNC record of a change of Threshold position by a team that holds it; with no team waiting the releasing team stands for
the longest waiter (R216). (DEDUCED: log 85) -/
def State.syncThreshold (s : State) (l : Launch) (tix : Nat) : State :=
  if l.p.mode = 2 ∧ l.holds tix ∧ !l.released.contains tix then
    let x := (s.teams.filter fun t => t.launch == l.key && t.wantDirect && t.tix != tix).foldl
      (fun (a : Option (Nat × Nat)) t => match a with
        | some p => if t.wantSince < p.2 then some (t.tix, t.wantSince) else a
        | none => some (t.tix, t.wantSince)) none
    let (long, tick) := x.getD (tix, s.tick)
    s.sync 0x1004 5 l.ctx 0 tix s.tick long tick
  else s

/-- KILL of a team: it is voided in every commit mode, its unapplied log is discarded and its ticket is void (R59, R87). -/
def State.voidTeam (s : State) (t : Team) : State :=
  match s.launch? t.launch with
  | none => s.dropTeam t
  | some l =>
    let s := match t.core with
      | some k => s.trace k 0x03 4 t.ctx t.tix []
      | none => s
    ((s.dropTeam t).syncThreshold l t.tix).putLaunch { l with finished := l.finished ++ [t.tix], voided := l.voided ++ [t.tix] }

/-- Fields of a fault record that name a wave: core 0xFFFF and wave 0xFF while its team is on no core (R57). -/
def FaultRec.ofWave (s : State) (w : Wave) (kind access code : Nat) (addr : DWord) : FaultRec :=
  let base : FaultRec :=
    { key := s.fresh, kind, access := BitVec.ofNat 8 access, code, addr
      core := if w.place.isSome then w.coreNo else 0xFFFF, wave := if w.place.isSome then w.slotNo else 0xFF }
  match s.team? w.team with
  | none => base
  | some t => match s.launch? t.launch with
    | none => { base with ctx := t.ctx, team := t.tix }
    | some l => { base with ctx := t.ctx, team := t.tix, queue := l.queue, launchid := l.p.id }

/-- A fault record about a wave. -/
def State.reportWave (s : State) (w : Wave) (kind access code : Nat) (addr : DWord) : State :=
  let s' := s.report (FaultRec.ofWave s w kind access code addr)
  { s' with fresh := s.fresh + 1 }

/-! ### Effects falling due (R125, R126, R302, R337, R341) -/

/-- Physical address of the wave area of a place (R129). -/
def waveArea (c : Ctx) (place : Nat) : Nat := c.mem + 0x1000 + 0x1000 * place

/-- Physical address of the wave area of a wave. -/
def State.areaOf (s : State) (w : Wave) : Nat :=
  match s.team? w.team with
  | some t => match s.ctx? t.ctx with
    | some c => waveArea c (w.place.getD 0)
    | none => 0
  | none => 0

/-- Number of the latch of a wave in its team (R72, R124). -/
def Wave.pair (w : Wave) : Nat := w.wid / 2

/-- The latch of a wave's pair. -/
def Team.latch (t : Team) (k : Nat) : Latch := (t.latches[k]?).getD {}

/-- A latch put back. -/
def Team.putLatch (t : Team) (k : Nat) (x : Latch) : Team :=
  { t with latches := t.latches.zipIdx.map fun p => if p.2 == k then x else p.1 }

/-- A wave takes its latch, with the pair's registers v64 to v127 (R124). -/
def Wave.takeLatch (w : Wave) (t : Team) : Wave × Team :=
  let x := t.latch w.pair
  ({ w with regs := { w.regs with
      v := csetAll (cclear w.regs.v 4096 4096) x.v, vt := csetAll (cclear w.regs.vt 64 64) x.vt } },
   t.putLatch w.pair { owner := some w.key, v := [], vt := [], waiter := if x.waiter = some w.key then none else x.waiter })

/-- A wave gives its latch up, if it holds it; it passes to a partner that waits (R124, R341). -/
def State.freeLatch (s : State) (w : Wave) : State × Wave :=
  match s.team? w.team with
  | none => (s, w)
  | some t =>
    let x := t.latch w.pair
    if x.owner = some w.key then
      let t := t.putLatch w.pair
        { x with owner := none, v := crange w.regs.v 4096 4096, vt := crange w.regs.vt 64 64 }
      let w := { w with regs := { w.regs with v := cclear w.regs.v 4096 4096, vt := cclear w.regs.vt 64 64 } }
      match x.waiter.bind fun k => s.waves.find? fun y => y.key == k with
      | none => (s.putTeam t, w)
      | some p =>
        let (p, t) := p.takeLatch t
        ((s.putTeam t).putWave p, w)
    else (s, w)

/-- A w register of the team takes what the wave's writes leave in it at a due position (R125, R126). -/
def State.landW (s : State) (w : Wave) (due : Nat) (n : Fin 16) : State :=
  match s.team? w.team with
  | some t => s.putTeam { t with w := cset t.w n.val (cget (w.regsAt due).w n.val) }
  | none => s

/-- What an effect does beyond the wave's registers, when it falls due. -/
def landEff (s : State) (w : Wave) (due : Nat) : Eff → State × Wave
  | .wreg n _ => (s.landW w due n, w)
  | .amaxTake (.w n) => (s.landW w due n, w)
  | .tclr m =>
    match s.team? w.team with
    | some t => (s.putTeam { t with tags := t.tags &&& ~~~m }, w)
    | none => (s, w)
  | .lrel => s.freeLatch w
  | .csrw n x =>
    if n = 1 then
      let lg := x.toNat % 32
      match s.team? w.team with
      | some t => (s.putTeam { t with lg }, { w with lg })
      | none => (s, w)
    else if 0x100 ≤ n ∧ n < 0x300 then (s.store none (s.areaOf w + 8 * (n - 0x100)) (bvBytes 8 x) false, w)
    else (s, w)
  | _ => (s, w)

/-- Effects that fall due after a wave's position, up to another, in the order in which they fall due. -/
def State.land (s : State) (w : Wave) (q : Nat) : State × Wave :=
  (sortPend Pend.due w.pend).foldl (fun (a : State × Wave) p =>
    if w.pos < p.due ∧ p.due ≤ q then p.effs.foldl (fun a e => landEff a.1 a.2 p.due e) a else a) (s, w)

/-- The last position at which a pending effect falls due. -/
def Wave.lastDue (w : Wave) : Nat := w.pend.foldl (fun n p => max n p.due) 0

/-- Every pending effect due: the registers are what the clause leaves (R126). -/
def State.flush (s : State) (w : Wave) : State × Wave :=
  let (s, w) := s.land w w.lastDue
  (s, { w with regs := w.regsEnd, pend := [], late := [] })

/-! ### Waves that move, and clauses in progress (R93, R202, R209) -/

/-- The package is up and not gated (R65, R202). -/
def State.running (s : State) : Bool := s.ready && !s.dead && !s.gated

/-- A wave may move on: the package runs, the wave is placed, and its quad is not stopped unless the wave steps (R202, R209,
R212). -/
def State.moves (s : State) (w : Wave) : Bool :=
  s.running && w.place.isSome && (!(s.quad (quadOf w.coreNo)).stopped || w.stepping.isSome)

/-- Clauses in progress on a core: their class codes (R93). A clause that waits on a fault is one; one that a stop freezes while another
wave steps leaves its class free. (DESIGN CHOICE: log 79) -/
def State.inProgress (s : State) (core : Nat) : List Nat :=
  s.waves.filterMap fun w =>
    if w.place.isSome && w.coreNo == core && (w.stage == .issue || w.stage == .long) && s.moves w then
      w.clause.map fun c => c.cls.bits.toNat
    else none

/-- A class is taken on a core by a clause of another wave, or four clauses of others are in progress there (R93). -/
def State.classTaken (s : State) (w : Wave) (cls : Cls) : Bool :=
  let l := { s with waves := s.waves.filter fun x => x.key != w.key }.inProgress w.coreNo
  l.contains cls.bits.toNat || decide (4 ≤ l.length)

/-! ### Waves put back, with single steps ended (R211, R212) -/

/-- The wave's step is over: one instruction issued, or one clause complete, with the vote and switch that belong to it (R212). -/
def Wave.stepOver (w : Wave) : Bool :=
  let gone := w.stage == .ended || w.stage == .ending
  match w.stepping with
  | none => false
  | some .clause => gone || (w.stepped && w.stage == .ready)
  | some .instr => gone || (w.stepped && (w.stage == .issue || w.stage == .ready
      || (w.stage == .long && w.clause.isSome && w.pos < (match w.clause with | some c => c.count | none => 0))))

/-- A wave put back; a step that is over is recorded (R211), and a wave that may now start a clause begins to age
(R94). -/
def State.settle (s : State) (w : Wave) : State :=
  let w := if w.stage = .ready then { w with age := 0 } else w
  if w.stepOver then
    let k := s.core w.coreNo
    (s.putWave { w with stepping := none, stepped := false }).putCore { k with stepDone := true }
  else s.putWave w

/-! ### Taking a trap (R131 to R136) -/

/-- Offset of the line of a wave's current fragment. -/
def Wave.off (w : Wave) : Nat := match w.frags[w.cur]? with | some f => f.cp | none => 0

/-- Causes that resume after the instruction (R133). -/
def causeAfter (c : Nat) : Bool := c == causeBrk || c == causeWatch || c == causeStep || c == causeSwtrap

/-- A position as an image offset: the end of the clause is the line's offset plus 128 (R134). -/
def posOff (off count q : Nat) : Nat := if q < count then off + 8 + 8 * q else off + 128

/-- iaddr, replay bits and cont of a frame (R134). -/
def Wave.resumeAt (w : Wave) (tr : Trap) : Nat × Nat × Nat :=
  let off := w.off
  if w.frags = [] then (0, 0, 0)
  else if tr.header then (off, 0, if tr.atEnd then off + 128 else off + 8)
  else
    let left := w.replay.tail
    let own := if causeAfter tr.cause then [] else [tr.pos]
    let bits := (own ++ tr.more ++ left).foldl (fun (m : BitVec 16) p => m ||| (1 <<< p)) 0
    let cont := if tr.atEnd then off + 128
      else if w.replay = [] then posOff off w.count (max (tr.pos + 1) w.pos)
      else posOff off w.count w.cont
    (off + 8 + 8 * tr.pos, bits.toNat, cont)

/-- The 16-byte record of a fragment (R113). -/
def Frag.record (f : Frag) : List Byte :=
  bvBytes 8 f.mask ++ le 4 f.cp ++ le 2 (f.state + (if f.parked then 4096 else 0) + 8192) ++ le 1 f.age ++ le 1 f.quantum

/-- The frame header (R134). (DEDUCED: log 31) -/
def Wave.frame (w : Wave) (tr : Trap) (checked : Bool) (tick : Nat) : List Byte :=
  let (iaddr, bits, cont) := w.resumeAt tr
  le 2 tr.cause ++ le 1 (if tr.cause = causeIllop then tr.detail else 0) ++ le 1 ((if w.inHandler then 1 else 0) + (if checked then 2 else 0))
  ++ le 4 iaddr
  ++ le 4 cont ++ le 2 bits ++ le 1 w.frags.length ++ le 1 w.cur ++ bvBytes 8 w.img ++ bvBytes 8 tr.faddr ++ bvBytes 8 tr.fml
  ++ bvBytes 8 w.regs.exm ++ le 8 tick ++ bvBytes 4 tr.fword ++ le 1 w.depth ++ bvBytes 1 tr.access ++ le 2 0
  ++ bvBytes 8 w.regs.ret ++ List.replicate 184 0

/-- Bytes of a per-lane block list. -/
def laneBytes (c : Cells 8) : List Byte := (List.range 64).map fun l => cget c l

/-- The wave area from the frame header to the fragment list, as trap entry writes it (R131, R132). -/
def Wave.areaBytes (w : Wave) (tr : Trap) (checked : Bool) (tick : Nat) : List Byte :=
  let fr := (w.frags.map Frag.record).flatten
  w.frame tr checked tick ++ laneBytes w.blk ++ laneBytes w.regs.nblk ++ List.replicate 128 0
  ++ fr ++ List.replicate (1024 - fr.length) 0

/-- The same block for each lane. -/
def allLanes (b : Nat) : Cells 8 := csetAll [] ((List.range 64).map fun l => (l, BitVec.ofNat 8 b))

/-- Link sets as trap entry and forced save leave them: CLEARED (R292). -/
def clearedLinks : List Link := (List.range 64).map fun l => ⟨l, .cleared, []⟩

/-- The kind of the fault record of a team that a trap ends (R136). -/
def endKind (cause : Nat) : Nat := if cause = causePage then 1 else if cause = causeEcc then 5 else 3

/-- Why an image part is not reached, as cause, address (R136, R371). -/
def ImgErr.cause : ImgErr → Nat × DWord
  | .bad va => (causeIllop, va)
  | .flt (.trap c) va => (c, va)
  | .flt .page va => (causePage, va)
  | .flt .host va => (causePage, va)
  | .flt (.ecc _ _) va => (causeEcc, va)
  | .flt .peer va => (causeEcc, va)

/-- The trap image's entry: its header, entry block and singleton state (R132, R136). -/
def State.entryOf (s : State) (c : Ctx) (img : DWord) : Except ImgErr (Header × Found) :=
  match s.header c img with
  | .error e => .error e
  | .ok h =>
    match s.single c img h h.entry with
    | .error e => .error e
    | .ok f => .ok (h, f)

/-- The fragments that stand at a Block instruction, kept over a trap (R120, R250). -/
def Wave.keeps (w : Wave) : List Frag := w.frags.filter fun f => f.blocked.isSome || f.held.isSome

/-- The call that the trapped clause still has to make: not that of the CALLA that traps (R245). -/
def Wave.callKept (w : Wave) (tr : Trap) : Option Call := w.call.filter fun k => k.pos != tr.pos

/-- A wave as trap entry starts the trap image in it (R132 steps 3 to 7). -/
def Wave.enterHandler (w : Wave) (tr : Trap) (img : DWord) (h : Header) (f : Found) : Wave :=
  { w with
    kept := w.keeps, keptCp := w.off, keptYield := w.yielded, keptCall := w.callKept tr
    img, hdr := some h
    regs := { w.regs with fml := tr.fml, ret := 0, exm := ones64, nblk := allLanes h.entry }
    blk := allLanes h.entry
    frags := [{ mask := ones64, cp := f.first, state := f.state, blocks := f.blocks }]
    cur := 0, stage := .ready, clause := none, pos := 0, call := none, trap := none, stalls := [], inHandler := true
    replay := [], cont := 0, redo := none, packs := tr.kept, watched := tr.watch.map fun n => (tr.pos, n), yielded := false
    links := clearedLinks, reason := if w.frags.any fun x => x.spill.isSome then 7 else 0 }

/-- TRAP record (R214). -/
def State.traceTrap (s : State) (w : Wave) (ctx cause : Nat) : State :=
  s.trace w.coreNo 0x06 5 ctx (cause % 256 + w.slotNo * 256) []

/-- Taking a trap (R132): pending effects fall due, the frame is written, and the trap image starts in one fragment of all
lanes. A trap in a handler, in a context with no trap image, with no reachable handler, or before the first clause is known ends the
team (R136, R371). -/
def State.takeTrap (s : State) (w : Wave) (tr : Trap) : State :=
  match s.team? w.team with
  | none => s
  | some t =>
    match s.ctx? t.ctx with
    | none => s
    | some c =>
      let (s, w) := s.flush w
      let checked := c.checked || (match w.clause with | some k => k.k | none => false)
      let s := s.store none (s.areaOf w) (w.areaBytes tr checked s.tick) false
      let s := s.traceTrap w c.id tr.cause
      let t := (s.team? w.team).getD t
      if w.inHandler ∨ c.trapImg = 0 ∨ w.frags = [] then
        (s.reportWave w (endKind tr.cause) tr.access.toNat (if tr.cause = causeEcc then tr.fword.toNat else 0) tr.faddr).voidTeam t
      else
        match s.entryOf c c.trapImg with
        | .ok (h, f) => s.settle (w.enterHandler tr c.trapImg h f)
        | .error e =>
          let (cause, va) := e.cause
          (s.reportWave w (if cause = causePage then 1 else 3) 8 0 va).voidTeam t

/-- A trap's long-latency work is still under way (R132 step 1). -/
def State.busy (s : State) (w : Wave) : Bool :=
  !w.stalls.isEmpty || (s.core w.coreNo).mtx.any (fun j => j.wave == w.key)

/-- A lane is the lowest of a mask before the lowest of another; no lane comes last. -/
def lowerLane (a b : DWord) : Bool := decide ((lanesOf a).headD 64 ≤ (lanesOf b).headD 64)

/-- Two traps of one wave. The first in program order is reported, with the positions of the others that faulted to re-issue (R134); of one
instruction, that of the lowest lane, with every lane in fml (R155), and a fault before the WATCH of a lane that performed (R208). -/
def Trap.merge (a b : Trap) : Trap :=
  let again (x : Trap) : List Nat := if causeAfter x.cause then x.more else x.pos :: x.more
  if a.pos = b.pos then
    let (x, y) := if causeAfter a.cause then (b, a) else if causeAfter b.cause then (a, b) else if lowerLane a.fml b.fml then (a, b) else (b, a)
    { x with
      fml := x.fml ||| y.fml, more := a.more ++ b.more, kept := a.kept ++ b.kept
      watch := if y.cause = causeWatch ∧ x.cause ≠ causeWatch then some y.fword.toNat else if x.watch.isSome then x.watch else y.watch }
  else if a.pos < b.pos then { a with more := a.more ++ again b, kept := a.kept ++ b.kept }
  else { b with more := b.more ++ again a, kept := a.kept ++ b.kept }

/-- A trap raised, joined to one that the wave has pending: taken at once, or pending until the wave's long-latency work has completed (R132,
R134). (DESIGN CHOICE: log 33) -/
def State.raise (s : State) (w : Wave) (tr : Trap) : State :=
  let tr := match w.trap with | some t => t.merge tr | none => tr
  let w := { w with stepped := w.stepped || w.stage == .issue }
  if s.busy w then s.putWave { w with trap := some tr, stage := .trap } else s.takeTrap w tr

/-! ### Uncorrected errors (R24, R25) -/

/-- A trap raised in a wave at its next instruction. -/
def Wave.pendTrap (w : Wave) (cause fword : Nat) : Wave :=
  if w.stage = .ended ∨ w.stage = .ending ∨ w.stage = .trap then w
  else
    let fin := w.clause.isSome && w.count ≤ w.pos
    let tr : Trap :=
      { cause, fword := BitVec.ofNat 32 fword, pos := w.pos, header := w.clause.isNone || fin, atEnd := fin }
    { w with trap := some tr, stage := if w.stage = .entering ∨ w.stage = .label then w.stage else .trap }

/-- The poisoned lines that struck a team: of a launch that has been restarted, those of all its teams. -/
def Launch.linesOf (l : Launch) (tix : Nat) : List Nat :=
  (l.struck.filter fun x => decide (x.1 = tix ∨ 0 < l.restarts)).map (·.2)

/-- A team or launch had been re-run as often as R25 allows. -/
def replayedFull (t : Team) (l : Launch) : Bool := decide (2 ≤ t.replays ∨ 2 ≤ l.restarts)

/-- An error is not answered by a replay: the limits are reached, or a line that struck the replayed team before is still poisoned (R25).
(DEDUCED: log 135) -/
def State.replayedOut (s : State) (t : Team) (l : Launch) : Bool :=
  replayedFull t l || (decide (0 < t.replays ∨ 0 < l.restarts) && (l.linesOf t.tix).any (s.poison.contains ·))

/-- The ECC source as records carry it: bit 15 when the limits were reached, or when the error's own line had struck before and stayed
poisoned (R26, R58). -/
def eccCode (t : Team) (l : Launch) (src : Nat) (line : Option Nat) : Nat :=
  if replayedFull t l || (decide (0 < t.replays ∨ 0 < l.restarts) && line.any ((l.linesOf t.tix).contains ·)) then src + 2 ^ 15 else src

/-- An uncorrected error, of a poisoned line where there is one, that strikes the team of a wave at an instruction, by the team's commit
mode and the replay limits: re-run, restart of the launch, or ECC in the team's waves and a fault record (R24, R25). Peer errors are never
replayed (R33). An error that no instruction of the wave meets (`own` false) raises ECC at the wave's next instruction.
(DESIGN CHOICE: log 39) -/
def State.strike (s : State) (w : Wave) (src : Nat) (line : Option Nat) (tr : Trap) (own : Bool := true) : State :=
  match s.team? w.team with
  | none => s
  | some t =>
    match s.launch? t.launch with
    | none => s
    | some l =>
      if src = 8 then s.raise w { tr with cause := causeEcc, fword := BitVec.ofNat 32 (eccCode t l 8 none) }
      else
        let s : State := { s with uncorrected := s.uncorrected + 1 }
        let out := s.replayedOut t l
        let code := eccCode t l src line
        let l := { l with struck := l.struck ++ line.toList.map fun k => (t.tix, k) }
        if l.p.mode ≠ 0 ∧ !t.direct ∧ !out then
          (s.dropTeam t).putLaunch
            { l with redo := l.redo ++ [(t.tix, t.replays + 1, t.core.getD 0)], reruns := l.reruns + 1 }
        else if l.p.mode = 0 ∧ l.p.idem ∧ !out then
          (s.dropTeam t).putLaunch { l with restarting := true, finished := l.finished ++ [t.tix] }
        else
          let s := s.reportWave w 5 tr.access.toNat code tr.faddr
          let s := s.putLaunch { l with error := true }
          let s := { s with waves := s.waves.map fun (x : Wave) =>
            if x.team == t.key && (x.key != w.key || !own) then x.pendTrap causeEcc code else x }
          if own then s.raise w { tr with cause := causeEcc, fword := BitVec.ofNat 32 code } else s

/-! ### Fetches by the sequencer (R105, R136, R157, R371) -/

/-- The page of an address. -/
def pageOf (va : DWord) : Nat := va.toNat / 4096

/-- Something waits on a fault's key. -/
def State.waitsOn (s : State) (k : Nat) : Bool :=
  (s.waves.any fun w => w.stalls.any fun x => x.fault == some k)
  || (s.teams.any fun t => (t.cmds.any fun c => c.fault == some k) || t.jobs.any fun j => j.fault == some k)
  || (s.cores.any fun c => c.mtx.any fun j => j.fault == some k)
  || (s.queues.any fun q => q.fault == some k || q.pkts.any fun p => p.fault == some k)
  || (s.copies.any fun c => c.fault == some k) || s.launches.any fun l => l.fault == some k

/-- The key of the page request that is outstanding for a page of a context, or of the fault record on which something waits for it (R44,
R157). -/
def State.pageKey? (s : State) (ctx page : Nat) : Option Nat :=
  match s.pri.find? fun p => p.ctx == ctx && p.page == page with
  | some p => some p.key
  | none =>
    match s.fqHeld.find? fun r => (r.kind == 1 || r.kind == 2) && r.ctx == ctx && pageOf r.addr == page && s.waitsOn r.key with
    | some r => some r.key
    | none => (s.fqOpen.find? fun r => (r.kind == 1 || r.kind == 2) && r.ctx == ctx && r.page == page && s.waitsOn r.key).map fun r => r.key

/-- Page requests that the host answers are outstanding up to its allocation (R44). -/
def State.mayRequest (s : State) : Bool := decide ((s.pri.filter (·.sent)).length < Config.priAllocation)

/-- A wait on a page: it joins the record or request under way, or starts one; a request beyond the host's allocation is sent once one
of the others has been answered (R44, R157). (DESIGN CHOICE: log 136) -/
def State.waitPage (s : State) (c : Ctx) (host : Bool) (va : DWord) (mk : Nat → FaultRec) : Nat × State :=
  match s.pageKey? c.id (pageOf va) with
  | some k => (k, s)
  | none =>
    let (k, s) := s.newKey
    if host then
      let s' : State := { s with
        pri := s.pri ++ [{ ctx := c.id, page := pageOf va, key := k, rec_ := { mk k with key := k, kind := 2 }, sent := s.mayRequest }] }
      (k, if s.mayRequest then s'.out (.pageRequest c.pasid (pageOf va)) else s')
    else (k, s.report { mk k with key := k })

/-- A page fault stops at a trap under the TRAP policy; host pages always wait for the PRI response first (R44). -/
def traps (c : Ctx) : Flt → Bool
  | .page => c.trapPolicy
  | .host => false
  | .peer => false
  | _ => true

/-- A fetch of the sequencer that failed: the trap, or a wait that FAULT_REPLY ends (R157), with its stall reason: FETCH, or STATE_MISS for
a lookup (R107). -/
def State.fetchFault (s : State) (c : Ctx) (w : Wave) (e : ImgErr) (img : DWord) (tr : Trap) (reason : Nat := 11) : State :=
  let (cause, va) := e.cause
  let tr := { tr with cause, faddr := va, access := 8, detail := if cause = causeIllop then 3 else 0 }
  match e with
  | .bad _ => s.raise w { tr with faddr := if tr.atEnd && !tr.header then img else 0, access := if tr.atEnd && !tr.header then 8 else 0 }
  | .flt (.ecc src line) _ => s.strike w src line tr
  | .flt f va =>
    if traps c f then s.raise w tr
    else
      let (k, s) := s.waitPage c (f == .host) va (fun _ => FaultRec.ofWave s w 1 8 0 va)
      s.putWave { w with
        stalls := w.stalls ++ [{ op := { pos := w.pos, accs := [] }, fault := some k, page := pageOf va, trap := some tr }]
        reason }

/-! ### The split table (R113, R114) -/

/-- Fragment i changed. -/
def Wave.setFrag (w : Wave) (i : Nat) (f : Frag → Frag) : Wave :=
  { w with frags := w.frags.zipIdx.map fun p => if p.2 == i then f p.1 else p.1 }

/-- Entries of the list that the split table holds. -/
def splitEntries : Nat := 8

/-- The entry that is spilled when the table holds too many: of the parked ones the one of greatest age, else the unparked one furthest
after the current in list order; of equal ages the first. (DESIGN CHOICE: log 138) -/
def Wave.victim (w : Wave) : Option Nat :=
  let l := w.frags.zipIdx.filter fun x => x.1.spill.isNone
  if l.length ≤ splitEntries then none
  else
    let n := w.frags.length
    match bestBy (fun x => (x.1.age, x.2)) (l.filter fun x => x.1.parked) with
    | some x => some x.2
    | none => (bestBy (fun x => ((x.2 + n - w.cur) % n, 0)) (l.filter fun x => x.2 != w.cur)).map (·.2)

/-- Entries spilled to the wave's spill area while the table holds more than it can; fuel counts entries. -/
def State.spill (s : State) (w : Wave) : Nat → State × Wave
  | 0 => (s, w)
  | fuel + 1 =>
    match w.victim with
    | none => (s, w)
    | some i =>
      let free := (List.range 64).filter fun k => !w.frags.any fun f => f.spill == some k
      let k := free.getD (Config.spillPlace (s.nondet + fuel) % free.length) 0
      let bytes := match w.frags[i]? with | some f => f.record | none => []
      (s.store none (s.areaOf w + 0x600 + 16 * k) bytes false).spill (w.setFrag i fun f => { f with spill := some k }) fuel

/-- The table holds what it can of the list. -/
def State.fitTable (s : State) (w : Wave) : State × Wave := s.spill w w.frags.length

/-- A spilled entry brought back: the wait is charged to STATE_MISS (R114). -/
def Wave.bringBack (w : Wave) (i : Nat) : Wave :=
  match w.frags[i]? with
  | some f => if f.spill.isSome then { (w.setFrag i fun f => { f with spill := none }) with reason := 7 } else w
  | none => w

/-! ### The end of a clause (R108, R113, R115, R217, R245) -/

/-- The wave after a clause: a quantum ends after Q clauses or a YIELD (R115, R242). -/
def Wave.nextClause (w : Wave) (q : Nat) : Wave :=
  let n := match w.frags[w.cur]? with | some f => f.quantum | none => 0
  { w with clause := none, pos := 0, yielded := false, stage := if q ≤ n ∨ w.yielded then .quantum else .ready }

/-- A call that takes the place of the vote (R118, R245). -/
def State.enterCall (s : State) (c : Ctx) (w : Wave) (k : Call) : State :=
  match s.entryOf c k.target with
  | .error e => s.fetchFault c { w with stage := .long } e k.target { cause := 0, pos := k.pos, atEnd := true }
  | .ok (h, f) =>
    let s := s.store none (s.areaOf w + 0xA00 + 16 * w.depth) (bvBytes 8 w.img ++ le 1 k.ret.val ++ List.replicate 7 0) false
    let b := BitVec.ofNat 8 h.entry
    let mask := match w.frags[w.cur]? with | some x => x.mask | none => 0
    let upd (m : Cells 8) : Cells 8 := csetAll m ((lanesOf mask).map fun l => (l, b))
    let w := w.setFrag w.cur fun x => { x with cp := f.first, state := f.state, blocks := f.blocks, quantum := min 255 (x.quantum + 1) }
    let w := { w with img := k.target, hdr := some h, blk := upd w.blk, regs := { w.regs with nblk := upd w.regs.nblk }
                      depth := w.depth + 1, call := none }
    s.settle (w.nextClause c.q)

/-- The end of a clause: every effect is due; a call, the vote, or the next line follows. -/
def State.endClause (s : State) (c : Ctx) (w : Wave) : State :=
  let (s, w) := s.flush w
  match w.call with
  | some k => s.enterCall c w k
  | none =>
    match w.clause with
    | none => s
    | some cl =>
      if cl.e then s.settle { w with stage := .vote }
      else
        let w := w.setFrag w.cur fun f =>
          { f with cp := f.cp + 128, quantum := min 255 (f.quantum + 1), held := none, past := none, yield := false }
        s.settle (w.nextClause c.q)

/-- Long-latency work that must have completed before a wave goes on at a position (R127, R306). -/
def State.waitsLong (s : State) (w : Wave) (q : Nat) : Bool :=
  w.pend.any (fun p => p.waits && decide (p.due ≤ q))
  || (decide (w.count ≤ q) && (w.pend.any Pend.waits || s.busy w))

/-- The position after the one just issued; re-issued positions come first, then cont (R135). -/
def Wave.nextPos (w : Wave) : Nat :=
  match w.replay with
  | [] => w.pos + 1
  | [_] => w.cont
  | _ :: p :: _ => p

/-- A wave goes on after an instruction (R126, R127, R217). -/
def State.advance (s : State) (c : Ctx) (w : Wave) : State :=
  let q := w.nextPos
  let (s, w) := s.land w q
  let left := w.replay.tail
  let w := { w with pos := q, replay := left, redo := if left = [] then none else w.redo, reason := 0, stepped := true }
  let w := w.setFrag w.cur fun f => { f with held := none, past := none, yield := false }
  if s.waitsLong w q then s.settle { w with stage := .long, reason := 6 }
  else if w.count ≤ q then s.endClause c w
  else s.settle { w with stage := .issue }

/-! ### Issuing an instruction (R222, R236) -/

/-- What a meaning needs checked before it acts. -/
structure Spec where
  /-- Class; none for NOP (R220). -/
  cls : Option Cls
  slot : Slot
  /-- Latency of a Fixed instruction. -/
  lat : Nat := 4
  /-- Registers read and written, by number. -/
  reads : List Nat := []
  writes : List Nat := []
  /-- Lane-wise: with no active lane it changes nothing and raises no fault (R117). -/
  lanewise : Bool := false
  /-- It accesses memory: a trap names in fml the lanes whose access did not perform, and a re-issue acts in those (R155, R156). -/
  mem : Bool := false
  /-- A compress-store's kept set: its other lanes have no access (R287). -/
  keep : Option (Env → DWord) := none
  /-- It acts for every lane of the fragment (R236). -/
  always : Bool := false
  /-- Checks of the instruction's fields against the image and of its place (R222 checks 6 and 7). -/
  chk : Env → Option Trap := fun _ => none

/-- ILLOP with a detail. -/
def illop (detail : Nat) : Trap := { cause := causeIllop, detail }

/-- A write or read that checked mode rejects at a position: the position of the offending write (R128). (DEDUCED: log 62) -/
def timingBad (pend : List Pend) (pos : Nat) (reads writes : List Nat) : Option Nat :=
  pend.findSome? fun p =>
    if p.due ≤ pos then none
    else if p.dsts.any (fun r => r != 240 && reads.contains r) then some p.pos
    else if p.long && (p.dsts ++ p.srcs).any (fun r => r != 240 && writes.contains r) then some pos
    else none

/-- The registers that checked mode sees an instruction read: a lane-wise one reads exm (R255). -/
def Spec.seen (p : Spec) : List Nat := if p.lanewise then 246 :: p.reads else p.reads

/-- An access to v64 to v127 by a wave that does not hold its latch (R124). -/
def Env.latchBad (e : Env) (regs : List Nat) : Bool :=
  regs.any (fun r => decide (64 ≤ r ∧ r < 128)) && (e.t.latch e.w.pair).owner != some e.w.key

/-- The lanes a vector memory instruction acts in: the active ones, and on a re-issue those of the frame's fml (R156, R284). -/
def Env.memLanes (e : Env) (k : Slot) : List Nat :=
  match e.w.redo with
  | some m => (e.lanes k).filter (bit m)
  | none => e.lanes k

/-- The lanes a scalar memory instruction counts as issued by (R117, R166). -/
def Env.slotMask (e : Env) (k : Slot) : DWord := maskList (e.inLanes k)

/-- Lanes whose access a trap at issue keeps from performing (R155). -/
def Spec.fml (p : Spec) (e : Env) : DWord :=
  if !p.mem then 0
  else if p.lanewise then maskList (e.memLanes p.slot) &&& (match p.keep with | some f => f e | none => ones64)
  else e.slotMask p.slot

/-- The kept set that a trap at issue brings with it (R287). -/
def Spec.kept (p : Spec) (e : Env) : List (Nat × DWord) := match p.keep with | some f => [(e.w.pos, f e)] | none => []

/-- A lane is there for the instruction to act in (R117, R156, R236). -/
def Spec.acts (p : Spec) (e : Env) : Bool :=
  p.always || (if !p.lanewise then e.anylane p.slot else !(if p.mem then e.memLanes p.slot else e.lanes p.slot).isEmpty)

/-- What becomes of an instruction at its position. -/
inductive Gate where
  | none
  | trap (e : Env) (t : Trap)
  | skip (e : Env)
  | go (e : Env)

/-- The checks at issue, in order (R117, R222, R236): class, slot, fields and place; then whether it acts; then checked timing
and the latch. (DEDUCED: log 53) (DESIGN CHOICE: log 137) -/
def gate (p : Spec) (s : State) : Gate :=
  match s.env? with
  | none => .none
  | some e =>
    let trap (t : Trap) : Gate := .trap e { t with fml := p.fml e, kept := p.kept e }
    if p.cls.any (· != e.cl.cls) then trap (illop 2)
    else if e.f.blocks.length ≤ p.slot.val then trap (illop 1)
    else match p.chk e with
      | some t => trap t
      | none =>
        if !p.acts e then .skip e
        else match (if e.checked then timingBad e.w.pend e.w.pos p.seen p.writes else none) with
          | some q => trap { cause := causeTiming, fword := BitVec.ofNat 32 q }
          | none => if e.latchBad (p.reads ++ p.writes) then trap { cause := causeLatch } else .go e

/-- The trap of an instruction at its position. -/
def Env.trap (e : Env) (t : Trap) : State := e.s.raise e.w { t with pos := e.w.pos }

/-- An instruction retires with an entry of pending effects. -/
def Env.retire (e : Env) (p : List Pend) : State :=
  e.s.advance e.c { e.w with pend := e.w.pend ++ p }

/-- An instruction with its effects due `lat` positions later (R126). -/
def Env.fixed (e : Env) (lat : Nat) (writes : List Nat) (effs : List Eff) : State :=
  e.retire [{ pos := e.w.pos, due := e.w.pos + lat, effs, dsts := writes }]

/-- A wait in place: nothing changes but the stall reason, and a single step ends blocked (R146, R212). -/
def Env.hold (e : Env) (reason : Nat) : State :=
  let w := { e.w with reason }
  match w.stepping with
  | none => e.s.putWave w
  | some _ =>
    let k := e.s.core w.coreNo
    (e.s.putWave { w with stepping := none, stepBlocked := true }).putCore { k with stepDone := true }

/-- What an instruction that only writes registers comes to. -/
inductive Res where
  /-- Effects, and further register numbers written (fflags, amax). -/
  | ok (effs : List Eff) (more : List Nat)
  | trap (t : Trap)
  | wait (reason : Nat)
  /-- It has read a poisoned line: the source of the error, and the line (R11, R24). -/
  | ecc (src : Nat) (line : Option Nat)

/-- An instruction issued: the checks of its Spec, then its action. -/
def run (p : Spec) (act : Env → State) (s : State) : Host.Outcome State Fault Refusal :=
  match gate p s with
  | .none => .fault .noWave
  | .trap e t => .next (e.trap t)
  | .skip e => .next (e.retire [])
  | .go e => .next (act e)

/-- A Fixed instruction that only writes registers. -/
def regOp (p : Spec) (body : Env → Res) (s : State) : Host.Outcome State Fault Refusal :=
  run p (fun e => match body e with
    | .ok effs more => e.fixed p.lat (p.writes ++ more) effs
    | .trap t => e.trap t
    | .wait r => e.hold r
    | .ecc n k => e.s.strike e.w n k { cause := causeEcc, pos := e.w.pos }) s

/-- Lookahead of a long-latency instruction; re-issued it is 0 (R135). -/
def Env.la (e : Env) (la : La) : Nat := if e.w.replay = [] then la.val else 0

/-! ### Handles and tags (R145 to R148) -/

/-- What a tag holds. -/
def Team.tag (t : Team) (k : Nat) : TagSt := lget t.tagst k {}

/-- Class, tag and generation of a handle (R145). -/
def hClass (h : Word) : Nat := (h.extractLsb' 28 4).toNat
def hTag (h : Word) : Nat := (h.extractLsb' 22 6).toNat
def hGen (h : Word) : BitVec 22 := h.extractLsb' 0 22

/-- What interpreting a value as a handle raises (R147): ILLOP for a reserved class, then PROT for a tag at or above ntags. -/
def Launch.handleBad (l : Launch) (h : Word) : Option Trap :=
  if h = 0 then none
  else if hClass h ≠ 1 ∧ hClass h ≠ 3 then some (illop 1)
  else if l.p.ntags ≤ hTag h then some { cause := causeProt }
  else none

/-- A handle is complete (R98, R147). -/
def Team.complete (t : Team) (h : Word) : Bool :=
  h == 0 || hGen h != (t.tag (hTag h)).gen || !(t.tag (hTag h)).busy

/-- What reading h registers as values comes to: a trap, a wait, or nothing (R147). -/
def Env.hRead (e : Env) (l : List SSrc) : Option Res :=
  l.findSome? fun x => match x with
    | .h n =>
      let h := cget e.r.h n.val
      match e.l.handleBad h with
      | some t => some (.trap t)
      | none => if e.t.complete h then none else some (.wait 1)
    | _ => none

end Sys2Proof.Machine
end

