-- ==== Sys2Proof/Machine/Logs.lean ====
section
/-! DEFINITION. Staging logs (R79 to R86, R173): their entries, the team's own view of them, and their application. -/

namespace Sys2Proof.Machine

/-! ### Entries -/

/-- Bytes of a masked 32-byte block, with their addresses. -/
def blockBytes (block : Nat) (mask : BitVec 32) (bytes : List Byte) : List (Nat × Byte) :=
  bytes.zipIdx.filterMap fun p => if mask.getLsbD p.2 then some (block * 32 + p.2, p.1) else none

/-- A log entry applied to a memory (R80, R81). -/
def LogE.onMem (m : List Host.Cell) : LogE → List Host.Cell
  | .write block mask bytes _ _ _ => (blockBytes block mask bytes).foldl (fun m p => cset (w := 8) m p.1 p.2) m
  | .atomic op pa size x _ _ => mput m pa (leBytes size (op.apply size (BitVec.ofNat 64 (mnat m pa size)) x 0).toNat)

/-- Memory as a team's own loads see it (R80). -/
def Team.view (t : Team) (m : List Host.Cell) : List Host.Cell := t.log.foldl LogE.onMem m

/-- Bytes of one access overlaid in a 32-byte block entry. -/
def LogE.overlay (e : LogE) (off : Nat) (b : List Byte) : LogE :=
  match e with
  | .write block mask bytes cmp parts tag =>
    .write block (mask ||| (BitVec.ofNat 32 (2 ^ b.length - 1) <<< off))
      (bytes.zipIdx.map fun p => if off ≤ p.2 then (b[p.2 - off]?).getD p.1 else p.1) cmp (parts ++ [(off, b.length)]) tag
  | x => x

/-- Bytes within one 32-byte block merged into the entries of one instruction or copy step, or appended (R81). -/
def logBlock (tag : LogTag) (es : List LogE) (block off : Nat) (b : List Byte) (cmp : Bool) : List LogE :=
  let here (e : LogE) : Bool := match e with | .write k _ _ _ _ _ => k == block | _ => false
  if es.any here then es.map fun e => if here e then e.overlay off b else e
  else es ++ [(LogE.write block 0 (List.replicate 32 0) cmp [] tag).overlay off b]

/-- Bytes at an address split into blocks and merged; fuel counts bytes. -/
def logBytes (tag : LogTag) : Nat → List LogE → Nat → List Byte → Bool → List LogE
  | 0, es, _, _, _ => es
  | fuel + 1, es, pa, b, cmp =>
    if b.isEmpty then es
    else
      let k := 32 - pa % 32
      logBytes tag fuel (logBlock tag es (pa / 32) (pa % 32) (b.take k) cmp) (pa + k) (b.drop k) cmp

/-- The entries of one instruction or step: write entries for the bytes given, in order. -/
def logWrites (l : List (Nat × List Byte × Bool)) (tag : LogTag := {}) : List LogE :=
  l.foldl (fun es p => logBytes tag p.2.1.length es p.1 p.2.1 p.2.2) []

/-- Entries that a team's log can hold (R51, R81, R86). -/
def Launch.logCap (l : Launch) : Nat := l.p.logsz * 64

/-- An entry with the number of its first write. -/
def LogE.numbered (e : LogE) (n : Nat) : LogE :=
  match e with
  | .write b m x c p t => .write b m x c p { t with id := n }
  | .atomic o pa k x c t => .atomic o pa k x c { t with id := n }

/-- Entries numbered in order, from a number on, with the next. -/
def numberLog (n : Nat) : List LogE → List LogE × Nat
  | [] => ([], n)
  | e :: t =>
    let r := numberLog (n + e.units.length) t
    (e.numbered n :: r.1, r.2)

/-- Entries added to a team's log. -/
def State.addLog (s : State) (key : Nat) (es : List LogE) : State :=
  match s.team? key with
  | some t =>
    if es.isEmpty then s
    else
      let r := numberLog s.written es
      { s.putTeam { t with log := t.log ++ r.1 } with written := r.2 }
  | none => s

/-! ### Application (R81, R173) -/

/-- What the writes of an entry are when it is applied: the issuing wave's, on its vec path (R164). -/
def LogE.event (e : LogE) (t : Team) (after : List Nat) (rels : List Release) : Write :=
  { id := 0, wave := e.tag.wave, core := t.core.getD 0, pa := 0, old := [], launch := t.launch, cmd := e.tag.cmd, after, rels }

/-- Bytes of an applied entry written in one of its units. -/
def State.storeUnit (s : State) (ev : Write) (id : Nat) (p : Nat × Nat) (b : List Byte) (cmp : Bool) : State :=
  s.storeWith none p.1 b cmp [s.asWrite ev id p] s.written

/-- An entry performed in memory by the Threshold unit (R81). -/
def LogE.perform (ev : Write) (s : State) (e : LogE) : State :=
  match e with
  | .write block _ bytes cmp _ tag =>
    e.units.zipIdx.foldl (fun s p => s.storeUnit ev (tag.id + p.2) p.1 ((bytes.drop (p.1.1 - 32 * block)).take p.1.2) cmp) s
  | .atomic op pa size x cmp tag =>
    s.storeUnit { ev with atomic := true } tag.id (pa, size)
      (leBytes size (op.apply size (BitVec.ofNat 64 (mnat s.mem pa size)) x 0).toNat) cmp

/-- An error that an entry meets: a poisoned line under an atomic's word, or a peer that is not reached (R11, R26, R33). -/
def State.logError (s : State) (e : LogE) : Option (Nat × Option Nat) :=
  e.units.findSome? fun p =>
    match s.peerChk p.1 (Config.peerAnswers s.nondet) with
    | some _ => some (8, none)
    | none => match e with
      | .atomic _ pa size _ _ _ => (match readAt s.poison s.mem pa size with
        | .error (.ecc n k) => some (n, k)
        | _ => none)
      | _ => none

/-- An entry applied. One that meets an error raises ECC in the wave that issued it, or in the team's waves, as for a team that has gone
direct; of a team that has ended it writes the record alone. At a poisoned line its atomic is not performed, at a peer it may have been (R11,
R24, R33). (DESIGN CHOICE: log 156) -/
def State.applyEntry (s : State) (t : Team) (ev : Write) (e : LogE) : State :=
  let s := { s.sendFlits ((e.units.map Prod.fst).take 1) with nondet := s.nondet + 1 }
  match s.logError e with
  | none => e.perform ev s
  | some (src, line) =>
    let done := if src = 8 ∧ Config.peerPerformed s.nondet then e.perform ev s else s
    match done.wave? e.tag.wave with
    | some w =>
      if src = 8 then done.putWave (w.pendTrap causeEcc (match s.launch? t.launch with | some l => eccCode t l 8 none | none => 8))
      else (done.putTeam { t with direct := true }).strike w src line { cause := causeEcc } false
    | none =>
      let r : FaultRec := match s.launch? t.launch with
        | some l => { key := s.fresh, kind := 5, code := eccCode t l src line, ctx := t.ctx, team := t.tix, queue := l.queue, launchid := l.p.id }
        | none => { key := s.fresh, kind := 5, code := src, ctx := t.ctx, team := t.tix }
      { done.report r with fresh := s.fresh + 1 }

/-- Entries of a log performed in order, each after those before it; one of a .rel access is a release to every agent of what came before it
(R81, R173). `known` are the writes before. -/
def State.performLog (s : State) (t : Team) : List Known → List LogE → State
  | _, [] => s
  | known, e :: es =>
    let rels := e.tag.rels.map fun r => if e.tag.rel ∧ r.obs = 0xFF then { r with known := joinKnown r.known known } else r
    (s.applyEntry t (e.event t (known.map (·.id)) rels) e).performLog t (known ++ loggedIds [e]) es

/-- A team's waves know the writes of its log (R80). -/
def State.teamKnows (s : State) (t : Team) : State :=
  if t.log.isEmpty then s
  else { s with waves := s.waves.map fun w => if w.team == t.key then { w with known := w.known ++ loggedIds t.log } else w }

/-- The writes that come before a log's: of an ORDERED team, those of every team below it (R84, R85). -/
def State.beforeLog (s : State) (t : Team) : List Known :=
  match s.launch? t.launch with | some l => l.known | none => []

/-- A log applied: its entries in order; it is then empty (R81). -/
def State.applyLog (s : State) (t : Team) : State :=
  ((s.performLog t (s.beforeLog t) t.log).teamKnows t).putTeam { t with log := [] }

/-- A team goes direct: its log is applied, and its later writes perform directly (R84, R86). -/
def State.goDirect (s : State) (t : Team) : State :=
  ((s.performLog t (s.beforeLog t) t.log).teamKnows t).putTeam { t with log := [], direct := true, wantDirect := false }

end Sys2Proof.Machine
end

