-- ==== Sys2Proof/Machine/Access.lean ====
section
/-! DEFINITION. Memory accesses of waves and engines: checks (R155), effects (R286 to R293), commit modes (R79 to R86), faults
and their policies (R156 to R158), watchpoints (R207, R208). -/

namespace Sys2Proof

open Machine

namespace Machine

/-! ### Quad stops and watchpoints (R207 to R210) -/

/-- A quad stop raised; one that arrives during a stop only counts (R209). (DESIGN CHOICE: log 68) -/
def State.quadStop (s : State) (g kind num pos slot path : Nat) (addr : DWord) (ctx : Nat) : State :=
  let q := s.quad g
  if q.stopped then s.putQuad { q with missed := min (q.missed + 1) 0xFFFFFFFF }
  else
    let s := s.putQuad { q with stopped := true, kind, num, pos, slot, path, tick := s.tick, addr }
    s.trace (4 * g) 0x07 5 ctx (kind + num * 4) []

/-- An access as watchpoints see it: a scratchpad address in memory, or a virtual address. -/
structure Seen where
  sp : Bool
  addr : Nat
  size : Nat
  rd : Bool
  wr : Bool
  deriving DecidableEq, Repr

/-- Offset of watchpoint n of quad g (R207). -/
def watchOff (g n : Nat) : Nat := 0x24_0000 + 0x100 * g + 0x20 * n

/-- The accesses that a watchpoint matches (R208). -/
def State.watchHits (s : State) (g n ctx : Nat) (l : List Seen) : List Seen :=
  let cfg := cget s.ctl (watchOff g n + 0x10)
  let a := (cget s.ctl (watchOff g n)).toNat
  let len := (cget s.ctl (watchOff g n + 8)).toNat
  let ty := (cfg.extractLsb' 0 2).toNat
  if ty = 0 ∨ ty = 3 ∨ (cfg.getLsbD 7 ∧ (cfg.extractLsb' 8 10).toNat ≠ ctx) then []
  else l.filter fun x =>
    ((x.rd && cfg.getLsbD 2) || (x.wr && cfg.getLsbD 3))
    && (if ty = 1 then
          let b := spAddr (4 * g + (cfg.extractLsb' 5 2).toNat) a
          x.sp && decide (b < x.addr + x.size ∧ x.addr < b + 8)
        else !x.sp && decide (a < x.addr + x.size ∧ x.addr < a + len))

/-- Accesses of an agent of a core's quad, from a path (0 vec, 1 mtx, 2 cpy): hits are counted, and a match raises a quad stop
or, from a vec path with action 1, answers the number of a WATCH trap (R208). -/
def State.watch (s : State) (core slot path ctx : Nat) (l : List Seen) : State × Option Nat :=
  let g := quadOf core
  if (List.range 4).all (fun n => cget s.ctl (watchOff g n + 0x10) == 0) then (s, none)
  else
    (List.range 4).foldl (fun (a : State × Option Nat) n =>
      match a.1.watchHits g n ctx l with
      | [] => a
      | x :: t =>
        let q := a.1.quad g
        let s := a.1.putQuad { q with hits := lset q.hits n (min (lget q.hits n 0 + t.length + 1) 0xFFFFFFFF) }
        if (cget s.ctl (watchOff g n + 0x10)).getLsbD 4 ∧ path = 0 then
          (s, match a.2 with | some k => some k | none => some n)
        else
          let far := x.sp && x.addr / 2 ^ 20 % 2 ^ 20 != core
          (s.quadStop g 1 n (posOf core) (if path = 0 then slot else 0) (if path = 0 ∧ far then 3 else path)
            (BitVec.ofNat 64 (if x.sp then x.addr % 2 ^ 20 else x.addr)) ctx, a.2)) (s, none)

/-! ### Who accesses -/

/-- The agent of an access: its core, context, team and launch, and the lanes it counts as issued by. -/
structure Actor where
  core : Nat
  c : Ctx
  t : Team
  l : Launch
  who : Option (Nat × DWord)
  /-- Global writes enter the log (R79). -/
  staged : Bool
  /-- Key of the issuing wave, and the path: 0 vec, 1 mtx, 2 cpy (R164). -/
  key : Nat := 0
  path : Nat := 0
  /-- What comes before its reads, and what its lanes have seen. -/
  known : List Known := []
  saw : List (DWord × Nat) := []
  /-- Number of its command. -/
  cmd : Option Nat := none
  /-- The releases that its stores are (R168). -/
  rels : List Release := []
  /-- Its access is a release: the first of those (R173). -/
  rel : Bool := false
  /-- The peer request that it goes on with (R35). -/
  via : Option PeerWait := none

/-- The lanes that it counts as issued by. -/
def Actor.lanes (a : Actor) : DWord := (a.who.getD (0, 0)).2

/-- It as a reader (R169). -/
def Actor.reader (a : Actor) : Reader :=
  { wave := a.key, lanes := a.lanes, core := a.core, path := a.path, known := a.known, saw := a.saw, cmd := a.cmd }

/-- Numbers of the writes that come before its own: those that it knows on its path, and those that its lanes have seen. -/
def Actor.before (a : Actor) : List Nat :=
  ((a.known.filter fun k => (k.paths ||| k.here).getLsbD a.path).map (·.id)) ++ (a.saw.filter fun x => x.1 &&& a.lanes != 0).map (·.2)

/-- Its writes (R169). -/
def Actor.event (a : Actor) (atomic : Bool) : Write :=
  { id := 0, wave := a.key, lanes := a.lanes, core := a.core, path := a.path, pa := 0, old := [], launch := a.l.key, atomic
    cmd := a.cmd, rels := a.rels, after := a.before }

/-- What its writes to the log bring with them: a .rel access becomes a release to every agent (R173). -/
def Actor.logTag (a : Actor) : LogTag :=
  { wave := a.key, cmd := a.cmd, rel := a.rel
    rels := a.rels.zipIdx.map fun p => if a.rel && p.2 == 0 then { p.1 with obs := 0xFF } else p.1 }

/-- The permission an access needs (R150, R151). -/
def AccKind.need : AccKind → Need
  | .load | .gld => .rd
  | .store | .gst => .wr
  | .atomic _ | .ldl | .stc => .atom

/-- Operations that a host can perform (R290). -/
def hostOp : AOp → Bool
  | .add => true | .xchg => true | .cas => true | _ => false

/-- Where an access falls: pieces in memory (R139, R140, R149, R155). `size` aligned, `plain` not strong. -/
def Actor.place (a : Actor) (s : State) (sp : Space) (need : Need) (plain aligned : Bool) (va : DWord) (n : Nat) (answers : Bool) :
    Except (Flt × DWord) (List Piece) :=
  if aligned ∧ va.toNat % n ≠ 0 then .error (.align, va)
  else match sp with
    | .gm =>
      match s.pieces a.c need plain (n + 1) va n with
      | .error f => .error f
      | .ok ps =>
        match ps.findSome? fun p => s.peerChk p.pa answers a.via with
        | some f => .error (f, va)
        | none => .ok ps
    | sp =>
      match s.spAt a.t a.l a.core sp va n with
      | .error f => .error (f, va)
      | .ok x => .ok [.mem x n false]

/-- A memory with the team's log over it (R80). -/
def Actor.logged (a : Actor) (s : State) (m : List Host.Cell) : List Host.Cell :=
  match s.team? a.t.key with
  | some t => if t.log.isEmpty then m else t.view m
  | none => m

/-- Memory as the agent's loads see it (R80, R169). -/
def Actor.view (a : Actor) (s : State) : List Host.Cell := a.logged s (s.seenBy a.reader)

/-- Memory as an access at the byte's home sees it (R170). -/
def Actor.home (a : Actor) (s : State) : List Host.Cell := a.logged s s.mem

/-- Bytes read at a virtual or scratchpad address by an engine or a wide access. -/
def Actor.read (a : Actor) (s : State) (sp : Space) (va : DWord) (n : Nat) : Except (Flt × DWord) (List Byte) :=
  match a.place s sp .rd true false va n (Config.peerAnswers s.nondet) with
  | .error f => .error f
  | .ok ps => match readPieces s.poison (a.view s) ps with
    | .error f => .error (f, va)
    | .ok b => .ok b

/-- What an access stored: in memory, or as writes for the team's log. -/
structure Stored where
  s : State
  log : List (Nat × List Byte × Bool)

/-- Pieces stored: into memory, or collected for the log when the space is global and the agent is staged. -/
def Actor.put (a : Actor) (x : Stored) (sp : Space) (ps : List Piece) (b : List Byte) (atomic : Bool := false) : Stored :=
  let l := storePieces ps b
  if a.staged ∧ sp = .gm then { x with log := x.log ++ l }
  else { x with s := l.foldl (fun s p => s.storeAs (some (a.event atomic)) a.who p.1 p.2.1 p.2.2) x.s }

/-! ### One vector or scalar access (R286 to R293) -/

/-- The link set of a lane (R292). -/
def Wave.linkOf (w : Wave) (l : Nat) : Link := (w.links.find? fun k => k.lane == l).getD ⟨l, .open_, []⟩

/-- A link set put back. -/
def Wave.putLink (w : Wave) (k : Link) : Wave := { w with links := lput w.links (fun x => x.lane == k.lane) k }

/-- A word linked (R292). -/
def Link.add (k : Link) (x : LinkWord) : Link :=
  if k.st = .cleared ∨ k.words.contains x then k
  else if k.words.length = 4 ∨ k.words.any (fun y => decide (x.pa < y.pa + y.size ∧ y.pa < x.pa + x.size)) then { k with st := .cleared }
  else { k with words := k.words ++ [x] }

/-- Registers that the words of a link set need (R293). -/
def Link.need (k : Link) : Nat := k.words.foldl (fun n x => n + x.size / 4) 0

/-- Bytes for the words of a link set, from register values in order. -/
def Link.stores (k : Link) (vals : List Word) : List (LinkWord × List Byte) :=
  (k.words.foldl (fun (a : List (LinkWord × List Byte) × List Word) x =>
    (a.1 ++ [(x, ((a.2.take (x.size / 4)).map (bvBytes 4)).flatten)], a.2.drop (x.size / 4))) ([], vals)).1

/-- What one access comes to: the state, log entries of an atomic, and the value returned. -/
structure Done where
  x : Stored
  entries : List LogE
  val : List Byte
  /-- Writes that its lanes have now seen (R166), and releases whose values it has read (R168). -/
  saw : List (DWord × Nat) := []
  heard : List Release := []

/-- What a read of pieces has seen and read: at the byte's home, every write to them (R170). -/
def Actor.read? (a : Actor) (s : State) (home : Bool) (ps : List Piece) : List (DWord × Nat) × List Release :=
  if s.hist.isEmpty then ([], [])
  else
    (ps.flatMap fun p =>
      if home then (s.hist.filter fun e => meets e.pa e.old.length p.pa p.size && !a.reader.knows e).map fun e => (a.lanes, e.id)
      else s.sawOf s.nondet a.reader p.pa p.size,
     ps.flatMap fun p => s.relsOf s.nondet a.reader home p.pa p.size)

/-- STC of one lane (R293). -/
def Actor.stc (a : Actor) (s : State) (key lane : Nat) (vals : List Word) (answers : Bool) : Except (Flt × DWord) (State × Nat) :=
  match s.wave? key with
  | none => .ok (s, 3)
  | some w =>
    let k := w.linkOf lane
    let clear (s : State) : State := match s.wave? key with
      | some w => s.putWave (w.putLink ⟨lane, .open_, []⟩)
      | none => s
    if k.st = .cleared then .ok (clear s, 3)
    else if k.words = [] ∨ k.need ≠ vals.length then .ok (clear s, 2)
    else if k.st = .conflict then .ok (clear s, 1)
    else
      let go : Except (Flt × DWord) State := (k.stores vals).foldl (fun r p =>
        match r with
        | .error f => .error f
        | .ok s =>
          match a.place s (if p.1.sp then .sp else .gm) .atom true true p.1.va p.1.size answers with
          | .error f => .error f
          | .ok ps => .ok (a.put ⟨s, []⟩ .sp ps p.2 true).s) (.ok s)
      match go with
      | .error f => .error f
      | .ok s => .ok (clear s, 0)

/-- The frequency table that a descriptor needs: none but for ROTARY (R325). -/
def Actor.table (a : Actor) (s : State) (d : BitVec 256) : Except (Flt × DWord) (List Byte) :=
  if gKind d = 5 then a.read s .gm (gTabVa d) 1024 else .ok []

/-- One access performed (R286, R288, R289, R291, R325). -/
def Actor.access (a : Actor) (x : Stored) (op : MemOp) (q : Acc) (answers : Bool) : Except (Flt × DWord) Done :=
  let s := x.s
  let done (home : Bool) (ps : List Piece) (d : Done) : Done :=
    let y := a.read? s home ps
    { d with saw := y.1, heard := y.2 }
  let plain := op.ord.order == .plain
  match q.kind with
  | .stc =>
    match a.stc s ((a.who.getD (0, 0)).1) q.lane (lget op.vals q.lane []) answers with
    | .error f => .error f
    | .ok (s, st) => .ok { x := { x with s }, entries := [], val := le 4 st }
  | kind =>
    match a.place s q.sp kind.need plain true q.va q.size answers with
    | .error f => .error f
    | .ok ps =>
      match kind with
      | .store => .ok { x := a.put x q.sp ps (leBytes q.size q.x.toNat), entries := [], val := [] }
      | .gst => .ok { x := a.put x q.sp ps ((lget op.vals q.lane []).map (bvBytes 4)).flatten, entries := [], val := [] }
      | .gld =>
        match readPieces s.poison (a.view s) ps with
        | .error f => .error (f, q.va)
        | .ok b => match a.table s (BitVec.ofNat 256 (leNat b)) with
          | .error f => .error f
          | .ok t => .ok (done false ps { x, entries := [], val := b ++ t })
      | .atomic o =>
        if (ps.any fun p => isHost p.pa) ∧ !hostOp o then .error (.prot, q.va)
        else match readPieces s.poison (a.home s) ps with
          | .error f => .error (f, q.va)
          | .ok b =>
            let old : DWord := BitVec.ofNat 64 (leNat b)
            if a.staged ∧ q.sp = .gm then
              let e := ps.filterMap fun p => match p with | .mem pa n cmp => some (LogE.atomic o pa n q.x cmp a.logTag) | _ => none
              .ok { x, entries := e, val := b }
            else
              let x := if o = .cas ∧ old.toNat ≠ q.x.toNat % 2 ^ (8 * q.size) then
                  (if a.rel then { x with s := x.s.note (a.event true) (ps.map fun p => (p.pa, p.size)) } else x)
                else a.put x q.sp ps (leBytes q.size (o.apply q.size old q.x q.y).toNat) true
              .ok (done true ps { x, entries := [], val := b })
      | .ldl =>
        match readPieces s.poison (a.home s) ps with
        | .error f => .error (f, q.va)
        | .ok b =>
          let pa := match ps with | p :: _ => p.pa | [] => 0
          let key := (a.who.getD (0, 0)).1
          let s := match s.wave? key with
            | some w => s.putWave (w.putLink ((w.linkOf q.lane).add ⟨q.sp != .gm, q.va, pa, q.size⟩))
            | none => s
          .ok (done true ps { x := { x with s }, entries := [], val := b })
      | _ =>
        match readPieces s.poison (a.view s) ps with
        | .error f => .error (f, q.va)
        | .ok b => .ok (done false ps { x, entries := [], val := b })

/-- What the accesses of an operation come to. -/
structure Perf where
  x : Stored
  entries : List LogE
  /-- Values returned, by lane. -/
  done : List (Acc × List Byte)
  /-- Accesses not performed, with why and for which address. -/
  bad : List (Acc × Flt × DWord)
  saw : List (DWord × Nat) := []
  heard : List Release := []

/-- The lanes that an access of an operation counts as issued by (R166, R292). -/
def MemOp.who (op : MemOp) (key : Nat) (q : Acc) : Option (Nat × DWord) := some (key, op.lanes ||| laneBit q.lane)

/-- All accesses of an operation, in order; a compress-store stops at the first that faults (R155, R158). (DESIGN CHOICE: log 57) -/
def Actor.perform (a : Actor) (key : Nat) (op : MemOp) (s : State) : Perf :=
  let answers := Config.peerAnswers s.nondet
  op.accs.foldl (fun p q =>
    if op.seq ∧ p.bad ≠ [] then
      { p with bad := p.bad ++ [(q, (match p.bad with | y :: _ => y.2.1 | [] => .page), q.va)] }
    else match ({ a with who := op.who key q }).access p.x op q answers with
      | .error (f, va) => { p with bad := p.bad ++ [(q, f, va)] }
      | .ok d =>
        -- an atomic entry of a log is seen by the later lanes of the same instruction (R80, R289)
        let x := if d.entries.isEmpty then d.x else { d.x with s := d.x.s.addLog a.t.key d.entries }
        { x, entries := p.entries ++ d.entries, done := p.done ++ [(q, d.val)], bad := p.bad
          saw := p.saw ++ d.saw, heard := p.heard ++ d.heard })
    { x := ⟨s, []⟩, entries := [], done := [], bad := [] }

/-- Little-endian value of bytes as a lane word. -/
def wordOf (b : List Byte) : Word := BitVec.ofNat 32 (leNat b)

end Machine

/-- A narrow load's value extended, with its tag (R286). -/
def LdTy.word (ty : LdTy) (b : List Byte) : Word :=
  let x := wordOf b
  match ty with
  | .tag _ => x
  | .n8 => x
  | .n16 => x
  | .s8 => (x.extractLsb' 0 8).signExtend 32
  | .s16 => (x.extractLsb' 0 16).signExtend 32

/-- Result tag of a load (R286). -/
def LdTy.resTag : LdTy → Tag
  | .tag t => t | .n8 => .n32 | .n16 => .n32 | .s8 => .s32 | .s16 => .s32

/-- Bytes a vector load reads. -/
def LdTy.bytes : LdTy → Nat
  | .tag _ => 4 | .n8 => 1 | .s8 => 1 | .n16 => 2 | .s16 => 2

/-- A scalar load's value (R286). -/
def SLdW.dword (w : SLdW) (b : List Byte) : DWord :=
  let x : DWord := BitVec.ofNat 64 (leNat b)
  match w with
  | .s8 => sext64 (x.extractLsb' 0 8)
  | .s16 => sext64 (x.extractLsb' 0 16)
  | .s32 => sext64 (x.extractLsb' 0 32)
  | _ => x

/-- Bytes of a scalar load. -/
def SLdW.bytes : SLdW → Nat
  | .n8 => 1 | .s8 => 1 | .n16 => 2 | .s16 => 2 | .n32 => 4 | .s32 => 4 | .b64 => 8

/-- Bytes of a scalar store. -/
def SStW.bytes : SStW → Nat
  | .b8 => 1 | .b16 => 2 | .b32 => 4 | .b64 => 8

/-- An access is a release (R167). -/
def Ord.isRel (o : Ord) : Bool := o.order == .rel || o.order == .ar

/-- An access is an acquire (R167). -/
def Ord.isAcq (o : Ord) : Bool := o.order == .acq || o.order == .ar

/-- Bytes of a vector store. -/
def VW.bytes : VW → Nat
  | .b32 => 4 | .b8 => 1 | .b16 => 2

namespace Machine

/-- The register effects of the values returned (R127, R286, R288, R291, R293). -/
def MemRes.effs (r : MemRes) (done : List (Acc × List Byte)) : List Eff :=
  let per (f : List Byte → Word) : List (Nat × Word) := done.map fun p => (p.1.lane, f p.2)
  match r with
  | .none => []
  | .vreg v ty => [.vrow v (per ty.word) ty.resTag]
  | .vold v tag => [.vrow v (per wordOf) tag]
  | .vpair v =>
    .vrow v (per fun b => wordOf (b.take 4)) .raw ::
      (if h : v.val + 1 < 128 then [.vrow ⟨v.val + 1, h⟩ (per fun b => wordOf (b.drop 4)) .raw] else [])
  | .sreg d w => done.map fun p => .sreg d (w.dword p.2)
  | .status v => [.vrow v (per wordOf) .n32]
  | .gen g => done.map fun p =>
    .gdesc g (BitVec.ofNat 256 (leNat (p.2.take 32)))
      (if p.2.length ≤ 32 then Option.none else some ((List.range 256).map fun k => wordOf ((p.2.drop (32 + 4 * k)).take 4)))

/-- An access as watchpoints see it (R208); STC's are its linked words, and a write that enters the log counts as a read too. -/
def Acc.seen (s : State) (a : Actor) (key : Nat) (q : Acc) (got : List Byte) : List Seen :=
  match q.kind with
  | .stc => match s.wave? key with
    | some w => (w.linkOf q.lane).words.map fun x => ⟨x.sp, if x.sp then x.pa else x.va.toNat, x.size, true, true⟩
    | none => []
  | _ =>
    let logged := a.staged && q.sp == .gm
    let rd := (q.kind != .store && q.kind != .gst) || logged
    let wr := q.kind != .load && q.kind != .ldl && q.kind != .gld
    let table : List Seen := if q.kind = .gld ∧ 32 < got.length then
      [⟨false, (gTabVa (BitVec.ofNat 256 (leNat (got.take 32)))).toNat, 1024, true, false⟩] else []
    (match q.sp with
    | .gm => ⟨false, q.va.toNat, q.size, rd, wr⟩
    | sp => ⟨true, (match s.spAt a.t a.l a.core sp q.va q.size with | .ok x => x | .error _ => 0), q.size, rd, wr⟩) :: table

/-! ### Issuing a memory instruction (R83, R84, R86, R127, R156 to R158) -/

/-- The vec path of a wave as it performs an operation (R164 to R168): its stores are what its fences made them, and a release of what came
before when the operation is one. -/
def State.vecActor (s : State) (w : Wave) (c : Ctx) (t : Team) (l : Launch) (ord : Ord) : Actor :=
  let rel := ord.isRel
  { core := w.coreNo, c, t, l, who := none, staged := l.p.mode != 0 && !t.direct, key := w.key, known := w.known, saw := w.saw, rel
    rels := (if rel then [{ core := w.coreNo, obs := ord.obs, known := passOn (s.released w) }] else []) ++ w.rels }

/-- The actor of an issuing wave's vec path. -/
def Env.actor (e : Env) (ord : Ord := ⟨.plain, 0⟩) : Actor := e.s.vecActor e.w e.c e.t e.l ord

/-- What a wave knows after an operation: an acquire brings what the releases it read had before them; what a plain load read waits for a
fence (R167, R168). -/
def Wave.after (w : Wave) (ord : Ord) (p : Perf) : Wave :=
  if p.saw.isEmpty && p.heard.isEmpty then w
  else if ord.isAcq then { w with saw := joinSaw w.saw p.saw, known := joinKnown w.known (acquired w.coreNo ord.obs p.heard) }
  else { w with saw := joinSaw w.saw p.saw, heard := joinRels w.heard p.heard }

/-- Access byte of a fault (R57): read, write or atomic, path vec. (DEDUCED: log 64) -/
def AccKind.code : AccKind → Nat
  | .load | .gld => 1
  | .store | .gst => 2
  | .atomic _ | .ldl | .stc => 4

/-- Addresses in global memory that an operation names. -/
def MemOp.globals (op : MemOp) : List DWord := (op.accs.filter fun q => q.sp == .gm && q.kind != .stc).map (·.va)

/-- The requests of an operation to peers, by physical address, but for the one that it goes on with (R28, R32, R35); what enters the log leaves as
the log is applied. -/
def Actor.peers (a : Actor) (s : State) (op : MemOp) : List Nat :=
  if s.links.isEmpty then []
  else ((op.accs.filter fun q => !(a.staged && q.kind.code == 2)).flatMap fun q =>
    match a.place s q.sp q.kind.need (op.ord.order == .plain) true q.va q.size true with
    | .ok ps => ps.map Piece.pa
    | .error _ => []).filter fun pa => !a.via.any (·.serves pa)

/-- Where a piece stands in memory, and its bytes. -/
def Piece.span : Piece → Nat × Nat
  | .mem pa n _ => (pa, n)
  | .conv pa _ st _ => (pa, st.width / 8)
  | .cbv idx _ _ _ _ _ => (idx, 2)

/-- Where an access falls: addresses in memory with their bytes, or, while its page has no translation, its place in the page (`true`). -/
def Actor.spots (a : Actor) (s : State) (q : Acc) : Bool × List (Nat × Nat) :=
  match q.kind, a.place s q.sp q.kind.need true false q.va q.size true with
  | .stc, _ => (false, match s.wave? a.key with | some w => (w.linkOf q.lane).words.map fun x => (x.pa, x.size) | none => [])
  | _, .ok ps => (false, ps.map Piece.span)
  | _, .error _ => if q.sp = .gm then (true, [(q.va.toNat, q.size)]) else (false, [])

/-- Two accesses touch a byte: one without a translation may touch any that has its place in a page (R166). (DESIGN CHOICE: log 44) -/
def spotsMeet (x y : Bool × List (Nat × Nat)) : Bool :=
  x.2.any fun p => y.2.any fun q =>
    if x.1 || y.1 then meets (p.1 % 4096) p.2 (q.1 % 4096) q.2 else meets p.1 p.2 q.1 q.2

/-- Program order puts an access of one operation before one of a later: one lane's to the same byte (R166). -/
def Actor.sameByte (a : Actor) (s : State) (x y : MemOp) (p q : Acc) : Bool :=
  (p.lane == q.lane || bit y.lanes p.lane || bit x.lanes q.lane) && spotsMeet (a.spots s p) (a.spots s q)

/-- The loads of a wave that may still read a later write once an operation has been issued: a release fixes what each has read, and an access of
one of their lanes to the same byte fixes its own (R166, R167); a plain load whose values are not due at once joins them (R127). -/
def Actor.lateAfter (a : Actor) (s : State) (l : List Late) (op : MemOp) (done : List Acc) (due : Bool) : List Late :=
  let open_ := if op.ord.isRel then [] else
    (l.map fun x => { x with op := { x.op with accs := x.op.accs.filter fun p => !op.accs.any (a.sameByte s x.op op p) } }).filter
      fun x => !x.op.accs.isEmpty
  let mine := done.filter fun q => q.kind == .load
  if due || op.ord.order != .plain || mine.isEmpty then open_ else open_ ++ [{ op := { op with accs := mine }, known := a.known }]

/-- What an operation leaves behind beside its effects: log entries, translations in a TLB, flits of its requests, and what the wave has
seen. -/
def Actor.behind (a : Actor) (op : MemOp) (p : Perf) : State :=
  let s := p.x.s.addLog a.t.key (logWrites p.x.log a.logTag)
  let logs := !p.x.log.isEmpty || !p.entries.isEmpty
  let s := (s.fillTlb a.c op.globals).sendFlits (a.peers s op)
  let s := { s with nondet := s.nondet + 1 }
  match s.wave? a.key with
  | some w => s.putWave { w.after op.ord p with logged := w.logged || logs }
  | none => s

/-- The accesses of an operation that perform directly in a STAGED or ORDERED launch and take the team direct (R83, R84): a
returning atomic, one with .acq or .ar, LDL and STC, in any space. -/
def MemOp.takesDirect (op : MemOp) : Bool :=
  op.accs.any fun q => match q.kind with
    | .atomic _ => !op.nr || op.ord.order == .acq || op.ord.order == .ar
    | .ldl => true
    | .stc => true
    | _ => false

/-- The team of an instruction wants to go direct at the Threshold position; the instruction waits (R84, R86). -/
def Env.waitDirect (e : Env) : State :=
  ({ e with s := e.s.putTeam (e.t.want e.s.tick) }).hold 12

/-- The pages that accesses wait on, in order. -/
def badPages (bad : List (Acc × Flt × DWord)) : List (Nat × Flt × DWord) :=
  bad.foldl (fun l p => if l.any (fun x => x.1 == pageOf p.2.2 && x.2.1 == p.2.1) then l else l ++ [(pageOf p.2.2, p.2.1, p.2.2)]) []

/-- The peer request of an access that waits: the one it goes on with, or one that it sends now. -/
def State.peerWait (s : State) (c : Ctx) (need : Need) (va : DWord) (via : Option PeerWait) : PeerWait :=
  match s.pieces c need true 1 va 1 with
  | .ok (p :: _) => if via.any (·.serves p.pa) then via.getD (s.peerDue p.pa) else s.peerDue p.pa
  | _ => via.getD (s.peerDue 0)

/-- Accesses that wait become stalls, one for each page, or one for a compress-store (R157, R158). (DEDUCED: log 38) -/
def State.stallAccs (s : State) (c : Ctx) (key : Nat) (op : MemOp) (bad : List (Acc × Flt × DWord))
    (via : Option PeerWait := none) (known : List Known := []) : State :=
  let groups := if op.seq then (badPages bad).take 1 else badPages bad
  groups.foldl (fun s g =>
    let mine := bad.filter fun p => op.seq || (pageOf p.2.2 == g.1 && p.2.1 == g.2.1)
    let op' := { op with accs := mine.map (·.1) }
    match s.wave? key with
    | none => s
    | some w =>
      if g.2.1 = .peer then
        let peer := (mine.head?).map fun p => s.peerWait c p.1.kind.need p.2.2 via
        s.putWave { w with stalls := w.stalls ++ [{ op := op', fault := none, page := g.1, peer, known }] }
      else
        let access := match mine with | p :: _ => p.1.kind.code | [] => 0
        let (k, s) := s.waitPage c (g.2.1 == .host) g.2.2 (fun _ => FaultRec.ofWave s w 1 access 0 g.2.2)
        s.putWave { w with stalls := w.stalls ++ [{ op := op', fault := some k, page := g.1, known }] }) s

/-- The trap of accesses that fault: cause, address and access of the lowest lane, every such lane in fml (R133, R155, R158). -/
def badTrap (op : MemOp) (bad : List (Acc × Flt × DWord)) : Trap × Nat × Option Nat :=
  let fml := maskList (bad.map fun p => p.1.lane) ||| op.lanes
  match bad with
  | [] => ({ cause := causeProt, fml }, 0, none)
  | (q, f, va) :: _ =>
    let base : Trap := { cause := 0, faddr := va, fml, access := BitVec.ofNat 8 q.kind.code,
                         fword := if op.seq then BitVec.ofNat 32 q.elem else 0, pos := op.pos
                         kept := if op.seq then [(op.pos, op.kept)] else [] }
    match f with
    | .trap c => ({ base with cause := c, fword := if c = causeAlign then 0 else base.fword }, 0, none)
    | .ecc src line => ({ base with cause := causeEcc }, src, line)
    | _ => ({ base with cause := causePage }, 0, none)

/-- After accesses: stalls for those that wait, a trap for those that fault, else the wave goes on. `pend` is the instruction's
entry of effects; `go` puts the wave on; `via` is the request of a peer access that is tried again; `known` is what came before the
accesses. A watched access traps after it has performed, unless an earlier instruction has a trap pending. (DESIGN CHOICE: log 32)
(DEDUCED: log 52) -/
def State.afterAccs (s : State) (c : Ctx) (key : Nat) (op : MemOp) (p : Perf) (watch : Option Nat) (go : State → Wave → State)
    (via : Option PeerWait := none) (known : List Known := []) : State :=
  let late := p.bad.filter fun b => op.seq || !traps c b.2.1
  let bad := p.bad.filter fun b => traps c b.2.1
  let waits := !op.seq || !((p.bad.head?).any fun b => traps c b.2.1)
  let s := if waits then s.stallAccs c key op late via known else s
  match s.wave? key with
  | none => s
  | some w =>
    let watch := if w.trap.any (·.pos < op.pos) then none
      else match watch with | some n => some n | none => (w.watched.filter fun x => x.1 == op.pos && !w.inHandler).map (·.2)
    if bad.isEmpty || (op.seq && waits) then
      match (if w.trap.any (·.pos ≤ op.pos) then none else watch) with
      | some n => s.raise { w with watched := none } { cause := causeWatch, fword := BitVec.ofNat 32 n, pos := op.pos }
      | none => go s w
    else
      let (tr, src, line) := badTrap op (if op.seq then p.bad else bad)
      let tr := { tr with watch }
      if tr.cause = causeEcc then s.strike w src line tr else s.raise w tr

/-- Log entries that an operation would need beyond the log's capacity (R86). -/
def Perf.overflows (p : Perf) (l : Launch) (t : Team) : Bool :=
  l.logCap < t.log.length + (logWrites p.x.log).length + p.entries.length

/-- Accesses of the wave that still wait and come first: all before a release, all after an acquire, and those of the same lane
to the same byte (R166, R167). -/
def Env.orderHold (e : Env) (op : MemOp) : Bool :=
  e.w.stalls.any fun x =>
    op.ord.isRel || x.op.ord.isAcq || x.op.accs.any fun a => op.accs.any (e.actor.sameByte e.s x.op op a)

/-- The issuing wave's team has gone direct (R84, R86). -/
def Env.direct (e : Env) : Env :=
  if e.t.direct then e
  else
    let s := e.s.goDirect e.t
    let known := match s.wave? e.w.key with | some w => w.known | none => e.w.known
    { e with s, t := (s.team? e.t.key).getD e.t, w := { e.w with known } }

/-- The application of its team's log has struck the issuing wave: it traps, and the instruction is re-issued after it (R83,
R134). (DESIGN CHOICE: log 162) -/
def Env.struck (e : Env) : Bool := (e.s.wave? e.w.key).all fun w => w.stage != .issue

/-- A memory instruction issued: it performs every access it can, its results fall due at the end of its window, and the rest
traps or waits (R83 to R86, R127, R155 to R158). -/
def Env.memory (e : Env) (la : La) (srcs dsts : List Nat) (op : MemOp) : State :=
  if e.orderHold op then e.hold 6
  else if e.staged ∧ e.l.p.mode = 2 ∧ op.takesDirect then e.waitDirect
  else
    let e := if e.staged ∧ op.takesDirect then e.direct else e
    let p := (e.actor op.ord).perform e.w.key op e.s
    if e.staged ∧ p.overflows e.l e.t ∧ e.l.p.mode = 2 then e.waitDirect
    else
      let e := if e.staged ∧ p.overflows e.l e.t then e.direct else e
      if e.struck then e.s
      else
        let a := e.actor op.ord
        let p := a.perform e.w.key op e.s
        let s := a.behind op p
        let (s, watch) := s.watch e.coreNo e.w.slotNo 0 e.c.id ((p.done.map fun d => d.1.seen e.s a e.w.key d.2).flatten)
        let entry : Pend :=
          { pos := e.w.pos, due := e.w.pos + 1 + e.la la, long := true, effs := op.res.effs p.done, srcs, dsts }
        match s.wave? e.w.key with
        | none => s
        | some w =>
          let late := a.lateAfter e.s w.late op (p.done.map (·.1)) (decide (e.la la = 0))
          let s := s.putWave { w with pend := w.pend ++ [entry], late }
          s.afterAccs e.c e.w.key op p watch (fun s w => s.advance e.c w) none e.w.known

/-- The first address of each 4 KiB unit of a range. -/
def unitsOf (a n : Nat) : List Nat := if n = 0 then [] else (List.range ((a % 4096 + n + 4095) / 4096)).map fun i => max a (a / 4096 * 4096 + 4096 * i)

/-- The requests to peers of accesses, each a need, an address and a size: one for each 4 KiB unit, by physical address, but for the one that they
go on with (R28, R32, R35). -/
def State.requests (s : State) (c : Ctx) (l : List (Need × Nat × Nat)) (via : Option PeerWait) : List Nat :=
  if s.links.isEmpty then []
  else (l.flatMap fun x => (unitsOf x.2.1 x.2.2).flatMap fun a =>
    match s.pieces c x.1 true 1 (BitVec.ofNat 64 a) 1 with
    | .ok ps => ps.map Piece.pa
    | .error _ => []).filter fun pa => !via.any (·.serves pa)

/-- What accesses leave behind: translations in a TLB, and flits of requests to peers. -/
def State.reached (s : State) (c : Ctx) (l : List (Need × Nat × Nat)) (via : Option PeerWait) : State :=
  (s.fillTlb c (l.flatMap fun x => (unitsOf x.2.1 x.2.2).map (BitVec.ofNat 64))).sendFlits (s.requests c l via)

/-- What accesses of an engine leave behind; those that enter a log, which watchpoints see as reads too, are made as the log is applied. -/
def State.touch (s : State) (c : Ctx) (l : List Seen) (via : Option PeerWait := none) : State :=
  s.reached c ((l.filter fun x => !x.sp && !(x.rd && x.wr)).map fun x => (if x.wr then .wr else .rd, x.addr, x.size)) via

/-- A request of an engine to a peer that has no answer yet: its flits leave when it is first made (R32). -/
def State.peerSend (s : State) (c : Ctx) (need : Need) (va : DWord) (via : Option PeerWait) : PeerWait × State :=
  (s.peerWait c need va via, s.sendFlits (s.requests c [(need, va.toNat, 1)] via))

/-- Effects added to the entry of the instruction at a position. -/
def Wave.addEffs (w : Wave) (pos : Nat) (effs : List Eff) : Wave :=
  { w with pend := w.pend.map fun p => if p.pos == pos && p.long then { p with effs := p.effs ++ effs } else p }

/-- A stall retried (R44, R157): what now performs takes effect; the rest waits again, or traps. Writes that the log has no room for wait
for the Threshold position, or take a STAGED team direct (R86). -/
def State.retryStall (s : State) (key : Nat) (x : Stall) : State :=
  match s.wave? key with
  | none => s
  | some w =>
    match s.team? w.team with
    | none => s
    | some t =>
      match s.launch? t.launch, s.ctx? t.ctx with
      | some l, some c =>
        let w := { w with stalls := w.stalls.filter (· != x) }
        if x.op.accs = [] then s.putWave w
        else
          let actor (t : Team) : Actor := { s.vecActor w c t l x.op.ord with known := x.known, via := x.peer }
          let full := (actor t).staged && ((actor t).perform key x.op (s.putWave w)).overflows l t
          if full ∧ l.p.mode = 2 then
            (s.putTeam (t.want s.tick)).putWave
              { w with stalls := w.stalls ++ [{ x with fault := none, peer := none, reply := none }], reason := 12 }
          else
            let s := s.putWave w
            let s := if full then s.goDirect t else s
            let t := (s.team? t.key).getD t
            let a := actor t
            let p := a.perform key x.op s
            let seen := (p.done.map fun d => d.1.seen s a key d.2).flatten
            let s := a.behind x.op p
            let (s, watch) := s.watch w.coreNo w.slotNo 0 c.id seen
            match s.wave? key with
            | none => s
            | some w =>
              let s := s.putWave (w.addEffs x.op.pos (x.op.res.effs p.done))
              s.afterAccs c key x.op p watch (fun s _ => s) x.peer x.known
      | _, _ => s

/-- A stall waits for the Threshold position (R86). -/
def Stall.atLimit (x : Stall) : Bool := x.fault.isNone && x.peer.isNone && x.trap.isNone

end Machine

end Sys2Proof
end

