-- ==== Sys2Proof/Machine/ExecCtl.lean ====
section
/-! DEFINITION. Sequencer and control instructions (R240 to R251). -/

namespace Sys2Proof

open Machine

namespace Machine

/-- Blocks of the wave's image. -/
def Env.nblocks (e : Env) : Nat := match e.w.hdr with | some h => h.nblocks | none => 0

/-- A block number outside the image raises ILLOP with detail 3; 255 is legal where the instruction allows halting (R229). -/
def Env.blockBad (e : Env) (exit : Bool) (b : BlockNo) : Bool := !(b.val < e.nblocks || (exit && b.val == 255))

/-- A CALLA stands earlier in the clause, whether or not its slot holds a lane: no steering instruction, RETA or CALLA may follow it
(R222, R244). -/
def Env.afterCall (e : Env) : Bool := (e.cl.words.take e.w.pos).any fun x => wordOp x == 8

/-- Checks of a steering instruction: its block numbers, then its place (R229, R244). -/
def steerChk (bs : List BlockNo) (e : Env) : Option Trap :=
  if bs.any (e.blockBad true) then some (illop 3) else if e.afterCall then some (illop 1) else none

/-- nblk of the lanes of a slot (R241). -/
def Env.steer (e : Env) (k : Slot) (f : Nat → Option BlockNo) (ret : Bool) : List Eff :=
  (e.inLanes k).filterMap fun l => (f l).map fun b => .nblk l b ret

/-- Number of nblk (R122). -/
def nblkNum : List Nat := [245]

/-- NOP (R243). -/
def execNop (s : State) : Host.Outcome State Fault Refusal := regOp { cls := none, slot := 0 } (fun _ => .ok [] []) s

/-- NEXT (R240, R241). -/
def execNext (o : Next) (s : State) : Host.Outcome State Fault Refusal :=
  regOp { cls := some .vec, slot := o.slot, writes := nblkNum, chk := steerChk [o.bt] }
    (fun e => .ok (e.steer o.slot (fun _ => some o.bt) false) []) s

end Machine

/-- The tests of NEXTC (R229). -/
def NCond.test (c : NCond) (v : Word) : Bool :=
  match c with
  | .nz => v != 0
  | .z => v == 0
  | .neg => v.getLsbD 31
  | .nneg => !v.getLsbD 31
  | .odd => v.getLsbD 0
  | .even => !v.getLsbD 0

namespace Machine

/-- NEXTC (R240, R241). -/
def execNextc (o : NextC) (s : State) : Host.Outcome State Fault Refusal :=
  regOp { cls := some .vec, slot := o.slot, reads := o.src.num, writes := nblkNum, chk := steerChk [o.bt, o.bf] }
    (fun e => .ok (e.steer o.slot (fun l =>
      if o.cond.test (e.rd o.src none l) then some o.bt else if o.keep then none else some o.bf) false) []) s

/-- NEXTM (R240, R241). -/
def execNextm (o : NextM) (s : State) : Host.Outcome State Fault Refusal :=
  regOp { cls := some .vec, slot := o.slot, reads := o.src.num, writes := nblkNum, chk := steerChk [o.bt, o.bf] }
    (fun e => .ok (e.steer o.slot (fun l => some (if bit (e.mrd o.src) l then o.bt else o.bf)) false) []) s

/-- NEXTX: every lane's value is checked before any is written (R241). -/
def execNextx (o : NextX) (s : State) : Host.Outcome State Fault Refusal :=
  regOp { cls := some .vec, slot := o.slot, reads := [o.src.val], writes := nblkNum, chk := steerChk [] }
    (fun e =>
      if (e.inLanes o.slot).all fun l => (e.vlane o.src l).toNat < e.nblocks || (e.vlane o.src l).toNat == 255 then
        .ok (e.steer o.slot (fun l => some (Fin.ofNat 256 (e.vlane o.src l).toNat)) false) []
      else .trap (illop 3)) s

/-- HALT (R241). -/
def execHalt (o : Bare) (s : State) : Host.Outcome State Fault Refusal :=
  regOp { cls := some .vec, slot := o.slot, writes := nblkNum, chk := steerChk [] }
    (fun e => .ok (e.steer o.slot (fun _ => some 255) false) []) s

/-- YIELD (R242). -/
def execYield (o : Bare) (s : State) : Host.Outcome State Fault Refusal :=
  run { cls := some .vec, slot := o.slot } (fun e => ({ e with w := { e.w with yielded := true } }).fixed 4 [] []) s

/-- RETA: the lanes are returned; at depth 0 it acts as HALT (R246). -/
def execReta (o : Bare) (s : State) : Host.Outcome State Fault Refusal :=
  regOp { cls := some .vec, slot := o.slot, writes := nblkNum, chk := steerChk [] }
    (fun e => .ok (e.steer o.slot (fun _ => some 255) (e.w.depth != 0)) []) s

/-- The wave's fragments hold every lane only in this fragment, with every lane of it in the slot (R117, R118). -/
def Env.alone (e : Env) (k : Slot) : Bool := e.w.frags.length == 1 && (lanesOf e.f.mask).all (e.inslot k)

/-- CALLA: its checks at issue; the clause's end performs the call (R244, R245). It clears the restart declaration (R318). -/
def execCalla (o : CallA) (s : State) : Host.Outcome State Fault Refusal :=
  run { cls := some .vec, slot := o.slot, reads := snum o.img, writes := nblkNum
        chk := fun e => if e.blockBad false o.bt then some (illop 3)
                        else if !e.cl.e || e.afterCall then some (illop 1) else none }
    (fun e =>
      let va := e.sreg o.img
      if !e.alone o.slot || e.r.ret != 0 then e.trap { cause := causeIllconv }
      else if 64 ≤ e.w.depth then e.trap { cause := causeCtxmem }
      else if !canonical va then e.trap { cause := causeProt, faddr := va, access := 8 }
      else if va.toNat % 128 ≠ 0 then e.trap { cause := causeAlign, faddr := va, access := 8 }
      else ({ e with w := { e.w with call := some ⟨va, o.bt, e.w.pos⟩, restart := none } }).fixed 4 nblkNum []) s

/-! ### Barriers (R247 to R251) -/

/-- Checks of a barrier instruction: slot 0, no trap image, a co-resident launch for .quad and wider, the last place for those
that block (R235, R236, R247). -/
def barChk (o : Bar) (block : Bool) (e : Env) : Option Trap :=
  if o.slot ≠ 0 ∨ e.w.inHandler ∨ (o.scope ≠ .core ∧ !e.l.p.co) ∨ (block ∧ e.w.pos + 1 ≠ e.cl.count) then some (illop 1) else none

/-- The masks of a barrier scope (R249). -/
def Wave.bar (w : Wave) (sc : Scope) : WBar := (w.bars.find? fun b => b.scope == sc).getD { scope := sc, arr := 0, wait := 0, tick := 0 }

/-- The masks put back. -/
def Wave.putBar (w : Wave) (b : WBar) : Wave := { w with bars := lput w.bars (fun x => x.scope == b.scope) b }

/-- Lanes of the wave's fragments. -/
def Wave.live (w : Wave) : DWord := w.frags.foldl (fun m f => m ||| f.mask) 0

/-- The wave's arrival at a scope covers every lane of its fragments (R249). -/
def Wave.arrived (w : Wave) (sc : Scope) : Bool := (w.bar sc).arr != 0 && (w.live &&& ~~~(w.bar sc).arr) == 0

/-- The fragment blocks at its last instruction until a wait is satisfied (R120, R235); a single step ends blocked (R212). -/
def Env.block (e : Env) (x : Wait) (reason : Nat) : State :=
  let (s, w) := e.s.flush e.w
  let w := w.setFrag w.cur fun f => { f with blocked := some x, held := some e.cl, past := none, yield := w.yielded }
  let w := { w with clause := none, pos := 0, replay := [], yielded := false, stage := .quantum, reason }
  match w.stepping with
  | none => s.putWave w
  | some _ =>
    let k := s.core w.coreNo
    (s.putWave { w with stepping := none, stepBlocked := true }).putCore { k with stepDone := true }

/-- An arrival of the fragment's lanes (R249): for memory a release of what came before (R251). It clears the restart declaration (R318). -/
def Env.arrive (e : Env) (sc : Scope) (waits : Bool) : Env :=
  let b := e.w.bar sc
  let m := e.f.mask
  { e with w := { (e.w.putBar { b with
      arr := b.arr ||| m, wait := if waits then b.wait ||| m else b.wait, tick := e.s.tick
      known := joinKnown b.known (passOn (e.s.released e.w)) }) with restart := none, late := [] } }

/-- What barrier phases at a scope that have released put before the wave, which a BARW now takes up (R251). -/
def Wave.passedAt (w : Wave) (sc : Scope) : List Known := (w.passed.filter fun p => p.1 == sc).foldl (fun k p => joinKnown k p.2) []

/-- BAR: arrives and blocks; while an earlier arrival is outstanding it waits in place (R249). -/
def execBar (o : Bar) (s : State) : Host.Outcome State Fault Refusal :=
  run { cls := some .vec, slot := o.slot, always := true, chk := barChk o true }
    (fun e => if e.f.held.isSome then e.retire []
      else if e.w.arrived o.scope then e.hold 3
      else (e.arrive o.scope true).block (.bar o.scope) 3) s

/-- BARA: arrives and runs on (R249). -/
def execBara (o : Bar) (s : State) : Host.Outcome State Fault Refusal :=
  run { cls := some .vec, slot := o.slot, always := true, chk := barChk o false }
    (fun e => if e.w.arrived o.scope then e.hold 3 else (e.arrive o.scope false).fixed 4 [] []) s

/-- BARW: waits for the release of the wave's outstanding arrival; with none it completes at once (R249). -/
def execBarw (o : Bar) (s : State) : Host.Outcome State Fault Refusal :=
  run { cls := some .vec, slot := o.slot, always := true, chk := barChk o true }
    (fun e =>
      let b := e.w.bar o.scope
      let e := { e with w := { e.w with restart := none } }
      if e.f.held.isSome ∨ b.arr = 0 then
        -- a phase that has released since the wave arrived is acquired here (R251)
        ({ e with w := { e.w.learn (e.w.passedAt o.scope) with passed := e.w.passed.filter fun p => p.1 != o.scope } }).retire []
      else ({ e with w := e.w.putBar { b with wait := b.wait ||| e.f.mask } }).block (.bar o.scope) 3) s

end Machine

end Sys2Proof
end

