-- ==== Sys2Proof/Machine/ExecScalar.lean ====
section
/-! DEFINITION. Scalar instructions (R252 to R255): 64-bit values, Fixed 4, no flags. -/

namespace Sys2Proof

open Machine

namespace Machine

/-- The value of a scalar instruction written to its destination: h sources wait (R147, R252), and mvc and mrp reject values
above 64 (R255). -/
def scalarOp (slot : Slot) (d : SDst) (srcs : List SSrc) (v : Env → DWord) (s : State) : Host.Outcome State Fault Refusal :=
  regOp { cls := some .vec, slot, reads := (srcs.map SSrc.num).flatten, writes := d.num }
    (fun e => match e.hRead srcs with
      | some r => r
      | none => match d.put (v e) with
        | some effs => .ok effs []
        | none => .trap (illop 1)) s

/-- One source. -/
def scalar1 (o : S1) (f : DWord → DWord) (s : State) : Host.Outcome State Fault Refusal :=
  scalarOp o.slot o.d [o.a] (fun e => f (e.srd o.a)) s

/-- Two sources. -/
def scalar2 (o : S2) (f : DWord → DWord → DWord) (s : State) : Host.Outcome State Fault Refusal :=
  scalarOp o.slot o.d [o.a, o.b] (fun e => f (e.srd o.a) (e.srd o.b)) s

/-- A source and a 32-bit immediate, sign-extended (R252). -/
def scalarI (o : SI) (f : DWord → DWord → DWord) (s : State) : Host.Outcome State Fault Refusal :=
  scalarOp o.slot o.d [o.a] (fun e => f (e.srd o.a) (sext64 o.imm)) s

/-! ### The operations (R253, R254) -/

/-- High half of the signed product. -/
def sMulH (a b : DWord) : DWord := BitVec.ofInt 64 (a.toInt * b.toInt / 2 ^ 64)
/-- High half of the unsigned product. -/
def sMulHN (a b : DWord) : DWord := BitVec.ofNat 64 (a.toNat * b.toNat / 2 ^ 64)
/-- Shift count: bits [5:0]. -/
def sh6 (b : DWord) : Nat := (b.extractLsb' 0 6).toNat
def sShl (a b : DWord) : DWord := a <<< sh6 b
def sShr (a b : DWord) : DWord := a >>> sh6 b
def sSra (a b : DWord) : DWord := BitVec.ofInt 64 (a.toInt / 2 ^ sh6 b)
def sMin (a b : DWord) : DWord := if a.toInt ≤ b.toInt then a else b
def sMax (a b : DWord) : DWord := if a.toInt ≥ b.toInt then a else b
def sMinN (a b : DWord) : DWord := if a.toNat ≤ b.toNat then a else b
def sMaxN (a b : DWord) : DWord := if a.toNat ≥ b.toNat then a else b

end Machine

/-- SCMP's comparisons (R254). -/
def SCond.holds (c : SCond) (a b : DWord) : Bool :=
  match c with
  | .eq => a == b
  | .ne => a != b
  | .lt => a.toInt < b.toInt
  | .ge => a.toInt ≥ b.toInt
  | .ltn => a.toNat < b.toNat
  | .gen => a.toNat ≥ b.toNat

namespace Machine

/-- 1 or 0. -/
def flag64 (b : Bool) : DWord := if b then 1 else 0

/-! ### The instructions -/

/-- SADD (R253). -/
def execSadd (o : S2) (s : State) : Host.Outcome State Fault Refusal := scalar2 o (fun a b => a + b) s

/-- SSUB (R253). -/
def execSsub (o : S2) (s : State) : Host.Outcome State Fault Refusal := scalar2 o (fun a b => a - b) s

/-- SMUL (R253). -/
def execSmul (o : S2) (s : State) : Host.Outcome State Fault Refusal := scalar2 o (fun a b => a * b) s

/-- SMULH (R253). -/
def execSmulh (o : S2) (s : State) : Host.Outcome State Fault Refusal := scalar2 o (fun a b => sMulH a b) s

/-- SMULHN (R253). -/
def execSmulhn (o : S2) (s : State) : Host.Outcome State Fault Refusal := scalar2 o (fun a b => sMulHN a b) s

/-- SAND (R253). -/
def execSand (o : S2) (s : State) : Host.Outcome State Fault Refusal := scalar2 o (fun a b => a &&& b) s

/-- SOR (R253). -/
def execSor (o : S2) (s : State) : Host.Outcome State Fault Refusal := scalar2 o (fun a b => a ||| b) s

/-- SXOR (R253). -/
def execSxor (o : S2) (s : State) : Host.Outcome State Fault Refusal := scalar2 o (fun a b => a ^^^ b) s

/-- SSHL (R253). -/
def execSshl (o : S2) (s : State) : Host.Outcome State Fault Refusal := scalar2 o (fun a b => sShl a b) s

/-- SSHR (R253). -/
def execSshr (o : S2) (s : State) : Host.Outcome State Fault Refusal := scalar2 o (fun a b => sShr a b) s

/-- SSRA (R253). -/
def execSsra (o : S2) (s : State) : Host.Outcome State Fault Refusal := scalar2 o (fun a b => sSra a b) s

/-- SMIN (R253). -/
def execSmin (o : S2) (s : State) : Host.Outcome State Fault Refusal := scalar2 o (fun a b => sMin a b) s

/-- SMAX (R253). -/
def execSmax (o : S2) (s : State) : Host.Outcome State Fault Refusal := scalar2 o (fun a b => sMax a b) s

/-- SMINN (R253). -/
def execSminn (o : S2) (s : State) : Host.Outcome State Fault Refusal := scalar2 o (fun a b => sMinN a b) s

/-- SMAXN (R253). -/
def execSmaxn (o : S2) (s : State) : Host.Outcome State Fault Refusal := scalar2 o (fun a b => sMaxN a b) s

/-- SADD with an immediate (R252, R253). -/
def execSaddI (o : SI) (s : State) : Host.Outcome State Fault Refusal := scalarI o (fun a b => a + b) s

/-- SSUB with an immediate (R252, R253). -/
def execSsubI (o : SI) (s : State) : Host.Outcome State Fault Refusal := scalarI o (fun a b => a - b) s

/-- SMUL with an immediate (R252, R253). -/
def execSmulI (o : SI) (s : State) : Host.Outcome State Fault Refusal := scalarI o (fun a b => a * b) s

/-- SAND with an immediate (R252, R253). -/
def execSandI (o : SI) (s : State) : Host.Outcome State Fault Refusal := scalarI o (fun a b => a &&& b) s

/-- SOR with an immediate (R252, R253). -/
def execSorI (o : SI) (s : State) : Host.Outcome State Fault Refusal := scalarI o (fun a b => a ||| b) s

/-- SXOR with an immediate (R252, R253). -/
def execSxorI (o : SI) (s : State) : Host.Outcome State Fault Refusal := scalarI o (fun a b => a ^^^ b) s

/-- SSHL with an immediate (R252, R253). -/
def execSshlI (o : SI) (s : State) : Host.Outcome State Fault Refusal := scalarI o (fun a b => sShl a b) s

/-- SSHR with an immediate (R252, R253). -/
def execSshrI (o : SI) (s : State) : Host.Outcome State Fault Refusal := scalarI o (fun a b => sShr a b) s

/-- SSRA with an immediate (R252, R253). -/
def execSsraI (o : SI) (s : State) : Host.Outcome State Fault Refusal := scalarI o (fun a b => sSra a b) s

/-- SMIN with an immediate (R252, R253). -/
def execSminI (o : SI) (s : State) : Host.Outcome State Fault Refusal := scalarI o (fun a b => sMin a b) s

/-- SMAX with an immediate (R252, R253). -/
def execSmaxI (o : SI) (s : State) : Host.Outcome State Fault Refusal := scalarI o (fun a b => sMax a b) s

/-- SMINN with an immediate (R252, R253). -/
def execSminnI (o : SI) (s : State) : Host.Outcome State Fault Refusal := scalarI o (fun a b => sMinN a b) s

/-- SMAXN with an immediate (R252, R253). -/
def execSmaxnI (o : SI) (s : State) : Host.Outcome State Fault Refusal := scalarI o (fun a b => sMaxN a b) s

/-- SNOT (R253). -/
def execSnot (o : S1) (s : State) : Host.Outcome State Fault Refusal := scalar1 o (fun a => ~~~a) s

/-- SMOV (R253). -/
def execSmov (o : S1) (s : State) : Host.Outcome State Fault Refusal := scalar1 o (fun a => a) s

/-- SCLZ (R253). -/
def execSclz (o : S1) (s : State) : Host.Outcome State Fault Refusal := scalar1 o (fun a => BitVec.ofNat 64 (clz a)) s

/-- SPOPC (R253). -/
def execSpopc (o : S1) (s : State) : Host.Outcome State Fault Refusal := scalar1 o (fun a => BitVec.ofNat 64 (popcount a)) s

/-- SCMP (R253, R254). -/
def execScmp (o : SCmp) (s : State) : Host.Outcome State Fault Refusal := 
  scalarOp o.slot o.d [o.a, o.b] (fun e => flag64 (o.cond.holds (e.srd o.a) (e.srd o.b))) s

/-- SCMP with a 28-bit immediate (R254). -/
def execScmpI (o : SCmpI) (s : State) : Host.Outcome State Fault Refusal := 
  scalarOp o.slot o.d [o.a] (fun e => flag64 (o.cond.holds (e.srd o.a) (sext64 o.imm))) s

/-- SSEL (R253). -/
def execSsel (o : S3) (s : State) : Host.Outcome State Fault Refusal := 
  scalarOp o.slot o.d [o.a, o.b, o.c] (fun e => if e.srd o.c ≠ 0 then e.srd o.a else e.srd o.b) s

/-- SADDC, the carry out (R253). -/
def execSaddc (o : S3) (s : State) : Host.Outcome State Fault Refusal := 
  scalarOp o.slot o.d [o.a, o.b, o.c]
    (fun e => BitVec.ofNat 64 (((e.srd o.a).toNat + (e.srd o.b).toNat + (e.srd o.c).toNat % 2) / 2 ^ 64)) s

/-- SLI (R230, R253). -/
def execSli (o : SLi) (s : State) : Host.Outcome State Fault Refusal := scalarOp o.slot o.d [] (fun _ => sext64 o.imm) s

end Machine

/-- A scalar destination read as a source. -/
def SDst.src : SDst → SSrc
  | .s n => .s n | .h n => .h n | .w n => .w n | .zero => .zero | .exm => .exm | .amax => .amax | .mvc => .mvc | .mrp => .mrp
  | .fflags => .fflags

namespace Machine

/-- SLIH: bits [31:0] of the destination are kept (R230, R253). (DEDUCED: log 61) -/
def execSlih (o : SLi) (s : State) : Host.Outcome State Fault Refusal :=
  scalarOp o.slot o.d [o.d.src] (fun e => o.imm ++ (e.srd o.d.src).extractLsb' 0 32) s

end Machine

end Sys2Proof
end

