-- ==== Sys2Proof/Machine/ExecVInt.lean ====
section
/-! DEFINITION. Vector integer instructions (R257, R261 to R265) -/

namespace Sys2Proof

open Machine

namespace Machine

/-- A tag check of an operand: the operand, its format and its index (R237, R257). -/
abbrev TagChk := VSrc × Tag × Nat

/-- The first tag check that fails, in operand order (R257). -/
def Env.tagsBad (e : Env) (l : List TagChk) : Option Trap :=
  l.findSome? fun c => (e.tagBad c.1 c.2.1 c.2.2).map fun w => { cause := causeFmtchk, fword := w }

/-- A lane-wise instruction of one destination (R257): every tag is checked before any lane is written; each active lane takes
its value, and the flags of all lanes are raised together (R184). -/
def laneOp (slot : Slot) (lat : Nat) (d : VDst) (srcs : List VSrc) (chks : List TagChk) (tag : Env → Tag)
    (f : Env → Nat → Fl Word) (s : State) : Host.Outcome State Fault Refusal :=
  regOp { cls := some .vec, slot, lat, reads := (srcs.map VSrc.num).flatten, writes := d.num, lanewise := true }
    (fun e => match e.tagsBad chks with
      | some t => .trap t
      | none =>
        let vs := (e.lanes slot).map fun l => (l, f e l)
        let fl := flagsAll (vs.map (·.2))
        .ok (d.put (vs.map fun p => (p.1, p.2.1)) (tag e) ++ flagEff fl) (flagNum fl)) s

/-- Element by element over one lane value (R176). -/
def map1 (t : Tag) (f : Nat → Nat → Nat) (x : Word) : Word :=
  ofElems t.width ((List.range t.cnt).map fun k => f t.width (elem x t.width k))

/-- Over two. -/
def map2 (t : Tag) (f : Nat → Nat → Nat → Nat) (x y : Word) : Word :=
  ofElems t.width ((List.range t.cnt).map fun k => f t.width (elem x t.width k) (elem y t.width k))

/-- Over three. -/
def map3 (t : Tag) (f : Nat → Nat → Nat → Nat → Nat) (x y z : Word) : Word :=
  ofElems t.width ((List.range t.cnt).map fun k => f t.width (elem x t.width k) (elem y t.width k) (elem z t.width k))

/-- An integer instruction of one checked source, with its result tag. -/
def vint1 (o : V1) (tag : Tag) (f : Nat → Nat → Nat) (s : State) : Host.Outcome State Fault Refusal :=
  laneOp o.slot 4 o.d [o.a] [(o.a, o.fmt, 0)] (fun _ => tag) (fun e l => (map1 o.fmt f (e.rd o.a o.perm.onA l), 0)) s

/-- An integer instruction of two checked sources; the result tag is fmt. -/
def vint2 (o : V2) (f : Nat → Nat → Nat → Nat) (s : State) : Host.Outcome State Fault Refusal :=
  laneOp o.slot 4 o.d [o.a, o.b] [(o.a, o.fmt, 0), (o.b, o.fmt, 1)] (fun _ => o.fmt)
    (fun e l => (map2 o.fmt f (e.rd o.a o.perm.onA l) (e.rd o.b o.perm.onB l), 0)) s

/-- A bitwise instruction over whole lanes, with the tag rule of R178. -/
def vbit2 (o : V2) (f : Word → Word → Word) (s : State) : Host.Outcome State Fault Refusal :=
  laneOp o.slot 4 o.d [o.a, o.b] [] (fun e => bitTag e.r [o.a, o.b])
    (fun e l => (f (e.rd o.a o.perm.onA l) (e.rd o.b o.perm.onB l), 0)) s

/-- Clamped to the range of a format (R261). -/
def clampTo (t : Tag) (w : Nat) (v : Int) : Nat :=
  if t.isSigned then wrapN w (max (-(2 ^ (w - 1))) (min v (2 ^ (w - 1) - 1))) else wrapN w (max 0 (min v (2 ^ w - 1)))

end Machine

/-- The reading of an element by the signedness of a format. -/
def Tag.read (t : Tag) (w x : Nat) : Int := if t.isSigned then sval w x else x

namespace Machine

/-- VADD (R262). -/
def execVadd (o : V2) (s : State) : Host.Outcome State Fault Refusal :=
  vint2 o (fun _ x y => x + y) s

/-- VSUB (R262). -/
def execVsub (o : V2) (s : State) : Host.Outcome State Fault Refusal :=
  vint2 o (fun w x y => wrapN w ((x : Int) - y)) s

/-- VMUL (R262). -/
def execVmul (o : V2) (s : State) : Host.Outcome State Fault Refusal :=
  vint2 o (fun _ x y => x * y) s

/-- VMULH (R262). -/
def execVmulh (o : V2) (s : State) : Host.Outcome State Fault Refusal :=
  vint2 o (fun w x y => wrapN w (sval w x * sval w y / 2 ^ w)) s

/-- VMULHN (R262). -/
def execVmulhn (o : V2) (s : State) : Host.Outcome State Fault Refusal :=
  vint2 o (fun w x y => x * y / 2 ^ w) s

/-- VADDS (R262). -/
def execVadds (o : V2) (s : State) : Host.Outcome State Fault Refusal :=
  vint2 o (fun w x y => clampTo o.fmt w (o.fmt.read w x + o.fmt.read w y)) s

/-- VSUBS (R262). -/
def execVsubs (o : V2) (s : State) : Host.Outcome State Fault Refusal :=
  vint2 o (fun w x y => clampTo o.fmt w (o.fmt.read w x - o.fmt.read w y)) s

/-- VSHL (R262). -/
def execVshl (o : V2) (s : State) : Host.Outcome State Fault Refusal :=
  vint2 o (fun w x y => x * 2 ^ (y % w)) s

/-- VSHR (R262). -/
def execVshr (o : V2) (s : State) : Host.Outcome State Fault Refusal :=
  vint2 o (fun w x y => x / 2 ^ (y % w)) s

/-- VSRA (R262). -/
def execVsra (o : V2) (s : State) : Host.Outcome State Fault Refusal :=
  vint2 o (fun w x y => wrapN w (sval w x / 2 ^ (y % w))) s

/-- VMIN (R262). -/
def execVmin (o : V2) (s : State) : Host.Outcome State Fault Refusal :=
  vint2 o (fun w x y => if sval w x ≤ sval w y then x else y) s

/-- VMAX (R262). -/
def execVmax (o : V2) (s : State) : Host.Outcome State Fault Refusal :=
  vint2 o (fun w x y => if sval w x ≥ sval w y then x else y) s

/-- VMINN (R262). -/
def execVminn (o : V2) (s : State) : Host.Outcome State Fault Refusal :=
  vint2 o (fun _ x y => if x ≤ y then x else y) s

/-- VMAXN (R262). -/
def execVmaxn (o : V2) (s : State) : Host.Outcome State Fault Refusal :=
  vint2 o (fun _ x y => if x ≥ y then x else y) s

/-- VAND (R178, R262). -/
def execVand (o : V2) (s : State) : Host.Outcome State Fault Refusal :=
  vbit2 o (fun x y => x &&& y) s

/-- VOR (R178, R262). -/
def execVor (o : V2) (s : State) : Host.Outcome State Fault Refusal :=
  vbit2 o (fun x y => x ||| y) s

/-- VXOR (R178, R262). -/
def execVxor (o : V2) (s : State) : Host.Outcome State Fault Refusal :=
  vbit2 o (fun x y => x ^^^ y) s

/-- VMAD (R262). -/
def execVmad (o : V3) (s : State) : Host.Outcome State Fault Refusal :=
  laneOp o.slot 4 o.d [o.a, o.b, o.c] [(o.a, o.fmt, 0), (o.b, o.fmt, 1), (o.c, o.fmt, 2)] (fun _ => o.fmt)
    (fun e l => (map3 o.fmt (fun _ x y z => x * y + z) (e.rd o.a o.perm.onA l) (e.rd o.b o.perm.onB l) (e.rd o.c o.perm.onC l), 0)) s

/-- VNOT (R262). -/
def execVnot (o : V1) (s : State) : Host.Outcome State Fault Refusal :=
  laneOp o.slot 4 o.d [o.a] [] (fun e => copyTag e.r o.a) (fun e l => (~~~e.rd o.a o.perm.onA l, 0)) s

/-- VABS (R262). -/
def execVabs (o : V1) (s : State) : Host.Outcome State Fault Refusal :=
  vint1 o o.fmt (fun w x => wrapN w (sval w x).natAbs) s

/-- VNEG (R262). -/
def execVneg (o : V1) (s : State) : Host.Outcome State Fault Refusal :=
  vint1 o o.fmt (fun w x => wrapN w (-sval w x)) s

/-- VPOPC (R262). -/
def execVpopc (o : V1) (s : State) : Host.Outcome State Fault Refusal :=
  vint1 o o.fmt.unsigned (fun w x => popcount (BitVec.ofNat w x)) s

/-- VCLZ (R262). -/
def execVclz (o : V1) (s : State) : Host.Outcome State Fault Refusal :=
  vint1 o o.fmt.unsigned (fun w x => clz (BitVec.ofNat w x)) s

end Machine

/-- The tests of VCMP over two readings (R263). -/
def VCond.test (c : VCond) (x y : Int) : Bool :=
  match c with
  | .eq => x == y
  | .ne => x != y
  | .lt => x < y
  | .le => x ≤ y
  | .gt => x > y
  | .ge => x ≥ y

namespace Machine

/-- All ones or 0 in w bits. -/
def ones (w : Nat) (b : Bool) : Nat := if b then 2 ^ w - 1 else 0

/-- VCMP (R263). -/
def execVcmp (o : VCmp) (s : State) : Host.Outcome State Fault Refusal :=
  laneOp o.slot 4 o.d [o.a, o.b] [(o.a, o.fmt, 0), (o.b, o.fmt, 1)] (fun _ => o.fmt.unsigned)
    (fun e l => (map2 o.fmt (fun w x y => ones w (o.cond.test (o.fmt.read w x) (o.fmt.read w y)))
      (e.rd o.a o.perm.onA l) (e.rd o.b o.perm.onB l), 0)) s

/-- VSEL (R264). -/
def execVsel (o : VSel) (s : State) : Host.Outcome State Fault Refusal :=
  regOp { cls := some .vec, slot := o.slot, reads := o.a.num ++ o.b.num ++ o.m.num, writes := o.d.num, lanewise := true }
    (fun e => .ok (o.d.put ((e.lanes o.slot).map fun l =>
      (l, if bit (e.mrd o.m) l then e.rd o.a o.perm.onA l else e.rd o.b o.perm.onB l)) (bitTag e.r [o.a, o.b])) []) s

/-- lsb and width of a bit field from its control word (R264). -/
def fieldOf (b : Word) : Nat × Nat :=
  let lsb := (b.extractLsb' 0 5).toNat
  (lsb, min (b.extractLsb' 8 6).toNat (32 - lsb))

/-- VBFX: a field extracted, sign-extended for s32 (R264). -/
def execVbfx (o : V2) (s : State) : Host.Outcome State Fault Refusal :=
  laneOp o.slot 4 o.d [o.a, o.b] [] (fun _ => o.fmt)
    (fun e l =>
      let (lsb, wid) := fieldOf (e.rd o.b o.perm.onB l)
      let x := (e.rd o.a o.perm.onA l).toNat / 2 ^ lsb % 2 ^ wid
      (BitVec.ofInt 32 (if o.fmt = .s32 ∧ wid ≠ 0 then sval wid x else x), 0)) s

/-- VBFI: a field inserted (R264). -/
def execVbfi (o : V3) (s : State) : Host.Outcome State Fault Refusal :=
  laneOp o.slot 4 o.d [o.a, o.b, o.c] [] (fun e => bitTag e.r [o.a, o.b])
    (fun e l =>
      let (lsb, wid) := fieldOf (e.rd o.c o.perm.onC l)
      let m : Word := BitVec.ofNat 32 ((2 ^ wid - 1) * 2 ^ lsb)
      ((e.rd o.a o.perm.onA l &&& ~~~m) ||| ((e.rd o.b o.perm.onB l <<< lsb) &&& m), 0)) s

/-- VMOV: a v source gives its tag, another source the tag fmt (R264). -/
def execVmov (o : V1) (s : State) : Host.Outcome State Fault Refusal :=
  laneOp o.slot 4 o.d [o.a] [] (fun e => match o.a with | .v n => e.r.tag n | _ => o.fmt)
    (fun e l => (e.rd o.a o.perm.onA l, 0)) s

/-- VLI (R230, R264). -/
def execVli (o : VLi) (s : State) : Host.Outcome State Fault Refusal :=
  laneOp o.slot 4 o.d [] [] (fun _ => o.tag) (fun _ _ => (o.imm, 0)) s

/-- VDOT4 (R265): c and the result are s32 or n32. -/
def execVdot4 (o : V3) (s : State) : Host.Outcome State Fault Refusal :=
  let rt : Tag := if o.fmt = .s8x4 then .s32 else .n32
  laneOp o.slot 4 o.d [o.a, o.b, o.c] [(o.a, o.fmt, 0), (o.b, o.fmt, 1), (o.c, rt, 2)] (fun _ => rt)
    (fun e l =>
      let a := e.rd o.a o.perm.onA l
      let b := e.rd o.b o.perm.onB l
      let p := (List.range 4).foldl (fun (t : Int) k => t + o.fmt.read 8 (elem a 8 k) * o.fmt.read 8 (elem b 8 k)) 0
      (BitVec.ofInt 32 ((e.rd o.c o.perm.onC l).toNat + p), 0)) s

end Machine

end Sys2Proof
end

