-- ==== Sys2Proof/Machine/ExecVFp.lean ====
section
/-! DEFINITION. Vector floating-point instructions (R266 to R270) and special functions (R189). -/

namespace Sys2Proof

open Machine

namespace Machine

/-- Elements and their flags packed into a lane. -/
def packFl (w : Nat) (l : List (Fl Nat)) : Fl Word := (ofElems w (l.map (·.1)), flagsAll l)

/-- The exact value of element k of a lane (R175, R176). -/
def fval (t : Tag) (x : Word) (k : Nat) : FVal :=
  match t.ffmt with
  | some f => value f (elem x t.width k)
  | none => .nan false

end Machine

/-- The format of a float tag; f32 for any other. -/
def Tag.ff (t : Tag) : FFmt := t.ffmt.getD .f32

namespace Machine

/-- A float instruction of one source, element by element. -/
def vflt1 (o : V1) (tag : Tag) (f : FFmt → FVal → Nat → Fl Nat) (s : State) : Host.Outcome State Fault Refusal :=
  laneOp o.slot 4 o.d [o.a] [(o.a, o.fmt, 0)] (fun _ => tag)
    (fun e l =>
      let x := e.rd o.a o.perm.onA l
      packFl o.fmt.width ((List.range o.fmt.cnt).map fun k => f o.fmt.ff (fval o.fmt x k) (elem x o.fmt.width k))) s

/-- Of two sources. -/
def vflt2 (o : V2) (f : FFmt → FVal → FVal → Fl Nat) (s : State) : Host.Outcome State Fault Refusal :=
  laneOp o.slot 4 o.d [o.a, o.b] [(o.a, o.fmt, 0), (o.b, o.fmt, 1)] (fun _ => o.fmt)
    (fun e l =>
      let x := e.rd o.a o.perm.onA l
      let y := e.rd o.b o.perm.onB l
      packFl o.fmt.width ((List.range o.fmt.cnt).map fun k => f o.fmt.ff (fval o.fmt x k) (fval o.fmt y k))) s

/-- Of three sources. -/
def vflt3 (o : V3) (f : FFmt → FVal → FVal → FVal → Fl Nat) (s : State) : Host.Outcome State Fault Refusal :=
  laneOp o.slot 4 o.d [o.a, o.b, o.c] [(o.a, o.fmt, 0), (o.b, o.fmt, 1), (o.c, o.fmt, 2)] (fun _ => o.fmt)
    (fun e l =>
      let x := e.rd o.a o.perm.onA l
      let y := e.rd o.b o.perm.onB l
      let z := e.rd o.c o.perm.onC l
      packFl o.fmt.width ((List.range o.fmt.cnt).map fun k =>
        f o.fmt.ff (fval o.fmt x k) (fval o.fmt y k) (fval o.fmt z k))) s

/-- A product rounded once. -/
def fmulR (f : FFmt) (r : Rnd) (x y : FVal) : Fl Nat :=
  let p := fmul x y
  let q := round f r false 0 p.1
  (q.1, p.2 ||| q.2)

/-- A signalling NaN among the inputs sets NV (R182). -/
def sigFlag (l : List FVal) : Flags := flagIf (l.any FVal.isSig) flagNV

/-- VFADD (R266). -/
def execVfadd (o : V2) (s : State) : Host.Outcome State Fault Refusal :=
  vflt2 o (fun f x y => faddN f o.rnd [x, y]) s

/-- VFSUB (R266). -/
def execVfsub (o : V2) (s : State) : Host.Outcome State Fault Refusal :=
  vflt2 o (fun f x y => faddN f o.rnd [x, y.neg]) s

/-- VFMUL (R266). -/
def execVfmul (o : V2) (s : State) : Host.Outcome State Fault Refusal :=
  vflt2 o (fun f x y => fmulR f o.rnd x y) s

/-- VFMA (R266). -/
def execVfma (o : V3) (s : State) : Host.Outcome State Fault Refusal :=
  vflt3 o (fun f x y z => ffma f o.rnd x y z) s

/-- VFMS (R266). -/
def execVfms (o : V3) (s : State) : Host.Outcome State Fault Refusal :=
  vflt3 o (fun f x y z => ffma f o.rnd x y z.neg) s

/-- VFNMA (R266). -/
def execVfnma (o : V3) (s : State) : Host.Outcome State Fault Refusal :=
  vflt3 o (fun f x y z => ffma f o.rnd x.neg y z) s

/-- VFMIN (R190, R266). -/
def execVfmin (o : V2) (s : State) : Host.Outcome State Fault Refusal :=
  vflt2 o (fun f x y =>
    let r := fminmax false [x, y]
    ((round f .rne false 0 r.1).1, r.2)) s

/-- VFMAX (R190, R266). -/
def execVfmax (o : V2) (s : State) : Host.Outcome State Fault Refusal :=
  vflt2 o (fun f x y =>
    let r := fminmax true [x, y]
    ((round f .rne false 0 r.1).1, r.2)) s

end Machine

/-- The tests of VFCMP (R267). -/
def FCond.test (c : FCond) (x y : FVal) : Bool :=
  if x.isNan || y.isNan then c == .ne || c == .un
  else match c with
    | .eq => fcmp x y == .eq
    | .ne => fcmp x y != .eq
    | .lt => fcmp x y == .lt
    | .le => fcmp x y != .gt
    | .gt => fcmp x y == .gt
    | .ge => fcmp x y != .lt
    | .un => false
    | .ord => true

/-- NV of a comparison: a signalling NaN always, any NaN under lt, le, gt and ge (R267). -/
def FCond.flags (c : FCond) (x y : FVal) : Flags :=
  flagIf (x.isSig || y.isSig || ((x.isNan || y.isNan) && (c == .lt || c == .le || c == .gt || c == .ge))) flagNV

/-- Result tag of VFCMP and VFCLS: n32 or n16x2 (R267, R268). -/
def Tag.cmpTag (t : Tag) : Tag := if t = .f32 then .n32 else .n16x2

namespace Machine

/-- VFCMP (R267). -/
def execVfcmp (o : VFCmp) (s : State) : Host.Outcome State Fault Refusal :=
  laneOp o.slot 4 o.d [o.a, o.b] [(o.a, o.fmt, 0), (o.b, o.fmt, 1)] (fun _ => o.fmt.cmpTag)
    (fun e l =>
      let x := e.rd o.a o.perm.onA l
      let y := e.rd o.b o.perm.onB l
      packFl o.fmt.width ((List.range o.fmt.cnt).map fun k =>
        (ones o.fmt.width (o.cond.test (fval o.fmt x k) (fval o.fmt y k)), o.cond.flags (fval o.fmt x k) (fval o.fmt y k)))) s

/-- The class of a value (R268): the number of the bit set. -/
def fclass (f : FFmt) (v : FVal) (bits : Nat) : Nat :=
  match v with
  | .nan sig => if sig then 8 else 9
  | .inf n => if n then 0 else 7
  | .fin n m _ =>
    let sub := bits / 2 ^ f.wm % 2 ^ f.we = 0
    if m = 0 then (if n then 3 else 4) else if sub then (if n then 2 else 5) else if n then 1 else 6

/-- VFABS (R266). -/
def execVfabs (o : V1) (s : State) : Host.Outcome State Fault Refusal :=
  vflt1 o o.fmt (fun f v b => (if v.isNan then f.nanBits else b % f.signBit, sigFlag [v])) s

/-- VFNEG (R266). -/
def execVfneg (o : V1) (s : State) : Host.Outcome State Fault Refusal :=
  vflt1 o o.fmt (fun f v b => (if v.isNan then f.nanBits else (b + f.signBit) % 2 ^ f.width, sigFlag [v])) s

/-- VFCLS (R268). -/
def execVfcls (o : V1) (s : State) : Host.Outcome State Fault Refusal :=
  vflt1 o o.fmt.cmpTag (fun f v b => (2 ^ fclass f v b, 0)) s

/-- VFDOT2: both products and c summed exactly and rounded once to f32 (R269). -/
def execVfdot2 (o : V3) (s : State) : Host.Outcome State Fault Refusal :=
  laneOp o.slot 4 o.d [o.a, o.b, o.c] [(o.a, o.fmt, 0), (o.b, o.fmt, 1), (o.c, .f32, 2)] (fun _ => .f32)
    (fun e l =>
      let x := e.rd o.a o.perm.onA l
      let y := e.rd o.b o.perm.onB l
      let p0 := fmul (fval o.fmt x 0) (fval o.fmt y 0)
      let p1 := fmul (fval o.fmt x 1) (fval o.fmt y 1)
      let r := faddN .f32 o.rnd [value .f32 (e.rd o.c o.perm.onC l).toNat, p0.1, p1.1]
      (BitVec.ofNat 32 r.1, p0.2 ||| p1.2 ||| r.2)) s

/-- A special function of one f32 source, Fixed 8 (R189, R270). -/
def vspecial (o : V1) (g : FVal → Fl FVal) (s : State) : Host.Outcome State Fault Refusal :=
  laneOp o.slot 8 o.d [o.a] [(o.a, .f32, 0)] (fun _ => .f32) (fun e l => special g (e.rd o.a o.perm.onA l)) s

/-- VRCP (R189, R270). -/
def execVrcp (o : V1) (s : State) : Host.Outcome State Fault Refusal :=
  vspecial o frcp s

/-- VRSQ (R189, R270). -/
def execVrsq (o : V1) (s : State) : Host.Outcome State Fault Refusal :=
  vspecial o frsq s

/-- VSQRT (R189, R270). -/
def execVsqrt (o : V1) (s : State) : Host.Outcome State Fault Refusal :=
  vspecial o fsqrt s

/-- VEXP2 (R189, R270). -/
def execVexp2 (o : V1) (s : State) : Host.Outcome State Fault Refusal :=
  vspecial o fexp2 s

/-- VLOG2 (R189, R270). -/
def execVlog2 (o : V1) (s : State) : Host.Outcome State Fault Refusal :=
  vspecial o flog2 s

/-- VSINT (R189, R270). -/
def execVsint (o : V1) (s : State) : Host.Outcome State Fault Refusal :=
  vspecial o fsint s

/-- VCOST (R189, R270). -/
def execVcost (o : V1) (s : State) : Host.Outcome State Fault Refusal :=
  vspecial o fcost s

/-- VDIV (R189, R270). -/
def execVdiv (o : V2) (s : State) : Host.Outcome State Fault Refusal :=
  laneOp o.slot 8 o.d [o.a, o.b] [(o.a, .f32, 0), (o.b, .f32, 1)] (fun _ => .f32)
    (fun e l =>
      let y := value .f32 (e.rd o.b o.perm.onB l).toNat
      special (fun x => fdiv x y) (e.rd o.a o.perm.onA l)) s

end Machine

end Sys2Proof
end

