-- ==== Sys2Proof/Machine/ExecConv.lean ====
section
/-! DEFINITION. Conversions, codebook expansion and amax (R271 to R278). -/

namespace Sys2Proof.Machine

/-- The draw for element k of a lane under stochastic rounding (R180). -/
def Env.draw (e : Env) (l k : Nat) : Nat := srDraw e.r.srctr e.r.srseed e.t.tix e.w.wid l k

/-- The instruction's effects, and SRCTR's advance under sr when it retires (R180). -/
def Env.convRetire (e : Env) (rnd : Rnd) (writes : List Nat) (effs : List Eff) : State :=
  e.retire ({ pos := e.w.pos, due := e.w.pos + 4, effs, dsts := writes } ::
    (if rnd = .sr then [{ pos := e.w.pos, due := e.w.pos + 1, effs := [.srctr] }] else []))

/-- Effect of an amax update over inputs, when the instruction carries .amax (R185). -/
def amaxEff (on : Bool) (l : List FVal) : List Eff := if on then [.amaxUpd (amaxOf l)] else []

/-- amax among the registers written. -/
def amaxNum (on : Bool) : List Nat := if on then [248] else []

/-- One element converted, to the destination element index given (R272). -/
def Env.cv (e : Env) (o : VCvt) (l k : Nat) (v : FVal) : Fl Nat := round o.dst.ff o.rnd o.sat (e.draw l k) v

/-- A conversion whose lanes give registers of a run: per lane, the words with flags and the inputs for amax. -/
def convOp (o : VCvt) (n : Nat) (srcs : List VSrc) (dstRead : Bool) (chks : List TagChk) (tag : Tag)
    (f : Env → Nat → List (Fl Word) × List FVal) (s : State) : Host.Outcome State Fault Refusal :=
  let dst := o.d.runNums n
  run { cls := some .vec, slot := o.slot, reads := (srcs.map VSrc.num).flatten ++ (if dstRead then dst else [])
        writes := dst, lanewise := true }
    (fun e =>
      let own : List TagChk := if dstRead then (match o.d with | .v r => [(.v r, o.dst, 3)] | .zero => []) else []
      match e.tagsBad (chks ++ own) with
      | some t => e.trap t
      | none =>
        let vs := (e.lanes o.slot).map fun l => (l, f e l)
        let fl := vs.foldl (fun g p => g ||| flagsAll p.2.1) 0
        let rows := ((List.range n).map fun i => o.d.putRun i (vs.map fun p => (p.1, ((p.2.1[i]?).getD (0, 0)).1)) tag).flatten
        e.convRetire o.rnd (dst ++ flagNum fl ++ amaxNum o.amax)
          (rows ++ flagEff fl ++ amaxEff o.amax ((vs.map fun p => p.2.2).flatten))) s

/-- VCVT: equal, narrowing into a group, or widening into two registers (R271, R272). -/
def execVcvt (o : VCvt) (s : State) : Host.Outcome State Fault Refusal :=
  let ns := o.src.cnt
  let nd := o.dst.cnt
  let g := o.sub.val
  if nd = ns then
    convOp o 1 [o.a] false [(o.a, o.src, 0)] o.dst
      (fun e l =>
        let vs := (List.range ns).map (fval o.src (e.rd o.a o.perm.onA l))
        ([packFl o.dst.width (vs.zipIdx.map fun p => e.cv o l p.2 p.1)], vs)) s
  else if ns < nd then
    convOp o 1 [o.a, o.b] (decide (0 < g)) [(o.a, o.src, 0), (o.b, o.src, 1)] o.dst
      (fun e l =>
        let va := (List.range ns).map (fval o.src (e.rd o.a o.perm.onA l))
        let vb := (List.range ns).map (fval o.src (e.rd o.b o.perm.onB l))
        let new := (va ++ vb).zipIdx.map fun p => e.cv o l (g * 2 * ns + p.2) p.1
        let old : Word := match o.d with | .v r => if 0 < g then e.vlane r l else 0 | .zero => 0
        let els := (List.range nd).map fun k =>
          if g * 2 * ns ≤ k ∧ k < g * 2 * ns + 2 * ns then (new[k - g * 2 * ns]?).getD (0, 0) else (elem old o.dst.width k, 0)
        ([packFl o.dst.width els], va ++ vb)) s
  else
    convOp o 2 [o.a] false [(o.a, o.src, 0)] o.dst
      (fun e l =>
        let vs := (List.range (2 * nd)).map fun k => fval o.src (e.rd o.a o.perm.onA l) (g * 2 * nd + k)
        let cs := vs.map (round o.dst.ff .rne false 0)
        ([packFl o.dst.width (cs.take nd), packFl o.dst.width (cs.drop nd)], vs)) s

/-- VCVTI: float to integer, saturating (R183, R273). -/
def execVcvti (o : VCvt) (s : State) : Host.Outcome State Fault Refusal :=
  convOp o 1 [o.a] false [(o.a, o.src, 0)] o.dst
    (fun e l =>
      let vs := (List.range o.src.cnt).map (fval o.src (e.rd o.a o.perm.onA l))
      let els := vs.zipIdx.map fun p =>
        let r := toInt o.dst.isSigned o.dst.width o.rnd (e.draw l p.2) p.1
        (r.1.toNat, r.2)
      ([packFl o.dst.width els], vs)) s

/-- VCVTF: integer to float (R183, R273). -/
def execVcvtf (o : VCvt) (s : State) : Host.Outcome State Fault Refusal :=
  convOp o 1 [o.a] false [(o.a, o.src, 0)] o.dst
    (fun e l =>
      let x := e.rd o.a o.perm.onA l
      ([packFl o.dst.width ((List.range o.src.cnt).map fun k =>
        e.cv o l k (ofInt (o.src.read o.src.width (elem x o.src.width k))))], [])) s

/-- VPACK (R274). -/
def execVpack (o : VCvt) (s : State) : Host.Outcome State Fault Refusal :=
  convOp o 1 [o.a, o.b] false [(o.a, o.src, 0), (o.b, o.src, 1)] o.dst
    (fun e l =>
      let el (x : Word) := (List.range o.src.cnt).map fun k => o.src.read o.src.width (elem x o.src.width k)
      let l := (el (e.rd o.a o.perm.onA l) ++ el (e.rd o.b o.perm.onB l)).map fun v =>
        if o.sat then clampTo o.dst o.dst.width v else wrapN o.dst.width v
      ([(ofElems o.dst.width l, 0)], [])) s

/-- VUNPK (R274): cbix2 holds two 16-bit indices. -/
def execVunpk (o : VCvt) (s : State) : Host.Outcome State Fault Refusal :=
  let n := o.dst.cnt
  convOp o 2 [o.a] false [(o.a, o.src, 0)] o.dst
    (fun e l =>
      let w := 32 / (2 * n)
      let el := (List.range (2 * n)).map fun k => wrapN o.dst.width (o.src.read w (elem (e.rd o.a o.perm.onA l) w k))
      ([(ofElems o.dst.width (el.take n), 0), (ofElems o.dst.width (el.drop n), 0)], [])) s

/-- VRETAG (R275). -/
def execVretag (o : V1) (s : State) : Host.Outcome State Fault Refusal :=
  laneOp o.slot 4 o.d [o.a] [] (fun _ => o.fmt) (fun e l => (e.rd o.a o.perm.onA l, 0)) s

/-- A wave-wide result in a scalar destination (R258). -/
def waveScalar (slot : Slot) (lat : Nat) (d : SDst) (reads : List Nat) (f : Env → Except Trap (Option (DWord × Flags))) (s : State) :
    Host.Outcome State Fault Refusal :=
  regOp { cls := some .vec, slot, lat, reads, writes := d.num }
    (fun e => match f e with
      | .error t => .trap t
      | .ok none => .ok [] []
      | .ok (some (x, fl)) => match d.put x with
        | some effs => .ok (effs ++ flagEff fl) (flagNum fl)
        | none => .trap (illop 1)) s

/-- VGETTAG (R275). -/
def execVgettag (o : VToS) (s : State) : Host.Outcome State Fault Refusal :=
  waveScalar o.slot 4 o.d o.a.num (fun e => .ok (some (match o.a with | .v n => zext64 (e.r.tag n).bits | _ => 0, 0))) s

/-- AMAXR (R276). -/
def execAmaxr (o : AmaxR) (s : State) : Host.Outcome State Fault Refusal :=
  regOp { cls := some .vec, slot := o.slot, reads := o.a.num, writes := [248], lanewise := true }
    (fun e => match e.tagsBad [(o.a, o.fmt, 0)] with
      | some t => .trap t
      | none => .ok (amaxEff true (((e.lanes o.slot).map fun l =>
          (List.range o.fmt.cnt).map (fval o.fmt (e.rd o.a o.perm.onA l))).flatten)) []) s

/-- AMAXC: amax is taken and cleared in one step at the due position; checked mode judges its read there (R276). -/
def execAmaxc (o : AmaxC) (s : State) : Host.Outcome State Fault Refusal :=
  regOp { cls := some .vec, slot := o.slot, writes := o.d.num ++ [248] }
    (fun e =>
      let due := e.w.pos + 4
      match (if e.checked then e.w.pend.find? (fun p => decide (due < p.due) && p.dsts.contains 248) else none) with
      | some p => .trap { cause := causeTiming, fword := BitVec.ofNat 32 p.pos }
      | none => match o.d.put ((e.w.regsAt due).amax.setWidth 64) with
        | some _ => .ok [.amaxTake o.d] []
        | none => .trap (illop 1)) s

/-! ### Codebook banks as VXPD and the matrix engine read them (R277, R278, R328, R333) -/

/-- A write to a bank of the team is pending: a codebook load in flight, or CBWR, CBCFG or CBINV not yet performed (R278, R328). -/
def Env.bankBusy (e : Env) (b : Nat) : Bool :=
  e.t.cmds.any (fun c => c.bank == some b)
  || (e.s.core e.coreNo).mtx.any fun j =>
      (match e.s.wave? j.wave with | some w => w.team == e.t.key | none => false)
      && (match j.instr with
        | .cbwr o => o.bank.val == b | .cbcfg o => o.bank.val == b | .cbinv o => o.bank.val == b | _ => false)

/-- A wave waits in place for what writes a bank: for the bank itself, or for the handle of a load of it. -/
def Wave.awaits (w : Wave) (t : Team) (b : Nat) : Bool :=
  w.reason == 13 || (w.reason == 1 && t.cmds.any fun c => c.bank == some b && (List.range 16).any fun k =>
    cget w.regs.h k != 0 && hTag (cget w.regs.h k) == c.tag)

/-- A VXPD of the team that reads a bank is in flight: not yet due, but where its wave waits for what would wait for it (R278).
(DEDUCED: log 141) -/
def State.expanding (s : State) (t : Team) (b : Nat) : Bool :=
  s.waves.any fun w => w.team == t.key && !w.awaits t b && w.pend.any fun p => p.bank == some b && decide (w.pos < p.due)

/-- A bank of a team. -/
def Team.bank (t : Team) (b : Nat) : Bank := (t.banks[b]?).getD {}

/-- A bank put back. -/
def Team.putBank (t : Team) (b : Nat) (x : Bank) : Team :=
  { t with banks := t.banks.zipIdx.map fun p => if p.2 == b then x else p.1 }

/-- A reload that faulted on resume raises PAGE or PROT in the first reader (R333). -/
def Bank.badTrap (b : Bank) : Option Trap := b.bad.map fun p => { cause := p.1, faddr := p.2, access := 0x21 }

/-- VXPD (R198, R277, R278). -/
def execVxpd (o : Vxpd) (s : State) : Host.Outcome State Fault Refusal :=
  run { cls := some .vec, slot := o.slot, reads := o.a.num ++ o.e.num, writes := o.d.runNums 8, lanewise := true }
    (fun e =>
      if e.l.p.nbanks ≤ o.bank.val then e.trap { cause := causeProt }
      else match e.hRead [o.e] with
      | some (.trap t) => e.trap t
      | some (.wait r) => e.hold r
      | _ =>
        if e.bankBusy o.bank.val then e.hold 13
        else match e.tagsBad [(o.a, .cbix2, 0)] with
        | some t => e.trap t
        | none =>
          let b := e.t.bank o.bank.val
          match b.badTrap with
          | some t =>
            ({ e with s := e.s.putTeam (e.t.putBank o.bank.val { b with bad := none }) }).trap t
          | none =>
            let esc : Byte := (e.srd o.e).extractLsb' 0 8
            let rs := (e.lanes o.slot).map fun l =>
              (l, cbDecode b ((e.rd o.a o.perm.onA l).extractLsb' (if o.hi then 16 else 0) 16) esc)
            match rs.findSome? fun p => match p.2 with | .bad n => some n | _ => none with
            | some n => e.trap { cause := causeCbidx, fword := BitVec.ofNat 32 (n + o.bank.val * 512) }
            | none =>
              let vals : List (Nat × List (Nat × Flags)) := rs.map fun p => (p.1, match p.2 with
                | .els l => l.map (round .f32 .rne false 0)
                | _ => List.replicate 8 (0, 0))
              let fl := vals.foldl (fun g p => g ||| flagsAll p.2) 0
              let rows := ((List.range 8).map fun i =>
                o.d.putRun i (vals.map fun p => (p.1, BitVec.ofNat 32 (((p.2[i]?).getD (0, 0)).1))) .f32).flatten
              let zeros := rs.any fun p => match p.2 with | .zeros => true | _ => false
              let e := if zeros then { e with s := e.s.putTeam (e.t.putBank o.bank.val { b with sticky := true }) } else e
              e.retire [{ pos := e.w.pos, due := e.w.pos + 4, effs := rows ++ flagEff fl, dsts := o.d.runNums 8 ++ flagNum fl
                          bank := some o.bank.val }]) s

end Sys2Proof.Machine
end

