-- ==== Sys2Proof/Machine/ExecXlane.lean ====
section
/-! DEFINITION. Cross-lane and mask instructions (R279 to R283). -/

namespace Sys2Proof

open Machine

namespace Machine

/-- A cross-lane instruction with a vector destination and no tag check, Fixed 6 (R279). -/
def xlane (slot : Slot) (d : VDst) (reads : List Nat) (tag : Env → Tag) (f : Env → List Nat → Nat → Option Word) (s : State) :
    Host.Outcome State Fault Refusal :=
  regOp { cls := some .vec, slot, lat := 6, reads, writes := d.num, lanewise := true }
    (fun e =>
      let ls := e.lanes slot
      .ok (d.put (ls.filterMap fun l => (f e ls l).map fun x => (l, x)) (tag e)) []) s

/-- VSHFL (R280). -/
def execVshfl (o : V2) (s : State) : Host.Outcome State Fault Refusal :=
  xlane o.slot o.d (o.a.num ++ o.b.num) (fun e => copyTag e.r o.a)
    (fun e _ l => some (e.rd o.a o.perm.onA ((e.rd o.b o.perm.onB l).toNat % 64))) s

/-- The highest lane at or below l in a mask, or l (R280). -/
def headOf (m : DWord) (l : Nat) : Nat := (((List.range (l + 1)).filter fun j => bit m j).getLast?).getD l

/-- VBCS (R280). -/
def execVbcs (o : VM) (s : State) : Host.Outcome State Fault Refusal :=
  xlane o.slot o.d (o.a.num ++ o.m.num) (fun e => copyTag e.r o.a)
    (fun e _ l => some (e.rd o.a o.perm.onA (headOf (e.mrd o.m) l))) s

/-- VCMPR: the kept values move to the lowest active lanes (R280). -/
def execVcmpr (o : VM) (s : State) : Host.Outcome State Fault Refusal :=
  xlane o.slot o.d (o.a.num ++ o.m.num) (fun e => copyTag e.r o.a)
    (fun e ls l =>
      let kept := ls.filter fun j => bit (e.mrd o.m) j
      (kept[ls.idxOf l]?).map fun j => e.rd o.a o.perm.onA j) s

/-- VBAL (R281). -/
def execVbal (o : VBal) (s : State) : Host.Outcome State Fault Refusal :=
  regOp { cls := some .vec, slot := o.slot, lat := 6, reads := 246 :: o.a.num, writes := o.d.num }
    (fun e => .ok (o.d.put (maskOf fun l => e.active o.slot l && e.rd o.a o.perm.onA l != 0)) []) s

/-- VPFX (R281). -/
def execVpfx (o : VPfx) (s : State) : Host.Outcome State Fault Refusal :=
  xlane o.slot o.d o.m.num (fun _ => .n32)
    (fun e _ l => some (BitVec.ofNat 32 (popcount (e.mrd o.m &&& BitVec.ofNat 64 (2 ^ l - 1))))) s

/-- VRFL: with no active lane the destination is unchanged (R281). -/
def execVrfl (o : VToS) (s : State) : Host.Outcome State Fault Refusal :=
  waveScalar o.slot 6 o.d (246 :: o.a.num) (fun e => .ok (match e.lanes o.slot with
    | [] => none
    | l :: _ => some (zext64 (e.rd o.a o.perm.onA l), 0))) s

end Machine

/-- The reduction of terms of one element position (R282). -/
def ROp.reduce (op : ROp) (t : Tag) (rnd : Rnd) (xs : List Nat) : Fl Nat :=
  let w := t.width
  match t.ffmt with
  | some f =>
    match op with
    | .add => if xs = [] then (0, 0) else faddN f rnd (xs.map (value f))
    | .min => if xs = [] then (f.infBits, 0) else let r := fminmax false (xs.map (value f)); ((round f .rne false 0 r.1).1, r.2)
    | _ => if xs = [] then (f.infBits + f.signBit, 0)
           else let r := fminmax true (xs.map (value f)); ((round f .rne false 0 r.1).1, r.2)
  | none =>
    let lo := if t.isSigned then 2 ^ (w - 1) else 0
    let hi := if t.isSigned then 2 ^ (w - 1) - 1 else 2 ^ w - 1
    let le (x y : Nat) : Bool := t.read w x ≤ t.read w y
    (match op with
      | .add => xs.foldl (fun a x => (a + x) % 2 ^ w) 0
      | .min => xs.foldl (fun a x => if le a x then a else x) hi
      | .max => xs.foldl (fun a x => if le x a then a else x) lo
      | .and => xs.foldl (fun a x => a &&& x) (2 ^ w - 1)
      | .or => xs.foldl (fun a x => a ||| x) 0
      | .xor => xs.foldl (fun a x => a ^^^ x) 0, 0)

/-- Each element position of lane values reduced on its own (R282). -/
def ROp.lanes (op : ROp) (t : Tag) (rnd : Rnd) (vs : List Word) : Fl Word :=
  packFl t.width ((List.range t.cnt).map fun k => op.reduce t rnd (vs.map fun x => elem x t.width k))

namespace Machine

/-- VRED (R282). -/
def execVred (o : VRed) (s : State) : Host.Outcome State Fault Refusal :=
  waveScalar o.slot 6 o.d (246 :: o.a.num) (fun e => match e.tagsBad [(o.a, o.fmt, 0)] with
    | some t => .error t
    | none =>
      let r := o.op.lanes o.fmt o.rnd ((e.lanes o.slot).map fun l => e.rd o.a o.perm.onA l)
      .ok (some (zext64 r.1, r.2))) s

/-- VSCAN (R282). -/
def execVscan (o : VScan) (s : State) : Host.Outcome State Fault Refusal :=
  regOp { cls := some .vec, slot := o.slot, lat := 6, reads := o.a.num, writes := o.d.num, lanewise := true }
    (fun e => match e.tagsBad [(o.a, o.fmt, 0)] with
      | some t => .trap t
      | none =>
        let ls := e.lanes o.slot
        let vs := ls.map fun l =>
          (l, o.op.lanes o.fmt o.rnd ((ls.filter fun j => decide (j < l) || (!o.excl && j == l)).map fun j => e.rd o.a o.perm.onA j))
        let fl := flagsAll (vs.map (·.2))
        .ok (o.d.put (vs.map fun p => (p.1, p.2.1)) o.fmt ++ flagEff fl) (flagNum fl)) s

/-! ### Masks (R283) -/

/-- A mask instruction with a mask destination. -/
def maskOp (slot : Slot) (d : MDst) (srcs : List MSrc) (f : Env → DWord) (s : State) : Host.Outcome State Fault Refusal :=
  regOp { cls := some .vec, slot, reads := (srcs.map MSrc.num).flatten, writes := d.num } (fun e => .ok (d.put (f e)) []) s

/-- MAND (R283). -/
def execMand (o : M2) (s : State) : Host.Outcome State Fault Refusal :=
  maskOp o.slot o.d [o.a, o.b] (fun e => e.mrd o.a &&& e.mrd o.b) s

/-- MOR (R283). -/
def execMor (o : M2) (s : State) : Host.Outcome State Fault Refusal :=
  maskOp o.slot o.d [o.a, o.b] (fun e => e.mrd o.a ||| e.mrd o.b) s

/-- MXOR (R283). -/
def execMxor (o : M2) (s : State) : Host.Outcome State Fault Refusal :=
  maskOp o.slot o.d [o.a, o.b] (fun e => e.mrd o.a ^^^ e.mrd o.b) s

/-- MNOT (R283). -/
def execMnot (o : M1) (s : State) : Host.Outcome State Fault Refusal := maskOp o.slot o.d [o.a] (fun e => ~~~e.mrd o.a) s

/-- MPOPC (R283). -/
def execMpopc (o : MToS) (s : State) : Host.Outcome State Fault Refusal :=
  waveScalar o.slot 4 o.d o.a.num (fun e => .ok (some (BitVec.ofNat 64 (popcount (e.mrd o.a)), 0))) s

/-- MFFS (R283). -/
def execMffs (o : MToS) (s : State) : Host.Outcome State Fault Refusal :=
  waveScalar o.slot 4 o.d o.a.num (fun e => .ok (some (BitVec.ofNat 64 (ffs (e.mrd o.a)), 0))) s

end Machine

/-- The scalar sources of an operand. -/
def MSSrc.scalars : MSSrc → List SSrc | .m _ => [] | .sc x => [x]

namespace Machine

/-- MMOV (R283). -/
def execMmov (o : MMov) (s : State) : Host.Outcome State Fault Refusal :=
  regOp { cls := some .vec, slot := o.slot, reads := o.a.num, writes := o.d.num }
    (fun e => match e.hRead o.a.scalars with
      | some r => r
      | none => match o.d with
        | .m n => .ok [.mreg n (e.msrd o.a)] []
        | .sc d => match d.put (e.msrd o.a) with
          | some effs => .ok effs []
          | none => .trap (illop 1)) s

end Machine

end Sys2Proof
end

