-- ==== Sys2Proof/Machine/ExecMem.lean ====
section
/-! DEFINITION. Memory instructions (R284 to R296, R325): loads, stores, compress-stores, atomics, linked groups, fences, the
scratchpad tag table, and generator descriptors. -/

namespace Sys2Proof

open Machine

/-- The scratchpad space of a vector form (R285). -/
def spOf (q : Fin 4) : Space :=
  match q with
  | 0 => .sp | 1 => .q1 | 2 => .q2 | 3 => .q3

namespace Machine

/-- A vector memory instruction; exm is a source of it (R255). -/
def vecMem (slot : Slot) (la : La) (srcs dsts : List Nat) (op : Env → MemOp) (s : State) : Host.Outcome State Fault Refusal :=
  run { cls := some .mem, slot, reads := srcs, writes := dsts, lanewise := true, mem := true }
    (fun e => e.memory la (246 :: srcs) dsts (op e)) s

/-- A scalar memory instruction: one access, by every lane of its slot (R117). -/
def scaMem (slot : Slot) (la : La) (srcs dsts : List Nat) (op : Env → MemOp) (s : State) : Host.Outcome State Fault Refusal :=
  run { cls := some .mem, slot, reads := srcs, writes := dsts, mem := true }
    (fun e => e.memory la srcs dsts { op e with lanes := e.slotMask slot }) s

/-- The lowest lane of a slot stands for a scalar access. -/
def Env.first (e : Env) (k : Slot) : Nat := (e.inLanes k).headD 0

/-! ### Loads and stores (R285, R286) -/

/-- A vector load. -/
def vload (o : VLd) (sp : Space) (s : State) : Host.Outcome State Fault Refusal :=
  vecMem o.slot o.la o.addr.nums o.d.num (fun e =>
    { pos := e.w.pos, ord := o.ord
      accs := (e.memLanes o.slot).map fun l => { lane := l, kind := .load, sp, va := e.ea o.addr l, size := o.ty.bytes }
      res := match o.d with | .v r => .vreg r o.ty | .zero => .none }) s

/-- A vector store. -/
def vstore (o : VSt) (sp : Space) (s : State) : Host.Outcome State Fault Refusal :=
  vecMem o.slot o.la (o.addr.nums ++ o.src.num) [] (fun e =>
    { pos := e.w.pos, ord := o.ord
      accs := (e.memLanes o.slot).map fun l =>
        { lane := l, kind := .store, sp, va := e.ea o.addr l, size := o.w.bytes, x := zext64 (e.rd o.src none l) } }) s

/-- VLD (R286). -/
def execVld (o : VLd) (s : State) : Host.Outcome State Fault Refusal := vload o .gm s

/-- VLDS (R286). -/
def execVlds (o : VLd) (s : State) : Host.Outcome State Fault Refusal := vload o (spOf o.q) s

/-- VST (R286). -/
def execVst (o : VSt) (s : State) : Host.Outcome State Fault Refusal := vstore o .gm s

/-- VSTS (R286). -/
def execVsts (o : VSt) (s : State) : Host.Outcome State Fault Refusal := vstore o (spOf o.q) s

/-- SLD (R286). -/
def execSld (o : SLd) (s : State) : Host.Outcome State Fault Refusal :=
  scaMem o.slot o.la o.addr.nums (snum o.d) (fun e =>
    { pos := e.w.pos, ord := o.ord, res := .sreg o.d o.w
      accs := [{ lane := e.first o.slot, kind := .load, sp := o.space, va := e.ea o.addr 0, size := o.w.bytes }] }) s

/-- SST (R286). -/
def execSst (o : SSt) (s : State) : Host.Outcome State Fault Refusal :=
  scaMem o.slot o.la (o.addr.nums ++ o.src.num) [] (fun e =>
    { pos := e.w.pos, ord := o.ord
      accs := [{ lane := e.first o.slot, kind := .store, sp := o.space, va := e.ea o.addr 0, size := o.w.bytes
                 x := e.szrd o.src }] }) s

/-! ### Compress-store (R287) -/

/-- The kept set of a compress-store: the active lanes that its mask keeps; re-issued, the original one (R287). -/
def Env.keptSet (e : Env) (o : VCst) : DWord :=
  match e.w.redo, e.w.packs.find? fun x => x.1 == e.w.pos with
  | some _, some x => x.2
  | _, _ => maskList ((e.lanes o.slot).filter (bit (e.mrd o.m)))

/-- The accesses of a compress-store: kept lane number i writes element i; a re-issue writes the lanes of the frame's fml, each at its own
element. -/
def Env.kept (e : Env) (o : VCst) (sp : Space) : List Acc :=
  ((lanesOf (e.keptSet o)).zipIdx.map fun p =>
    { lane := p.1, kind := .store, sp, va := e.ea o.addr 0 + BitVec.ofNat 64 (4 * p.2), size := 4
      x := zext64 (e.rd o.src none p.1), elem := p.2 }).filter fun a => (e.memLanes o.slot).contains a.lane

/-- A compress-store: a base that is not 4-aligned raises ALIGN, whatever the mask keeps. (DEDUCED: log 51) -/
def vcst (o : VCst) (sp : Space) (s : State) : Host.Outcome State Fault Refusal :=
  let srcs := o.addr.nums ++ o.src.num ++ o.m.num
  run { cls := some .mem, slot := o.slot, reads := srcs, lanewise := true, mem := true, keep := some fun e => e.keptSet o } (fun e =>
    let accs := e.kept o sp
    if (e.ea o.addr 0).toNat % 4 ≠ 0 then
      e.trap { cause := causeAlign, faddr := e.ea o.addr 0, access := 2, fml := maskList (accs.map (·.lane)), kept := [(e.w.pos, e.keptSet o)] }
    else e.memory o.la (246 :: srcs) [] { pos := e.w.pos, ord := o.ord, seq := true, accs, kept := e.keptSet o }) s

/-- VCST to global memory (R287). -/
def execVcstGm (o : VCst) (s : State) : Host.Outcome State Fault Refusal := vcst o .gm s

/-- VCST to the team's scratchpad (R287). -/
def execVcstSp (o : VCst) (s : State) : Host.Outcome State Fault Refusal := vcst o .sp s

/-! ### Atomics (R288 to R290) -/

end Machine

/-- The format that a floating add checks and gives (R288). -/
def AOp.tag? : AOp → Option Tag
  | .faddF32 => some .f32 | .faddBf16 => some .bf16x2 | .faddF16 => some .f16x2 | _ => none

namespace Machine

/-- The v register after one, within the file. -/
def vAfter (v : VReg) : VReg := Fin.ofNat 128 (v.val + 1)

/-- The s register k places after one, within the file. -/
def sAfter (n : SReg) (k : Nat) : SReg := Fin.ofNat 64 (n.val + k)

/-- VATOM (R288, R289). -/
def execVatom (o : VAtom) (s : State) : Host.Outcome State Fault Refusal :=
  let srcs := o.addr.nums ++ [o.data.val] ++ (if o.op = .cas then [(vAfter o.data).val] else [])
  let dsts := if o.nr then [] else [o.data.val]
  run { cls := some .mem, slot := o.slot, reads := srcs, writes := dsts, lanewise := true, mem := true } (fun e =>
    match o.op.tag?.bind fun t => e.tagBad (.v o.data) t 0 with
    | some w => e.trap { cause := causeFmtchk, fword := w, fml := maskList (e.memLanes o.slot) }
    | none => e.memory o.la (246 :: srcs) dsts
        { pos := e.w.pos, ord := o.ord, nr := o.nr
          res := if o.nr then .none else .vold o.data (o.op.tag?.getD (e.r.tag o.data))
          accs := (e.memLanes o.slot).map fun l =>
            { lane := l, kind := .atomic o.op, sp := o.space, va := e.ea o.addr l, size := 4
              x := zext64 (e.vlane o.data l), y := zext64 (e.vlane (vAfter o.data) l) } }) s

/-- SATOM (R288, R289). -/
def execSatom (o : SAtom) (s : State) : Host.Outcome State Fault Refusal :=
  scaMem o.slot o.la (o.addr.nums ++ snum o.data ++ (if o.op = .cas then snum (sAfter o.data 1) else []))
    (if o.nr then [] else snum o.data) (fun e =>
      { pos := e.w.pos, ord := o.ord, nr := o.nr
        res := if o.nr then .none else .sreg o.data (if o.wide then .b64 else .n32)
        accs := [{ lane := e.first o.slot, kind := .atomic o.op, sp := o.space, va := e.ea o.addr 0
                   size := if o.wide then 8 else 4, x := e.sreg o.data, y := e.sreg (sAfter o.data 1) }] }) s

/-! ### Linked groups (R291 to R293) -/

/-- LDL. (DEDUCED: log 50) -/
def ldl (o : Ldl) (sp : Space) (size : Nat) (s : State) : Host.Outcome State Fault Refusal :=
  vecMem o.slot o.la o.addr.nums (o.d.runNums (size / 4)) (fun e =>
    { pos := e.w.pos, ord := o.ord
      accs := (e.memLanes o.slot).map fun l => { lane := l, kind := .ldl, sp, va := e.ea o.addr l, size }
      res := match o.d with
        | .v r => if size = 8 then .vpair r else .vreg r (.tag .raw)
        | .zero => .none }) s

/-- LDL of 4 bytes in global memory (R291, R292). -/
def execLdlGm32 (o : Ldl) (s : State) : Host.Outcome State Fault Refusal := ldl o .gm 4 s

/-- LDL of 8 bytes in global memory (R291, R292). -/
def execLdlGm64 (o : Ldl) (s : State) : Host.Outcome State Fault Refusal := ldl o .gm 8 s

/-- LDL of 4 bytes in the team's scratchpad (R291, R292). -/
def execLdlSp32 (o : Ldl) (s : State) : Host.Outcome State Fault Refusal := ldl o .sp 4 s

/-- LDL of 8 bytes in the team's scratchpad (R291, R292). -/
def execLdlSp64 (o : Ldl) (s : State) : Host.Outcome State Fault Refusal := ldl o .sp 8 s

/-- The value registers of STC. -/
def stcValues (o : Stc) : List VReg := (List.range (o.n.val + 1)).map fun i => Fin.ofNat 128 (o.vf.val + i)

/-- STC (R293). -/
def execStc (o : Stc) (s : State) : Host.Outcome State Fault Refusal :=
  vecMem o.slot o.la ((stcValues o).map (·.val)) [o.vs.val] (fun e =>
    { pos := e.w.pos, ord := o.ord, res := .status o.vs
      accs := (e.memLanes o.slot).map fun l => { lane := l, kind := .stc, sp := .gm, va := 0, size := 0 }
      vals := (e.memLanes o.slot).map fun l => (l, (stcValues o).map fun v => e.vlane v l) }) s

/-- LKCLR: the sets of its active lanes are empty and open (R292). -/
def execLkclr (o : Bare) (s : State) : Host.Outcome State Fault Refusal :=
  run { cls := some .mem, slot := o.slot, lanewise := true } (fun e =>
    ({ e with w := { e.w with links := e.w.links.filter fun k => !(e.lanes o.slot).contains k.lane } }).retire []) s

/-! ### Fences (R294, R295): accesses perform in program order; those that wait hold the fence -/

/-- Some agent that an observer set of a wave covers is not of its team: of another package, the host, or a wave of another team placed within
the scope (R165). -/
def Env.coversOthers (e : Env) (obs : Byte) : Bool :=
  obs.getLsbD 6 || obs.getLsbD 7
  || e.s.waves.any fun x => x.team != e.w.team && x.place.isSome && inScope obs e.coreNo x.coreNo

/-- Stores of the wave that stand in its team's log have not been performed towards some agent that a fence covers (R173, R294). -/
def Env.unperformed (e : Env) (obs : Byte) : Bool := e.staged && e.w.logged && e.coversOthers obs

/-- A fence waits while an access of the wave waits, or a logged store has yet to be performed towards an agent that it covers; then it orders
by its set, and joins the paths it names (R168, R171, R173, R294). (DEDUCED: log 45, 157) -/
def Env.fence (e : Env) (obs : Byte) (paths : BitVec 3) : State :=
  if e.w.stalls.isEmpty && !e.unperformed obs then
    let (s, w) := e.s.fenced e.w obs paths
    ({ e with s, w := { w with late := [] } }).retire []
  else e.hold 6

/-- FENCE (R294). -/
def execFence (o : Fence) (s : State) : Host.Outcome State Fault Refusal :=
  run { cls := some .mem, slot := o.slot } (fun e => e.fence o.obs 0) s

/-- FENCEX (R295). -/
def execFencex (o : FenceX) (s : State) : Host.Outcome State Fault Refusal :=
  run { cls := some .mem, slot := o.slot } (fun e => e.fence o.obs (BitVec.ofNat 3 (o.vec.toNat + 2 * o.mtx.toNat + 4 * o.cpy.toNat))) s

/-! ### The scratchpad tag table (R141 to R144, R296) -/

/-- Tag table entries of a team (R141). -/
def Launch.entries (l : Launch) : Nat := roundUp4K l.p.spbytes / 4096

/-- Fields of a tag table entry (R141). -/
def entryValid (x : DWord) : Bool := x.getLsbD 63
def entryBusy (x : DWord) : Bool := x.getLsbD 62
def entrySlot (x : DWord) : Nat := (x.extractLsb' 0 10).toNat

/-- The entry address (R142). -/
def entryAddr (x : DWord) : Nat := (x.extractLsb' 12 48).toNat * 512 + (x.extractLsb' 60 1).toNat * 256 % 512

/-- An entry word: busy, valid, dirty, an address rounded down to the slot size, and a slot, of which the field
holds 10 bits (R141, R142). (DESIGN CHOICE: log 165) -/
def entryOf (valid busy dirty : Bool) (lg addr slot : Nat) : DWord :=
  let a := addr % 2 ^ 57 / 2 ^ lg * 2 ^ lg
  BitVec.ofNat 64 (valid.toNat * 2 ^ 63 + busy.toNat * 2 ^ 62 + dirty.toNat * 2 ^ 61 + a / 256 % 2 * 2 ^ 60 + a / 512 * 2 ^ 12
    + slot % 1024)

/-- A valid or busy entry is for the slot of an address (R143). -/
def entryHit (lg : Nat) (va : DWord) (x : DWord) : Bool :=
  (entryValid x || entryBusy x) && va.toNat % 2 ^ 57 / 2 ^ lg == entryAddr x / 2 ^ lg

/-- What a lookup of an address gives: the slot, −2 for a busy entry, −1 for none (R143). (DEDUCED: log 47) -/
def lookSlot (tab : List DWord) (lg : Nat) (va : DWord) : Word :=
  match tab.find? (entryHit lg va) with
  | none => BitVec.ofInt 32 (-1)
  | some x => if entryBusy x then BitVec.ofInt 32 (-2) else BitVec.ofNat 32 (entrySlot x)

/-- Effects of a long-latency instruction, due at the end of its window (R127). -/
def Env.long (e : Env) (la : La) (srcs dsts : List Nat) (effs : List Eff) : State :=
  e.retire [{ pos := e.w.pos, due := e.w.pos + 1 + e.la la, long := true, effs, srcs, dsts }]

/-- The copies whose installs a lookup of addresses hits (R144). -/
def Team.hitInstalls (t : Team) (tab : List DWord) (lg : Nat) (vas : List DWord) : List Nat :=
  vas.filterMap fun va => (tab.findIdx? (entryHit lg va)).bind fun n => (t.installs.find? fun x => x.1 == n).map (·.2)

/-- SPLK (R143, R144, R296): a hit on a slot that a copy installed acts as a wait on that copy. (DESIGN CHOICE: log 46) -/
def execSplk (o : SpLk) (s : State) : Host.Outcome State Fault Refusal :=
  run { cls := some .mem, slot := o.slot, reads := o.addr.nums, writes := o.d.num, lanewise := true, mem := true } (fun e =>
    let tab := (List.range e.l.entries).map (cget e.t.tab)
    let seqs := e.t.hitInstalls tab e.w.lg ((e.memLanes o.slot).map (e.ea o.addr))
    ({ e with w := e.w.learn (e.s.waited seqs) }).long o.la (246 :: o.addr.nums) o.d.num
      (o.d.put ((e.memLanes o.slot).map fun l => (l, lookSlot tab e.w.lg (e.ea o.addr l))) .s32)) s

/-- An entry number, or the trap of one at or above u (R141). (DEDUCED: log 48) -/
def Env.entry (e : Env) (slot : Slot) (n : SReg) : Except Trap Nat :=
  if (e.sreg n).toNat < e.l.entries then .ok (e.sreg n).toNat
  else .error { cause := causeProt, fml := e.slotMask slot }

/-- An entry written by an instruction: it orders nothing (R144). -/
def Team.setEntry (t : Team) (n : Nat) (x : DWord) : Team :=
  { t with tab := cset t.tab n x, installs := t.installs.filter fun y => y.1 != n }

/-- SPSET (R141, R142, R296). (DEDUCED: log 49) -/
def execSpset (o : SpSet) (s : State) : Host.Outcome State Fault Refusal :=
  run { cls := some .mem, slot := o.slot, reads := snum o.n ++ snum o.src, mem := true } (fun e =>
    match e.entry o.slot o.n with
    | .error t => e.trap t
    | .ok n =>
      let x := e.sreg o.src
      if entryBusy (cget e.t.tab n) then e.hold 1
      else if e.l.p.spbytes < (entrySlot x + 1) * 2 ^ e.w.lg then e.trap { cause := causeProt, fml := e.slotMask o.slot }
      else
        let v := entryOf (entryValid x) false (x.getLsbD 61) e.w.lg (entryAddr x) (entrySlot x)
        ({ e with s := e.s.putTeam (e.t.setEntry n v) }).long o.la (snum o.n ++ snum o.src) [] []) s

/-- SPCLR (R296). -/
def execSpclr (o : SpClr) (s : State) : Host.Outcome State Fault Refusal :=
  run { cls := some .mem, slot := o.slot, reads := snum o.n, mem := true } (fun e =>
    match e.entry o.slot o.n with
    | .error t => e.trap t
    | .ok n =>
      let x := cget e.t.tab n
      if entryBusy x then e.hold 1
      else ({ e with s := e.s.putTeam (e.t.setEntry n (x &&& 0x5FFFFFFFFFFFFFFF)) }).long o.la (snum o.n) [] []) s

/-- SPGET (R296). -/
def execSpget (o : SpGet) (s : State) : Host.Outcome State Fault Refusal :=
  run { cls := some .mem, slot := o.slot, reads := snum o.n, writes := snum o.d, mem := true } (fun e =>
    match e.entry o.slot o.n with
    | .error t => e.trap t
    | .ok n => e.long o.la (snum o.n) (snum o.d) [.sreg o.d (cget e.t.tab n)]) s

/-! ### Generator descriptors (R325) -/

/-- GLD. -/
def gld (o : GMem) (sp : Space) (s : State) : Host.Outcome State Fault Refusal :=
  scaMem o.slot o.la o.addr.nums (gnum o.g) (fun e =>
    { pos := e.w.pos, res := .gen o.g
      accs := [{ lane := e.first o.slot, kind := .gld, sp, va := e.ea o.addr 0, size := 32 }] }) s

/-- GST. -/
def gst (o : GMem) (sp : Space) (s : State) : Host.Outcome State Fault Refusal :=
  scaMem o.slot o.la (o.addr.nums ++ gnum o.g) [] (fun e =>
    let d := cget e.r.g o.g.val
    { pos := e.w.pos
      accs := [{ lane := e.first o.slot, kind := .gst, sp, va := e.ea o.addr 0, size := 32 }]
      vals := [(e.first o.slot, (List.range 8).map fun i => d.extractLsb' (32 * i) 32)] }) s

/-- GLD from global memory (R325). -/
def execGldGm (o : GMem) (s : State) : Host.Outcome State Fault Refusal := gld o .gm s

/-- GLD from the team's scratchpad (R325). -/
def execGldSp (o : GMem) (s : State) : Host.Outcome State Fault Refusal := gld o .sp s

/-- GST to global memory (R325). -/
def execGstGm (o : GMem) (s : State) : Host.Outcome State Fault Refusal := gst o .gm s

/-- GST to the team's scratchpad (R325). -/
def execGstSp (o : GMem) (s : State) : Host.Outcome State Fault Refusal := gst o .sp s

end Machine

end Sys2Proof
end

