-- ==== Sys2Proof/Machine/ExecAsy.lean ====
section
/-! DEFINITION. Copies, tags, handles and codebook loads (R145 to R148, R297 to R304, R329). -/

namespace Sys2Proof

open Machine

namespace Machine

/-- A handle (R145). -/
def handle (cls tag : Nat) (gen : BitVec 22) : Word := BitVec.ofNat 32 (cls * 2 ^ 28 + tag * 2 ^ 22 + gen.toNat)

/-- A tag's state put back. -/
def Team.putTag (t : Team) (k : Nat) (x : TagSt) : Team := { t with tagst := lset t.tagst k x }

/-- A tag that a command may not use, or must wait for (R145, R146). -/
def Env.tagWait (e : Env) (tag : Nat) : Option Res :=
  if e.l.p.ntags ≤ tag then some (.trap { cause := causeProt })
  else if (e.t.tag tag).busy then some (.wait 2)
  else none

/-- A command issued: the tag's generation advances, its bit clears, and the handle is written (R146, R301); a watchpoint that its shape record
hit traps after it (R208). -/
def Env.issueCmd (e : Env) (cls : Nat) (h : Fin 16) (c : Cmd) (watch : Option Nat := none) : State :=
  let g := (e.t.tag c.tag).gen + 1
  let t := e.t.putTag c.tag
    { gen := g, busy := true, status := 0, cls, seqs := (e.t.tag c.tag).seqs ++ [(g.toNat, e.s.fresh)] }
  let t' := { t with tags := t.tags &&& ~~~laneBit c.tag, cmds := t.cmds ++ [{ c with seq := e.s.fresh, known := e.w.known }] }
  let s := { e.s with fresh := e.s.fresh + 1 }.putTeam t'
  let effs := [.hreg h (handle cls c.tag g)]
  match watch with
  | none => ({ e with s }).fixed 4 (hnum h) effs
  | some n =>
    s.raise { e.w with pend := e.w.pend ++ [{ pos := e.w.pos, due := e.w.pos + 4, effs, dsts := hnum h }] }
      { cause := causeWatch, fword := BitVec.ofNat 32 n, pos := e.w.pos }

/-- Bytes of a copy: its counts multiplied (R298, R299). -/
def totalBytes (dims : List (Nat × DWord × DWord)) : Nat := dims.foldl (fun n d => n * d.1) 1

/-- Counts that a copy may have: each at least 1, and at most 2^40 bytes together (R298, R299). -/
def dimsOk (dims : List (Nat × DWord × DWord)) : Bool := dims.all (fun d => d.1 != 0) && decide (totalBytes dims ≤ 2 ^ 40)

/-- The entry that an installing copy writes at issue, in the team's table, busy or not before (R144). (DESIGN CHOICE: log 166) -/
def Env.install (e : Env) (n : SReg) (sa da : DWord) : Except Trap (Nat × Team) :=
  if e.l.entries ≤ (e.sreg n).toNat then .error { cause := causeProt }
  else if da.toNat % 2 ^ e.w.lg ≠ 0 then .error { cause := causeAlign, faddr := da, access := 0x22 }
  else
    let k := (e.sreg n).toNat
    .ok (k, e.t.setEntry k (entryOf false true false e.w.lg sa.toNat (da.toNat / 2 ^ e.w.lg)))

/-- A copy with its dimensions known (R144, R298 to R301). -/
def Env.copy (e : Env) (o : Cpy) (dims : List (Nat × DWord × DWord)) (watch : Option Nat := none) : State :=
  if !dimsOk dims then e.trap (illop 1)
  else
    let sa := e.sreg o.sa
    let da := e.sreg (sAfter o.sa 1)
    let c : Cmd := { tag := o.tag.val, seq := 0, wave := e.w.key, src := o.src, dst := o.dst, sa, da, dims }
    match o.install with
    | none => e.issueCmd 1 o.h c watch
    | some n =>
      match e.install n sa da with
      | .error t => e.trap t
      | .ok (k, t) => ({ e with t }).issueCmd 1 o.h { c with install := some k } watch

/-- Register numbers of a copy's operands. -/
def cpyNums (o : Cpy) (n : Nat) : List Nat :=
  ((List.range n).map fun k => 128 + (sAfter o.sa k).val) ++ (match o.install with | some i => snum i | none => [])

/-- The dimensions of CPY: a run of bytes, and the runs with their pitches (R298, R300). -/
def Env.cpyDims (e : Env) (o : Cpy) : List (Nat × DWord × DWord) :=
  let n := e.sreg (sAfter o.sa 2)
  let p := e.sreg (sAfter o.sa 3)
  [((n.extractLsb' 0 32).toNat, 0, 0),
   ((n.extractLsb' 32 32).toNat, sext64 (p.extractLsb' 0 32), sext64 (p.extractLsb' 32 32))]

/-- CPY (R297, R298, R300). (DEDUCED: log 63) -/
def execCpy (o : Cpy) (s : State) : Host.Outcome State Fault Refusal :=
  run { cls := some .asy, slot := o.slot, reads := cpyNums o 4, writes := hnum o.h } (fun e =>
    match e.tagWait o.tag.val with
    | some (.trap t) => e.trap t
    | some (.wait r) => e.hold r
    | _ => e.copy o (e.cpyDims o)) s

/-- The dimensions of a shape record; none when a field is out of its limits (R299). -/
def shapeDims (b : List Byte) : Option (List (Nat × DWord × DWord)) :=
  let at_ (o n : Nat) : Nat := leNat ((b.drop o).take n)
  let nd := at_ 0 1
  if nd = 0 ∨ 5 < nd ∨ at_ 1 7 ≠ 0 then none
  else
    let l := (List.range nd).map fun i =>
      (at_ (8 + 24 * i) 4, BitVec.ofNat 64 (at_ (16 + 24 * i) 8), BitVec.ofNat 64 (at_ (24 + 24 * i) 8))
    if (List.range nd).any (fun i => at_ (12 + 24 * i) 4 != 0) ∨ at_ 16 8 ≠ 0 ∨ at_ 24 8 ≠ 0 then none else some l

/-- CPYN: it reads its shape record at issue, as an access of the wave (R208, R299). -/
def execCpyn (o : Cpy) (s : State) : Host.Outcome State Fault Refusal :=
  run { cls := some .asy, slot := o.slot, reads := cpyNums o 3, writes := hnum o.h } (fun e =>
    match e.tagWait o.tag.val with
    | some (.trap t) => e.trap t
    | some (.wait r) => e.hold r
    | _ =>
      let ra := e.sreg (sAfter o.sa 2)
      if ra.toNat % 8 ≠ 0 then e.trap { cause := causeAlign, faddr := ra, access := 1 }
      else if e.l.p.spbytes < ra.toNat + 128 then e.trap { cause := causeProt, faddr := ra, access := 1 }
      else
        let pa := spAddr e.coreNo (e.t.spBase + ra.toNat)
        -- every store of the wave's earlier clauses is seen, whatever lane issued it
        match readAt e.s.poison (({ e.actor with who := some (e.w.key, ones64) }).view e.s) pa 128 with
        | .error f => e.s.strike e.w 2 (match f with | .ecc _ k => k | _ => none) { cause := causeEcc, faddr := ra, access := 1, pos := e.w.pos }
        | .ok b =>
          let (s, watch) := e.s.watch e.coreNo e.w.slotNo 0 e.c.id [⟨true, pa, 128, true, false⟩]
          let e := { e with s }
          match shapeDims b with
          | none => e.trap (illop 1)
          | some dims => e.copy o dims watch) s

/-- CBLD (R329). -/
def execCbld (o : CbLd) (s : State) : Host.Outcome State Fault Refusal :=
  run { cls := some .asy, slot := o.slot, reads := snum o.sa, writes := hnum o.h } (fun e =>
    if e.l.p.nbanks ≤ o.bank.val then e.trap { cause := causeProt }
    else match e.tagWait o.tag.val with
    | some (.trap t) => e.trap t
    | some (.wait r) => e.hold r
    | _ =>
      let sa := e.sreg o.sa
      if sa.toNat % 8 ≠ 0 then e.trap { cause := causeAlign, faddr := sa, access := 0x21 }
      else e.issueCmd 3 o.h
        { tag := o.tag.val, seq := 0, wave := e.w.key, src := if o.sp then .sp else .gm, dst := .sp, sa, da := 0
          dims := [(4096, 0, 0)], bank := some o.bank.val }) s

/-! ### Waits (R120, R302) -/

/-- A Block instruction stands at the last position of its clause (R235). -/
def lastChk (e : Env) : Option Trap := if e.w.pos + 1 ≠ e.cl.count then some (illop 1) else none

/-- The trap of a wait that consumes these tags: the lowest whose command ended in FAULT; a peer not reached raises ECC with its
source (R33, R159, R302). -/
def Team.faulted (t : Team) (m : DWord) : Option Trap :=
  ((List.range 64).find? fun k => bit m k && !(t.tag k).busy && (t.tag k).status == 3).map fun k =>
    let x := t.tag k
    { cause := x.cause, faddr := x.faddr, access := x.access,
      fword := if x.cause = causeEcc then BitVec.ofNat 32 x.ecc else BitVec.ofNat 32 k }

/-- A mask operand of a tag instruction: an h register waits until complete, and a bit at or above ntags raises PROT (R147,
R302). -/
def Env.tagMask (e : Env) (x : MSSrc) : Except Res DWord :=
  match (match x with | .sc y => e.hRead [y] | _ => none) with
  | some r => .error r
  | none =>
    if (e.msrd x).toNat / 2 ^ e.l.p.ntags ≠ 0 then .error (.trap { cause := causeProt }) else .ok (e.msrd x)

/-- A stopped read: its trap or its wait. -/
def Env.stop (e : Env) (r : Res) : State :=
  match r with
  | .trap t => e.trap t
  | .wait n => e.hold n
  | .ok effs more => e.fixed 4 more effs
  | .ecc n k => e.s.strike e.w n k { cause := causeEcc, pos := e.w.pos }

/-- Numbers of the tag's commands up to a generation: each was complete when the next was issued (R146, R147). (DEDUCED: log 155) -/
def TagSt.upTo (x : TagSt) (gen : Nat) : List Nat := (x.seqs.reverse.dropWhile fun y => y.1 != gen).map (·.2)

/-- Numbers of the commands of the tags that a mask names. -/
def Team.seqsOf (t : Team) (m : DWord) : List Nat := (lanesOf m).flatMap fun k => (t.tag k).upTo (t.tag k).gen.toNat

/-- Numbers of the commands that a handle, complete or stale, shows complete. -/
def Team.seqOf (t : Team) (h : Word) : List Nat := if h = 0 then [] else (t.tag (hTag h)).upTo (hGen h).toNat

/-- The tag that a handle's wait consumes: none when the handle is null or stale (R147, R302). -/
def Team.uses (t : Team) (h : Word) : DWord :=
  if h = 0 ∨ hGen h ≠ (t.tag (hTag h)).gen then 0 else laneBit (hTag h)

/-- What a wait on handles or tags comes to as it ends: HWAIT consumes its handle, TWALL every tag of the mask, TWANY those that are set
(R172, R302). -/
def Team.passes (t : Team) : Wait → Passed
  | .handle h => { seqs := t.seqOf h, trap := t.faulted (t.uses h) }
  | .tagAny m => { seqs := t.seqsOf (t.tags &&& m), trap := t.faulted (t.tags &&& m) }
  | .tagAll m => { seqs := t.seqsOf m, trap := t.faulted m }
  | _ => {}

/-- A wait that has ended: the writes of the commands come before the wave's later accesses on its vec path (R172); then the trap of one that
ended in FAULT, after which the wait is issued anew (R135). -/
def Env.goPast (e : Env) (x : Passed) : State :=
  let e := { e with w := e.w.learn (e.s.waited x.seqs) }
  match x.trap with
  | some t => ({ e with w := e.w.setFrag e.w.cur fun f => { f with past := none } }).trap t
  | none => e.retire []

/-- Number of tags (R122). -/
def tagsNum : Nat := 247

/-- A wait on tags: satisfied, it consumes tags; else the fragment blocks (R120, R302). -/
def tagWaitOp (o : TMask) (ok : DWord → DWord → Bool) (w : DWord → Wait) (s : State) : Host.Outcome State Fault Refusal :=
  run { cls := some .asy, slot := o.slot, reads := tagsNum :: o.a.num, chk := lastChk } (fun e =>
    match e.f.past with
    | some x => e.goPast x
    | none => match e.tagMask o.a with
      | .error r => e.stop r
      | .ok m => if ok e.t.tags m then e.goPast (e.t.passes (w m)) else e.block (w m) 2) s

/-- TWANY (R302). -/
def execTwany (o : TMask) (s : State) : Host.Outcome State Fault Refusal :=
  tagWaitOp o (fun t m => m == 0 || (t &&& m) != 0) .tagAny s

/-- TWALL (R302). -/
def execTwall (o : TMask) (s : State) : Host.Outcome State Fault Refusal :=
  tagWaitOp o (fun t m => (t &&& m) == m) .tagAll s

/-- TFFR (R302). -/
def execTffr (o : TFfr) (s : State) : Host.Outcome State Fault Refusal :=
  regOp { cls := some .asy, slot := o.slot, reads := tagsNum :: o.a.num, writes := o.d.num } (fun e =>
    match e.tagMask o.a with
    | .error r => r
    | .ok m =>
      match o.d.put (match (List.range 64).find? (bit (e.t.tags &&& m)) with | some k => BitVec.ofNat 64 k | none => 64) with
      | some effs => .ok effs []
      | none => .trap (illop 1)) s

/-- TCLR: the bits clear at the due position (R302). -/
def execTclr (o : TMask) (s : State) : Host.Outcome State Fault Refusal :=
  regOp { cls := some .asy, slot := o.slot, reads := o.a.num, writes := [tagsNum] } (fun e =>
    match e.tagMask o.a with
    | .error r => r
    | .ok m => .ok [.tclr m] []) s

/-! ### Handles (R147, R303, R304) -/

/-- Bytes done of a tag's command: in completed steps (R148, R303). -/
def Team.bytesDone (t : Team) (k : Nat) : Nat :=
  if (t.tag k).busy then (match t.cmds.find? (fun c => c.tag == k) with | some c => c.done | none => 0) else (t.tag k).done

/-- HTEST's result (R303). -/
def Team.htest (t : Team) (h : Word) : DWord :=
  if h = 0 then 1
  else
    let x := t.tag (hTag h)
    if hGen h ≠ x.gen then BitVec.ofNat 64 (128 + hClass h * 16 + 1)
    else BitVec.ofNat 64 (t.bytesDone (hTag h) * 256 + hClass h * 16 + (if x.busy then 0 else x.status))

/-- HTEST (R303). -/
def execHtest (o : HTest) (s : State) : Host.Outcome State Fault Refusal :=
  regOp { cls := some .asy, slot := o.slot, reads := hnum o.h, writes := o.d.num } (fun e =>
    let h := cget e.r.h o.h.val
    match e.l.handleBad h with
    | some t => .trap t
    | none => match o.d.put (e.t.htest h) with
      | some effs => .ok effs []
      | none => .trap (illop 1)) s

/-- HWAIT (R302). -/
def execHwait (o : HOp) (s : State) : Host.Outcome State Fault Refusal :=
  run { cls := some .asy, slot := o.slot, reads := hnum o.h, chk := lastChk } (fun e =>
    match e.f.past with
    | some x => e.goPast x
    | none =>
      let h := cget e.r.h o.h.val
      match e.l.handleBad h with
      | some t => e.trap t
      | none => if e.t.complete h then e.goPast (e.t.passes (.handle h)) else e.block (.handle h) 1) s

/-- HCANCEL: a pending copy stops at its next step boundary; nothing else happens for any other handle (R304). -/
def execHcancel (o : HOp) (s : State) : Host.Outcome State Fault Refusal :=
  run { cls := some .asy, slot := o.slot, reads := hnum o.h } (fun e =>
    let h := cget e.r.h o.h.val
    match e.l.handleBad h with
    | some t => e.trap t
    | none =>
      if e.t.complete h then e.fixed 4 [] []
      else
        let cmds := e.t.cmds.map fun c => if c.tag == hTag h && c.bank.isNone then { c with cancel := true } else c
        ({ e with s := e.s.putTeam { e.t with cmds } }).fixed 4 [] []) s

end Machine

end Sys2Proof
end

