-- ==== Sys2Proof/Machine/ExecMtx.lean ====
section
/-! DEFINITION. Generators and the matrix engine (R305 to R333): issue with the snapshot of R306, and what the engine does when it
performs an instruction. -/

namespace Sys2Proof

open Machine

namespace Machine

/-! ### Generator registers (R320 to R324) -/

/-- The value element k of a slot's frequency table. -/
def Regs.gtable (r : Regs) (g : Fin 8) : List Word := (List.range 256).map fun k => cget r.gtab (256 * g.val + k)

/-- What reading a generator raises (R321, R326): a reload that faulted, then GENCFG with the slot number. -/
def Env.genTrap (e : Env) (g : Fin 8) (fmt : Option Tag) : Option Trap :=
  let b := cget e.r.gbad g.val
  if b ≠ 0 then some { cause := b.toNat % 128, faddr := b - BitVec.ofNat 64 (b.toNat % 128), access := 1 }
  else if gBad (cget e.r.g g.val) fmt then some { cause := causeGencfg, fword := BitVec.ofNat 32 g.val }
  else none

/-- GSET (R322). -/
def execGset (o : GSet) (s : State) : Host.Outcome State Fault Refusal :=
  regOp { cls := some .vec, slot := o.slot, reads := o.a.num ++ gnum o.g, writes := gnum o.g } (fun e =>
    match e.hRead [o.a] with
    | some r => r
    | none =>
      let x := e.srd o.a
      if o.field = .ctl ∧ (x.extractLsb' 0 4).toNat = 5 ∧ gKind (cget e.r.g o.g.val) ≠ 5 then
        .trap { cause := causeGencfg, fword := BitVec.ofNat 32 o.g.val }
      else .ok [.gfield o.g o.field x] []) s

/-- GADV: adds to an origin, mod 2^32 (R323). -/
def execGadv (o : GAdv) (s : State) : Host.Outcome State Fault Refusal :=
  regOp { cls := some .vec, slot := o.slot, reads := o.a.num ++ gnum o.g, writes := gnum o.g } (fun e =>
    match e.hRead [o.a] with
    | some r => r
    | none =>
      let d := cget e.r.g o.g.val
      let x := (e.srd o.a).extractLsb' 0 32
      .ok [if o.col then .gfield o.g .col0 (zext64 (gCol0 d + x)) else .gfield o.g .row0 (zext64 (gRow0 d + x))] []) s

/-- The trap of a generator read; a reload that faulted is reported to its first reader (R326). -/
def Env.genFault (e : Env) (g : Fin 8) (t : Trap) : State :=
  ({ e with w := { e.w with regs := { e.w.regs with gbad := cset e.w.regs.gbad g.val 0 } } }).trap t

/-- GRD (R324). -/
def execGrd (o : Grd) (s : State) : Host.Outcome State Fault Refusal :=
  run { cls := some .vec, slot := o.slot, lat := 8, reads := o.r.num ++ o.c.num ++ gnum o.g, writes := o.d.num, lanewise := true }
    (fun e => match e.genTrap o.g none with
      | some t => e.genFault o.g t
      | none =>
        let d := cget e.r.g o.g.val
        let seed := gSeedEff d e.l.p.id e.t.tix e.w.wid
        let tab := fun k => cget e.r.gtab (256 * o.g.val + k)
        e.fixed 8 o.d.num (o.d.put ((e.lanes o.slot).map fun l =>
          (l, BitVec.ofNat 32 (gValue .f32 d tab seed (e.rd o.r none l) (e.rd o.c none l)))) .f32)) s

/-! ### Issue (R305 to R307, R310, R311) -/

/-- All 64 lanes, in the slot, with exm all ones (R117, R305). -/
def Env.whole (e : Env) (k : Slot) : Bool := (List.range 64).all (e.inslot k) && e.r.exm == ones64

/-- An engine instruction queued; `la` of a Long one opens its window (R127, R306). -/
def Env.queueJob (e : Env) (j : MtxJob) (long : Option La) (srcs dsts : List Nat) : State :=
  let k := e.s.core e.coreNo
  let s := { e.s with fresh := e.s.fresh + 1 }.putCore { k with mtx := k.mtx ++ [{ j with seq := e.s.fresh }] }
  let pend := match long with
    | some la => [{ pos := e.w.pos, due := e.w.pos + 1 + e.la la, long := true, effs := [], srcs, dsts }]
    | none => []
  ({ e with s }).retire pend

/-- A job of the issuing instruction. -/
def Env.job (e : Env) (i : Instr) : MtxJob :=
  { known := e.w.known, wave := e.w.key, seq := 0, pos := e.w.pos, instr := i, mvc := e.r.mvc.toNat, start := e.r.mrp.toNat }

/-- An instruction that takes mrp as its start row writes 0 to it in the same step (R307). -/
def Env.takeMrp (e : Env) : Env := { e with w := { e.w with regs := { e.w.regs with mrp := 0 } } }

/-- The trap of a matrix instruction at issue: for PAGE and PROT the fault word holds mrp (R133, R307). -/
def Env.mtxFault (e : Env) (t : Trap) : Trap :=
  if t.cause = causePage ∨ t.cause = causeProt then { t with fword := e.r.mrp.setWidth 32 } else t

/-- What an address pair raises at issue: base and stride are multiples of 32 (R311). -/
def Env.pairTrap (e : Env) (n : SReg) (access : Nat) : Option Trap :=
  let b := e.sreg n
  if b.toNat % 32 ≠ 0 ∨ (e.sreg (sAfter n 1)).toNat % 32 ≠ 0 then
    some { cause := causeAlign, faddr := b, access := BitVec.ofNat 8 access }
  else none

/-- What an A operand raises at issue. -/
def Env.aTrap (e : Env) (fmt : Tag) : AOpd → Option Trap
  | .addr n _ => e.pairTrap n 0x11
  | .gen g => e.genTrap g (some fmt)

/-- What a B operand raises at issue (R312). -/
def Env.bTrap (e : Env) (fmt : Tag) : BOpd → Option Trap
  | .addr n _ => e.pairTrap n 0x11
  | .gen g => e.genTrap g (some fmt)
  | .cb n _ _ =>
    let x := e.sreg (sAfter n 2)
    let len := (x.extractLsb' 0 32).toNat
    if len = 0 ∨ len % 48 ≠ 0 ∨ (x.extractLsb' 32 32).toNat % 8 ≠ 0 then some (illop 1)
    else if (e.sreg n).toNat % 2 ≠ 0 then some { cause := causeAlign, faddr := e.sreg n, access := 0x11 }
    else none

/-- Register numbers of operands. -/
def aNums : AOpd → List Nat
  | .addr n _ => snum n ++ snum (sAfter n 1)
  | .gen g => gnum g

/-- Register numbers of operands. -/
def bNums : BOpd → List Nat
  | .addr n _ => snum n ++ snum (sAfter n 1)
  | .gen g => gnum g
  | .cb n _ _ => snum n ++ snum (sAfter n 1) ++ snum (sAfter n 2)

/-- The bank that a B operand reads. -/
def bBank : BOpd → Option Nat
  | .cb _ _ b => some b.val
  | _ => none

/-- The checks of a matrix instruction on its tile: ILLCONV before any operand is read, then PROT (R305, R310). (DESIGN CHOICE: log 65) -/
def Env.tileTrap (e : Env) (slot : Slot) (tile : Fin 16) : Option Trap :=
  if !e.whole slot then some { cause := causeIllconv }
  else if e.l.p.ntiles ≤ tile.val then some (e.mtxFault { cause := causeProt })
  else none

/-- The snapshot of MMA's operands (R306). -/
def Env.snap (e : Env) (a : AOpd) (b : BOpd) (j : MtxJob) : MtxJob :=
  let j := match a with
    | .addr n _ => { j with a0 := e.sreg n, a1 := e.sreg (sAfter n 1) }
    | .gen g => { j with ga := cget e.r.g g.val, gaTab := e.r.gtable g }
  match b with
  | .addr n _ => { j with b0 := e.sreg n, b1 := e.sreg (sAfter n 1) }
  | .gen g => { j with gb := cget e.r.g g.val, gbTab := e.r.gtable g }
  | .cb n _ _ => { j with b0 := e.sreg n, b1 := e.sreg (sAfter n 1), b2 := e.sreg (sAfter n 2) }

/-- The trap of an operand at issue: of a generator, as its readers raise it. -/
def Env.opdFault (e : Env) (g : Option (Fin 8)) (t : Trap) : State :=
  match g with
  | some g => e.genFault g (e.mtxFault t)
  | none => e.trap (e.mtxFault t)

/-- The registers that MMA reads unnamed: exm, mvc and mrp (R117, R306). (DEDUCED: log 62) -/
def rowNums : List Nat := [246, 249, 250]

/-- MMA and MMAZ issue (R305 to R312, R328). -/
def mmaIssue (o : Mma) (i : Instr) (s : State) : Host.Outcome State Fault Refusal :=
  run { cls := some .mtx, slot := o.slot, reads := rowNums ++ aNums o.a ++ bNums o.b } (fun e =>
    match e.tileTrap o.slot o.tile with
    | some t => e.trap t
    | none =>
      if (bBank o.b).any (fun b => decide (e.l.p.nbanks ≤ b)) then e.trap (e.mtxFault { cause := causeProt })
      else if (bBank o.b).any e.bankBusy then e.hold 13
      else match e.aTrap o.fmt o.a with
      | some t => e.opdFault (match o.a with | .gen g => some g | _ => none) t
      | none => match e.bTrap o.fmt o.b with
        | some t => e.opdFault (match o.b with | .gen g => some g | _ => none) t
        | none => match (bBank o.b).bind fun b => (e.t.bank b).badTrap.map fun t => (b, t) with
          | some (b, t) => ({ e with s := e.s.putTeam (e.t.putBank b { e.t.bank b with bad := none }) }).trap (e.mtxFault t)
          | none => e.takeMrp.queueJob (e.snap o.a o.b (e.job i)) none [] []) s

/-- MMA (R313). -/
def execMma (o : Mma) (s : State) : Host.Outcome State Fault Refusal := mmaIssue o (.mma o) s

/-- MMAZ (R313). -/
def execMmaz (o : Mma) (s : State) : Host.Outcome State Fault Refusal := mmaIssue o (.mmaz o) s

/-- MZERO (R314). -/
def execMzero (o : MZero) (s : State) : Host.Outcome State Fault Refusal :=
  run { cls := some .mtx, slot := o.slot, reads := [246] } (fun e =>
    match e.tileTrap o.slot o.tile with
    | some t => e.trap t
    | none => e.queueJob (e.job (.mzero o)) none [] []) s

/-- MLD (R315). -/
def execMld (o : MLd) (s : State) : Host.Outcome State Fault Refusal :=
  run { cls := some .mtx, slot := o.slot, reads := 246 :: 250 :: snum o.s ++ snum (sAfter o.s 1) } (fun e =>
    match e.tileTrap o.slot o.tile with
    | some t => e.trap t
    | none => match e.pairTrap o.s 0x11 with
      | some t => e.trap t
      | none => e.takeMrp.queueJob { e.job (.mld o) with a0 := e.sreg o.s, a1 := e.sreg (sAfter o.s 1) } none [] []) s

/-- MST (R316). -/
def execMst (o : MSt) (s : State) : Host.Outcome State Fault Refusal :=
  let srcs := snum o.s ++ snum (sAfter o.s 1)
  let dsts := if o.amax then [248, 252] else [252]
  run { cls := some .mtx, slot := o.slot, reads := 246 :: 250 :: srcs, writes := dsts } (fun e =>
    match e.tileTrap o.slot o.tile with
    | some t => e.trap t
    | none => match e.pairTrap o.s 0x12 with
      | some t => e.trap t
      | none =>
        e.takeMrp.queueJob { e.job (.mst o) with a0 := e.sreg o.s, a1 := e.sreg (sAfter o.s 1) } (some o.la) srcs dsts) s

/-- MRSTL (R318). -/
def execMrstl (o : MRstl) (s : State) : Host.Outcome State Fault Refusal :=
  run { cls := some .mtx, slot := o.slot, reads := [246]
        chk := fun e => if (match e.w.hdr with | some h => h.nrestart | none => 0) ≤ o.entry.val then some (illop 3) else none }
    (fun e => if !e.whole o.slot then e.trap { cause := causeIllconv } else e.queueJob (e.job (.mrstl o)) none [] []) s

/-- A writer of a bank issues: PROT for a bank that the team does not hold (R332). -/
def bankIssue (slot : Slot) (bank : Fin 16) (srcs : List SSrc) (la : Option La) (j : Env → MtxJob) (s : State) :
    Host.Outcome State Fault Refusal :=
  run { cls := some .mtx, slot, reads := (srcs.map SSrc.num).flatten } (fun e =>
    if e.l.p.nbanks ≤ bank.val then e.trap { cause := causeProt }
    else match e.hRead srcs with
    | some (.trap t) => e.trap t
    | some (.wait r) => e.hold r
    | _ => e.queueJob (j e) la ((srcs.map SSrc.num).flatten) []) s

/-- CBWR (R330). -/
def execCbwr (o : CbWr) (s : State) : Host.Outcome State Fault Refusal :=
  bankIssue o.slot o.bank [o.e, o.w] (some o.la) (fun e => { e.job (.cbwr o) with a0 := e.srd o.e, b0 := e.srd o.w }) s

/-- CBCFG (R331). -/
def execCbcfg (o : CbCfg) (s : State) : Host.Outcome State Fault Refusal :=
  bankIssue o.slot o.bank [o.c] none (fun e => { e.job (.cbcfg o) with a0 := e.srd o.c }) s

/-- CBINV (R332). -/
def execCbinv (o : CbInv) (s : State) : Host.Outcome State Fault Refusal :=
  bankIssue o.slot o.bank [] none (fun e => e.job (.cbinv o)) s

/-! ### Tiles (R308, R309) -/

/-- Codes of tile tags (R309). -/
def FFmt.tileTag : FFmt → Nat
  | .bf16 => 2 | .f16 => 3 | _ => 1

/-- The tag of a half; of a whole tile, the first half that is not f32. -/
def Tile.tag (t : Tile) (h : Half) : Nat :=
  match h with
  | .whole => if t.lo = 1 then t.hi else t.lo
  | .lo => t.lo
  | .hi => t.hi

/-- The tag found when an access that needs one of these tags does not match: FMTCHK's (R309). -/
def Tile.found (t : Tile) (h : Half) (ok : List Nat) : Option Nat := if ok.contains (t.tag h) then none else some (t.tag h)

/-- Tags after a write (R309). -/
def Tile.mark (t : Tile) (h : Half) (tag : Nat) : Tile :=
  match h with
  | .whole => { t with lo := 1, hi := 1 }
  | .lo => { t with lo := tag, hi := if t.hi = 1 then 0 else t.hi }
  | .hi => { t with hi := tag, lo := if t.lo = 1 then 0 else t.lo }

/-- Format in which a half of this tag is read (R309). -/
def tagFmt (tag : Nat) : FFmt := if tag = 2 then .bf16 else if tag = 3 then .f16 else .f32

/-- Element (i, j): the value of a whole cell or of a half; a half tagged zero reads as +0 (R308, R309). -/
def Tile.get (t : Tile) (h : Half) (i j : Nat) : FVal :=
  let x := (cget t.cells (64 * i + j)).toNat
  match h with
  | .whole => value .f32 x
  | .lo => if t.lo = 4 then .fin false 0 0 else value (tagFmt t.lo) (x % 65536)
  | .hi => if t.hi = 4 then .fin false 0 0 else value (tagFmt t.hi) (x / 65536)

/-- A cell with an element replaced. -/
def cellPut (h : Half) (old : Word) (x : Nat) : Word :=
  match h with
  | .whole => BitVec.ofNat 32 x
  | .lo => BitVec.ofNat 32 (old.toNat / 65536 * 65536 + x % 65536)
  | .hi => BitVec.ofNat 32 (x * 65536 + old.toNat % 65536)

/-- Row i written. -/
def Tile.putRow (t : Tile) (h : Half) (i : Nat) (l : List Nat) : Tile :=
  { t with cells := csetAll t.cells (l.zipIdx.map fun p => (64 * i + p.2, cellPut h (cget t.cells (64 * i + p.2)) p.1)) }

/-- A tile of a team. -/
def Team.tile (t : Team) (k : Nat) : Tile := (t.tiles[k]?).getD {}

/-- A tile put back. -/
def Team.putTile (t : Team) (k : Nat) (x : Tile) : Team :=
  { t with tiles := t.tiles.zipIdx.map fun p => if p.2 == k then x else p.1 }

/-! ### Operands in memory (R311, R312) -/

/-- Why an operand could not be read. -/
inductive MBad where
  | flt (f : Flt) (va : DWord)
  /-- CBIDX: the entry (R198). -/
  | cbidx (n : Nat)

/-- An operand read: a value, with the accesses that watchpoints see; those before a fault are seen too. -/
abbrev Got (α : Type) := Except (MBad × List Seen) (α × List Seen)

/-- A list read one by one, in order. -/
def gotAll {α β : Type} (f : α → Got β) : List α → Got (List β)
  | [] => .ok ([], [])
  | x :: l => match f x with
    | .error e => .error e
    | .ok (y, a) => match gotAll f l with
      | .error (e, b) => .error (e, a ++ b)
      | .ok (ys, b) => .ok (y :: ys, a ++ b)

/-- Element n, of w bits, of packed bytes (R311). -/
def eltOf (b : List Byte) (w n : Nat) : Nat :=
  if w = 4 then bnat b (n / 2) 1 / (if n % 2 = 1 then 16 else 1) % 16 else bnat b (n * (w / 8)) (w / 8)

/-- What a watchpoint sees of an engine's access; a write that enters the log counts as a read too (R208). -/
def Actor.seenAt (a : Actor) (s : State) (sp : Bool) (va : DWord) (n : Nat) (wr : Bool) : Seen :=
  if sp then ⟨true, (match s.spAt a.t a.l a.core .sp va n with | .ok x => x | .error _ => 0), n, !wr, wr⟩
  else ⟨false, va.toNat, n, !wr || a.staged, wr⟩

/-- Bytes of an operand. -/
def Actor.bytesAt (a : Actor) (s : State) (sp : Bool) (va : DWord) (n : Nat) : Got (List Byte) :=
  match a.read s (if sp then .sp else .gm) va n with
  | .error (f, v) => .error (.flt f v, [])
  | .ok b => .ok (b, [a.seenAt s sp va n false])

/-- A packed row of n elements (R311). -/
def Actor.row (a : Actor) (s : State) (sp : Bool) (f : FFmt) (va : DWord) (n : Nat) : Got (List FVal) :=
  match a.bytesAt s sp va (n * f.width / 8) with
  | .error e => .error e
  | .ok (b, g) => .ok ((List.range n).map fun k => value f (eltOf b f.width k), g)

/-- Base plus a multiple of the stride. -/
def rowAt (b d : DWord) (i : Nat) : DWord := b + BitVec.ofNat 64 i * d

/-- Transposed: m lists of n elements as n lists of m. -/
def transpose (n : Nat) (l : List (List FVal)) : List (List FVal) := (List.range n).map fun k => l.map fun r => r.getD k (.fin false 0 0)

/-- n rows of m elements at an address pair. -/
def Actor.rows (a : Actor) (s : State) (sp : Bool) (f : FFmt) (b d : DWord) (n m : Nat) : Got (List (List FVal)) :=
  gotAll (fun i => a.row s sp f (rowAt b d i) m) (List.range n)

/-- Row `p` of a generator operand, `n` long (R312). -/
def genRow (f : FFmt) (d : BitVec 256) (tab : List Word) (seed : DWord) (tr : Bool) (p n : Nat) : List FVal :=
  (List.range n).map fun q =>
    let x := gRow0 d + BitVec.ofNat 32 p
    let y := gCol0 d + BitVec.ofNat 32 q
    value f (gValue f d (fun k => tab.getD k 0) seed (if tr then y else x) (if tr then x else y))

/-- The elements first .. first + n − 1 of a codebook operand: eight for each index, a scale byte for 48 (R198, R312). The second
component says that an invalid index read as zeros. (DEDUCED: log 66) -/
def Actor.cbRun (a : Actor) (s : State) (sp : Bool) (bank : Bank) (x y : DWord) (first n : Nat) : Got (List FVal × Bool) :=
  let groups := (List.range (n / 8)).map fun g => first / 8 + g
  match gotAll (fun u =>
      match a.bytesAt s sp (x + BitVec.ofNat 64 (2 * u)) 2 with
      | .error e => .error e
      | .ok (ix, g1) => match a.bytesAt s sp (y + BitVec.ofNat 64 (8 * u / 48)) 1 with
        | .error (e, _) => .error (e, g1)
        | .ok (sc, g2) =>
          match cbDecode bank (BitVec.ofNat 16 (leNat ix)) (BitVec.ofNat 8 (leNat sc)) with
          | .els l => .ok ((l, false), g1 ++ g2)
          | .zeros => .ok ((List.replicate 8 (.fin false 0 0), true), g1 ++ g2)
          | .bad e => .error (.cbidx e, g1 ++ g2)) groups with
  | .error e => .error e
  | .ok (l, g) => .ok (((l.map (·.1)).flatten, l.any (·.2)), g)

/-! ### What the engine performs (R313 to R316) -/

/-- How the engine leaves an instruction. -/
inductive MtxEnd where
  /-- Performed, with its flags and its amax update. -/
  | done (fl : Flags) (am : BitVec 33)
  /-- A fault in a row, with the flags of the rows before it (R184, R307). -/
  | fault (row : Nat) (b : MBad) (fl : Flags)
  /-- FMTCHK, with the tile tag found (R309). -/
  | fmt (tag : Nat)
  /-- ILLCONV, PROT and the like. -/
  | trap (t : Trap)
  | fetch (e : ImgErr)
  /-- It waits for the team to go direct (R86). -/
  | hold

/-- A job's surroundings. -/
structure MtxEnv where
  s : State
  a : Actor
  w : Wave
  j : MtxJob

/-- K of a format (R186, R310). (DEDUCED: log 59) -/
def chunk (f : FFmt) : Nat := 256 / f.width

/-- The accumulation format (R310). -/
def accFmt (h : Half) (f : FFmt) : FFmt :=
  match h with
  | .whole => .f32
  | _ => if f = .bf16 then .bf16 else .f16

/-- One output row: each element is the accumulator plus the exact products, rounded once (R186 to R188, R313). -/
def mmaRow (acc : FFmt) (accs : List FVal) (a : List FVal) (cols : List (List FVal)) : List (Fl Nat) :=
  (accs.zip cols).map fun p =>
    let ps := (a.zip p.2).map fun q => fmul q.1 q.2
    let r := faddN acc .rne (p.1 :: ps.map (·.1))
    (r.1, r.2 ||| flagsAll ps)

/-- Rows in ascending order: each is read, then written; a fault stops at its row (R307, R313, R315). -/
def tileRows (get : Nat → Got (List FVal)) (write : Tile → Nat → List FVal → Tile × Flags) :
    List Nat → Tile → Flags → List Seen → Tile × Flags × List Seen × Option (Nat × MBad)
  | [], t, fl, g => (t, fl, g, none)
  | i :: is, t, fl, g =>
    match get i with
    | .error (b, g') => (t, fl, g ++ g', some (i, b))
    | .ok (r, g') =>
      let (t', f) := write t i r
      tileRows get write is t' (fl ||| f) (g ++ g')

/-- Rows from start up to a bound. -/
def rowsFrom (start stop : Nat) : List Nat := (List.range stop).filter (start ≤ ·)

/-- B by columns, with the sticky result of an invalid index (R311, R312). -/
def MtxEnv.readB (m : MtxEnv) (o : Mma) (f : FFmt) (k : Nat) : Got (List (List FVal) × Bool) :=
  match o.b with
  | .addr _ sp =>
    (if o.tb then m.a.rows m.s sp f m.j.b0 m.j.b1 64 k else (m.a.rows m.s sp f m.j.b0 m.j.b1 k 64).map fun p => (transpose 64 p.1, p.2)).map
      fun p => ((p.1, false), p.2)
  | .gen _ =>
    let seed := gSeedEff m.j.gb m.a.l.p.id m.a.t.tix m.w.wid
    .ok ((transpose 64 ((List.range k).map fun i => genRow f m.j.gb m.j.gbTab seed o.tb i 64), false), [])
  | .cb _ sp bank =>
    let b := m.a.t.bank bank.val
    let len := (m.j.b2.extractLsb' 0 32).toNat
    let org := (m.j.b2.extractLsb' 32 32).toNat
    let run (i n : Nat) := m.a.cbRun m.s sp b m.j.b0 m.j.b1 (org + i * len) n
    (if o.tb then gotAll (fun j => run j k) (List.range 64) else gotAll (fun i => run i 64) (List.range k)).map fun p =>
      let l := p.1.map (·.1)
      ((if o.tb then l else transpose 64 l, p.1.any (·.2)), p.2)

/-- A by rows: those of an A that is read whole first, else none (R313). -/
def MtxEnv.readA (m : MtxEnv) (o : Mma) (f : FFmt) (k : Nat) : Got (Option (List (List FVal))) :=
  match o.a with
  | .gen _ => .ok (none, [])
  | .addr _ sp =>
    if o.ta then (m.a.rows m.s sp f m.j.a0 m.j.a1 k 64).map fun p => (some (transpose 64 p.1), p.2) else .ok (none, [])

/-- Row i of A (R311, R312). -/
def MtxEnv.rowA (m : MtxEnv) (o : Mma) (f : FFmt) (k : Nat) (all : Option (List (List FVal))) (i : Nat) : Got (List FVal) :=
  match all with
  | some l => .ok (l.getD i [], [])
  | none => match o.a with
    | .gen _ => .ok (genRow f m.j.ga m.j.gaTab (gSeedEff m.j.ga m.a.l.p.id m.a.t.tix m.w.wid) o.ta i k, [])
    | .addr _ sp => m.a.row m.s sp f (rowAt m.j.a0 m.j.a1 i) k

/-- The team of a job with its tile put back. -/
def MtxEnv.putTile (m : MtxEnv) (k : Nat) (t : Tile) : State := m.s.putTeam (m.a.t.putTile k t)

/-- MMA and MMAZ performed (R313). -/
def MtxEnv.mma (m : MtxEnv) (o : Mma) (zero : Bool) : State × List Seen × MtxEnd :=
  let f := o.fmt.ff
  let acc := accFmt o.half f
  let k := chunk f
  let t := m.a.t.tile o.tile.val
  let ok := match o.half with | .whole => [1] | _ => [acc.tileTag, 4]
  match (if zero then none else t.found o.half ok) with
  | some n => (m.s, [], .fmt n)
  | none => match m.readB o f k with
    | .error (b, g) => (m.s, g, .fault m.j.start b 0)
    | .ok ((cols, sticky), g1) => match m.readA o f k with
      | .error (b, g) => (m.s, g1 ++ g, .fault m.j.start b 0)
      | .ok (all, g2) =>
        let write (t : Tile) (i : Nat) (a : List FVal) : Tile × Flags :=
          let accs := (List.range 64).map fun j => if zero then FVal.fin false 0 0 else t.get o.half i j
          let r := mmaRow acc accs a cols
          ((t.putRow o.half i (r.map (·.1))).mark o.half acc.tileTag, flagsAll r)
        let (t', fl, g3, bad) := tileRows (m.rowA o f k all) write (rowsFrom m.j.start m.j.mvc) t 0 []
        let t' := if bad.isSome then t' else t'.mark o.half acc.tileTag
        let tm := match bBank o.b with
          | some b => if sticky then m.a.t.putBank b { m.a.t.bank b with sticky := true } else m.a.t
          | none => m.a.t
        (m.s.putTeam (tm.putTile o.tile.val t'), g1 ++ g2 ++ g3, match bad with | some (i, b) => .fault i b fl | none => .done fl 0)

/-- MZERO performed (R314). -/
def MtxEnv.mzero (m : MtxEnv) (o : MZero) : State × List Seen × MtxEnd :=
  let t := m.a.t.tile o.tile.val
  let t := (List.range 64).foldl (fun t i => t.putRow o.half i (List.replicate 64 0)) t
  (m.putTile o.tile.val (t.mark o.half 4), [], .done 0 0)

/-- MLD performed (R315). -/
def MtxEnv.mld (m : MtxEnv) (o : MLd) : State × List Seen × MtxEnd :=
  let f := o.fmt.ff
  let out : FFmt := match o.half with | .whole => .f32 | _ => f
  let t := m.a.t.tile o.tile.val
  let write (t : Tile) (i : Nat) (a : List FVal) : Tile × Flags :=
    let r := a.map (round out .rne false 0)
    ((t.putRow o.half i (r.map (·.1))).mark o.half out.tileTag, flagsAll r)
  let all : Got (Option (List (List FVal))) :=
    if o.tr then (m.a.rows m.s o.sp f m.j.a0 m.j.a1 64 64).map fun p => (some (transpose 64 p.1), p.2) else .ok (none, [])
  match all with
  | .error (b, g) => (m.s, g, .fault m.j.start b 0)
  | .ok (l, g1) =>
    let get (i : Nat) : Got (List FVal) :=
      match l with
      | some l => .ok (l.getD i [], [])
      | none => m.a.row m.s o.sp f (rowAt m.j.a0 m.j.a1 i) 64
    let (t', fl, g2, bad) := tileRows get write (rowsFrom m.j.start 64) t 0 []
    let t' := if bad.isSome then t' else t'.mark o.half out.tileTag
    (m.putTile o.tile.val t', g1 ++ g2, match bad with | some (i, b) => .fault i b fl | none => .done fl 0)

/-- A row of 64 elements packed (R311, R316). -/
def packRow (f : FFmt) (l : List Nat) : List Byte := leBytes (64 * f.width / 8) (l.foldr (fun x n => x + n * 2 ^ f.width) 0)

/-- Rows stored in ascending order; the first that faults stops (R316). -/
def MtxEnv.storeRows (m : MtxEnv) (sp : Bool) (row : Nat → List Byte) : List Nat → Stored → Stored × Option (Nat × MBad)
  | [], x => (x, none)
  | i :: is, x =>
    let b := row i
    let va := rowAt m.j.a0 m.j.a1 i
    let space : Space := if sp then .sp else .gm
    match m.a.place x.s space .wr true false va b.length (Config.peerAnswers x.s.nondet) with
    | .error (f, v) => (x, some (i, MBad.flt f v))
    | .ok ps => m.storeRows sp row is (m.a.put x space ps b)

/-- MST performed (R316, R317). -/
def MtxEnv.mst (m : MtxEnv) (o : MSt) : State × List Seen × MtxEnd :=
  let f := o.fmt.ff
  let t := m.a.t.tile o.tile.val
  match t.found o.half (match o.half with | .whole => [1] | _ => [2, 3, 4]) with
  | some n => (m.s, [], .fmt n)
  | none =>
    let vals (i : Nat) : List FVal := (List.range 64).map fun j => t.get o.half i j
    let out (i : Nat) : List (Fl Nat) := (vals i).map (round f o.rnd o.sat 0)
    let (x, bad) := m.storeRows o.sp (fun i => packRow f ((out i).map (·.1))) (rowsFrom m.j.start 64) ⟨m.s, []⟩
    let es := logWrites x.log m.a.logTag
    if m.a.staged ∧ m.a.l.logCap < m.a.t.log.length + es.length then (m.s, [], .hold)
    else
      let s := x.s.addLog m.a.t.key es
      let g := (rowsFrom m.j.start (match bad with | some (i, _) => i | none => 64)).map fun i =>
        m.a.seenAt m.s o.sp (rowAt m.j.a0 m.j.a1 i) (64 * f.width / 8) true
      match bad with
      | some (i, b) => (s, g, .fault i b 0)
      | none =>
        let all := (List.range 64).map out
        (s, g, .done (all.foldl (fun a l => a ||| flagsAll l) 0)
          (if o.amax then amaxOf ((List.range 64).map vals).flatten else 0))

/-- A bank of the job's team written: its entries change as one, and the generation advances (R327, R330, R332). -/
def MtxEnv.bank (m : MtxEnv) (k : Nat) (f : Bank → Bank) : State × List Seen × MtxEnd :=
  (m.s.putTeam (m.a.t.putBank k (f (m.a.t.bank k))), [], .done 0 0)

/-- MRSTL performed (R318). (DESIGN CHOICE: log 67) -/
def MtxEnv.mrstl (m : MtxEnv) (o : MRstl) : State × List Seen × MtxEnd :=
  match m.w.hdr with
  | none => (m.s, [], .done 0 0)
  | some h => match m.s.restartEntry m.a.c m.w.img h o.entry.val with
    | .error e => (m.s, [], .fetch e)
    | .ok (b, tiles) =>
      if tiles.toNat / 2 ^ m.a.l.p.ntiles ≠ 0 then (m.s, [], .trap { cause := causeProt })
      else
        let r : Option Restart := if tiles = 0 then none else some ⟨m.w.img, o.entry.val, m.w.depth, b, tiles⟩
        (m.s.putWave { m.w with restart := r }, [], .done 0 0)

/-- The job performed. Only MTX instructions are queued (R306). -/
def MtxEnv.perform (m : MtxEnv) : State × List Seen × MtxEnd :=
  match m.j.instr with
  | .mma o => m.mma o false
  | .mmaz o => m.mma o true
  | .mzero o => m.mzero o
  | .mld o => m.mld o
  | .mst o => m.mst o
  | .mrstl o => m.mrstl o
  | .cbwr o => m.bank o.bank.val fun b =>
    { b with entries := cset b.entries (m.j.a0.toNat % 512) m.j.b0, gen := b.gen + 1, backing := .none }
  | .cbcfg o => m.bank o.bank.val fun b =>
    { b with e := m.j.a0.extractLsb' 0 6, zero := m.j.a0.getLsbD 8, sticky := b.sticky && !m.j.a0.getLsbD 9 }
  | .cbinv o => m.bank o.bank.val fun b => { b with entries := [], gen := b.gen + 1, backing := .empty }
  | _ => (m.s, [], .done 0 0)

/-- The bank that a job writes (R328). -/
def MtxJob.writes (j : MtxJob) : Option Nat :=
  match j.instr with
  | .cbwr o => some o.bank.val
  | .cbcfg o => some o.bank.val
  | .cbinv o => some o.bank.val
  | _ => none

/-- The bank that a job reads (R328). -/
def MtxJob.bankRead (j : MtxJob) : Option Nat :=
  match j.instr with
  | .mma o => bBank o.b
  | .mmaz o => bBank o.b
  | _ => none

/-- A writer waits for the codebook loads of its bank that issued before it, and for the VXPDs that read it (R278, R328). -/
def State.mayRun (s : State) (j : MtxJob) (t : Team) : Bool :=
  match j.writes with
  | none => true
  | some b => !s.expanding t b && !t.cmds.any fun c => c.bank == some b && decide (c.seq < j.seq)

/-- Positions of a clause that have not issued. -/
def Wave.todo (w : Wave) : List Nat :=
  if w.replay.isEmpty then rowsFrom w.pos w.count else w.replay ++ rowsFrom w.cont w.count

/-- The trap of an engine instruction: later work of the clause is abandoned and will be re-issued (R307). (DEDUCED: log 34) -/
def State.mtxTrap (s : State) (j : MtxJob) (row : Nat) (tr : Trap) (src : Nat := 0) (line : Option Nat := none) : State :=
  match s.wave? j.wave with
  | none => s
  | some w =>
    let k := s.core w.coreNo
    let later := (k.mtx.filter fun x => x.wave == j.wave && x.pos != j.pos).map (·.pos)
    let s := s.putCore { k with mtx := k.mtx.filter fun x => x.wave != j.wave }
    let w := { w with regs := { w.regs with mrp := BitVec.ofNat 7 row }, trap := none, call := none }
    let tr := { tr with pos := j.pos, more := later ++ w.todo.filter (· != j.pos), atEnd := true }
    if tr.cause = causeEcc then s.strike w src line tr else s.raise w tr

/-- The instruction that the engine of a core performs next: the oldest; while a wave of the core steps, the oldest of that wave
(R212, R306). -/
def State.mtxJob? (s : State) (core : Nat) : Option MtxJob :=
  match s.waves.find? fun w => w.place.isSome && w.coreNo == core && w.stepping.isSome with
  | some w => (s.core core).mtx.find? fun j => j.wave == w.key
  | none => (s.core core).mtx.head?

/-- The engine of a core performs its next instruction (R306, R307, R313). -/
def State.mtxNext (s : State) (core : Nat) : State :=
  match s.mtxJob? core with
  | none => s
  | some j =>
    match s.wave? j.wave with
    | none => s
    | some w => match s.team? w.team with
      | none => s
      | some t => match s.launch? t.launch, s.ctx? t.ctx with
        | some l, some c =>
          let wr := match j.instr with | .mst _ => true | _ => false
          let path := match j.instr with | .mst _ => 0x12 | .mrstl _ => 8 | _ => 0x11
          if j.fault.isSome ∨ !s.mayRun j t then s
          else if j.trapped then
            s.mtxTrap j j.start
              { cause := causePage, faddr := j.va, access := BitVec.ofNat 8 path, fword := BitVec.ofNat 32 j.start }
          else
            let a : Actor := { core, c, t, l, who := none, staged := l.p.mode != 0 && !t.direct, key := j.wave, path := 1
                               known := j.known, via := j.peer }
            let (s', seen, r) := (MtxEnv.mk s a w j).perform
            let s' := { s'.touch c seen j.peer with nondet := s'.nondet + 1 }
            let s' := match r with | .hold => s' | _ => (s'.watch core w.slotNo 1 c.id seen).1
            let put (s : State) (j : MtxJob) : State :=
              s.putCore { s.core core with mtx := (s.core core).mtx.map fun x => if x.seq == j.seq then j else x }
            match r with
            | .hold =>
              if l.p.mode = 2 then s.putTeam (t.want s.tick) else s.goDirect t
            | .done fl am =>
              let s' := s'.putCore { s'.core core with mtx := (s'.core core).mtx.filter fun x => x.seq != j.seq }
              match s'.wave? j.wave with
              | none => s'
              | some w =>
                let effs : List Eff := flagEff (fl ||| j.flags) ++ (if am = 0 then [] else [Eff.amaxUpd am])
                if wr then s'.putWave { w.addEffs j.pos effs with logged := w.logged || a.staged } else s'.putWave { w with regs := w.regs.putAll effs }
            | .fmt n => s'.mtxTrap j j.start { cause := causeFmtchk, fword := BitVec.ofNat 32 (n + 48) }
            | .trap t => s'.mtxTrap j j.start t
            | .fetch e =>
              let (cause, va) := e.cause
              (match e with
              | .bad _ => s'.mtxTrap j j.start { cause, detail := 3 }
              | .flt f _ =>
                if traps c f ∨ f = .peer then
                  s'.mtxTrap j j.start { cause, faddr := va, access := 8 } (match f with | .ecc n _ => n | _ => 8)
                    (match f with | .ecc _ k => k | _ => none)
                else
                  let (k, s') := s'.waitPage c (f == .host) va (fun _ => FaultRec.ofWave s w 1 8 0 va)
                  put s' { j with fault := some k, page := pageOf va, va })
            | .fault row (.cbidx n) _ =>
              s'.mtxTrap j row
                { cause := causeCbidx, fword := BitVec.ofNat 32 (n + 512 * (match j.bankRead with | some b => b | none => 0)) }
            | .fault row (.flt f va) fl =>
              let base : Trap := { cause := causePage, faddr := va, access := BitVec.ofNat 8 path, fword := BitVec.ofNat 32 row }
              let j' := { j with start := row, flags := j.flags ||| fl, peer := none }
              (match f with
              | .trap c => s'.mtxTrap j row { base with cause := c, fword := if c = causeAlign then 0 else base.fword }
              | .ecc n k => s'.mtxTrap j row { base with cause := causeEcc } n k
              | .peer =>
                let r := s'.peerSend c (if wr then .wr else .rd) va j.peer
                put r.2 { j' with peer := some r.1 }
              | f =>
                if traps c f then s'.mtxTrap j row base
                else
                  let (k, s') := s'.waitPage c (f == .host) va (fun _ => FaultRec.ofWave s w 1 path 0 va)
                  put s' { j' with fault := some k, page := pageOf va, va })
        | _, _ => s

end Machine

end Sys2Proof
end

