-- ==== Sys2Proof/Machine/ExecSys.lean ====
section
/-! DEFINITION. System, trap, latch and Threshold instructions (R334 to R342). -/

namespace Sys2Proof

open Machine

namespace Machine

/-! ### Traps and return (R119, R135, R335, R336) -/

/-- SWTRAP (R335). -/
def execSwtrap (o : Imm16) (s : State) : Host.Outcome State Fault Refusal :=
  run { cls := some .sys, slot := o.slot } (fun e => e.trap { cause := causeSwtrap, fword := o.imm.setWidth 32 }) s

/-- BRK (R335). -/
def execBrk (o : Bare) (s : State) : Host.Outcome State Fault Refusal :=
  run { cls := some .sys, slot := o.slot } (fun e => e.trap { cause := causeBrk }) s

/-- A wave with no fragment left: returned lanes resume in the caller; with none the wave ends (R119). -/
def State.emptied (s : State) (c : Ctx) (w : Wave) : Except ImgErr Wave :=
  if w.regs.ret = 0 ∨ w.depth = 0 then .ok { w with frags := [], stage := .ending, clause := none, depth := 0 }
  else
    match s.areaRead (s.areaOf w + 0xA00 + 16 * (w.depth - 1)) 16 with
    | .error e => .error e
    | .ok top =>
    let img : DWord := BitVec.ofNat 64 (bnat top 0 8)
    let b := bnat top 8 1
    match s.header c img with
    | .error e => .error e
    | .ok h => match s.single c img h b with
      | .error e => .error e
      | .ok f =>
        let m := w.regs.ret
        let upd (x : Cells 8) : Cells 8 := csetAll x ((lanesOf m).map fun l => (l, BitVec.ofNat 8 b))
        .ok { w with
          img, hdr := some h, depth := w.depth - 1, restart := none, blk := upd w.blk
          regs := { w.regs with nblk := upd w.regs.nblk, ret := 0 }
          frags := [{ mask := m, cp := f.first, state := f.state, blocks := f.blocks }]
          cur := 0, stage := .ready, clause := none, pos := 0 }

/-- A fragment record of a frame; its valid bit (R113). -/
def recordOf (b : List Byte) : Frag × Bool :=
  let st := bnat b 12 2
  ({ mask := BitVec.ofNat 64 (bnat b 0 8), cp := bnat b 8 4 / 128 * 128, state := st % 4096, blocks := []
     parked := st / 4096 % 2 == 1, age := bnat b 14 1, quantum := bnat b 15 1 }, st / 8192 % 2 == 1)

/-- The blocks of the records' states, by the image's state table. -/
def State.frameStates (s : State) (c : Ctx) (img : DWord) (h : Header) : List Frag → Except ImgErr (List Frag)
  | [] => .ok []
  | f :: l =>
    if h.nstates ≤ f.state then .error (.bad (imgAt img (h.statetab + 16 * f.state)))
    else match s.stateRaw c img h f.state with
    | .error e => .error e
    | .ok (key, _) => match s.frameStates c img h l with
      | .error e => .error e
      | .ok r => .ok ({ f with blocks := keyBlocks key } :: r)

/-- Every unhalted lane lies in exactly one record, whose state contains its block (R135). -/
def lanesOk (blk : Cells 8) (frags : List Frag) : Bool :=
  (List.range 64).all fun l =>
    let b := (cget blk l).toNat
    let mine := frags.filter fun f => bit f.mask l
    b == 255 || (mine.length == 1 && mine.all fun f => f.blocks.contains b)

/-- A barrier, not yet released, for which every lane of a mask waits (R250). -/
def Wave.barOf (w : Wave) (m : DWord) : Option Wait :=
  (w.bars.find? fun b => m &&& ~~~b.wait == 0).map fun b => .bar b.scope

/-- A restored fragment: where its record names what stood at a Block instruction before the trap, it stands there again, and it waits
as before unless its barrier has released; a record of lanes that a barrier still waits with is blocked at it (R120, R250).
(DEDUCED: log 139) -/
def Wave.resumeWait (w : Wave) (f : Frag) : Frag :=
  let here := w.barOf f.mask
  match w.kept.find? fun k => f.mask &&& ~~~k.mask == 0 && k.cp == f.cp && k.state == f.state with
  | some k => { f with
      held := k.held, past := k.past, todo := k.todo, yield := k.yield, blocked := match k.blocked with | some (.bar _) => here | x => x }
  | none => { f with blocked := here }

/-- ERET's ILLOP, ILLCONV or fetch failure, raised inside the handler (R135, R336). -/
def Env.eretFetch (e : Env) (x : ImgErr) (img : DWord) : State :=
  match x with
  | .bad _ => e.trap (illop 1)
  | .flt _ _ => e.s.fetchFault e.c { e.w with stage := .long } x img { cause := 0, pos := e.w.pos }

/-- A wave inside a clause goes on at its replayed positions, then at cont: bits, position and lanes (R135, R156). -/
def Wave.onward (w : Wave) (x : Nat × Nat × DWord) : Wave :=
  let replay := (List.range w.count).filter fun p => x.1 / 2 ^ p % 2 == 1
  let pos := replay.headD x.2.1
  { w with replay, cont := x.2.1, redo := if replay = [] then none else some x.2.2, pos, stage := if pos < w.count then .issue else .long }

/-- The wave of a frame continues: replayed positions first, then cont (R135). While its clause's class is taken it waits its turn (R93). `line` is
the trapping clause line, `f` the trapping fragment's place. -/
def Env.resume (e : Env) (w : Wave) (cl : Clause) (bits : Nat) (cont : Nat) (fml : DWord) : State :=
  let at_ := if cont = cl.off + 128 then cl.count else (cont - cl.off - 8) / 8
  let w := { w with clause := some cl }.onward (bits, at_, fml)
  if w.replay = [] ∧ at_ = cl.count then e.s.endClause e.c w
  else if e.s.classTaken w cl.cls then e.s.settle { w with stage := .inside }
  else e.s.settle w

/-- ERET (R135, R336): the frame is read, checked and restored. (DEDUCED: log 72) -/
def Env.eret (e : Env) : State :=
  let (s, w) := e.s.flush e.w
  let e := { e with s, w }
  match s.areaRead (s.areaOf w) 0x600 with
  | .error x => e.eretFetch x 0
  | .ok b =>
  let img : DWord := BitVec.ofNat 64 (bnat b 16 8)
  if w.frags.length ≠ 1 ∨ (List.range 64).any (fun l => (cget w.blk l).toNat != 255 && !bit e.f.mask l) then
    e.trap { cause := causeIllconv }
  else if bnat b 60 1 ≠ w.depth then e.trap (illop 1)
  else
    match s.header e.c img with
    | .error x => e.eretFetch x img
    | .ok h =>
      let blk : Cells 8 := csetAll [] ((List.range 64).map fun l => (l, BitVec.ofNat 8 (bnat b (0x100 + l) 1)))
      let nblk : Cells 8 := csetAll [] ((List.range 64).map fun l => (l, BitVec.ofNat 8 (bnat b (0x140 + l) 1)))
      let live := maskList ((List.range 64).filter fun l => (cget blk l).toNat != 255)
      let cur := bnat b 15 1
      let recs := ((List.range (min (bnat b 14 1) 64)).map fun i => (i, recordOf ((b.drop (0x200 + 16 * i)).take 16))).filterMap
        fun p => let f := { p.2.1 with mask := p.2.1.mask &&& live }
                 if p.2.2 ∧ f.mask ≠ 0 then some (p.1, f) else none
      match s.frameStates e.c img h (recs.map (·.2)) with
      | .error x => e.eretFetch x img
      | .ok frags =>
        if !lanesOk blk frags then e.trap (illop 1)
        else
          let here := recs.findIdx? fun p => p.1 == cur
          let place := (recs.filter fun p => decide (p.1 < cur)).length
          let w' : Wave := { w with
            img, hdr := some h, blk
            regs := { w.regs with exm := BitVec.ofNat 64 (bnat b 40 8), nblk, ret := BitVec.ofNat 64 (bnat b 64 8), fml := 0 }
            frags := frags.map w.resumeWait, cur := here.getD place, clause := none, pos := 0, call := none, trap := none
            stalls := [], inHandler := false, replay := [], cont := 0, redo := none, reason := 0, kept := [], keptCall := none
            yielded := false, keptYield := false }
          let (s, w') := s.fitTable w'
          let e := { e with s }
          match here with
          | none =>
            if frags = [] then
              match s.emptied e.c w' with
              | .error x => e.eretFetch x img
              | .ok w' => s.settle w'
            else
              -- the fragment before the removed record's place: a quantum end goes on from there
              s.settle { w' with cur := (place + frags.length - 1) % frags.length, stage := .quantum }
          | some i =>
            let off := (frags.map (·.cp)).getD i 0
            let bits := bnat b 12 2
            let cont := bnat b 8 4
            let back := off == w.keptCp
            let w' := { w' with yielded := back && w.keptYield, call := if back then w.keptCall else none }
            let waits := match w'.frags[i]? with | some f => f.blocked.isSome | none => false
            if bits = 0 ∧ cont = off + 8 then
              s.settle { w' with stage := if waits then .quantum else .ready }
            else
              match s.line e.c e.coreNo img h off with
              | .error x => e.eretFetch x img
              | .ok bytes =>
                match clauseOf off (lineWords bytes) with
                | none => e.trap (illop 1)
                | some cl =>
                  if !(cont == off + 128 || (off + 8 ≤ cont && (cont - off) % 8 == 0 && (cont - off - 8) / 8 < cl.count)) then
                    e.trap (illop 1)
                  else
                    let s := s.keepLine e.c.id e.coreNo (imgAt img off) bytes
                    let fml : DWord := BitVec.ofNat 64 (bnat b 32 8)
                    if waits then
                      -- it waits again, and goes on from there once its barrier has released (R250)
                      let at_ := if cont = off + 128 then cl.count else (cont - off - 8) / 8
                      let cl := if bits = 0 ∧ at_ = cl.count then { cl with count := 0 } else cl
                      s.settle { w'.setFrag i fun f => { f with
                        held := some cl, yield := w'.yielded, todo := if cl.count = 0 then none else some (bits, at_, fml) } with
                        yielded := false, stage := .quantum }
                    else ({ e with s, w := w' }).resume w' cl bits cont fml

/-- ERET (R135, R336). -/
def execEret (o : Bare) (s : State) : Host.Outcome State Fault Refusal :=
  run { cls := some .sys, slot := o.slot
        chk := fun e => if !e.w.inHandler || e.w.pos + 1 != e.cl.count then some (illop 1) else none } Env.eret s

/-! ### Control and status registers (R337, R338) -/

/-- A control and status register number is listed (R338). -/
def csrListed (n : Nat) : Bool :=
  [0, 1, 2, 3, 4, 0x10, 0x11, 0x30].contains n || (0x20 ≤ n && n < 0x30) || (0x100 ≤ n && n < 0x300)

/-- A FRAME word of the spill area (R338). -/
def spillWord (n : Nat) : Bool := 0x100 + 192 ≤ n && n < 0x100 + 320

/-- CBSTAT of a bank (R338). -/
def Bank.stat (b : Bank) : DWord :=
  let back := match b.backing with | .empty => 0 | .source _ _ => 1 | .none => 2
  BitVec.ofNat 64 (back * 2 ^ 24 + b.e.toNat * 2 ^ 18 + b.zero.toNat * 2 ^ 17 + b.sticky.toNat * 2 ^ 16 + b.gen.toNat)

/-- The value of a control and status register (R338). -/
def Env.csr (e : Env) (n : Nat) : DWord :=
  if n = 0 then BitVec.ofNat 64 e.t.spBase
  else if n = 1 then BitVec.ofNat 64 e.w.lg
  else if n = 2 then zext64 e.l.p.id
  else if n = 3 then BitVec.ofNat 64 (min e.t.resumes 0xFFFFFFFF * 2 ^ 32 + e.w.slotNo * 2 ^ 16 + e.coreNo)
  else if n = 4 then BitVec.ofNat 64 e.w.depth
  else if n = 0x10 then e.r.srseed
  else if n = 0x11 then e.r.srctr
  else if n = 0x30 then BitVec.ofNat 64 (e.s.tai / 2 ^ 32)
  else if n < 0x30 then (e.t.bank (n - 0x20)).stat
  else if spillWord n then 0
  else BitVec.ofNat 64 (mnat e.s.mem (e.s.areaOf e.w + 8 * (n - 0x100)) 8)

/-- CSRR; a FRAME word in a poisoned line gives no data (R26, R337, R338). -/
def execCsrr (o : CsrR) (s : State) : Host.Outcome State Fault Refusal :=
  let n := o.csr.toNat
  regOp { cls := some .sys, slot := o.slot, reads := [csrNum n], writes := o.d.num
          chk := fun e => if !csrListed n || (decide (0x100 ≤ n) && !e.w.inHandler) then some (illop 1) else none }
    (fun e =>
      if 0x20 ≤ n ∧ n < 0x30 ∧ e.l.p.nbanks ≤ n - 0x20 then .trap { cause := causeProt }
      else match (if n < 0x100 ∨ spillWord n then .ok [] else e.s.areaRead (e.s.areaOf e.w + 8 * (n - 0x100)) 8) with
        | .error (.flt (.ecc k l) _) => .ecc k l
        | _ => .ok (match o.d with | .s d => [.sreg d (e.csr n)] | .zero => []) []) s

/-- A register with a RW field (R338). -/
def csrWritable (n : Nat) : Bool := n == 1 || n == 0x10 || n == 0x11 || (0x100 ≤ n && n < 0x300 && !spillWord n)

/-- CSRW (R337, R338). -/
def execCsrw (o : CsrW) (s : State) : Host.Outcome State Fault Refusal :=
  let n := o.csr.toNat
  regOp { cls := some .sys, slot := o.slot, reads := snum o.src, writes := [csrNum n]
          chk := fun e => if !csrWritable n || (decide (0x100 ≤ n) && !e.w.inHandler) then some (illop 1) else none }
    (fun e =>
      let x := e.sreg o.src
      let lg := x.toNat % 32
      if n = 1 ∧ (lg < 8 ∨ 16 < lg) then .trap (illop 1) else .ok [.csrw n x] []) s

/-! ### Instruction caches, time and marks (R339, R340) -/

end Machine

/-- A core lies in the scope of an ICINV (R339). -/
def IScope.holds (sc : IScope) (own core : Nat) : Bool :=
  match sc with
  | .core => core == own
  | .quad => quadOf core == quadOf own
  | .die => dieOf core == dieOf own
  | .pkg => true

/-- The instruction and state caches in a scope are invalidated, with the shared caches those cores fetch through (R206, R339).
(DEDUCED: log 70) -/
def Machine.State.icinv (s : State) (sc : IScope) (own : Nat) : State :=
  { s with
    cores := s.cores.map fun k => if sc.holds own k.id then { k with lines := [], sc := [] } else k
    quads := s.quads.map fun q => if (List.range 4).any (fun p => sc.holds own (4 * q.id + p)) then { q with lines := [] } else q }

namespace Machine

/-- ICINV: it waits until the wave's stores have been performed, those that stand in the team's log until it is applied (R173), then
invalidates (R339). (DEDUCED: log 140) -/
def execIcinv (o : IcInv) (s : State) : Host.Outcome State Fault Refusal :=
  run { cls := some .sys, slot := o.slot } (fun e =>
    if e.w.stalls.isEmpty && !(e.staged && e.w.logged) then ({ e with s := e.s.icinv o.scope e.coreNo }).retire [] else e.hold 6) s

/-- TICK (R340). -/
def execTick (o : TickI) (s : State) : Host.Outcome State Fault Refusal :=
  regOp { cls := some .sys, slot := o.slot, writes := o.d.num }
    (fun e => .ok (match o.d with | .s d => [.sreg d (BitVec.ofNat 64 e.s.tick)] | .zero => []) []) s

/-- PMARK (R213, R214, R340). -/
def execPmark (o : Imm16) (s : State) : Host.Outcome State Fault Refusal :=
  run { cls := some .sys, slot := o.slot } (fun e =>
    ({ e with s := e.s.trace e.coreNo 0x01 3 e.c.id (o.imm.toNat + e.w.slotNo * 65536) [] }).fixed 4 [] []) s

/-! ### The latch and the Threshold order (R84, R85, R124, R341, R342) -/

/-- Block instructions that a trap image may not hold (R235, R334). -/
def blockChk (e : Env) : Option Trap := if e.w.inHandler then some (illop 1) else lastChk e

/-- The restart declaration cleared (R318). -/
def Env.noRestart (e : Env) : Env := { e with w := { e.w with restart := none } }

/-- LACQ (R124, R341). -/
def execLacq (o : Bare) (s : State) : Host.Outcome State Fault Refusal :=
  run { cls := some .sys, slot := o.slot, chk := blockChk } (fun e =>
    let x := e.t.latch e.w.pair
    let e := e.noRestart
    if !e.l.p.latch then e.trap { cause := causeLatch }
    else if x.owner = some e.w.key then e.retire []
    else if x.owner = none then
      let (w, t) := e.w.takeLatch e.t
      ({ e with w, s := e.s.putTeam t }).retire []
    else ({ e with s := e.s.putTeam (e.t.putLatch e.w.pair { x with waiter := some e.w.key }) }).block .latch 5) s

/-- LREL acts at its due position (R341). -/
def execLrel (o : Bare) (s : State) : Host.Outcome State Fault Refusal :=
  run { cls := some .sys, slot := o.slot } (fun e => e.fixed 4 [] [.lrel]) s

/-- The team may go on past the Threshold position: it holds it, or is direct already (R84, R342). -/
def Env.atPosition (e : Env) : Bool := e.l.holds e.t.tix

/-- The position acquires every earlier ticket release of the launch (R343). -/
def Env.pastTicket (e : Env) : Env := { e with w := e.w.learn e.l.known }

/-- TKWAIT (R342). -/
def execTkwait (o : Bare) (s : State) : Host.Outcome State Fault Refusal :=
  run { cls := some .sys, slot := o.slot, chk := blockChk } (fun e =>
    let e := e.noRestart
    if e.l.p.mode ≠ 2 then e.retire []
    else if e.atPosition then
      let e := e.direct
      if e.struck then e.s else e.pastTicket.retire []
    else ({ e with s := e.s.putTeam (e.t.want e.s.tick) }).block .tkwait 12) s

/-- A team's ticket is released (R85): for memory a release to every agent (R343). -/
def State.releaseTicket (s : State) (t : Team) (l : Launch) (known : List Known) : State :=
  ((s.syncThreshold l t.tix).putTeam { t with released := true, wantRelease := false }).putLaunch
    { l with known := joinKnown l.known (passOn known), released := if l.released.contains t.tix then l.released else l.released ++ [t.tix] }

/-- TKREL (R85, R342). -/
def execTkrel (o : Bare) (s : State) : Host.Outcome State Fault Refusal :=
  run { cls := some .sys, slot := o.slot, chk := blockChk } (fun e =>
    let e := e.noRestart
    if e.l.p.mode ≠ 2 ∨ e.t.released then e.retire []
    else if e.atPosition then
      let e := e.direct
      if e.struck then e.s
      else
        let e := e.pastTicket
        ({ e with s := e.s.releaseTicket e.t e.l (e.s.released e.w), w := { e.w with late := [] } }).retire []
    else ({ e with s := e.s.putTeam { e.t.want e.s.tick with wantRelease := true } }).block .tkrel 12) s

end Machine

end Sys2Proof
end

