-- ==== Sys2Proof/Machine/EvWave.lean ====
section
/-! DEFINITION. Events of waves: start (R98, R371), the issue selector (R93 to R95, R205, R219), completion of long-latency work
(R127), the vote, quantum ends and merges (R108 to R116), waits (R120), trap entry (R132) and the end of a wave (R97). -/

namespace Sys2Proof

open Machine

namespace Machine

/-! ### What an event of a wave sees -/

/-- A wave with its context, team and launch. -/
structure WEnv where
  c : Ctx
  t : Team
  l : Launch
  w : Wave

/-- The surroundings of a wave. -/
def State.wenv? (s : State) (k : Nat) : Option WEnv :=
  match s.wave? k with
  | none => none
  | some w => match s.team? w.team with
    | none => none
    | some t => match s.ctx? t.ctx, s.launch? t.launch with
      | some c, some l => some ⟨c, t, l, w⟩
      | _, _ => none

/-- What a link receives while the package is gated is held (R202). -/
def State.holdEvent (s : State) (i : Instr) : State :=
  if s.ready && !s.dead && s.gated then { s with heldEvents := s.heldEvents ++ [i] } else s

/-- A fragment that can issue. -/
def Frag.runnable (f : Frag) : Bool := !f.parked && f.blocked.isNone

/-- The current fragment. -/
def Wave.frag? (w : Wave) : Option Frag := w.frags[w.cur]?

/-- The wave has no fragment to issue from until a wait, a merge or an unparking (R111, R120). -/
def Wave.idle (w : Wave) : Bool := w.stage == .ready && !(match w.frag? with | some f => f.runnable | none => false)

/-- A wave event acts where its conditions hold; elsewhere nothing happens. -/
def waveEvent (k : Nat) (ok : State → WEnv → Bool) (act : State → WEnv → State) (s : State) : Host.Outcome State Fault Refusal :=
  match s.wenv? k with
  | none => .next s
  | some e => if ok s e then .next (act s e) else .next s

/-! ### Start (R98, R371) -/

/-- Registers at entry (R51, R98). -/
def entryRegs (l : Launch) (t : Team) (w : Wave) (h : Header) : Regs :=
  { s := csetAll [] [(0, l.p.args), (1, BitVec.ofNat 64 l.p.teams),
      (2, if h.poolbytes = 0 then 0 else l.p.image + BitVec.ofNat 64 h.pool)]
    exm := if w.wid + 1 = l.p.waves then BitVec.ofNat 64 (2 ^ l.p.lanes - 1) else ones64
    nblk := allLanes h.entry
    w := t.w }

/-- A wave in the entry state of its image (R98). -/
def Wave.enter (w : Wave) (l : Launch) (t : Team) (h : Header) (f : Found) : Wave :=
  { w with
    img := l.p.image, hdr := some h, regs := entryRegs l t w h, blk := allLanes h.entry
    frags := [{ mask := ones64, cp := f.first, state := f.state, blocks := f.blocks }]
    cur := 0, lg := t.lg, stage := if w.trap.isSome then .trap else .ready }

/-- An entry state, or the state of a restart label, that is not reached: a wait under STALL, else the frame without fragments and the
team's end; a failed check gives the image's address (R371). (DEDUCED: log 146) An uncorrected error strikes the team, and the record of its end is of kind ECC.
(DESIGN CHOICE: log 163) -/
def State.startFault (s : State) (c : Ctx) (w : Wave) (x : ImgErr) : State :=
  let (cause, va) := x.cause
  let tr : Trap := { cause, faddr := va, access := 8, detail := if cause = causeIllop then 3 else 0, header := true }
  let none_ : Wave := { w with frags := [] }
  match x with
  | .bad _ => s.raise none_ { tr with faddr := w.img }
  | .flt (.ecc n k) _ => s.strike none_ n k tr
  | .flt f va =>
    if traps c f then s.raise none_ tr
    else
      let (k, s) := s.waitPage c (f == .host) va (fun _ => FaultRec.ofWave s w 1 8 0 va)
      s.putWave { w with
        stalls := [{ op := { pos := 0, accs := [] }, fault := some k, page := pageOf va, trap := some tr }], reason := 11 }

/-- A wave that resumes at its restart label: what it waited on when saved, and a reply to it, is dropped (R59, R319). (DESIGN CHOICE: log 164) -/
def Wave.toLabel (w : Wave) : Wave :=
  { w with
    stalls := [], clause := none, pos := 0, replay := [], cont := 0, call := none, redo := none, yielded := false, trap := none
    links := [], watched := none, stage := .label }

/-- A wave that is to trap before its restart label is reached has no state to resume in (R371). -/
def Wave.stateless (w : Wave) : Wave := if w.stage = .label then { w with frags := [] } else w

/-- A wave at its restart label: every unhalted lane in one fragment of the label's state (R319). -/
def Wave.atLabel (w : Wave) (r : Restart) (f : Found) : Wave :=
  let upd (b : Cells 8) : Cells 8 := csetAll b ((lanesOf w.live).map fun l => (l, BitVec.ofNat 8 r.block))
  { w with
    frags := [{ mask := w.live, cp := f.first, state := f.state, blocks := f.blocks }], cur := 0, blk := upd w.blk
    regs := { w.regs with nblk := upd w.regs.nblk, mrp := 0 }, stage := if w.trap.isSome then .trap else .ready }

/-- WAVE_START may act. -/
def startOk (s : State) (e : WEnv) : Bool :=
  s.moves e.w && (e.w.stage == .entering || e.w.stage == .label) && e.w.stalls.isEmpty

/-- WAVE_START: a wave enters its image's entry state, or goes on at its restart label (R98, R319, R371). -/
def execWaveStart (k : Nat) (s : State) : Host.Outcome State Fault Refusal :=
  waveEvent k startOk (fun s e =>
    match e.w.stage, e.w.restart, e.w.hdr with
    | .label, some r, some h => (match s.single e.c e.w.img h r.block with
      | .error x => s.startFault e.c e.w x
      | .ok f => s.settle (e.w.atLabel r f))
    | _, _, _ => match s.entryOf e.c e.l.p.image with
      | .error x => s.startFault e.c { e.w with img := e.l.p.image } x
      | .ok (h, f) => s.settle (e.w.enter e.l e.t h f)) s

/-! ### The issue selector (R93 to R95, R105, R205, R206, R217 to R219) -/

/-- What a wave's next clause comes to. -/
inductive Next where
  /-- Not a candidate. -/
  | no
  /-- The clause, with its line's bytes when it was fetched. -/
  | clause (cl : Clause) (line : Option (List Byte))
  | err (e : ImgErr)
  | trap (t : Trap)
  /-- Its handle wait mask is not complete. -/
  | wait (m : BitVec 16)

/-- The handle wait mask of a clause (R147, R219): the first register whose value may not be waited on, or whether it waits. -/
def maskCheck (l : Launch) (t : Team) (h : Cells 32) (m : BitVec 16) : Next → Next :=
  fun ok =>
    let ks := (List.range 16).filter fun k => m.getLsbD k
    match ks.findSome? fun k => l.handleBad (cget h k) with
    | some tr => .trap { tr with header := true }
    | none => if ks.all fun k => t.complete (cget h k) then ok else .wait m

/-- The next clause of a wave's current fragment, or the one that it stands inside. A last line of the code without its E bit fails (R105).
(DEDUCED: log 75) A header that fails raises detail 1, as R219 has it, not R105's 3 (DESIGN CHOICE: log 159); a fragment that a Block instruction held
goes on with the line that it had (DESIGN CHOICE: log 169). -/
def State.nextOf (s : State) (e : WEnv) : Next :=
  let w := e.w
  if s.moves w && w.stage == .inside then (match w.clause with | some cl => .clause cl none | none => .no)
  else if !(s.moves w && w.stage == .ready && w.stalls.isEmpty && (!e.t.toSave || w.stepping.isSome)) then .no
  else match w.frag?, w.hdr with
    | some f, some h =>
      if !f.runnable then .no
      else match f.held with
        | some cl => .clause cl none
        | none =>
          match s.line e.c w.coreNo w.img h f.cp with
          | .error x => .err x
          | .ok b =>
            match clauseOf f.cp (lineWords b) with
            | none => .trap { cause := causeIllop, detail := 1, header := true }
            | some cl =>
              if !cl.e ∧ h.code + h.codebytes ≤ f.cp + 128 then .err (.bad (imgAt w.img f.cp))
              else maskCheck e.l e.t w.regs.h (waitMask (lineWords b)) (.clause cl (some b))
    | _, _ => .no

/-- A wave whose next clause does not start as it stands: the trap, the wait for a fetch, or the blocked fragment (R120, R219). -/
def State.notStarted (s : State) (e : WEnv) : Next → Option State
  | .err x => some (s.fetchFault e.c e.w x e.w.img { cause := 0, header := true })
  | .trap t => some (s.raise e.w t)
  | .wait m =>
    let w := e.w.setFrag e.w.cur fun f => { f with blocked := some (.mask m) }
    let w := { w with stage := .quantum, reason := 1 }
    some (match w.stepping with
      | none => s.putWave w
      | some _ => (s.putWave { w with stepping := none, stepBlocked := true }).putCore
          { s.core w.coreNo with stepDone := true })
  | _ => none

/-- A wave ages: it is ready for its current clause, whose handles are complete (R93, R94). A clause counts as fetched as soon as its line
can be read. (DESIGN CHOICE: log 73) -/
def State.ages (s : State) (w : Wave) : Bool :=
  (w.stage == .ready || w.stage == .inside) && match s.wenv? w.key with
    | some e => (match s.nextOf e with | .clause _ _ => true | _ => false)
    | none => false

/-- A wave's age after ticks (R94). -/
def State.aged (s : State) (w : Wave) (n : Nat) : Wave := if s.ages w then { w with age := min 64 (w.age + n) } else w

/-- The waves whose next clause can start, with it. -/
def State.readyWaves (s : State) (core : Nat) : List (WEnv × Clause × Option (List Byte)) :=
  s.waves.filterMap fun w =>
    if w.place.isSome && w.coreNo == core then
      match s.wenv? w.key with
      | none => none
      | some e => match s.nextOf e with
        | .clause cl b => some (e, cl, b)
        | _ => none
    else none

/-- The wave that class c starts next (R94): greatest age, ties round-robin after the slot that last started a clause of c; before any has
started, from slot 0. (DESIGN CHOICE: log 142) -/
def State.choice (s : State) (core c : Nat) (l : List (WEnv × Clause × Option (List Byte))) :
    Option (WEnv × Clause × Option (List Byte)) :=
  let last := lget (s.core core).last c 15
  bestBy (fun x => (x.1.w.age, (x.1.w.slotNo + 15 - last) % 16)) (l.filter fun x => x.2.1.cls.bits.toNat == c)

/-- The clause that the selector starts next, over the free classes: greatest age, then the lower class (R94). -/
def State.select (s : State) (core : Nat) : Option (WEnv × Clause × Option (List Byte)) :=
  let busy := s.inProgress core
  if 4 ≤ busy.length then none
  else
    let l := s.readyWaves core
    bestBy (fun x => (x.1.w.age, x.2.1.cls.bits.toNat))
      (((List.range 5).filter fun c => !busy.contains c).filterMap fun c => s.choice core c l)

/-- Offset of breakpoint n of a core (R204). -/
def breakOff (core n : Nat) : Nat := 0x21_0000 + 0x100 * core + 0x10 * n

/-- The lowest breakpoint of a core that matches a clause (R204, R205). (DESIGN CHOICE: log 77) -/
def State.breakHit (s : State) (core ctx : Nat) (va : DWord) : Option Nat :=
  (List.range 4).find? fun n =>
    let cfg := cget s.ctl (breakOff core n + 8)
    cfg.getLsbD 0 && (!cfg.getLsbD 1 || (cfg.extractLsb' 16 10).toNat == ctx)
    && (cget s.ctl (breakOff core n)).extractLsb' 7 50 == va.extractLsb' 7 50

/-- A wave goes on inside a clause (R93). -/
def Wave.goOn (w : Wave) : Wave :=
  { w with stage := if w.pos < w.count && w.stalls.isEmpty then .issue else .long, reason := if w.stalls.isEmpty then 0 else w.reason }

/-- A clause started (R93, R125): w registers and SPSLOT are the team's; a fragment that stood at a Block instruction issues it
again; one that ERET left inside its clause, or at its end, held with no instruction, goes on there (R135, R250). -/
def State.startClause (s : State) (core : Nat) (e : WEnv) (cl : Clause) (line : Option (List Byte)) : State :=
  let s := match line with
    | some b => s.keepLine e.c.id core (imgAt e.w.img cl.off) b
    | none => s
  let k := s.core core
  let s := s.putCore { k with last := lset k.last cl.cls.bits.toNat e.w.slotNo }
  if e.w.stage = .inside then s.putWave { e.w.goOn with stepped := e.w.stepped || e.w.stepping == some .clause }
  else
    let w := { e.w with
      regs := { e.w.regs with w := e.t.w }, lg := e.t.lg, clause := some cl, reason := 0, stepped := e.w.stepping == some .clause
      stage := if cl.count = 0 then .long else .issue, pos := if line.isNone then cl.count - 1 else 0 }
    match line, e.w.frag? with
    | none, some f =>
      let w := { w with yielded := f.yield }
      (match f.todo with
      | some x => s.putWave ({ w.setFrag w.cur fun f => { f with todo := none, held := none } with clause := some cl }.onward x)
      | none => s.putWave w)
    | _, _ => s.putWave w

/-- The chosen clause starts, unless a breakpoint fires (R205). A trigger during a stop only counts (R209). -/
def State.chosen (s : State) (core : Nat) (e : WEnv) (cl : Clause) (line : Option (List Byte)) : State :=
  let va := imgAt e.w.img cl.off
  match (if line.isSome then s.breakHit core e.c.id va else none) with
  | none => s.startClause core e cl line
  | some n =>
    let s' := s.quadStop (quadOf core) 0 n (posOf core) e.w.slotNo 0 va e.c.id
    if (s.quad (quadOf core)).stopped then s'.startClause core e cl line else s'

/-- The first wave of a core whose next clause does not start as it stands. (DESIGN CHOICE: log 76) -/
def State.troubled (s : State) (core : Nat) : Option State :=
  s.waves.findSome? fun w =>
    if w.place.isSome && w.coreNo == core then (s.wenv? w.key).bind fun e => s.notStarted e (s.nextOf e) else none

/-- CLAUSE_START (R94, R205, R219). -/
def execClauseStart (core : Nat) (s : State) : Host.Outcome State Fault Refusal :=
  match s.troubled core with
  | some s' => .next s'
  | none => match s.select core with
    | some (e, cl, line) => .next (s.chosen core e cl line)
    | none => .next s

/-! ### Long-latency work (R127, R306) -/

/-- Work of an instruction position is still under way. -/
def State.underWay (s : State) (w : Wave) (pos : Nat) : Bool :=
  w.stalls.any (fun x => x.op.pos == pos) || (s.core w.coreNo).mtx.any (fun j => j.wave == w.key && j.pos == pos)

/-- The long-latency entries that a wave's position waits for. -/
def Wave.dueLong (w : Wave) : List Pend := w.pend.filter fun p => p.waits && (decide (w.count ≤ w.pos) || decide (p.due ≤ w.pos))

/-- A load whose values fall due reads its bytes again in the lanes that the free choice names: no earlier read fixes which write an access
reads, so it may be a later one (R166, R362). (DESIGN CHOICE: log 6) -/
def State.reread (s : State) (e : WEnv) (w : Wave) (x : Late) : Wave :=
  let accs := x.op.accs.filter fun q => Config.rereads s.nondet q.lane
  let a : Actor := { s.vecActor w e.c e.t e.l x.op.ord with known := x.known }
  let p := a.perform w.key { x.op with accs } s
  if p.done.isEmpty then w
  else { w.addEffs x.op.pos (x.op.res.effs p.done) with saw := joinSaw w.saw p.saw, heard := joinRels w.heard p.heard }

/-- The entries of a wave up to its position are complete: their loads have the values that they will give. -/
def State.complete (s : State) (e : WEnv) (w : Wave) (due : Pend → Bool) : Wave :=
  let here (x : Late) : Bool := w.pend.any fun p => p.pos == x.op.pos && due p
  let v := (w.late.filter here).foldl (s.reread e) w
  { v with
    late := v.late.filter fun x => !here x
    pend := v.pend.map fun p => if due p then { p with completed := true } else p }

/-- An access that waits is tried again: at a peer, or when the team it waits for has gone direct (R33, R86). -/
def WEnv.again (e : WEnv) (x : Stall) : Bool := x.peer.isSome || (x.atLimit && e.t.direct)

/-- LONG_LATENCY_COMPLETE may act. -/
def longOk (s : State) (e : WEnv) : Bool :=
  s.running && e.w.place.isSome && (e.w.stalls.any e.again ||
  e.w.stage == .long && !e.w.dueLong.any (fun p => s.underWay e.w p.pos)
  && !(decide (e.w.count ≤ e.w.pos) && s.busy e.w))

/-- LONG_LATENCY_COMPLETE: the work that the wave waits for has completed (R127); an access to a peer that has not answered,
or one that waited for the Threshold position, is tried again (R33, R86). -/
def execLongLatencyComplete (k : Nat) (s : State) : Host.Outcome State Fault Refusal :=
  waveEvent k longOk (fun s e =>
    let w := e.w
    match w.stalls.find? e.again with
    | some x => s.retryStall k x
    | none =>
      let atEnd := w.count ≤ w.pos
      let w := s.complete e w fun p => decide atEnd || decide (p.due ≤ w.pos)
      let s : State := if e.w.late.isEmpty then s else { s with nondet := s.nondet + 1 }
      if atEnd then s.endClause e.c w else s.settle { w with stage := .issue, reason := 0 }) s

/-- MATRIX_ENGINE_PERFORM (R306). -/
def execMatrixEnginePerform (core : Nat) (s : State) : Host.Outcome State Fault Refusal :=
  if s.running then .next (s.mtxNext core) else .next s

/-! ### The vote (R108 to R110, R113, R119) -/

/-- The blocks that lanes of a mask name, ascending. -/
def blocksOf (b : Cells 8) (m : DWord) : List Nat :=
  (List.range 255).filter fun k => (lanesOf m).any fun l => (cget b l).toNat == k

/-- Lanes of a mask whose block lies in a list. -/
def lanesIn (b : Cells 8) (m : DWord) (bs : List Nat) : DWord :=
  maskList ((lanesOf m).filter fun l => bs.contains (cget b l).toNat)

/-- The state of a set of blocks is found in a core's state cache (R107). -/
def State.inCache (s : State) (ctx core : Nat) (img : DWord) (bs : List Nat) : Bool :=
  bs.isEmpty || (decide (bs.length ≤ 4) && (s.core core).sc.any fun x => x.ctx == ctx && x.img == img && x.key.toNat == keyOf bs)

/-- States for a set of blocks, with the state cache filled on an index hit (R107, R108). -/
def State.formStates (s : State) (c : Ctx) (core : Nat) (img : DWord) (h : Header) (bs : List Nat) :
    Except ImgErr (List Found × State) :=
  match (if bs.length ≤ 4 then s.lookup c core img h bs else .ok none) with
  | .error x => .error x
  | .ok (some (n, first)) => .ok ([⟨n, first, bs⟩], s.fillState c.id core img bs n first)
  | .ok none => match s.split c img h bs.length bs with
    | .error x => .error x
    | .ok l => .ok (l, s)

/-- Fragments of the states found; a vote's fragment parks when every block of its state is a JOIN block (R110). -/
def State.formFrags (s : State) (c : Ctx) (img : DWord) (h : Header) (blk : Cells 8) (m : DWord) (park : Bool) :
    List Found → Except ImgErr (List Frag)
  | [] => .ok []
  | t :: ts =>
    match (if park then s.allJoin c img h t.blocks else .ok false) with
    | .error x => .error x
    | .ok j => match s.formFrags c img h blk m park ts with
      | .error x => .error x
      | .ok r => .ok ({ mask := lanesIn blk m t.blocks, cp := t.first, state := t.state, blocks := t.blocks, parked := j } :: r)

/-- States and fragments for lanes at blocks (R108 to R111). -/
def State.form (s : State) (c : Ctx) (w : Wave) (h : Header) (blk : Cells 8) (m : DWord) (park : Bool) :
    Except ImgErr (List Frag × State) :=
  match s.formStates c w.coreNo w.img h (blocksOf blk m) with
  | .error x => .error x
  | .ok (l, s') => match s.formFrags c w.img h blk m park l with
    | .error x => .error x
    | .ok fs => .ok (fs, s')

/-- A fragment's place taken by others. -/
def replaceAt {α : Type} (l : List α) (i : Nat) (new : List α) : List α := l.take i ++ new ++ l.drop (i + 1)

/-- A check of the vote that fails: the wave stands at the end of its clause (R245). -/
def State.voteFault (s : State) (e : WEnv) (x : ImgErr) (img : DWord) (reason : Nat) : State :=
  s.fetchFault e.c e.w x img { cause := 0, pos := e.w.pos, header := true, atEnd := true } reason

/-- The wave after a vote that leaves lanes in fragments `fs`: the first runnable goes on in the quantum, unless it is over
(R113, R115). -/
def Wave.voted (w : Wave) (q : Nat) (f : Frag) (blk : Cells 8) (fs : List Frag) : Wave :=
  let n := min 255 (f.quantum + 1)
  let run := fs.findIdx? Frag.runnable
  let fs := match run with
    | none => fs
    | some j => fs.zipIdx.map fun p => if p.2 == j then { p.1 with quantum := n } else p.1
  { w with
    blk, frags := replaceAt w.frags w.cur fs, clause := none, pos := 0, yielded := false
    cur := w.cur + run.getD 0
    stage := if run.isNone || decide (q ≤ n) || w.yielded then .quantum else .ready }

/-- The vote of the current fragment (R108). -/
def State.vote (s : State) (e : WEnv) (f : Frag) (h : Header) : State :=
  let w := e.w
  let out := maskList ((lanesOf f.mask).filter fun l => (cget w.regs.nblk l).toNat == 255)
  let m := f.mask &&& ~~~out
  let blk := csetAll w.blk ((lanesOf f.mask).map fun l => (l, cget w.regs.nblk l))
  if m = 0 then
    let fs := replaceAt w.frags w.cur []
    let w' := { w with blk, frags := fs, clause := none, pos := 0, yielded := false }
    if fs = [] then
      match s.emptied e.c w' with
      | .ok w' => s.settle w'
      | .error x => s.voteFault e x (BitVec.ofNat 64 (mnat s.mem (s.areaOf w + 0xA00 + 16 * (w.depth - 1)) 8)) 11
    else s.settle { w' with cur := (w.cur + fs.length - 1) % fs.length, stage := .quantum }
  else
    match s.form e.c w h blk m true with
    | .error x => s.voteFault e x w.img 7
    | .ok (fs, s') =>
      let (s', w') := s'.fitTable (w.voted e.c.q f blk fs)
      s'.settle w'

/-- VOTE may act. -/
def voteOk (s : State) (e : WEnv) : Bool := s.moves e.w && e.w.stage == .vote && e.w.stalls.isEmpty

/-- VOTE (R108). -/
def execVote (k : Nat) (s : State) : Host.Outcome State Fault Refusal :=
  waveEvent k voteOk (fun s e =>
    match e.w.frag?, e.w.hdr with
    | some f, some h => s.vote e f h
    | _, _ => s) s

/-! ### Quantum ends, merges and unparking (R111 to R116) -/

/-- A parked fragment past the park limit (R112). -/
def Frag.expired (p : Nat) (f : Frag) : Bool := f.parked && p < f.age

/-- The next runnable fragment after the current one, wrapping; the current one last (R115). -/
def Wave.nextRunnable (w : Wave) : Option Nat :=
  let n := w.frags.length
  ((List.range n).map fun i => (w.cur + 1 + i) % n).find? fun j => match w.frags[j]? with | some f => f.runnable | none => false

/-- A wave switched to a fragment, whose quantum starts (R115). -/
def Wave.switchTo (w : Wave) (j : Nat) : Wave :=
  { (w.setFrag j fun f => { f with quantum := 0 }) with cur := j, stage := .ready }

/-- The wave goes on with a fragment, brought back when it was spilled (R114, R115). -/
def State.goTo (s : State) (w : Wave) (j : Nat) : State :=
  let (s, w) := s.fitTable ((w.switchTo j).bringBack j)
  s.settle w

/-- Every parked fragment merges, brought back when it was spilled; that, and a lookup that misses, is charged to STATE_MISS (R107, R111, R114).
(DEDUCED: log 81) -/
def State.merge (s : State) (e : WEnv) (w : Wave) (i : Nat) (h : Header) : State :=
  let m := (w.frags.filter (·.parked)).foldl (fun m f => m ||| f.mask) 0
  let nblk := csetAll w.regs.nblk ((lanesOf m).map fun l => (l, cget w.blk l))
  match s.form e.c w h w.blk m false with
  | .error x => s.fetchFault e.c { w with cur := i, stage := .ready } x w.img { cause := 0, header := true } 7
  | .ok (fs, s') =>
    let keep (l : List Frag) : List Frag := l.filter fun f => !f.parked
    let (s', w') := s'.fitTable { w with
      regs := { w.regs with nblk }
      frags := keep (w.frags.take i) ++ fs ++ keep (w.frags.drop i)
      cur := (keep (w.frags.take i)).length, stage := .ready
      reason := if w.frags.any (fun f => f.parked && f.spill.isSome) || !s.inCache e.c.id w.coreNo w.img (blocksOf w.blk m) then 7 else 0 }
    s'.settle w'

/-- The switch of a quantum end: the next runnable fragment, else a merge of the parked ones, else the wave is idle (R111,
R115). -/
def State.switchFrag (s : State) (e : WEnv) (w : Wave) : State :=
  match w.nextRunnable with
  | some j => s.goTo w j
  | none =>
    match w.frags.findIdx? (·.parked), w.hdr with
    | some i, some h => s.merge e w i h
    | _, _ => s.settle { w with stage := .ready }

/-- QUANTUM_END may act: the quantum of a fragment has ended, or an idle wave has parked fragments to merge. -/
def quantumOk (s : State) (e : WEnv) : Bool :=
  s.moves e.w && e.w.stalls.isEmpty
  && (e.w.stage == .quantum
    || (e.w.idle && e.w.frags.any (fun f => f.runnable || f.parked) && !e.w.frags.any (Frag.expired e.c.p)))

/-- QUANTUM_END: parked fragments age, those past the park limit are left to unpark, and the wave switches (R112, R115).
(DESIGN CHOICE: log 80) -/
def execQuantumEnd (k : Nat) (s : State) : Host.Outcome State Fault Refusal :=
  waveEvent k quantumOk (fun s e =>
    if e.w.stage = .quantum then
      let w := { e.w with frags := e.w.frags.map fun (f : Frag) => if f.parked then { f with age := min 255 (f.age + 1) } else f }
      if w.frags.any (Frag.expired e.c.p) then s.putWave { w with stage := .switch } else s.switchFrag e w
    else s.switchFrag e e.w) s

/-- UNPARK may act. -/
def unparkOk (s : State) (e : WEnv) : Bool :=
  s.moves e.w && (e.w.stage == .switch || e.w.stage == .ready) && e.w.frags.any (Frag.expired e.c.p)

/-- UNPARK: the first fragment past the park limit becomes runnable with age 0 (R112). After the last of a quantum end the wave
switches. -/
def execUnpark (k : Nat) (s : State) : Host.Outcome State Fault Refusal :=
  waveEvent k unparkOk (fun s e =>
    match e.w.frags.findIdx? (Frag.expired e.c.p) with
    | none => s
    | some i =>
      let w := e.w.setFrag i fun f => { f with parked := false, age := 0 }
      if w.stage = .switch then
        (if w.frags.any (Frag.expired e.c.p) then s.putWave w else s.switchFrag e w)
      else if e.w.idle then s.goTo w i
      else s.putWave w) s

/-! ### Waits (R120, R124, R302, R342) -/

/-- A wait is satisfied; a barrier's only by its release (R249). -/
def WEnv.satisfied (e : WEnv) : Wait → Bool
  | .handle h => e.t.complete h
  | .tagAny m => m == 0 || (e.t.tags &&& m) != 0
  | .tagAll m => (e.t.tags &&& m) == m
  | .latch => (e.t.latch e.w.pair).owner == some e.w.key || (e.t.latch e.w.pair).owner == none
  | .tkwait => e.l.holds e.t.tix
  | .tkrel => e.l.holds e.t.tix
  | .bar _ => false
  | .mask m => (List.range 16).all fun k => !m.getLsbD k || e.t.complete (cget e.w.regs.h k)

/-- A fragment made runnable again, with what its wait came to: an idle wave goes on with it. -/
def State.unblock (s : State) (t : Team) (w : Wave) (i : Nat) : State :=
  let w' := w.setFrag i fun f => { f with blocked := none, past := if f.held.isSome then f.blocked.map t.passes else none }
  if w.idle then s.goTo w' i else s.putWave w'

/-- WAIT_SATISFIED: a blocked fragment whose wait is satisfied becomes runnable (R120). -/
def execWaitSatisfied (k f : Nat) (s : State) : Host.Outcome State Fault Refusal :=
  waveEvent k (fun s e => s.running && e.w.place.isSome && (match e.w.frags[f]? with
      | some x => (match x.blocked with | some wt => e.satisfied wt | none => false)
      | none => false))
    (fun s e => s.unblock e.t e.w f) s

/-! ### Trap entry and the end of a wave (R97, R132) -/

/-- TRAP_ENTRY (R132). -/
def execTrapEntry (k : Nat) (s : State) : Host.Outcome State Fault Refusal :=
  waveEvent k (fun s e => s.moves e.w && e.w.stage == .trap && !s.busy e.w)
    (fun s e => match e.w.trap with
      | some tr => s.takeTrap e.w tr
      | none => s) s

/-- WAVE_END: a wave with no fragment left ends once its long-latency work has completed, and frees its latch (R97, R124). -/
def execWaveEnd (k : Nat) (s : State) : Host.Outcome State Fault Refusal :=
  waveEvent k (fun s e => s.moves e.w && e.w.stage == .ending && !s.busy e.w)
    (fun s e =>
      let (s, w) := s.freeLatch e.w
      s.settle { w with stage := .ended }) s

end Machine

end Sys2Proof
end

