-- ==== Sys2Proof/Machine/EvTeam.lean ====
section
/-! DEFINITION. Events of teams: barriers (R248 to R250, R76, R77, R216), team ends, staging logs and the Threshold order (R81 to
R87). -/

namespace Sys2Proof

open Machine

namespace Machine

/-! ### Barriers (R248 to R250) -/

/-- The teams that a barrier joins; a team key, a global quad, a die, or 0 names its unit. -/
def State.barTeams (s : State) (sc : Scope) (l : Launch) (unit : Nat) : List Team :=
  s.teams.filter fun t => t.launch == l.key && !t.ended && (match sc, t.core with
    | .core, _ => t.key == unit
    | .quad, some c => quadOf c == unit
    | .die, some c => dieOf c == unit
    | .pkg, _ => true
    | .pod, _ => true
    | _, none => false)

/-- The waves of teams. -/
def State.wavesOf (s : State) (ts : List Team) : List Wave := s.waves.filter fun w => ts.any fun t => t.key == w.team

/-- Lanes that belong to a wave's fragments; in a handler, those of the frame. (DEDUCED: log 83) -/
def State.liveLanes (s : State) (w : Wave) : DWord :=
  if w.inHandler then maskOf fun l => cget (w := 8) s.mem (s.areaOf w + 0x100 + l) != 255 else w.live

/-- A wave counts as arrived (R248, R249). -/
def State.hasArrived (s : State) (sc : Scope) (w : Wave) : Bool :=
  match w.stage with
  | .entering => false
  | .ending => true
  | .ended => true
  | _ => (s.liveLanes w &&& ~~~(w.bar sc).arr) == 0

/-- Every participant of a barrier has arrived, and some arrival is outstanding. (DEDUCED: log 82) -/
def State.barReady (s : State) (sc : Scope) (l : Launch) (ts : List Team) : Bool :=
  ts.all (fun t => !t.saved) && (sc == .core || (l.p.co && l.next == l.p.teams && l.redo.isEmpty))
  && (s.wavesOf ts).all (s.hasArrived sc) && (s.wavesOf ts).any fun w => (w.bar sc).arr != 0

/-- A fragment's wait at a scope ended. -/
def Frag.release (sc : Scope) (f : Frag) : Frag := if f.blocked = some (.bar sc) then { f with blocked := none } else f

/-- A wave released at a scope: masks cleared, its fragments and those kept over a trap runnable (R249, R250). For memory the release of a
waiting fragment is an acquire; of a wave that has arrived and does not wait, its BARW will be (R251). -/
def Wave.release (sc : Scope) (known : List Known) (w : Wave) : Wave :=
  let w := if (w.bar sc).wait ≠ 0 then w.learn known
    else if (w.bar sc).arr ≠ 0 ∧ known ≠ [] then { w with passed := w.passed ++ [(sc, known)] }
    else w
  { w with bars := w.bars.filter fun b => b.scope != sc, frags := w.frags.map (Frag.release sc), kept := w.kept.map (Frag.release sc) }

/-- A released wave put back: an idle one goes on with its next runnable fragment. -/
def State.releaseWave (sc : Scope) (known : List Known) (s : State) (w : Wave) : State :=
  let w' := w.release sc known
  if w.idle then match w'.nextRunnable with
    | some j => s.goTo w' j
    | none => s.putWave w'
  else s.putWave w'

/-- Phase number of a barrier. -/
def Launch.phase (l : Launch) (sc : Scope) (unit : Nat) : Nat :=
  match l.phases.find? fun p => p.scope == sc && p.unit == unit with
  | some p => p.n
  | none => 0

/-- The phase advances. -/
def Launch.advance (l : Launch) (sc : Scope) (unit : Nat) : Launch :=
  { l with phases := lput l.phases (fun p => p.scope == sc && p.unit == unit) ⟨sc, unit, l.phase sc unit + 1⟩ }

end Machine

/-- Scope code in a SYNC record (R216). -/
def Scope.code : Scope → Nat
  | .core => 0 | .quad => 1 | .die => 2 | .pkg => 3 | .pod => 4

namespace Machine

/-- The SYNC record of a barrier: last arriver and longest waiter among the waves with an arrival (R216). -/
def State.syncBar (s : State) (sc : Scope) (l : Launch) (unit : Nat) (ts : List Team) : State :=
  let ws := (s.wavesOf ts).filter fun w => (w.bar sc).arr != 0
  match ws with
  | [] => s
  | w :: r =>
    let last := r.foldl (fun a x => if (a.bar sc).tick < (x.bar sc).tick then x else a) w
    let long := r.foldl (fun a x => if (x.bar sc).tick < (a.bar sc).tick then x else a) w
    let core := match ts with | t :: _ => t.core.getD 0 | [] => 0
    let src := match sc with
      | .core => core
      | .quad => 4 * unit
      | .die => 0x1000 + unit
      | _ => 0x1004
    s.sync src sc.code l.ctx (if sc = .core then (match ts with | t :: _ => t.tix | [] => 0) else 0)
      (last.place.getD 0) (last.bar sc).tick (long.place.getD 0) (long.bar sc).tick

/-- A barrier releases (R249). -/
def State.barRelease (s : State) (sc : Scope) (l : Launch) (unit : Nat) (ts : List Team) : State :=
  let s := s.syncBar sc l unit ts
  let known := (s.wavesOf ts).foldl (fun k w => joinKnown k (w.bar sc).known) []
  ((s.wavesOf ts).foldl (State.releaseWave sc known) s).putLaunch (l.advance sc unit)

/-! ### Pod barriers (R38, R77) -/

/-- Word of pod group entry g (R38). -/
def State.podWord (s : State) (g off : Nat) : DWord := cget s.ctl (0x10_4000 + 0x100 * g + off)

/-- The group's entry is in use, and its root. -/
def State.podValid (s : State) (g : Nat) : Bool := (s.podWord g 0).getLsbD 11
def State.podRoot (s : State) (g : Nat) : Nat := ((s.podWord g 0).extractLsb' 0 10).toNat

/-- A package is a member of a group. -/
def State.podMember (s : State) (g k : Nat) : Bool := (s.podWord g (8 + 8 * (k / 64))).getLsbD (k % 64)

/-- A message of a launch to another package; one that cannot be reached, or that gets no response, writes a fault record that names the
launch's context and no team (R33, R58, R77). (DESIGN CHOICE: log 128) -/
def State.podSend (s : State) (l : Option Launch) (dst : Nat) (o : Output) : State :=
  let lost (s : State) : State :=
    let (k, s) := s.newKey
    s.report { key := k, kind := 5, code := if l.any (2 ≤ ·.restarts) then 8 + 2 ^ 15 else 8, ctx := (l.map (·.ctx)).getD 0 }
  if (s.route dst).isEmpty then lost s
  else
    let s' := { s.out o with nondet := s.nondet + 1 }
    if Config.peerAnswers s.nondet then s' else lost s'

/-- A release reaches this package: its participants go on (R77, R249). -/
def State.podReleased (s : State) (launchid phase : Nat) : State :=
  match s.launches.find? fun l => l.p.id.toNat == launchid && l.p.podgrp != 0 && l.podSent == some phase with
  | none => s
  | some (l : Launch) => s.barRelease .pod { l with podSent := none } 0 (s.barTeams .pod l 0)

/-- The root holds an arrival of a member for a phase. -/
def State.podHolds (s : State) (launchid phase k : Nat) : Bool :=
  s.podArrs.any fun a => a.mem == k && a.launchid == launchid && (a.phase == phase || (a.final && a.phase ≤ phase))

/-- The root releases a phase once every member has arrived (R77). -/
def State.podCheck (s : State) (launchid phase : Nat) : State :=
  match (s.podArrs.find? fun a => a.mem == s.podid && a.launchid == launchid && (a.phase == phase || (a.final && a.phase ≤ phase))).bind
    fun a => a.grp with
  | none => s
  | some g =>
    let ms := (List.range 1024).filter (s.podMember g)
    if ms.all fun k => s.podArrs.any fun a => a.mem == k && a.launchid == launchid && a.final then
      -- every member's launch is complete
      { s with podArrs := s.podArrs.filter fun a => a.launchid != launchid }
    else
    if s.podArrs.any (fun a => a.launchid == launchid && a.phase == phase && !a.final)
        ∧ ms.all (s.podHolds launchid phase) then
      let l := s.launches.find? fun l => l.p.id.toNat == launchid && l.p.podgrp == g + 1
      let s := { s with podArrs := s.podArrs.filter fun a => a.final || !(a.launchid == launchid && a.phase == phase) }
      let s := (ms.filter (· != s.podid)).foldl (fun s k => s.podSend l k (.podRelease k launchid phase)) s
      s.podReleased launchid phase
    else s

/-- After a message of a phase, the root looks at that phase and at every one that a member waits in: a final message counts at all later ones
(R77). -/
def State.podChecks (s : State) (launchid phase : Nat) : State :=
  ((s.podArrs.filter fun a => a.launchid == launchid && !a.final).map (·.phase)).foldl (fun s p => s.podCheck launchid p)
    (s.podCheck launchid phase)

/-- This package's arrival for a phase, or its final message, goes to the group's root (R77). (DESIGN CHOICE: log 86) -/
def State.podArrive (s : State) (l : Launch) (phase : Nat) (final : Bool) : State :=
  let g := l.p.podgrp - 1
  if s.podRoot g = s.podid then
    let a : PodArr := { mem := s.podid, launchid := l.p.id.toNat, phase, final, grp := some g }
    let s' : State := { s with podArrs := s.podArrs ++ [a] }
    s'.podChecks l.p.id.toNat phase
  else s.podSend (some l) (s.podRoot g) (.podArrive (s.podRoot g) l.p.id.toNat phase final)

/-- BARRIER_RELEASE (R77, R249): when every participant has arrived, the barrier releases; at .pod in a pod group the package's
arrival goes to the root first. -/
def execBarrierRelease (scope : Scope) (l unit : Nat) (s : State) : Host.Outcome State Fault Refusal :=
  match s.launch? l with
  | none => .next s
  | some x =>
    let ts := s.barTeams scope x unit
    if s.running && s.barReady scope x ts then
      if scope = .pod ∧ x.p.podgrp ≠ 0 then
        let ph := x.phase .pod 0
        if x.podSent = some ph then .next s else .next ((s.putLaunch { x with podSent := some ph }).podArrive x ph false)
      else .next (s.barRelease scope x unit ts)
    else .next s

/-- POD_ARRIVAL: an arrival or a final message reaches the root (R77). -/
def execPodArrival (mem launchid phase : Nat) (final : Bool) (s : State) : Host.Outcome State Fault Refusal :=
  if s.running then
    let a : PodArr := { mem, launchid, phase, final }
    .next ({ s with podArrs := s.podArrs ++ [a] }.podChecks launchid phase)
  else .next (s.holdEvent (.podArrival mem launchid phase final))

/-- POD_RELEASE (R77). -/
def execPodRelease (launchid phase : Nat) (s : State) : Host.Outcome State Fault Refusal :=
  if s.running then .next (s.podReleased launchid phase) else .next (s.holdEvent (.podRelease launchid phase))

/-! ### Team ends and staging logs (R81 to R87, R97) -/

/-- A team is done with: it leaves the package (R82, R97). -/
def State.finishTeam (s : State) (t : Team) (l : Launch) : State :=
  (s.dropTeam t).putLaunch { l with finished := l.finished ++ [t.tix] }

/-- What the waves of a team have written and observed (R343). -/
def State.teamReleases (s : State) (t : Team) : List Known :=
  (s.waves.filter fun w => w.team == t.key).foldl (fun k w => joinKnown k (s.released w)) t.known

/-- A team that has left its core, with its log still to apply (R85). -/
def State.queueLog (s : State) (t : Team) : State :=
  { s with waves := s.waves.filter fun w => w.team != t.key }.putTeam
    { t with ended := true, core := none, slots := [], tiles := [], banks := [], latches := [], known := s.teamReleases t }

/-- An ORDERED team at the position ends: its log is applied, its ticket released, which for memory is a release (R84, R85, R343). -/
def State.exitOrdered (s : State) (t : Team) (l : Launch) : State :=
  let known := s.teamReleases t
  let s := s.goDirect t
  let s := if t.released then s else s.releaseTicket t l (joinKnown known (loggedIds t.log))
  match s.launch? l.key with
  | none => s
  | some l => s.finishTeam t l

/-- TEAM_END may act. -/
def teamDone (s : State) (t : Team) : Bool :=
  s.running && !t.ended && !t.saved && t.cmds.isEmpty && t.core.isSome
  && (s.waves.filter fun w => w.team == t.key).all fun w => w.stage == .ended

/-- TEAM_END (R97): the core's resources are free, and the log is handled by the commit mode (R83, R85). -/
def execTeamEnd (k : Nat) (s : State) : Host.Outcome State Fault Refusal :=
  match s.team? k with
  | none => .next s
  | some t =>
    match s.launch? t.launch with
    | none => .next s
    | some l =>
      if teamDone s t then
        let s := s.trace (t.core.getD 0) 0x03 4 t.ctx t.tix []
        if l.p.mode = 2 then
          .next (if t.released ∨ l.holds t.tix then s.exitOrdered t l else s.queueLog (t.want s.tick))
        else if t.log = [] then .next (s.finishTeam t l)
        else .next (s.queueLog t)
      else .next s

/-- LOG_APPLY (R81, R83, R84): the log of a STAGED team that has ended, or of a team that waits to go direct and holds the
position. (DEDUCED: log 87) -/
def execLogApply (k : Nat) (s : State) : Host.Outcome State Fault Refusal :=
  match s.team? k with
  | none => .next s
  | some t =>
    match s.launch? t.launch with
    | none => .next s
    | some l =>
      if !s.running then .next s
      else if t.ended ∧ l.p.mode = 1 then .next ((s.applyLog t).finishTeam t l)
      else if !t.ended ∧ l.p.mode = 2 ∧ t.wantDirect ∧ !t.direct ∧ l.holds t.tix then .next (s.goDirect t)
      else .next s

/-- TICKET_RELEASE (R85): the position has reached a team that has ended; its queued log is applied and its ticket released. -/
def execTicketRelease (k : Nat) (s : State) : Host.Outcome State Fault Refusal :=
  match s.launch? k with
  | none => .next s
  | some l =>
    match s.teams.find? fun t => t.launch == l.key && t.ended && l.holds t.tix with
    | some t => if s.running ∧ l.p.mode = 2 then .next (s.exitOrdered t l) else .next s
    | none => .next s

end Machine

end Sys2Proof
end

