-- ==== Sys2Proof/Machine/EvAsy.lean ====
section
/-! DEFINITION. What a core's copy engine does: copies step by step (R89, R159, R300, R301, R304), and codebook loads (R328, R329). -/

namespace Sys2Proof

open Machine

namespace Machine

/-! ### The copy order (R300) -/

/-- Offsets of byte p of a copy's order in its source and destination. -/
def copyAt (p : Nat) : List (Nat × DWord × DWord) → DWord × DWord
  | [] => (0, 0)
  | (n, _, _) :: t =>
    let rec dims (q : Nat) : List (Nat × DWord × DWord) → DWord × DWord
      | [] => (0, 0)
      | (m, a, b) :: r =>
        let i : DWord := BitVec.ofNat 64 (q % m)
        let x := dims (q / m) r
        (x.1 + i * a, x.2 + i * b)
    let x := dims (p / n) t
    (x.1 + BitVec.ofNat 64 (p % n), x.2 + BitVec.ofNat 64 (p % n))

/-- The runs of bytes p to stop − 1 of the order: offsets in source and destination, and a length. Fuel counts runs. -/
def copyRuns (dims : List (Nat × DWord × DWord)) : Nat → Nat → Nat → List (DWord × DWord × Nat)
  | 0, _, _ => []
  | fuel + 1, p, stop =>
    if stop ≤ p then []
    else
      let n := match dims with | (n, _, _) :: _ => n | [] => 1
      let k := min (n - p % n) (stop - p)
      let x := copyAt p dims
      (x.1, x.2, k) :: copyRuns dims fuel (p + k) stop

/-- What a step of an engine comes to. -/
inductive Stepped where
  | ok (s : State) (es : List LogE) (seen : List Seen) (orig : List Host.Cell)
  /-- A byte that is not reached: why, its address, and whether it was read or written. -/
  | bad (f : Flt) (va : DWord) (wr : Bool)

/-- The first byte of a scratchpad run that is not reached. -/
def firstBad (s : State) (a : Actor) (sp : Space) (va : DWord) (n : Nat) : DWord :=
  match sp with
  | .gm => va
  | sp => va + BitVec.ofNat 64 (((List.range n).find? fun i =>
      match s.spAt a.t a.l a.core sp (va + BitVec.ofNat 64 i) 1 with | .error _ => true | .ok _ => false).getD 0)

/-- Bytes read, but a source byte that an earlier step overwrote may still read as it was (R54, R300). -/
def mixOrig (orig : List Host.Cell) (draw pa : Nat) (b : List Byte) : List Byte :=
  if orig.isEmpty then b
  else b.zipIdx.map fun p => match orig.find? fun x => x.1 == pa + p.2 with
    | some x => if Config.overlapEarlier (draw + p.2) then p.1 else x.2
    | none => p.1

/-- The pieces of a read, with what earlier steps overwrote. -/
def readMixed (s : State) (m : List Host.Cell) (orig : List Host.Cell) : Nat → List Piece → Except Flt (List Byte)
  | _, [] => .ok []
  | d, p :: t => do
    let b ← p.read s.poison m
    let b := match p with | .mem pa _ _ => mixOrig orig d pa b | _ => b
    return b ++ (← readMixed s m orig (d + b.length) t)

/-- What the memory at the places to be written holds before, where nothing is kept yet. -/
def keepOrig (m : List Host.Cell) (orig : List Host.Cell) (l : List (Nat × List Byte × Bool)) : List Host.Cell :=
  l.foldl (fun o p => (List.range p.2.1.length).foldl (fun o i =>
    if o.any fun x => x.1 == p.1 + i then o else o ++ [(p.1 + i, cget (w := 8) m (p.1 + i))]) o) orig

/-- A run that would read and write the same space. -/
def sameSpace (src dst : Space) : Bool := (src == .gm) == (dst == .gm)

/-- One step: its runs are read, then every destination byte is checked, then all are written (R159, R300). -/
def Actor.copyStep (a : Actor) (s : State) (c : Cmd) (runs : List (DWord × DWord × Nat)) (answers : Bool) : Stepped :=
  let m := a.view s
  let rd : Except (Flt × DWord) (List (List Byte)) := runs.foldl (fun r x =>
    match r with
    | .error e => .error e
    | .ok l =>
      match a.place s c.src .rd true false (c.sa + x.1) x.2.2 answers with
      | .error (f, va) => .error (f, if c.src = .gm then va else firstBad s a c.src va x.2.2)
      | .ok ps => match readMixed s m c.orig (s.nondet + 256 * l.length) ps with
        | .error f => .error (f, c.sa + x.1)
        | .ok b => .ok (l ++ [b])) (.ok [])
  match rd with
  | .error (f, va) => .bad f va false
  | .ok bs =>
    let wr : Except (Flt × DWord) (List (Nat × List Byte × Bool)) := (runs.zip bs).foldl (fun r x =>
      match r with
      | .error e => .error e
      | .ok l =>
        match a.place s c.dst .wr true false (c.da + x.1.2.1) x.1.2.2 answers with
        | .error (f, va) => .error (f, if c.dst = .gm then va else firstBad s a c.dst va x.1.2.2)
        | .ok ps => .ok (l ++ storePieces ps x.2)) (.ok [])
    match wr with
    | .error (f, va) => .bad f va true
    | .ok l =>
      let seen := runs.flatMap fun x =>
        (match c.src with
          | .gm => [⟨false, (c.sa + x.1).toNat, x.2.2, true, false⟩]
          | sp => match s.spAt a.t a.l a.core sp (c.sa + x.1) x.2.2 with
            | .ok k => [⟨true, k, x.2.2, true, false⟩] | .error _ => [])
        ++ (match c.dst with
          | .gm => [⟨false, (c.da + x.2.1).toNat, x.2.2, a.staged, true⟩]
          | sp => match s.spAt a.t a.l a.core sp (c.da + x.2.1) x.2.2 with
            | .ok k => [⟨true, k, x.2.2, false, true⟩] | .error _ => [])
      let orig := if sameSpace c.src c.dst then keepOrig s.mem c.orig l else c.orig
      if a.staged ∧ c.dst = .gm then .ok s (logWrites l a.logTag) seen orig
      else .ok (l.foldl (fun s p => s.storeAs (some (a.event false)) none p.1 p.2.1 p.2.2) s) [] seen orig

/-! ### Completion (R144, R146, R301) -/

/-- A command of a team put back. -/
def Team.putCmd (t : Team) (c : Cmd) : Team := { t with cmds := t.cmds.map fun x => if x.tag == c.tag then c else x }

/-- An installing copy's entry at completion (R144). -/
def Team.installed (t : Team) (c : Cmd) (ok : Bool) : Team :=
  match c.install with
  | none => t
  | some n =>
    let x := cget t.tab n &&& 0x3FFFFFFFFFFFFFFF
    if ok then { t with tab := cset t.tab n (x ||| 0x8000000000000000), installs := lset t.installs n c.seq }
    else { t with tab := cset t.tab n x }

/-- A command completes: its status, its tag's bit, its entry (R144, R146, R301). -/
def Team.completeCmd (t : Team) (c : Cmd) (status : Nat) (fault : TagSt → TagSt) : Team :=
  let t := t.installed c (status == 1)
  { t.putTag c.tag (fault { t.tag c.tag with busy := false, status, done := c.done }) with
    cmds := t.cmds.filter fun x => x.tag != c.tag, tags := t.tags ||| laneBit c.tag }

/-- A fault of a command (R159): its cause, address and access. -/
def tagFault (cause ecc : Nat) (va : DWord) (wr : Bool) (x : TagSt) : TagSt :=
  { x with cause, faddr := va, access := if wr then 0x22 else 0x21, ecc }

/-- The wave that stands for a command in records: the one that issued it, or one of its team. -/
def State.cmdWave (s : State) (t : Team) (c : Cmd) : Option Wave :=
  match s.wave? c.wave with
  | some w => some w
  | none => s.waves.find? fun w => w.team == t.key

/-- A command at a byte that is not reached (R33, R44, R159): FAULT, a wait, or an uncorrected error that strikes the team. -/
def State.cmdFault (s : State) (cx : Ctx) (t : Team) (c : Cmd) (f : Flt) (va : DWord) (wr : Bool) : State :=
  let fail (s : State) (cause ecc : Nat) : State := match s.team? t.key with
    | some t => s.putTeam (t.completeCmd c 3 (tagFault cause ecc va wr))
    | none => s
  match f with
  | .trap cause => fail s cause 0
  | .ecc n line =>
    let code := match s.launch? t.launch with | some l => eccCode t l n line | none => n
    (match (if n = 8 then none else s.cmdWave t c) with
    | none => fail s causeEcc code
    | some w => fail (s.strike w n line { cause := causeEcc, faddr := va, access := if wr then 0x22 else 0x21 } false) causeEcc code)
  | .peer =>
    let r := s.peerSend cx (if wr then .wr else .rd) va c.peer
    r.2.putTeam (t.putCmd { c with peer := some r.1 })
  | f =>
    if traps cx f then fail s causePage 0
    else match s.cmdWave t c with
      | none => fail s causePage 0
      | some w =>
        let (k, s) := s.waitPage cx (f == .host) va (fun _ => FaultRec.ofWave s w 1 (if wr then 0x22 else 0x21) 0 va)
        s.putTeam (t.putCmd { c with fault := some k, page := pageOf va, va, wr })

/-! ### COMMAND_COMPLETE: a copy's steps (R300, R301, R304) -/

/-- A team's copy engine runs: the quad is not stopped, or it serves the stepped wave (R209, R212). -/
def State.engineRuns (s : State) (t : Team) (c : Cmd) : Bool :=
  s.running && !t.saved && !t.ended && (match t.core with
    | none => false
    | some k => !(s.quad (quadOf k)).stopped || (match s.wave? c.wave with | some w => w.stepping.isSome | none => false))

/-- What a team's copy engine may do now: it runs, and the command waits on no fault. -/
def State.engineMoves (s : State) (t : Team) (c : Cmd) : Bool := s.engineRuns t c && c.fault.isNone

/-- A command's engine as it accesses memory, on the cpy path (R164, R171). -/
def Cmd.actor (c : Cmd) (cx : Ctx) (t : Team) (l : Launch) (staged : Bool) : Actor :=
  { core := t.core.getD 0, c := cx, t, l, who := none, staged, key := c.wave, path := 2, known := c.known, cmd := some c.seq, via := c.peer }

/-- Steps of a copy, at most k: it ends, waits, or stands at a step boundary; a quad stop raised by one of them holds it at the next
(R209). (DESIGN CHOICE: log 7) -/
def State.copySteps (s : State) (key tag : Nat) : Nat → State
  | 0 => s
  | k + 1 =>
    match s.team? key with
    | none => s
    | some t => match t.cmds.find? fun c => c.tag == tag, s.launch? t.launch, s.ctx? t.ctx with
      | some c, some l, some cx =>
        if !s.engineMoves t c then s
        else
        let total := totalBytes c.dims
        let stop := min total (c.done / 256 * 256 + 256)
        let a := c.actor cx t l (l.p.mode != 0 && !t.direct)
        match a.copyStep s c (copyRuns c.dims 256 c.done stop) (Config.peerAnswers s.nondet) with
        | .bad f va wr => s.cmdFault cx t c f va wr
        | .ok s' es seen orig =>
          if a.staged ∧ l.logCap < t.log.length + es.length then
            -- the log overflows (R86): the team goes direct, in ORDERED mode at the position
            if l.p.mode = 1 ∨ l.holds t.tix then (s.goDirect t).copySteps key tag k
            else s.putTeam (t.want s.tick)
          else
            let s' := (s'.addLog key es)
            let s' := { s'.touch cx seen c.peer with nondet := s'.nondet + 1 }
            let (s', _) := s'.watch a.core 0 2 cx.id seen
            match s'.team? key with
            | none => s'
            | some t =>
              let c := { c with done := stop, orig, peer := none }
              if stop = total then s'.putTeam (t.completeCmd c 1 id)
              else (s'.putTeam (t.putCmd c)).copySteps key tag k
      | _, _, _ => s

/-- COMMAND_COMPLETE: the copy of a tag runs on, by a free number of its steps, to its end when they are the last. A cancelled one
completes at its step boundary, where it may wait on a fault (R301, R304). -/
def execCommandComplete (t tag : Nat) (s : State) : Host.Outcome State Fault Refusal :=
  match s.team? t with
  | none => .next s
  | some x => match x.cmds.find? fun c => c.tag == tag with
    | none => .next s
    | some c =>
      if !s.engineRuns x c ∨ c.bank.isSome then .next s
      else if c.cancel then .next (s.putTeam (x.completeCmd c 2 id))
      else if c.fault.isSome then .next s
      else
        let left := (totalBytes c.dims - c.done + 255) / 256
        let n := 1 + Config.stepsDone s.nondet % left
        .next ({ s with nondet := s.nondet + 1 }.copySteps t tag n)

/-! ### CBLD_COMPLETE (R328, R329) -/

/-- Readers and writers of the bank that issued before the load have finished (R328). -/
def State.bankFree (s : State) (t : Team) (c : Cmd) (b : Nat) : Bool :=
  !s.expanding t b
  && !((s.core (t.core.getD 0)).mtx.any fun j => decide (j.seq < c.seq) && (j.writes == some b || j.bankRead == some b)
      && (match s.wave? j.wave with | some w => w.team == t.key | none => false))
  && !t.cmds.any fun d => d.bank == some b && decide (d.seq < c.seq)

/-- CBLD_COMPLETE: the load reads its source and writes the bank as one change (R327, R329). -/
def execCbldComplete (t tag : Nat) (s : State) : Host.Outcome State Fault Refusal :=
  match s.team? t with
  | none => .next s
  | some x => match x.cmds.find? fun c => c.tag == tag, s.launch? x.launch, s.ctx? x.ctx with
    | some c, some l, some cx =>
      match c.bank with
      | none => .next s
      | some b =>
        if !s.engineMoves x c ∨ !s.bankFree x c b then .next s
        else
          let a := c.actor cx x l false
          let s' := { s with nondet := s.nondet + 1 }
          match a.read s c.src c.sa 4096 with
          | .error (f, va) =>
            .next (s'.cmdFault cx x c f (if c.src = .gm then va else firstBad s a c.src c.sa 4096) false)
          | .ok bytes =>
            let entries : Cells 64 := csetAll [] ((List.range 512).map fun k => (k, BitVec.ofNat 64 (bnat bytes (8 * k) 8)))
            let k := x.bank b
            let y := x.putBank b { k with entries, gen := k.gen + 1, backing := .source (c.src != .gm) c.sa, bad := none }
            let seen : List Seen := match c.src with
              | .gm => [⟨false, c.sa.toNat, 4096, true, false⟩]
              | sp => match s.spAt x l a.core sp c.sa 4096 with | .ok p => [⟨true, p, 4096, true, false⟩] | .error _ => []
            let s' := s'.touch cx seen c.peer
            let (s', _) := (s'.putTeam (y.completeCmd { c with done := 4096 } 1 id)).watch a.core 0 2 cx.id seen
            .next s'
    | _, _, _ => .next s

end Machine

end Sys2Proof
end

