-- ==== Sys2Proof/Machine/EvQueue.lean ====
section
/-! DEFINITION. User queues: doorbells (R45 to R47), consumption and its checks (R48, R49, R52, R55), the start and the end of
packets (R50, R53, R54), and their translation faults (R372). -/

namespace Sys2Proof

open Machine

namespace Machine

/-! ### Interrupts (R40, R60) -/

/-- The link that a request towards a host address goes out on (R40). (DEDUCED: log 92) -/
def State.linkFor (s : State) (a : Nat) : Nat :=
  if s.link0 && s.link1 && s.paired0 && s.paired1 then a / 4096 % 2 else if s.link0 then 0 else 1

/-- The message of an MSI-X table entry, named by 2048·function + vector, is sent (R60); the device issues no host address from 2^52 on
(R21). (DESIGN CHOICE: log 134) -/
def State.sendMsix (s : State) (k : Nat) : State :=
  let e := (s.msixTab.find? fun x => x.k == k).getD ⟨k, 0, 0⟩
  if e.addr.toNat < 2 ^ 52 then s.out (.msix (k / 2048) (k % 2048) e.addr e.data) else s

/-- The entry that an MSI-X message takes: on the link that carried a write (R60). -/
def State.msixOf (s : State) (a vec : Nat) : Nat := 2048 * s.linkFor a + vec

/-- An MSI-X message on the link that carried a write: sent, or pending while its vector is masked; messages to one vector are never
merged (R60). -/
def State.msix (s : State) (a vec : Nat) : State :=
  let k := s.msixOf a vec
  if s.unmasked.contains k then s.sendMsix k else { s with pending := s.pending ++ [k] }

/-! ### Queue errors (R55) -/

/-- A queue enters ERROR: its code, a fault record, its error vector (R55, R56). (DEDUCED: log 88) -/
def State.queueError (s : State) (q : Queue) (code i : Nat) : State :=
  let (k, s) := s.newKey
  let s := (s.putQueue { q with st := .error code }).report
    { key := k, kind := 4, access := 0x30, code, ctx := q.ctx, queue := q.id, addr := BitVec.ofNat 64 i }
  if q.vec = 0 then s else s.msix 0 q.vec

/-! ### Accesses of packets (R372) -/

/-- Where an access of a packet falls; `via` is the request to a peer that it goes on with. -/
def State.pkgPieces (s : State) (c : Ctx) (need : Need) (va : DWord) (n : Nat) (via : Option PeerWait := none) :
    Except (Flt × DWord) (List Piece) :=
  match s.pieces c need true (n + 1) va n with
  | .error f => .error f
  | .ok ps => match ps.findSome? fun p => s.peerChk p.pa (Config.peerAnswers s.nondet) via with
    | some f => .error (f, va)
    | none => .ok ps

/-- What an access of the package leaves behind: translations in a TLB, and flits of requests to peers. -/
def State.used (s : State) (c : Ctx) (need : Need) (va : DWord) (n : Nat) (via : Option PeerWait) : State :=
  s.reached c [(need, va.toNat, n)] via

/-- Bytes that a packet reads, as the package sees them (R169). -/
def State.pkgRead (s : State) (c : Ctx) (va : DWord) (n : Nat) (via : Option PeerWait := none) : Except (Flt × DWord) (List Byte) :=
  match s.pkgPieces c .rd va n via with
  | .error f => .error f
  | .ok ps => match readPieces s.poison (s.seenBy packageReader) ps with
    | .error f => .error (f, va)
    | .ok b => .ok b

/-- Pieces written. -/
def State.putPieces (s : State) (ps : List Piece) (b : List Byte) : State :=
  (storePieces ps b).foldl (fun s p => s.store none p.1 p.2.1 p.2.2) s

/-- Bytes that a packet writes. -/
def State.pkgWrite (s : State) (c : Ctx) (va : DWord) (b : List Byte) (via : Option PeerWait := none) : Except (Flt × DWord) State :=
  match s.pkgPieces c .wr va b.length via with
  | .error f => .error f
  | .ok ps => .ok ((s.putPieces ps b).used c .wr va b.length via)

/-- First physical address of pieces. -/
def firstPa (ps : List Piece) : Nat := match ps with | p :: _ => p.pa | [] => 0

/-- What a fault of a packet's access comes to (R44, R372). -/
inductive PktFault where
  | wait (key : Nat) (s : State)
  | peer (x : PeerWait) (s : State)
  | stop

/-- What an access needs, by the access byte of its record (R57). -/
def needOf (access : Nat) : Need := if access % 16 = 1 then .rd else if access % 16 = 2 then .wr else .atom

/-- A fault of an access of a queue: a wait under STALL, for the host's answer or for a peer; else the packet stops (R372).
(DEDUCED: log 58) -/
def State.pktFault (s : State) (c : Ctx) (queue access : Nat) (f : Flt) (va : DWord) (via : Option PeerWait) (launchid : Word := 0) :
    PktFault :=
  match f with
  | .peer =>
    let r := s.peerSend c (needOf access) va via
    .peer r.1 r.2
  | f =>
    if traps c f then .stop
    else
      let (k, s) := s.waitPage c (f == .host) va
        (fun k => { key := k, kind := 1, access := BitVec.ofNat 8 access, ctx := c.id, queue, addr := va, launchid })
      .wait k s

/-! ### Doorbells (R45 to R47, R202) -/

/-- A write of widx that acts now (R47); one that overruns leaves widx as it was. (DEDUCED: log 90) (DESIGN CHOICE: log 143) -/
def State.doorbell (s : State) (q : Nat) (v : DWord) : State :=
  match s.queue? q with
  | none => s
  | some x =>
    if x.st ≠ .ok ∨ v.toNat < x.widx.toNat then s
    else if x.ridx + 2 ^ x.n < v.toNat then s.queueError x 6 x.ridx
    else s.putQueue { x with widx := v }

/-- DOORBELL_WIDX (R47): a narrower write is ignored; one accepted while the package is gated acts after ungating (R202). -/
def execDoorbellWidx (q : Nat) (v : DWord) (whole : Bool) (s : State) : Host.Outcome State Fault Refusal :=
  if !s.ready || s.dead || !whole then .next s
  else if s.gated then .next { s with heldDoors := s.heldDoors ++ [(q, v)] }
  else .next (s.doorbell q v)

/-! ### Checks of a packet (R49, R52, R54, R55) -/

/-- The first check that fails: its code. -/
def firstBadCheck (l : List (Bool × Nat)) : Option Nat := (l.find? (·.1)).map (·.2)

/-- Reserved bits of a packet header (R49). -/
def headBad (b : List Byte) : Bool := bnat b 1 1 / 2 != 0 || !bzero b 2 6

/-- The LAUNCH packet's fields (R51). -/
def LaunchPkt.of (b : List Byte) : LaunchPkt :=
  let fl := bnat b 53 1
  { image := BitVec.ofNat 64 (bnat b 8 8), args := BitVec.ofNat 64 (bnat b 16 8), sigaddr := BitVec.ofNat 64 (bnat b 24 8)
    sigval := BitVec.ofNat 64 (bnat b 32 8), teams := bnat b 40 4 + 1, spbytes := bnat b 44 4, waves := bnat b 48 1 % 16 + 1
    lanes := bnat b 49 1, ntags := bnat b 50 1, ntiles := bnat b 51 1, nbanks := bnat b 52 1, mode := fl % 4
    latch := fl / 4 % 2 == 1, co := fl / 8 % 2 == 1, affinity := fl / 16 % 2 == 1, idem := fl / 32 % 2 == 1
    logsz := bnat b 54 2, id := BitVec.ofNat 32 (bnat b 56 4), podgrp := bnat b 60 2 }

/-- Teams of a launch that one empty core holds (R71). -/
def LaunchPkt.perCore (p : LaunchPkt) : Nat :=
  let lim (have_ need : Nat) (n : Nat) : Nat := if need = 0 then n else min n (have_ / need)
  lim Config.spBytes (roundUp4K p.spbytes) (lim 64 p.ntags (lim 16 p.ntiles (lim 8 p.nbanks (16 / p.waves))))

/-- Teams of a launch that one empty die holds (R71, R82). -/
def LaunchPkt.perDie (p : LaunchPkt) : Nat :=
  if p.mode = 0 ∨ p.logsz = 0 then p.perCore * Config.coresPerDie
  else min (p.perCore * Config.coresPerDie) (Config.poolBytes / (p.logsz * 4096))

/-- The request can never be satisfied (R52, R75). -/
def LaunchPkt.tooBig (p : LaunchPkt) : Bool :=
  p.perDie == 0 || (p.co &&
    (if p.affinity then
      let groups := Config.dies * (p.perDie / 4)
      let full := p.teams / 4
      decide (groups < full) || (groups == full && decide (p.perDie % 4 < p.teams % 4))
    else decide (Config.dies * p.perDie < p.teams)))

/-- Checks of a LAUNCH packet (R52). (DEDUCED: log 94) -/
def State.launchBad (s : State) (b : List Byte) : Option Nat :=
  let p := LaunchPkt.of b
  firstBadCheck [
    (headBad b || bnat b 48 1 / 16 != 0 || bnat b 53 1 / 64 != 0 || !bzero b 62 2, 2),
    (p.lanes == 0 || 64 < p.lanes || p.spbytes % 256 != 0 || 0x100000 < p.spbytes || 64 < p.ntags || 16 < p.ntiles
      || 8 < p.nbanks || 64 < p.podgrp
      || (p.podgrp != 0 && (!p.co || !s.podValid (p.podgrp - 1) || !s.podMember (p.podgrp - 1) s.podid))
      || (p.latch && p.waves % 2 == 1) || (p.affinity && !p.co) || (p.logsz != 0 && p.mode == 0) || p.mode == 3, 3),
    (p.image.toNat % 128 != 0 || p.sigaddr.toNat % 32 != 0, 4),
    (p.tooBig, 5)]

/-- Virtual ranges overlap. -/
def overlap (a b n : Nat) : Bool := decide (a < b + n ∧ b < a + n)

/-- Checks of a packet of a user queue (R49, R52, R54, R55). -/
def State.packetBad (s : State) (b : List Byte) : Option Nat :=
  match bnat b 0 1 with
  | 0 => firstBadCheck [(headBad b || !bzero b 8 56, 2)]
  | 1 => s.launchBad b
  | 2 => firstBadCheck [
      (headBad b || bnat b 48 1 / 2 != 0 || !bzero b 49 15, 2),
      (2 ^ 40 < bnat b 24 8, 3),
      (bnat b 32 8 % 8 != 0, 4),
      (bnat b 48 1 % 2 == 0 && overlap (bnat b 8 8) (bnat b 16 8) (bnat b 24 8), 8)]
  | 3 =>
    let irq := bnat b 25 1 % 2 == 1
    firstBadCheck [
      (headBad b || bnat b 25 1 / 2 != 0 || (!irq && bnat b 26 2 != 0) || !bzero b 28 36, 2),
      (1 < bnat b 24 1 || (irq && (bnat b 26 2 < 2 || 2047 < bnat b 26 2)), 3),
      (bnat b 8 8 % 8 != 0, 4)]
  | 4 => firstBadCheck [
      (headBad b || !bzero b 33 3 || !bzero b 40 24, 2),
      (5 < bnat b 32 1, 3),
      (bnat b 8 8 % 8 != 0, 4)]
  | 5 => firstBadCheck [(headBad b || !bzero b 16 48, 2), (bnat b 8 8 % 16 != 0, 4)]
  | _ => some 1

/-! ### Consumption (R48) -/

/-- The read index's write-back is due (R48). -/
def Queue.wbDue (q : Queue) : Bool := q.ridx != q.lastWb && (decide (q.lastWb + 32 ≤ q.ridx) || q.ridx == q.widx.toNat)

/-- A fault of the ring or of the write-back address: a wait, or ERROR with TRANSLATE (R55). (DESIGN CHOICE: log 91) -/
def State.ringFault (s : State) (c : Ctx) (q : Queue) (access : Nat) (f : Flt) (va : DWord) : State :=
  match s.pktFault c q.id access f va q.peer with
  | .wait k s => s.putQueue { q with fault := some k }
  | .peer x s => s.putQueue { q with peer := some x }
  | .stop => s.queueError q 7 q.ridx

/-- The write-back of ridx when it is due. -/
def State.writeBack (s : State) (c : Ctx) (q : Queue) : State :=
  if q.wbDue then
    match s.pkgWrite c q.wb (le 8 q.ridx) q.peer with
    | .error (f, va) => s.ringFault c q 0x32 f va
    | .ok s => s.putQueue { q with lastWb := q.ridx, peer := none }
  else s.putQueue q

/-- A queue consumes packets: it is in order, waits on no fault, and is not being dropped (R47, R48, R56). -/
def Queue.consumes (q : Queue) : Bool := q.st == .ok && q.fault.isNone && q.destroy != some true

/-- PACKET_CONSUME (R48, R55). -/
def execPacketConsume (q : Nat) (s : State) : Host.Outcome State Fault Refusal :=
  match s.queue? q with
  | none => .next s
  | some x => match s.ctx? x.ctx with
    | none => .next s
    | some c =>
      let s' := { s with nondet := s.nondet + 1 }
      if !s.running || !x.consumes then .next s
      else if x.wbDue then .next (s'.writeBack c x)
      else if x.widx.toNat ≤ x.ridx then .next s
      else match s.pkgRead c (x.ring + BitVec.ofNat 64 (64 * (x.ridx % 2 ^ x.n))) 64 x.peer with
        | .error (f, va) => .next (s'.ringFault c x 0x31 f va)
        | .ok b =>
          let s' := s'.used c .rd (x.ring + BitVec.ofNat 64 (64 * (x.ridx % 2 ^ x.n))) 64 x.peer
          match s.packetBad b with
          | some code => .next (s'.queueError x code x.ridx)
          | none => .next (s'.writeBack c
              { x with ridx := x.ridx + 1, peer := none, pkts := x.pkts ++ [{ i := x.ridx, bytes := b, seen := s.tick }] })

/-! ### Starts and ends of packets (R50, R216) -/

/-- Opcode and fence bit of a packet. -/
def Pkt.op (p : Pkt) : Nat := bnat p.bytes 0 1
def Pkt.fence (p : Pkt) : Bool := bnat p.bytes 1 1 % 2 == 1

/-- The packet that the queue starts next, when it may start (R50). In ERROR, packets consumed before the rejected one still
start (R55), until QUEUE_DESTROY names the queue (R56). -/
def Queue.next? (q : Queue) : Option Pkt :=
  if (q.st ≠ .ok ∧ q.destroy.isSome) ∨ q.destroy = some true ∨ q.pkts.any (fun p => p.op == 4 && p.started && !p.done) then none
  else match q.pkts.find? fun p => !p.started with
    | none => none
    | some p => if p.fence && q.pkts.any (fun x => x.i < p.i && !x.done) then none else some p

/-- A packet put back. -/
def Queue.putPkt (q : Queue) (p : Pkt) : Queue := { q with pkts := q.pkts.map fun x => if x.i == p.i then p else x }

/-- A packet started, with the SYNC record of a fenced one (R50, R216). -/
def State.startPkt (s : State) (q : Queue) (p : Pkt) : State × Queue × Pkt :=
  let p' := { p with started := true, tick := s.tick, tai := s.tai, clk := s.clock }
  let q := q.putPkt p'
  let s := if p.fence then s.sync 0x1004 6 q.ctx q.id q.lastDone q.lastTick p.i p.seen else s
  (s.putQueue q, q, p')

/-- A packet complete: it is dropped from the list (R50). -/
def State.donePkt (s : State) (q i : Nat) : State :=
  match s.queue? q with
  | none => s
  | some x => s.putQueue { x with pkts := x.pkts.filter (fun p => p.i != i), lastDone := i, lastTick := s.tick }

/-- SIGNAL packets that wait to send the message of an entry send it and complete (R50, R60). -/
def State.unmaskSignals (s : State) (k : Nat) : State :=
  s.queues.foldl (fun s q => (q.pkts.filter fun p => p.msg == some k).foldl (fun s p => (s.sendMsix k).donePkt q.id p.i) s) s

/-- A packet that waits on a fault. -/
def State.waitPkt (s : State) (q : Queue) (p : Pkt) (k : Nat) : State := s.putQueue (q.putPkt { p with fault := some k })

/-- A started packet stops at a fault of its address: no later packet starts (R372). (DEDUCED: log 89) -/
def State.stopPkt (s : State) (q i : Nat) : State :=
  match s.queue? q with
  | none => s
  | some x => s.queueError { x with pkts := x.pkts.filter fun p => p.i != i && p.started } 7 i

/-- A fault of a started packet's access (R372). -/
def State.faultPkt (s : State) (c : Ctx) (q : Queue) (p : Pkt) (access : Nat) (f : Flt) (va : DWord) : State :=
  match s.pktFault c q.id access f va p.peer with
  | .wait k s => s.waitPkt q p k
  | .peer x s => s.putQueue (q.putPkt { p with peer := some x })
  | .stop => s.stopPkt q.id p.i

/-- A packet of an opcode to act on: one started that may go on, or the next to start. -/
def State.pktFor (s : State) (q op : Nat) : Option (Ctx × State × Queue × Pkt) :=
  if !s.running then none
  else match s.queue? q with
    | none => none
    | some x => match s.ctx? x.ctx with
      | none => none
      | some c =>
        match x.pkts.find? fun p => p.op == op && p.started && !p.done && p.fault.isNone && p.msg.isNone with
        | some p => some (c, s, x, p)
        | none => match x.next? with
          | some p => if p.op = op then
              let (s, x, p) := s.startPkt x p
              some (c, s, x, p)
            else none
          | none => none

/-- The next packet of a queue, if it has an opcode and may start. -/
def State.startFor (s : State) (q op : Nat) : Option (Ctx × State × Queue × Pkt) :=
  if !s.running then none
  else match s.queue? q with
    | none => none
    | some x => match s.ctx? x.ctx, x.next? with
      | some c, some p =>
        if p.op = op then
          let (s, x, p) := s.startPkt x p
          some (c, s, x, p)
        else none
      | _, _ => none

/-- NOP_PACKET: it completes when it starts (R50). -/
def execNopPacket (q : Nat) (s : State) : Host.Outcome State Fault Refusal :=
  match s.startFor q 0 with
  | none => .next s
  | some (_, s, x, p) => .next (s.donePkt x.id p.i)

/-- A launch begun. -/
def State.addLaunch (s : State) (ctx queue idx : Nat) (tt : Option Nat) (slotTime : Nat) (b : List Byte) : State :=
  let (k, s) := s.newKey
  { s with launches := s.launches ++ [{ key := k, ctx, queue, idx, tt, slotTime, p := LaunchPkt.of b }] }

/-- LAUNCH (R50, R51). -/
def execLaunch (q : Nat) (s : State) : Host.Outcome State Fault Refusal :=
  match s.startFor q 1 with
  | none => .next s
  | some (c, s, x, p) => .next (s.addLaunch c.id x.id p.i none 0 p.bytes)

/-- COPY: it waits for an engine (R54). -/
def execCopy (q : Nat) (s : State) : Host.Outcome State Fault Refusal :=
  match s.startFor q 2 with
  | none => .next s
  | some (c, s, x, p) =>
    let k : PkgCopy :=
      { queue := x.id, idx := p.i, ctx := c.id, src := BitVec.ofNat 64 (bnat p.bytes 8 8), dst := BitVec.ofNat 64 (bnat p.bytes 16 8)
        len := bnat p.bytes 24 8, sig := BitVec.ofNat 64 (bnat p.bytes 32 8), sigval := BitVec.ofNat 64 (bnat p.bytes 40 8)
        fill := bnat p.bytes 48 1 % 2 == 1 }
    .next { s with copies := s.copies ++ [k] }

/-- SIGNAL: a write or one atomic add, then its interrupt; while its vector is masked the packet waits with its message (R50, R54, R60). -/
def execSignal (q : Nat) (s : State) : Host.Outcome State Fault Refusal :=
  match s.pktFor q 3 with
  | none => .next s
  | some (c, s, x, p) =>
    let va : DWord := BitVec.ofNat 64 (bnat p.bytes 8 8)
    let v : DWord := BitVec.ofNat 64 (bnat p.bytes 16 8)
    let add := bnat p.bytes 24 1 == 1
    let s' := { s with nondet := s.nondet + 1 }
    match s.pkgPieces c (if add then .atom else .wr) va 8 p.peer with
    | .error (f, va) => .next (s'.faultPkt c x p (if add then 0x34 else 0x32) f va)
    | .ok ps =>
      match (if add then readPieces s.poison s.mem ps else .ok (bvBytes 8 (0 : DWord))) with
      | .error f => .next (s'.faultPkt c x p 0x34 f va)
      | .ok old =>
        let s' := (s'.putPieces ps (bvBytes 8 (BitVec.ofNat 64 (leNat old) + v))).used c (if add then .atom else .wr) va 8 p.peer
        let k := s'.msixOf (firstPa ps) (bnat p.bytes 26 2)
        if bnat p.bytes 25 1 % 2 ≠ 1 then .next (s'.donePkt x.id p.i)
        else if s'.unmasked.contains k then .next ((s'.sendMsix k).donePkt x.id p.i)
        else .next (s'.putQueue (x.putPkt { p with msg := some k, peer := none }))

/-- TIMESTAMP: tick and time of day of its start (R54). -/
def execTimestamp (q : Nat) (s : State) : Host.Outcome State Fault Refusal :=
  match s.pktFor q 5 with
  | none => .next s
  | some (c, s, x, p) =>
    let s' := { s with nondet := s.nondet + 1 }
    match s'.pkgWrite c (BitVec.ofNat 64 (bnat p.bytes 8 8)) (le 8 p.tick ++ le 8 (p.tai / 2 ^ 32)) p.peer with
    | .error (f, va) => .next (s'.faultPkt c x p 0x32 f va)
    | .ok s' => .next (s'.donePkt x.id p.i)

/-! ### WAIT (R54) -/

/-- WAIT starts; later packets of its queue wait for it (R50). -/
def execWait (q : Nat) (s : State) : Host.Outcome State Fault Refusal :=
  match s.startFor q 4 with
  | none => .next s
  | some (_, s, _, _) => .next s

/-- The conditions of WAIT on masked words. -/
def waitCond (cond : Nat) (w r : DWord) : Bool :=
  match cond with
  | 0 => w == r
  | 1 => w != r
  | 2 => decide (r.toNat ≤ w.toNat)
  | 3 => decide (w.toNat < r.toNat)
  | 4 => decide (r.toInt ≤ w.toInt)
  | _ => decide (w.toInt < r.toInt)

/-- The WAIT under way in a queue. -/
def Queue.waiting (q : Queue) : Option Pkt := q.pkts.find? fun p => p.op == 4 && p.started && !p.done

/-- WAIT_POLL: the word is read; the packet completes when its condition holds. -/
def execWaitPoll (q : Nat) (s : State) : Host.Outcome State Fault Refusal :=
  match s.queue? q with
  | none => .next s
  | some x => match s.ctx? x.ctx, x.waiting with
    | some c, some p =>
      if !s.running || p.fault.isSome then .next s
      else
        let s' := { s with nondet := s.nondet + 1 }
        match s.pkgRead c (BitVec.ofNat 64 (bnat p.bytes 8 8)) 8 p.peer with
        | .error (f, va) => .next (s'.faultPkt c x p 0x31 f va)
        | .ok b =>
          let s' := s'.used c .rd (BitVec.ofNat 64 (bnat p.bytes 8 8)) 8 p.peer
          let m : DWord := BitVec.ofNat 64 (bnat p.bytes 24 8)
          let w : DWord := BitVec.ofNat 64 (leNat b) &&& m
          if waitCond (bnat p.bytes 32 1) w (BitVec.ofNat 64 (bnat p.bytes 16 8) &&& m) then .next (s'.donePkt x.id p.i)
          else .next (s'.putQueue (x.putPkt { p with peer := none }))
    | _, _ => .next s

/-- A WAIT that has run out of time (R54, R202). -/
def Pkt.late (p : Pkt) (clock : Nat) : Bool :=
  let us := bnat p.bytes 36 4
  us != 0 && p.clk + us * Config.ticksPerUs ≤ clock

/-- WAIT_TIMEOUT: queues whose WAIT has run out of time enter ERROR (R54, R55). -/
def execWaitTimeout (s : State) : Host.Outcome State Fault Refusal :=
  if !s.running then .next s
  else .next (s.queues.foldl (fun s q =>
    match q.waiting with
    | some p =>
      if p.late s.clock then s.queueError { q with pkts := q.pkts.filter fun x => x.i != p.i && x.started } 9 p.i else s
    | none => s) s)

/-! ### COPY's steps and end (R54) -/

/-- A package copy put back. -/
def State.putCopy (s : State) (k : PkgCopy) : State :=
  { s with copies := s.copies.map fun x => if x.queue == k.queue && x.idx == k.idx then k else x }

/-- A package copy gone. -/
def State.dropCopy (s : State) (k : PkgCopy) : State :=
  { s with copies := s.copies.filter fun x => !(x.queue == k.queue && x.idx == k.idx) }

/-- A fault of a copy's address (R372). -/
def State.faultCopy (s : State) (c : Ctx) (k : PkgCopy) (access : Nat) (f : Flt) (va : DWord) : State :=
  match s.pktFault c k.queue access f va k.peer with
  | .wait key s => s.putCopy { k with fault := some key }
  | .peer x s => s.putCopy { k with peer := some x }
  | .stop => (s.dropCopy k).stopPkt k.queue k.idx

/-- A copy's source bytes for a step of n bytes. -/
def State.copySource (s : State) (c : Ctx) (k : PkgCopy) (n : Nat) : Except (Flt × DWord) (List Byte) :=
  if k.fill then .ok ((List.range n).map fun i => (k.src.extractLsb' (8 * ((k.done + i) % 8)) 8))
  else
    let va := k.src + BitVec.ofNat 64 k.done
    match s.pkgPieces c .rd va n k.peer with
    | .error f => .error f
    | .ok ps => match readMixed s (s.seenBy packageReader) k.orig s.nondet ps with
      | .error f => .error (f, va)
      | .ok b => .ok b

/-- Steps of a package copy, at most a number: each reads up to 256 bytes and writes them. -/
def State.pkgSteps (s : State) (c : Ctx) : PkgCopy → Nat → State
  | _, 0 => s
  | k, m + 1 =>
    let n := min 256 (k.len - k.done)
    if n = 0 then s
    else match s.copySource c k n with
      | .error (f, va) => s.faultCopy c k 0x31 f va
      | .ok b =>
        match s.pkgPieces c .wr (k.dst + BitVec.ofNat 64 k.done) n k.peer with
        | .error (f, va) => s.faultCopy c k 0x32 f va
        | .ok ps =>
          let orig := if k.fill then [] else keepOrig s.mem k.orig (storePieces ps b)
          let s' := (s.putPieces ps b).used c .wr (k.dst + BitVec.ofNat 64 k.done) n k.peer
          let s' := if k.fill then s' else s'.used c .rd (k.src + BitVec.ofNat 64 k.done) n k.peer
          let k := { k with done := k.done + n, orig, peer := none }
          ({ s' with nondet := s.nondet + 256 }.putCopy k).pkgSteps c k m

/-- COPY_PACKET_COMPLETE: a copy that has an engine runs on by a free number of its steps; with every byte written it writes its
signal and completes (R54). -/
def execCopyPacketComplete (q i : Nat) (s : State) : Host.Outcome State Fault Refusal :=
  match s.copies.find? fun k => k.queue == q && k.idx == i with
  | none => .next s
  | some k => match s.ctx? k.ctx with
    | none => .next s
    | some c =>
      if !s.running || k.engine.isNone || k.fault.isSome then .next s
      else
        let s' := { s with nondet := s.nondet + 1 }
        if k.done < k.len then
          .next (s'.pkgSteps c k (1 + Config.stepsDone s.nondet % ((k.len - k.done + 255) / 256)))
        else if k.sig = 0 then .next ((s'.dropCopy k).donePkt q i)
        else match s'.pkgWrite c k.sig (bvBytes 8 k.sigval) k.peer with
          | .error (f, va) => .next (s'.faultCopy c k 0x32 f va)
          | .ok s' => .next ((s'.dropCopy k).donePkt q i)

/-! ### The end of a launch (R24, R53) -/

/-- Every team of a launch has ended and no work of it is left. -/
def State.launchEnded (s : State) (l : Launch) : Bool :=
  !l.restarting && l.redo.isEmpty && (l.aborted || l.next == l.p.teams) && !s.teams.any fun t => t.launch == l.key

/-- Status of a completion record: the highest that applies (R53). -/
def Launch.status (l : Launch) : Nat := if l.aborted then 3 else if l.error then 2 else if l.voided ≠ [] then 1 else 0

/-- Lowest of a list of numbers. -/
def lowest (l : List Nat) (d : Nat) : Nat := l.foldl min d

/-- Bytes 8 to 31 of a completion record (R53). -/
def Launch.record (l : Launch) (tick : Nat) : List Byte :=
  le 4 l.status ++ le 4 (l.reruns + l.restarts) ++ le 4 l.voided.length
  ++ le 4 (if l.voided = [] then 0xFFFFFFFF else lowest l.voided 0xFFFFFFFF) ++ le 8 tick

/-- A launch leaves the package, with every store of it visible to all observers (R50); a pod launch sends its final message (R77). -/
def State.dropLaunch (s : State) (l : Launch) : State :=
  let s := s.showLaunch l.key
  let s := if l.p.podgrp ≠ 0 then s.podArrive l (l.phase .pod 0) true else s
  { s with launches := s.launches.filter fun x => x.key != l.key }

/-- The launch is over for its queue or its timetable entry. -/
def State.endLaunch (s : State) (l : Launch) : State :=
  let s := s.dropLaunch l
  match l.tt with
  | none => s.donePkt l.queue l.idx
  | some _ => s

/-- A completion record that cannot be written: the queue enters ERROR; the launch is otherwise complete (R372). A timetable
launch's is reported as one of its entry's faults. (DEDUCED: log 96) -/
def State.recordLost (s : State) (l : Launch) : State :=
  let s := s.dropLaunch l
  match l.tt with
  | none => s.stopPkt l.queue l.idx
  | some _ =>
    let (k, s) := s.newKey
    s.report { key := k, kind := 8, access := 0x32, code := 7, ctx := l.ctx, queue := l.queue, addr := l.p.sigaddr, launchid := l.p.id }

/-- LAUNCH_COMPLETE: bytes 8 to 31 of the completion record are visible before bytes 0 to 7 (R53). -/
def execLaunchComplete (k : Nat) (s : State) : Host.Outcome State Fault Refusal :=
  match s.launch? k with
  | none => .next s
  | some l =>
    if !s.running || !s.launchEnded l || l.fault.isSome then .next s
    else if l.p.sigaddr = 0 then .next (s.endLaunch l)
    else match s.ctx? l.ctx with
      | none => .next (s.endLaunch l)
      | some c =>
        let s' := { s with nondet := s.nondet + 1 }
        match s'.pkgPieces c .wr l.p.sigaddr 32 l.peer with
        | .ok ps => .next (((s'.putPieces ps (bvBytes 8 l.p.sigval ++ l.record s.tick)).used c .wr l.p.sigaddr 32 l.peer).endLaunch l)
        | .error (f, va) =>
          match s'.pktFault c l.queue 0x32 f va l.peer l.p.id with
          | .wait key s' => .next (s'.putLaunch { l with fault := some key })
          | .peer x s' => .next (s'.putLaunch { l with peer := some x })
          | .stop => .next (s'.recordLost l)

/-- LAUNCH_RESTART: a launch that restarts begins again once its resident teams have drained (R24). (DESIGN CHOICE: log 95) -/
def execLaunchRestart (s : State) : Host.Outcome State Fault Refusal :=
  match s.launches.find? fun l => l.restarting && !s.teams.any fun t => t.launch == l.key with
  | none => .next s
  | some l =>
    if s.running then
      .next (s.putLaunch { l with
        next := 0, redo := [], finished := [], released := [], voided := [], restarts := l.restarts + 1, restarting := false
        lastDie := none, phases := [], groups := [], known := [] })
    else .next s

end Machine

end Sys2Proof
end

