-- ==== Sys2Proof/Machine/EvPlace.lean ====
section
/-! DEFINITION. The launch arbiter and team placement (R67 to R75), forced save and resume (R88 to R92, R137, R319, R326, R333). -/

namespace Sys2Proof

open Machine

namespace Machine

/-! ### The placement test (R71) -/

/-- Where a team goes on a core. -/
structure Fit where
  slots : List Nat
  sp : Nat
  log : Nat

/-- The lowest 4 KiB-aligned run of n bytes below a limit that meets no occupied run (R71, R82). -/
def lowestRun (used : List (Nat × Nat)) (n limit : Nat) : Option Nat :=
  if n = 0 then some 0
  else
    let ok (a : Nat) : Bool := a + n ≤ limit && used.all fun u => decide (a + n ≤ u.1 ∨ u.1 + u.2 ≤ a)
    (0 :: used.map fun u => u.1 + u.2).foldl (fun best a =>
      if ok a then match best with | some b => some (min a b) | none => some a else best) none

/-- Teams on a core, with their launches. -/
def State.onCore (s : State) (core : Nat) : List (Team × Launch) :=
  (s.teams.filter fun t => t.core == some core).filterMap fun t => (s.launch? t.launch).map fun l => (t, l)

/-- Runs of a die's staging pool in use: logs that are neither applied nor discarded (R82). -/
def State.logsOn (s : State) (die : Nat) : List (Nat × Nat) :=
  s.teams.filterMap fun t =>
    match s.launch? t.launch with
    | some l => if t.logDie == die && l.p.mode != 0 && !t.direct && l.p.logsz != 0 then some (t.logBase, l.p.logsz * 4096) else none
    | none => none

/-- Bytes of a staging log (R51). -/
def LaunchPkt.logBytes (p : LaunchPkt) : Nat := if p.mode = 0 then 0 else p.logsz * 4096

/-- The wave slots a team takes: the lowest free ones, or the lowest free pairs under latch use (R71, R72). -/
def takeSlots (free : List Nat) (waves : Nat) (latch : Bool) : Option (List Nat) :=
  let l := if latch then ((List.range 8).filter fun j => free.contains (2 * j) && free.contains (2 * j + 1)).flatMap
      fun j => [2 * j, 2 * j + 1]
    else free
  if l.length < waves then none else some (l.take waves)

/-- The placement test of a core for a team of a launch (R71); a resumed team keeps its log. -/
def State.fits (s : State) (core : Nat) (l : Launch) (log : Bool) : Option Fit :=
  if (s.core core).held.isSome then none
  else
    let here := s.onCore core
    let used := here.flatMap fun x => x.1.slots
    let sum (f : LaunchPkt → Nat) : Nat := here.foldl (fun n x => n + f x.2.p) 0
    if 64 < sum (·.ntags) + l.p.ntags ∨ 16 < sum (·.ntiles) + l.p.ntiles ∨ 8 < sum (·.nbanks) + l.p.nbanks then none
    else
      match takeSlots ((List.range 16).filter fun k => !used.contains k) l.p.waves l.p.latch,
        lowestRun (here.map fun x => (x.1.spBase, roundUp4K x.2.p.spbytes)) (roundUp4K l.p.spbytes) Config.spBytes,
        (if log then lowestRun (s.logsOn (dieOf core)) l.p.logBytes Config.poolBytes else some 0) with
      | some slots, some sp, some log => some ⟨slots, sp, log⟩
      | _, _, _ => none

/-! ### The team placed next, and where (R70, R73, R75) -/

/-- A team waiting for a place. -/
inductive Due where
  | fresh (tix : Nat)
  /-- Re-run under R24: how often, and the core it ran on. -/
  | redo (tix n core : Nat)
  /-- Saved: the team's key (R92). -/
  | saved (tix key : Nat)

/-- Team index of a team waiting for a place. -/
def Due.tix : Due → Nat
  | .fresh t => t | .redo t _ _ => t | .saved t _ => t

/-- Teams of a launch that wait for a place; of those never placed, the first. -/
def State.waiting (s : State) (l : Launch) : List Due :=
  (l.redo.map fun r => Due.redo r.1 r.2.1 r.2.2)
  ++ ((s.teams.filter fun t => t.launch == l.key && t.saved).map fun t => Due.saved t.tix t.key)
  ++ (if l.next < l.p.teams then [Due.fresh l.next] else [])

/-- The lowest of them (R70). -/
def nextDue : List Due → Option Due
  | [] => none
  | d :: t => match nextDue t with
    | none => some d
    | some e => some (if e.tix < d.tix then e else d)

/-- A launch's teams may be placed now: its context is not pre-empted, it neither drains nor is discarded (R24, R88). -/
def State.placing (s : State) (l : Launch) : Bool :=
  !l.restarting && !l.aborted && (match s.ctx? l.ctx with | some c => !c.stopped | none => false)

/-- Quads in the order of a placement of a launch (R73): dies from the one after the launch's last, quads of a die from the one
after its last placement. -/
def State.quadOrder (s : State) (l : Launch) : List Nat :=
  let d0 := match l.lastDie with | some d => d + 1 | none => l.p.id.toNat % 4
  (List.range 4).flatMap fun i =>
    let d := (d0 + i) % 4
    let q0 := match s.dispatch.find? fun x => x.1 == d with | some x => x.2 % 40 + 1 | none => 0
    (List.range 40).map fun j => 40 * d + (q0 + j) % 40

/-- The lowest core of a quad that passes for a team. (DEDUCED: log 99) -/
def State.coreIn (s : State) (g : Nat) (l : Launch) (d : Due) : Option (Nat × Fit) :=
  (List.range 4).findSome? fun p =>
    let c := 4 * g + p
    let other := match d with | .redo _ _ k => c != k | _ => true
    let log := match d with | .saved _ _ => false | _ => true
    if other then (s.fits c l log).map fun f => (c, f) else none

/-- Quads that a team may go to: under quad affinity, the quad of its group, where one of its teams stands or has stood; a saved team
with no mate on a core may go anywhere (R75, R92). (DEDUCED: log 147) -/
def State.quadsFor (s : State) (l : Launch) (d : Due) : List Nat :=
  if l.p.affinity then
    match s.teams.find? fun t => t.launch == l.key && t.tix / 4 == d.tix / 4 && t.core.isSome with
    | some t => [quadOf (t.core.getD 0)]
    | none => match d, l.groups.find? fun g => g.1 == d.tix / 4 with
      | .saved _ _, _ => s.quadOrder l
      | _, some g => [g.2]
      | _, none => s.quadOrder l
  else s.quadOrder l

/-! ### A team placed (R72, R98, R197, R308, R327) -/

/-- A wave at its placement (R98). -/
def newWave (key team wid place : Nat) : Wave := { key, team, wid, place := some place }

/-- A team new on a core. -/
def State.newTeam (s : State) (l : Launch) (core tix replays : Nat) (f : Fit) : State :=
  let key := s.fresh
  let t : Team :=
    { key, launch := l.key, ctx := l.ctx, tix, core := some core, slots := f.slots, spBase := f.sp, logDie := dieOf core
      logBase := f.log, tiles := List.replicate l.p.ntiles {}, banks := List.replicate l.p.nbanks {}
      latches := if l.p.latch then List.replicate (l.p.waves / 2) {} else [], replays, start := s.tick }
  let ws := f.slots.zipIdx.map fun x => newWave (key + 1 + x.2) key x.2 (16 * core + x.1)
  let s' : State := { s with fresh := key + 1 + l.p.waves, teams := s.teams ++ [t], waves := s.waves ++ ws }
  s'.trace core 0x02 4 l.ctx tix []

/-! ### Resume (R92, R319, R326, R333) -/

/-- The cause of a reload that faults. -/
def Flt.cause : Flt → Nat
  | .trap c => c
  | .page => causePage
  | .host => causePage
  | .ecc _ _ => causeEcc
  | .peer => causeEcc

/-- A bank as it resumes (R333). -/
def Actor.reload (a : Actor) (s : State) (b : Bank) : Bank :=
  match b.backing with
  | .source sp va =>
    (match a.read s (if sp then .sp else .gm) va 4096 with
    | .ok bytes => { b with entries := csetAll [] ((List.range 512).map fun k => (k, BitVec.ofNat 64 (bnat bytes (8 * k) 8))) }
    | .error (f, at_) => { b with entries := [], backing := .none, bad := some (f.cause, at_) })
  | _ => b

/-- A wave's frequency tables as it resumes (R326). -/
def Actor.reTables (a : Actor) (s : State) (w : Wave) : Wave :=
  (List.range 8).foldl (fun w g =>
    let d := cget w.regs.g g
    if gKind d = 5 then
      let (tab, bad) : List Byte × DWord := match a.table s d with
        | .ok b => (b, 0)
        | .error (f, _) => (List.replicate 1024 0, gTabVa d + BitVec.ofNat 64 f.cause)
      { w with regs := { w.regs with
          gtab := csetAll (cclear w.regs.gtab (256 * g) 256) ((List.range 256).map fun k => (256 * g + k, wordOf ((tab.drop (4 * k)).take 4)))
          gbad := cset w.regs.gbad g bad } }
    else w) w

/-- The declaration of a wave is in effect at a save (R319). -/
def Wave.declared (w : Wave) : Bool := w.restart.isSome && !w.inHandler && w.frags != []

/-- A reply that came during the save applies (R59). -/
def State.lateReply (s : State) (key : Nat) (x : Stall) : State :=
  match x.reply, s.wave? key with
  | some .retry, some _ => s.retryStall key x
  | some .trap, some w =>
    let w' := { w.stateless with stalls := w.stalls.filter (· != x) }
    let tr := x.trap.getD (badTrap x.op (x.op.accs.map fun q => (q, Flt.page, q.va))).1
    s.raise w' tr
  | _, _ => s

/-- The part of a wave area that a resume writes: the frame and fragment list only with a wave in its handler; call stack and handler
scratch always (R131, R137). (DEDUCED: log 31) -/
def State.putArea (s : State) (c : Ctx) (w : Wave) (place : Nat) (area : List Byte) : State :=
  let a := waveArea c place
  let s := if w.inHandler then s.store none a (area.take 0x600) false else s
  s.store none (a + 0xA00) (area.drop 0xA00) false

/-- One wave of a team that resumes on a place (R92, R137, R319); one inside a clause whose class is taken there waits its turn (R93). -/
def State.resumeWave (s : State) (c : Ctx) (a : Actor) (place : Nat) (w : Wave) : State :=
  let s := s.putArea c w place w.area
  let w' := { a.reTables s w with place := some place, area := [], short := false, known := joinKnown w.known a.known }
  let (s, w') := if w.declared then (let (s, w') := s.flush w'; (s, w'.toLabel)) else (s, w')
  let (s, w') := s.fitTable w'
  let taken : Bool := match w'.clause with | some cl => (w'.stage == .issue || w'.stage == .long) && s.classTaken w' cl.cls | none => false
  let w' := if taken then { w' with stage := .inside } else w'
  let s := s.putWave (if w.short then w'.pendTrap causeCtxmem 0 else w')
  w'.stalls.foldl (fun s x => s.lateReply w.key x) s

/-- Where the scratchpad of a saved team counts as standing. -/
def savedSp : Nat := 2 ^ 57

/-- What a copy keeps of the bytes that its earlier steps overwrote, its team's scratchpad moved; what it keeps of a neighbour's is dropped
(R89, R300). -/
def Cmd.rebase (c : Cmd) (lo lo' n : Nat) : Cmd :=
  { c with orig := c.orig.filterMap fun x =>
      if lo ≤ x.1 ∧ x.1 < lo + n then some (x.1 - lo + lo', x.2) else if x.1 < 2 ^ 56 then some x else none }

/-- A saved team placed again: scratchpad, wave areas, banks and tables are restored, its waves come after all that it has written, and each
goes on; the matrix work of those that go on at a label is abandoned; a KILL that came meanwhile applies (R59, R90, R92, R137, R319). -/
def State.resumeTeam (s : State) (l : Launch) (core key : Nat) (f : Fit) : State :=
  match s.team? key, s.ctx? l.ctx with
  | some old, some c =>
    let t := { old with
      core := some core, slots := f.slots, spBase := f.sp, saved := false, resumes := old.resumes + 1, sp := [], rec_ := none, jobs := []
      cmds := old.cmds.map (·.rebase savedSp (spAddr core f.sp) l.p.spbytes), toKill := false }
    let k := s.core core
    let ws := s.waves.filter fun w => w.team == key
    let jobs := old.jobs.filter fun j => !ws.any fun w => w.key == j.wave && w.declared
    let s := (s.putCore { k with mtx := k.mtx ++ jobs }).freeRecord old
    let s := s.store none (spAddr core f.sp) ((List.range l.p.spbytes).map fun i => cget old.sp i) false
    let a : Actor :=
      { core, c, t, l, who := none, staged := l.p.mode != 0 && !t.direct, path := 2, known := s.teamWrites (ws.map (·.key)) }
    let s := s.putTeam t
    let s := s.putTeam { t with banks := t.banks.map (a.reload s) }
    let s := ws.foldl (fun s w => s.resumeWave c a (16 * core + (f.slots[w.wid]?).getD 0) w) s
    let s := { s with nondet := s.nondet + 1 }.trace core 0x05 4 l.ctx t.tix []
    match old.toKill, s.team? key with
    | true, some t => s.voidTeam t
    | _, _ => s
  | _, _ => s

/-- A team put on a core. -/
def State.putOn (s : State) (l : Launch) (d : Due) (core : Nat) (f : Fit) : State :=
  let s := match d with
    | .fresh tix => s.newTeam l core tix 0 f
    | .redo tix n _ => s.newTeam l core tix n f
    | .saved _ key => s.resumeTeam l core key f
  let s := { s with dispatch := lset s.dispatch (dieOf core) (quadOf core % 40) }
  match s.launch? l.key with
  | none => s
  | some l => s.putLaunch { l with
      lastDie := some (dieOf core)
      groups := if l.p.affinity then lset l.groups (d.tix / 4) (quadOf core) else l.groups
      next := (match d with | .fresh tix => tix + 1 | _ => l.next)
      redo := (match d with | .redo tix _ _ => l.redo.filter fun r => r.1 != tix | _ => l.redo) }

/-- The next team of a launch placed, when some core passes (R70, R73). -/
def State.placeOne (s : State) (l : Launch) : Option State :=
  match nextDue (s.waiting l) with
  | none => none
  | some d =>
    ((s.quadsFor l d).findSome? fun g => s.coreIn g l d).map fun x => s.putOn l d x.1 x.2

/-- Teams placed one after the other within a quad, while they belong to a group of four (R75). -/
def State.placeIn (s : State) (key grp g : Nat) : Nat → Option State
  | 0 => some s
  | fuel + 1 =>
    match s.launch? key with
    | none => none
    | some l => match nextDue (s.waiting l) with
      | none => some s
      | some d =>
        if d.tix / 4 ≠ grp then some s
        else match s.coreIn g l d with
          | none => none
          | some x => (s.putOn l d x.1 x.2).placeIn key grp g fuel

/-- All teams of a co-resident launch placed, or none (R74, R75). Fuel counts teams. -/
def State.placeAll (s : State) (key : Nat) : Nat → Option State
  | 0 => some s
  | fuel + 1 =>
    match s.launch? key with
    | none => none
    | some l => match nextDue (s.waiting l) with
      | none => some s
      | some d =>
        if l.p.affinity then
          match (s.quadsFor l d).findSome? fun g => s.placeIn key (d.tix / 4) g 4 with
          | none => none
          | some s' => s'.placeAll key fuel
        else match s.placeOne l with
          | none => none
          | some s' => s'.placeAll key fuel

/-- The placement of a launch's next service, when it is ready (R69, R74), and the services it counts for. -/
def State.service (s : State) (l : Launch) : Option (State × Nat) :=
  if !s.placing l then none
  else if l.p.co then
    let n := (s.waiting l).length + (l.p.teams - l.next - (if l.next < l.p.teams then 1 else 0))
    (s.placeAll l.key (n + 1)).map fun s => (s, n)
  else (s.placeOne l).map fun s => (s, 1)

/-! ### The arbiter (R67 to R69, R74) -/

/-- The launch that a queue offers: its earliest started one that has teams to place, one that drains for a restart among them, while
teams of it may be placed (R24, R69). -/
def State.queueLaunch (s : State) (q : Nat) : Option Launch :=
  (bestBy (fun l => (0, l.idx)) (s.launches.filter fun l =>
    l.queue == q && l.tt.isNone && !l.aborted && (l.restarting || (nextDue (s.waiting l)).isSome))).filter s.placing

/-- The copy that a queue offers: its earliest started one without an engine (R69). -/
def State.queueCopy (s : State) (q : Nat) : Option PkgCopy :=
  bestBy (fun k => (0, k.idx)) (s.copies.filter fun k => k.queue == q && k.engine.isNone)

/-- A free package copy engine (R54). -/
def State.freeEngine (s : State) : Option Nat := (List.range 8).find? fun e => !s.copies.any fun k => k.engine == some e

/-- A queue has a candidate. -/
def State.offers (s : State) (q : Nat) : Bool := (s.queueLaunch q).isSome || (s.queueCopy q).isSome

/-- The effective level of a launch (R67, R68). -/
def State.level (s : State) (l : Launch) : Nat :=
  match l.tt with
  | some _ => 7
  | none => match s.queue? l.queue with | some q => q.level | none => 0

/-- A gang hold at or above a level blocks placements there (R74). (DEDUCED: log 98) -/
def State.blocked (s : State) (lev : Nat) : Bool := s.launches.any fun l => l.hold && s.placing l && decide (lev ≤ s.level l)

/-- What the arbiter does next. -/
inductive Serve where
  | place (l : Launch) (s : State) (n : Nat)
  | hold (l : Launch)
  | copy (k : PkgCopy) (engine : Nat)

/-- A launch reached by the arbiter (R69, R74). -/
def State.reach (s : State) (lev : Nat) (l : Launch) : Option Serve :=
  if l.hold ∨ s.blocked lev then none
  else match s.service l with
    | some (s', n) => some (.place l s' n)
    | none => if l.p.co then some (.hold l) else none

/-- A queue reached: its launch and its copy in the order of their packets. (DESIGN CHOICE: log 145) -/
def State.reachQueue (s : State) (q : Queue) : Option Serve :=
  let viaL := (s.queueLaunch q.id).bind (s.reach q.level)
  let viaC := (s.queueCopy q.id).bind fun k => s.freeEngine.map fun e => Serve.copy k e
  let first := match s.queueLaunch q.id, s.queueCopy q.id with
    | some l, some k => decide (l.idx < k.idx)
    | _, _ => true
  if first then (match viaL with | some x => some x | none => viaC) else (match viaC with | some x => some x | none => viaL)

/-- Level 7: timetable launches in order of slot time (R67); fuel counts launches. -/
def State.serve7 (s : State) : Nat → List Launch → Option Serve
  | 0, _ => none
  | fuel + 1, ls =>
    match bestBy (fun l => (0, l.slotTime)) ls with
    | none => none
    | some l => match s.reach 7 l with
      | some x => some x
      | none => s.serve7 fuel (ls.filter fun x => x.key != l.key)

/-- The queues of a level in the order of a round: those with services left by number, then the others (R67). -/
def State.roundOrder (s : State) (lev : Nat) : List Queue :=
  let ins (q : Queue) (l : List Queue) : List Queue := (l.filter fun x => x.id < q.id) ++ [q] ++ l.filter fun x => q.id ≤ x.id
  let qs := (s.queues.filter fun q => q.level == lev && s.offers q.id).foldl (fun l q => ins q l) []
  (qs.filter fun q => q.credit != 0) ++ qs.filter fun q => q.credit == 0

/-- The candidate served next: the highest level that holds a ready one (R67, R69). (DESIGN CHOICE: log 97) -/
def State.pick (s : State) : Option Serve :=
  let tts := s.launches.filter fun l => l.tt.isSome && s.placing l && (nextDue (s.waiting l)).isSome
  match s.serve7 tts.length tts with
  | some x => some x
  | none => [6, 5, 4, 3, 2, 1, 0].findSome? fun lev => (s.roundOrder lev).findSome? s.reachQueue

/-- A queue has been served: its level is its base level, and the services count (R67, R68, R74). With none left at its level a
new round gives every queue of the level its weight; a queue that joins a level keeps what it had, a new one none, until then.
(DESIGN CHOICE: log 144) -/
def State.served (s : State) (q n : Nat) : State :=
  match s.queue? q with
  | none => s
  | some x =>
    let s := if x.credit = 0 then
        { s with queues := s.queues.map fun y => if y.level == x.level then { y with credit := y.weight } else y }
      else s
    match s.queue? q with
    | none => s
    | some x => s.putQueue { x with credit := x.credit - n, level := x.prio, unserved := 0 }

/-- A service done (R67). -/
def State.doServe (s : State) : Serve → State
  | .place l s' n => match l.tt with | some _ => s' | none => s'.served l.queue n
  | .hold l => s.putLaunch { l with hold := true }
  | .copy k e => (s.putCopy { k with engine := some e }).served k.queue 1

/-- ARBITER_SERVE (R67 to R69, R74). -/
def execArbiterServe (s : State) : Host.Outcome State Fault Refusal :=
  if !s.running then .next s
  else match s.pick with
    | some x => .next (s.doServe x)
    | none => .next s

/-- TEAM_PLACE: the arbiter's choice, when it is a team of this launch (R70 to R73). -/
def execTeamPlace (l : Nat) (s : State) : Host.Outcome State Fault Refusal :=
  if !s.running then .next s
  else match s.pick with
    | some (.place x s' n) => if x.key = l then .next (s.doServe (.place x s' n)) else .next s
    | _ => .next s

/-- A held launch is not behind a hold of a higher level (R74). -/
def State.leads (s : State) (l : Launch) : Bool :=
  !s.launches.any fun x => x.hold && s.placing x && decide (s.level l < s.level x)

/-- The held launch of the highest level in force, when its teams all fit (R74). -/
def State.gangReady (s : State) : Option (Launch × State × Nat) :=
  let ok := (s.launches.filter fun l => l.hold && s.leads l).filterMap fun l => (s.service l).map fun x => (l, x.1, x.2)
  bestBy (fun x => (s.level x.1, x.1.key)) ok

/-- GANG_PLACE: a held launch is placed whole and its hold ends (R74). (DESIGN CHOICE: log 100) -/
def execGangPlace (s : State) : Host.Outcome State Fault Refusal :=
  if !s.running then .next s
  else match s.gangReady with
    | none => .next s
    | some (l, s', n) =>
      let s' := match s'.launch? l.key with | some x => s'.putLaunch { x with hold := false } | none => s'
      .next (match l.tt with | some _ => s' | none => s'.served l.queue n)

/-- Ticks of one step of aging (R68). -/
def agingTicks : Nat := 500 * Config.ticksPerUs

/-- AGING: queues whose candidate has gone unserved long enough rise one level, at most to 6 (R68). -/
def execAging (s : State) : Host.Outcome State Fault Refusal :=
  if !s.running then .next s
  else .next { s with queues := s.queues.map fun q =>
    if agingTicks ≤ q.unserved && s.offers q.id then { q with level := min 6 (q.level + 1), unserved := q.unserved - agingTicks }
    else q }

/-! ### Forced save (R88 to R91, R137, R319) -/

/-- Tiles that declarations in effect name (R319). -/
def State.recomputable (s : State) (t : Team) : BitVec 16 :=
  (s.waves.filter fun w => w.team == t.key && w.declared).foldl (fun m w => match w.restart with
    | some r => m ||| r.tiles
    | none => m) 0

/-- The tile that a matrix instruction writes. -/
def MtxJob.tile (j : MtxJob) : Option Nat :=
  match j.instr with
  | .mma o => some o.tile.val
  | .mmaz o => some o.tile.val
  | _ => none

/-- Matrix work of a team on its core. -/
def State.jobsOf (s : State) (t : Team) : List MtxJob :=
  (s.core (t.core.getD 0)).mtx.filter fun j => match s.wave? j.wave with | some w => w.team == t.key | none => false

/-- A load of a codebook bank that waits on a fault keeps a writer of the bank waiting (R328). -/
def Team.loadStands (t : Team) (j : MtxJob) : Bool :=
  match j.writes with
  | none => false
  | some b => t.cmds.any fun c => c.bank == some b && decide (c.seq < j.seq) && c.fault.isSome

/-- A matrix instruction whose turn it is stands on a fault, on a load that does, or at the Threshold position (R86, R157, R328). -/
def State.jobStands (s : State) (j : MtxJob) : Bool :=
  j.fault.isSome || (match (s.wave? j.wave).bind fun w => s.team? w.team with
    | some t => t.loadStands j || (t.wantDirect && !t.direct && (match j.instr with | .mst _ => true | _ => false)
        && (match s.launch? t.launch with | some l => !l.holds t.tix | none => false))
    | none => false)

/-- A core's engine stands: the instruction at its head, and those behind it, are captured by a save (R88, R89). -/
def State.engineStands (s : State) (core : Nat) : Bool :=
  match (s.core core).mtx with
  | [] => false
  | j :: _ => s.jobStands j

/-- A codebook load stands on a fault, or waits behind one of its bank that does, or behind matrix work that stands (R88, R89, R328). -/
def State.loadHeld (s : State) (t : Team) (c : Cmd) : Bool :=
  match c.bank with
  | none => false
  | some b => c.fault.isSome || (t.cmds.any fun d => d.bank == some b && decide (d.seq < c.seq) && d.fault.isSome)
      || (s.engineStands (t.core.getD 0) && !s.bankFree t c b)

/-- A wave inside a clause stands in a wait that the save captures: it waits for matrix work only while the engine stands, and for a
codebook bank only while a load or the engine does; else its clause runs to its end (R89). -/
def State.stands (s : State) (w : Wave) : Bool :=
  match w.stage with
  | .issue => (match w.reason with
    | 0 => false
    | 10 => s.engineStands w.coreNo
    | 13 => s.engineStands w.coreNo || (match s.team? w.team with | some t => t.cmds.any (s.loadHeld t) | none => false)
    | _ => true)
  | .long => !w.stalls.isEmpty || s.busy w
  | _ => false

/-- A wave stands at a clause boundary, or in a wait that the save captures: of a wave that waits for its matrix work, the engine's; of one that
waits for its class, the wait of a clause that holds it and stands (R89). (DESIGN CHOICE: log 101) -/
def State.savable (s : State) (w : Wave) : Bool :=
  let waits := !w.stalls.isEmpty || s.busy w
  w.stalls.all (fun x => x.peer.isNone) && (match w.stage with
    | .entering => true
    | .label => true
    | .ready => true
    | .ended => true
    | .ending => true
    | .vote => waits
    | .trap => waits
    | .inside => s.waves.any fun x => x.place.isSome && x.coreNo == w.coreNo && s.stands x
    | _ => s.stands w)

/-- A team can be saved now: its waves stand, its quad is not stopped, and only work that stands on a fault or at the Threshold, copies, and
MMAs into recomputable tiles are under way (R89, R209). -/
def State.teamSavable (s : State) (t : Team) : Bool :=
  let rc := s.recomputable t
  let core := t.core.getD 0
  !(s.quad (quadOf core)).stopped
  && (s.waves.filter fun w => w.team == t.key).all s.savable
  && (s.jobsOf t).all (fun j => j.fault.isSome || s.engineStands core || (match j.tile with | some k => rc.getLsbD k | none => false))
  && t.cmds.all fun c => c.peer.isNone && (c.bank.isNone || s.loadHeld t c)

/-- Size of a save record (R91). -/
def State.recordSize (s : State) (l : Launch) (t : Team) : Nat :=
  let rc := s.recomputable t
  let tiles := ((List.range l.p.ntiles).filter fun k => !rc.getLsbD k).length
  let banks := (t.banks.filter fun b => b.backing == .none).length
  4096 + 24576 * l.p.waves + 16384 * t.latches.length + roundUp4K l.p.spbytes + 16384 * tiles + 4096 * banks

/-- Free cells in place of n from one. -/
def loseCells {w : Nat} (c : Cells w) (lo n draw : Nat) : Cells w :=
  csetAll (cclear c lo n) ((List.range n).map fun i => (lo + i, (Config.lost (draw + i)).setWidth w))

/-- A team's contents that found no room: values the model does not fix (R91). (DESIGN CHOICE: log 26) -/
def Team.lose (t : Team) (n draw : Nat) : Team :=
  { t with
    sp := loseCells [] 0 n draw
    tiles := t.tiles.zipIdx.map fun x => { x.1 with cells := loseCells [] 0 4096 (draw + n + 4096 * x.2) }
    banks := t.banks.zipIdx.map fun x =>
      if x.1.backing == .none then { x.1 with entries := loseCells [] 0 512 (draw + n + 65536 + 512 * x.2) } else x.1
    latches := t.latches.zipIdx.map fun x => { x.1 with
      v := loseCells [] 4096 4096 (draw + n + 69632 + 8192 * x.2), vt := loseCells [] 64 64 (draw + n + 73728 + 8192 * x.2) } }

/-- A wave's registers that found no room (R91); its place in the automaton is kept (R137). (DESIGN CHOICE: log 26) -/
def Wave.lose (w : Wave) (draw : Nat) : Wave :=
  let d := draw + 16384 * w.wid
  { w with regs := { w.regs with
      v := loseCells [] 0 8192 d, vt := loseCells [] 0 128 (d + 8192), s := loseCells [] 0 64 (d + 8320), m := loseCells [] 0 8 (d + 8384)
      g := csetAll [] ((List.range 8).map fun k =>
        (k, Config.lost (d + 8392 + 4 * k) ++ Config.lost (d + 8393 + 4 * k) ++ Config.lost (d + 8394 + 4 * k) ++ Config.lost (d + 8395 + 4 * k)))
      h := loseCells [] 0 16 (d + 8424), exm := Config.lost (d + 8440), amax := (Config.lost (d + 8441)).setWidth 33
      fflags := (Config.lost (d + 8442)).setWidth 5, srseed := Config.lost (d + 8443), srctr := Config.lost (d + 8444) } }

/-- Numbers drawn for the contents that a team lost. -/
def Launch.lostDraws (l : Launch) : Nat := l.p.spbytes + 2 ^ 19

/-- The wave area as a save captures it: a frame in it says that its wave is in the handler (R134, R137). A poisoned line gives no data: what
stands for its bytes is free (R26). (DESIGN CHOICE: log 158) -/
def State.savedArea (s : State) (c : Ctx) (w : Wave) (draw : Nat) : List Byte :=
  let a := waveArea c (w.place.getD 0)
  let b := mbytes s.mem a 4096
  let b := if s.poison.isEmpty then b
    else b.zipIdx.map fun p => if s.poison.contains ((a + p.2) / 128) then (Config.lost (draw + p.2)).setWidth 8 else p.1
  if w.inHandler then b.set 3 ((b[3]?).getD 0 ||| 1) else b

/-- A wave saved: its fragment list is held whole, spilled entries brought back, and its link sets are gone (R114, R137, R292). -/
def Wave.saved (w : Wave) (area : List Byte) (short : Bool) (draw : Nat) : Wave :=
  let w := { w with
    place := none, area, links := clearedLinks, short, stepping := none, frags := w.frags.map fun (f : Frag) => { f with spill := none }
    reason := if w.stage = .ready ∧ w.frags.any (·.spill.isSome) then 7 else w.reason }
  if short then w.lose draw else w

/-- The first poisoned line that a save of a team reads in its waves' areas, with the wave (R11). -/
def State.areaError (s : State) (c : Ctx) (t : Team) : Option (Wave × Nat × Option Nat) :=
  if s.poison.isEmpty then none
  else (s.waves.filter fun w => w.team == t.key).findSome? fun w => match readAt s.poison s.mem (waveArea c (w.place.getD 0)) 4096 with
    | .error (.ecc n k) => some (w, n, k)
    | _ => none

/-- A team leaves its core with its contents saved (R89 to R91, R137). -/
def State.capture (s : State) (c : Ctx) (l : Launch) (t : Team) : State :=
  let core := t.core.getD 0
  let rc := s.recomputable t
  let size := s.recordSize l t
  let used := s.teams.filterMap fun x => if x.ctx == c.id then x.rec_ else none
  let at_ := lowestRun (used.map fun r => (r.1 - c.poolbase, r.2)) size c.poolsize
  let short := at_.isNone
  let jobs := (s.jobsOf t).filter fun j => match j.tile with | some k => !rc.getLsbD k | none => true
  let t' := { t with
    core := none, slots := [], saved := true, toSave := false, jobs
    cmds := t.cmds.map (·.rebase (spAddr core t.spBase) savedSp l.p.spbytes)
    sp := cmove (w := 8) s.mem (spAddr core t.spBase) l.p.spbytes 0
    tiles := t.tiles.zipIdx.map fun (x : Tile × Nat) => if rc.getLsbD x.2 then {} else x.1
    rec_ := at_.map fun a => (c.poolbase + a, size) }
  let t' := if short then t'.lose l.p.spbytes s.nondet else t'
  let keys := (s.waves.filter fun w => w.team == t.key).map (·.key)
  let s := s.trace core 0x04 4 c.id t.tix []
  let k := s.core core
  let s := s.putCore { k with mtx := k.mtx.filter fun j => !keys.contains j.wave }
  let s := { s with waves := s.waves.map fun (w : Wave) =>
    if w.team == t.key then w.saved (s.savedArea c w (s.nondet + 4096 * w.wid)) short (s.nondet + l.p.spbytes + 2 ^ 18) else w }
  let s := s.putTeam t'
  match at_ with
  | some _ => s.poolUse c fun n => n + size
  | none =>
    let s : State := { s.store none (c.mem + 24) (le 8 (mnat s.mem (c.mem + 24) 8 + 1)) false with nondet := s.nondet + l.lostDraws }
    match s.launch? l.key with
    | some l => s.putLaunch { l with error := true }
    | none => s

/-- A forced save of a team. An uncorrected error in a wave's area strikes the team first, and one that is to run again is not saved (R11, R24, R89
to R91). -/
def State.saveTeam (s : State) (c : Ctx) (l : Launch) (t : Team) : State :=
  match s.areaError c t with
  | none => s.capture c l t
  | some (w, n, k) =>
    let s := s.strike w n k { cause := causeEcc } false
    match s.team? t.key with
    | some t =>
      let s := s.capture c l t
      { s with nondet := s.nondet + 2 ^ 16 }
    | none => s

/-- Teams of a context on cores. -/
def State.resident (s : State) (ctx : Nat) : List Team := s.teams.filter fun t => t.ctx == ctx && t.core.isSome

/-- DRAIN_LIMIT: in contexts whose drain limit has passed, every team still resident is saved as soon as it can be; until then its
waves start no clause (R88, R89). -/
def execDrainLimit (s : State) : Host.Outcome State Fault Refusal :=
  if !s.running then .next s
  else .next (s.ctxs.foldl (fun s c =>
    match c.preempt with
    | some p => if p.left ≠ 0 then s else
        (s.resident c.id).foldl (fun s t =>
          match s.launch? t.launch with
          | none => s
          | some l => if s.teamSavable t then s.saveTeam c l t else s.putTeam { t with toSave := true }) s
    | none => s) s)

end Machine

end Sys2Proof
end

