-- ==== Sys2Proof/Machine/EvAdmin.lean ====
section
/-! DEFINITION. The admin queue and its packets (R55, R56), the fault queue and its replies (R57 to R59), PRI and ATS (R43, R44), time
(R61) and the timetable (R62 to R64). -/

namespace Sys2Proof

open Machine

namespace Machine

/-! ### What waits on a fault (R44, R59, R157, R159, R372) -/

/-- Engines, packets and launches that wait on a key try again. -/
def State.retryRest (s : State) (k : Nat) : State :=
  let clr (f : Option Nat) : Option Nat := if f = some k then none else f
  { s with
    teams := s.teams.map fun t => { t with
      cmds := t.cmds.map fun c => { c with fault := clr c.fault }, jobs := t.jobs.map fun j => { j with fault := clr j.fault } }
    cores := s.cores.map fun c => { c with mtx := c.mtx.map fun j => { j with fault := clr j.fault } }
    queues := s.queues.map fun q => { q with
      fault := clr q.fault, pkts := q.pkts.map fun p => { p with fault := clr p.fault } }
    copies := s.copies.map fun c => { c with fault := clr c.fault }
    launches := s.launches.map fun l => { l with fault := clr l.fault } }

/-- The stalls of waves that wait on a key. -/
def State.stallsOn (s : State) (k : Nat) : List (Wave × Stall) :=
  s.waves.flatMap fun w => (w.stalls.filter fun x => x.fault == some k).map fun x => (w, x)

/-- A saved wave's stall keeps a reply until the team resumes (R59). -/
def State.keepReply (s : State) (key : Nat) (x : Stall) (r : Reply) : State :=
  match s.wave? key with
  | some w => s.putWave { w with stalls := w.stalls.map fun y => if y = x then { y with fault := none, reply := some r } else y }
  | none => s

/-- RETRY: every access that waits on the key is tried again (R59, R157). -/
def State.retryKey (s : State) (k : Nat) : State :=
  ((s.stallsOn k).foldl (fun s x =>
    if x.1.place.isNone then s.keepReply x.1.key x.2 .retry else s.retryStall x.1.key x.2) s).retryRest k

/-- A wave's stall becomes its trap (R156, R157). -/
def State.trapStall (s : State) (key : Nat) (x : Stall) : State :=
  match s.wave? key with
  | none => s
  | some w =>
    let w' := { w.stateless with stalls := w.stalls.filter (· != x) }
    let tr := x.trap.getD (badTrap x.op (x.op.accs.map fun q => (q, Flt.page, q.va))).1
    s.raise w' tr

/-- A command whose fault was answered with TRAP: FAULT, but CANCELLED where HCANCEL has stopped it (R159, R304). -/
def Team.stopCmd (t : Team) (c : Cmd) : Team :=
  if c.cancel then t.completeCmd c 2 id else t.completeCmd c 3 (tagFault causePage 0 c.va c.wr)

/-- Engines, packets and launches that wait on a key stop there (R59, R159, R372). -/
def State.stopRest (s : State) (k : Nat) : State :=
  let s : State := { s with
    teams := s.teams.map fun t =>
      let t := (t.cmds.filter fun c => c.fault == some k).foldl Team.stopCmd t
      { t with jobs := t.jobs.map fun j => if j.fault = some k then { j with fault := none, trapped := true } else j }
    cores := s.cores.map fun c => { c with
      mtx := c.mtx.map fun j => if j.fault = some k then { j with fault := none, trapped := true } else j } }
  let s := (s.copies.filter fun c => c.fault == some k).foldl (fun s c => (s.dropCopy c).stopPkt c.queue c.idx) s
  let s := (s.launches.filter fun l => l.fault == some k).foldl (fun s l => s.recordLost l) s
  let s := s.queues.foldl (fun s q =>
    (q.pkts.filter fun p => p.fault == some k).foldl (fun s p => s.stopPkt q.id p.i) s) s
  s.queues.foldl (fun s q => if q.fault = some k then s.queueError { q with fault := none } 7 q.ridx else s) s

/-- TRAP: the waiting lanes trap; engines and packets stop (R59). (DESIGN CHOICE: log 35) -/
def State.trapKey (s : State) (k : Nat) : State :=
  ((s.stallsOn k).foldl (fun s x =>
    if x.1.place.isNone then s.keepReply x.1.key x.2 .trap else s.trapStall x.1.key x.2) s).stopRest k

/-- A team killed: voided, or when it resumes, if it is saved (R59, R87). -/
def State.killTeam (s : State) (t : Team) : State := if t.saved then s.putTeam { t with toKill := true } else s.voidTeam t

/-- KILL: the teams that wait on the key are voided; packets stop as under TRAP (R59, R87, R372). -/
def State.killKey (s : State) (k : Nat) : State :=
  let hit (t : Team) : Bool :=
    (s.waves.any fun w => w.team == t.key && w.stalls.any fun x => x.fault == some k)
    || (t.cmds.any fun c => c.fault == some k) || (t.jobs.any fun j => j.fault == some k)
    || s.cores.any fun c => c.mtx.any fun j => j.fault == some k && (match s.wave? j.wave with | some w => w.team == t.key | none => false)
  ((s.teams.filter hit).foldl State.killTeam s).stopRest k

/-! ### The fault queue (R57) -/

/-- The 64 bytes of a fault record with an index, in a ring of 2^(lg+6) records (R57). -/
def FaultRec.bytes (r : FaultRec) (i size : Nat) : List Byte :=
  le 4 (i % 2 ^ 32) ++ le 1 r.kind ++ bvBytes 1 r.access ++ le 2 r.code ++ le 2 r.ctx ++ le 2 r.queue ++ le 2 r.core ++ le 1 r.wave
  ++ le 1 0 ++ bvBytes 8 r.addr ++ bvBytes 4 r.launchid ++ le 4 r.team ++ le 8 r.tick ++ List.replicate 23 0
  ++ le 1 (if i / size % 2 = 0 then 1 else 0)

/-- Records of the fault queue. -/
def State.fqSize (s : State) : Nat := 2 ^ (s.fqLg + 6)

/-- FAULT_RECORD_WRITE: the record that has waited longest is written (R57). -/
def execFaultRecordWrite (s : State) : Host.Outcome State Fault Refusal :=
  match s.fqHeld with
  | [] => .next s
  | r :: rest =>
    if s.running && s.fqEnable && decide (s.fqTail < s.fqHead.toNat + s.fqSize) then
      let a := (cget s.ctl 0x40).toNat + 64 * (s.fqTail % s.fqSize)
      let s' := s.toHost a (r.bytes s.fqTail s.fqSize)
      let x : OpenFault := { id := s.fqTail % 2 ^ 32, key := r.key, kind := r.kind, core := r.core, ctx := r.ctx, page := pageOf r.addr }
      let s' : State := { s' with
        fqHeld := rest, fqTail := s.fqTail + 1
        fqOpen := if r.kind = 1 ∨ r.kind = 2 ∨ r.kind = 7 then s.fqOpen ++ [x] else s.fqOpen }
      .next (s'.msix a 0)
    else .next s

/-! ### The admin queue (R55, R56) -/

/-- The admin packet at the read index (R42, R56). -/
def State.admBytes (s : State) : List Byte :=
  s.fromHost ((cget s.ctl 0x10).toNat + 64 * (s.admRidx % 2 ^ (s.admLg + 6))) 64

/-- The packet that the admin queue may start: the queue runs and none is in progress. -/
def State.admNext (s : State) : Option (List Byte) :=
  if s.running && s.admEnable && s.adm.isNone && decide (s.admRidx < s.admWidx.toNat) then some s.admBytes else none

/-- A packet completes: its status word, vector 1, the next index (R56, R60). The code of one whose status address is misaligned goes to the
8 bytes that hold it. (DESIGN CHOICE: log 151) -/
def State.admDone (s : State) (b : List Byte) (code : Nat) : State :=
  let a := bnat b 56 8 / 8 * 8
  let s : State := { s.toHost a (le 8 code) with admRidx := s.admRidx + 1, adm := none }
  s.msix a 1

/-- An admin opcode (R49). -/
def admOp (b : List Byte) : Bool := 0x80 ≤ bnat b 0 1 && bnat b 0 1 ≤ 0x8C

/-- The first failing check of an admin packet, in the order of R55, its status address among those of alignment (R56). -/
def admCheck (b : List Byte) (l : List (Bool × Nat)) : Option Nat :=
  match firstBadCheck ((headBad b, 2) :: l) with
  | some c => if bnat b 56 8 % 8 ≠ 0 then some (min c 4) else some c
  | none => if bnat b 56 8 % 8 ≠ 0 then some 4 else none

/-- An admin event: it acts on the packet at the read index when it is one of its own (`mine`, among those of an opcode), after its
checks. A packet whose opcode is no admin packet's fails with BAD_OPCODE, whichever admin event meets it. -/
def adminEvent (op : Nat) (checks : State → List Byte → List (Bool × Nat)) (mine : List Byte → Bool)
    (act : State → List Byte → State) (s : State) : Host.Outcome State Fault Refusal :=
  match s.admNext with
  | none => .next s
  | some b =>
    if !admOp b then .next (s.admDone b 1)
    else if bnat b 0 1 ≠ op then .next s
    else match admCheck b (checks s b) with
      | some code => .next (s.admDone b code)
      | none => if mine b then .next (act s b) else .next s

/-- A packet that completes at once, with no error. -/
def atOnce (f : State → List Byte → State) (s : State) (b : List Byte) : State := (f s b).admDone b 0

/-- The context that bytes 8 to 9 name. (DEDUCED: log 104) -/
def ctxAt (b : List Byte) : Nat := bnat b 8 2

/-- The context exists. -/
def State.hasCtx (s : State) (k : Nat) : Bool := (s.ctx? k).isSome

/-! #### Contexts (R56, R130) -/

/-- Context memory lies in populated device memory (R18 to R20, R129). (DEDUCED: log 103) -/
def State.ctxMemOk (a : Nat) : Bool := localOk a && localOk (a + 0x2801000 - 1)

/-- Checks of CTX_CREATE. A header that lies in a poisoned line gives no data to check (R11). (DESIGN CHOICE: log 158) -/
def ctxCreateChk (s : State) (b : List Byte) : List (Bool × Nat) :=
  let mem := bnat b 16 8
  let ok := State.ctxMemOk mem
  let got := readAt s.poison s.mem mem 4096
  let lost := ok && !got.isOk
  let hd := match got with | .ok hd => hd | .error _ => le 8 0x2801000 ++ List.replicate 4088 0
  let base := bnat hd 0 8
  [(!bzero b 10 2 || bnat b 12 4 / 2 ^ 20 != 0 || bnat b 32 1 / 4 != 0 || !bzero b 33 3 || !bzero b 42 14
      || (ok && !bzero hd 32 4064), 2),
   (1023 < ctxAt b || bnat b 41 1 == 255 || !ok || base < 0x2801000, 3),
   (mem % 4096 != 0 || base % 4096 != 0 || bnat hd 8 8 % 4096 != 0, 4),
   (lost, 7),
   (s.hasCtx (ctxAt b), 10)]

/-- The context of a CTX_CREATE packet (R56, R130). -/
def ctxOf (b hd : List Byte) : Ctx :=
  { id := ctxAt b, pasid := bnat b 12 4, mem := bnat b 16 8, trapImg := BitVec.ofNat 64 (bnat b 24 8)
    trapPolicy := bnat b 32 1 % 2 == 1, checked := bnat b 32 1 / 2 % 2 == 1
    drain := (if bnat b 36 4 = 0 then 100 else bnat b 36 4), q := (if bnat b 40 1 = 0 then 8 else bnat b 40 1)
    p := (if bnat b 41 1 = 0 then 4 else bnat b 41 1), poolbase := bnat hd 0 8, poolsize := bnat hd 8 8 }

/-- CTX_CREATE (R56, R130). -/
def execCtxCreate (s : State) : Host.Outcome State Fault Refusal :=
  adminEvent 0x80 ctxCreateChk (fun _ => true) (atOnce fun s b =>
    let hd := mbytes s.mem (bnat b 16 8) 16
    (s.store none (bnat b 16 8 + 16) (List.replicate 16 0) false).putCtx (ctxOf b hd)) s

/-- CTX_DESTROY (R56). -/
def execCtxDestroy (s : State) : Host.Outcome State Fault Refusal :=
  adminEvent 0x81 (fun s b =>
      [(!bzero b 10 46, 2),
       ((s.queues.any fun q => q.ctx == ctxAt b)
          || (s.timetable.any fun e => match s.queue? e.queue with | some q => q.ctx == ctxAt b | none => false), 10),
       (!s.hasCtx (ctxAt b), 11)])
    (fun _ => true) (atOnce fun s b =>
      { s with ctxs := s.ctxs.filter fun c => c.id != ctxAt b, apertures := s.apertures.filter fun a => a.ctx != ctxAt b }) s

/-! #### Queues (R45, R56) -/

/-- QUEUE_CREATE (R45, R56). -/
def execQueueCreate (s : State) : Host.Outcome State Fault Refusal :=
  adminEvent 0x82 (fun s b =>
      let q := bnat b 8 2
      [(!bzero b 12 4 || !bzero b 35 1 || !bzero b 38 18, 2),
       (q == 0 || 4095 < q || bnat b 32 1 < 6 || 16 < bnat b 32 1 || 6 < bnat b 33 1 || bnat b 34 1 == 0 || bnat b 36 2 == 1
          || 2047 < bnat b 36 2, 3),
       (bnat b 16 8 % 4096 != 0 || bnat b 24 8 % 8 != 0, 4),
       ((s.queue? q).isSome, 10),
       (!s.hasCtx (bnat b 10 2), 11)])
    (fun _ => true) (atOnce fun s b =>
      s.putQueue
        { id := bnat b 8 2, ctx := bnat b 10 2, ring := BitVec.ofNat 64 (bnat b 16 8), wb := BitVec.ofNat 64 (bnat b 24 8)
          n := bnat b 32 1, prio := bnat b 33 1, weight := bnat b 34 1, vec := bnat b 36 2, level := bnat b 33 1 }) s

/-- A queue's started launches discarded (R53, R56). -/
def State.abortLaunches (s : State) (q : Nat) : State :=
  (s.launches.filter fun l => l.queue == q && l.tt.isNone).foldl (fun s l =>
    let s := (s.teams.filter fun t => t.launch == l.key).foldl (fun s t => s.dropTeam t) s
    s.putLaunch { l with aborted := true, hold := false, restarting := false, redo := [] }) s

/-- Work of a queue that has started and not ended. -/
def State.queueBusy (s : State) (q : Nat) : Bool :=
  (s.launches.any fun l => l.queue == q && l.tt.isNone) || s.copies.any fun k => k.queue == q

/-- The queue being destroyed has come to rest (R56). -/
def State.queueGone (s : State) (q : Queue) : Bool :=
  !s.queueBusy q.id && (q.destroy == some true || q.st != .ok && !q.pkts.any (·.started) || q.pkts.isEmpty && q.widx.toNat ≤ q.ridx)

/-- QUEUE_DESTROY (R45, R56): a first step begins it; it completes once the queue has come to rest. (DESIGN CHOICE: log 102) -/
def execQueueDestroy (s : State) : Host.Outcome State Fault Refusal :=
  match s.adm with
  | some b =>
    if !s.running ∨ bnat b 0 1 ≠ 0x83 then .next s
    else match s.queue? (bnat b 8 2) with
      | none => .next (s.admDone b 0)
      | some q => if s.queueGone q then
          .next ({ s with queues := s.queues.filter fun x => x.id != q.id }.admDone b 0)
        else .next s
  | none =>
    adminEvent 0x83 (fun s b =>
        [(bnat b 10 1 / 2 != 0 || !bzero b 11 45, 2), ((s.queue? (bnat b 8 2)).isNone, 11)])
      (fun _ => true) (fun s b =>
        match s.queue? (bnat b 8 2) with
        | none => s
        | some q =>
          let abort := bnat b 10 1 % 2 == 1
          let s : State := { s with adm := some b }
          if abort then
            (s.abortLaunches q.id).putQueue { q with destroy := some true, pkts := q.pkts.filter fun p => p.started && p.op != 4 }
          else s.putQueue { q with destroy := some false }) s

/-! #### Translation (R149 to R154, R162, R163) -/

/-- SET_RANGE (R150). -/
def execSetRange (s : State) : Host.Outcome State Fault Refusal :=
  adminEvent 0x84 (fun s b =>
      [(!bzero b 11 1 || bnat b 12 4 / 64 != 0 || !bzero b 40 16, 2), (15 < bnat b 10 1, 3),
       (bnat b 16 8 % 4096 != 0 || (bnat b 24 8 + 1) % 4096 != 0, 4), (!s.hasCtx (ctxAt b), 11)])
    (fun _ => true) (atOnce fun s b =>
      match s.ctx? (ctxAt b) with
      | none => s
      | some c =>
        let r : Range :=
          { n := bnat b 10 1, base := BitVec.ofNat 64 (bnat b 16 8), limit := BitVec.ofNat 64 (bnat b 24 8)
            offset := BitVec.ofNat 64 (bnat b 32 8), attrs := BitVec.ofNat 32 (bnat b 12 4) }
        (s.dropTlb c.id).putCtx { c with ranges := lput c.ranges (fun x => x.n == r.n) r }) s

/-- SET_PTBASE (R151). -/
def execSetPtbase (s : State) : Host.Outcome State Fault Refusal :=
  adminEvent 0x85 (fun s b =>
      [(!bzero b 10 6 || !bzero b 24 32, 2), (bnat b 16 8 % 4096 != 0, 4), (!s.hasCtx (ctxAt b), 11)])
    (fun _ => true) (atOnce fun s b =>
      match s.ctx? (ctxAt b) with
      | none => s
      | some c => (s.dropTlb c.id).putCtx { c with root := some (bnat b 16 8) }) s

/-- The aperture of a SET_APERTURE packet. -/
def apertureOf (b : List Byte) : Aperture :=
  { n := bnat b 8 1, kind := bnat b 9 1, ctx := bnat b 10 2, param := BitVec.ofNat 32 (bnat b 12 4)
    base := BitVec.ofNat 64 (bnat b 16 8), size := BitVec.ofNat 64 (bnat b 24 8), bufA := BitVec.ofNat 64 (bnat b 32 8)
    bufB := BitVec.ofNat 64 (bnat b 40 8), pitch := BitVec.ofNat 64 (bnat b 48 8) }

/-- Reserved bits of the transform parameters (R163). -/
def paramReserved (kind p : Nat) : Bool :=
  match kind with
  | 1 => p / 4 % 64 != 0
  | 2 => p / 256 != 0
  | 3 => p / 64 != 0
  | _ => p != 0

/-- Fields of an aperture outside their limits, with unused fields that are not zero (R162, R163). -/
def apertureBad (a : Aperture) : Bool :=
  let p := a.param.toNat
  let common := a.base.toNat % 4096 != 0 || a.size = 0 || a.size.toNat % 4096 != 0 || !a.spans.all fun x => rangeOk x.1 x.2
  match a.kind with
  | 0 => false
  | 1 => common || p / 256 == 0 || a.pitch.toNat % 2 ^ (p % 4) != 0 || a.bufB != 0
  | 2 => common || p % 16 == 0 || 5 < p % 16 || p / 16 % 16 == 0 || 5 < p / 16 % 16 || p % 16 == p / 16 % 16 || a.bufB != 0 || a.pitch != 0
  | 3 => common || a.pitch.toNat % 32 != 0
  | 4 => common || a.pitch != 0
  | _ => true

/-- SET_APERTURE (R162, R163); transform 0 unbinds. -/
def execSetAperture (s : State) : Host.Outcome State Fault Refusal :=
  adminEvent 0x86 (fun s b =>
      let a := apertureOf b
      [(a.kind ≤ 4 && a.kind != 0 && paramReserved a.kind a.param.toNat, 2), (31 < a.n || apertureBad a, 3),
       (!s.hasCtx a.ctx, 11)])
    (fun _ => true) (atOnce fun s b =>
      let a := apertureOf b
      let rest := s.apertures.filter fun x => x.n != a.n
      { s.dropTlb a.ctx with apertures := if a.kind = 0 then rest else rest ++ [a] }) s

/-! #### Pre-emption (R88, R92) -/

/-- Checks of PREEMPT. -/
def preemptChk (s : State) (b : List Byte) : List (Bool × Nat) :=
  [(bnat b 10 1 / 4 != 0 || !bzero b 11 45, 2), (!s.hasCtx (ctxAt b), 11)]

/-- PREEMPT: placement for the context stops, and its drain limit runs (R88). -/
def execPreempt (s : State) : Host.Outcome State Fault Refusal :=
  adminEvent 0x87 preemptChk (fun b => bnat b 10 1 % 2 == 0) (fun s b =>
    match s.ctx? (ctxAt b) with
    | none => s
    | some c =>
      if c.stopped then s.admDone b 0
      else
        let force := bnat b 10 1 / 2 % 2 == 1
        { s with adm := some b }.putCtx { c with
          stopped := true, preempt := some { left := if force then 0 else c.drain * Config.ticksPerUs, forced := force } }) s

/-- PREEMPT with resume: placement for the context goes on (R92). -/
def execPreemptResume (s : State) : Host.Outcome State Fault Refusal :=
  adminEvent 0x87 preemptChk (fun b => bnat b 10 1 % 2 == 1) (atOnce fun s b =>
    match s.ctx? (ctxAt b) with
    | none => s
    | some c => s.putCtx { c with stopped := false, preempt := none }) s

/-- PREEMPT_DRAINED: no team of the context is resident; the status word is written (R88). -/
def execPreemptDrained (s : State) : Host.Outcome State Fault Refusal :=
  match s.adm with
  | none => .next s
  | some b =>
    if !s.running ∨ bnat b 0 1 ≠ 0x87 ∨ (s.resident (ctxAt b)) ≠ [] then .next s
    else
      let s := match s.ctx? (ctxAt b) with
        | some c => s.putCtx { c with preempt := none }
        | none => s
      .next (s.admDone b 0)

/-! #### Time (R61) -/

/-- The first slot time of an entry at or after a time (R62, R63). -/
def TtEntry.slotFrom (e : TtEntry) (now : Nat) : Nat :=
  if now ≤ e.phase then e.phase else e.phase + (now - e.phase + e.period - 1) / e.period * e.period

/-- The clock stepped to a time in ns: each entry's next slot is the first at or after it (R63). -/
def State.setClock (s : State) (tai : Nat) : State :=
  { s with tai, timetable := s.timetable.map fun e => { e with next := e.slotFrom (tai / 2 ^ 32) } }

/-- Checks of TIME_ADJUST. -/
def timeChk (_ : State) (b : List Byte) : List (Bool × Nat) := [(!bzero b 9 7 || !bzero b 24 32, 2), (3 < bnat b 8 1, 3)]

/-- The value of a TIME_ADJUST packet. -/
def timeValue (b : List Byte) : DWord := BitVec.ofNat 64 (bnat b 16 8)

/-- SET: the counter takes the value, with fraction 0 (R61). (DESIGN CHOICE: log 149) -/
def execTimeSet (s : State) : Host.Outcome State Fault Refusal :=
  adminEvent 0x89 timeChk (fun b => bnat b 8 1 == 0) (atOnce fun s b => s.setClock ((timeValue b).toNat * 2 ^ 32)) s

/-- OFFSET: the value is added to the counter (R61). -/
def execTimeOffset (s : State) : Host.Outcome State Fault Refusal :=
  adminEvent 0x89 timeChk (fun b => bnat b 8 1 == 1)
    (atOnce fun s b => s.setClock ((s.taiNs + timeValue b).toNat * 2 ^ 32 + s.tai % 2 ^ 32)) s

/-- ±500 ppm in units of 2^-16 ppb (R61). -/
def rateMax : Int := 500000 * 65536

/-- RATE: the frequency offset, clamped (R61). -/
def execTimeRate (s : State) : Host.Outcome State Fault Refusal :=
  adminEvent 0x89 timeChk (fun b => bnat b 8 1 == 2)
    (atOnce fun s b => { s with taiRate := BitVec.ofInt 64 (max (-rateMax) (min rateMax (timeValue b).toInt)) }) s

/-- SET_AT_PPS: it waits for the next accepted edge (R61), which sets the fraction to 0 as SET does. (DESIGN CHOICE: log 149) -/
def execSetAtPps (s : State) : Host.Outcome State Fault Refusal :=
  adminEvent 0x89 timeChk (fun b => bnat b 8 1 == 3)
    (fun s b => { s with adm := some b, ppsSet := some (timeValue b, bnat b 56 8) }) s

/-- Ticks in 500 ms (R61). -/
def ppsGap : Nat := 500000 * Config.ticksPerUs

/-- PPS_EDGE: an edge that comes late enough is accepted; a SET_AT_PPS that waits takes effect at it, and tick and time are latched
(R61). (DESIGN CHOICE: log 106) -/
def execPpsEdge (s : State) : Host.Outcome State Fault Refusal :=
  if !s.ready || s.dead || (match s.ppsLast with | some t => decide (s.tick < t + ppsGap) | none => false) then .next s
  else
    let s := match s.ppsSet, s.adm with
      | some (v, _), some b => ({ s.setClock (v.toNat * 2 ^ 32) with ppsSet := none }).admDone b 0
      | _, _ => s
    .next { s with ppsLast := some s.tick, ppsTick := BitVec.ofNat 64 s.tick, ppsTai := s.taiNs }

/-! #### The timetable (R62 to R64) -/

/-- TIMETABLE_SET (R62); policy 0 disables the entry. (DEDUCED: log 105) -/
def execTimetableSet (s : State) : Host.Outcome State Fault Refusal :=
  adminEvent 0x88 (fun s b =>
      let on := bnat b 9 1 != 0
      [(!bzero b 12 4 || !bzero b 40 16, 2), (2 < bnat b 9 1 || (on && bnat b 16 8 < 10000), 3), (on && bnat b 32 8 % 64 != 0, 4),
       (on && (s.queue? (bnat b 10 2)).isNone, 11)])
    (fun _ => true) (atOnce fun s b =>
      let n := bnat b 8 1
      let rest := s.timetable.filter fun e => e.n != n
      let e : TtEntry :=
        { n, policy := bnat b 9 1, queue := bnat b 10 2, period := bnat b 16 8, phase := bnat b 24 8, pkt := bnat b 32 8 }
      { s with timetable := if e.policy = 0 then rest else rest ++ [{ e with next := e.slotFrom s.taiNs.toNat }] }) s

/-- A saturating counter one up. -/
def bump (c : Cells 64) (n : Nat) : Cells 64 := cset c n (if cget c n = ones64 then ones64 else cget c n + 1)

/-- An entry's launch started, a deferred one or not: its packet is read and checked; one that fails disables the entry, with a record
whose address is the packet's (R57, R62). (DESIGN CHOICE: log 161) -/
def State.fire (s : State) (e : TtEntry) (slot : Nat) (late : Bool) : State :=
  let drop (s : State) (code ctx : Nat) : State :=
    let (k, s) := s.newKey
    { s with timetable := s.timetable.filter fun x => x.n != e.n }.report
      { key := k, kind := 8, access := 0x30, code, ctx, queue := e.queue, addr := BitVec.ofNat 64 e.pkt }
  match s.queue? e.queue with
  | none => drop s 11 0
  | some q =>
    match (match s.phys e.pkt with
      | some a => if localOk a then readAt s.poison s.mem a 64 else .error .prot
      | none => .error .prot) with
    | .error _ => drop s 7 q.ctx
    | .ok b =>
      match (if bnat b 0 1 = 1 then s.launchBad b else some 1) with
      | some code => drop s code q.ctx
      | none =>
        let s := s.addLaunch q.ctx q.id 0 (some e.n) slot b
        { s with
          fires := bump s.fires e.n
          timetable := s.timetable.map fun x => if x.n == e.n then { x with pending := none, late } else x }

/-- The entry's previous launch has not completed. -/
def State.overrun (s : State) (e : TtEntry) : Bool := s.launches.any fun l => l.tt == some e.n

/-- Timetable slots that have passed while the package is gated count as skipped (R202). -/
def State.skipSlots (s : State) : State :=
  let now := s.taiNs.toNat
  s.timetable.foldl (fun s e =>
    if e.next ≤ now then
      let k := (now - e.next) / e.period + 1
      { s with
        skips := cset s.skips e.n (BitVec.ofNat 64 (min ((cget s.skips e.n).toNat + k) (2 ^ 64 - 1)))
        timetable := s.timetable.map fun x => if x.n == e.n then { x with next := e.next + k * e.period } else x }
    else s) s

/-- TIMETABLE_SLOT: an entry whose slot time has come starts its launch, or by its policy skips or defers it; a slot that meets a deferred
launch still running counts as skipped (R62, R63). (DEDUCED: log 148) -/
def execTimetableSlot (s : State) : Host.Outcome State Fault Refusal :=
  let now := s.taiNs.toNat
  match s.timetable.find? fun e => e.next ≤ now with
  | none => .next s
  | some e =>
    if !s.running then .next (if s.ready && s.gated then s.skipSlots else s)
    else
      let slot := e.next
      let after := { e with next := e.slotFrom (now + 1) }
      let put (s : State) (x : TtEntry) : State := { s with timetable := s.timetable.map fun y => if y.n == x.n then x else y }
      if s.overrun e ∨ e.pending.isSome then
        if e.policy = 2 ∧ e.pending.isNone ∧ !e.late then .next (put s { after with pending := some slot })
        else .next { put s after with skips := bump s.skips e.n }
      else .next ((put s after).fire after slot false)

/-- TIMETABLE_DEFERRED_START (R63). -/
def execTimetableDeferredStart (s : State) : Host.Outcome State Fault Refusal :=
  match s.timetable.find? fun e => e.pending.isSome && !s.overrun e with
  | none => .next s
  | some e => if s.running then .next (s.fire e (e.pending.getD 0) true) else .next s

/-! #### Caches, trace, replies (R56, R59, R206, R213) -/

/-- The scope of an ICINV_BROADCAST and the units of it. -/
def icScope : Nat → IScope × Nat × Nat
  | 0 => (.core, 640, 1)
  | 1 => (.quad, 160, 4)
  | 2 => (.die, 4, 160)
  | _ => (.pkg, 2 ^ 32, 0)

/-- ICINV_BROADCAST (R56, R206, R107). (DEDUCED: log 108) -/
def execIcinvBroadcast (s : State) : Host.Outcome State Fault Refusal :=
  adminEvent 0x8A (fun _ b =>
      [(!bzero b 9 3 || !bzero b 16 40, 2), (3 < bnat b 8 1 || (icScope (bnat b 8 1)).2.1 ≤ bnat b 12 4, 3)])
    (fun _ => true) (atOnce fun s b =>
      let x := icScope (bnat b 8 1)
      s.icinv x.1 (bnat b 12 4 * x.2.2)) s

/-- TRACE_CONFIG (R213). (DEDUCED: log 107) -/
def execTraceConfig (s : State) : Host.Outcome State Fault Refusal :=
  adminEvent 0x8B (fun _ b =>
      let m := bnat b 24 8
      let size := bnat b 16 8
      [(!bzero b 32 24 || m / 2 ^ 49 != 0 || m / 2 ^ 42 % 64 != 0 || m / 2 ^ 13 % 8 != 0 || m / 64 % 4 != 0, 2),
       (bnat b 8 8 % 4096 != 0 || size % 4096 != 0 || size < 0x10000 || 0x40000000 < size || m / 256 % 32 < 6 || 20 < m / 256 % 32, 3)])
    (fun _ => true) (atOnce fun s b =>
      { s with
        trAddr := bnat b 8 8, trSize := bnat b 16 8, trMask := BitVec.ofNat 64 (bnat b 24 8), trTail := 0, trHead := 0, trSrcs := []
        bins := [], histLast := s.tick, flushLast := s.tick }) s

/-- Checks of FAULT_REPLY: a reply to a record that does not wait, or to the wrong core, finds nothing (R59). -/
def replyChk (s : State) (b : List Byte) : List (Bool × Nat) :=
  [(!bzero b 13 1 || !bzero b 16 40, 2), (3 < bnat b 12 1, 3),
   (match s.fqOpen.find? fun x => x.id == bnat b 8 4 with
    | none => true
    | some x => if bnat b 12 1 = 3 then !(x.kind == 7 && x.core == bnat b 14 2) else x.kind == 7 || !s.waitsOn x.key, 11)]

/-- A reply: the record is answered, and the action applies to its key; of two open records with one id the older is meant.
(DESIGN CHOICE: log 150) -/
def State.reply (s : State) (b : List Byte) (act : State → OpenFault → State) : State :=
  match s.fqOpen.find? fun x => x.id == bnat b 8 4 with
  | none => s
  | some x => act { s with fqOpen := s.fqOpen.filter fun y => y.key != x.key } x

/-- RETRY (R59). -/
def execRetry (s : State) : Host.Outcome State Fault Refusal :=
  adminEvent 0x8C replyChk (fun b => bnat b 12 1 == 0) (atOnce fun s b => s.reply b fun s x => s.retryKey x.key) s

/-- TRAP (R59). -/
def execFaultReplyTrap (s : State) : Host.Outcome State Fault Refusal :=
  adminEvent 0x8C replyChk (fun b => bnat b 12 1 == 1) (atOnce fun s b => s.reply b fun s x => s.trapKey x.key) s

/-- KILL (R59). -/
def execKill (s : State) : Host.Outcome State Fault Refusal :=
  adminEvent 0x8C replyChk (fun b => bnat b 12 1 == 2) (atOnce fun s b => s.reply b fun s x => s.killKey x.key) s

/-- RELEASE_CORE (R25, R59). -/
def execReleaseCore (s : State) : Host.Outcome State Fault Refusal :=
  adminEvent 0x8C replyChk (fun b => bnat b 12 1 == 3)
    (atOnce fun s b => s.reply b fun s x => s.putCore { s.core x.core with held := none }) s

/-! ### ATS and PRI (R43, R44) -/

/-- Translations that the host now answers with, in the place of its earlier ones for those pages. -/
def State.grant (s : State) (gs : List AtsEntry) : State :=
  { s with iommu := gs.foldl (fun l g => lput l (fun x => x.pasid == g.pasid && x.page == g.page) g) s.iommu }

/-- ATS_INVALIDATE: the translations of the range are gone, and the completion is sent; every access has been performed by then
(R43). -/
def execAtsInvalidate (fn : Fin 2) (pasid page pages : Nat) (grants : List AtsEntry) (s : State) :
    Host.Outcome State Fault Refusal :=
  if !s.ready || s.dead then .next s
  else
    let s : State := { s with
      iommu := s.iommu.filter fun e => !(e.pasid == pasid && decide (page ≤ e.page ∧ e.page < page + pages)) }
    .next ((s.grant grants).out (.invalidateDone fn.val pasid page))

/-- The wave that stands for the first that waits on a key. -/
def State.waiter? (s : State) (k : Nat) : Option Wave :=
  match s.stallsOn k with
  | (w, _) :: _ => some w
  | [] => match (s.cores.flatMap (·.mtx) ++ s.teams.flatMap (·.jobs)).find? fun j => j.fault == some k with
    | some j => s.wave? j.wave
    | none => s.teams.findSome? fun t => (t.cmds.find? fun c => c.fault == some k).bind (s.cmdWave t)

/-- The fault record of a host page that the host refuses: the address and access of the first that waited, and who waits now (R44, R57).
(DEDUCED: log 112) -/
def State.hostRecord (s : State) (p : PriReq) : FaultRec :=
  match s.waiter? p.key with
  | some w => { FaultRec.ofWave s w 2 p.rec_.access.toNat 0 p.rec_.addr with key := p.key }
  | none => p.rec_

/-- A page request that waited for the host's allocation is sent (R44). -/
def State.sendRequest (s : State) : State :=
  match s.pri.find? fun p => !p.sent with
  | none => s
  | some p =>
    if !s.mayRequest then s
    else
      let s : State := { s with pri := lput s.pri (fun x => x.key == p.key) { p with sent := true } }
      match s.ctx? p.ctx with
      | some c => s.out (.pageRequest c.pasid p.page)
      | none => s

/-- PRI_RESPONSE (R44); one that comes while the package is gated is held (R202). -/
def execPriResponse (ctx page : Nat) (code : PriCode) (grants : List AtsEntry) (s : State) : Host.Outcome State Fault Refusal :=
  match s.pri.find? fun p => p.ctx == ctx && p.page == page && p.sent with
  | none => .next s
  | some p =>
    if !s.running then .next (s.holdEvent (.priResponse ctx page code grants))
    else
      let s := { s with pri := s.pri.filter fun x => !(x.ctx == ctx && x.page == page) }.sendRequest
      match code, s.ctx? ctx with
      | .success, _ => .next ((s.grant grants).retryKey p.key)
      | _, some c =>
        if c.trapPolicy then .next (s.trapKey p.key)
        else if s.waitsOn p.key then .next (s.report (s.hostRecord p)) else .next s
      | _, none => .next s

end Machine

end Sys2Proof
end

