-- ==== Sys2Proof/Machine/EvDebug.lean ====
section
/-! DEFINITION. The registers of the control region (R4, R5, R34 to R38, R42, R64, R201, R204, R207, R210, R211, R213), doorbell reads
(R46), the Shutter and its scan stream (R201 to R203), quad stops and single steps (R209 to R212), histograms (R215). -/

namespace Sys2Proof

open Machine

namespace Machine

/-! ### Stall reasons (R212, R214) -/

/-- A wave's quad is stopped and the wave does not step. -/
def State.frozen (s : State) (w : Wave) : Bool := (s.quad (quadOf w.coreNo)).stopped && w.stepping.isNone

/-- Waves that a wait needs something of. -/
def State.partners (s : State) (e : WEnv) : Wait → List Wave
  | .bar sc =>
    let unit := match sc with
      | .core => e.t.key
      | .quad => quadOf e.w.coreNo
      | .die => dieOf e.w.coreNo
      | _ => 0
    (s.wavesOf (s.barTeams sc e.l unit)).filter fun x => x.key != e.w.key && !s.hasArrived sc x
  | .latch => match (e.t.latch e.w.pair).owner with
    | some k => s.waves.filter fun x => x.key == k && k != e.w.key
    | none => []
  | .tkwait | .tkrel =>
    s.wavesOf (s.teams.filter fun t => t.launch == e.l.key && decide (t.tix < e.t.tix) && !t.ended && !e.l.released.contains t.tix)
  | .handle _ | .tagAny _ | .tagAll _ | .mask _ => []

/-- The reason code of a wait (R214). -/
def Wait.reason : Wait → Nat
  | .handle _ => 1 | .mask _ => 1 | .tagAny _ => 2 | .tagAll _ => 2 | .bar _ => 3 | .latch => 5 | .tkwait => 12 | .tkrel => 12

/-- The vote of a wave finds its state in the core's state cache (R107). -/
def State.voteHits (s : State) (e : WEnv) : Bool :=
  match e.w.frag? with
  | none => true
  | some f => s.inCache e.c.id e.w.coreNo e.w.img (blocksOf e.w.regs.nblk f.mask)

/-- The stall reason of a wave (R214): BARRIER_FROZEN when a partner of its wait is frozen (R212), STATE_MISS while a state is looked up or a
spilled entry comes back (R107, R114). (DESIGN CHOICE: log 119) -/
def State.stallReason (s : State) (e : WEnv) : Nat :=
  let of (x : Wait) : Nat :=
    if (s.partners e x).any fun p => p.place.isSome && s.frozen p then 4 else x.reason
  if e.w.reason = 7 then 7
  else if e.w.idle then
    match e.w.frags.findSome? fun f => f.blocked with
    | some x => of x
    | none => if e.w.frags.any (·.parked) then 8 else e.w.reason
  else if (e.w.stage = .ready ∨ e.w.stage = .inside) ∧ e.w.stalls = [] then 0
  else if e.w.stage = .vote ∧ e.w.stalls = [] then (if s.voteHits e then 0 else 7)
  else if e.w.reason = 12 then of .tkwait
  else if e.w.reason = 3 then
    match e.w.bars.find? fun b => b.arr != 0 with
    | some b => of (.bar b.scope)
    | none => 3
  else e.w.reason

/-! ### Reading registers (R5, R42) -/

/-- A field at a bit. -/
def fieldAt (n at_ : Nat) : DWord := BitVec.ofNat 64 (n * 2 ^ at_)

/-- One bit. -/
def flagAt (b : Bool) (at_ : Nat) : DWord := if b then fieldAt 1 at_ else 0

/-- CAPS (R42). -/
def State.caps (s : State) : DWord :=
  fieldAt 1 56 ||| fieldAt s.diesok.toNat 44 ||| fieldAt 12 20 ||| fieldAt 10 16 ||| flagAt Config.cxl 1 ||| flagAt s.ready 0

/-- XLSTAT of a link (R36). -/
def XLink.stat (l : XLink) : DWord :=
  let n := popcount l.lanemap
  fieldAt l.retries 32 ||| fieldAt l.repairs 24 ||| fieldAt l.lanemap.toNat 16 ||| fieldAt n 4 ||| flagAt l.down 3
  ||| flagAt (n == 6 || n == 7) 2 ||| flagAt l.up 0

/-- QSTAT of a quad (R210). -/
def Quad.stat (q : Quad) : DWord :=
  fieldAt q.missed 32 ||| fieldAt q.path 11 ||| fieldAt q.slot 7 ||| fieldAt q.pos 5 ||| fieldAt q.num 3 ||| fieldAt q.kind 1
  ||| flagAt q.stopped 0

/-- Image offset of a wave's next instruction (R210). -/
def Wave.nextOff (w : Wave) : Nat :=
  match w.clause with
  | some c => posOff c.off c.count w.pos
  | none => match w.frag? with
    | some f => (match f.held with | some c => posOff c.off c.count (c.count - 1) | none => f.cp + 8)
    | none => 0

/-- WSTAT of a slot of a core (R210). -/
def State.wstat (s : State) (core slot : Nat) : DWord :=
  match s.waves.find? fun w => w.place == some (16 * core + slot) with
  | none => 0
  | some w =>
    let reason := match s.wenv? w.key with | some e => s.stallReason e | none => 0
    fieldAt w.nextOff 32 ||| fieldAt reason 12 ||| flagAt w.stepBlocked 11 ||| flagAt w.stepping.isSome 10
    ||| flagAt (s.frozen w) 9 ||| fieldAt w.skid 0

/-- DSTEP (R211). -/
def Core.dstep (k : Core) : DWord := flagAt k.stepDone 7 ||| flagAt k.stepMode 4 ||| fieldAt k.stepSlot 0

/-- A register of the host block (R42, R213), read through a link. -/
def State.readHost (s : State) (link : Fin 2) (off : Nat) : DWord :=
  match off with
  | 0x008 => flagAt (if link.val = 0 then s.paired0 else s.paired1) 63 ||| fieldAt link.val 32 ||| zext64 Config.pkgtag
  | 0x018 => flagAt s.admEnable 4 ||| fieldAt s.admLg 0
  | 0x020 => s.admWidx
  | 0x028 => BitVec.ofNat 64 s.admRidx
  | 0x048 => flagAt s.fqEnable 4 ||| fieldAt s.fqLg 0
  | 0x050 => BitVec.ofNat 64 s.fqTail
  | 0x058 => s.fqHead
  | 0x060 => BitVec.ofNat 64 (s.fqHeld.length % 2 ^ 32)
  | 0x080 => BitVec.ofNat 64 s.tick
  | 0x088 => s.taiNs
  | 0x090 => s.ppsTick
  | 0x098 => s.ppsTai
  | 0x0A0 => s.taiRate
  | 0x0C0 => BitVec.ofNat 64 s.trTail
  | 0x0C8 => s.trHead
  | 0x0D0 => zext64 s.trStat
  | _ => cget s.ctl off

/-- A debug register (R201, R204, R207, R210, R211). -/
def State.readDebug (s : State) (off : Nat) : DWord :=
  if off = 0x20_0000 then s.shutTick
  else if off = 0x20_0008 then flagAt s.gated 2 ||| flagAt s.shutArm 0
  else if off = 0x20_0010 then BitVec.ofNat 64 s.stream.length
  else if off = 0x20_0018 then BitVec.ofNat 64 (leNat (s.stream.take 8))
  else if 0x21_0000 ≤ off ∧ off < 0x21_0000 + 0x100 * 640 then
    let c := (off - 0x21_0000) / 0x100
    let r := (off - 0x21_0000) % 0x100
    if r = 0x40 then (s.core c).dstep
    else if 0x80 ≤ r then s.wstat c ((r - 0x80) / 8)
    else cget s.ctl off
  else
    let g := (off - 0x24_0000) / 0x100
    let r := (off - 0x24_0000) % 0x100
    let q := s.quad g
    if r = 0x80 then q.stat
    else if r = 0x88 then BitVec.ofNat 64 q.tick
    else if r = 0x90 then q.addr
    else if r < 0x80 ∧ r % 0x20 = 0x18 then BitVec.ofNat 64 (lget q.hits (r / 0x20) 0)
    else cget s.ctl off

/-- A register of BAR0 as a read returns it (R5, R42): before ready only CAPS is not 0 (R65). -/
def State.readReg (s : State) (link : Fin 2) (off : Nat) : DWord :=
  if off = 0 then s.caps
  else if !s.ready then 0
  else if off < 0x1000 then s.readHost link off
  else if off < 0x2000 then
    (if off % 16 = 0 then cget s.fires ((off - 0x1000) / 16) else if off % 16 = 8 then cget s.skips ((off - 0x1000) / 16) else 0)
  else if off = 0x10_0000 then flagAt s.podidSet 31 ||| fieldAt s.podid 0
  else if off = 0x10_0008 then BitVec.ofNat 64 s.peerTo
  else if 0x10_1000 ≤ off ∧ off < 0x10_1000 + 0x40 * 12 then
    (if off % 0x40 = 0 then (s.link ((off - 0x10_1000) / 0x40)).stat else 0)
  else if 0x20_0000 ≤ off then s.readDebug off
  else cget s.ctl off

/-- Bits [1:0] of a doorbell page's status (R46). -/
def Queue.state (q : Queue) : Nat :=
  match q.st with
  | .error _ => 2
  | .ok => if q.ridx < q.widx.toNat ∨ q.pkts ≠ [] then 1 else 0

/-- A doorbell page as a read returns it (R45, R46). -/
def State.readDoor (s : State) (q off : Nat) : DWord :=
  if q = 0 then 0
  else match s.queue? q with
    | none => if off = 0x10 then 3 else 0
    | some x => match off with
      | 0x00 => x.widx
      | 0x08 => BitVec.ofNat 64 x.ridx
      | 0x10 => fieldAt (match x.st with | .error c => c | .ok => 0) 16 ||| fieldAt x.state 0
      | _ => 0

/-! ### Register writes with an effect of their own (R34, R36, R37, R40, R42, R57, R64) -/

/-- Registers take writes once ready is 1 (R65). (DESIGN CHOICE: log 8, 109) -/
def State.regs (s : State) : Bool := s.ready && !s.dead

/-- ADMQ_WIDX (R42). -/
def execAdmqWidx (v : DWord) (s : State) : Host.Outcome State Fault Refusal :=
  .next (if s.regs then { s with admWidx := v } else s)

/-- LINKPAIR_PAIRED: the one register that the driver may write before ready is 1 (R40, R65). -/
def execLinkpairPaired (link : Fin 2) (v : Bool) (s : State) : Host.Outcome State Fault Refusal :=
  .next (if s.dead then s else if link.val = 0 then { s with paired0 := v } else { s with paired1 := v })

/-- FQ_ENABLE: a write of FQ_CTL; enable from 0 to 1 zeroes the indices (R57). -/
def execFqEnable (v : DWord) (s : State) : Host.Outcome State Fault Refusal :=
  let on := v.getLsbD 4
  let s' := { s with fqEnable := on, fqLg := (v.extractLsb' 0 4).toNat }
  .next (if !s.regs then s else if on && !s.fqEnable then { s' with fqTail := 0, fqHead := 0 } else s')

/-- PODID_WRITE (R34). -/
def execPodidWrite (v : Word) (s : State) : Host.Outcome State Fault Refusal :=
  .next (if s.regs && !s.podidSet then { s with podid := (v.extractLsb' 0 10).toNat, podidSet := true } else s)

/-- XPEERTO_WRITE (R37): the whole value written is clamped, its reserved bits among it. (DESIGN CHOICE: log 152) -/
def execXpeertoWrite (v : DWord) (s : State) : Host.Outcome State Fault Refusal :=
  .next (if s.regs then { s with peerTo := max 100 (min 1000000 v.toNat) } else s)

/-- XLSTAT_CLRCNT (R36). -/
def execXlstatClrcnt (link : Fin 12) (s : State) : Host.Outcome State Fault Refusal :=
  .next (if s.regs then s.putLink { s.link link.val with n := link.val, retries := 0, repairs := 0 } else s)

/-- TIMETABLE_SKIPS_CLEAR: each bit written as 1 is cleared (R5, R64). -/
def execTimetableSkipsClear (n : Fin 256) (v : DWord) (s : State) : Host.Outcome State Fault Refusal :=
  .next (if s.regs then { s with skips := cset s.skips n.val (cget s.skips n.val &&& ~~~v) } else s)

/-! ### The scan stream (R203) -/

/-- A section of the stream: its header and body. -/
def section_ (kind unit : Nat) (body : List Byte) : List Byte := le 2 kind ++ le 2 unit ++ le 4 body.length ++ le 8 0 ++ body

/-- Lanes of registers, register by register. -/
def rowBytes (v : Cells 32) (lo n : Nat) : List Byte := (List.range (64 * n)).flatMap fun i => bvBytes 4 (cget v (64 * lo + i))

/-- Cells as bytes. -/
def cellBytes {w : Nat} (c : Cells w) (lo n size : Nat) : List Byte := (List.range n).flatMap fun i => bvBytes size (cget c (lo + i))

/-- Free bytes. -/
def freeBytes (draw n : Nat) : List Byte := (List.range n).map fun i => Config.scanByte (draw + i)

/-- Registers 240 to 255 of a wave at 8 bytes each; those that differ by lane are free (R122, R203). -/
def specials (w : Wave) (t : Team) (r : Regs) (draw : Nat) : List Byte :=
  le 8 0 ++ freeBytes draw 8 ++ le 8 w.wid ++ le 8 t.tix ++ freeBytes (draw + 8) 16 ++ bvBytes 8 r.exm ++ bvBytes 8 t.tags
  ++ bvBytes 8 r.amax ++ bvBytes 8 r.mvc ++ bvBytes 8 r.mrp ++ bvBytes 8 r.fml ++ bvBytes 8 r.fflags ++ le 8 0 ++ le 8 0 ++ le 8 0

/-- The frame that trap entry would write for a wave, with cause 0 (R203). -/
def Wave.scanTrap (w : Wave) : Trap :=
  let fin := w.clause.isSome && w.count ≤ w.pos
  { cause := 0, pos := w.pos, header := w.clause.isNone || fin, atEnd := fin }

/-- Section of kind 1: a wave, its area as trap entry would write it, with its pending effects due (R132, R203). -/
def State.scanWave (s : State) (e : WEnv) (draw : Nat) : List Byte :=
  let w := e.w
  let r := w.regsAt w.pos
  let w' := (s.flush w).2
  let checked := e.c.checked || (match w.clause with | some k => k.k | none => false)
  section_ 1 (w.place.getD 0)
    (rowBytes r.v 0 64 ++ cellBytes (w := 4) r.vt 0 64 1 ++ cellBytes r.s 0 64 8 ++ cellBytes r.m 0 8 8 ++ cellBytes r.g 0 8 32
      ++ cellBytes r.h 0 16 4 ++ specials w e.t r draw ++ w'.areaBytes w.scanTrap checked s.tick
      ++ mbytes s.mem (s.areaOf w + 0x600) 0xA00 ++ bvBytes 8 r.srseed ++ bvBytes 8 r.srctr)

/-- The team that holds a core's latch. -/
def State.latchTeam (s : State) (core j : Nat) : Option (Team × Nat) :=
  (s.teams.filter fun t => t.core == some core && t.latches != []).findSome? fun t =>
    (t.slots.findIdx? fun x => x == 2 * j).map fun i => (t, i / 2)

/-- Section of kind 2: a latch pair's registers and its owner. -/
def State.scanLatch (s : State) (core j draw : Nat) : List Byte :=
  section_ 2 (8 * core + j) (match s.latchTeam core j with
    | none => freeBytes draw (64 * 256 + 64) ++ [0xFF]
    | some (t, i) =>
      let x := t.latch i
      match x.owner.bind fun k => s.wave? k with
      | some w =>
        let r := w.regsAt w.pos
        rowBytes r.v 64 64 ++ cellBytes (w := 4) r.vt 64 64 1 ++ le 1 w.slotNo
      | none => rowBytes x.v 64 64 ++ cellBytes (w := 4) x.vt 64 64 1 ++ [0xFF])

/-- Section of kind 3: a team. -/
def State.scanTeam (s : State) (t : Team) (l : Launch) : List Byte :=
  section_ 3 (16 * t.core.getD 0 + lowest t.slots 15)
    (cellBytes t.w 0 16 8 ++ bvBytes 8 t.tags ++ le 8 t.lg ++ cellBytes t.tab 0 (roundUp4K l.p.spbytes / 4096) 8
      ++ t.tiles.flatMap fun x => cellBytes x.cells 0 4096 4)

/-- Section of kind 5: a core's codebook banks, its teams' first, in the order of their slots. -/
def State.scanBanks (s : State) (core draw : Nat) : List Byte :=
  let ts := s.teams.filter fun t => t.core == some core
  let bs := ((List.range 16).flatMap fun k => ts.filter fun t => lowest t.slots 16 == k).flatMap (·.banks)
  let one (b : Bank) : List Byte :=
    cellBytes b.entries 0 512 8 ++ [b.e.setWidth 8, if b.zero then 1 else 0, if b.sticky then 1 else 0]
  section_ 5 core ((bs.take 8).flatMap one ++ freeBytes draw ((8 - bs.length) * 4099))

/-- Section of kind 6: modified lines of a die cache. -/
def State.scanDirty (s : State) (die draw : Nat) : List Byte :=
  section_ 6 die (((Config.dirtyLines draw).filter fun k => localOk (128 * k)).flatMap fun k => le 8 (128 * k) ++ mbytes s.mem (128 * k) 128)

/-- The sections that follow the first, in the order of kind and unit (R203). (DESIGN CHOICE: log 115) -/
def State.sections (s : State) : List (List Byte) :=
  let d := s.nondet
  (((List.range 10240).filterMap fun p => s.waves.find? fun w => w.place == some p).zipIdx.filterMap fun x =>
      (s.wenv? x.1.key).map fun e => s.scanWave e (d + 24 * x.2))
  ++ ((List.range 5120).map fun k => s.scanLatch (k / 8) (k % 8) (d + 20000 * k))
  ++ ((List.range 640).flatMap fun c => (s.teams.filter fun t => t.core == some c).filterMap fun t =>
      (s.launch? t.launch).map fun l => s.scanTeam t l)
  ++ ((List.range 640).map fun c => section_ 4 c (mbytes s.mem (spAddr c 0) Config.spBytes))
  ++ ((List.range 640).map fun c => s.scanBanks c (d + 40000 * c))
  ++ ((List.range 4).map fun k => s.scanDirty k (d + k))
  ++ ((List.range 4).map fun k => section_ 7 k (Config.implState (d + k)))

/-- The scan stream: T and the number of sections come first (R203). -/
def State.scan (s : State) : List Byte :=
  let l := s.sections
  section_ 0 0 (bvBytes 8 s.shutTick ++ le 4 (l.length + 1) ++ le 4 0) ++ l.flatten

/-! ### The Shutter (R201 to R203) -/

/-- The gating tick has come (R202). (DESIGN CHOICE: log 3, 113) -/
def State.gateDue (s : State) : Bool :=
  s.regs && !s.gated && (s.shutNow || (s.shutArm && decide (s.shutTick.toNat ≤ s.tick)))

/-- SHUTTER_ARM: a write of arm (R201, R202). -/
def execShutterArm (v : Bool) (s : State) : Host.Outcome State Fault Refusal := .next (if s.regs then { s with shutArm := v } else s)

/-- SHUTTER_NOW (R201, R202). -/
def execShutterNow (s : State) : Host.Outcome State Fault Refusal := .next (if s.regs && !s.gated then { s with shutNow := true } else s)

/-- SHUTTER_GATE: the gated domains stop, arm is cleared, and the stream can be read (R201 to R203). -/
def execShutterGate (s : State) : Host.Outcome State Fault Refusal :=
  .next (if s.gateDue then { s with gated := true, shutNow := false, shutArm := false, stream := s.scan, nondet := s.nondet + 2 ^ 28 }
    else s)

/-- SHUTTER_UNGATE: the unread stream is dropped, doorbell writes that were held act, SIGNALs whose vectors have been unmasked complete, what the
links held arrives, and each core's next
trace record is preceded by a RESYNC (R202, R203, R214). (DESIGN CHOICE: log 114) -/
def execShutterUngate (s : State) : Host.Outcome State Fault Refusal :=
  if !s.gated then .next s
  else
    let s' : State := { s.skipSlots with
      gated := false, stream := [], heldDoors := [], heldEvents := [], agenda := s.heldEvents.map Move.ev ++ s.agenda
      trSrcs := s.trSrcs.map fun x => if x.id < 640 then { x with resync := true } else x }
    .next (s'.unmasked.foldl State.unmaskSignals (s.heldDoors.foldl (fun s p => s.doorbell p.1 p.2) s'))

/-- SHUTTER_DATA: a read of data (R201, R203). -/
def execShutterData (s : State) : Host.Outcome State Fault Refusal :=
  .next (if s.regs then
    { s.out (.read (BitVec.ofNat 64 (leNat (s.stream.take 8)))) with stream := s.stream.drop 8 } else s)

/-! ### Quad stops and single steps (R209 to R212) -/

/-- QCTL_STOP (R209). (DESIGN CHOICE: log 117) -/
def execQctlStop (g : Nat) (s : State) : Host.Outcome State Fault Refusal :=
  .next (if s.regs && decide (g < 160) then s.quadStop g 2 0 0 0 0 0 1024 else s)

/-- QCTL_RESUME: every wave of the quad goes on at its next instruction (R209). -/
def execQctlResume (g : Nat) (s : State) : Host.Outcome State Fault Refusal :=
  .next (if s.regs && (s.quad g).stopped then s.putQuad { s.quad g with stopped := false } else s)

/-- A step that ends at once, blocked or not (R212). -/
def State.stepEnds (s : State) (k : Core) (w : Wave) (blocked : Bool) : State :=
  (s.putWave { w with stepBlocked := blocked, stepping := none }).putCore { k with stepDone := true }

/-- A stepped wave cannot issue: it waits on a fault or for the Threshold position, for matrix work that does or that waits for a frozen wave's
load, or none of its fragments can run (R212). -/
def State.stuck (s : State) (w : Wave) : Bool :=
  (w.stage != .issue && w.stalls.any fun x => x.peer.isNone)
  || (w.idle && !w.frags.any fun f => f.runnable || f.parked)
  || (w.stage != .issue && (match (s.core w.coreNo).mtx.find? fun j => j.wave == w.key with
    | some j => s.jobStands j || (match s.team? w.team, j.writes with
      | some t, some b => t.cmds.any fun c => c.bank == some b && decide (c.seq < j.seq) && c.wave != w.key
      | _, _ => false)
    | none => false))

/-- Steps of waves that cannot issue end blocked (R212). (DEDUCED: log 69) -/
def State.endSteps (s : State) : State :=
  if s.waves.any fun w => w.stepping.isSome then
    s.waves.foldl (fun s w =>
      if w.stepping.isSome && w.place.isSome && s.stuck w then s.stepEnds (s.core w.coreNo) w true else s) s
  else s

/-- A wave inside a clause, or at the vote and the switch that end it. -/
def Wave.inClause (w : Wave) : Bool :=
  match w.stage with
  | .issue | .long | .vote | .quantum | .switch | .inside | .trap => true
  | .entering | .label | .ready | .ending | .ended => false

/-- DSTEP_GO: it acts only while the quad is stopped (R212). A wave with no fragment that can issue ends its step blocked; one that has
ended has nothing to step; in clause mode the clause that the wave stands in is the one to complete. (DEDUCED: log 69, 118) -/
def execDstepGo (core : Nat) (s : State) : Host.Outcome State Fault Refusal :=
  let k := s.core core
  match s.waves.find? fun w => w.place == some (16 * core + k.stepSlot) with
  | none => .next s
  | some w =>
    if !(s.regs && (s.quad (quadOf core)).stopped) ∨ w.stepping.isSome then .next s
    else if w.stage = .ended then .next (s.stepEnds k w false)
    else if w.idle && !w.frags.any (fun f => f.runnable || f.parked) then .next (s.stepEnds k w true)
    else
      let w := { w with stepping := some (if k.stepMode then .clause else .instr), stepBlocked := false, stepped := k.stepMode && w.inClause }
      .next ((s.putWave w).putCore { k with stepDone := false })

/-! ### REGISTER_WRITE (R4, R5) -/

/-- A masked store. -/
def State.setCtl (s : State) (off : Nat) (v mask : DWord) : State := { s with ctl := cset s.ctl off (v &&& mask) }

/-- A machine that an event leaves as it was or changed. -/
def nextOr (s : State) : Host.Outcome State Fault Refusal → State
  | .next t => t
  | _ => s

/-- A write of a register of the host block (R42, R213). LINKPAIR depends on the link and has an event of its own.
(DESIGN CHOICE: log 111) -/
def State.writeHost (s : State) (off : Nat) (v : DWord) : State :=
  match off with
  | 0x010 => s.setCtl off v ones64
  | 0x018 => { s with admEnable := v.getLsbD 4, admLg := (v.extractLsb' 0 4).toNat }
  | 0x020 => nextOr s (execAdmqWidx v s)
  | 0x040 => s.setCtl off v ones64
  | 0x048 => nextOr s (execFqEnable v s)
  | 0x058 => { s with fqHead := v }
  | 0x0C8 => { s with trHead := v }
  | 0x0D0 => { s with trStat := s.trStat &&& ~~~(v.extractLsb' 0 2) }
  | _ => s

/-- A write of the Shutter's control register (R201). -/
def State.writeShutter (s : State) (v : DWord) : State :=
  let s := nextOr s (execShutterArm (v.getLsbD 0) s)
  let s := if v.getLsbD 1 then nextOr s (execShutterUngate s) else s
  if v.getLsbD 3 then nextOr s (execShutterNow s) else s

/-- A write of a core's debug registers (R204, R211). -/
def State.writeCore (s : State) (c r off : Nat) (v : DWord) : State :=
  if r < 0x40 then s.setCtl off v (if r % 16 = 0 then 0x01FFFFFFFFFFFF80 else 0x3FF0003)
  else if r = 0x40 then
    let s := s.putCore { s.core c with stepMode := v.getLsbD 4, stepSlot := (v.extractLsb' 0 4).toNat }
    if v.getLsbD 5 then nextOr s (execDstepGo c s) else s
  else s

/-- A write of a quad's debug registers (R207, R210). -/
def State.writeQuad (s : State) (g r off : Nat) (v : DWord) : State :=
  let q := s.quad g
  if r < 0x80 then
    (match r % 0x20 with
    | 0x00 => s.setCtl off v ones64
    | 0x08 => s.setCtl off v 0xFFFFFFFF
    | 0x10 => s.setCtl off v 0x3FFFF
    | 0x18 =>
      let h : Word := BitVec.ofNat 32 (lget q.hits (r / 0x20) 0)
      s.putQuad { q with hits := lset q.hits (r / 0x20) (h &&& ~~~(v.extractLsb' 0 32)).toNat }
    | _ => s)
  else if r = 0x80 then
    let m : Word := BitVec.ofNat 32 q.missed
    s.putQuad { q with missed := (m &&& ~~~(v.extractLsb' 32 32)).toNat }
  else if r = 0x98 then
    let s := if v.getLsbD 0 then nextOr s (execQctlStop g s) else s
    if v.getLsbD 1 then nextOr s (execQctlResume g s) else s
  else s

/-- A register written through BAR0, by its offset (R5, R34 to R38, R42, R64, R201, R204, R207, R210, R211). -/
def State.writeReg (s : State) (off : Nat) (v : DWord) : State :=
  if off < 0x100 then s.writeHost off v
  else if 0x1000 ≤ off ∧ off < 0x2000 ∧ off % 16 = 8 then
    nextOr s (execTimetableSkipsClear (Fin.ofNat 256 ((off - 0x1000) / 16)) v s)
  else if off = 0x10_0000 then nextOr s (execPodidWrite (v.extractLsb' 0 32) s)
  else if off = 0x10_0008 then nextOr s (execXpeertoWrite v s)
  else if 0x10_1000 ≤ off ∧ off < 0x10_1000 + 0x40 * 12 ∧ off % 0x40 = 0 then
    (if v.getLsbD 1 then nextOr s (execXlstatClrcnt (Fin.ofNat 12 ((off - 0x10_1000) / 0x40)) s) else s)
  else if 0x10_2000 ≤ off ∧ off < 0x10_3000 then s.setCtl off v 0x1FFF
  else if 0x10_4000 ≤ off ∧ off < 0x10_8000 then
    let r := off % 0x100
    (if r = 0 then s.setCtl off v 0xBFF else if r < 0x88 then s.setCtl off v ones64 else s)
  else if off = 0x20_0000 then { s with shutTick := v }
  else if off = 0x20_0008 then s.writeShutter v
  else if 0x21_0000 ≤ off ∧ off < 0x21_0000 + 0x100 * 640 then
    s.writeCore ((off - 0x21_0000) / 0x100) ((off - 0x21_0000) % 0x100) off v
  else if 0x24_0000 ≤ off ∧ off < 0x24_0000 + 0x100 * 160 then
    s.writeQuad ((off - 0x24_0000) / 0x100) ((off - 0x24_0000) % 0x100) off v
  else s

/-- A register's address is aligned: XROUTE entries and PODID are 4 bytes, the others 8 (R34, R35). A write has the width of its register, and one at
any other offset changes nothing. (DESIGN CHOICE: log 160) -/
def regAligned (off : Nat) : Bool := off % 8 == 0 || (decide (0x10_2000 ≤ off ∧ off < 0x10_3000) && off % 4 == 0)

/-- REGISTER_WRITE (R5). (DESIGN CHOICE: log 110) -/
def execRegisterWrite (off : Nat) (v : DWord) (s : State) : Host.Outcome State Fault Refusal :=
  .next (if s.regs && regAligned off then s.writeReg off v else s)

/-! ### Histograms (R215) -/

/-- Histograms are on. -/
def State.histOn (s : State) : Bool := s.trSize != 0 && s.trMask.getLsbD 1

/-- Ticks between samples (R213). -/
def State.samplePeriod (s : State) : Nat := 2 ^ (s.trMask.extractLsb' 8 5).toNat

/-- Ticks between flushes (R213). -/
def State.flushPeriod (s : State) : Nat :=
  let us := (s.trMask.extractLsb' 16 16).toNat
  (if us = 0 then 1000 else us) * Config.ticksPerUs

/-- A power-cap bubble holds a class: MTX first, then VEC and MEM, never SYS (R23). (DESIGN CHOICE: log 27) -/
def bubbled (draw : Nat) (cls : Cls) : Bool :=
  match Config.bubble draw with
  | 0 => false
  | 1 => cls == .mtx
  | _ => cls == .mtx || cls == .vec || cls == .mem

/-- The class in which a wave could issue: of its clause in progress, or of its next one. -/
def State.nextCls (s : State) (e : WEnv) : Option Cls :=
  match e.w.stage with
  | .issue => if e.w.reason = 0 then e.w.clause.map (·.cls) else none
  | _ => match s.nextOf e with
    | .clause cl _ => some cl.cls
    | _ => none

/-- One sample of a wave: its die, its key and its reason. -/
def State.sampleOf (s : State) (draw : Nat) (e : WEnv) : Option (Bin × Nat) :=
  match e.w.frag? with
  | none => none
  | some f =>
    let cap := decide (s.cap < 3200) && (s.nextCls e).any (bubbled draw)
    some ({ die := dieOf e.w.coreNo, ctx := e.c.id, va := some (e.w.img + BitVec.ofNat 64 f.cp), cap, counts := [] },
      if cap then 0 else s.stallReason e)

/-- A counter of a bin one up, saturating. -/
def Bin.up (b : Bin) (r : Nat) : Bin := { b with counts := lset b.counts r (min (lget b.counts r 0 + 1) 0xFFFFFFFF) }

/-- Two bins have one key. -/
def Bin.same (a b : Bin) : Bool := a.die == b.die && a.ctx == b.ctx && a.va == b.va && a.cap == b.cap

/-- A sample counted: a new key with no free bin goes to the overflow bin of its context (R215). -/
def countSample (l : List Bin) (x : Bin × Nat) : List Bin :=
  let add (k : Bin) : List Bin :=
    if l.any k.same then l.map fun b => if k.same b then b.up x.2 else b else l ++ [k.up x.2]
  if l.any x.1.same ∨ (l.filter fun b => b.die == x.1.die && b.va.isSome).length < 1024 then add x.1
  else add { x.1 with va := none, cap := false }

/-- The tick of the last sample time that has passed while the package is gated: its waves give none (R202, R215). -/
def State.histGated (s : State) (tick : Nat) : Nat :=
  if s.histOn then s.histLast + (tick - s.histLast) / s.samplePeriod * s.samplePeriod else s.histLast

/-- HIST_SAMPLE (R215). -/
def execHistSample (s : State) : Host.Outcome State Fault Refusal :=
  if !(s.running && s.histOn && decide (s.histLast + s.samplePeriod ≤ s.tick)) then .next s
  else
    let ws := s.waves.filter fun w => w.place.isSome && !s.frozen w
    let xs := ws.zipIdx.filterMap fun w => (s.wenv? w.1.key).bind fun e =>
      if s.trMask.getLsbD 48 ∧ (s.trMask.extractLsb' 32 10).toNat ≠ e.c.id then none else s.sampleOf (s.nondet + w.2) e
    .next { s with bins := xs.foldl countSample s.bins, histLast := s.histLast + s.samplePeriod, nondet := s.nondet + ws.length }

/-- The 128 bytes of a histogram line (R215). -/
def Bin.line (b : Bin) (sat : Bool) (tick : Nat) : List Byte :=
  le 8 (2 + b.die * 2 ^ 8 + (if b.cap then 2 ^ 10 else 0) + (if sat then 2 ^ 11 else 0) + (if b.va.isNone then 2 ^ 12 else 0) + b.ctx * 2 ^ 16)
  ++ bvBytes 8 (b.va.getD 0) ++ ((List.range 14).flatMap fun r => le 4 (lget b.counts r 0)) ++ le 8 tick ++ List.replicate 48 0

/-- What a flush writes from a ring position: each line whole, with a padding unit where one would cross the ring's end (R215). -/
def flushBytes (size : Nat) : Nat → List (List Byte) → List Byte
  | _, [] => []
  | tail, l :: r =>
    if tail % size + 128 ≤ size then l ++ flushBytes size (tail + 128) r
    else List.replicate 64 0 ++ l ++ flushBytes size (tail + 192) r

/-- Bytes written to the trace ring, unit by unit. Fuel counts units. -/
def State.ringPut (s : State) : Nat → List Byte → State
  | 0, _ => s
  | k + 1, b =>
    if b.isEmpty then s
    else ({ s.toHost (s.trAddr + s.trTail % s.trSize) (b.take 64) with trTail := s.trTail + 64 }).ringPut k (b.drop 64)

/-- One die's flush: all its lines, or none when the ring cannot take them (R215). -/
def State.flushDie (s : State) (die : Nat) : State :=
  let bs := s.bins.filter fun b => b.die == die
  let sat := bs.any (·.sat)
  let bytes := flushBytes s.trSize s.trTail (bs.map fun b => b.line sat s.tick)
  if s.trTail + bytes.length ≤ s.trHead.toNat + s.trSize then
    { s.ringPut (bytes.length / 64) bytes with bins := s.bins.filter fun b => b.die != die }
  else
    { s with trStat := s.trStat ||| 1, bins := s.bins.map fun b => if b.die == die then { b with sat := true } else b }

/-- HIST_FLUSH (R215). (DESIGN CHOICE: log 120) -/
def execHistFlush (s : State) : Host.Outcome State Fault Refusal :=
  if !(s.running && s.histOn && decide (s.flushLast + s.flushPeriod ≤ s.tick)) then .next s
  else .next { (List.range 4).foldl State.flushDie s with flushLast := s.flushLast + s.flushPeriod }

end Machine

end Sys2Proof
end

