-- ==== Sys2Proof/Machine/EvLinks.lean ====
section
/-! DEFINITION. Resets (R10, R65, R66), host links (R40, R60, R65), errors and repair of the package (R11, R12, R24 to R27), power (R23),
Transom links and peers (R28 to R33, R36), and the Wicket port (R66). -/

namespace Sys2Proof

open Machine

namespace Machine

/-! ### Reset (R10, R65, R66) -/

/-- Physical quads of a die: the 40 that the fuses enable, then the two spares, each in ascending order (R10). -/
def fusedQuads (die : Nat) : List Nat :=
  (List.range Config.quadsBuilt).filter (fun q => !Config.fusedSpare die q) ++ (List.range Config.quadsBuilt).filter (Config.fusedSpare die)

/-- Logical quads in order: an enabled quad that the repair record retires is replaced by the next usable spare (R10). -/
def mapQuads (bad : Nat → Bool) : List Nat → List Nat → List Nat
  | [], _ => []
  | q :: qs, spares =>
    if bad q then
      match spares with
      | [] => mapQuads bad qs []
      | p :: ps => p :: mapQuads bad qs ps
    else q :: mapQuads bad qs spares

/-- A physical quad is retired. -/
def State.retired (s : State) (die q : Nat) : Bool := s.repair.contains (die, q)

/-- Logical quads of a die as physical quads; fewer than 40 when it fails (R10). -/
def State.dieQuads (s : State) (die : Nat) : List Nat :=
  mapQuads (s.retired die) ((fusedQuads die).take Config.quadsPerDie)
    (((fusedQuads die).drop Config.quadsPerDie).filter fun q => !s.retired die q)

/-- A die passes its self-test (R10). -/
def State.dieOk (s : State) (die : Nat) : Bool := (s.dieQuads die).length == Config.quadsPerDie

/-- The machine as a package reset leaves it before its sequence: what the management controller, the memories' spare rows and the
outside world hold stays; every sector is raw (R160). (DESIGN CHOICE: log 17) -/
def State.downed (s : State) : State :=
  { State.reset with
    agenda := s.agenda, nondet := s.nondet, fresh := s.fresh, outbox := s.outbox, mem := s.mem.filter fun p => p.1 < 2 ^ 56
    poison := s.poison, repair := s.repair, cap := s.cap, rows := s.rows, corrected := s.corrected
    uncorrected := s.uncorrected, iommu := s.iommu }

/-- CXL ports whose memory expander is missing or holds less than 2,048 GiB (R16). -/
def lacking : List Nat := (List.range 6).filter fun p => Config.cxl && decide (Config.expander p < 2 ^ 29)

/-- PACKAGE_RESET: every die runs its sequence; with a failed die the package does not come up on PCI Express, and failed dies and lacking
expanders are reported (R10, R16, R65). (DESIGN CHOICE: log 18) -/
def execPackageReset (s : State) : Host.Outcome State Fault Refusal :=
  let d := s.downed
  let bad := (List.range Config.dies).filter fun k => !s.dieOk k
  let ok := bad.isEmpty
  let d : State := { d with
    ready := ok, link0 := ok, link1 := ok, quadMap := (List.range Config.dies).flatMap s.dieQuads
    diesok := (List.range Config.dies).foldl (fun (m : BitVec 4) k => if s.dieOk k then m ||| (1 <<< k) else m) 0 }
  .next (lacking.foldl (fun s p => s.out (.report 3 p)) (bad.foldl (fun s k => s.out (.report 0 k)) d))

/-- WICKET_PACKAGE_RESET: both links drop and everything is lost; the reset sequence follows (R65, R66). -/
def execWicketPackageReset (s : State) : Host.Outcome State Fault Refusal := .next s.downed

/-- MODULE_RESET (R66). -/
def execModuleReset (s : State) : Host.Outcome State Fault Refusal := .next s.downed

/-- One function reset: its MSI-X table, its outstanding requests, which are sent again, and its pairing; a SIGNAL that waits for its vector still
waits with its message (R65).
(DESIGN CHOICE: log 121) -/
def State.resetFn (s : State) (fn : Nat) : State :=
  let s' : State := { s with
    unmasked := s.unmasked.filter fun k => k / 2048 != fn, pending := s.pending.filter fun k => k / 2048 != fn
    msixTab := s.msixTab.filter fun e => e.k / 2048 != fn
    paired0 := s.paired0 && fn != 0, paired1 := s.paired1 && fn != 1 }
  (s.pri.filter fun p => p.sent && s.linkFor (p.page * 4096) == fn).foldl (fun s p => match s.ctx? p.ctx with
    | some c => s.out (.pageRequest c.pasid p.page)
    | none => s) s'

/-- FUNCTION_LEVEL_RESET, or a hot reset (R65). -/
def execFunctionLevelReset (link : Fin 2) (s : State) : Host.Outcome State Fault Refusal :=
  .next (if s.regs then s.resetFn link.val else s)

/-- A link's up bit. -/
def State.setUp (s : State) (link : Fin 2) (up : Bool) : State :=
  if link.val = 0 then { s with link0 := up } else { s with link1 := up }

/-- A link is up. -/
def State.isUp (s : State) (link : Fin 2) : Bool := if link.val = 0 then s.link0 else s.link1

/-- PCIE_LINK_DOWN: pairing is cleared on both functions; requests that wait go out again on the other link, and each context whose
posted writes were lost gets a record (R40). -/
def execPcieLinkDown (link : Fin 2) (lost : List Nat) (s : State) : Host.Outcome State Fault Refusal :=
  if !(s.regs && s.isUp link) then .next s
  else
    let again := s.pri.filter fun p => p.sent && s.linkFor (p.page * 4096) == link.val
    let s := { s.setUp link false with paired0 := false, paired1 := false }
    let s := again.foldl (fun s p => match s.ctx? p.ctx with
      | some c => s.out (.pageRequest c.pasid p.page)
      | none => s) s
    .next (((List.range 1024).filter fun k => lost.contains k && s.hasCtx k).foldl (fun s k =>
      let (key, s) := s.newKey
      s.report { key, kind := 6, ctx := k }) s)

/-- PCIE_LINK_UP (R40). -/
def execPcieLinkUp (link : Fin 2) (s : State) : Host.Outcome State Fault Refusal :=
  .next (if s.regs then s.setUp link true else s)

/-- ONE_LINK_RESET: the link's function is reset and the link goes down until it trains again (R40, R65, R66). (DESIGN CHOICE: log 123) -/
def execOneLinkReset (link : Fin 2) (s : State) : Host.Outcome State Fault Refusal :=
  .next (if s.regs then { (s.resetFn link.val).setUp link false with paired0 := false, paired1 := false } else s)

/-- MSIX_UNMASK: the driver writes an entry of a function's MSI-X table: its address, its data and its mask. Each message that waits for
the vector is delivered once it is unmasked (R60); a SIGNAL that waits completes then, or after ungating (R202). -/
def execMsixUnmask (fn : Fin 2) (x : MsixWrite) (s : State) : Host.Outcome State Fault Refusal :=
  let k := 2048 * fn.val + x.vec
  if !s.regs ∨ 2048 ≤ x.vec then .next s
  else
    let s : State := { s with msixTab := lput s.msixTab (fun e => e.k == k) ⟨k, x.addr, x.data⟩ }
    if x.masked then .next { s with unmasked := s.unmasked.filter (· != k) }
    else
      let s' : State := { s with
        unmasked := if s.unmasked.contains k then s.unmasked else s.unmasked ++ [k], pending := s.pending.filter (· != k) }
      let s' := (s.pending.filter (· == k)).foldl State.sendMsix s'
      .next (if s.running then s'.unmaskSignals k else s')

/-! ### Errors and repair (R11, R12, R24 to R27) -/

/-- A line poisoned (R11). One that is poisoned anew has not stayed poisoned since it last struck a team (R25, R58). -/
def State.poisonLine (s : State) (addr : Nat) : State :=
  let k := addr / 128
  if localOk addr && !s.poison.contains k then
    { s with poison := s.poison ++ [k], launches := s.launches.map fun l => { l with struck := l.struck.filter fun x => x.2 != k } }
  else s

/-- A core held after an arithmetic or register-file error, with its record when the hold begins (R25, R57). (DESIGN CHOICE: log 41) -/
def State.holdCore (s : State) (w : Wave) (code : Nat) : State :=
  let k := s.core w.coreNo
  if k.held.isSome then s
  else
    let (key, s') := s.newKey
    let r := { FaultRec.ofWave s w 7 0 code 0 with key, wave := 0xFF }
    (s'.putCore { k with held := some key }).report r

/-- UNCORRECTED_ERROR: it strikes the team of a wave (R11, R24 to R26, R58). (DESIGN CHOICE: log 40) -/
def execUncorrectedError (w source addr : Nat) (s : State) : Host.Outcome State Fault Refusal :=
  match s.wenv? w with
  | none => .next s
  | some e =>
    if !s.running ∨ source = 0 ∨ 9 < source ∨ e.w.place.isNone then .next s
    else
      let line := if source = 3 ∨ source = 4 ∨ source = 5 then some (addr / 128) else none
      let s := if line.isSome then s.poisonLine addr else s
      let s := if source = 1 ∨ source = 6 then s.holdCore e.w (eccCode e.t e.l source line) else s
      if source = 8 then .next (s.putWave (e.w.pendTrap causeEcc (eccCode e.t e.l 8 none)))
      else .next (s.strike e.w source line { cause := causeEcc } false)

/-- Correctable events of a row within the rolling 24 hours (R12). -/
def State.eventsOf (s : State) (die bank row : Nat) : Nat :=
  (s.rowEvents.filter fun e => decide (s.tick < e.1 + Config.ticksPerDay) && e.2 == (die, bank, row)).length

/-- ROW_RETIRE: a row with more than 16 correctable events in 24 hours moves to a spare row; with none left the bank is reported (R12).
(DESIGN CHOICE: log 129) -/
def execRowRetire (die : Fin 4) (bank row : Nat) (s : State) : Host.Outcome State Fault Refusal :=
  if !s.running ∨ s.eventsOf die.val bank row ≤ 16 then .next s
  else
    let used := (s.rows.filter fun r => r.1 == die.val && r.2.1 == bank).length
    let s : State := { s with rowEvents := s.rowEvents.filter fun e => e.2 != (die.val, bank, row) }
    .next (if used < Config.sparesPerBank then { s with rows := s.rows ++ [(die.val, bank, row)] } else s.out (.report 2 die.val))

/-- D2D_LINK_FAILURE: the package goes down, and the failure is reported (R27). `bit` is the bit in which the two dies differ. -/
def execD2dLinkFailure (die : Fin 4) (bit : Fin 2) (s : State) : Host.Outcome State Fault Refusal :=
  .next ({ s with dead := true }.out (.report 1 (2 * die.val + bit.val)))

/-- POWER_CAP: clamped (R23). -/
def execPowerCap (watts : Nat) (s : State) : Host.Outcome State Fault Refusal := .next { s with cap := max 800 (min 3200 watts) }

/-! ### Transom links (R28 to R30, R36) -/

/-- CRC-32C of bytes, one bit at a time from the least significant, over the polynomial 0x1EDC_6F41 (R28). -/
def crcBits : Nat → Word → Word
  | 0, c => c
  | n + 1, c => crcBits n (if c.getLsbD 0 then (c >>> 1) ^^^ 0x82F63B78 else c >>> 1)

/-- CRC-32C (R28). (PRESUMED: log 124) -/
def crc32c (b : List Byte) : Word := ~~~(b.foldl (fun c x => crcBits 8 (c ^^^ x.setWidth 32)) 0xFFFFFFFF)

/-- The sender replays every flit from the first that is not acknowledged (R29). -/
def State.replayFlits (s : State) (l : XLink) : State :=
  let s := s.putLink { l with retries := min (l.retries + l.unacked) 0xFFFFFFFF }
  if l.unacked = 0 then s else s.out (.flits l.n (l.acked + 1))

/-- FLIT_RECEIVE (R28, R29). A flit with a CRC error, and every one after it until its sequence number comes again, is discarded; one
in order is acknowledged. A link-control flit makes this end replay. After 8 CRC failures on the link with no flit accepted between
them lane repair follows. What comes while the package is gated is held (R202).
(DESIGN CHOICE: log 125, 154) -/
def execFlitReceive (link : Fin 12) (flit : List Byte) (s : State) : Host.Outcome State Fault Refusal :=
  let l := { s.link link.val with n := link.val }
  if !(s.running && l.up && flit.length == 64) then .next (s.holdEvent (.flitReceive link flit))
  else
    let h : Word := BitVec.ofNat 32 (bnat flit 0 4)
    let kind := (h.extractLsb' 24 4).toNat
    let seq := h.extractLsb' 0 12
    if crc32c (flit.take 60) ≠ BitVec.ofNat 32 (bnat flit 60 4) ∨ 5 ≤ kind then
      let s := s.putLink { l with discarding := true, crcRow := l.crcRow + 1 }
      let lanes := (List.range 8).filter fun k => l.lanemap.getLsbD k
      .next (if l.crcRow + 1 = 8 then
          { s with
            nondet := s.nondet + 1
            agenda := s.agenda ++ [.ev (.laneRepair link (Fin.ofNat 8 ((lanes[Config.badLane s.nondet % lanes.length]?).getD 0)))] }
        else s)
    else if seq ≠ l.expect then .next s
    else
      let l := { l with expect := l.expect + 1, discarding := false, crcRow := 0
                        acked := if h.getLsbD 28 then h.extractLsb' 12 12 else l.acked }
      let s := (s.push l []).out (.ack link.val seq)
      .next (if kind = 4 then s.replayFlits (s.link link.val) else s)

/-- A request that goes on to another package by this one's route table, unless that would be its fifth hop (R32, R33). -/
def State.sendOn (s : State) (r : PeerReq) : State :=
  match s.linkOf (2 ^ 55 + 2 ^ 44 * r.dst + r.addr % 2 ^ 44) with
  | none => s.out (.discard r)
  | some n =>
    if 4 ≤ r.hops then s.out (.discard r)
    else
      let x : Queued := { flits := flitCount s.nondet, pa := 2 ^ 55 + 2 ^ 44 * r.dst + r.addr % 2 ^ 44, req := some { r with hops := r.hops + 1 } }
      { s.push { s.link n with n } [x] with nondet := s.nondet + 1 }

/-- A link goes down: requests that it had not sent, the package's own and those that it forwards, take the other links of their routes
(R30). -/
def State.linkDown (s : State) (l : XLink) : State :=
  l.queue.foldl (fun s x => match x.req, s.linkOf x.pa with
    | some r, _ => s.sendOn { r with hops := r.hops - 1 }
    | none, some n => s.push { s.link n with n } [x]
    | none, none => s) (s.putLink { l with queue := [] })

/-- LANE_REPAIR: the lane is removed, the link retrains and replays; below 6 lanes it goes down (R29, R30). (DESIGN CHOICE: log 126) -/
def execLaneRepair (link : Fin 12) (lane : Fin 8) (s : State) : Host.Outcome State Fault Refusal :=
  let l := { s.link link.val with n := link.val }
  if !(s.running && l.up && l.lanemap.getLsbD lane.val) then .next (s.holdEvent (.laneRepair link lane))
  else
    let m := l.lanemap &&& ~~~((1 : BitVec 8) <<< lane.val)
    let ok := 6 ≤ popcount m
    let l := { l with lanemap := m, repairs := min (l.repairs + 1) 255, crcRow := 0, up := ok, down := !ok }
    .next (if ok then s.replayFlits l else s.linkDown l)

/-- TRANSOM_LINK_TRAINED (R36). -/
def execTransomLinkTrained (link : Fin 12) (s : State) : Host.Outcome State Fault Refusal :=
  let l := { s.link link.val with n := link.val }
  .next (if s.running && !l.up && decide (6 ≤ popcount l.lanemap) then s.putLink { l with up := true, down := false }
    else s.holdEvent (.transomLinkTrained link))

/-! ### Requests between packages (R31, R32, R289, R290) -/

/-- PEER_REQUEST_FORWARD: a request for another package goes on over one of its route's links, once its replay buffer has room (R29, R32,
R33). -/
def execPeerRequestForward (r : PeerReq) (s : State) : Host.Outcome State Fault Refusal :=
  if !s.running ∨ r.dst = s.podid then .next (s.holdEvent (.peerRequestForward r)) else .next (s.sendOn r)

/-- An agent of another package as it is known here. -/
def State.peerOf (s : State) (pkg agent : Nat) : PeerAgent := (s.peers.find? fun p => p.pkg == pkg && p.agent == agent).getD { pkg, agent }

/-- It as a reader (R165, R169). -/
def PeerAgent.reader (p : PeerAgent) : Reader :=
  { wave := p.agent, lanes := BitVec.allOnes 64, core := 0, path := 0, known := p.known, saw := p.saw, peer := some p.pkg }

/-- What comes before a release of it: what it knows, what it has written, and what it has observed (R167). -/
def PeerAgent.released (p : PeerAgent) (s : State) : List Known :=
  joinKnown (joinKnown p.known ((s.hist.filter fun e => e.peer == some p.pkg && e.wave == p.agent).map fun e => { id := e.id, paths := 1 }))
    (p.saw.map fun x => { id := x.2, paths := 1 })

/-- Its writes; one of a release is a release of what comes before it (R168). -/
def PeerAgent.event (p : PeerAgent) (s : State) (ord : Ord) (atomic : Bool) : Write :=
  let known := p.released s
  { id := 0, wave := p.agent, lanes := BitVec.allOnes 64, core := 0, pa := 0, old := [], atomic, peer := some p.pkg
    rels := if ord.isRel then [{ core := 0, obs := ord.obs, known := passOn known, peer := some p.pkg }] else []
    after := known.map (·.id) }

/-- A read by it: it has now seen the writes, and an acquire brings what the releases that it read had before them (R166 to R168). -/
def State.peerRead (s : State) (p : PeerAgent) (ord : Ord) (home : Bool) (pa n : Nat) : State :=
  if s.hist.isEmpty then s
  else
    let saw := if home then (s.hist.filter fun e => meets e.pa e.old.length pa n && !p.reader.knows e).map fun e => (p.reader.lanes, e.id)
      else s.sawOf s.nondet p.reader pa n
    let got := if ord.isAcq then acquired 0 ord.obs (s.relsOf s.nondet p.reader home pa n) (some p.pkg) else []
    let p' := { p with saw := joinSaw p.saw saw, known := joinKnown p.known got }
    { s with peers := lput s.peers (fun q => q.pkg == p.pkg && q.agent == p.agent) p' }

/-- PEER_REQUEST_ARRIVAL: a request for this package is served from the local map, and answered; one for an address that is not populated,
or a read of a poisoned line, is answered with an error (R13, R31, R289, R290). Its access is ordered as the agent's of the other package
that made it (R165 to R168). (DESIGN CHOICE: log 153) -/
def execPeerRequestArrival (r : PeerReq) (s : State) : Host.Outcome State Fault Refusal :=
  if !s.running ∨ r.dst ≠ s.podid then .next (s.holdEvent (.peerRequestArrival r))
  else
    let no := s.out (.peerError r.src)
    let p := s.peerOf r.src r.agent
    match r.op with
    | .read n =>
      if !rangeOk r.addr n then .next no
      else match readAt s.poison (s.seenBy p.reader) r.addr n with
        | .error _ => .next no
        | .ok b => .next ({ s.peerRead p r.ord false r.addr n with nondet := s.nondet + 1 }.out (.peerReply r.src b))
    | .write b =>
      if rangeOk r.addr b.length then .next ((s.storeAs (some (p.event s r.ord false)) none r.addr b false).out (.peerReply r.src [])) else .next no
    | .atomic op wide x y =>
      let n := if wide then 8 else 4
      if !rangeOk r.addr n ∨ r.addr % n ≠ 0 then .next no
      else match readAt s.poison s.mem r.addr n with
        | .error _ => .next no
        | .ok b =>
          let old : DWord := BitVec.ofNat 64 (leNat b)
          let e := p.event s r.ord true
          let s' := s.peerRead p r.ord true r.addr n
          let s' := if op = .cas ∧ old.toNat ≠ x.toNat % 2 ^ (8 * n) then (if r.ord.isRel then s'.note e [(r.addr, n)] else s')
            else s'.storeAs (some e) none r.addr (leBytes n (op.apply n old x y).toNat) false
          .next (s'.out (.peerReply r.src b))

/-! ### PEER_TIMEOUT (R33) -/

/-- A deadline has passed. -/
def State.past (s : State) (d : Option PeerWait) : Bool := match d with | some t => decide (t.due ≤ s.clock) | none => false

/-- Stores and atomics reported unreachable, of which each may have been performed (R33). -/
def Actor.mayPerform (a : Actor) (key : Nat) (op : MemOp) (s : State) : State :=
  op.accs.zipIdx.foldl (fun s q =>
    let does := match q.1.kind with | .store => true | .atomic _ => true | .gst => true | .stc => true | _ => false
    if does && !a.staged && Config.peerPerformed (s.nondet + q.2) then
      match ({ a with who := op.who key q.1 }).access ⟨s, []⟩ op q.1 true with
      | .ok d => d.x.s
      | .error _ => s
    else s) s

/-- A wave's accesses that got no response raise ECC with source 8 (R33, R58). -/
def State.stallTimeout (s : State) (key : Nat) (x : Stall) : State :=
  match s.wave? key with
  | none => s
  | some w =>
    let s := match s.wenv? key with
      | some e =>
        { s.vecActor w e.c e.t e.l x.op.ord with known := x.known, via := x.peer }.mayPerform key x.op s
      | none => s
    match s.wave? key with
    | none => s
    | some w =>
      let tr := (badTrap x.op (x.op.accs.map fun q => (q, Flt.ecc 8 none, q.va))).1
      s.strike { w with stalls := w.stalls.filter (· != x) } 8 none tr

/-- A copy's step that got no response: its command ends FAULT; its writes may have been performed (R33, R159). -/
def State.cmdTimeout (s : State) (t : Team) (c : Cmd) : State :=
  let s := match s.launch? t.launch, s.ctx? t.ctx with
    | some l, some cx =>
      let a := c.actor cx t l (l.p.mode != 0 && !t.direct)
      if c.bank.isNone && !a.staged && Config.peerPerformed s.nondet then
        match a.copyStep s c (copyRuns c.dims 256 c.done (min (totalBytes c.dims) (c.done / 256 * 256 + 256))) true with
        | .ok s' _ _ _ => s'
        | .bad _ _ _ => s
      else s
    | _, _ => s
  match s.team? t.key with
  | some t =>
    let code := match s.launch? t.launch with | some l => eccCode t l 8 none | none => 8
    s.putTeam (t.completeCmd c 3 (tagFault causeEcc code (c.sa + BitVec.ofNat 64 c.done) false))
  | none => s

/-- A row of a matrix store as it may have been performed at the peer (R33). -/
def State.mstRow (s : State) (a : Actor) (j : MtxJob) (o : MSt) : State :=
  let f := o.fmt.ff
  let b := packRow f ((List.range 64).map fun k => (round f o.rnd o.sat 0 ((a.t.tile o.tile.val).get o.half j.start k)).1)
  let sp : Space := if o.sp then .sp else .gm
  match a.place s sp .wr true false (rowAt j.a0 j.a1 j.start) b.length true with
  | .ok ps => (a.put ⟨s, []⟩ sp ps b).s
  | .error _ => s

/-- A matrix instruction whose operand or store got no response traps (R33). -/
def State.mtxTimeout (s : State) (j : MtxJob) : State :=
  let s := match s.wenv? j.wave, j.instr with
    | some e, .mst o =>
      let a : Actor :=
        { core := e.w.coreNo, c := e.c, t := e.t, l := e.l, who := none, staged := e.l.p.mode != 0 && !e.t.direct, key := j.wave, path := 1
          known := j.known, via := j.peer }
      if !a.staged && Config.peerPerformed s.nondet then s.mstRow a j o else s
    | _, _ => s
  let path : Byte := match j.instr with | .mst _ => 0x12 | .mrstl _ => 8 | _ => 0x11
  s.mtxTrap j j.start { cause := causeEcc, faddr := rowAt j.a0 j.a1 j.start, access := path } 8

/-- Bytes that may have been written at a peer all the same (R33). -/
def State.mayWrite (s : State) (c : Ctx) (va : DWord) (b : List Byte) : State :=
  if Config.peerPerformed s.nondet then
    match s.pieces c .wr true (b.length + 1) va b.length with
    | .ok ps => s.putPieces ps b
    | .error _ => s
  else s

/-- What a packet under way would have written. -/
def Pkt.writes (p : Pkt) : List Byte :=
  match p.op with
  | 3 => if bnat p.bytes 24 1 = 0 then (p.bytes.drop 16).take 8 else []
  | 5 => le 8 p.tick ++ le 8 (p.tai / 2 ^ 32)
  | _ => []

/-- A SIGNAL's add that may have been performed at a peer (R33). -/
def State.mayAdd (s : State) (c : Ctx) (p : Pkt) : State :=
  if p.op = 3 ∧ bnat p.bytes 24 1 = 1 ∧ Config.peerPerformed s.nondet then
    match s.pieces c .atom true 9 (BitVec.ofNat 64 (bnat p.bytes 8 8)) 8 with
    | .error _ => s
    | .ok ps => match readPieces s.poison s.mem ps with
      | .error _ => s
      | .ok b => s.putPieces ps (bvBytes 8 (BitVec.ofNat 64 (leNat b) + BitVec.ofNat 64 (bnat p.bytes 16 8)))
  else s

/-- A packet whose access got no response stops (R33, R372). -/
def State.pktTimeout (s : State) (q : Queue) (p : Pkt) : State :=
  let s := match s.ctx? q.ctx with
    | some c => (s.mayWrite c (BitVec.ofNat 64 (bnat p.bytes 8 8)) p.writes).mayAdd c p
    | none => s
  s.stopPkt q.id p.i

/-- A package copy whose step got no response stops (R33, R372). -/
def State.copyTimeout (s : State) (k : PkgCopy) : State :=
  let n := min 256 (k.len - k.done)
  let s := match s.ctx? k.ctx with
    | none => s
    | some c =>
      if n = 0 then s.mayWrite c k.sig (bvBytes 8 k.sigval)
      else
        let src := if k.fill then some ((List.range n).map fun i => k.src.extractLsb' (8 * ((k.done + i) % 8)) 8)
          else match s.pieces c .rd true (n + 1) (k.src + BitVec.ofNat 64 k.done) n with
            | .ok ps => (match readPieces s.poison s.mem ps with | .ok b => some b | .error _ => none)
            | .error _ => none
        (match src with | some b => s.mayWrite c (k.dst + BitVec.ofNat 64 k.done) b | none => s)
  (s.dropCopy k).stopPkt k.queue k.idx

/-- A completion record whose write got no response (R33, R372). -/
def State.recordTimeout (s : State) (l : Launch) : State :=
  let s := match s.ctx? l.ctx with
    | some c => s.mayWrite c l.p.sigaddr (bvBytes 8 l.p.sigval ++ l.record s.tick)
    | none => s
  s.recordLost l

/-- PEER_TIMEOUT: every access to a peer whose deadline has passed becomes unreachable (R33). (DESIGN CHOICE: log 127) -/
def execPeerTimeout (s : State) : Host.Outcome State Fault Refusal :=
  if !s.running then .next s
  else
    let s := s.waves.foldl (fun s w => (w.stalls.filter fun x => s.past x.peer).foldl (fun s x => s.stallTimeout w.key x) s) s
    let s := s.teams.foldl (fun s t => (t.cmds.filter fun c => s.past c.peer).foldl (fun s c => s.cmdTimeout t c) s) s
    let s := s.cores.foldl (fun s k => (k.mtx.filter fun j => s.past j.peer).foldl State.mtxTimeout s) s
    let s := s.queues.foldl (fun s q =>
      let s := (q.pkts.filter fun p => s.past p.peer).foldl (fun s p => s.pktTimeout q p) s
      if s.past q.peer then match s.queue? q.id with
        | some q => s.queueError { q with peer := none } 7 q.ridx
        | none => s
      else s) s
    let s := (s.copies.filter fun k => s.past k.peer).foldl State.copyTimeout s
    let s := (s.launches.filter fun l => s.past l.peer).foldl State.recordTimeout s
    .next { s with nondet := s.nondet + 2 ^ 16 }

/-! ### The Wicket port (R66) -/

/-- ATTESTATION. -/
def execAttestation (s : State) : Host.Outcome State Fault Refusal :=
  .next (s.out (.attest Config.certificates (Config.measurement s.repair)))

/-- Spares of a die that its logical quads do not use (R10). -/
def State.sparesLeft (s : State) (die : Nat) : Nat :=
  (((fusedQuads die).drop Config.quadsPerDie).filter fun q =>
    !s.retired die q && !((s.quadMap.drop (40 * die)).take 40).contains q).length

/-- SENSORS. Spare rows are given for each bank in which a row has been retired, as 2^16 · die + bank. -/
def execSensors (s : State) : Host.Outcome State Fault Refusal :=
  let d := s.nondet
  let banks := s.rows.foldl (fun (l : List (Nat × Nat)) r => if l.contains (r.1, r.2.1) then l else l ++ [(r.1, r.2.1)]) []
  let rows := banks.map fun b => (2 ^ 16 * b.1 + b.2, Config.sparesPerBank - (s.rows.filter fun r => (r.1, r.2.1) == b).length)
  .next ({ s with nondet := d + 4 }.out (.sensor ((List.range 4).map fun k => Config.temperature d k) (Config.modulePower d)
    s.corrected s.uncorrected rows ((List.range 4).map s.sparesLeft) ((List.range 12).map fun n => popcount (s.link n).lanemap)))

/-- REPAIR_READ. -/
def execRepairRead (s : State) : Host.Outcome State Fault Refusal := .next (s.out (.repair s.repair))

/-- REPAIR_APPEND: the retirement applies at the next reset (R10). -/
def execRepairAppend (die : Fin 4) (quad : Nat) (s : State) : Host.Outcome State Fault Refusal :=
  .next (if quad < Config.quadsBuilt ∧ !s.retired die.val quad then { s with repair := s.repair ++ [(die.val, quad)] } else s)

/-- SHUTTER_READOUT: it sets the Shutter's tick and arms it; once the package is gated it streams the next bytes (R201, R203, R66).
(DESIGN CHOICE: log 116) -/
def execShutterReadout (t : DWord) (bytes : Nat) (s : State) : Host.Outcome State Fault Refusal :=
  .next (if s.gated then { s.out (.scan (s.stream.take bytes)) with stream := s.stream.drop bytes }
    else if s.regs then { s with shutTick := t, shutArm := true } else s)

end Machine

end Sys2Proof
end

