-- ==== Sys2Proof/Machine/Dispatch.lean ====
section
/-! DEFINITION. One arm per instruction: one direct call of its meaning. -/

namespace Sys2Proof.Machine

/-- The meaning of an instruction or event. -/
def exec (i : Instr) (s : State) : Host.Outcome State Fault Refusal :=
  match i with
  | .functionLevelReset link => Sys2Proof.Machine.execFunctionLevelReset link s
  | .pcieLinkDown link lost => Sys2Proof.Machine.execPcieLinkDown link lost s
  | .atsInvalidate fn pasid page pages grants => Sys2Proof.Machine.execAtsInvalidate fn pasid page pages grants s
  | .priResponse ctx page code grants => Sys2Proof.Machine.execPriResponse ctx page code grants s
  | .msixUnmask fn x => Sys2Proof.Machine.execMsixUnmask fn x s
  | .uncorrectedError w source addr => Sys2Proof.Machine.execUncorrectedError w source addr s
  | .rowRetire die bank row => Sys2Proof.Machine.execRowRetire die bank row s
  | .d2dLinkFailure die bit => Sys2Proof.Machine.execD2dLinkFailure die bit s
  | .flitReceive link flit => Sys2Proof.Machine.execFlitReceive link flit s
  | .laneRepair link lane => Sys2Proof.Machine.execLaneRepair link lane s
  | .peerRequestForward r => Sys2Proof.Machine.execPeerRequestForward r s
  | .transomLinkTrained link => Sys2Proof.Machine.execTransomLinkTrained link s
  | .peerRequestArrival r => Sys2Proof.Machine.execPeerRequestArrival r s
  | .podArrival mem launchid phase final => Sys2Proof.Machine.execPodArrival mem launchid phase final s
  | .podRelease launchid phase => Sys2Proof.Machine.execPodRelease launchid phase s
  | .powerCap watts => Sys2Proof.Machine.execPowerCap watts s
  | .oneLinkReset link => Sys2Proof.Machine.execOneLinkReset link s
  | .shutterReadout t bytes => Sys2Proof.Machine.execShutterReadout t bytes s
  | .repairAppend die quad => Sys2Proof.Machine.execRepairAppend die quad s
  | .doorbellWidx q v whole => Sys2Proof.Machine.execDoorbellWidx q v whole s
  | .admqWidx v => Sys2Proof.Machine.execAdmqWidx v s
  | .linkpairPaired link v => Sys2Proof.Machine.execLinkpairPaired link v s
  | .fqEnable v => Sys2Proof.Machine.execFqEnable v s
  | .podidWrite v => Sys2Proof.Machine.execPodidWrite v s
  | .xpeertoWrite v => Sys2Proof.Machine.execXpeertoWrite v s
  | .xlstatClrcnt link => Sys2Proof.Machine.execXlstatClrcnt link s
  | .timetableSkipsClear n v => Sys2Proof.Machine.execTimetableSkipsClear n v s
  | .shutterArm v => Sys2Proof.Machine.execShutterArm v s
  | .qctlStop g => Sys2Proof.Machine.execQctlStop g s
  | .qctlResume g => Sys2Proof.Machine.execQctlResume g s
  | .dstepGo core => Sys2Proof.Machine.execDstepGo core s
  | .registerWrite off v => Sys2Proof.Machine.execRegisterWrite off v s
  | .packetConsume q => Sys2Proof.Machine.execPacketConsume q s
  | .nopPacket q => Sys2Proof.Machine.execNopPacket q s
  | .launch q => Sys2Proof.Machine.execLaunch q s
  | .launchComplete l => Sys2Proof.Machine.execLaunchComplete l s
  | .copy q => Sys2Proof.Machine.execCopy q s
  | .copyPacketComplete q idx => Sys2Proof.Machine.execCopyPacketComplete q idx s
  | .signal q => Sys2Proof.Machine.execSignal q s
  | .wait q => Sys2Proof.Machine.execWait q s
  | .waitPoll q => Sys2Proof.Machine.execWaitPoll q s
  | .timestamp q => Sys2Proof.Machine.execTimestamp q s
  | .teamPlace l => Sys2Proof.Machine.execTeamPlace l s
  | .waveStart w => Sys2Proof.Machine.execWaveStart w s
  | .clauseStart core => Sys2Proof.Machine.execClauseStart core s
  | .longLatencyComplete w => Sys2Proof.Machine.execLongLatencyComplete w s
  | .matrixEnginePerform core => Sys2Proof.Machine.execMatrixEnginePerform core s
  | .vote w => Sys2Proof.Machine.execVote w s
  | .quantumEnd w => Sys2Proof.Machine.execQuantumEnd w s
  | .unpark w => Sys2Proof.Machine.execUnpark w s
  | .waitSatisfied w f => Sys2Proof.Machine.execWaitSatisfied w f s
  | .barrierRelease scope l unit => Sys2Proof.Machine.execBarrierRelease scope l unit s
  | .waveEnd w => Sys2Proof.Machine.execWaveEnd w s
  | .teamEnd t => Sys2Proof.Machine.execTeamEnd t s
  | .trapEntry w => Sys2Proof.Machine.execTrapEntry w s
  | .logApply t => Sys2Proof.Machine.execLogApply t s
  | .ticketRelease l => Sys2Proof.Machine.execTicketRelease l s
  | .commandComplete t tag => Sys2Proof.Machine.execCommandComplete t tag s
  | .cbldComplete t tag => Sys2Proof.Machine.execCbldComplete t tag s
  | .next o => Sys2Proof.Machine.execNext o s
  | .nextc o => Sys2Proof.Machine.execNextc o s
  | .nextm o => Sys2Proof.Machine.execNextm o s
  | .nextx o => Sys2Proof.Machine.execNextx o s
  | .halt o => Sys2Proof.Machine.execHalt o s
  | .yield o => Sys2Proof.Machine.execYield o s
  | .calla o => Sys2Proof.Machine.execCalla o s
  | .reta o => Sys2Proof.Machine.execReta o s
  | .bar o => Sys2Proof.Machine.execBar o s
  | .bara o => Sys2Proof.Machine.execBara o s
  | .barw o => Sys2Proof.Machine.execBarw o s
  | .sadd o => Sys2Proof.Machine.execSadd o s
  | .ssub o => Sys2Proof.Machine.execSsub o s
  | .smul o => Sys2Proof.Machine.execSmul o s
  | .smulh o => Sys2Proof.Machine.execSmulh o s
  | .smulhn o => Sys2Proof.Machine.execSmulhn o s
  | .sand o => Sys2Proof.Machine.execSand o s
  | .sor o => Sys2Proof.Machine.execSor o s
  | .sxor o => Sys2Proof.Machine.execSxor o s
  | .snot o => Sys2Proof.Machine.execSnot o s
  | .sshl o => Sys2Proof.Machine.execSshl o s
  | .sshr o => Sys2Proof.Machine.execSshr o s
  | .ssra o => Sys2Proof.Machine.execSsra o s
  | .smin o => Sys2Proof.Machine.execSmin o s
  | .smax o => Sys2Proof.Machine.execSmax o s
  | .sminn o => Sys2Proof.Machine.execSminn o s
  | .smaxn o => Sys2Proof.Machine.execSmaxn o s
  | .scmp o => Sys2Proof.Machine.execScmp o s
  | .ssel o => Sys2Proof.Machine.execSsel o s
  | .smov o => Sys2Proof.Machine.execSmov o s
  | .sli o => Sys2Proof.Machine.execSli o s
  | .slih o => Sys2Proof.Machine.execSlih o s
  | .sclz o => Sys2Proof.Machine.execSclz o s
  | .spopc o => Sys2Proof.Machine.execSpopc o s
  | .saddc o => Sys2Proof.Machine.execSaddc o s
  | .saddI o => Sys2Proof.Machine.execSaddI o s
  | .ssubI o => Sys2Proof.Machine.execSsubI o s
  | .smulI o => Sys2Proof.Machine.execSmulI o s
  | .sandI o => Sys2Proof.Machine.execSandI o s
  | .sorI o => Sys2Proof.Machine.execSorI o s
  | .sxorI o => Sys2Proof.Machine.execSxorI o s
  | .sshlI o => Sys2Proof.Machine.execSshlI o s
  | .sshrI o => Sys2Proof.Machine.execSshrI o s
  | .ssraI o => Sys2Proof.Machine.execSsraI o s
  | .sminI o => Sys2Proof.Machine.execSminI o s
  | .smaxI o => Sys2Proof.Machine.execSmaxI o s
  | .sminnI o => Sys2Proof.Machine.execSminnI o s
  | .smaxnI o => Sys2Proof.Machine.execSmaxnI o s
  | .scmpI o => Sys2Proof.Machine.execScmpI o s
  | .vadd o => Sys2Proof.Machine.execVadd o s
  | .vsub o => Sys2Proof.Machine.execVsub o s
  | .vmul o => Sys2Proof.Machine.execVmul o s
  | .vmulh o => Sys2Proof.Machine.execVmulh o s
  | .vmulhn o => Sys2Proof.Machine.execVmulhn o s
  | .vmad o => Sys2Proof.Machine.execVmad o s
  | .vadds o => Sys2Proof.Machine.execVadds o s
  | .vsubs o => Sys2Proof.Machine.execVsubs o s
  | .vand o => Sys2Proof.Machine.execVand o s
  | .vor o => Sys2Proof.Machine.execVor o s
  | .vxor o => Sys2Proof.Machine.execVxor o s
  | .vnot o => Sys2Proof.Machine.execVnot o s
  | .vshl o => Sys2Proof.Machine.execVshl o s
  | .vshr o => Sys2Proof.Machine.execVshr o s
  | .vsra o => Sys2Proof.Machine.execVsra o s
  | .vmin o => Sys2Proof.Machine.execVmin o s
  | .vmax o => Sys2Proof.Machine.execVmax o s
  | .vminn o => Sys2Proof.Machine.execVminn o s
  | .vmaxn o => Sys2Proof.Machine.execVmaxn o s
  | .vabs o => Sys2Proof.Machine.execVabs o s
  | .vneg o => Sys2Proof.Machine.execVneg o s
  | .vcmp o => Sys2Proof.Machine.execVcmp o s
  | .vsel o => Sys2Proof.Machine.execVsel o s
  | .vpopc o => Sys2Proof.Machine.execVpopc o s
  | .vclz o => Sys2Proof.Machine.execVclz o s
  | .vbfx o => Sys2Proof.Machine.execVbfx o s
  | .vbfi o => Sys2Proof.Machine.execVbfi o s
  | .vmov o => Sys2Proof.Machine.execVmov o s
  | .vli o => Sys2Proof.Machine.execVli o s
  | .vdot4 o => Sys2Proof.Machine.execVdot4 o s
  | .vfadd o => Sys2Proof.Machine.execVfadd o s
  | .vfsub o => Sys2Proof.Machine.execVfsub o s
  | .vfmul o => Sys2Proof.Machine.execVfmul o s
  | .vfma o => Sys2Proof.Machine.execVfma o s
  | .vfms o => Sys2Proof.Machine.execVfms o s
  | .vfnma o => Sys2Proof.Machine.execVfnma o s
  | .vfmin o => Sys2Proof.Machine.execVfmin o s
  | .vfmax o => Sys2Proof.Machine.execVfmax o s
  | .vfcmp o => Sys2Proof.Machine.execVfcmp o s
  | .vfabs o => Sys2Proof.Machine.execVfabs o s
  | .vfneg o => Sys2Proof.Machine.execVfneg o s
  | .vfcls o => Sys2Proof.Machine.execVfcls o s
  | .vfdot2 o => Sys2Proof.Machine.execVfdot2 o s
  | .vrcp o => Sys2Proof.Machine.execVrcp o s
  | .vrsq o => Sys2Proof.Machine.execVrsq o s
  | .vsqrt o => Sys2Proof.Machine.execVsqrt o s
  | .vdiv o => Sys2Proof.Machine.execVdiv o s
  | .vexp2 o => Sys2Proof.Machine.execVexp2 o s
  | .vlog2 o => Sys2Proof.Machine.execVlog2 o s
  | .vsint o => Sys2Proof.Machine.execVsint o s
  | .vcost o => Sys2Proof.Machine.execVcost o s
  | .vcvt o => Sys2Proof.Machine.execVcvt o s
  | .vcvti o => Sys2Proof.Machine.execVcvti o s
  | .vcvtf o => Sys2Proof.Machine.execVcvtf o s
  | .vpack o => Sys2Proof.Machine.execVpack o s
  | .vunpk o => Sys2Proof.Machine.execVunpk o s
  | .vxpd o => Sys2Proof.Machine.execVxpd o s
  | .vretag o => Sys2Proof.Machine.execVretag o s
  | .vgettag o => Sys2Proof.Machine.execVgettag o s
  | .amaxr o => Sys2Proof.Machine.execAmaxr o s
  | .amaxc o => Sys2Proof.Machine.execAmaxc o s
  | .vshfl o => Sys2Proof.Machine.execVshfl o s
  | .vbal o => Sys2Proof.Machine.execVbal o s
  | .vpfx o => Sys2Proof.Machine.execVpfx o s
  | .vred o => Sys2Proof.Machine.execVred o s
  | .vscan o => Sys2Proof.Machine.execVscan o s
  | .vcmpr o => Sys2Proof.Machine.execVcmpr o s
  | .vrfl o => Sys2Proof.Machine.execVrfl o s
  | .vbcs o => Sys2Proof.Machine.execVbcs o s
  | .mand o => Sys2Proof.Machine.execMand o s
  | .mor o => Sys2Proof.Machine.execMor o s
  | .mxor o => Sys2Proof.Machine.execMxor o s
  | .mnot o => Sys2Proof.Machine.execMnot o s
  | .mpopc o => Sys2Proof.Machine.execMpopc o s
  | .mffs o => Sys2Proof.Machine.execMffs o s
  | .mmov o => Sys2Proof.Machine.execMmov o s
  | .gset o => Sys2Proof.Machine.execGset o s
  | .grd o => Sys2Proof.Machine.execGrd o s
  | .gadv o => Sys2Proof.Machine.execGadv o s
  | .vld o => Sys2Proof.Machine.execVld o s
  | .vst o => Sys2Proof.Machine.execVst o s
  | .vlds o => Sys2Proof.Machine.execVlds o s
  | .vsts o => Sys2Proof.Machine.execVsts o s
  | .sld o => Sys2Proof.Machine.execSld o s
  | .sst o => Sys2Proof.Machine.execSst o s
  | .vatom o => Sys2Proof.Machine.execVatom o s
  | .satom o => Sys2Proof.Machine.execSatom o s
  | .vcstGm o => Sys2Proof.Machine.execVcstGm o s
  | .vcstSp o => Sys2Proof.Machine.execVcstSp o s
  | .ldlGm32 o => Sys2Proof.Machine.execLdlGm32 o s
  | .ldlGm64 o => Sys2Proof.Machine.execLdlGm64 o s
  | .ldlSp32 o => Sys2Proof.Machine.execLdlSp32 o s
  | .ldlSp64 o => Sys2Proof.Machine.execLdlSp64 o s
  | .stc o => Sys2Proof.Machine.execStc o s
  | .lkclr o => Sys2Proof.Machine.execLkclr o s
  | .fence o => Sys2Proof.Machine.execFence o s
  | .fencex o => Sys2Proof.Machine.execFencex o s
  | .splk o => Sys2Proof.Machine.execSplk o s
  | .spset o => Sys2Proof.Machine.execSpset o s
  | .spclr o => Sys2Proof.Machine.execSpclr o s
  | .spget o => Sys2Proof.Machine.execSpget o s
  | .gldGm o => Sys2Proof.Machine.execGldGm o s
  | .gldSp o => Sys2Proof.Machine.execGldSp o s
  | .gstGm o => Sys2Proof.Machine.execGstGm o s
  | .gstSp o => Sys2Proof.Machine.execGstSp o s
  | .mma o => Sys2Proof.Machine.execMma o s
  | .mmaz o => Sys2Proof.Machine.execMmaz o s
  | .mzero o => Sys2Proof.Machine.execMzero o s
  | .mst o => Sys2Proof.Machine.execMst o s
  | .mld o => Sys2Proof.Machine.execMld o s
  | .mrstl o => Sys2Proof.Machine.execMrstl o s
  | .cbwr o => Sys2Proof.Machine.execCbwr o s
  | .cbcfg o => Sys2Proof.Machine.execCbcfg o s
  | .cbinv o => Sys2Proof.Machine.execCbinv o s
  | .cpy o => Sys2Proof.Machine.execCpy o s
  | .cpyn o => Sys2Proof.Machine.execCpyn o s
  | .twany o => Sys2Proof.Machine.execTwany o s
  | .twall o => Sys2Proof.Machine.execTwall o s
  | .tffr o => Sys2Proof.Machine.execTffr o s
  | .tclr o => Sys2Proof.Machine.execTclr o s
  | .htest o => Sys2Proof.Machine.execHtest o s
  | .hwait o => Sys2Proof.Machine.execHwait o s
  | .hcancel o => Sys2Proof.Machine.execHcancel o s
  | .cbld o => Sys2Proof.Machine.execCbld o s
  | .swtrap o => Sys2Proof.Machine.execSwtrap o s
  | .brk o => Sys2Proof.Machine.execBrk o s
  | .eret o => Sys2Proof.Machine.execEret o s
  | .csrr o => Sys2Proof.Machine.execCsrr o s
  | .csrw o => Sys2Proof.Machine.execCsrw o s
  | .icinv o => Sys2Proof.Machine.execIcinv o s
  | .tick o => Sys2Proof.Machine.execTick o s
  | .pmark o => Sys2Proof.Machine.execPmark o s
  | .lacq o => Sys2Proof.Machine.execLacq o s
  | .lrel o => Sys2Proof.Machine.execLrel o s
  | .tkwait o => Sys2Proof.Machine.execTkwait o s
  | .tkrel o => Sys2Proof.Machine.execTkrel o s
  | .pcieLinkUp link => Sys2Proof.Machine.execPcieLinkUp link s
  | .packageReset => Sys2Proof.Machine.execPackageReset s
  | .ppsEdge => Sys2Proof.Machine.execPpsEdge s
  | .launchRestart => Sys2Proof.Machine.execLaunchRestart s
  | .peerTimeout => Sys2Proof.Machine.execPeerTimeout s
  | .attestation => Sys2Proof.Machine.execAttestation s
  | .sensors => Sys2Proof.Machine.execSensors s
  | .moduleReset => Sys2Proof.Machine.execModuleReset s
  | .wicketPackageReset => Sys2Proof.Machine.execWicketPackageReset s
  | .repairRead => Sys2Proof.Machine.execRepairRead s
  | .shutterNow => Sys2Proof.Machine.execShutterNow s
  | .shutterGate => Sys2Proof.Machine.execShutterGate s
  | .shutterUngate => Sys2Proof.Machine.execShutterUngate s
  | .shutterData => Sys2Proof.Machine.execShutterData s
  | .waitTimeout => Sys2Proof.Machine.execWaitTimeout s
  | .ctxCreate => Sys2Proof.Machine.execCtxCreate s
  | .ctxDestroy => Sys2Proof.Machine.execCtxDestroy s
  | .queueCreate => Sys2Proof.Machine.execQueueCreate s
  | .queueDestroy => Sys2Proof.Machine.execQueueDestroy s
  | .setRange => Sys2Proof.Machine.execSetRange s
  | .setPtbase => Sys2Proof.Machine.execSetPtbase s
  | .setAperture => Sys2Proof.Machine.execSetAperture s
  | .preempt => Sys2Proof.Machine.execPreempt s
  | .preemptResume => Sys2Proof.Machine.execPreemptResume s
  | .preemptDrained => Sys2Proof.Machine.execPreemptDrained s
  | .drainLimit => Sys2Proof.Machine.execDrainLimit s
  | .timetableSet => Sys2Proof.Machine.execTimetableSet s
  | .timeSet => Sys2Proof.Machine.execTimeSet s
  | .timeOffset => Sys2Proof.Machine.execTimeOffset s
  | .timeRate => Sys2Proof.Machine.execTimeRate s
  | .setAtPps => Sys2Proof.Machine.execSetAtPps s
  | .icinvBroadcast => Sys2Proof.Machine.execIcinvBroadcast s
  | .traceConfig => Sys2Proof.Machine.execTraceConfig s
  | .retry => Sys2Proof.Machine.execRetry s
  | .faultReplyTrap => Sys2Proof.Machine.execFaultReplyTrap s
  | .kill => Sys2Proof.Machine.execKill s
  | .releaseCore => Sys2Proof.Machine.execReleaseCore s
  | .faultRecordWrite => Sys2Proof.Machine.execFaultRecordWrite s
  | .timetableSlot => Sys2Proof.Machine.execTimetableSlot s
  | .timetableDeferredStart => Sys2Proof.Machine.execTimetableDeferredStart s
  | .arbiterServe => Sys2Proof.Machine.execArbiterServe s
  | .gangPlace => Sys2Proof.Machine.execGangPlace s
  | .aging => Sys2Proof.Machine.execAging s
  | .histSample => Sys2Proof.Machine.execHistSample s
  | .histFlush => Sys2Proof.Machine.execHistFlush s
  | .nop => Sys2Proof.Machine.execNop s

end Sys2Proof.Machine
end

