-- ==== Sys2Proof/Machine/Agenda.lean ====
section
/-! DEFINITION. What happens next: the moves that the package itself may make, fetching an instruction of a wave's clause, and the
passing of time (R23, R61, R68, R88, R200, R202, R209). -/

namespace Sys2Proof.Machine

/-! ### One instruction of a wave (R217, R222) -/

/-- A wave stands inside a clause and may issue. -/
def State.issues (s : State) (w : Wave) : Bool := s.moves w && w.stage == .issue

/-- The word at a wave's position. -/
def Wave.word? (w : Wave) : Option (Clause × DWord) :=
  match w.clause with
  | some cl => if w.pos < cl.count then (cl.words[w.pos]?).map fun x => (cl, x) else none
  | none => none

/-- A word that is no instruction of its clause: ILLOP (R222). -/
def State.illegal (s : State) (w : Wave) (x : Illegal) : State :=
  s.raise w { illop (match x with | .cls => 2 | _ => 1) with pos := w.pos }

/-- A wave's next instruction: its word is decoded in the class of its clause and issued. A wave that may not issue does nothing. -/
def issueWave (k : Nat) (s : State) : Host.Outcome State Fault Refusal :=
  match s.wave? k with
  | none => .next s
  | some w =>
    if s.issues w then
      match w.word? with
      | none => .next s
      | some (cl, x) =>
        match decodeIn cl.cls x with
        | .ok i => exec i { s with cur := some k }
        | .error e => .next (s.illegal w e)
    else .next s

/-- One move. -/
def runMove (s : State) : Move → Host.Outcome State Fault Refusal
  | .wave k => issueWave k s
  | .ev i => exec i s

/-! ### The moves that may come next -/

/-- Moves of a wave. -/
def Wave.moves (w : Wave) : List Move :=
  [.wave w.key, .ev (.waveStart w.key), .ev (.longLatencyComplete w.key), .ev (.vote w.key), .ev (.quantumEnd w.key),
    .ev (.unpark w.key), .ev (.waveEnd w.key), .ev (.trapEntry w.key)]
  ++ (List.range w.frags.length).map fun f => .ev (.waitSatisfied w.key f)

/-- Moves of a team: its end, its log, and its commands. -/
def Team.moves (t : Team) : List Move :=
  [.ev (.teamEnd t.key), .ev (.logApply t.key), .ev (.barrierRelease .core t.launch t.key)]
  ++ t.cmds.flatMap fun c => [.ev (.commandComplete t.key c.tag), .ev (.cbldComplete t.key c.tag)]

/-- Moves of a launch: placement, tickets, barriers wider than a core, and its end. -/
def Launch.moves (l : Launch) (cores : List Nat) : List Move :=
  [.ev (.teamPlace l.key), .ev (.ticketRelease l.key), .ev (.launchComplete l.key), .ev (.barrierRelease .pkg l.key 0),
    .ev (.barrierRelease .pod l.key 0)]
  ++ cores.flatMap fun c => [.ev (.barrierRelease .quad l.key (quadOf c)), .ev (.barrierRelease .die l.key (dieOf c))]

/-- Moves of a queue. -/
def Queue.moves (q : Queue) : List Move :=
  [.ev (.packetConsume q.id), .ev (.nopPacket q.id), .ev (.launch q.id), .ev (.copy q.id), .ev (.signal q.id), .ev (.wait q.id),
    .ev (.waitPoll q.id), .ev (.timestamp q.id)]

/-- Moves that name nothing: of the admin queue, the arbiter, the timetable, the trace. -/
def packageMoves : List Move :=
  [.ev .launchRestart, .ev .peerTimeout, .ev .waitTimeout, .ev .ctxCreate, .ev .ctxDestroy, .ev .queueCreate, .ev .queueDestroy,
    .ev .setRange, .ev .setPtbase, .ev .setAperture, .ev .preempt, .ev .preemptResume, .ev .preemptDrained, .ev .drainLimit,
    .ev .timetableSet, .ev .timeSet, .ev .timeOffset, .ev .timeRate, .ev .setAtPps, .ev .icinvBroadcast, .ev .traceConfig, .ev .retry,
    .ev .faultReplyTrap, .ev .kill, .ev .releaseCore, .ev .faultRecordWrite, .ev .timetableSlot, .ev .timetableDeferredStart,
    .ev .arbiterServe, .ev .gangPlace, .ev .aging, .ev .histSample, .ev .histFlush]

/-- Rows that the memory controllers retire (R12). -/
def State.rowMoves (s : State) : List Move :=
  if !s.running then []
  else s.rowEvents.filterMap fun e =>
    if 16 < s.eventsOf e.2.1 e.2.2.1 e.2.2.2 then some (.ev (.rowRetire (Fin.ofNat 4 e.2.1) e.2.2.1 e.2.2.2)) else none

/-- Cores that hold a team. -/
def State.coresUsed (s : State) : List Nat := (s.teams.filterMap fun t => t.core).eraseDups

/-- The moves that the package may make of itself; before its reset sequence has run, that sequence (R65). A move whose conditions do
not hold changes nothing. What the outside world does comes through the agenda alone. -/
def State.candidates (s : State) : List Move :=
  if !s.ready then (if s.dead then [] else [.ev .packageReset])
  else
    packageMoves ++ s.rowMoves ++ s.waves.flatMap Wave.moves ++ s.teams.flatMap Team.moves ++ s.launches.flatMap (·.moves s.coresUsed)
    ++ s.queues.flatMap Queue.moves ++ s.copies.map (fun k => .ev (.copyPacketComplete k.queue k.idx))
    ++ s.coresUsed.flatMap fun c => [.ev (.clauseStart c), .ev (.matrixEnginePerform c)]

/-- The next move: the Shutter's gate when it is due (R202), else the agenda's oldest, else a free choice. (DESIGN CHOICE: log 1, 2) -/
def State.pickMove (s : State) : Option Move × State :=
  if s.gateDue then (some (.ev .shutterGate), s)
  else match s.agenda with
    | m :: r => (some m, { s with agenda := r })
    | [] => (s.candidates[Config.choose s.nondet % s.candidates.length]?, { s with nondet := s.nondet + 1 })

/-! ### Time (R61, R68, R88, R200, R202, R209) -/

/-- The ticks of a step: none past an armed gating tick, and one when the gate comes at the next tick (R201, R202).
(DESIGN CHOICE: log 4) -/
def State.ticks (s : State) : Nat :=
  let d := Config.elapsed s.nondet
  if s.gated then d
  else if s.shutNow then 1
  else if s.shutArm then (if s.shutTick.toNat ≤ s.tick then 1 else min d (s.shutTick.toNat - s.tick))
  else d

/-- A context's drain limit does not run while a wave of it is stopped (R209). -/
def State.drains (s : State) (c : Ctx) : Bool :=
  !s.waves.any fun w => w.place.isSome && (s.quad (quadOf w.coreNo)).stopped && (match s.team? w.team with
    | some t => t.ctx == c.id
    | none => false)

/-- What a tick adds to the time-of-day counter, in units of 2^-32 ns: 10/11 ns, adjusted by the frequency offset, rounded down or up
(R3, R61). (DESIGN CHOICE: log 4) -/
def taiStep (rate : DWord) : Nat :=
  (10 * 2 ^ 32 * (10 ^ 9 * 65536 + rate.toInt) / (11 * 10 ^ 9 * 65536)).toNat + (if Config.taiRound rate then 1 else 0)

/-- Rows of the first tier that had a correctable event, with the tick (R11, R12). -/
def State.correctedRows (s : State) (tick : Nat) : List (Nat × Nat × Nat × Nat) :=
  ((Config.correctable s.nondet).filter fun r => decide (r.1 < Config.dies)).map fun r => (tick, r)

/-- Time passes: steps that cannot go on end, and writes become visible. Drain limits, the clock of timeouts, aging and waves' ages stand
still while the package is gated (R94, R202). -/
def State.elapse (s : State) : State :=
  let s := s.endSteps.settleWrites
  let d := s.ticks
  let s' := { s with
    cur := none, rewrote := [], nondet := s.nondet + 1, tick := s.tick + d, tai := s.tai + d * taiStep s.taiRate }
  if s.gated then { s' with histLast := s.histGated (s.tick + d) }
  else { s' with
    clock := s.clock + d
    rowEvents := (s.rowEvents.filter fun e => decide (s.tick + d < e.1 + Config.ticksPerDay)) ++ s.correctedRows (s.tick + d)
    corrected := s.corrected + (s.correctedRows 0).length + Config.corrections s.nondet
    waves := s.waves.map fun w => s.aged w d
    ctxs := s.ctxs.map fun c => match c.preempt with
      | some p => if s.drains c then { c with preempt := some { p with left := p.left - d } } else c
      | none => c
    queues := s.queues.map fun q => if s.offers q.id then { q with unserved := q.unserved + d } else { q with unserved := 0 } }

/-- What a move comes to, with the time it takes. -/
def andElapse : Host.Outcome State Fault Refusal → Host.Outcome State Fault Refusal
  | .next s => .next s.elapse
  | .fault f => .fault f
  | .refused r => .refused r

/-! ### A wave that stands before one instruction -/

/-- The class of the clause that a word stands in. -/
def wordCls (x : DWord) : Cls := if wordOp x = 0 then .vec else opCls (wordOp x)

/-- The launch packet of a launch of one team of one wave, with every resource of a core. -/
def soloPkt : LaunchPkt :=
  { image := 0, args := 0, sigaddr := 0, sigval := 0, teams := 1, spbytes := 0x100000, waves := 1, lanes := 64, ntags := 64, ntiles := 16
    nbanks := 8, mode := 0, latch := false, co := false, affinity := false, idem := false, logsz := 0, id := 0, podgrp := 0 }

/-- A context of no ranges. -/
def soloCtx : Ctx := { id := 0, pasid := 0, mem := 0, trapImg := 0, trapPolicy := true, checked := false, drain := 100, q := 8, p := 4 }

/-- The header of an image of one block. -/
def soloHeader : Header :=
  { nblocks := 1, entry := 0, nstates := 1, nrestart := 0, blocktab := 128, statetab := 160, index := 176, restart := 0, code := 256
    codebytes := 128, pool := 0, poolbytes := 0, size := 384 }

/-- A clause of one word, the last of its state. -/
def soloClause (x : DWord) : Clause := { off := 256, cls := wordCls x, count := 1, e := true, k := false, words := [x] }

/-- A wave on slot 0 of core 0, alone in its team and launch, standing inside a clause whose one word is `x`, whose turn is next. -/
def State.beforeWord (s : State) (x : DWord) : State :=
  let k := s.fresh
  let c := (s.ctx? 0).getD soloCtx
  let l : Launch := { key := k, ctx := 0, queue := 0, idx := 0, tt := none, p := soloPkt, next := 1 }
  let t : Team :=
    { key := k + 1, launch := k, ctx := 0, tix := 0, core := some 0, slots := [0], tiles := List.replicate 16 {}
      banks := List.replicate 8 {} }
  let w : Wave :=
    { key := k + 2, team := k + 1, wid := 0, place := some 0, hdr := some soloHeader
      frags := [{ mask := ones64, cp := 256, state := 0, blocks := [0] }], stage := .issue, clause := some (soloClause x) }
  { s with
    ready := true, dead := false, gated := false, shutNow := false, shutArm := false, fresh := k + 3, agenda := [.wave (k + 2)]
    ctxs := lput s.ctxs (fun y => y.id == 0) c, launches := s.launches ++ [l], teams := s.teams ++ [t], waves := s.waves ++ [w]
    quads := s.quads.map fun q => if q.id = 0 then { q with stopped := false } else q }

end Sys2Proof.Machine
end

