-- ==== Sys2Proof/Machine/Step.lean ====
section
/-! DEFINITION. One step of the machine. -/

namespace Sys2Proof.Machine

/-- One step: the next move, then the time it takes; with no move, time passes. -/
def step (s : State) : Host.Outcome State Fault Refusal :=
  match s.pickMove with
  | (some m, s') => andElapse (runMove s' m)
  | (none, s') => .next s'.elapse

/-- The state with the instruction of a table word where the next step fetches: the word of a clause in progress, of a wave whose
turn it is. (DESIGN CHOICE: log 5) -/
def State.withFetchWord (s : State) (nbits w : Nat) : State := s.beforeWord (BitVec.ofNat 64 (w % 2 ^ nbits))

end Sys2Proof.Machine
end

