-- ==== Sys2Proof/Laws/Bits.lean ====
section
/-! SUPPORT. Fields of a word read back what was laid out (R221, R223, R224, R228, R297, R329), for each format. -/

namespace Sys2Proof

/-- A field above the lower part of an append. -/
theorem ext_hi {m n : Nat} (x : BitVec m) (y : BitVec n) (i k : Nat) (h : n ≤ i) :
    (x ++ y).extractLsb' i k = x.extractLsb' (i - n) k := by
  apply BitVec.eq_of_getLsbD_eq; intro j hj
  have : ¬ i + j < n := by omega
  simp [BitVec.getLsbD_append, this, hj]; congr 1; omega

/-- A field within the lower part of an append. -/
theorem ext_lo {m n : Nat} (x : BitVec m) (y : BitVec n) (i k : Nat) (h : i + k ≤ n) :
    (x ++ y).extractLsb' i k = y.extractLsb' i k := by
  apply BitVec.eq_of_getLsbD_eq; intro j hj
  have : i + j < n := by omega
  simp [BitVec.getLsbD_append, this, hj]

/-- The field that is the whole. -/
theorem ext_self {n : Nat} (x : BitVec n) : x.extractLsb' 0 n = x := by
  apply BitVec.eq_of_getLsbD_eq; intro j hj; simp [hj]

/-- The fields of FR read back. -/
@[simp] theorem FR.of_bits (r : FR) : FR.of r.bits = r := by
  cases r
  simp (disch := omega) only [FR.of, FR.bits, ext_hi, ext_lo, Nat.reduceSub, ext_self]

/-- The fields of FI read back. -/
@[simp] theorem FI.of_bits (r : FI) : FI.of r.bits = r := by
  cases r
  simp (disch := omega) only [FI.of, FI.bits, ext_hi, ext_lo, Nat.reduceSub, ext_self]

/-- The fields of FM read back. -/
@[simp] theorem FM.of_bits (r : FM) : FM.of r.bits = r := by
  cases r
  simp (disch := omega) only [FM.of, FM.bits, ext_hi, ext_lo, Nat.reduceSub, ext_self]

/-- The fields of FX read back. -/
@[simp] theorem FX.of_bits (r : FX) : FX.of r.bits = r := by
  cases r
  simp (disch := omega) only [FX.of, FX.bits, ext_hi, ext_lo, Nat.reduceSub, ext_self]

/-- The fields of FK read back. -/
@[simp] theorem FK.of_bits (r : FK) : FK.of r.bits = r := by
  cases r
  simp (disch := omega) only [FK.of, FK.bits, ext_hi, ext_lo, Nat.reduceSub, ext_self]

/-- The fields of FB read back. -/
@[simp] theorem FB.of_bits (r : FB) : FB.of r.bits = r := by
  cases r
  simp (disch := omega) only [FB.of, FB.bits, ext_hi, ext_lo, Nat.reduceSub, ext_self]

/-- The fields of FC read back. -/
@[simp] theorem FC.of_bits (r : FC) : FC.of r.bits = r := by
  cases r
  simp (disch := omega) only [FC.of, FC.bits, ext_hi, ext_lo, Nat.reduceSub, ext_self]

/-- The fields of FS read back. -/
@[simp] theorem FS.of_bits (r : FS) : FS.of r.bits = r := by
  cases r
  simp (disch := omega) only [FS.of, FS.bits, ext_hi, ext_lo, Nat.reduceSub, ext_self]

/-- The fields of Ext read back. -/
@[simp] theorem Ext.of_bits (e : Ext) : Ext.of e.bits = e := by
  cases e
  simp (disch := omega) only [Ext.of, Ext.bits, ext_hi, ext_lo, Nat.reduceSub, ext_self]

end Sys2Proof
end

