-- ==== Sys2Proof/Laws/Codes.lean ====
section
/-! SUPPORT. Codes of operands and register numbers read back as what they name (R177, R225, R229, R231). -/

namespace Sys2Proof

@[simp] theorem Tag.ofBits_bits (x : Tag) : Tag.ofBits x.bits = some x := by cases x <;> rfl
@[simp] theorem Rnd.ofBits_bits (x : Rnd) : Rnd.ofBits x.bits = some x := by cases x <;> rfl
@[simp] theorem NCond.ofBits_bits (x : NCond) : NCond.ofBits x.bits = some x := by cases x <;> rfl
@[simp] theorem SCond.ofBits_bits (x : SCond) : SCond.ofBits x.bits = some x := by cases x <;> rfl
@[simp] theorem VCond.ofBits_bits (x : VCond) : VCond.ofBits x.bits = some x := by cases x <;> rfl
@[simp] theorem FCond.ofBits_bits (x : FCond) : FCond.ofBits x.bits = some x := by cases x <;> rfl
@[simp] theorem ROp.ofBits_bits (x : ROp) : ROp.ofBits x.bits = some x := by cases x <;> rfl
@[simp] theorem Scope.ofBits_bits (x : Scope) : Scope.ofBits x.bits = some x := by cases x <;> rfl
@[simp] theorem IScope.ofBits_bits (x : IScope) : IScope.ofBits x.bits = some x := by cases x <;> rfl
@[simp] theorem Order.ofBits_bits (x : Order) : Order.ofBits x.bits = some x := by cases x <;> rfl
@[simp] theorem Space.ofBits_bits (x : Space) : Space.ofBits x.bits = some x := by cases x <;> rfl
@[simp] theorem AOp.ofBits_bits (x : AOp) : AOp.ofBits x.bits = some x := by cases x <;> rfl
@[simp] theorem Half.ofBits_bits (x : Half) : Half.ofBits x.bits = some x := by cases x <;> rfl
@[simp] theorem GField.ofBits_bits (x : GField) : GField.ofBits x.bits = some x := by cases x <;> rfl
@[simp] theorem VW.ofBits_bits (x : VW) : VW.ofBits x.bits = some x := by cases x <;> rfl
@[simp] theorem SLdW.ofBits_bits (x : SLdW) : SLdW.ofBits x.bits = some x := by cases x <;> rfl
@[simp] theorem SStW.ofBits_bits (x : SStW) : SStW.ofBits x.bits = some x := by cases x <;> rfl
@[simp] theorem Cls.ofBits_bits (x : Cls) : Cls.ofBits x.bits = some x := by cases x <;> rfl
@[simp] theorem LdTy.ofBits_bits (x : LdTy) : LdTy.ofBits x.bits = some x := by rcases x with (_ | _ | _ | _ | _) <;> (try rename_i t; cases t) <;> rfl
set_option maxRecDepth 8000 in
@[simp] theorem vreg_read (n : VReg) : vregOfBits (vregBits n) = some n := by revert n; decide
set_option maxRecDepth 8000 in
@[simp] theorem sreg_read (n : SReg) : sregOfBits (sregBits n) = some n := by revert n; decide
set_option maxRecDepth 8000 in
@[simp] theorem greg_read (n : Fin 8) : gregOfBits (gregBits n) = some n := by revert n; decide
set_option maxRecDepth 8000 in
@[simp] theorem hreg_read (n : Fin 16) : hregOfBits (hregBits n) = some n := by revert n; decide
set_option maxRecDepth 8000 in
@[simp] theorem VSrc.ofBits_bits (x : VSrc) : VSrc.ofBits x.bits = some x := by
  rcases x with _ | _ <;> first | rfl | (rename_i n; revert n; decide)
set_option maxRecDepth 8000 in
@[simp] theorem VDst.ofBits_bits (x : VDst) : VDst.ofBits x.bits = some x := by
  rcases x with _ | _ <;> first | rfl | (rename_i n; revert n; decide)
set_option maxRecDepth 8000 in
@[simp] theorem SSrc.ofBits_bits (x : SSrc) : SSrc.ofBits x.bits = some x := by
  rcases x with _ | _ <;> first | rfl | (rename_i n; revert n; decide)
set_option maxRecDepth 8000 in
@[simp] theorem SDst.ofBits_bits (x : SDst) : SDst.ofBits x.bits = some x := by
  rcases x with _ | _ <;> first | rfl | (rename_i n; revert n; decide)
@[simp] theorem MSrc.ofBits_bits (x : MSrc) : MSrc.ofBits x.bits = some x := by
  rcases x with _ | _ <;> first | rfl | (rename_i n; revert n; decide)
@[simp] theorem MDst.ofBits_bits (x : MDst) : MDst.ofBits x.bits = some x := by
  rcases x with _ | _ <;> first | rfl | (rename_i n; revert n; decide)
set_option maxRecDepth 8000 in
@[simp] theorem MSSrc.ofBits_bits (x : MSSrc) : MSSrc.ofBits x.bits = some x := by
  rcases x with n | y
  · revert n; decide
  · rcases y <;> first | rfl | (rename_i n; revert n; decide)
set_option maxRecDepth 8000 in
@[simp] theorem MSDst.ofBits_bits (x : MSDst) : MSDst.ofBits x.bits = some x := by
  rcases x with n | y
  · revert n; decide
  · rcases y <;> first | rfl | (rename_i n; revert n; decide)
set_option maxRecDepth 8000 in
@[simp] theorem SZ.ofBits_bits (x : SZ) : SZ.ofBits x.bits = some x := by
  rcases x with _ | _ <;> first | rfl | (rename_i n; revert n; decide)
set_option maxRecDepth 8000 in
@[simp] theorem MIdx.ofBits_bits (x : MIdx) : MIdx.ofBits x.bits = some x := by
  rcases x with _ | _ <;> first | rfl | (rename_i n; revert n; decide)

set_option maxRecDepth 8000 in
@[simp] theorem mreg_read (n : Fin 8) : mregOfBits (mregBits n) = some n := by revert n; decide

set_option maxRecDepth 8000 in
theorem PCode.ofBits_bits (x : PCode) : PCode.ofBits x.bits = some x ∧ x.bits.toNat ≠ 0 := by
  rcases x with n | n | _ | n <;> first | (revert n; decide) | decide

@[simp] theorem Perm.ofBits_bits (x : Perm) : Perm.ofBits x.psel x.bits = some x := by
  rcases x with _ | p | p | p
  · rfl
  all_goals
    obtain ⟨h, h0⟩ := PCode.ofBits_bits p
    simp [Perm.ofBits, Perm.psel, Perm.bits, h, h0]

@[simp] theorem ofFin_toFin {n : Nat} (x : BitVec n) : BitVec.ofFin x.toFin = x := rfl
@[simp] theorem toFin_ofFin {n : Nat} (x : Fin (2 ^ n)) : (BitVec.ofFin x).toFin = x := rfl

end Sys2Proof
end

