-- ==== Sys2Proof/Laws/Shapes.lean ====
section
/-! SUPPORT. Operands of each shape read back from the fields they are laid out in. -/

namespace Sys2Proof

@[simp] theorem must_bind {α : Type} (b : Bool) (x : Option α) : (must b >>= fun _ => x) = if b then x else none := by
  cases b <;> rfl

@[simp] theorem bit1_ofBool (b : Bool) : bit1 (BitVec.ofBool b) = b := by cases b <;> rfl

@[simp] theorem Bare.ofC_wordC (o : Bare) : Bare.ofC o.wordC = some o := by
  cases o
  simp (disch := omega) only [Bare.ofC, Bare.wordC, MAddr.of, Ord.of, Ext.of_bits, ext_hi, ext_lo, Nat.reduceSub, ext_self, AOp.field]
  simp [must, Ext.selOnly, FR.noMod, FM.spTab]

@[simp] theorem Bare.ofM_wordM (o : Bare) : Bare.ofM o.wordM = some o := by
  cases o
  simp (disch := omega) only [Bare.ofM, Bare.wordM, MAddr.of, Ord.of, Ext.of_bits, ext_hi, ext_lo, Nat.reduceSub, ext_self, AOp.field]
  simp [must, Ext.selOnly, FR.noMod, FM.spTab]

@[simp] theorem Bare.ofS_wordS (o : Bare) : Bare.ofS o.wordS = some o := by
  cases o
  simp (disch := omega) only [Bare.ofS, Bare.wordS, MAddr.of, Ord.of, Ext.of_bits, ext_hi, ext_lo, Nat.reduceSub, ext_self, AOp.field]
  simp [must, Ext.selOnly, FR.noMod, FM.spTab]

@[simp] theorem Next.of_word (o : Next) : Next.of o.word = some o := by
  cases o
  simp (disch := omega) only [Next.of, Next.word, MAddr.of, Ord.of, Ext.of_bits, ext_hi, ext_lo, Nat.reduceSub, ext_self, AOp.field]
  simp [must, Ext.selOnly, FR.noMod, FM.spTab]

@[simp] theorem NextC.of_word (o : NextC) : NextC.of o.word = some o := by
  cases o
  simp (disch := omega) only [NextC.of, NextC.word, MAddr.of, Ord.of, Ext.of_bits, ext_hi, ext_lo, Nat.reduceSub, ext_self, AOp.field]
  simp [must, Ext.selOnly, FR.noMod, FM.spTab]

@[simp] theorem NextM.of_word (o : NextM) : NextM.of o.word = some o := by
  cases o
  simp (disch := omega) only [NextM.of, NextM.word, MAddr.of, Ord.of, Ext.of_bits, ext_hi, ext_lo, Nat.reduceSub, ext_self, AOp.field]
  simp [must, Ext.selOnly, FR.noMod, FM.spTab]

@[simp] theorem NextX.of_word (o : NextX) : NextX.of o.word = some o := by
  cases o
  simp (disch := omega) only [NextX.of, NextX.word, MAddr.of, Ord.of, Ext.of_bits, ext_hi, ext_lo, Nat.reduceSub, ext_self, AOp.field]
  simp [must, Ext.selOnly, FR.noMod, FM.spTab]

@[simp] theorem CallA.of_word (o : CallA) : CallA.of o.word = some o := by
  cases o
  simp (disch := omega) only [CallA.of, CallA.word, MAddr.of, Ord.of, Ext.of_bits, ext_hi, ext_lo, Nat.reduceSub, ext_self, AOp.field]
  simp [must, Ext.selOnly, FR.noMod, FM.spTab]

@[simp] theorem Bar.of_word (o : Bar) : Bar.of o.word = some o := by
  cases o
  simp (disch := omega) only [Bar.of, Bar.word, MAddr.of, Ord.of, Ext.of_bits, ext_hi, ext_lo, Nat.reduceSub, ext_self, AOp.field]
  simp [must, Ext.selOnly, FR.noMod, FM.spTab]

@[simp] theorem S1.of_word (o : S1) : S1.of o.word = some o := by
  cases o
  simp (disch := omega) only [S1.of, S1.word, MAddr.of, Ord.of, Ext.of_bits, ext_hi, ext_lo, Nat.reduceSub, ext_self, AOp.field]
  simp [must, Ext.selOnly, FR.noMod, FM.spTab]

@[simp] theorem S2.of_word (o : S2) : S2.of o.word = some o := by
  cases o
  simp (disch := omega) only [S2.of, S2.word, MAddr.of, Ord.of, Ext.of_bits, ext_hi, ext_lo, Nat.reduceSub, ext_self, AOp.field]
  simp [must, Ext.selOnly, FR.noMod, FM.spTab]

@[simp] theorem S3.of_word (o : S3) : S3.of o.word = some o := by
  cases o
  simp (disch := omega) only [S3.of, S3.word, MAddr.of, Ord.of, Ext.of_bits, ext_hi, ext_lo, Nat.reduceSub, ext_self, AOp.field]
  simp [must, Ext.selOnly, FR.noMod, FM.spTab]

@[simp] theorem SCmp.of_word (o : SCmp) : SCmp.of o.word = some o := by
  cases o
  simp (disch := omega) only [SCmp.of, SCmp.word, MAddr.of, Ord.of, Ext.of_bits, ext_hi, ext_lo, Nat.reduceSub, ext_self, AOp.field]
  simp [must, Ext.selOnly, FR.noMod, FM.spTab]

@[simp] theorem SI.of_word (o : SI) : SI.of o.word = some o := by
  cases o
  simp (disch := omega) only [SI.of, SI.word, MAddr.of, Ord.of, Ext.of_bits, ext_hi, ext_lo, Nat.reduceSub, ext_self, AOp.field]
  simp [must, Ext.selOnly, FR.noMod, FM.spTab]

@[simp] theorem SCmpI.of_word (o : SCmpI) : SCmpI.of o.word = some o := by
  cases o
  simp (disch := omega) only [SCmpI.of, SCmpI.word, MAddr.of, Ord.of, Ext.of_bits, ext_hi, ext_lo, Nat.reduceSub, ext_self, AOp.field]
  simp [must, Ext.selOnly, FR.noMod, FM.spTab]

@[simp] theorem SLi.of_word (o : SLi) : SLi.of o.word = some o := by
  cases o
  simp (disch := omega) only [SLi.of, SLi.word, MAddr.of, Ord.of, Ext.of_bits, ext_hi, ext_lo, Nat.reduceSub, ext_self, AOp.field]
  simp [must, Ext.selOnly, FR.noMod, FM.spTab]

@[simp] theorem V1.of_word (o : V1) : V1.of o.word = some o := by
  cases o
  simp (disch := omega) only [V1.of, V1.word, MAddr.of, Ord.of, Ext.of_bits, ext_hi, ext_lo, Nat.reduceSub, ext_self, AOp.field]
  simp [must, Ext.selOnly, FR.noMod, FM.spTab]

@[simp] theorem V2.of_word (o : V2) : V2.of o.word = some o := by
  cases o
  simp (disch := omega) only [V2.of, V2.word, MAddr.of, Ord.of, Ext.of_bits, ext_hi, ext_lo, Nat.reduceSub, ext_self, AOp.field]
  simp [must, Ext.selOnly, FR.noMod, FM.spTab]

@[simp] theorem V3.of_word (o : V3) : V3.of o.word = some o := by
  cases o
  simp (disch := omega) only [V3.of, V3.word, MAddr.of, Ord.of, Ext.of_bits, ext_hi, ext_lo, Nat.reduceSub, ext_self, AOp.field]
  simp [must, Ext.selOnly, FR.noMod, FM.spTab]

@[simp] theorem VCmp.of_word (o : VCmp) : VCmp.of o.word = some o := by
  cases o
  simp (disch := omega) only [VCmp.of, VCmp.word, MAddr.of, Ord.of, Ext.of_bits, ext_hi, ext_lo, Nat.reduceSub, ext_self, AOp.field]
  simp [must, Ext.selOnly, FR.noMod, FM.spTab]

@[simp] theorem VFCmp.of_word (o : VFCmp) : VFCmp.of o.word = some o := by
  cases o
  simp (disch := omega) only [VFCmp.of, VFCmp.word, MAddr.of, Ord.of, Ext.of_bits, ext_hi, ext_lo, Nat.reduceSub, ext_self, AOp.field]
  simp [must, Ext.selOnly, FR.noMod, FM.spTab]

@[simp] theorem VSel.of_word (o : VSel) : VSel.of o.word = some o := by
  cases o
  simp (disch := omega) only [VSel.of, VSel.word, MAddr.of, Ord.of, Ext.of_bits, ext_hi, ext_lo, Nat.reduceSub, ext_self, AOp.field]
  simp [must, Ext.selOnly, FR.noMod, FM.spTab]

@[simp] theorem VLi.of_word (o : VLi) : VLi.of o.word = some o := by
  cases o
  simp (disch := omega) only [VLi.of, VLi.word, MAddr.of, Ord.of, Ext.of_bits, ext_hi, ext_lo, Nat.reduceSub, ext_self, AOp.field]
  simp [must, Ext.selOnly, FR.noMod, FM.spTab]

@[simp] theorem VCvt.of_word (o : VCvt) : VCvt.of o.word = some o := by
  cases o
  simp (disch := omega) only [VCvt.of, VCvt.word, MAddr.of, Ord.of, Ext.of_bits, ext_hi, ext_lo, Nat.reduceSub, ext_self, AOp.field]
  simp [must, Ext.selOnly, FR.noMod, FM.spTab]

@[simp] theorem Vxpd.of_word (o : Vxpd) : Vxpd.of o.word = some o := by
  cases o
  simp (disch := omega) only [Vxpd.of, Vxpd.word, MAddr.of, Ord.of, Ext.of_bits, ext_hi, ext_lo, Nat.reduceSub, ext_self, AOp.field]
  simp [must, Ext.selOnly, FR.noMod, FM.spTab]

@[simp] theorem VToS.of_word (o : VToS) : VToS.of o.word = some o := by
  cases o
  simp (disch := omega) only [VToS.of, VToS.word, MAddr.of, Ord.of, Ext.of_bits, ext_hi, ext_lo, Nat.reduceSub, ext_self, AOp.field]
  simp [must, Ext.selOnly, FR.noMod, FM.spTab]

@[simp] theorem AmaxR.of_word (o : AmaxR) : AmaxR.of o.word = some o := by
  cases o
  simp (disch := omega) only [AmaxR.of, AmaxR.word, MAddr.of, Ord.of, Ext.of_bits, ext_hi, ext_lo, Nat.reduceSub, ext_self, AOp.field]
  simp [must, Ext.selOnly, FR.noMod, FM.spTab]

@[simp] theorem AmaxC.of_word (o : AmaxC) : AmaxC.of o.word = some o := by
  cases o
  simp (disch := omega) only [AmaxC.of, AmaxC.word, MAddr.of, Ord.of, Ext.of_bits, ext_hi, ext_lo, Nat.reduceSub, ext_self, AOp.field]
  simp [must, Ext.selOnly, FR.noMod, FM.spTab]

@[simp] theorem VM.of_word (o : VM) : VM.of o.word = some o := by
  cases o
  simp (disch := omega) only [VM.of, VM.word, MAddr.of, Ord.of, Ext.of_bits, ext_hi, ext_lo, Nat.reduceSub, ext_self, AOp.field]
  simp [must, Ext.selOnly, FR.noMod, FM.spTab]

@[simp] theorem VBal.of_word (o : VBal) : VBal.of o.word = some o := by
  cases o
  simp (disch := omega) only [VBal.of, VBal.word, MAddr.of, Ord.of, Ext.of_bits, ext_hi, ext_lo, Nat.reduceSub, ext_self, AOp.field]
  simp [must, Ext.selOnly, FR.noMod, FM.spTab]

@[simp] theorem VPfx.of_word (o : VPfx) : VPfx.of o.word = some o := by
  cases o
  simp (disch := omega) only [VPfx.of, VPfx.word, MAddr.of, Ord.of, Ext.of_bits, ext_hi, ext_lo, Nat.reduceSub, ext_self, AOp.field]
  simp [must, Ext.selOnly, FR.noMod, FM.spTab]

@[simp] theorem VRed.of_word (o : VRed) : VRed.of o.word = some o := by
  cases o
  simp (disch := omega) only [VRed.of, VRed.word, MAddr.of, Ord.of, Ext.of_bits, ext_hi, ext_lo, Nat.reduceSub, ext_self, AOp.field]
  simp [must, Ext.selOnly, FR.noMod, FM.spTab]

@[simp] theorem VScan.of_word (o : VScan) : VScan.of o.word = some o := by
  cases o
  simp (disch := omega) only [VScan.of, VScan.word, MAddr.of, Ord.of, Ext.of_bits, ext_hi, ext_lo, Nat.reduceSub, ext_self, AOp.field]
  simp [must, Ext.selOnly, FR.noMod, FM.spTab]

@[simp] theorem M2.of_word (o : M2) : M2.of o.word = some o := by
  cases o
  simp (disch := omega) only [M2.of, M2.word, MAddr.of, Ord.of, Ext.of_bits, ext_hi, ext_lo, Nat.reduceSub, ext_self, AOp.field]
  simp [must, Ext.selOnly, FR.noMod, FM.spTab]

@[simp] theorem M1.of_word (o : M1) : M1.of o.word = some o := by
  cases o
  simp (disch := omega) only [M1.of, M1.word, MAddr.of, Ord.of, Ext.of_bits, ext_hi, ext_lo, Nat.reduceSub, ext_self, AOp.field]
  simp [must, Ext.selOnly, FR.noMod, FM.spTab]

@[simp] theorem MToS.of_word (o : MToS) : MToS.of o.word = some o := by
  cases o
  simp (disch := omega) only [MToS.of, MToS.word, MAddr.of, Ord.of, Ext.of_bits, ext_hi, ext_lo, Nat.reduceSub, ext_self, AOp.field]
  simp [must, Ext.selOnly, FR.noMod, FM.spTab]

@[simp] theorem MMov.of_word (o : MMov) : MMov.of o.word = some o := by
  cases o
  simp (disch := omega) only [MMov.of, MMov.word, MAddr.of, Ord.of, Ext.of_bits, ext_hi, ext_lo, Nat.reduceSub, ext_self, AOp.field]
  simp [must, Ext.selOnly, FR.noMod, FM.spTab]

@[simp] theorem GSet.of_word (o : GSet) : GSet.of o.word = some o := by
  cases o
  simp (disch := omega) only [GSet.of, GSet.word, MAddr.of, Ord.of, Ext.of_bits, ext_hi, ext_lo, Nat.reduceSub, ext_self, AOp.field]
  simp [must, Ext.selOnly, FR.noMod, FM.spTab]

@[simp] theorem GAdv.of_word (o : GAdv) : GAdv.of o.word = some o := by
  cases o
  simp (disch := omega) only [GAdv.of, GAdv.word, MAddr.of, Ord.of, Ext.of_bits, ext_hi, ext_lo, Nat.reduceSub, ext_self, AOp.field]
  simp [must, Ext.selOnly, FR.noMod, FM.spTab]

@[simp] theorem Grd.of_word (o : Grd) : Grd.of o.word = some o := by
  cases o
  simp (disch := omega) only [Grd.of, Grd.word, MAddr.of, Ord.of, Ext.of_bits, ext_hi, ext_lo, Nat.reduceSub, ext_self, AOp.field]
  simp [must, Ext.selOnly, FR.noMod, FM.spTab]

@[simp] theorem VLd.of_word (o : VLd) : VLd.of o.q o.ty o.word = some o := by
  cases o
  simp (disch := omega) only [VLd.of, VLd.word, MAddr.of, Ord.of, Ext.of_bits, ext_hi, ext_lo, Nat.reduceSub, ext_self, AOp.field]
  simp [must, Ext.selOnly, FR.noMod, FM.spTab]

@[simp] theorem VSt.of_word (o : VSt) : VSt.of o.q o.w o.word = some o := by
  cases o
  simp (disch := omega) only [VSt.of, VSt.word, MAddr.of, Ord.of, Ext.of_bits, ext_hi, ext_lo, Nat.reduceSub, ext_self, AOp.field]
  simp [must, Ext.selOnly, FR.noMod, FM.spTab]

@[simp] theorem VCst.of_word (o : VCst) (h : o.addr.index = .zero) (h2 : o.addr.scale = 0) : VCst.of o.word = some o := by
  obtain ⟨_, _, _, _, ⟨_, _, _, _⟩, _⟩ := o
  simp only at h h2
  subst h h2
  simp (disch := omega) only [VCst.of, VCst.word, MAddr.of, Ord.of, Ext.of_bits, ext_hi, ext_lo, Nat.reduceSub, ext_self, AOp.field]
  simp [must, Ext.selOnly, FR.noMod, FM.spTab]

@[simp] theorem SLd.of_word (o : SLd) : SLd.of o.space o.w o.word = some o := by
  cases o
  simp (disch := omega) only [SLd.of, SLd.word, MAddr.of, Ord.of, Ext.of_bits, ext_hi, ext_lo, Nat.reduceSub, ext_self, AOp.field]
  simp [must, Ext.selOnly, FR.noMod, FM.spTab]

@[simp] theorem SSt.of_word (o : SSt) : SSt.of o.space o.w o.word = some o := by
  cases o
  simp (disch := omega) only [SSt.of, SSt.word, MAddr.of, Ord.of, Ext.of_bits, ext_hi, ext_lo, Nat.reduceSub, ext_self, AOp.field]
  simp [must, Ext.selOnly, FR.noMod, FM.spTab]

@[simp] theorem VAtom.of_word (o : VAtom) (h : o.addr.off = 0) : VAtom.of o.space o.word = some o := by
  obtain ⟨_, _, _, _, _, _, ⟨_, _, _, _⟩, _⟩ := o
  simp only at h
  subst h
  simp (disch := omega) only [VAtom.of, VAtom.word, MAddr.of, Ord.of, Ext.of_bits, ext_hi, ext_lo, Nat.reduceSub, ext_self, AOp.field]
  simp [must, Ext.selOnly, FR.noMod, FM.spTab]

@[simp] theorem SAtom.of_word (o : SAtom) (h : o.addr.off = 0) : SAtom.of o.space o.wide o.word = some o := by
  obtain ⟨_, _, _, _, _, _, _, ⟨_, _, _, _⟩, _⟩ := o
  simp only at h
  subst h
  simp (disch := omega) only [SAtom.of, SAtom.word, MAddr.of, Ord.of, Ext.of_bits, ext_hi, ext_lo, Nat.reduceSub, ext_self, AOp.field]
  simp [must, Ext.selOnly, FR.noMod, FM.spTab]

@[simp] theorem Ldl.of_word (o : Ldl) : Ldl.of o.word = some o := by
  cases o
  simp (disch := omega) only [Ldl.of, Ldl.word, MAddr.of, Ord.of, Ext.of_bits, ext_hi, ext_lo, Nat.reduceSub, ext_self, AOp.field]
  simp [must, Ext.selOnly, FR.noMod, FM.spTab]

@[simp] theorem Stc.of_word (o : Stc) : Stc.of o.word = some o := by
  cases o
  simp (disch := omega) only [Stc.of, Stc.word, MAddr.of, Ord.of, Ext.of_bits, ext_hi, ext_lo, Nat.reduceSub, ext_self, AOp.field]
  simp [must, Ext.selOnly, FR.noMod, FM.spTab]

@[simp] theorem Fence.of_word (o : Fence) : Fence.of o.word = some o := by
  cases o
  simp (disch := omega) only [Fence.of, Fence.word, MAddr.of, Ord.of, Ext.of_bits, ext_hi, ext_lo, Nat.reduceSub, ext_self, AOp.field]
  simp [must, Ext.selOnly, FR.noMod, FM.spTab]

@[simp] theorem FenceX.of_word (o : FenceX) : FenceX.of o.word = some o := by
  cases o
  simp (disch := omega) only [FenceX.of, FenceX.word, MAddr.of, Ord.of, Ext.of_bits, ext_hi, ext_lo, Nat.reduceSub, ext_self, AOp.field]
  simp [must, Ext.selOnly, FR.noMod, FM.spTab]

@[simp] theorem SpLk.of_word (o : SpLk) : SpLk.of o.word = some o := by
  cases o
  simp (disch := omega) only [SpLk.of, SpLk.word, MAddr.of, Ord.of, Ext.of_bits, ext_hi, ext_lo, Nat.reduceSub, ext_self, AOp.field]
  simp [must, Ext.selOnly, FR.noMod, FM.spTab]

@[simp] theorem SpSet.of_word (o : SpSet) : SpSet.of o.word = some o := by
  cases o
  simp (disch := omega) only [SpSet.of, SpSet.word, MAddr.of, Ord.of, Ext.of_bits, ext_hi, ext_lo, Nat.reduceSub, ext_self, AOp.field]
  simp [must, Ext.selOnly, FR.noMod, FM.spTab]

@[simp] theorem SpClr.of_word (o : SpClr) : SpClr.of o.word = some o := by
  cases o
  simp (disch := omega) only [SpClr.of, SpClr.word, MAddr.of, Ord.of, Ext.of_bits, ext_hi, ext_lo, Nat.reduceSub, ext_self, AOp.field]
  simp [must, Ext.selOnly, FR.noMod, FM.spTab]

@[simp] theorem SpGet.of_word (o : SpGet) : SpGet.of o.word = some o := by
  cases o
  simp (disch := omega) only [SpGet.of, SpGet.word, MAddr.of, Ord.of, Ext.of_bits, ext_hi, ext_lo, Nat.reduceSub, ext_self, AOp.field]
  simp [must, Ext.selOnly, FR.noMod, FM.spTab]

@[simp] theorem GMem.of_word (o : GMem) (h : o.addr.index = .zero) (h2 : o.addr.scale = 0) : GMem.of o.word = some o := by
  obtain ⟨_, _, _, ⟨_, _, _, _⟩⟩ := o
  simp only at h h2
  subst h h2
  simp (disch := omega) only [GMem.of, GMem.word, MAddr.of, Ord.of, Ext.of_bits, ext_hi, ext_lo, Nat.reduceSub, ext_self, AOp.field]
  simp [must, Ext.selOnly, FR.noMod, FM.spTab]

@[simp] theorem Mma.of_word (o : Mma) : Mma.of o.word = some o := by
  obtain ⟨_, _, _, _, _, _, a, b⟩ := o
  rcases a with _ | _ <;> rcases b with _ | _ | _ <;>
    (simp (disch := omega) only [Mma.of, Mma.word, AOpd.of, BOpd.of, AOpd.put, BOpd.put, Ext.of_bits, ext_hi, ext_lo,
      Nat.reduceSub, ext_self]; simp [must])

@[simp] theorem MZero.of_word (o : MZero) : MZero.of o.word = some o := by
  cases o
  simp (disch := omega) only [MZero.of, MZero.word, MAddr.of, Ord.of, Ext.of_bits, ext_hi, ext_lo, Nat.reduceSub, ext_self, AOp.field]
  simp [must, Ext.selOnly, FR.noMod, FM.spTab]

@[simp] theorem MLd.of_word (o : MLd) : MLd.of o.word = some o := by
  cases o
  simp (disch := omega) only [MLd.of, MLd.word, MAddr.of, Ord.of, Ext.of_bits, ext_hi, ext_lo, Nat.reduceSub, ext_self, AOp.field]
  simp [must, Ext.selOnly, FR.noMod, FM.spTab]

@[simp] theorem MSt.of_word (o : MSt) : MSt.of o.word = some o := by
  cases o
  simp (disch := omega) only [MSt.of, MSt.word, MAddr.of, Ord.of, Ext.of_bits, ext_hi, ext_lo, Nat.reduceSub, ext_self, AOp.field]
  simp [must, Ext.selOnly, FR.noMod, FM.spTab]

@[simp] theorem MRstl.of_word (o : MRstl) : MRstl.of o.word = some o := by
  cases o
  simp (disch := omega) only [MRstl.of, MRstl.word, MAddr.of, Ord.of, Ext.of_bits, ext_hi, ext_lo, Nat.reduceSub, ext_self, AOp.field]
  simp [must, Ext.selOnly, FR.noMod, FM.spTab]

@[simp] theorem CbWr.of_word (o : CbWr) : CbWr.of o.word = some o := by
  cases o
  simp (disch := omega) only [CbWr.of, CbWr.word, MAddr.of, Ord.of, Ext.of_bits, ext_hi, ext_lo, Nat.reduceSub, ext_self, AOp.field]
  simp [must, Ext.selOnly, FR.noMod, FM.spTab]

@[simp] theorem CbCfg.of_word (o : CbCfg) : CbCfg.of o.word = some o := by
  cases o
  simp (disch := omega) only [CbCfg.of, CbCfg.word, MAddr.of, Ord.of, Ext.of_bits, ext_hi, ext_lo, Nat.reduceSub, ext_self, AOp.field]
  simp [must, Ext.selOnly, FR.noMod, FM.spTab]

@[simp] theorem CbInv.of_word (o : CbInv) : CbInv.of o.word = some o := by
  cases o
  simp (disch := omega) only [CbInv.of, CbInv.word, MAddr.of, Ord.of, Ext.of_bits, ext_hi, ext_lo, Nat.reduceSub, ext_self, AOp.field]
  simp [must, Ext.selOnly, FR.noMod, FM.spTab]

@[simp] theorem Cpy.of_word (o : Cpy) : Cpy.of o.word = some o := by
  obtain ⟨_, _, _, _, _, _, i⟩ := o
  rcases i with _ | _ <;>
    (simp (disch := omega) only [Cpy.of, Cpy.word, AOpd.of, BOpd.of, AOpd.put, BOpd.put, Ext.of_bits, ext_hi, ext_lo,
      Nat.reduceSub, ext_self]; simp [must])

@[simp] theorem TMask.of_word (o : TMask) : TMask.of o.word = some o := by
  cases o
  simp (disch := omega) only [TMask.of, TMask.word, MAddr.of, Ord.of, Ext.of_bits, ext_hi, ext_lo, Nat.reduceSub, ext_self, AOp.field]
  simp [must, Ext.selOnly, FR.noMod, FM.spTab]

@[simp] theorem TFfr.of_word (o : TFfr) : TFfr.of o.word = some o := by
  cases o
  simp (disch := omega) only [TFfr.of, TFfr.word, MAddr.of, Ord.of, Ext.of_bits, ext_hi, ext_lo, Nat.reduceSub, ext_self, AOp.field]
  simp [must, Ext.selOnly, FR.noMod, FM.spTab]

@[simp] theorem HTest.of_word (o : HTest) : HTest.of o.word = some o := by
  cases o
  simp (disch := omega) only [HTest.of, HTest.word, MAddr.of, Ord.of, Ext.of_bits, ext_hi, ext_lo, Nat.reduceSub, ext_self, AOp.field]
  simp [must, Ext.selOnly, FR.noMod, FM.spTab]

@[simp] theorem HOp.of_word (o : HOp) : HOp.of o.word = some o := by
  cases o
  simp (disch := omega) only [HOp.of, HOp.word, MAddr.of, Ord.of, Ext.of_bits, ext_hi, ext_lo, Nat.reduceSub, ext_self, AOp.field]
  simp [must, Ext.selOnly, FR.noMod, FM.spTab]

@[simp] theorem CbLd.of_word (o : CbLd) : CbLd.of o.word = some o := by
  cases o
  simp (disch := omega) only [CbLd.of, CbLd.word, MAddr.of, Ord.of, Ext.of_bits, ext_hi, ext_lo, Nat.reduceSub, ext_self, AOp.field]
  simp [must, Ext.selOnly, FR.noMod, FM.spTab]

@[simp] theorem Imm16.of_word (o : Imm16) : Imm16.of o.word = some o := by
  cases o
  simp (disch := omega) only [Imm16.of, Imm16.word, MAddr.of, Ord.of, Ext.of_bits, ext_hi, ext_lo, Nat.reduceSub, ext_self, AOp.field]
  simp [must, Ext.selOnly, FR.noMod, FM.spTab]

@[simp] theorem CsrR.of_word (o : CsrR) : CsrR.of o.word = some o := by
  cases o
  simp (disch := omega) only [CsrR.of, CsrR.word, MAddr.of, Ord.of, Ext.of_bits, ext_hi, ext_lo, Nat.reduceSub, ext_self, AOp.field]
  simp [must, Ext.selOnly, FR.noMod, FM.spTab]

@[simp] theorem CsrW.of_word (o : CsrW) : CsrW.of o.word = some o := by
  cases o
  simp (disch := omega) only [CsrW.of, CsrW.word, MAddr.of, Ord.of, Ext.of_bits, ext_hi, ext_lo, Nat.reduceSub, ext_self, AOp.field]
  simp [must, Ext.selOnly, FR.noMod, FM.spTab]

@[simp] theorem IcInv.of_word (o : IcInv) : IcInv.of o.word = some o := by
  cases o
  simp (disch := omega) only [IcInv.of, IcInv.word, MAddr.of, Ord.of, Ext.of_bits, ext_hi, ext_lo, Nat.reduceSub, ext_self, AOp.field]
  simp [must, Ext.selOnly, FR.noMod, FM.spTab]

@[simp] theorem TickI.of_word (o : TickI) : TickI.of o.word = some o := by
  cases o
  simp (disch := omega) only [TickI.of, TickI.word, MAddr.of, Ord.of, Ext.of_bits, ext_hi, ext_lo, Nat.reduceSub, ext_self, AOp.field]
  simp [must, Ext.selOnly, FR.noMod, FM.spTab]

end Sys2Proof
end

