-- ==== Sys2Proof/Laws/PerInstr.lean ====
section
/-! SUPPORT. Facts made per instruction. Family Enc: an instruction has a word, and when it is well formed the decoder reads it back
from that word, every operand with it; an event has no word. -/

namespace Sys2Proof

/-- What the decoder does with the word of an instruction, from what it makes of its opcode and fields. -/
theorem decode_of_code (i : Instr) (op : Nat) (x : BitVec 54) (hc : i.code = some (op, x)) (hop : op < 1024)
    (hk : opKnown op = true) (hp : i.wf = true → parse op x = some i) :
    ∃ w, encode i = some w ∧ (i.wf = true → decode w = .ok i) := by
  refine ⟨BitVec.ofNat 10 op ++ x, by simp [encode, hc], fun hw => ?_⟩
  have h1 : wordOp (BitVec.ofNat 10 op ++ x) = op := by
    simp (disch := omega) only [wordOp, ext_hi, Nat.reduceSub, ext_self]
    simp; omega
  have h2 : (BitVec.ofNat 10 op ++ x).extractLsb' 0 54 = x := by
    simp (disch := omega) only [ext_lo, ext_self]
  simp [decode, h1, h2, hk, hp hw, hw]

/-- The rows of the opcode table that are instructions of a wave; the others are events, which have no word. -/
def Instr.isWord : Instr → Bool
  | .functionLevelReset _ => false
  | .pcieLinkDown _ _ => false
  | .atsInvalidate _ _ _ _ _ => false
  | .priResponse _ _ _ _ => false
  | .msixUnmask _ _ => false
  | .uncorrectedError _ _ _ => false
  | .rowRetire _ _ _ => false
  | .d2dLinkFailure _ _ => false
  | .flitReceive _ _ => false
  | .laneRepair _ _ => false
  | .peerRequestForward _ => false
  | .podArrival _ _ _ _ => false
  | .podRelease _ _ => false
  | .powerCap _ => false
  | .oneLinkReset _ => false
  | .shutterReadout _ _ => false
  | .repairAppend _ _ => false
  | .doorbellWidx _ _ _ => false
  | .admqWidx _ => false
  | .linkpairPaired _ _ => false
  | .fqEnable _ => false
  | .podidWrite _ => false
  | .xpeertoWrite _ => false
  | .xlstatClrcnt _ => false
  | .timetableSkipsClear _ _ => false
  | .shutterArm _ => false
  | .qctlStop _ => false
  | .qctlResume _ => false
  | .dstepGo _ => false
  | .registerWrite _ _ => false
  | .packetConsume _ => false
  | .nopPacket _ => false
  | .launch _ => false
  | .launchComplete _ => false
  | .copy _ => false
  | .copyPacketComplete _ _ => false
  | .signal _ => false
  | .wait _ => false
  | .waitPoll _ => false
  | .timestamp _ => false
  | .teamPlace _ => false
  | .waveStart _ => false
  | .clauseStart _ => false
  | .longLatencyComplete _ => false
  | .matrixEnginePerform _ => false
  | .vote _ => false
  | .quantumEnd _ => false
  | .unpark _ => false
  | .waitSatisfied _ _ => false
  | .barrierRelease _ _ _ => false
  | .waveEnd _ => false
  | .teamEnd _ => false
  | .trapEntry _ => false
  | .logApply _ => false
  | .ticketRelease _ => false
  | .commandComplete _ _ => false
  | .cbldComplete _ _ => false
  | .next _ => true
  | .nextc _ => true
  | .nextm _ => true
  | .nextx _ => true
  | .halt _ => true
  | .yield _ => true
  | .calla _ => true
  | .reta _ => true
  | .bar _ => true
  | .bara _ => true
  | .barw _ => true
  | .sadd _ => true
  | .ssub _ => true
  | .smul _ => true
  | .smulh _ => true
  | .smulhn _ => true
  | .sand _ => true
  | .sor _ => true
  | .sxor _ => true
  | .snot _ => true
  | .sshl _ => true
  | .sshr _ => true
  | .ssra _ => true
  | .smin _ => true
  | .smax _ => true
  | .sminn _ => true
  | .smaxn _ => true
  | .scmp _ => true
  | .ssel _ => true
  | .smov _ => true
  | .sli _ => true
  | .slih _ => true
  | .sclz _ => true
  | .spopc _ => true
  | .saddc _ => true
  | .saddI _ => true
  | .ssubI _ => true
  | .smulI _ => true
  | .sandI _ => true
  | .sorI _ => true
  | .sxorI _ => true
  | .sshlI _ => true
  | .sshrI _ => true
  | .ssraI _ => true
  | .sminI _ => true
  | .smaxI _ => true
  | .sminnI _ => true
  | .smaxnI _ => true
  | .scmpI _ => true
  | .vadd _ => true
  | .vsub _ => true
  | .vmul _ => true
  | .vmulh _ => true
  | .vmulhn _ => true
  | .vmad _ => true
  | .vadds _ => true
  | .vsubs _ => true
  | .vand _ => true
  | .vor _ => true
  | .vxor _ => true
  | .vnot _ => true
  | .vshl _ => true
  | .vshr _ => true
  | .vsra _ => true
  | .vmin _ => true
  | .vmax _ => true
  | .vminn _ => true
  | .vmaxn _ => true
  | .vabs _ => true
  | .vneg _ => true
  | .vcmp _ => true
  | .vsel _ => true
  | .vpopc _ => true
  | .vclz _ => true
  | .vbfx _ => true
  | .vbfi _ => true
  | .vmov _ => true
  | .vli _ => true
  | .vdot4 _ => true
  | .vfadd _ => true
  | .vfsub _ => true
  | .vfmul _ => true
  | .vfma _ => true
  | .vfms _ => true
  | .vfnma _ => true
  | .vfmin _ => true
  | .vfmax _ => true
  | .vfcmp _ => true
  | .vfabs _ => true
  | .vfneg _ => true
  | .vfcls _ => true
  | .vfdot2 _ => true
  | .vrcp _ => true
  | .vrsq _ => true
  | .vsqrt _ => true
  | .vdiv _ => true
  | .vexp2 _ => true
  | .vlog2 _ => true
  | .vsint _ => true
  | .vcost _ => true
  | .vcvt _ => true
  | .vcvti _ => true
  | .vcvtf _ => true
  | .vpack _ => true
  | .vunpk _ => true
  | .vxpd _ => true
  | .vretag _ => true
  | .vgettag _ => true
  | .amaxr _ => true
  | .amaxc _ => true
  | .vshfl _ => true
  | .vbal _ => true
  | .vpfx _ => true
  | .vred _ => true
  | .vscan _ => true
  | .vcmpr _ => true
  | .vrfl _ => true
  | .vbcs _ => true
  | .mand _ => true
  | .mor _ => true
  | .mxor _ => true
  | .mnot _ => true
  | .mpopc _ => true
  | .mffs _ => true
  | .mmov _ => true
  | .gset _ => true
  | .grd _ => true
  | .gadv _ => true
  | .vld _ => true
  | .vst _ => true
  | .vlds _ => true
  | .vsts _ => true
  | .sld _ => true
  | .sst _ => true
  | .vatom _ => true
  | .satom _ => true
  | .vcstGm _ => true
  | .vcstSp _ => true
  | .ldlGm32 _ => true
  | .ldlGm64 _ => true
  | .ldlSp32 _ => true
  | .ldlSp64 _ => true
  | .stc _ => true
  | .lkclr _ => true
  | .fence _ => true
  | .fencex _ => true
  | .splk _ => true
  | .spset _ => true
  | .spclr _ => true
  | .spget _ => true
  | .gldGm _ => true
  | .gldSp _ => true
  | .gstGm _ => true
  | .gstSp _ => true
  | .mma _ => true
  | .mmaz _ => true
  | .mzero _ => true
  | .mst _ => true
  | .mld _ => true
  | .mrstl _ => true
  | .cbwr _ => true
  | .cbcfg _ => true
  | .cbinv _ => true
  | .cpy _ => true
  | .cpyn _ => true
  | .twany _ => true
  | .twall _ => true
  | .tffr _ => true
  | .tclr _ => true
  | .htest _ => true
  | .hwait _ => true
  | .hcancel _ => true
  | .cbld _ => true
  | .swtrap _ => true
  | .brk _ => true
  | .eret _ => true
  | .csrr _ => true
  | .csrw _ => true
  | .icinv _ => true
  | .tick _ => true
  | .pmark _ => true
  | .lacq _ => true
  | .lrel _ => true
  | .tkwait _ => true
  | .tkrel _ => true
  | .pcieLinkUp _ => false
  | .transomLinkTrained _ => false
  | .peerRequestArrival _ => false
  | .packageReset => false
  | .ppsEdge => false
  | .launchRestart => false
  | .peerTimeout => false
  | .attestation => false
  | .sensors => false
  | .moduleReset => false
  | .wicketPackageReset => false
  | .repairRead => false
  | .shutterNow => false
  | .shutterGate => false
  | .shutterUngate => false
  | .shutterData => false
  | .waitTimeout => false
  | .ctxCreate => false
  | .ctxDestroy => false
  | .queueCreate => false
  | .queueDestroy => false
  | .setRange => false
  | .setPtbase => false
  | .setAperture => false
  | .preempt => false
  | .preemptResume => false
  | .preemptDrained => false
  | .drainLimit => false
  | .timetableSet => false
  | .timeSet => false
  | .timeOffset => false
  | .timeRate => false
  | .setAtPps => false
  | .icinvBroadcast => false
  | .traceConfig => false
  | .retry => false
  | .faultReplyTrap => false
  | .kill => false
  | .releaseCore => false
  | .faultRecordWrite => false
  | .timetableSlot => false
  | .timetableDeferredStart => false
  | .arbiterServe => false
  | .gangPlace => false
  | .aging => false
  | .histSample => false
  | .histFlush => false
  | .nop => true


/-! #### Blocks with sub-codes (R233) -/

theorem vld_small (o : VLd) : 0x140 + o.ty.bits.toNat < 1024 := by have := o.ty.bits.isLt; omega
theorem vlds_small (o : VLd) : 0x180 + 32 * o.q.val + o.ty.bits.toNat < 1024 := by
  have := o.ty.bits.isLt; have := o.q.isLt; omega
theorem vst_small (o : VSt) : 0x160 + o.w.bits.toNat < 1024 := by have := o.w.bits.isLt; omega
theorem vsts_small (o : VSt) : 0x200 + 4 * o.q.val + o.w.bits.toNat < 1024 := by
  have := o.w.bits.isLt; have := o.q.isLt; omega
theorem sld_small (o : SLd) : 0x240 + 8 * o.space.bits.toNat + o.w.bits.toNat < 1024 := by
  have := o.w.bits.isLt; have := o.space.bits.isLt; omega
theorem sst_small (o : SSt) : 0x280 + 4 * o.space.bits.toNat + o.w.bits.toNat < 1024 := by
  have := o.w.bits.isLt; have := o.space.bits.isLt; omega
theorem vatom_small (o : VAtom) : 0x2A0 + o.space.bits.toNat < 1024 := by have := o.space.bits.isLt; omega
theorem satom_small (o : SAtom) : 0x2A8 + 2 * o.space.bits.toNat + o.wide.toNat < 1024 := by
  have := o.space.bits.isLt; have := o.wide.toNat_le; omega

theorem vld_known (o : VLd) : opKnown (0x140 + o.ty.bits.toNat) = true := by
  obtain ⟨_, _, _, ty, _, _, _⟩ := o
  rcases ty with t | _ | _ | _ | _ <;> first | rfl | (cases t <;> rfl)
theorem vlds_known (o : VLd) : opKnown (0x180 + 32 * o.q.val + o.ty.bits.toNat) = true := by
  have key (q : Fin 4) (ty : LdTy) : opKnown (0x180 + 32 * q.val + ty.bits.toNat) = true := by
    revert q
    rcases ty with t | _ | _ | _ | _ <;> first | decide | (cases t <;> decide)
  exact key o.q o.ty
theorem vst_known (o : VSt) : opKnown (0x160 + o.w.bits.toNat) = true := by
  have key (w : VW) : opKnown (0x160 + w.bits.toNat) = true := by cases w <;> decide
  exact key o.w
theorem vsts_known (o : VSt) : opKnown (0x200 + 4 * o.q.val + o.w.bits.toNat) = true := by
  have key (q : Fin 4) (w : VW) : opKnown (0x200 + 4 * q.val + w.bits.toNat) = true := by
    revert q
    cases w <;> decide
  exact key o.q o.w
theorem sld_known (o : SLd) : opKnown (0x240 + 8 * o.space.bits.toNat + o.w.bits.toNat) = true := by
  have key (sp : Space) (w : SLdW) : opKnown (0x240 + 8 * sp.bits.toNat + w.bits.toNat) = true := by cases sp <;> cases w <;> decide
  exact key o.space o.w
theorem sst_known (o : SSt) : opKnown (0x280 + 4 * o.space.bits.toNat + o.w.bits.toNat) = true := by
  have key (sp : Space) (w : SStW) : opKnown (0x280 + 4 * sp.bits.toNat + w.bits.toNat) = true := by cases sp <;> cases w <;> decide
  exact key o.space o.w
theorem vatom_known (o : VAtom) : opKnown (0x2A0 + o.space.bits.toNat) = true := by
  have key (sp : Space) : opKnown (0x2A0 + sp.bits.toNat) = true := by cases sp <;> decide
  exact key o.space
theorem satom_known (o : SAtom) : opKnown (0x2A8 + 2 * o.space.bits.toNat + o.wide.toNat) = true := by
  have key (sp : Space) (wd : Bool) : opKnown (0x2A8 + 2 * sp.bits.toNat + wd.toNat) = true := by cases sp <;> cases wd <;> decide
  exact key o.space o.wide

set_option maxRecDepth 4000 in
theorem vld_key (ty : LdTy) (x : BitVec 54) : parse (0x140 + ty.bits.toNat) x = (VLd.of 0 ty (FM.of x)).map .vld := by
  rcases ty with t | _ | _ | _ | _ <;> (try cases t) <;>
    simp [parse, parseMemSub, LdTy.bits, Tag.bits, LdTy.ofBits, Tag.ofBits]

set_option maxRecDepth 4000 in
theorem vlds_key (q : Fin 4) (ty : LdTy) (x : BitVec 54) :
    parse (0x180 + 32 * q.val + ty.bits.toNat) x = (VLd.of q ty (FM.of x)).map .vlds := by
  obtain ⟨q, hq⟩ := q
  have hq' : q = 0 ∨ q = 1 ∨ q = 2 ∨ q = 3 := by omega
  rcases hq' with rfl | rfl | rfl | rfl <;> rcases ty with t | _ | _ | _ | _ <;> (try cases t) <;>
    simp [parse, parseMemSub, LdTy.bits, Tag.bits, LdTy.ofBits, Tag.ofBits] <;> rfl

set_option maxRecDepth 4000 in
theorem vst_key (w : VW) (x : BitVec 54) : parse (0x160 + w.bits.toNat) x = (VSt.of 0 w (FM.of x)).map .vst := by
  cases w <;> simp [parse, parseMemSub, VW.bits, VW.ofBits]

set_option maxRecDepth 4000 in
theorem vsts_key (q : Fin 4) (w : VW) (x : BitVec 54) :
    parse (0x200 + 4 * q.val + w.bits.toNat) x = (VSt.of q w (FM.of x)).map .vsts := by
  obtain ⟨q, hq⟩ := q
  have hq' : q = 0 ∨ q = 1 ∨ q = 2 ∨ q = 3 := by omega
  rcases hq' with rfl | rfl | rfl | rfl <;> cases w <;> simp [parse, parseMemSub, VW.bits, VW.ofBits] <;> rfl

set_option maxRecDepth 4000 in
theorem sld_key (sp : Space) (w : SLdW) (x : BitVec 54) :
    parse (0x240 + 8 * sp.bits.toNat + w.bits.toNat) x = (SLd.of sp w (FM.of x)).map .sld := by
  cases sp <;> cases w <;> simp [parse, parseMemSub, Space.bits, SLdW.bits, Space.ofBits, SLdW.ofBits]

set_option maxRecDepth 4000 in
theorem sst_key (sp : Space) (w : SStW) (x : BitVec 54) :
    parse (0x280 + 4 * sp.bits.toNat + w.bits.toNat) x = (SSt.of sp w (FM.of x)).map .sst := by
  cases sp <;> cases w <;> simp [parse, parseMemSub, Space.bits, SStW.bits, Space.ofBits, SStW.ofBits]

set_option maxRecDepth 4000 in
theorem vatom_key (sp : Space) (x : BitVec 54) : parse (0x2A0 + sp.bits.toNat) x = (VAtom.of sp (FM.of x)).map .vatom := by
  cases sp <;> simp [parse, parseMemSub, Space.bits, Space.ofBits]

set_option maxRecDepth 4000 in
theorem satom_key (sp : Space) (wd : Bool) (x : BitVec 54) :
    parse (0x2A8 + 2 * sp.bits.toNat + wd.toNat) x = (SAtom.of sp wd (FM.of x)).map .satom := by
  cases sp <;> cases wd <;> simp [parse, parseMemSub, Space.bits, Space.ofBits]

theorem vld_parse (o : VLd) (h : (Instr.vld o).wf = true) : parse (0x140 + o.ty.bits.toNat) o.word.bits = some (.vld o) := by
  have hq : o.q = 0 := by simp [Instr.wf] at h; exact h.1
  rw [vld_key, FM.of_bits, ← hq, o.of_word]; rfl
theorem vlds_parse (o : VLd) (_ : (Instr.vlds o).wf = true) :
    parse (0x180 + 32 * o.q.val + o.ty.bits.toNat) o.word.bits = some (.vlds o) := by
  rw [vlds_key, FM.of_bits, o.of_word]; rfl
theorem vst_parse (o : VSt) (h : (Instr.vst o).wf = true) : parse (0x160 + o.w.bits.toNat) o.word.bits = some (.vst o) := by
  have hq : o.q = 0 := by simp [Instr.wf] at h; exact h.1
  rw [vst_key, FM.of_bits, ← hq, o.of_word]; rfl
theorem vsts_parse (o : VSt) (_ : (Instr.vsts o).wf = true) :
    parse (0x200 + 4 * o.q.val + o.w.bits.toNat) o.word.bits = some (.vsts o) := by
  rw [vsts_key, FM.of_bits, o.of_word]; rfl
theorem sld_parse (o : SLd) (_ : (Instr.sld o).wf = true) :
    parse (0x240 + 8 * o.space.bits.toNat + o.w.bits.toNat) o.word.bits = some (.sld o) := by
  rw [sld_key, FM.of_bits, o.of_word]; rfl
theorem sst_parse (o : SSt) (_ : (Instr.sst o).wf = true) :
    parse (0x280 + 4 * o.space.bits.toNat + o.w.bits.toNat) o.word.bits = some (.sst o) := by
  rw [sst_key, FM.of_bits, o.of_word]; rfl
theorem vatom_parse (o : VAtom) (h : (Instr.vatom o).wf = true) :
    parse (0x2A0 + o.space.bits.toNat) o.word.bits = some (.vatom o) := by
  have h0 : o.addr.off = 0 := by simp [Instr.wf] at h; exact h.1.1.1
  rw [vatom_key, FM.of_bits, o.of_word h0]; rfl
theorem satom_parse (o : SAtom) (h : (Instr.satom o).wf = true) :
    parse (0x2A8 + 2 * o.space.bits.toNat + o.wide.toNat) o.word.bits = some (.satom o) := by
  have h0 : o.addr.off = 0 := by simp [Instr.wf] at h; exact h.1.1.1.1
  rw [satom_key, FM.of_bits, o.of_word h0]; rfl

namespace Laws.Enc

/-- Family Enc: encode and decode agree on an instruction. -/
def Statement (i : Instr) : Prop :=
  if i.isWord then ∃ w, encode i = some w ∧ (i.wf = true → decode w = .ok i) else encode i = none

theorem functionLevelReset (link : Fin 2) : Statement (.functionLevelReset link) := rfl
theorem pcieLinkDown (link : Fin 2) (lost : List Nat) : Statement (.pcieLinkDown link lost) := rfl
theorem atsInvalidate (fn : Fin 2) (pasid : Nat) (page : Nat) (pages : Nat) (grants : List AtsEntry) : Statement (.atsInvalidate fn pasid page pages grants) := rfl
theorem priResponse (ctx : Nat) (page : Nat) (code : PriCode) (grants : List AtsEntry) : Statement (.priResponse ctx page code grants) := rfl
theorem msixUnmask (fn : Fin 2) (x : MsixWrite) : Statement (.msixUnmask fn x) := rfl
theorem uncorrectedError (w : Nat) (source : Nat) (addr : Nat) : Statement (.uncorrectedError w source addr) := rfl
theorem rowRetire (die : Fin 4) (bank : Nat) (row : Nat) : Statement (.rowRetire die bank row) := rfl
theorem d2dLinkFailure (die : Fin 4) (bit : Fin 2) : Statement (.d2dLinkFailure die bit) := rfl
theorem flitReceive (link : Fin 12) (flit : List Byte) : Statement (.flitReceive link flit) := rfl
theorem laneRepair (link : Fin 12) (lane : Fin 8) : Statement (.laneRepair link lane) := rfl
theorem peerRequestForward (r : PeerReq) : Statement (.peerRequestForward r) := rfl
theorem podArrival (mem : Nat) (launchid : Nat) (phase : Nat) (final : Bool) : Statement (.podArrival mem launchid phase final) := rfl
theorem podRelease (launchid : Nat) (phase : Nat) : Statement (.podRelease launchid phase) := rfl
theorem powerCap (watts : Nat) : Statement (.powerCap watts) := rfl
theorem oneLinkReset (link : Fin 2) : Statement (.oneLinkReset link) := rfl
theorem shutterReadout (t : DWord) (bytes : Nat) : Statement (.shutterReadout t bytes) := rfl
theorem repairAppend (die : Fin 4) (quad : Nat) : Statement (.repairAppend die quad) := rfl
theorem doorbellWidx (q : Nat) (v : DWord) (whole : Bool) : Statement (.doorbellWidx q v whole) := rfl
theorem admqWidx (v : DWord) : Statement (.admqWidx v) := rfl
theorem linkpairPaired (link : Fin 2) (v : Bool) : Statement (.linkpairPaired link v) := rfl
theorem fqEnable (v : DWord) : Statement (.fqEnable v) := rfl
theorem podidWrite (v : Word) : Statement (.podidWrite v) := rfl
theorem xpeertoWrite (v : DWord) : Statement (.xpeertoWrite v) := rfl
theorem xlstatClrcnt (link : Fin 12) : Statement (.xlstatClrcnt link) := rfl
theorem timetableSkipsClear (n : Fin 256) (v : DWord) : Statement (.timetableSkipsClear n v) := rfl
theorem shutterArm (v : Bool) : Statement (.shutterArm v) := rfl
theorem qctlStop (g : Nat) : Statement (.qctlStop g) := rfl
theorem qctlResume (g : Nat) : Statement (.qctlResume g) := rfl
theorem dstepGo (core : Nat) : Statement (.dstepGo core) := rfl
theorem registerWrite (off : Nat) (v : DWord) : Statement (.registerWrite off v) := rfl
theorem packetConsume (q : Nat) : Statement (.packetConsume q) := rfl
theorem nopPacket (q : Nat) : Statement (.nopPacket q) := rfl
theorem launch (q : Nat) : Statement (.launch q) := rfl
theorem launchComplete (l : Nat) : Statement (.launchComplete l) := rfl
theorem copy (q : Nat) : Statement (.copy q) := rfl
theorem copyPacketComplete (q : Nat) (i : Nat) : Statement (.copyPacketComplete q i) := rfl
theorem signal (q : Nat) : Statement (.signal q) := rfl
theorem wait (q : Nat) : Statement (.wait q) := rfl
theorem waitPoll (q : Nat) : Statement (.waitPoll q) := rfl
theorem timestamp (q : Nat) : Statement (.timestamp q) := rfl
theorem teamPlace (l : Nat) : Statement (.teamPlace l) := rfl
theorem waveStart (w : Nat) : Statement (.waveStart w) := rfl
theorem clauseStart (core : Nat) : Statement (.clauseStart core) := rfl
theorem longLatencyComplete (w : Nat) : Statement (.longLatencyComplete w) := rfl
theorem matrixEnginePerform (core : Nat) : Statement (.matrixEnginePerform core) := rfl
theorem vote (w : Nat) : Statement (.vote w) := rfl
theorem quantumEnd (w : Nat) : Statement (.quantumEnd w) := rfl
theorem unpark (w : Nat) : Statement (.unpark w) := rfl
theorem waitSatisfied (w : Nat) (f : Nat) : Statement (.waitSatisfied w f) := rfl
theorem barrierRelease (scope : Scope) (l : Nat) (unit : Nat) : Statement (.barrierRelease scope l unit) := rfl
theorem waveEnd (w : Nat) : Statement (.waveEnd w) := rfl
theorem teamEnd (t : Nat) : Statement (.teamEnd t) := rfl
theorem trapEntry (w : Nat) : Statement (.trapEntry w) := rfl
theorem logApply (t : Nat) : Statement (.logApply t) := rfl
theorem ticketRelease (l : Nat) : Statement (.ticketRelease l) := rfl
theorem commandComplete (t : Nat) (tag : Nat) : Statement (.commandComplete t tag) := rfl
theorem cbldComplete (t : Nat) (tag : Nat) : Statement (.cbldComplete t tag) := rfl
theorem next (o : Next) : Statement (.next o) :=
  decode_of_code (.next o) 0x1 _ rfl (by decide) (by decide) fun _ =>
    congrArg (Option.map Instr.next) ((congrArg Next.of (FC.of_bits _)).trans o.of_word)
theorem nextc (o : NextC) : Statement (.nextc o) :=
  decode_of_code (.nextc o) 0x2 _ rfl (by decide) (by decide) fun _ =>
    congrArg (Option.map Instr.nextc) ((congrArg NextC.of (FC.of_bits _)).trans o.of_word)
theorem nextm (o : NextM) : Statement (.nextm o) :=
  decode_of_code (.nextm o) 0x3 _ rfl (by decide) (by decide) fun _ =>
    congrArg (Option.map Instr.nextm) ((congrArg NextM.of (FC.of_bits _)).trans o.of_word)
theorem nextx (o : NextX) : Statement (.nextx o) :=
  decode_of_code (.nextx o) 0x4 _ rfl (by decide) (by decide) fun _ =>
    congrArg (Option.map Instr.nextx) ((congrArg NextX.of (FC.of_bits _)).trans o.of_word)
theorem halt (o : Bare) : Statement (.halt o) :=
  decode_of_code (.halt o) 0x5 _ rfl (by decide) (by decide) fun _ =>
    congrArg (Option.map Instr.halt) ((congrArg Bare.ofC (FC.of_bits _)).trans o.ofC_wordC)
theorem yield (o : Bare) : Statement (.yield o) :=
  decode_of_code (.yield o) 0x6 _ rfl (by decide) (by decide) fun _ =>
    congrArg (Option.map Instr.yield) ((congrArg Bare.ofC (FC.of_bits _)).trans o.ofC_wordC)
theorem calla (o : CallA) : Statement (.calla o) :=
  decode_of_code (.calla o) 0x8 _ rfl (by decide) (by decide) fun _ =>
    congrArg (Option.map Instr.calla) ((congrArg CallA.of (FC.of_bits _)).trans o.of_word)
theorem reta (o : Bare) : Statement (.reta o) :=
  decode_of_code (.reta o) 0x9 _ rfl (by decide) (by decide) fun _ =>
    congrArg (Option.map Instr.reta) ((congrArg Bare.ofC (FC.of_bits _)).trans o.ofC_wordC)
theorem bar (o : Bar) : Statement (.bar o) :=
  decode_of_code (.bar o) 0xa _ rfl (by decide) (by decide) fun _ =>
    congrArg (Option.map Instr.bar) ((congrArg Bar.of (FC.of_bits _)).trans o.of_word)
theorem bara (o : Bar) : Statement (.bara o) :=
  decode_of_code (.bara o) 0xb _ rfl (by decide) (by decide) fun _ =>
    congrArg (Option.map Instr.bara) ((congrArg Bar.of (FC.of_bits _)).trans o.of_word)
theorem barw (o : Bar) : Statement (.barw o) :=
  decode_of_code (.barw o) 0xc _ rfl (by decide) (by decide) fun _ =>
    congrArg (Option.map Instr.barw) ((congrArg Bar.of (FC.of_bits _)).trans o.of_word)
theorem sadd (o : S2) : Statement (.sadd o) :=
  decode_of_code (.sadd o) 0x40 _ rfl (by decide) (by decide) fun _ =>
    congrArg (Option.map Instr.sadd) ((congrArg S2.of (FR.of_bits _)).trans o.of_word)
theorem ssub (o : S2) : Statement (.ssub o) :=
  decode_of_code (.ssub o) 0x41 _ rfl (by decide) (by decide) fun _ =>
    congrArg (Option.map Instr.ssub) ((congrArg S2.of (FR.of_bits _)).trans o.of_word)
theorem smul (o : S2) : Statement (.smul o) :=
  decode_of_code (.smul o) 0x42 _ rfl (by decide) (by decide) fun _ =>
    congrArg (Option.map Instr.smul) ((congrArg S2.of (FR.of_bits _)).trans o.of_word)
theorem smulh (o : S2) : Statement (.smulh o) :=
  decode_of_code (.smulh o) 0x43 _ rfl (by decide) (by decide) fun _ =>
    congrArg (Option.map Instr.smulh) ((congrArg S2.of (FR.of_bits _)).trans o.of_word)
theorem smulhn (o : S2) : Statement (.smulhn o) :=
  decode_of_code (.smulhn o) 0x44 _ rfl (by decide) (by decide) fun _ =>
    congrArg (Option.map Instr.smulhn) ((congrArg S2.of (FR.of_bits _)).trans o.of_word)
theorem sand (o : S2) : Statement (.sand o) :=
  decode_of_code (.sand o) 0x45 _ rfl (by decide) (by decide) fun _ =>
    congrArg (Option.map Instr.sand) ((congrArg S2.of (FR.of_bits _)).trans o.of_word)
theorem sor (o : S2) : Statement (.sor o) :=
  decode_of_code (.sor o) 0x46 _ rfl (by decide) (by decide) fun _ =>
    congrArg (Option.map Instr.sor) ((congrArg S2.of (FR.of_bits _)).trans o.of_word)
theorem sxor (o : S2) : Statement (.sxor o) :=
  decode_of_code (.sxor o) 0x47 _ rfl (by decide) (by decide) fun _ =>
    congrArg (Option.map Instr.sxor) ((congrArg S2.of (FR.of_bits _)).trans o.of_word)
theorem snot (o : S1) : Statement (.snot o) :=
  decode_of_code (.snot o) 0x48 _ rfl (by decide) (by decide) fun _ =>
    congrArg (Option.map Instr.snot) ((congrArg S1.of (FR.of_bits _)).trans o.of_word)
theorem sshl (o : S2) : Statement (.sshl o) :=
  decode_of_code (.sshl o) 0x49 _ rfl (by decide) (by decide) fun _ =>
    congrArg (Option.map Instr.sshl) ((congrArg S2.of (FR.of_bits _)).trans o.of_word)
theorem sshr (o : S2) : Statement (.sshr o) :=
  decode_of_code (.sshr o) 0x4a _ rfl (by decide) (by decide) fun _ =>
    congrArg (Option.map Instr.sshr) ((congrArg S2.of (FR.of_bits _)).trans o.of_word)
theorem ssra (o : S2) : Statement (.ssra o) :=
  decode_of_code (.ssra o) 0x4b _ rfl (by decide) (by decide) fun _ =>
    congrArg (Option.map Instr.ssra) ((congrArg S2.of (FR.of_bits _)).trans o.of_word)
theorem smin (o : S2) : Statement (.smin o) :=
  decode_of_code (.smin o) 0x4c _ rfl (by decide) (by decide) fun _ =>
    congrArg (Option.map Instr.smin) ((congrArg S2.of (FR.of_bits _)).trans o.of_word)
theorem smax (o : S2) : Statement (.smax o) :=
  decode_of_code (.smax o) 0x4d _ rfl (by decide) (by decide) fun _ =>
    congrArg (Option.map Instr.smax) ((congrArg S2.of (FR.of_bits _)).trans o.of_word)
theorem sminn (o : S2) : Statement (.sminn o) :=
  decode_of_code (.sminn o) 0x4e _ rfl (by decide) (by decide) fun _ =>
    congrArg (Option.map Instr.sminn) ((congrArg S2.of (FR.of_bits _)).trans o.of_word)
theorem smaxn (o : S2) : Statement (.smaxn o) :=
  decode_of_code (.smaxn o) 0x4f _ rfl (by decide) (by decide) fun _ =>
    congrArg (Option.map Instr.smaxn) ((congrArg S2.of (FR.of_bits _)).trans o.of_word)
theorem scmp (o : SCmp) : Statement (.scmp o) :=
  decode_of_code (.scmp o) 0x50 _ rfl (by decide) (by decide) fun _ =>
    congrArg (Option.map Instr.scmp) ((congrArg SCmp.of (FR.of_bits _)).trans o.of_word)
theorem ssel (o : S3) : Statement (.ssel o) :=
  decode_of_code (.ssel o) 0x51 _ rfl (by decide) (by decide) fun _ =>
    congrArg (Option.map Instr.ssel) ((congrArg S3.of (FR.of_bits _)).trans o.of_word)
theorem smov (o : S1) : Statement (.smov o) :=
  decode_of_code (.smov o) 0x52 _ rfl (by decide) (by decide) fun _ =>
    congrArg (Option.map Instr.smov) ((congrArg S1.of (FR.of_bits _)).trans o.of_word)
theorem sli (o : SLi) : Statement (.sli o) :=
  decode_of_code (.sli o) 0x53 _ rfl (by decide) (by decide) fun _ =>
    congrArg (Option.map Instr.sli) ((congrArg SLi.of (FI.of_bits _)).trans o.of_word)
theorem slih (o : SLi) : Statement (.slih o) :=
  decode_of_code (.slih o) 0x54 _ rfl (by decide) (by decide) fun _ =>
    congrArg (Option.map Instr.slih) ((congrArg SLi.of (FI.of_bits _)).trans o.of_word)
theorem sclz (o : S1) : Statement (.sclz o) :=
  decode_of_code (.sclz o) 0x55 _ rfl (by decide) (by decide) fun _ =>
    congrArg (Option.map Instr.sclz) ((congrArg S1.of (FR.of_bits _)).trans o.of_word)
theorem spopc (o : S1) : Statement (.spopc o) :=
  decode_of_code (.spopc o) 0x56 _ rfl (by decide) (by decide) fun _ =>
    congrArg (Option.map Instr.spopc) ((congrArg S1.of (FR.of_bits _)).trans o.of_word)
theorem saddc (o : S3) : Statement (.saddc o) :=
  decode_of_code (.saddc o) 0x57 _ rfl (by decide) (by decide) fun _ =>
    congrArg (Option.map Instr.saddc) ((congrArg S3.of (FR.of_bits _)).trans o.of_word)
theorem saddI (o : SI) : Statement (.saddI o) :=
  decode_of_code (.saddI o) 0x58 _ rfl (by decide) (by decide) fun _ =>
    congrArg (Option.map Instr.saddI) ((congrArg SI.of (FI.of_bits _)).trans o.of_word)
theorem ssubI (o : SI) : Statement (.ssubI o) :=
  decode_of_code (.ssubI o) 0x59 _ rfl (by decide) (by decide) fun _ =>
    congrArg (Option.map Instr.ssubI) ((congrArg SI.of (FI.of_bits _)).trans o.of_word)
theorem smulI (o : SI) : Statement (.smulI o) :=
  decode_of_code (.smulI o) 0x5a _ rfl (by decide) (by decide) fun _ =>
    congrArg (Option.map Instr.smulI) ((congrArg SI.of (FI.of_bits _)).trans o.of_word)
theorem sandI (o : SI) : Statement (.sandI o) :=
  decode_of_code (.sandI o) 0x5b _ rfl (by decide) (by decide) fun _ =>
    congrArg (Option.map Instr.sandI) ((congrArg SI.of (FI.of_bits _)).trans o.of_word)
theorem sorI (o : SI) : Statement (.sorI o) :=
  decode_of_code (.sorI o) 0x5c _ rfl (by decide) (by decide) fun _ =>
    congrArg (Option.map Instr.sorI) ((congrArg SI.of (FI.of_bits _)).trans o.of_word)
theorem sxorI (o : SI) : Statement (.sxorI o) :=
  decode_of_code (.sxorI o) 0x5d _ rfl (by decide) (by decide) fun _ =>
    congrArg (Option.map Instr.sxorI) ((congrArg SI.of (FI.of_bits _)).trans o.of_word)
theorem sshlI (o : SI) : Statement (.sshlI o) :=
  decode_of_code (.sshlI o) 0x5e _ rfl (by decide) (by decide) fun _ =>
    congrArg (Option.map Instr.sshlI) ((congrArg SI.of (FI.of_bits _)).trans o.of_word)
theorem sshrI (o : SI) : Statement (.sshrI o) :=
  decode_of_code (.sshrI o) 0x5f _ rfl (by decide) (by decide) fun _ =>
    congrArg (Option.map Instr.sshrI) ((congrArg SI.of (FI.of_bits _)).trans o.of_word)
theorem ssraI (o : SI) : Statement (.ssraI o) :=
  decode_of_code (.ssraI o) 0x60 _ rfl (by decide) (by decide) fun _ =>
    congrArg (Option.map Instr.ssraI) ((congrArg SI.of (FI.of_bits _)).trans o.of_word)
theorem sminI (o : SI) : Statement (.sminI o) :=
  decode_of_code (.sminI o) 0x61 _ rfl (by decide) (by decide) fun _ =>
    congrArg (Option.map Instr.sminI) ((congrArg SI.of (FI.of_bits _)).trans o.of_word)
theorem smaxI (o : SI) : Statement (.smaxI o) :=
  decode_of_code (.smaxI o) 0x62 _ rfl (by decide) (by decide) fun _ =>
    congrArg (Option.map Instr.smaxI) ((congrArg SI.of (FI.of_bits _)).trans o.of_word)
theorem sminnI (o : SI) : Statement (.sminnI o) :=
  decode_of_code (.sminnI o) 0x63 _ rfl (by decide) (by decide) fun _ =>
    congrArg (Option.map Instr.sminnI) ((congrArg SI.of (FI.of_bits _)).trans o.of_word)
theorem smaxnI (o : SI) : Statement (.smaxnI o) :=
  decode_of_code (.smaxnI o) 0x64 _ rfl (by decide) (by decide) fun _ =>
    congrArg (Option.map Instr.smaxnI) ((congrArg SI.of (FI.of_bits _)).trans o.of_word)
theorem scmpI (o : SCmpI) : Statement (.scmpI o) :=
  decode_of_code (.scmpI o) 0x65 _ rfl (by decide) (by decide) fun _ =>
    congrArg (Option.map Instr.scmpI) ((congrArg SCmpI.of (FI.of_bits _)).trans o.of_word)
theorem vadd (o : V2) : Statement (.vadd o) :=
  decode_of_code (.vadd o) 0x80 _ rfl (by decide) (by decide) fun _ =>
    congrArg (Option.map Instr.vadd) ((congrArg V2.of (FR.of_bits _)).trans o.of_word)
theorem vsub (o : V2) : Statement (.vsub o) :=
  decode_of_code (.vsub o) 0x81 _ rfl (by decide) (by decide) fun _ =>
    congrArg (Option.map Instr.vsub) ((congrArg V2.of (FR.of_bits _)).trans o.of_word)
theorem vmul (o : V2) : Statement (.vmul o) :=
  decode_of_code (.vmul o) 0x82 _ rfl (by decide) (by decide) fun _ =>
    congrArg (Option.map Instr.vmul) ((congrArg V2.of (FR.of_bits _)).trans o.of_word)
theorem vmulh (o : V2) : Statement (.vmulh o) :=
  decode_of_code (.vmulh o) 0x83 _ rfl (by decide) (by decide) fun _ =>
    congrArg (Option.map Instr.vmulh) ((congrArg V2.of (FR.of_bits _)).trans o.of_word)
theorem vmulhn (o : V2) : Statement (.vmulhn o) :=
  decode_of_code (.vmulhn o) 0x84 _ rfl (by decide) (by decide) fun _ =>
    congrArg (Option.map Instr.vmulhn) ((congrArg V2.of (FR.of_bits _)).trans o.of_word)
theorem vmad (o : V3) : Statement (.vmad o) :=
  decode_of_code (.vmad o) 0x85 _ rfl (by decide) (by decide) fun _ =>
    congrArg (Option.map Instr.vmad) ((congrArg V3.of (FR.of_bits _)).trans o.of_word)
theorem vadds (o : V2) : Statement (.vadds o) :=
  decode_of_code (.vadds o) 0x86 _ rfl (by decide) (by decide) fun _ =>
    congrArg (Option.map Instr.vadds) ((congrArg V2.of (FR.of_bits _)).trans o.of_word)
theorem vsubs (o : V2) : Statement (.vsubs o) :=
  decode_of_code (.vsubs o) 0x87 _ rfl (by decide) (by decide) fun _ =>
    congrArg (Option.map Instr.vsubs) ((congrArg V2.of (FR.of_bits _)).trans o.of_word)
theorem vand (o : V2) : Statement (.vand o) :=
  decode_of_code (.vand o) 0x88 _ rfl (by decide) (by decide) fun _ =>
    congrArg (Option.map Instr.vand) ((congrArg V2.of (FR.of_bits _)).trans o.of_word)
theorem vor (o : V2) : Statement (.vor o) :=
  decode_of_code (.vor o) 0x89 _ rfl (by decide) (by decide) fun _ =>
    congrArg (Option.map Instr.vor) ((congrArg V2.of (FR.of_bits _)).trans o.of_word)
theorem vxor (o : V2) : Statement (.vxor o) :=
  decode_of_code (.vxor o) 0x8a _ rfl (by decide) (by decide) fun _ =>
    congrArg (Option.map Instr.vxor) ((congrArg V2.of (FR.of_bits _)).trans o.of_word)
theorem vnot (o : V1) : Statement (.vnot o) :=
  decode_of_code (.vnot o) 0x8b _ rfl (by decide) (by decide) fun _ =>
    congrArg (Option.map Instr.vnot) ((congrArg V1.of (FR.of_bits _)).trans o.of_word)
theorem vshl (o : V2) : Statement (.vshl o) :=
  decode_of_code (.vshl o) 0x8c _ rfl (by decide) (by decide) fun _ =>
    congrArg (Option.map Instr.vshl) ((congrArg V2.of (FR.of_bits _)).trans o.of_word)
theorem vshr (o : V2) : Statement (.vshr o) :=
  decode_of_code (.vshr o) 0x8d _ rfl (by decide) (by decide) fun _ =>
    congrArg (Option.map Instr.vshr) ((congrArg V2.of (FR.of_bits _)).trans o.of_word)
theorem vsra (o : V2) : Statement (.vsra o) :=
  decode_of_code (.vsra o) 0x8e _ rfl (by decide) (by decide) fun _ =>
    congrArg (Option.map Instr.vsra) ((congrArg V2.of (FR.of_bits _)).trans o.of_word)
theorem vmin (o : V2) : Statement (.vmin o) :=
  decode_of_code (.vmin o) 0x8f _ rfl (by decide) (by decide) fun _ =>
    congrArg (Option.map Instr.vmin) ((congrArg V2.of (FR.of_bits _)).trans o.of_word)
theorem vmax (o : V2) : Statement (.vmax o) :=
  decode_of_code (.vmax o) 0x90 _ rfl (by decide) (by decide) fun _ =>
    congrArg (Option.map Instr.vmax) ((congrArg V2.of (FR.of_bits _)).trans o.of_word)
theorem vminn (o : V2) : Statement (.vminn o) :=
  decode_of_code (.vminn o) 0x91 _ rfl (by decide) (by decide) fun _ =>
    congrArg (Option.map Instr.vminn) ((congrArg V2.of (FR.of_bits _)).trans o.of_word)
theorem vmaxn (o : V2) : Statement (.vmaxn o) :=
  decode_of_code (.vmaxn o) 0x92 _ rfl (by decide) (by decide) fun _ =>
    congrArg (Option.map Instr.vmaxn) ((congrArg V2.of (FR.of_bits _)).trans o.of_word)
theorem vabs (o : V1) : Statement (.vabs o) :=
  decode_of_code (.vabs o) 0x93 _ rfl (by decide) (by decide) fun _ =>
    congrArg (Option.map Instr.vabs) ((congrArg V1.of (FR.of_bits _)).trans o.of_word)
theorem vneg (o : V1) : Statement (.vneg o) :=
  decode_of_code (.vneg o) 0x94 _ rfl (by decide) (by decide) fun _ =>
    congrArg (Option.map Instr.vneg) ((congrArg V1.of (FR.of_bits _)).trans o.of_word)
theorem vcmp (o : VCmp) : Statement (.vcmp o) :=
  decode_of_code (.vcmp o) 0x95 _ rfl (by decide) (by decide) fun _ =>
    congrArg (Option.map Instr.vcmp) ((congrArg VCmp.of (FR.of_bits _)).trans o.of_word)
theorem vsel (o : VSel) : Statement (.vsel o) :=
  decode_of_code (.vsel o) 0x96 _ rfl (by decide) (by decide) fun _ =>
    congrArg (Option.map Instr.vsel) ((congrArg VSel.of (FR.of_bits _)).trans o.of_word)
theorem vpopc (o : V1) : Statement (.vpopc o) :=
  decode_of_code (.vpopc o) 0x97 _ rfl (by decide) (by decide) fun _ =>
    congrArg (Option.map Instr.vpopc) ((congrArg V1.of (FR.of_bits _)).trans o.of_word)
theorem vclz (o : V1) : Statement (.vclz o) :=
  decode_of_code (.vclz o) 0x98 _ rfl (by decide) (by decide) fun _ =>
    congrArg (Option.map Instr.vclz) ((congrArg V1.of (FR.of_bits _)).trans o.of_word)
theorem vbfx (o : V2) : Statement (.vbfx o) :=
  decode_of_code (.vbfx o) 0x99 _ rfl (by decide) (by decide) fun _ =>
    congrArg (Option.map Instr.vbfx) ((congrArg V2.of (FR.of_bits _)).trans o.of_word)
theorem vbfi (o : V3) : Statement (.vbfi o) :=
  decode_of_code (.vbfi o) 0x9a _ rfl (by decide) (by decide) fun _ =>
    congrArg (Option.map Instr.vbfi) ((congrArg V3.of (FR.of_bits _)).trans o.of_word)
theorem vmov (o : V1) : Statement (.vmov o) :=
  decode_of_code (.vmov o) 0x9b _ rfl (by decide) (by decide) fun _ =>
    congrArg (Option.map Instr.vmov) ((congrArg V1.of (FR.of_bits _)).trans o.of_word)
theorem vli (o : VLi) : Statement (.vli o) :=
  decode_of_code (.vli o) 0x9c _ rfl (by decide) (by decide) fun _ =>
    congrArg (Option.map Instr.vli) ((congrArg VLi.of (FI.of_bits _)).trans o.of_word)
theorem vdot4 (o : V3) : Statement (.vdot4 o) :=
  decode_of_code (.vdot4 o) 0x9d _ rfl (by decide) (by decide) fun _ =>
    congrArg (Option.map Instr.vdot4) ((congrArg V3.of (FR.of_bits _)).trans o.of_word)
theorem vfadd (o : V2) : Statement (.vfadd o) :=
  decode_of_code (.vfadd o) 0xc0 _ rfl (by decide) (by decide) fun _ =>
    congrArg (Option.map Instr.vfadd) ((congrArg V2.of (FR.of_bits _)).trans o.of_word)
theorem vfsub (o : V2) : Statement (.vfsub o) :=
  decode_of_code (.vfsub o) 0xc1 _ rfl (by decide) (by decide) fun _ =>
    congrArg (Option.map Instr.vfsub) ((congrArg V2.of (FR.of_bits _)).trans o.of_word)
theorem vfmul (o : V2) : Statement (.vfmul o) :=
  decode_of_code (.vfmul o) 0xc2 _ rfl (by decide) (by decide) fun _ =>
    congrArg (Option.map Instr.vfmul) ((congrArg V2.of (FR.of_bits _)).trans o.of_word)
theorem vfma (o : V3) : Statement (.vfma o) :=
  decode_of_code (.vfma o) 0xc3 _ rfl (by decide) (by decide) fun _ =>
    congrArg (Option.map Instr.vfma) ((congrArg V3.of (FR.of_bits _)).trans o.of_word)
theorem vfms (o : V3) : Statement (.vfms o) :=
  decode_of_code (.vfms o) 0xc4 _ rfl (by decide) (by decide) fun _ =>
    congrArg (Option.map Instr.vfms) ((congrArg V3.of (FR.of_bits _)).trans o.of_word)
theorem vfnma (o : V3) : Statement (.vfnma o) :=
  decode_of_code (.vfnma o) 0xc5 _ rfl (by decide) (by decide) fun _ =>
    congrArg (Option.map Instr.vfnma) ((congrArg V3.of (FR.of_bits _)).trans o.of_word)
theorem vfmin (o : V2) : Statement (.vfmin o) :=
  decode_of_code (.vfmin o) 0xc6 _ rfl (by decide) (by decide) fun _ =>
    congrArg (Option.map Instr.vfmin) ((congrArg V2.of (FR.of_bits _)).trans o.of_word)
theorem vfmax (o : V2) : Statement (.vfmax o) :=
  decode_of_code (.vfmax o) 0xc7 _ rfl (by decide) (by decide) fun _ =>
    congrArg (Option.map Instr.vfmax) ((congrArg V2.of (FR.of_bits _)).trans o.of_word)
theorem vfcmp (o : VFCmp) : Statement (.vfcmp o) :=
  decode_of_code (.vfcmp o) 0xc8 _ rfl (by decide) (by decide) fun _ =>
    congrArg (Option.map Instr.vfcmp) ((congrArg VFCmp.of (FR.of_bits _)).trans o.of_word)
theorem vfabs (o : V1) : Statement (.vfabs o) :=
  decode_of_code (.vfabs o) 0xc9 _ rfl (by decide) (by decide) fun _ =>
    congrArg (Option.map Instr.vfabs) ((congrArg V1.of (FR.of_bits _)).trans o.of_word)
theorem vfneg (o : V1) : Statement (.vfneg o) :=
  decode_of_code (.vfneg o) 0xca _ rfl (by decide) (by decide) fun _ =>
    congrArg (Option.map Instr.vfneg) ((congrArg V1.of (FR.of_bits _)).trans o.of_word)
theorem vfcls (o : V1) : Statement (.vfcls o) :=
  decode_of_code (.vfcls o) 0xcb _ rfl (by decide) (by decide) fun _ =>
    congrArg (Option.map Instr.vfcls) ((congrArg V1.of (FR.of_bits _)).trans o.of_word)
theorem vfdot2 (o : V3) : Statement (.vfdot2 o) :=
  decode_of_code (.vfdot2 o) 0xcc _ rfl (by decide) (by decide) fun _ =>
    congrArg (Option.map Instr.vfdot2) ((congrArg V3.of (FR.of_bits _)).trans o.of_word)
theorem vrcp (o : V1) : Statement (.vrcp o) :=
  decode_of_code (.vrcp o) 0xd0 _ rfl (by decide) (by decide) fun _ =>
    congrArg (Option.map Instr.vrcp) ((congrArg V1.of (FR.of_bits _)).trans o.of_word)
theorem vrsq (o : V1) : Statement (.vrsq o) :=
  decode_of_code (.vrsq o) 0xd1 _ rfl (by decide) (by decide) fun _ =>
    congrArg (Option.map Instr.vrsq) ((congrArg V1.of (FR.of_bits _)).trans o.of_word)
theorem vsqrt (o : V1) : Statement (.vsqrt o) :=
  decode_of_code (.vsqrt o) 0xd2 _ rfl (by decide) (by decide) fun _ =>
    congrArg (Option.map Instr.vsqrt) ((congrArg V1.of (FR.of_bits _)).trans o.of_word)
theorem vdiv (o : V2) : Statement (.vdiv o) :=
  decode_of_code (.vdiv o) 0xd3 _ rfl (by decide) (by decide) fun _ =>
    congrArg (Option.map Instr.vdiv) ((congrArg V2.of (FR.of_bits _)).trans o.of_word)
theorem vexp2 (o : V1) : Statement (.vexp2 o) :=
  decode_of_code (.vexp2 o) 0xd4 _ rfl (by decide) (by decide) fun _ =>
    congrArg (Option.map Instr.vexp2) ((congrArg V1.of (FR.of_bits _)).trans o.of_word)
theorem vlog2 (o : V1) : Statement (.vlog2 o) :=
  decode_of_code (.vlog2 o) 0xd5 _ rfl (by decide) (by decide) fun _ =>
    congrArg (Option.map Instr.vlog2) ((congrArg V1.of (FR.of_bits _)).trans o.of_word)
theorem vsint (o : V1) : Statement (.vsint o) :=
  decode_of_code (.vsint o) 0xd6 _ rfl (by decide) (by decide) fun _ =>
    congrArg (Option.map Instr.vsint) ((congrArg V1.of (FR.of_bits _)).trans o.of_word)
theorem vcost (o : V1) : Statement (.vcost o) :=
  decode_of_code (.vcost o) 0xd7 _ rfl (by decide) (by decide) fun _ =>
    congrArg (Option.map Instr.vcost) ((congrArg V1.of (FR.of_bits _)).trans o.of_word)
theorem vcvt (o : VCvt) : Statement (.vcvt o) :=
  decode_of_code (.vcvt o) 0x100 _ rfl (by decide) (by decide) fun _ =>
    congrArg (Option.map Instr.vcvt) ((congrArg VCvt.of (FR.of_bits _)).trans o.of_word)
theorem vcvti (o : VCvt) : Statement (.vcvti o) :=
  decode_of_code (.vcvti o) 0x101 _ rfl (by decide) (by decide) fun _ =>
    congrArg (Option.map Instr.vcvti) ((congrArg VCvt.of (FR.of_bits _)).trans o.of_word)
theorem vcvtf (o : VCvt) : Statement (.vcvtf o) :=
  decode_of_code (.vcvtf o) 0x102 _ rfl (by decide) (by decide) fun _ =>
    congrArg (Option.map Instr.vcvtf) ((congrArg VCvt.of (FR.of_bits _)).trans o.of_word)
theorem vpack (o : VCvt) : Statement (.vpack o) :=
  decode_of_code (.vpack o) 0x103 _ rfl (by decide) (by decide) fun _ =>
    congrArg (Option.map Instr.vpack) ((congrArg VCvt.of (FR.of_bits _)).trans o.of_word)
theorem vunpk (o : VCvt) : Statement (.vunpk o) :=
  decode_of_code (.vunpk o) 0x104 _ rfl (by decide) (by decide) fun _ =>
    congrArg (Option.map Instr.vunpk) ((congrArg VCvt.of (FR.of_bits _)).trans o.of_word)
theorem vxpd (o : Vxpd) : Statement (.vxpd o) :=
  decode_of_code (.vxpd o) 0x105 _ rfl (by decide) (by decide) fun _ =>
    congrArg (Option.map Instr.vxpd) ((congrArg Vxpd.of (FR.of_bits _)).trans o.of_word)
theorem vretag (o : V1) : Statement (.vretag o) :=
  decode_of_code (.vretag o) 0x106 _ rfl (by decide) (by decide) fun _ =>
    congrArg (Option.map Instr.vretag) ((congrArg V1.of (FR.of_bits _)).trans o.of_word)
theorem vgettag (o : VToS) : Statement (.vgettag o) :=
  decode_of_code (.vgettag o) 0x107 _ rfl (by decide) (by decide) fun _ =>
    congrArg (Option.map Instr.vgettag) ((congrArg VToS.of (FR.of_bits _)).trans o.of_word)
theorem amaxr (o : AmaxR) : Statement (.amaxr o) :=
  decode_of_code (.amaxr o) 0x108 _ rfl (by decide) (by decide) fun _ =>
    congrArg (Option.map Instr.amaxr) ((congrArg AmaxR.of (FR.of_bits _)).trans o.of_word)
theorem amaxc (o : AmaxC) : Statement (.amaxc o) :=
  decode_of_code (.amaxc o) 0x109 _ rfl (by decide) (by decide) fun _ =>
    congrArg (Option.map Instr.amaxc) ((congrArg AmaxC.of (FR.of_bits _)).trans o.of_word)
theorem vshfl (o : V2) : Statement (.vshfl o) :=
  decode_of_code (.vshfl o) 0x110 _ rfl (by decide) (by decide) fun _ =>
    congrArg (Option.map Instr.vshfl) ((congrArg V2.of (FR.of_bits _)).trans o.of_word)
theorem vbal (o : VBal) : Statement (.vbal o) :=
  decode_of_code (.vbal o) 0x111 _ rfl (by decide) (by decide) fun _ =>
    congrArg (Option.map Instr.vbal) ((congrArg VBal.of (FR.of_bits _)).trans o.of_word)
theorem vpfx (o : VPfx) : Statement (.vpfx o) :=
  decode_of_code (.vpfx o) 0x112 _ rfl (by decide) (by decide) fun _ =>
    congrArg (Option.map Instr.vpfx) ((congrArg VPfx.of (FR.of_bits _)).trans o.of_word)
theorem vred (o : VRed) : Statement (.vred o) :=
  decode_of_code (.vred o) 0x113 _ rfl (by decide) (by decide) fun _ =>
    congrArg (Option.map Instr.vred) ((congrArg VRed.of (FR.of_bits _)).trans o.of_word)
theorem vscan (o : VScan) : Statement (.vscan o) :=
  decode_of_code (.vscan o) 0x114 _ rfl (by decide) (by decide) fun _ =>
    congrArg (Option.map Instr.vscan) ((congrArg VScan.of (FR.of_bits _)).trans o.of_word)
theorem vcmpr (o : VM) : Statement (.vcmpr o) :=
  decode_of_code (.vcmpr o) 0x115 _ rfl (by decide) (by decide) fun _ =>
    congrArg (Option.map Instr.vcmpr) ((congrArg VM.of (FR.of_bits _)).trans o.of_word)
theorem vrfl (o : VToS) : Statement (.vrfl o) :=
  decode_of_code (.vrfl o) 0x116 _ rfl (by decide) (by decide) fun _ =>
    congrArg (Option.map Instr.vrfl) ((congrArg VToS.of (FR.of_bits _)).trans o.of_word)
theorem vbcs (o : VM) : Statement (.vbcs o) :=
  decode_of_code (.vbcs o) 0x117 _ rfl (by decide) (by decide) fun _ =>
    congrArg (Option.map Instr.vbcs) ((congrArg VM.of (FR.of_bits _)).trans o.of_word)
theorem mand (o : M2) : Statement (.mand o) :=
  decode_of_code (.mand o) 0x118 _ rfl (by decide) (by decide) fun _ =>
    congrArg (Option.map Instr.mand) ((congrArg M2.of (FR.of_bits _)).trans o.of_word)
theorem mor (o : M2) : Statement (.mor o) :=
  decode_of_code (.mor o) 0x119 _ rfl (by decide) (by decide) fun _ =>
    congrArg (Option.map Instr.mor) ((congrArg M2.of (FR.of_bits _)).trans o.of_word)
theorem mxor (o : M2) : Statement (.mxor o) :=
  decode_of_code (.mxor o) 0x11a _ rfl (by decide) (by decide) fun _ =>
    congrArg (Option.map Instr.mxor) ((congrArg M2.of (FR.of_bits _)).trans o.of_word)
theorem mnot (o : M1) : Statement (.mnot o) :=
  decode_of_code (.mnot o) 0x11b _ rfl (by decide) (by decide) fun _ =>
    congrArg (Option.map Instr.mnot) ((congrArg M1.of (FR.of_bits _)).trans o.of_word)
theorem mpopc (o : MToS) : Statement (.mpopc o) :=
  decode_of_code (.mpopc o) 0x11c _ rfl (by decide) (by decide) fun _ =>
    congrArg (Option.map Instr.mpopc) ((congrArg MToS.of (FR.of_bits _)).trans o.of_word)
theorem mffs (o : MToS) : Statement (.mffs o) :=
  decode_of_code (.mffs o) 0x11d _ rfl (by decide) (by decide) fun _ =>
    congrArg (Option.map Instr.mffs) ((congrArg MToS.of (FR.of_bits _)).trans o.of_word)
theorem mmov (o : MMov) : Statement (.mmov o) :=
  decode_of_code (.mmov o) 0x11e _ rfl (by decide) (by decide) fun _ =>
    congrArg (Option.map Instr.mmov) ((congrArg MMov.of (FR.of_bits _)).trans o.of_word)
theorem gset (o : GSet) : Statement (.gset o) :=
  decode_of_code (.gset o) 0x120 _ rfl (by decide) (by decide) fun _ =>
    congrArg (Option.map Instr.gset) ((congrArg GSet.of (FR.of_bits _)).trans o.of_word)
theorem grd (o : Grd) : Statement (.grd o) :=
  decode_of_code (.grd o) 0x121 _ rfl (by decide) (by decide) fun _ =>
    congrArg (Option.map Instr.grd) ((congrArg Grd.of (FR.of_bits _)).trans o.of_word)
theorem gadv (o : GAdv) : Statement (.gadv o) :=
  decode_of_code (.gadv o) 0x122 _ rfl (by decide) (by decide) fun _ =>
    congrArg (Option.map Instr.gadv) ((congrArg GAdv.of (FR.of_bits _)).trans o.of_word)
theorem vld (o : VLd) : Statement (.vld o) :=
  decode_of_code (.vld o) _ _ rfl (vld_small o) (vld_known o) (vld_parse o)
theorem vst (o : VSt) : Statement (.vst o) :=
  decode_of_code (.vst o) _ _ rfl (vst_small o) (vst_known o) (vst_parse o)
theorem vlds (o : VLd) : Statement (.vlds o) :=
  decode_of_code (.vlds o) _ _ rfl (vlds_small o) (vlds_known o) (vlds_parse o)
theorem vsts (o : VSt) : Statement (.vsts o) :=
  decode_of_code (.vsts o) _ _ rfl (vsts_small o) (vsts_known o) (vsts_parse o)
theorem sld (o : SLd) : Statement (.sld o) :=
  decode_of_code (.sld o) _ _ rfl (sld_small o) (sld_known o) (sld_parse o)
theorem sst (o : SSt) : Statement (.sst o) :=
  decode_of_code (.sst o) _ _ rfl (sst_small o) (sst_known o) (sst_parse o)
theorem vatom (o : VAtom) : Statement (.vatom o) :=
  decode_of_code (.vatom o) _ _ rfl (vatom_small o) (vatom_known o) (vatom_parse o)
theorem satom (o : SAtom) : Statement (.satom o) :=
  decode_of_code (.satom o) _ _ rfl (satom_small o) (satom_known o) (satom_parse o)
theorem vcstGm (o : VCst) : Statement (.vcstGm o) :=
  decode_of_code (.vcstGm o) 0x210 _ rfl (by decide) (by decide) fun h => by
    have h : o.addr.index = .zero ∧ o.addr.scale = 0 := by simp [Instr.wf] at h; exact ⟨h.1.1, h.1.2⟩
    exact (congrArg (Option.map Instr.vcstGm) ((congrArg VCst.of (FM.of_bits _)).trans (o.of_word h.1 h.2)))
theorem vcstSp (o : VCst) : Statement (.vcstSp o) :=
  decode_of_code (.vcstSp o) 0x211 _ rfl (by decide) (by decide) fun h => by
    have h : o.addr.index = .zero ∧ o.addr.scale = 0 := by simp [Instr.wf] at h; exact ⟨h.1.1, h.1.2⟩
    exact (congrArg (Option.map Instr.vcstSp) ((congrArg VCst.of (FM.of_bits _)).trans (o.of_word h.1 h.2)))
theorem ldlGm32 (o : Ldl) : Statement (.ldlGm32 o) :=
  decode_of_code (.ldlGm32 o) 0x218 _ rfl (by decide) (by decide) fun _ =>
    congrArg (Option.map Instr.ldlGm32) ((congrArg Ldl.of (FM.of_bits _)).trans o.of_word)
theorem ldlGm64 (o : Ldl) : Statement (.ldlGm64 o) :=
  decode_of_code (.ldlGm64 o) 0x219 _ rfl (by decide) (by decide) fun _ =>
    congrArg (Option.map Instr.ldlGm64) ((congrArg Ldl.of (FM.of_bits _)).trans o.of_word)
theorem ldlSp32 (o : Ldl) : Statement (.ldlSp32 o) :=
  decode_of_code (.ldlSp32 o) 0x21a _ rfl (by decide) (by decide) fun _ =>
    congrArg (Option.map Instr.ldlSp32) ((congrArg Ldl.of (FM.of_bits _)).trans o.of_word)
theorem ldlSp64 (o : Ldl) : Statement (.ldlSp64 o) :=
  decode_of_code (.ldlSp64 o) 0x21b _ rfl (by decide) (by decide) fun _ =>
    congrArg (Option.map Instr.ldlSp64) ((congrArg Ldl.of (FM.of_bits _)).trans o.of_word)
theorem stc (o : Stc) : Statement (.stc o) :=
  decode_of_code (.stc o) 0x21c _ rfl (by decide) (by decide) fun _ =>
    congrArg (Option.map Instr.stc) ((congrArg Stc.of (FM.of_bits _)).trans o.of_word)
theorem lkclr (o : Bare) : Statement (.lkclr o) :=
  decode_of_code (.lkclr o) 0x21d _ rfl (by decide) (by decide) fun _ =>
    congrArg (Option.map Instr.lkclr) ((congrArg Bare.ofM (FM.of_bits _)).trans o.ofM_wordM)
theorem fence (o : Fence) : Statement (.fence o) :=
  decode_of_code (.fence o) 0x21e _ rfl (by decide) (by decide) fun _ =>
    congrArg (Option.map Instr.fence) ((congrArg Fence.of (FM.of_bits _)).trans o.of_word)
theorem fencex (o : FenceX) : Statement (.fencex o) :=
  decode_of_code (.fencex o) 0x21f _ rfl (by decide) (by decide) fun _ =>
    congrArg (Option.map Instr.fencex) ((congrArg FenceX.of (FM.of_bits _)).trans o.of_word)
theorem splk (o : SpLk) : Statement (.splk o) :=
  decode_of_code (.splk o) 0x220 _ rfl (by decide) (by decide) fun _ =>
    congrArg (Option.map Instr.splk) ((congrArg SpLk.of (FM.of_bits _)).trans o.of_word)
theorem spset (o : SpSet) : Statement (.spset o) :=
  decode_of_code (.spset o) 0x221 _ rfl (by decide) (by decide) fun _ =>
    congrArg (Option.map Instr.spset) ((congrArg SpSet.of (FM.of_bits _)).trans o.of_word)
theorem spclr (o : SpClr) : Statement (.spclr o) :=
  decode_of_code (.spclr o) 0x222 _ rfl (by decide) (by decide) fun _ =>
    congrArg (Option.map Instr.spclr) ((congrArg SpClr.of (FM.of_bits _)).trans o.of_word)
theorem spget (o : SpGet) : Statement (.spget o) :=
  decode_of_code (.spget o) 0x223 _ rfl (by decide) (by decide) fun _ =>
    congrArg (Option.map Instr.spget) ((congrArg SpGet.of (FM.of_bits _)).trans o.of_word)
theorem gldGm (o : GMem) : Statement (.gldGm o) :=
  decode_of_code (.gldGm o) 0x228 _ rfl (by decide) (by decide) fun h => by
    have h : o.addr.index = .zero ∧ o.addr.scale = 0 := by simp [Instr.wf] at h; exact h
    exact (congrArg (Option.map Instr.gldGm) ((congrArg GMem.of (FM.of_bits _)).trans (o.of_word h.1 h.2)))
theorem gldSp (o : GMem) : Statement (.gldSp o) :=
  decode_of_code (.gldSp o) 0x229 _ rfl (by decide) (by decide) fun h => by
    have h : o.addr.index = .zero ∧ o.addr.scale = 0 := by simp [Instr.wf] at h; exact h
    exact (congrArg (Option.map Instr.gldSp) ((congrArg GMem.of (FM.of_bits _)).trans (o.of_word h.1 h.2)))
theorem gstGm (o : GMem) : Statement (.gstGm o) :=
  decode_of_code (.gstGm o) 0x22a _ rfl (by decide) (by decide) fun h => by
    have h : o.addr.index = .zero ∧ o.addr.scale = 0 := by simp [Instr.wf] at h; exact h
    exact (congrArg (Option.map Instr.gstGm) ((congrArg GMem.of (FM.of_bits _)).trans (o.of_word h.1 h.2)))
theorem gstSp (o : GMem) : Statement (.gstSp o) :=
  decode_of_code (.gstSp o) 0x22b _ rfl (by decide) (by decide) fun h => by
    have h : o.addr.index = .zero ∧ o.addr.scale = 0 := by simp [Instr.wf] at h; exact h
    exact (congrArg (Option.map Instr.gstSp) ((congrArg GMem.of (FM.of_bits _)).trans (o.of_word h.1 h.2)))
theorem mma (o : Mma) : Statement (.mma o) :=
  decode_of_code (.mma o) 0x2c0 _ rfl (by decide) (by decide) fun _ =>
    congrArg (Option.map Instr.mma) ((congrArg Mma.of (FX.of_bits _)).trans o.of_word)
theorem mmaz (o : Mma) : Statement (.mmaz o) :=
  decode_of_code (.mmaz o) 0x2c1 _ rfl (by decide) (by decide) fun _ =>
    congrArg (Option.map Instr.mmaz) ((congrArg Mma.of (FX.of_bits _)).trans o.of_word)
theorem mzero (o : MZero) : Statement (.mzero o) :=
  decode_of_code (.mzero o) 0x2c2 _ rfl (by decide) (by decide) fun _ =>
    congrArg (Option.map Instr.mzero) ((congrArg MZero.of (FX.of_bits _)).trans o.of_word)
theorem mst (o : MSt) : Statement (.mst o) :=
  decode_of_code (.mst o) 0x2c3 _ rfl (by decide) (by decide) fun _ =>
    congrArg (Option.map Instr.mst) ((congrArg MSt.of (FX.of_bits _)).trans o.of_word)
theorem mld (o : MLd) : Statement (.mld o) :=
  decode_of_code (.mld o) 0x2c4 _ rfl (by decide) (by decide) fun _ =>
    congrArg (Option.map Instr.mld) ((congrArg MLd.of (FX.of_bits _)).trans o.of_word)
theorem mrstl (o : MRstl) : Statement (.mrstl o) :=
  decode_of_code (.mrstl o) 0x2c5 _ rfl (by decide) (by decide) fun _ =>
    congrArg (Option.map Instr.mrstl) ((congrArg MRstl.of (FX.of_bits _)).trans o.of_word)
theorem cbwr (o : CbWr) : Statement (.cbwr o) :=
  decode_of_code (.cbwr o) 0x2c6 _ rfl (by decide) (by decide) fun _ =>
    congrArg (Option.map Instr.cbwr) ((congrArg CbWr.of (FR.of_bits _)).trans o.of_word)
theorem cbcfg (o : CbCfg) : Statement (.cbcfg o) :=
  decode_of_code (.cbcfg o) 0x2c7 _ rfl (by decide) (by decide) fun _ =>
    congrArg (Option.map Instr.cbcfg) ((congrArg CbCfg.of (FR.of_bits _)).trans o.of_word)
theorem cbinv (o : CbInv) : Statement (.cbinv o) :=
  decode_of_code (.cbinv o) 0x2c8 _ rfl (by decide) (by decide) fun _ =>
    congrArg (Option.map Instr.cbinv) ((congrArg CbInv.of (FR.of_bits _)).trans o.of_word)
theorem cpy (o : Cpy) : Statement (.cpy o) :=
  decode_of_code (.cpy o) 0x300 _ rfl (by decide) (by decide) fun _ =>
    congrArg (Option.map Instr.cpy) ((congrArg Cpy.of (FK.of_bits _)).trans o.of_word)
theorem cpyn (o : Cpy) : Statement (.cpyn o) :=
  decode_of_code (.cpyn o) 0x301 _ rfl (by decide) (by decide) fun _ =>
    congrArg (Option.map Instr.cpyn) ((congrArg Cpy.of (FK.of_bits _)).trans o.of_word)
theorem twany (o : TMask) : Statement (.twany o) :=
  decode_of_code (.twany o) 0x302 _ rfl (by decide) (by decide) fun _ =>
    congrArg (Option.map Instr.twany) ((congrArg TMask.of (FR.of_bits _)).trans o.of_word)
theorem twall (o : TMask) : Statement (.twall o) :=
  decode_of_code (.twall o) 0x303 _ rfl (by decide) (by decide) fun _ =>
    congrArg (Option.map Instr.twall) ((congrArg TMask.of (FR.of_bits _)).trans o.of_word)
theorem tffr (o : TFfr) : Statement (.tffr o) :=
  decode_of_code (.tffr o) 0x304 _ rfl (by decide) (by decide) fun _ =>
    congrArg (Option.map Instr.tffr) ((congrArg TFfr.of (FR.of_bits _)).trans o.of_word)
theorem tclr (o : TMask) : Statement (.tclr o) :=
  decode_of_code (.tclr o) 0x305 _ rfl (by decide) (by decide) fun _ =>
    congrArg (Option.map Instr.tclr) ((congrArg TMask.of (FR.of_bits _)).trans o.of_word)
theorem htest (o : HTest) : Statement (.htest o) :=
  decode_of_code (.htest o) 0x306 _ rfl (by decide) (by decide) fun _ =>
    congrArg (Option.map Instr.htest) ((congrArg HTest.of (FR.of_bits _)).trans o.of_word)
theorem hwait (o : HOp) : Statement (.hwait o) :=
  decode_of_code (.hwait o) 0x307 _ rfl (by decide) (by decide) fun _ =>
    congrArg (Option.map Instr.hwait) ((congrArg HOp.of (FR.of_bits _)).trans o.of_word)
theorem hcancel (o : HOp) : Statement (.hcancel o) :=
  decode_of_code (.hcancel o) 0x308 _ rfl (by decide) (by decide) fun _ =>
    congrArg (Option.map Instr.hcancel) ((congrArg HOp.of (FR.of_bits _)).trans o.of_word)
theorem cbld (o : CbLd) : Statement (.cbld o) :=
  decode_of_code (.cbld o) 0x309 _ rfl (by decide) (by decide) fun _ =>
    congrArg (Option.map Instr.cbld) ((congrArg CbLd.of (FB.of_bits _)).trans o.of_word)
theorem swtrap (o : Imm16) : Statement (.swtrap o) :=
  decode_of_code (.swtrap o) 0x340 _ rfl (by decide) (by decide) fun _ =>
    congrArg (Option.map Instr.swtrap) ((congrArg Imm16.of (FS.of_bits _)).trans o.of_word)
theorem brk (o : Bare) : Statement (.brk o) :=
  decode_of_code (.brk o) 0x341 _ rfl (by decide) (by decide) fun _ =>
    congrArg (Option.map Instr.brk) ((congrArg Bare.ofS (FS.of_bits _)).trans o.ofS_wordS)
theorem eret (o : Bare) : Statement (.eret o) :=
  decode_of_code (.eret o) 0x342 _ rfl (by decide) (by decide) fun _ =>
    congrArg (Option.map Instr.eret) ((congrArg Bare.ofS (FS.of_bits _)).trans o.ofS_wordS)
theorem csrr (o : CsrR) : Statement (.csrr o) :=
  decode_of_code (.csrr o) 0x343 _ rfl (by decide) (by decide) fun _ =>
    congrArg (Option.map Instr.csrr) ((congrArg CsrR.of (FS.of_bits _)).trans o.of_word)
theorem csrw (o : CsrW) : Statement (.csrw o) :=
  decode_of_code (.csrw o) 0x344 _ rfl (by decide) (by decide) fun _ =>
    congrArg (Option.map Instr.csrw) ((congrArg CsrW.of (FS.of_bits _)).trans o.of_word)
theorem icinv (o : IcInv) : Statement (.icinv o) :=
  decode_of_code (.icinv o) 0x345 _ rfl (by decide) (by decide) fun _ =>
    congrArg (Option.map Instr.icinv) ((congrArg IcInv.of (FS.of_bits _)).trans o.of_word)
theorem tick (o : TickI) : Statement (.tick o) :=
  decode_of_code (.tick o) 0x346 _ rfl (by decide) (by decide) fun _ =>
    congrArg (Option.map Instr.tick) ((congrArg TickI.of (FS.of_bits _)).trans o.of_word)
theorem pmark (o : Imm16) : Statement (.pmark o) :=
  decode_of_code (.pmark o) 0x347 _ rfl (by decide) (by decide) fun _ =>
    congrArg (Option.map Instr.pmark) ((congrArg Imm16.of (FS.of_bits _)).trans o.of_word)
theorem lacq (o : Bare) : Statement (.lacq o) :=
  decode_of_code (.lacq o) 0x348 _ rfl (by decide) (by decide) fun _ =>
    congrArg (Option.map Instr.lacq) ((congrArg Bare.ofS (FS.of_bits _)).trans o.ofS_wordS)
theorem lrel (o : Bare) : Statement (.lrel o) :=
  decode_of_code (.lrel o) 0x349 _ rfl (by decide) (by decide) fun _ =>
    congrArg (Option.map Instr.lrel) ((congrArg Bare.ofS (FS.of_bits _)).trans o.ofS_wordS)
theorem tkwait (o : Bare) : Statement (.tkwait o) :=
  decode_of_code (.tkwait o) 0x34a _ rfl (by decide) (by decide) fun _ =>
    congrArg (Option.map Instr.tkwait) ((congrArg Bare.ofS (FS.of_bits _)).trans o.ofS_wordS)
theorem tkrel (o : Bare) : Statement (.tkrel o) :=
  decode_of_code (.tkrel o) 0x34b _ rfl (by decide) (by decide) fun _ =>
    congrArg (Option.map Instr.tkrel) ((congrArg Bare.ofS (FS.of_bits _)).trans o.ofS_wordS)
theorem pcieLinkUp (link : Fin 2) : Statement (.pcieLinkUp link) := rfl
theorem transomLinkTrained (link : Fin 12) : Statement (.transomLinkTrained link) := rfl
theorem peerRequestArrival (r : PeerReq) : Statement (.peerRequestArrival r) := rfl
theorem packageReset : Statement (.packageReset) := rfl
theorem ppsEdge : Statement (.ppsEdge) := rfl
theorem launchRestart : Statement (.launchRestart) := rfl
theorem peerTimeout : Statement (.peerTimeout) := rfl
theorem attestation : Statement (.attestation) := rfl
theorem sensors : Statement (.sensors) := rfl
theorem moduleReset : Statement (.moduleReset) := rfl
theorem wicketPackageReset : Statement (.wicketPackageReset) := rfl
theorem repairRead : Statement (.repairRead) := rfl
theorem shutterNow : Statement (.shutterNow) := rfl
theorem shutterGate : Statement (.shutterGate) := rfl
theorem shutterUngate : Statement (.shutterUngate) := rfl
theorem shutterData : Statement (.shutterData) := rfl
theorem waitTimeout : Statement (.waitTimeout) := rfl
theorem ctxCreate : Statement (.ctxCreate) := rfl
theorem ctxDestroy : Statement (.ctxDestroy) := rfl
theorem queueCreate : Statement (.queueCreate) := rfl
theorem queueDestroy : Statement (.queueDestroy) := rfl
theorem setRange : Statement (.setRange) := rfl
theorem setPtbase : Statement (.setPtbase) := rfl
theorem setAperture : Statement (.setAperture) := rfl
theorem preempt : Statement (.preempt) := rfl
theorem preemptResume : Statement (.preemptResume) := rfl
theorem preemptDrained : Statement (.preemptDrained) := rfl
theorem drainLimit : Statement (.drainLimit) := rfl
theorem timetableSet : Statement (.timetableSet) := rfl
theorem timeSet : Statement (.timeSet) := rfl
theorem timeOffset : Statement (.timeOffset) := rfl
theorem timeRate : Statement (.timeRate) := rfl
theorem setAtPps : Statement (.setAtPps) := rfl
theorem icinvBroadcast : Statement (.icinvBroadcast) := rfl
theorem traceConfig : Statement (.traceConfig) := rfl
theorem retry : Statement (.retry) := rfl
theorem faultReplyTrap : Statement (.faultReplyTrap) := rfl
theorem kill : Statement (.kill) := rfl
theorem releaseCore : Statement (.releaseCore) := rfl
theorem faultRecordWrite : Statement (.faultRecordWrite) := rfl
theorem timetableSlot : Statement (.timetableSlot) := rfl
theorem timetableDeferredStart : Statement (.timetableDeferredStart) := rfl
theorem arbiterServe : Statement (.arbiterServe) := rfl
theorem gangPlace : Statement (.gangPlace) := rfl
theorem aging : Statement (.aging) := rfl
theorem histSample : Statement (.histSample) := rfl
theorem histFlush : Statement (.histFlush) := rfl
theorem nop : Statement .nop := decode_of_code .nop 0 0 rfl (by decide) (by decide) fun _ => rfl

end Laws.Enc

end Sys2Proof
end

