-- ==== Sys2Proof/Safety.lean ====
section
/-! DEFINITION. The terms that claims about the machine are stated in: when an instruction may issue, what it changes when it
retires, and what holds of a state whatever has run. -/

namespace Sys2Proof

open Machine

namespace Machine

/-! ### Exact values (R175) -/

/-- A value is neither a NaN nor infinite. -/
def FVal.IsFin : FVal → Prop
  | .fin _ _ _ => True
  | _ => False

/-- The rational number that a finite value is. -/
def FVal.rat : FVal → ℚ
  | .fin n m e => (if n then -1 else 1) * m * (2 : ℚ) ^ e
  | _ => 0

/-! ### What holds of every state that a run reaches -/

/-- The memory lists addresses strictly rising, and no byte that equals what an unlisted address reads as. -/
def State.Inv (s : State) : Prop := Memory.wf s.mem = true

/-- A log entry as stores make it: it writes just the bytes of its parts, within its block (R80, R81). -/
def LogE.Formed : LogE → Prop
  | .write _ mask bytes _ parts _ => bytes.length = 32 ∧ (∀ p ∈ parts, p.1 + p.2 ≤ 32)
    ∧ ∀ i < 32, mask.getLsbD i = true ↔ ∃ p ∈ parts, p.1 ≤ i ∧ i < p.1 + p.2
  | .atomic _ _ _ _ _ _ => True

/-- Applying a team's log meets no error: no line of memory is poisoned, and its entries, formed as stores form them, lie in no other
package (R11, R33). -/
def State.LogApplies (s : State) (t : Team) : Prop :=
  s.poison = [] ∧ ∀ e ∈ t.log, e.Formed ∧ ∀ p ∈ e.units, isPeer p.1 = false

/-- A run of n steps, each of which goes on. -/
inductive Runs : Nat → State → State → Prop where
  | none (s : State) : Runs 0 s s
  | more {n : Nat} {s t u : State} (h : step s = .next t) (r : Runs n t u) : Runs (n + 1) s u

/-- A run stops at no state: no step of it faults or is refused. -/
def State.Safe (s : State) : Prop := ∀ n t, Runs n s t → ∃ u, step t = .next u

/-! ### When an instruction acts (R117, R120, R124, R126, R128, R222) -/

/-- An effect that changes registers of its own wave and nothing else. -/
def Eff.local : Eff → Bool
  | .wreg _ _ => false
  | .amaxTake (.w _) => false
  | .tclr _ => false
  | .lrel => false
  | .csrw n _ => decide (n = 0x10 ∨ n = 0x11)
  | _ => true

/-- Every effect still pending changes the wave's own registers alone, and no call awaits the clause's end. -/
def Wave.quiet (w : Wave) : Prop := (∀ p ∈ w.pend, ∀ x ∈ p.effs, x.local = true) ∧ w.call = none

/-- An effect on fflags or amax, which other effects join (R260, R276). -/
def Eff.accumulates : Eff → Bool
  | .flagsSet _ => true
  | .flagsOr _ => true
  | .amaxSet _ => true
  | .amaxUpd _ => true
  | .amaxTake _ => true
  | _ => false

/-- The issuing wave may act on an instruction of a class in a slot, which reads and writes these registers: the checks of R222
that do not concern its fields, the latch (R124), and checked timing (R128). What pends was issued before it, an instruction that is
not of class MEM issues in no open window (R127: the window's result would override it), and what pends on fflags and amax falls due
before any write of its own (R260, R276). -/
structure Ready (s : State) (e : Env) (c : Cls) (k : Slot) (reads writes : List Nat) : Prop where
  env : s.env? = some e
  cls : e.cl.cls = c
  slot : k.val < e.f.blocks.length
  timing : e.checked = false ∨ timingBad e.w.pend e.w.pos reads writes = none
  latch : e.latchBad (reads ++ writes) = false
  quiet : e.w.quiet
  ahead : ∀ p ∈ e.w.pend, p.pos < e.w.pos ∧ (c ≠ .mem → p.long = true → p.due ≤ e.w.pos)
  accum : ∀ p ∈ e.w.pend, p.effs.any Eff.accumulates = true → p.due ≤ e.w.pos + 4

/-- No h register among scalar sources waits or holds no handle (R147, R252). -/
def Env.hReady (e : Env) (l : List SSrc) : Prop := e.hRead l = none

end Machine

/-- A value that a scalar destination takes: mvc and mrp hold at most 64 (R255). -/
def SDst.takes (d : SDst) (x : DWord) : Prop :=
  match d with
  | .mvc => x.toNat ≤ 64
  | .mrp => x.toNat ≤ 64
  | _ => True

namespace Machine

/-! ### What an instruction that retires changes -/

/-- A wave that went on in its program, or to the vote at its clause's end: nothing of it but its place in the program and its
registers may differ. -/
structure Wave.Went (w w' : Wave) : Prop where
  masks : w'.frags.map Frag.mask = w.frags.map Frag.mask
  rest : w' = { w with
    regs := w'.regs, pend := w'.pend, frags := w'.frags, stage := w'.stage, clause := w'.clause, pos := w'.pos, replay := w'.replay
    redo := w'.redo, yielded := w'.yielded, reason := w'.reason, age := w'.age, stepping := w'.stepping, stepped := w'.stepped
    late := w'.late }

/-- The clause ends with the instruction at the wave's position: no other is to issue after it, and no long-latency work is still to come
(R108, R127, R306). -/
def State.clauseEnds (s : State) (w : Wave) : Bool := decide (w.count ≤ w.nextPos) && !w.pend.any Pend.waits && !s.busy w

/-- An effect of the instruction at the wave's position, due `lat` positions on, has fallen due once the wave has gone on (R126). -/
def State.lands (s : State) (w : Wave) (lat : Nat) : Bool := s.clauseEnds w || decide (w.pos + lat ≤ w.nextPos)

/-- The instruction at the wave's position has retired: once everything pending is due the wave's registers are `r`; nothing else of
the package changes but the wave's place in its program, the teams, which are as before until the effect of the instruction falls due, `lat`
positions on or at the clause's end, and then `tm`, and, for a wave stepped by the debugger, its core's step bit. -/
structure Retires (s t : State) (e : Env) (r : Regs) (tm : List Team) (lat : Nat := 4) : Prop where
  wave : ∃ w', t.wave? e.w.key = some w' ∧ w'.regsEnd = r ∧ e.w.Went w'
  others : ∀ k, k ≠ e.w.key → t.wave? k = s.wave? k
  teams : t.teams = if s.lands e.w lat then tm else s.teams
  rest : t = { s with waves := t.waves, cores := t.cores, teams := t.teams }
  cores : e.w.stepping = none → t.cores = s.cores

end Machine

/-- A vector destination is v register n. -/
def VDst.isV (d : VDst) (n : Nat) : Bool :=
  match d with
  | .v r => r.val == n
  | .zero => false

/-- Which register of a run of n from a destination v register v is. -/
def VDst.index (d : VDst) (n v : Nat) : Option Nat :=
  match d with
  | .v r => if r.val ≤ v ∧ v < r.val + n then some (v - r.val) else none
  | .zero => none

/-- Registers with a mask destination written. -/
def Machine.Regs.putM (r : Regs) (d : MDst) (x : DWord) : Regs :=
  match d with
  | .m n => { r with m := cset r.m n x }
  | .exm => { r with exm := x }
  | .zero => r

/-- What the teams become when a value written to a scalar destination is due: a w register is the team's (R125). -/
def SDst.teams (d : SDst) (s : State) (e : Env) (x : DWord) : List Team :=
  match d with
  | .w n => (s.putTeam { e.t with w := cset e.t.w n.val x }).teams
  | _ => s.teams

namespace Machine

/-- Registers `r'` are `r` after a lane-wise write of `val` in the lanes of `on`: those lanes of the destination hold it, the tag is
`tag` when any lane is written, the flags `fl` are raised, and everything else is as before (R178, R184, R237, R257). -/
structure Regs.LanesSet (r r' : Regs) (d : VDst) (on : List Nat) (val : Nat → Word) (tag : Tag) (fl : Flags) : Prop where
  cells : ∀ v l, l < 64 → cget r'.v (64 * v + l) = if d.isV v ∧ l ∈ on then val l else cget r.v (64 * v + l)
  tags : ∀ v, cget r'.vt v = if d.isV v ∧ on ≠ [] then tag.bits else cget r.vt v
  flags : r'.fflags = r.fflags ||| fl
  rest : r' = { r with v := r'.v, vt := r'.vt, fflags := r'.fflags }

/-- An instruction gives a scalar destination a value of its surroundings, and changes nothing else (R117, R252, R255). -/
def GivesScalar (i : Instr) (slot : Slot) (d : SDst) (srcs : List SSrc) (v : Env → DWord) : Prop :=
  ∀ s e, Ready s e .vec slot (srcs.map SSrc.num).flatten d.num → e.anylane slot = true → e.hReady srcs → d.takes (v e) →
    ∃ t, exec i s = .next t ∧ Retires s t e (e.w.regsEnd.putS d (v e)) (d.teams s e (v e))

/-- An instruction gives the active lanes of a vector destination values of their own, raises the flags of all of them, and
changes nothing else (R257). -/
def GivesRows (i : Instr) (slot : Slot) (d : VDst) (reads : List Nat) (chks : List (VSrc × Tag × Nat)) (tag : Env → Tag)
    (ok : Env → (Nat → Word) → Prop) (fl : Env → Nat → Flags) : Prop :=
  ∀ s e, Ready s e .vec slot (246 :: reads) d.num → e.lanes slot ≠ [] → e.tagsBad chks = none →
    ∃ t r val, exec i s = .next t ∧ Retires s t e r s.teams ∧ ok e val
      ∧ e.w.regsEnd.LanesSet r d (e.lanes slot) val (tag e) (((e.lanes slot).map (fl e)).foldl (· ||| ·) 0)

/-- The same, for an instruction that reads vector sources alone. -/
abbrev GivesLanes (i : Instr) (slot : Slot) (d : VDst) (srcs : List VSrc) (chks : List (VSrc × Tag × Nat)) (tag : Env → Tag)
    (ok : Env → (Nat → Word) → Prop) (fl : Env → Nat → Flags) : Prop :=
  GivesRows i slot d (srcs.map VSrc.num).flatten chks tag ok fl

/-- The same for values given element by element, with no flags: element k of an active lane l is `g`, of the format's width
(R176, R257, R261). -/
def GivesElems (i : Instr) (slot : Slot) (d : VDst) (srcs : List VSrc) (chks : List (VSrc × Tag × Nat)) (tag : Env → Tag) (f : Tag)
    (g : Env → Nat → Nat → Nat) : Prop :=
  GivesLanes i slot d srcs chks tag
    (fun e val => ∀ l, l ∈ e.lanes slot → ∀ k < f.cnt, elem (val l) f.width k = g e l k) (fun _ _ => 0)

/-- Element k of lane l of a source (R176, R237). -/
def Env.el (e : Env) (x : VSrc) (p : Option PCode) (f : Tag) (l k : Nat) : Nat := elem (e.rd x p l) f.width k

/-- A value stored in an element of w bits (R261). -/
def stored (w : Nat) (v : Int) : Nat := (v % 2 ^ w).toNat

/-- A scalar instruction of two operands gives a value of the two (R252). -/
def GivesS2 (i : S2 → Instr) (v : DWord → DWord → DWord) : Prop :=
  ∀ o, GivesScalar (i o) o.slot o.d [o.a, o.b] fun e => v (e.srd o.a) (e.srd o.b)

/-- Its form with an immediate, sign-extended (R252). -/
def GivesSI (i : SI → Instr) (v : DWord → DWord → DWord) : Prop :=
  ∀ o, GivesScalar (i o) o.slot o.d [o.a] fun e => v (e.srd o.a) (sext64 o.imm)

/-- A scalar instruction of one operand. -/
def GivesS1 (i : S1 → Instr) (v : DWord → DWord) : Prop := ∀ o, GivesScalar (i o) o.slot o.d [o.a] fun e => v (e.srd o.a)

/-- An integer instruction of one checked source gives each element an integer of the source's, stored in its width (R261). -/
def GivesV1 (i : V1 → Instr) (tag : Tag → Tag) (v : Tag → Nat → Int) : Prop :=
  ∀ o, GivesElems (i o) o.slot o.d [o.a] [(o.a, o.fmt, 0)] (fun _ => tag o.fmt) o.fmt fun e l k =>
    stored o.fmt.width (v o.fmt (e.el o.a o.perm.onA o.fmt l k))

/-- Of two checked sources. -/
def GivesV2 (i : V2 → Instr) (v : Tag → Nat → Nat → Int) : Prop :=
  ∀ o, GivesElems (i o) o.slot o.d [o.a, o.b] [(o.a, o.fmt, 0), (o.b, o.fmt, 1)] (fun _ => o.fmt) o.fmt fun e l k =>
    stored o.fmt.width (v o.fmt (e.el o.a o.perm.onA o.fmt l k) (e.el o.b o.perm.onB o.fmt l k))

/-- A bitwise instruction of two sources gives whole lanes, with the tag of its sources when they agree (R178, R262). -/
def GivesBits (i : V2 → Instr) (v : Word → Word → Word) : Prop :=
  ∀ o, GivesLanes (i o) o.slot o.d [o.a, o.b] [] (fun e => bitTag e.r [o.a, o.b])
    (fun e val => ∀ l ∈ e.lanes o.slot, val l = v (e.rd o.a o.perm.onA l) (e.rd o.b o.perm.onB l)) (fun _ _ => 0)

/-- A float instruction gives each element bits and flags of its own (R184, R266). -/
def GivesFloat (i : Instr) (slot : Slot) (d : VDst) (srcs : List VSrc) (chks : List (VSrc × Tag × Nat)) (tag : Tag) (f : Tag)
    (g : Env → Nat → Nat → Fl Nat) : Prop :=
  GivesLanes i slot d srcs chks (fun _ => tag)
    (fun e val => ∀ l, l ∈ e.lanes slot → ∀ k < f.cnt, elem (val l) f.width k = (g e l k).1 % 2 ^ f.width)
    (fun e l => ((List.range f.cnt).map fun k => (g e l k).2).foldl (· ||| ·) 0)

/-- The exact value of element k of lane l of a source, in the float format of a tag (R175, R176). -/
def Env.fv (e : Env) (x : VSrc) (p : Option PCode) (f : Tag) (l k : Nat) : FVal := value f.ff (e.el x p f l k)

/-- A float instruction of two checked sources. -/
def GivesF2 (i : V2 → Instr) (g : V2 → FVal → FVal → Fl Nat) : Prop :=
  ∀ o, o.fmt = .f32 ∨ o.fmt = .bf16x2 ∨ o.fmt = .f16x2 →
    GivesFloat (i o) o.slot o.d [o.a, o.b] [(o.a, o.fmt, 0), (o.b, o.fmt, 1)] o.fmt o.fmt fun e l k =>
      g o (e.fv o.a o.perm.onA o.fmt l k) (e.fv o.b o.perm.onB o.fmt l k)

/-- A float instruction of three checked sources. -/
def GivesF3 (i : V3 → Instr) (g : V3 → FVal → FVal → FVal → Fl Nat) : Prop :=
  ∀ o, o.fmt = .f32 ∨ o.fmt = .bf16x2 ∨ o.fmt = .f16x2 →
    GivesFloat (i o) o.slot o.d [o.a, o.b, o.c] [(o.a, o.fmt, 0), (o.b, o.fmt, 1), (o.c, o.fmt, 2)] o.fmt o.fmt fun e l k =>
      g o (e.fv o.a o.perm.onA o.fmt l k) (e.fv o.b o.perm.onB o.fmt l k) (e.fv o.c o.perm.onC o.fmt l k)

/-- A special function of one f32 source (R189, R270). -/
def GivesSpecial (i : V1 → Instr) (g : FVal → Fl FVal) : Prop :=
  ∀ o, GivesLanes (i o) o.slot o.d [o.a] [(o.a, .f32, 0)] (fun _ => .f32)
    (fun e val => ∀ l ∈ e.lanes o.slot, val l = (special g (e.rd o.a o.perm.onA l)).1)
    (fun e l => (special g (e.rd o.a o.perm.onA l)).2)

/-- Registers after a write of a run of n v registers: those lanes of register i of the run hold `val i`; flags are raised, amax is
updated, and SRCTR advances under stochastic rounding (R180, R184, R185, R259). -/
structure Regs.RunSet (r r' : Regs) (d : VDst) (n : Nat) (on : List Nat) (val : Nat → Nat → Word) (tag : Tag) (fl : Flags)
    (am : BitVec 33) (sr : Bool) : Prop where
  cells : ∀ v l, v < 128 → l < 64 → cget r'.v (64 * v + l) = match d.index n v with
    | some i => if l ∈ on then val i l else cget r.v (64 * v + l)
    | none => cget r.v (64 * v + l)
  tags : ∀ v, v < 128 → cget r'.vt v = if (d.index n v).isSome ∧ on ≠ [] then tag.bits else cget r.vt v
  flags : r'.fflags = r.fflags ||| fl
  amax : r'.amax = am
  srctr : r'.srctr = if sr then r.srctr + 1 else r.srctr
  rest : r' = { r with v := r'.v, vt := r'.vt, fflags := r'.fflags, amax := r'.amax, srctr := r'.srctr }

/-- A conversion gives the registers of a run words of their own, each lane its flags and its inputs to amax (R185, R257, R271). -/
def GivesRun (i : Instr) (o : VCvt) (n : Nat) (srcs : List VSrc) (own : Bool) (chks : List (VSrc × Tag × Nat)) (tag : Tag)
    (ok : Env → (Nat → Nat → Word) → Prop) (fl : Env → Nat → Flags) (ins : Env → Nat → List FVal) : Prop :=
  ∀ s e, Ready s e .vec o.slot (246 :: (srcs.map VSrc.num).flatten ++ if own then o.d.runNums n else []) (o.d.runNums n) →
    e.lanes o.slot ≠ [] →
    e.tagsBad (chks ++ if own then (match o.d with | .v r => [(.v r, o.dst, 3)] | .zero => []) else []) = none →
    ∃ t r val, exec i s = .next t ∧ Retires s t e r s.teams ∧ ok e val
      ∧ e.w.regsEnd.RunSet r o.d n (e.lanes o.slot) val tag (((e.lanes o.slot).map (fl e)).foldl (· ||| ·) 0)
          (if o.amax then amaxJoin e.w.regsEnd.amax (amaxOf ((e.lanes o.slot).map (ins e)).flatten) else e.w.regsEnd.amax)
          (o.rnd == .sr)

/-- A wave-wide instruction gives a scalar destination a value, due `lat` positions on, and raises flags (R126, R258). -/
def GivesWave (i : Instr) (slot : Slot) (d : SDst) (reads : List Nat) (chks : List (VSrc × Tag × Nat)) (v : Env → Fl DWord)
    (lat : Nat := 4) : Prop :=
  ∀ s e, Ready s e .vec slot reads d.num → e.anylane slot = true → e.tagsBad chks = none → d.takes (v e).1 →
    ∃ t r, exec i s = .next t ∧ Retires s t e r (d.teams s e (v e).1) lat
      ∧ r = { e.w.regsEnd.putS d (v e).1 with fflags := (e.w.regsEnd.putS d (v e).1).fflags ||| (v e).2 }

/-- A wave-wide instruction gives a mask destination a value (R258, R281, R283). -/
def GivesMask (i : Instr) (slot : Slot) (d : MDst) (reads : List Nat) (v : Env → DWord) : Prop :=
  ∀ s e, Ready s e .vec slot reads d.num → e.anylane slot = true →
    ∃ t, exec i s = .next t ∧ Retires s t e (e.w.regsEnd.putM d (v e)) s.teams

/-- A steering instruction, when its operands are in order and no CALLA stands before it, writes nblk of the lanes of its slot that it gives a block and sets their
returned bits as given; nothing else changes (R241, R246). -/
def Steers (i : Instr) (k : Slot) (reads : List Nat) (ok : Env → Bool) (f : Env → Nat → Option Nat) (ret : Env → Bool) : Prop :=
  ∀ s e, Ready s e .vec k reads [245] → e.anylane k = true → e.afterCall = false → ok e = true →
    ∃ t r, exec i s = .next t ∧ Retires s t e r s.teams
      ∧ (∀ l, cget r.nblk l = match f e l with
        | some b => if e.inslot k l then BitVec.ofNat 8 b else cget e.w.regsEnd.nblk l
        | none => cget e.w.regsEnd.nblk l)
      ∧ (∀ l < 64, r.ret.getLsbD l = if e.inslot k l ∧ (f e l).isSome then ret e else e.w.regsEnd.ret.getLsbD l)
      ∧ r = { e.w.regsEnd with nblk := r.nblk, ret := r.ret }

/-! ### Memory accesses (R155, R284 to R293, R325) -/

/-- A state whose memory, and what goes with it, holds the bytes of pieces stored, as writes of an agent (R11, R161, R169, R292). -/
def State.storeAll (s : State) (ev : Option Write) (who : Option (Nat × DWord)) (l : List (Nat × List Byte × Bool)) : State :=
  l.foldl (fun s p => s.storeAs ev who p.1 p.2.1 p.2.2) s

/-- The words of a link set stored at once, each where it falls (R293). -/
inductive LinkStores (a : Actor) (who : Option (Nat × DWord)) (ans : Bool) :
    State → List (LinkWord × List Byte) → State → List (Nat × List Byte × Bool) → Prop where
  | nil (s : State) : LinkStores a who ans s [] s []
  | cons {s S : State} {x : LinkWord} {b : List Byte} {l : List (LinkWord × List Byte)} {ps : List Piece}
      {ws : List (Nat × List Byte × Bool)} (at_ : a.place s (if x.sp then .sp else .gm) .atom true true x.va x.size ans = .ok ps)
      (t : LinkStores a who ans (s.storeAll (some (a.event true)) who (storePieces ps b)) l S ws) :
      LinkStores a who ans s ((x, b) :: l) S (storePieces ps b ++ ws)

/-- One access of an operation that is performed at once: what it reads, the state after it, and the bytes it stored, each run at its
address in memory. The address is where the access falls in the state that it finds. -/
inductive Access (a : Actor) (key : Nat) (op : MemOp) (ans : Bool) :
    State → Acc → State → List Byte → List (Nat × List Byte × Bool) → Prop where
  | load {s : State} {q : Acc} {ps : List Piece} {b : List Byte} (k : q.kind = .load)
      (at_ : a.place s q.sp .rd (op.ord.order == .plain) true q.va q.size ans = .ok ps)
      (rd : readPieces s.poison (a.view s) ps = .ok b) : Access a key op ans s q s b []
  | store {s : State} {q : Acc} {ps : List Piece} (k : q.kind = .store) (now : a.staged = false ∨ q.sp ≠ .gm)
      (at_ : a.place s q.sp .wr (op.ord.order == .plain) true q.va q.size ans = .ok ps) :
      Access a key op ans s q (s.storeAll (some (a.event false)) (op.who key q) (storePieces ps (leBytes q.size q.x.toNat))) []
        (storePieces ps (leBytes q.size q.x.toNat))
  | rmw {s : State} {q : Acc} {o : AOp} {ps : List Piece} {b : List Byte} (k : q.kind = .atomic o)
      (now : a.staged = false ∨ q.sp ≠ .gm)
      (at_ : a.place s q.sp .atom (op.ord.order == .plain) true q.va q.size ans = .ok ps)
      (host : (ps.any fun p => isHost p.pa) = false ∨ hostOp o = true) (rd : readPieces s.poison (a.home s) ps = .ok b)
      (go : o ≠ .cas ∨ leNat b % 2 ^ 64 = q.x.toNat % 2 ^ (8 * q.size)) :
      Access a key op ans s q
        (s.storeAll (some (a.event true)) (op.who key q) (storePieces ps (leBytes q.size (o.apply q.size (BitVec.ofNat 64 (leNat b)) q.x q.y).toNat))) b
        (storePieces ps (leBytes q.size (o.apply q.size (BitVec.ofNat 64 (leNat b)) q.x q.y).toNat))
  | casFail {s : State} {q : Acc} {ps : List Piece} {b : List Byte} (k : q.kind = .atomic .cas)
      (now : a.staged = false ∨ q.sp ≠ .gm)
      (at_ : a.place s q.sp .atom (op.ord.order == .plain) true q.va q.size ans = .ok ps)
      (rd : readPieces s.poison (a.home s) ps = .ok b) (stop : leNat b % 2 ^ 64 ≠ q.x.toNat % 2 ^ (8 * q.size)) :
      Access a key op ans s q (if a.rel then s.note (a.event true) (ps.map fun p => (p.pa, p.size)) else s) b []
  | ldl {s : State} {q : Acc} {ps : List Piece} {b : List Byte} {w : Wave} (k : q.kind = .ldl)
      (at_ : a.place s q.sp .atom (op.ord.order == .plain) true q.va q.size ans = .ok ps)
      (rd : readPieces s.poison (a.home s) ps = .ok b) (wv : s.wave? key = some w) :
      Access a key op ans s q
        (s.putWave (w.putLink ((w.linkOf q.lane).add
          ⟨q.sp != .gm, q.va, match ps with | p :: _ => p.pa | [] => 0, q.size⟩))) b []
  | gld {s : State} {q : Acc} {ps : List Piece} {b t : List Byte} (k : q.kind = .gld)
      (at_ : a.place s q.sp .rd (op.ord.order == .plain) true q.va q.size ans = .ok ps)
      (rd : readPieces s.poison (a.view s) ps = .ok b) (tab : a.table s (BitVec.ofNat 256 (leNat b)) = .ok t) :
      Access a key op ans s q s (b ++ t) []
  | gst {s : State} {q : Acc} {ps : List Piece} (k : q.kind = .gst) (now : a.staged = false ∨ q.sp ≠ .gm)
      (at_ : a.place s q.sp .wr (op.ord.order == .plain) true q.va q.size ans = .ok ps) :
      Access a key op ans s q (s.storeAll (some (a.event false)) (op.who key q) (storePieces ps ((lget op.vals q.lane []).map (bvBytes 4)).flatten)) []
        (storePieces ps ((lget op.vals q.lane []).map (bvBytes 4)).flatten)
  | stcFail {s : State} {q : Acc} {w : Wave} {code : Nat} (k : q.kind = .stc) (wv : s.wave? key = some w)
      (why : (w.linkOf q.lane).st = .cleared ∧ code = 3
        ∨ (w.linkOf q.lane).st ≠ .cleared ∧ ((w.linkOf q.lane).words = [] ∨ (w.linkOf q.lane).need ≠ (lget op.vals q.lane []).length)
          ∧ code = 2
        ∨ (w.linkOf q.lane).st = .conflict ∧ (w.linkOf q.lane).words ≠ []
          ∧ (w.linkOf q.lane).need = (lget op.vals q.lane []).length ∧ code = 1) :
      Access a key op ans s q (s.putWave (w.putLink ⟨q.lane, .open_, []⟩)) (leBytes 4 code) []
  | stc {s S : State} {q : Acc} {w w' : Wave} {ws : List (Nat × List Byte × Bool)} (k : q.kind = .stc) (wv : s.wave? key = some w)
      (st : (w.linkOf q.lane).st = .open_) (some_ : (w.linkOf q.lane).words ≠ [])
      (need : (w.linkOf q.lane).need = (lget op.vals q.lane []).length)
      (go : LinkStores a (op.who key q) ans s ((w.linkOf q.lane).stores (lget op.vals q.lane [])) S ws) (wv' : S.wave? key = some w') :
      Access a key op ans s q (S.putWave (w'.putLink ⟨q.lane, .open_, []⟩)) (leBytes 4 0) ws

/-- Accesses performed one after another: the state after all of them, what each read, and all that was stored, in order. -/
inductive Performs (a : Actor) (key : Nat) (op : MemOp) (ans : Bool) :
    State → List Acc → State → List (Acc × List Byte) → List (Nat × List Byte × Bool) → Prop where
  | nil (s : State) : Performs a key op ans s [] s [] []
  | cons {s s' s'' : State} {q : Acc} {qs : List Acc} {b : List Byte} {ds : List (Acc × List Byte)}
      {w ws : List (Nat × List Byte × Bool)} (h : Access { a with who := op.who key q } key op ans s q s' b w)
      (t : Performs a key op ans s' qs s'' ds ws) : Performs a key op ans s (q :: qs) s'' ((q, b) :: ds) (w ++ ws)

/-- A memory instruction may act: it is ready, no access of the wave still waits, the log has room, no watchpoint of its quad is set, and
none that the instruction is re-issued after, and no result of an earlier one falls due at or after its own. -/
structure MemReady (s : State) (e : Env) (k : Slot) (la : La) (srcs dsts : List Nat) : Prop where
  ready : Ready s e .mem k srcs dsts
  stalls : e.w.stalls = []
  log : e.staged = true → e.t.log.length ≤ e.l.logCap
  watched : e.w.watched = none
  watch : ∀ n < 4, cget s.ctl (watchOff (quadOf e.coreNo) n + 0x10) = 0
  last : ∀ p ∈ e.w.pend, p.long = true → p.due < e.w.pos + 1 + e.la la

/-- What the accesses of a wave leave beside what they store: translations in a TLB (R154), flits of requests to peers (R29), and what the
wave has seen and heard (R166, R168). -/
structure Beside (s t : State) (key : Nat) : Prop where
  rest : t = { s with tlb := t.tlb, links := t.links, outbox := t.outbox, nondet := s.nondet + 1, waves := t.waves }
  others : ∀ k, k ≠ key → t.wave? k = s.wave? k

/-- A memory instruction whose accesses can all be performed performs them in order and retires. Nothing changes but what they store,
what they leave beside, the link sets that they touch, and the registers that `ok` says (R127, R156, R284); `pre` are its own checks. -/
def DoesAccesses (i : Instr) (la : La) (k : Slot) (vec : Bool) (srcs dsts : List Nat) (op : Env → MemOp)
    (ok : Env → List (Acc × List Byte) → Regs → Prop) (pre : Env → Prop := fun _ => True) : Prop :=
  ∀ s e S ds ws, MemReady s e k la (if vec then 246 :: srcs else srcs) dsts →
    (if vec then e.memLanes k ≠ [] else e.anylane k = true) → (e.staged = true → (op e).takesDirect = false) → pre e →
    Performs (e.actor (op e).ord) e.w.key (op e) (Config.peerAnswers s.nondet) s (op e).accs S ds ws →
    ∃ t r w S', exec i s = .next t ∧ Beside S S' e.w.key ∧ S'.wave? e.w.key = some w
      ∧ w = { e.w with links := w.links, known := w.known, saw := w.saw, heard := w.heard }
      ∧ Retires S' t { e with w } r S'.teams ∧ ok e ds r

/-- A matrix-engine instruction that passes its checks is queued behind those of its core with a snapshot, and the wave goes on with
nothing changed but mrp, where it takes that as its start row (R306, R307). -/
def Queues (i : Instr) (k : Slot) (srcs dsts : List Nat) (mrp : Bool) (ok : Env → Prop) (job : Env → MtxJob) : Prop :=
  ∀ s e, Ready s e .mtx k srcs dsts → e.anylane k = true → ok e →
    let w := if mrp then { e.w with regs := { e.w.regs with mrp := 0 } } else e.w
    let core := s.core e.coreNo
    let S := ({ s with fresh := s.fresh + 1 } : State).putCore { core with mtx := core.mtx ++ [{ job e with seq := s.fresh }] }
    ∃ t, exec i s = .next t ∧ Retires S t { e with w } w.regsEnd S.teams

/-- The snapshot of an instruction with no operands in registers. -/
def Env.plainJob (e : Env) (i : Instr) : MtxJob :=
  { known := e.w.known, wave := e.w.key, seq := 0, pos := e.w.pos, instr := i, mvc := e.r.mvc.toNat, start := e.r.mrp.toNat }

/-- Every lane of the wave stands in a slot with exm all ones, in a tile that the team holds (R305, R310). -/
def Env.mayMtx (e : Env) (k : Slot) (tile : Nat) : Prop :=
  (∀ l < 64, e.inslot k l = true) ∧ e.r.exm = ones64 ∧ tile < e.l.p.ntiles

/-- A command is issued: its handle is written, its tag's bit clears, and the command is in flight under a new generation of its tag
(R145, R146, R301). -/
def Issues (i : Instr) (cls : Nat) (k : Slot) (h : Fin 16) (reads : List Nat) (tag : Nat) (ok : Env → Prop) (c : Env → Cmd)
    (tab : Env → Cells 64) : Prop :=
  ∀ s e, Ready s e .asy k reads (hnum h) → e.anylane k = true → tag < e.l.p.ntags → (e.t.tag tag).busy = false → ok e →
    ∃ t tm, exec i s = .next t
      ∧ Retires (({ s with fresh := s.fresh + 1 } : State).putTeam tm) t e
          { e.w.regsEnd with
            h := cset e.w.regsEnd.h h.val (BitVec.ofNat 32 (cls * 2 ^ 28 + tag * 2 ^ 22 + ((e.t.tag tag).gen + 1).toNat)) }
          (({ s with fresh := s.fresh + 1 } : State).putTeam tm).teams
      ∧ tm = { e.t with
          tags := e.t.tags &&& ~~~((1 : DWord) <<< tag), tagst := tm.tagst
          cmds := e.t.cmds ++ [{ c e with seq := s.fresh, known := e.w.known }], tab := tab e, installs := tm.installs }
      ∧ ∀ n, tm.tag n = if n = tag then
          { gen := (e.t.tag tag).gen + 1, busy := true, status := 0, cls
            seqs := (e.t.tag tag).seqs ++ [(((e.t.tag tag).gen + 1).toNat, s.fresh)] }
        else e.t.tag n

/-- A fragment blocks at the last instruction of its clause: its effects are due, its quantum ends, and nothing else changes but the wave's
place (R120, R235). -/
structure Blocks (s t : State) (e : Env) (x : Wait) : Prop where
  wave : ∃ w' f', t.wave? e.w.key = some w' ∧ w'.frags[e.w.cur]? = some f'
    ∧ f' = { e.f with blocked := some x, held := some e.cl, past := none, yield := e.w.yielded }
    ∧ (∀ i, i ≠ e.w.cur → w'.frags[i]? = e.w.frags[i]?)
    ∧ w' = { e.w with
        regs := e.w.regsEnd, pend := [], frags := w'.frags, clause := none, pos := 0, replay := [], yielded := false, late := []
        stage := .quantum, reason := w'.reason }
  others : ∀ k, k ≠ e.w.key → t.wave? k = s.wave? k
  rest : t = { s with waves := t.waves }

end Machine

end Sys2Proof
end

