-- ==== Sys2Proof/Certificates/Slice0/Obligations.lean ====
section
/-! DEFINITION. The statements made about the machine, for the provers. -/

open Sys2Proof Sys2Proof.Machine

/-! ### Decoding, the step, and what every instruction shares -/

/-- R221 to R233: an instruction of a wave has a word, and the decoder reads a well-formed one back from it, with every operand at every
value the encoding admits; an event of the package has none. -/
def Obligations.EncodeDecodeAgree : Prop := ∀ i : Instr, Laws.Enc.Statement i

/-- R241, R256, R287, R338: words of the spec decode to the instructions that it writes them for. -/
def Obligations.SpecWordsDecode : Prop :=
  decode 0x2000010203007000 = .ok (.vadd
    { slot := 0, fmt := .s32, rnd := .rne, d := .v 1, a := .v 2, b := .v 3, perm := .none })
  ∧ decode 0x30D004050607250E = .ok (.vfma
    { slot := 1, fmt := .bf16x2, rnd := .ru, d := .v 4, a := .v 5, b := .v 6, c := .v 7, perm := .c .rev })
  ∧ decode 0x270014013F800000 = .ok (.vli { slot := 0, tag := .f32, d := .v 20, imm := 0x3F800000 })
  ∧ decode 0x4140180287311000 = .ok (.vxpd
    { slot := 0, d := .v 24, a := .v 2, e := .s 7, bank := 3, hi := true, perm := .none })
  ∧ decode 0x84000586EB000000 = .ok (.vcstGm
    { slot := 0, la := 0, src := .v 5, m := .m 3, addr := { base := .s 6, index := .zero, scale := 0, off := 0 }
      ord := { order := .plain, obs := 0 } })
  ∧ decode 0xD0C0BC0001070000 = .ok (.csrr { slot := 0, d := .s 60, csr := 0x107 })

/-- R217, R222: when it is a wave's turn, a step decodes the word at the wave's position in the class of its clause and runs it as that
wave's instruction, and time passes; a word that is no instruction of the class raises ILLOP, with detail 2 for another class's. An
event on the agenda is run the same way.
The model's own choices that it rests on are in the log: 1. -/
def Obligations.StepRunsDecodedInstruction : Prop :=
  ∀ (s : State) (rest : List Move), s.gateDue = false →
    (∀ (w : Wave) (cl : Clause) (x : DWord), s.agenda = .wave w.key :: rest → s.wave? w.key = some w → s.issues w = true →
      w.clause = some cl → w.pos < cl.count → cl.words[w.pos]? = some x →
      (∀ i, decodeIn cl.cls x = .ok i → step s = andElapse (exec i { s with agenda := rest, cur := some w.key }))
      ∧ ∀ b, decodeIn cl.cls x = .error b → step s = .next (({ s with agenda := rest } : State).raise w
          { cause := 0x01, detail := if b = .cls then 2 else 1, pos := w.pos }).elapse)
    ∧ ∀ i : Instr, s.agenda = .ev i :: rest → step s = andElapse (exec i { s with agenda := rest })

/-- R2: every step keeps the memory's canonical form, whatever the state.
The model's own choices that it rests on are in the log: 11. -/
def Obligations.StepKeepsMemoryForm : Prop := ∀ s t : State, s.Inv → step s = .next t → t.Inv

/-- R42, R65: right after reset the package is not ready, no queue, context, launch or team exists, no trace or fault ring is set, and
memory is in its form, reading 0 everywhere (that reading is the model's choice, in the assumption log).
The model's own choices that it rests on are in the log: 11, 12, 15, 17. -/
def Obligations.ResetState : Prop :=
  State.reset.Inv ∧ (∀ a, cget (w := 8) State.reset.mem a = 0) ∧ State.reset.ready = false ∧ State.reset.dead = false
  ∧ State.reset.queues = [] ∧ State.reset.ctxs = [] ∧ State.reset.launches = [] ∧ State.reset.teams = [] ∧ State.reset.waves = []
  ∧ State.reset.tick = 0 ∧ State.reset.trSize = 0 ∧ State.reset.fqEnable = false ∧ State.reset.admEnable = false
  ∧ State.reset.peerTo = 2000 ∧ State.reset.gated = false ∧ State.reset.link0 = false ∧ State.reset.link1 = false

/-- R117, R124, R128, R222, R255: the checks at issue, in their order, on a bitwise instruction of a vector class: a clause of another
class raises ILLOP with detail 2, a slot that the state lacks ILLOP with detail 1; with no active lane it only retires; under checked
timing a read of a result not yet due, of exm too, raises TIMING with that write's position; v64 to v127 without the latch raise LATCH.
That TIMING comes before LATCH when both hold is the model's choice. The model's own choices that it rests on are in the log: 62, 137. -/
def Obligations.IssueChecks : Prop :=
  ∀ (o : V2) (s : State) (e : Env), s.env? = some e →
    let gives (tr : Trap) : Prop := exec (.vand o) s = .next (s.raise e.w { tr with pos := e.w.pos })
    let regs := 246 :: (o.a.num ++ o.b.num)
    (e.cl.cls ≠ .vec → gives { cause := 0x01, detail := 2 })
    ∧ (e.cl.cls = .vec → e.f.blocks.length ≤ o.slot.val → gives { cause := 0x01, detail := 1 })
    ∧ (e.cl.cls = .vec → o.slot.val < e.f.blocks.length →
      (e.w.quiet → (∀ l < 64, e.active o.slot l = false) → ∃ t, exec (.vand o) s = .next t ∧ Retires s t e e.w.regsEnd s.teams)
      ∧ ((∃ l < 64, e.active o.slot l = true) →
        (∀ q, (e.cl.k || e.c.checked) = true → timingBad e.w.pend e.w.pos regs o.d.num = some q →
          gives { cause := 0x04, fword := BitVec.ofNat 32 q })
        ∧ (((e.cl.k || e.c.checked) = false ∨ timingBad e.w.pend e.w.pos regs o.d.num = none) →
          (∃ r ∈ regs ++ o.d.num, 64 ≤ r ∧ r < 128) → (e.t.latch (e.w.wid / 2)).owner ≠ some e.w.key → gives { cause := 0x05 })))

/-- R126: a Fixed instruction's result is seen from its due position on, and not before: here SADD, whose result is due four positions
after it. -/
def Obligations.ResultsFallDue : Prop :=
  ∀ (o : S2) (n : SReg) (s : State) (e : Env), o.d = .s n → Ready s e .vec o.slot (o.a.num ++ o.b.num) o.d.num →
    e.anylane o.slot = true → e.hReady [o.a, o.b] → e.w.replay = [] → e.w.pos + 1 < e.cl.count →
    ∃ t w', exec (.sadd o) s = .next t ∧ t.wave? e.w.key = some w'
      ∧ ∀ j, cget (w'.regsAt j).s n.val = if e.w.pos + 4 ≤ j then e.srd o.a + e.srd o.b else cget (e.w.regsAt j).s n.val

/-! ### Scalar instructions -/

/-- R252, R253: what each scalar instruction of two operands gives, with a register or with a sign-extended immediate, and that it
changes nothing but its destination. -/
def Obligations.ScalarTwoOperandResults : Prop :=
  GivesS2 .sadd (fun a b => a + b) ∧ GivesSI .saddI (fun a b => a + b)
  ∧ GivesS2 .ssub (fun a b => a - b) ∧ GivesSI .ssubI (fun a b => a - b)
  ∧ GivesS2 .smul (fun a b => a * b) ∧ GivesSI .smulI (fun a b => a * b)
  ∧ GivesS2 .smulh (fun a b => BitVec.ofInt 64 (a.toInt * b.toInt / 2 ^ 64))
  ∧ GivesS2 .smulhn (fun a b => BitVec.ofNat 64 (a.toNat * b.toNat / 2 ^ 64))
  ∧ GivesS2 .sand (fun a b => a &&& b) ∧ GivesSI .sandI (fun a b => a &&& b)
  ∧ GivesS2 .sor (fun a b => a ||| b) ∧ GivesSI .sorI (fun a b => a ||| b)
  ∧ GivesS2 .sxor (fun a b => a ^^^ b) ∧ GivesSI .sxorI (fun a b => a ^^^ b)
  ∧ GivesS2 .sshl (fun a b => a <<< (b.toNat % 64)) ∧ GivesSI .sshlI (fun a b => a <<< (b.toNat % 64))
  ∧ GivesS2 .sshr (fun a b => a >>> (b.toNat % 64)) ∧ GivesSI .sshrI (fun a b => a >>> (b.toNat % 64))
  ∧ GivesS2 .ssra (fun a b => a.sshiftRight (b.toNat % 64)) ∧ GivesSI .ssraI (fun a b => a.sshiftRight (b.toNat % 64))
  ∧ GivesS2 .smin (fun a b => if a.toInt ≤ b.toInt then a else b) ∧ GivesSI .sminI (fun a b => if a.toInt ≤ b.toInt then a else b)
  ∧ GivesS2 .smax (fun a b => if a.toInt ≥ b.toInt then a else b) ∧ GivesSI .smaxI (fun a b => if a.toInt ≥ b.toInt then a else b)
  ∧ GivesS2 .sminn (fun a b => if a.toNat ≤ b.toNat then a else b) ∧ GivesSI .sminnI (fun a b => if a.toNat ≤ b.toNat then a else b)
  ∧ GivesS2 .smaxn (fun a b => if a.toNat ≥ b.toNat then a else b) ∧ GivesSI .smaxnI (fun a b => if a.toNat ≥ b.toNat then a else b)

/-- R253, R254: what the other scalar instructions give. SLIH keeps the low half of its destination as due.
The model's own choices that it rests on are in the log: 61. -/
def Obligations.ScalarOtherResults : Prop :=
  GivesS1 .snot (fun a => ~~~a) ∧ GivesS1 .smov (fun a => a)
  ∧ GivesS1 .sclz (fun a => if a = 0 then 64 else BitVec.ofNat 64 (63 - a.toNat.log2))
  ∧ GivesS1 .spopc (fun a => BitVec.ofNat 64 ((List.range 64).filter a.getLsbD).length)
  ∧ (∀ o : SCmp, GivesScalar (.scmp o) o.slot o.d [o.a, o.b] fun e =>
      if (match o.cond with
        | .eq => e.srd o.a = e.srd o.b
        | .ne => e.srd o.a ≠ e.srd o.b
        | .lt => (e.srd o.a).toInt < (e.srd o.b).toInt
        | .ge => (e.srd o.b).toInt ≤ (e.srd o.a).toInt
        | .ltn => (e.srd o.a).toNat < (e.srd o.b).toNat
        | .gen => (e.srd o.b).toNat ≤ (e.srd o.a).toNat : Bool) then 1 else 0)
  ∧ (∀ o : SCmpI, GivesScalar (.scmpI o) o.slot o.d [o.a] fun e =>
      if (match o.cond with
        | .eq => e.srd o.a = sext64 o.imm
        | .ne => e.srd o.a ≠ sext64 o.imm
        | .lt => (e.srd o.a).toInt < (sext64 o.imm).toInt
        | .ge => (sext64 o.imm).toInt ≤ (e.srd o.a).toInt
        | .ltn => (e.srd o.a).toNat < (sext64 o.imm).toNat
        | .gen => (sext64 o.imm).toNat ≤ (e.srd o.a).toNat : Bool) then 1 else 0)
  ∧ (∀ o : S3, GivesScalar (.ssel o) o.slot o.d [o.a, o.b, o.c] fun e => if e.srd o.c ≠ 0 then e.srd o.a else e.srd o.b)
  ∧ (∀ o : S3, GivesScalar (.saddc o) o.slot o.d [o.a, o.b, o.c] fun e =>
      if 2 ^ 64 ≤ (e.srd o.a).toNat + (e.srd o.b).toNat + (e.srd o.c).toNat % 2 then 1 else 0)
  ∧ (∀ o : SLi, GivesScalar (.sli o) o.slot o.d [] fun _ => sext64 o.imm)
  ∧ ∀ o : SLi, GivesScalar (.slih o) o.slot o.d [o.d.src] fun e => o.imm ++ (e.srd o.d.src).extractLsb' 0 32

/-- R255: a scalar value above 64 written to mvc or mrp raises ILLOP with detail 1 and writes nothing. R147: a scalar instruction
that reads an h register whose handle is not complete changes nothing but the wave's stall reason. -/
def Obligations.ScalarStops : Prop :=
  (∀ (o : S2) (s : State) (e : Env), (o.d = .mvc ∨ o.d = .mrp) → Ready s e .vec o.slot (o.a.num ++ o.b.num) o.d.num →
     e.anylane o.slot = true → e.hReady [o.a, o.b] → 64 < (e.srd o.a + e.srd o.b).toNat →
     exec (.sadd o) s = .next (s.raise e.w { cause := 0x01, detail := 1, pos := e.w.pos }))
  ∧ (∀ (o : S1) (n : Fin 16) (s : State) (e : Env), o.a = .h n → Ready s e .vec o.slot o.a.num o.d.num → e.anylane o.slot = true →
       e.l.handleBad (cget e.r.h n.val) = none → e.t.complete (cget e.r.h n.val) = false → e.w.stepping = none →
       ∃ t w', exec (.smov o) s = .next t ∧ t.wave? e.w.key = some w' ∧ w' = { e.w with reason := w'.reason }
         ∧ (∀ k, k ≠ e.w.key → t.wave? k = s.wave? k) ∧ t = { s with waves := t.waves })

/-! ### Vector integer instructions -/

/-- R261, R262: what each integer instruction of one or two checked sources gives, element by element. -/
def Obligations.VectorIntegerElements : Prop :=
  GivesV2 .vadd (fun _ x y => x + y) ∧ GivesV2 .vsub (fun _ x y => x - y) ∧ GivesV2 .vmul (fun _ x y => x * y)
  ∧ GivesV2 .vmulh (fun f x y => sval f.width x * sval f.width y / 2 ^ f.width)
  ∧ GivesV2 .vmulhn (fun f x y => (x * y / 2 ^ f.width : Nat))
  ∧ GivesV2 .vadds (fun f x y => if f.isSigned
      then max (-(2 ^ (f.width - 1))) (min (sval f.width x + sval f.width y) (2 ^ (f.width - 1) - 1))
      else min (x + y) (2 ^ f.width - 1))
  ∧ GivesV2 .vsubs (fun f x y => if f.isSigned
      then max (-(2 ^ (f.width - 1))) (min (sval f.width x - sval f.width y) (2 ^ (f.width - 1) - 1))
      else max 0 ((x : Int) - y))
  ∧ GivesV2 .vshl (fun f x y => x * 2 ^ (y % f.width)) ∧ GivesV2 .vshr (fun f x y => (x / 2 ^ (y % f.width) : Nat))
  ∧ GivesV2 .vsra (fun f x y => sval f.width x / 2 ^ (y % f.width))
  ∧ GivesV2 .vmin (fun f x y => if sval f.width x ≤ sval f.width y then x else y)
  ∧ GivesV2 .vmax (fun f x y => if sval f.width x ≥ sval f.width y then x else y)
  ∧ GivesV2 .vminn (fun _ x y => (min x y : Nat)) ∧ GivesV2 .vmaxn (fun _ x y => (max x y : Nat))
  ∧ GivesV1 .vabs id (fun f x => (sval f.width x).natAbs) ∧ GivesV1 .vneg id (fun f x => -sval f.width x)
  ∧ GivesV1 .vpopc Tag.unsigned (fun f x => ((List.range f.width).filter x.testBit).length)
  ∧ GivesV1 .vclz Tag.unsigned (fun f x => if x = 0 then f.width else f.width - 1 - x.log2)
  ∧ (∀ o : V3, GivesElems (.vmad o) o.slot o.d [o.a, o.b, o.c] [(o.a, o.fmt, 0), (o.b, o.fmt, 1), (o.c, o.fmt, 2)] (fun _ => o.fmt)
      o.fmt fun e l k => stored o.fmt.width
        ((e.el o.a o.perm.onA o.fmt l k * e.el o.b o.perm.onB o.fmt l k + e.el o.c o.perm.onC o.fmt l k : Nat)))
  ∧ (∀ o : VCmp, GivesElems (.vcmp o) o.slot o.d [o.a, o.b] [(o.a, o.fmt, 0), (o.b, o.fmt, 1)] (fun _ => o.fmt.unsigned) o.fmt
      fun e l k =>
        let x := o.fmt.read o.fmt.width (e.el o.a o.perm.onA o.fmt l k)
        let y := o.fmt.read o.fmt.width (e.el o.b o.perm.onB o.fmt l k)
        if (match o.cond with | .eq => x = y | .ne => x ≠ y | .lt => x < y | .le => x ≤ y | .gt => y < x | .ge => y ≤ x : Bool)
        then 2 ^ o.fmt.width - 1 else 0)

/-- R178, R230, R262, R264: what the instructions over whole lanes give: bitwise operations, moves, selects, bit fields.
The model's own choices that it rests on are in the log: 168. -/
def Obligations.VectorWholeLaneResults : Prop :=
  GivesBits .vand (fun x y => x &&& y) ∧ GivesBits .vor (fun x y => x ||| y) ∧ GivesBits .vxor (fun x y => x ^^^ y)
  ∧ (∀ o : V1, GivesLanes (.vnot o) o.slot o.d [o.a] [] (fun e => match o.a with | .v n => e.r.tag n | _ => .raw)
      (fun e val => ∀ l ∈ e.lanes o.slot, val l = ~~~e.rd o.a o.perm.onA l) (fun _ _ => 0))
  ∧ (∀ o : V1, GivesLanes (.vmov o) o.slot o.d [o.a] [] (fun e => match o.a with | .v n => e.r.tag n | _ => o.fmt)
      (fun e val => ∀ l ∈ e.lanes o.slot, val l = e.rd o.a o.perm.onA l) (fun _ _ => 0))
  ∧ (∀ o : V1, GivesLanes (.vretag o) o.slot o.d [o.a] [] (fun _ => o.fmt)
      (fun e val => ∀ l ∈ e.lanes o.slot, val l = e.rd o.a o.perm.onA l) (fun _ _ => 0))
  ∧ (∀ o : VLi, GivesLanes (.vli o) o.slot o.d [] [] (fun _ => o.tag) (fun e val => ∀ l ∈ e.lanes o.slot, val l = o.imm)
      (fun _ _ => 0))
  ∧ (∀ o : V2, (o.fmt = .s32 ∨ o.fmt = .n32) →
      GivesLanes (.vbfx o) o.slot o.d [o.a, o.b] [] (fun _ => o.fmt) (fun e val => ∀ l ∈ e.lanes o.slot,
        let b := e.rd o.b o.perm.onB l
        let lsb := b.toNat % 32
        let wid := min (b.toNat / 256 % 64) (32 - lsb)
        ∀ i < 32, (val l).getLsbD i = if i < wid then (e.rd o.a o.perm.onA l).getLsbD (lsb + i)
          else (o.fmt == .s32 && wid != 0 && (e.rd o.a o.perm.onA l).getLsbD (lsb + wid - 1))) (fun _ _ => 0))
  ∧ (∀ o : V3, GivesLanes (.vbfi o) o.slot o.d [o.a, o.b, o.c] [] (fun e => bitTag e.r [o.a, o.b])
      (fun e val => ∀ l ∈ e.lanes o.slot,
        let c := e.rd o.c o.perm.onC l
        let lsb := c.toNat % 32
        let wid := min (c.toNat / 256 % 64) (32 - lsb)
        ∀ i < 32, (val l).getLsbD i = if lsb ≤ i ∧ i < lsb + wid then (e.rd o.b o.perm.onB l).getLsbD (i - lsb)
          else (e.rd o.a o.perm.onA l).getLsbD i) (fun _ _ => 0))
  ∧ ∀ (o : VSel) (s : State) (e : Env), Ready s e .vec o.slot (246 :: (o.a.num ++ o.b.num ++ o.m.num)) o.d.num → e.lanes o.slot ≠ [] →
      ∃ t r, exec (.vsel o) s = .next t ∧ Retires s t e r s.teams
        ∧ e.w.regsEnd.LanesSet r o.d (e.lanes o.slot)
            (fun l => if (e.mrd o.m).getLsbD l then e.rd o.a o.perm.onA l else e.rd o.b o.perm.onB l) (bitTag e.r [o.a, o.b]) 0

/-- R265: VDOT4 checks a and b against its format, and c against s32 for s8x4 and n32 for n8x4, the result's tag: the first source
with another tag raises FMTCHK. With no such source it gives each active lane c plus the four products of its 8-bit elements of a and
b, modulo 2^32. -/
def Obligations.VectorDot4 : Prop :=
  ∀ o : V3, (o.fmt = .s8x4 ∨ o.fmt = .n8x4) →
    let rt : Tag := if o.fmt = .s8x4 then .s32 else .n32
    let want : List (VSrc × Tag) := [(o.a, o.fmt), (o.b, o.fmt), (o.c, rt)]
    (GivesLanes (.vdot4 o) o.slot o.d [o.a, o.b, o.c] [(o.a, o.fmt, 0), (o.b, o.fmt, 1), (o.c, rt, 2)] (fun _ => rt)
      (fun e val => ∀ l ∈ e.lanes o.slot,
        let a := e.rd o.a o.perm.onA l
        let b := e.rd o.b o.perm.onB l
        let p (k : Nat) : Int := if o.fmt = .s8x4 then (a.extractLsb' (8 * k) 8).toInt * (b.extractLsb' (8 * k) 8).toInt
          else (a.extractLsb' (8 * k) 8).toNat * (b.extractLsb' (8 * k) 8).toNat
        val l = BitVec.ofInt 32 ((e.rd o.c o.perm.onC l).toNat + p 0 + p 1 + p 2 + p 3)) (fun _ _ => 0))
    ∧ ∀ (s : State) (e : Env) (i : Nat) (n : VReg) (t : Tag), Ready s e .vec o.slot (246 :: (o.a.num ++ o.b.num ++ o.c.num)) o.d.num →
        e.lanes o.slot ≠ [] → want[i]? = some (.v n, t) → e.r.tag n ≠ t →
        (∀ j < i, ∀ m u, want[j]? = some (.v m, u) → e.r.tag m = u) →
        exec (.vdot4 o) s = .next (s.raise e.w
          { cause := 0x03, fword := (e.r.tag n).bits.setWidth 32 + BitVec.ofNat 32 (16 * i), pos := e.w.pos })

/-- R178, R237, R257: a source whose tag is not the instruction's format raises FMTCHK, with the tag found and the operand's index,
before any lane is written; operand a is checked before b. -/
def Obligations.VectorFormatTrap : Prop :=
  ∀ (o : V2) (s : State) (e : Env) (i : Instr), (i = .vadd o ∨ i = .vsub o ∨ i = .vmul o) →
    Ready s e .vec o.slot (246 :: (o.a.num ++ o.b.num)) o.d.num → e.lanes o.slot ≠ [] →
    (∀ n, o.a = .v n → e.r.tag n ≠ o.fmt → exec i s = .next (s.raise e.w
      { cause := 0x03, fword := (e.r.tag n).bits.setWidth 32, pos := e.w.pos }))
    ∧ ∀ n, (∀ m, o.a = .v m → e.r.tag m = o.fmt) → o.b = .v n → e.r.tag n ≠ o.fmt → exec i s = .next (s.raise e.w
      { cause := 0x03, fword := (e.r.tag n).bits.setWidth 32 + 16, pos := e.w.pos })

/-! ### Vector floating point -/

/-- R182, R184, R187, R188, R190, R266, R269: what each float instruction gives, element by element: the exact result of the
elements' exact values, rounded once, and the flags of all active lanes raised together. What the exact sums, products and minima are,
and what rounding is, RoundingRules says. R182, R266 to R268: comparisons, sign
changes and classes. A NaN makes ne and un hold and every other comparison fail. -/
def Obligations.VectorFloatResults : Prop :=
  (GivesF2 .vfadd (fun o x y => faddN o.fmt.ff o.rnd [x, y]) ∧ GivesF2 .vfsub (fun o x y => faddN o.fmt.ff o.rnd [x, y.neg])
   ∧ GivesF2 .vfmul (fun o x y =>
       ((round o.fmt.ff o.rnd false 0 (fmul x y).1).1, (fmul x y).2 ||| (round o.fmt.ff o.rnd false 0 (fmul x y).1).2))
   ∧ GivesF3 .vfma (fun o x y z => ffma o.fmt.ff o.rnd x y z) ∧ GivesF3 .vfms (fun o x y z => ffma o.fmt.ff o.rnd x y z.neg)
   ∧ GivesF3 .vfnma (fun o x y z => ffma o.fmt.ff o.rnd x.neg y z)
   ∧ GivesF2 .vfmin (fun o x y => ((round o.fmt.ff .rne false 0 (fminmax false [x, y]).1).1, (fminmax false [x, y]).2))
   ∧ GivesF2 .vfmax (fun o x y => ((round o.fmt.ff .rne false 0 (fminmax true [x, y]).1).1, (fminmax true [x, y]).2))
   ∧ (∀ o : V3, (o.fmt = .bf16x2 ∨ o.fmt = .f16x2) →
       GivesFloat (.vfdot2 o) o.slot o.d [o.a, o.b, o.c] [(o.a, o.fmt, 0), (o.b, o.fmt, 1), (o.c, .f32, 2)] .f32 .f32 fun e l _ =>
         let p (k : Nat) := fmul (e.fv o.a o.perm.onA o.fmt l k) (e.fv o.b o.perm.onB o.fmt l k)
         let r := faddN .f32 o.rnd [e.fv o.c o.perm.onC .f32 l 0, (p 0).1, (p 1).1]
         (r.1, (p 0).2 ||| (p 1).2 ||| r.2)))
  ∧ ((∀ o : VFCmp, (o.fmt = .f32 ∨ o.fmt = .bf16x2 ∨ o.fmt = .f16x2) →
       GivesFloat (.vfcmp o) o.slot o.d [o.a, o.b] [(o.a, o.fmt, 0), (o.b, o.fmt, 1)] (if o.fmt = .f32 then .n32 else .n16x2) o.fmt
         fun e l k =>
           let x := e.fv o.a o.perm.onA o.fmt l k
           let y := e.fv o.b o.perm.onB o.fmt l k
           let nan := x.isNan || y.isNan
           let holds : Bool := match o.cond with
             | .eq => !nan && fcmp x y == .eq
             | .ne => nan || fcmp x y != .eq
             | .lt => !nan && fcmp x y == .lt
             | .le => !nan && (fcmp x y == .lt || fcmp x y == .eq)
             | .gt => !nan && fcmp x y == .gt
             | .ge => !nan && (fcmp x y == .gt || fcmp x y == .eq)
             | .un => nan
             | .ord => !nan
           let nv : Bool := x.isSig || y.isSig || (nan && (o.cond == .lt || o.cond == .le || o.cond == .gt || o.cond == .ge))
           (if holds then 2 ^ o.fmt.width - 1 else 0, if nv then flagNV else 0))
     ∧ (∀ o : V1, (o.fmt = .f32 ∨ o.fmt = .bf16x2 ∨ o.fmt = .f16x2) →
       GivesFloat (.vfabs o) o.slot o.d [o.a] [(o.a, o.fmt, 0)] o.fmt o.fmt fun e l k =>
         let v := e.fv o.a o.perm.onA o.fmt l k
         (if v.isNan then o.fmt.ff.nanBits else e.el o.a o.perm.onA o.fmt l k % 2 ^ (o.fmt.width - 1), if v.isSig then flagNV else 0))
     ∧ (∀ o : V1, (o.fmt = .f32 ∨ o.fmt = .bf16x2 ∨ o.fmt = .f16x2) →
       GivesFloat (.vfneg o) o.slot o.d [o.a] [(o.a, o.fmt, 0)] o.fmt o.fmt fun e l k =>
         let v := e.fv o.a o.perm.onA o.fmt l k
         (if v.isNan then o.fmt.ff.nanBits else e.el o.a o.perm.onA o.fmt l k ^^^ 2 ^ (o.fmt.width - 1), if v.isSig then flagNV else 0))
     ∧ ∀ o : V1, (o.fmt = .f32 ∨ o.fmt = .bf16x2 ∨ o.fmt = .f16x2) →
       GivesFloat (.vfcls o) o.slot o.d [o.a] [(o.a, o.fmt, 0)] (if o.fmt = .f32 then .n32 else .n16x2) o.fmt fun e l k =>
         let x := e.el o.a o.perm.onA o.fmt l k
         let subnormal : Bool := x / 2 ^ o.fmt.ff.wm % 2 ^ o.fmt.ff.we == 0
         (match value o.fmt.ff x with
           | .inf neg => if neg then 1 else 128
           | .nan sig => if sig then 256 else 512
           | .fin neg m _ => if m = 0 then (if neg then 8 else 16) else if subnormal then (if neg then 4 else 32)
             else if neg then 2 else 64, 0))

/-- R189, R270: each special function gives its result rounded once to f32. The special cases of R189; a quotient, reciprocal, square
root or reciprocal root is the value of f32 nearest to the exact one, with NX when it is not that one; the exact results of VEXP2, VLOG2,
VSINT and VCOST. That every inexact result of these four is the nearest rests on the number of terms that the model sums (log 130), and
is not stated. The model's own choices that it rests on are in the log: 130. -/
def Obligations.SpecialFunctionResults : Prop :=
  GivesSpecial .vrcp frcp ∧ GivesSpecial .vrsq frsq ∧ GivesSpecial .vsqrt fsqrt ∧ GivesSpecial .vexp2 fexp2
  ∧ GivesSpecial .vlog2 flog2 ∧ GivesSpecial .vsint fsint ∧ GivesSpecial .vcost fcost
  ∧ (∀ o : V2, GivesLanes (.vdiv o) o.slot o.d [o.a, o.b] [(o.a, .f32, 0), (o.b, .f32, 1)] (fun _ => .f32)
      (fun e val => ∀ l ∈ e.lanes o.slot,
        val l = (special (fun x => fdiv x (value .f32 (e.rd o.b o.perm.onB l).toNat)) (e.rd o.a o.perm.onA l)).1)
      (fun e l => (special (fun x => fdiv x (value .f32 (e.rd o.b o.perm.onB l).toNat)) (e.rd o.a o.perm.onA l)).2))
  ∧ (special frcp 0x00000000 = (0x7F800000, flagDZ) ∧ special frcp 0x80000000 = (0xFF800000, flagDZ)
    ∧ special frcp 0x7F800000 = (0, 0) ∧ special frcp 0xFF800000 = (0x80000000, 0)
    ∧ special frsq 0x00000000 = (0x7F800000, flagDZ) ∧ special frsq 0x80000000 = (0xFF800000, flagDZ)
    ∧ special fsqrt 0x80000000 = (0x80000000, 0) ∧ special flog2 0 = (0xFF800000, flagDZ) ∧ special flog2 0x80000000 = (0xFF800000, flagDZ)
    ∧ special flog2 0x3F800000 = (0, 0)
    ∧ special fexp2 0xFF800000 = (0, 0) ∧ special fexp2 0x7F800000 = (0x7F800000, 0)
    ∧ (∀ g ∈ [fsint, fcost], special g 0x7F800000 = (0x7FC00000, flagNV) ∧ special g 0xFF800000 = (0x7FC00000, flagNV))
    ∧ (∀ g ∈ [frsq, fsqrt, flog2], ∀ x : Word, 0x80000000 < x.toNat → x.toNat ≤ 0xFF800000 → special g x = (0x7FC00000, flagNV))
    ∧ ∀ g ∈ [frcp, frsq, fsqrt, fexp2, flog2, fsint, fcost], ∀ x : Word, ∀ sig, value .f32 x.toNat = .nan sig →
      special g x = (0x7FC00000, if sig then flagNV else 0))
  ∧ (let near (q : ℝ) (r : Fl Word) : Prop := (value .f32 r.1.toNat).IsFin →
        (∀ u < 2 ^ 32, (value .f32 u).IsFin → |q - ((value .f32 r.1.toNat).rat : ℝ)| ≤ |q - ((value .f32 u).rat : ℝ)|)
        ∧ (r.2.getLsbD 0 = true ↔ ((value .f32 r.1.toNat).rat : ℝ) ≠ q)
     ∀ x : Word, let a : FVal := value .f32 x.toNat
     a.IsFin →
       (a.rat ≠ 0 → near (1 / (a.rat : ℝ)) (special frcp x))
       ∧ (0 < a.rat → near (Real.sqrt a.rat) (special fsqrt x) ∧ near (1 / Real.sqrt a.rat) (special frsq x))
       ∧ ∀ y : Word, let b : FVal := value .f32 y.toNat
         b.IsFin → b.rat ≠ 0 → near ((a.rat : ℝ) / (b.rat : ℝ)) (special (fun v => fdiv v b) x))
  ∧ ∀ (x : Word) (i : Int), let a : FVal := value .f32 x.toNat
    a.IsFin →
      (a.rat = i → -149 ≤ i → i ≤ 127 → ∃ w : Word, special fexp2 x = (w, 0) ∧ (value .f32 w.toNat).IsFin
        ∧ (value .f32 w.toNat).rat = (2 : ℚ) ^ i)
      ∧ (a.rat = (2 : ℚ) ^ i → ∃ w : Word, special flog2 x = (w, 0) ∧ (value .f32 w.toNat).IsFin ∧ (value .f32 w.toNat).rat = i)
      ∧ (a.rat = i / 2 → special fsint x = (if a.sgn then 0x80000000 else 0, 0)
        ∧ special fcost x = (if i % 2 = 0 then 0x3F800000 else 0xBF800000, 0))
      ∧ (a.rat = i / 2 + 1 / 4 → special fcost x = (0, 0) ∧ special fsint x = (if i % 2 = 0 then 0x3F800000 else 0xBF800000, 0))

/-- R179: rounding a finite value that does not overflow gives the nearest value of the format under rne, the nearest that is not
larger in magnitude under rz, the nearest not below under ru, and the nearest not above under rd. R180: an exact value is returned
unchanged by every rounding mode, stochastic included, and raises nothing. R187, R188, R190: what is rounded is exact: a sum of finite
terms is their rational sum, with the sign of a zero as R187 says; a product is the rational product; NaNs and infinities; a minimum or
maximum is the least or greatest term that is no NaN, −0 below +0. -/
def Obligations.RoundingRules : Prop :=
  (∀ (f : FFmt) (r : Rnd) (neg : Bool) (m : Nat) (e : Int), r ≠ .sr →
     (round f r false 0 (.fin neg m e)).2.getLsbD 2 = false →
     ∃ n' m' e', value f (round f r false 0 (.fin neg m e)).1 = .fin n' m' e' ∧
       let q (n : Bool) (m : Nat) (e : Int) : ℚ := (if n then -1 else 1) * m * (2 : ℚ) ^ e
       let y := q neg m e
       let v := q n' m' e'
       (match r with
         | .rz => |v| ≤ |y| ∧ 0 ≤ v * y
         | .ru => y ≤ v
         | .rd => v ≤ y
         | _ => True)
       ∧ ∀ x2 < 2 ^ f.width, ∀ n2 m2 e2, value f x2 = .fin n2 m2 e2 →
         let u := q n2 m2 e2
         (match r with
           | .rz => |u| ≤ |y| ∧ 0 ≤ u * y
           | .ru => y ≤ u
           | .rd => u ≤ y
           | _ => True) → |y - v| ≤ |y - u|)
  ∧ (∀ (f : FFmt) (r : Rnd) (sat : Bool) (draw x : Nat), x < 2 ^ f.width → (∃ n m e, value f x = .fin n m e) →
       round f r sat draw (value f x) = (x, 0))
  ∧ (∀ (r : Rnd) (l : List FVal),
       let sig := ∃ v ∈ l, v.isSig = true
       let both := FVal.inf false ∈ l ∧ FVal.inf true ∈ l
       let sum := (l.map FVal.rat).sum
       (l ≠ [] → (∀ v ∈ l, v.IsFin) → ∃ n m e, fsum r l = (.fin n m e, 0) ∧ (FVal.fin n m e).rat = sum
         ∧ (sum = 0 → (n = true ↔ (∀ v ∈ l, v.rat = 0 ∧ v.sgn = true) ∨ r = .rd ∧ ∃ v ∈ l, v.rat ≠ 0 ∨ v.sgn = true)))
       ∧ (sig ∨ both → fsum r l = (.nan false, flagNV))
       ∧ (FVal.nan false ∈ l → ¬sig → ¬both → fsum r l = (.nan false, 0))
       ∧ ∀ n, (∀ v ∈ l, v.isNan = false) → FVal.inf n ∈ l → FVal.inf (!n) ∉ l → fsum r l = (.inf n, 0))
  ∧ (∀ (a b : FVal),
       (a.IsFin → b.IsFin → ∃ m e, fmul a b = (.fin (a.sgn != b.sgn) m e, 0)
         ∧ (FVal.fin (a.sgn != b.sgn) m e).rat = a.rat * b.rat)
       ∧ ((a.isNan || b.isNan) = true → fmul a b = (.nan false, if a.isSig || b.isSig then flagNV else 0))
       ∧ ∀ n k, fmul (.inf n) (.inf k) = (.inf (n != k), 0) ∧ (b.IsFin →
         fmul (.inf n) b = (if b.rat = 0 then (.nan false, flagNV) else (.inf (n != b.sgn), 0)) ∧ fmul b (.inf n) = fmul (.inf n) b))
  ∧ (∀ (f : FFmt) (r : Rnd) (x y z : FVal) (l : List FVal),
       let once (v : FVal) : Fl Nat := round f r false 0 v
       faddN f r l = ((once (fsum r l).1).1, (fsum r l).2 ||| (once (fsum r l).1).2)
       ∧ let p := fmul x y
         let s := fsum r [p.1, z]
         ffma f r x y z = ((once s.1).1, p.2 ||| s.2 ||| (once s.1).2))
  ∧ ∀ (mx : Bool) (l : List FVal),
      let below (a b : FVal) : Prop := match a, b with
        | .inf n, .inf k => n = true ∧ k = false
        | .inf n, _ => n = true
        | _, .inf k => k = false
        | _, _ => a.rat < b.rat ∨ a.rat = b.rat ∧ a.sgn = true ∧ b.sgn = false
      let r := (fminmax mx l).1
      (fminmax mx l).2 = (if l.any FVal.isSig then flagNV else 0)
      ∧ ((∀ v ∈ l, v.isNan = true) → r = .nan false)
      ∧ ((∃ v ∈ l, v.isNan = false) → r ∈ l ∧ r.isNan = false
        ∧ ∀ v ∈ l, v.isNan = false → (mx = false → ¬below v r) ∧ (mx = true → ¬below r v))

/-! ### Conversions, codebook expansion and amax -/

/-- R180 to R183, R185, R259, R271 to R274: what VCVT in its three shapes, VCVTI, VCVTF, VPACK and VUNPK give, element by element,
with the flags, the update of amax from the inputs converted, and SRCTR's advance under stochastic rounding. -/
def Obligations.ConversionResults : Prop :=
  (∀ o : VCvt, o.dst.cnt = o.src.cnt →
    GivesRun (.vcvt o) o 1 [o.a] false [(o.a, o.src, 0)] o.dst
      (fun e val => ∀ l ∈ e.lanes o.slot, ∀ k < o.dst.cnt, elem (val 0 l) o.dst.width k
        = (round o.dst.ff o.rnd o.sat (srDraw e.r.srctr e.r.srseed e.t.tix e.w.wid l k) (fval o.src (e.rd o.a o.perm.onA l) k)).1
          % 2 ^ o.dst.width)
      (fun e l => ((List.range o.src.cnt).map fun k => (round o.dst.ff o.rnd o.sat
        (srDraw e.r.srctr e.r.srseed e.t.tix e.w.wid l k) (fval o.src (e.rd o.a o.perm.onA l) k)).2).foldl (· ||| ·) 0)
      (fun e l => (List.range o.src.cnt).map (fval o.src (e.rd o.a o.perm.onA l))))
  ∧ (∀ o : VCvt, o.src.cnt < o.dst.cnt →
    let g := o.sub.val * (2 * o.src.cnt)
    let inp (e : Env) (l i : Nat) : FVal := if i < o.src.cnt then fval o.src (e.rd o.a o.perm.onA l) i
      else fval o.src (e.rd o.b o.perm.onB l) (i - o.src.cnt)
    let cv (e : Env) (l i : Nat) : Fl Nat :=
      round o.dst.ff o.rnd o.sat (srDraw e.r.srctr e.r.srseed e.t.tix e.w.wid l (g + i)) (inp e l i)
    GivesRun (.vcvt o) o 1 [o.a, o.b] (decide (0 < o.sub.val)) [(o.a, o.src, 0), (o.b, o.src, 1)] o.dst
      (fun e val => ∀ l ∈ e.lanes o.slot, ∀ k < o.dst.cnt, elem (val 0 l) o.dst.width k =
        if g ≤ k ∧ k < g + 2 * o.src.cnt then (cv e l (k - g)).1 % 2 ^ o.dst.width
        else match o.d with
          | .v r => if 0 < o.sub.val then elem (e.vlane r l) o.dst.width k else 0
          | .zero => 0)
      (fun e l => ((List.range o.dst.cnt).map fun k => if g ≤ k ∧ k < g + 2 * o.src.cnt then (cv e l (k - g)).2 else 0).foldl
        (· ||| ·) 0)
      (fun e l => (List.range o.src.cnt).map (fval o.src (e.rd o.a o.perm.onA l))
        ++ (List.range o.src.cnt).map (fval o.src (e.rd o.b o.perm.onB l))))
  ∧ (∀ o : VCvt, o.dst.cnt < o.src.cnt →
    let g := o.sub.val * (2 * o.dst.cnt)
    let cv (e : Env) (l i : Nat) : Fl Nat := round o.dst.ff .rne false 0 (fval o.src (e.rd o.a o.perm.onA l) (g + i))
    GivesRun (.vcvt o) o 2 [o.a] false [(o.a, o.src, 0)] o.dst
      (fun e val => ∀ l ∈ e.lanes o.slot, ∀ i < 2, ∀ k < o.dst.cnt,
        elem (val i l) o.dst.width k = (cv e l (o.dst.cnt * i + k)).1 % 2 ^ o.dst.width)
      (fun e l => ((List.range (2 * o.dst.cnt)).map fun i => (cv e l i).2).foldl (· ||| ·) 0)
      (fun e l => (List.range (2 * o.dst.cnt)).map fun i => fval o.src (e.rd o.a o.perm.onA l) (g + i)))
  ∧ (∀ o : VCvt, o.dst.cnt = o.src.cnt →
    let cv (e : Env) (l k : Nat) : Fl (BitVec 32) := toInt o.dst.isSigned o.dst.width o.rnd
      (srDraw e.r.srctr e.r.srseed e.t.tix e.w.wid l k) (fval o.src (e.rd o.a o.perm.onA l) k)
    GivesRun (.vcvti o) o 1 [o.a] false [(o.a, o.src, 0)] o.dst
      (fun e val => ∀ l ∈ e.lanes o.slot, ∀ k < o.dst.cnt, elem (val 0 l) o.dst.width k = (cv e l k).1.toNat % 2 ^ o.dst.width)
      (fun e l => ((List.range o.src.cnt).map fun k => (cv e l k).2).foldl (· ||| ·) 0)
      (fun e l => (List.range o.src.cnt).map (fval o.src (e.rd o.a o.perm.onA l))))
  ∧ (∀ o : VCvt, o.dst.cnt = o.src.cnt → o.amax = false →
    let cv (e : Env) (l k : Nat) : Fl Nat := round o.dst.ff o.rnd o.sat (srDraw e.r.srctr e.r.srseed e.t.tix e.w.wid l k)
      (ofInt (o.src.read o.src.width (e.el o.a o.perm.onA o.src l k)))
    GivesRun (.vcvtf o) o 1 [o.a] false [(o.a, o.src, 0)] o.dst
      (fun e val => ∀ l ∈ e.lanes o.slot, ∀ k < o.dst.cnt, elem (val 0 l) o.dst.width k = (cv e l k).1 % 2 ^ o.dst.width)
      (fun e l => ((List.range o.src.cnt).map fun k => (cv e l k).2).foldl (· ||| ·) 0) (fun _ _ => []))
  ∧ (∀ o : VCvt, o.dst.cnt = 2 * o.src.cnt → o.amax = false →
    GivesRun (.vpack o) o 1 [o.a, o.b] false [(o.a, o.src, 0), (o.b, o.src, 1)] o.dst
      (fun e val => ∀ l ∈ e.lanes o.slot, ∀ k < o.dst.cnt, elem (val 0 l) o.dst.width k =
        let x : Int := o.src.read o.src.width (if k < o.src.cnt then e.el o.a o.perm.onA o.src l k
          else e.el o.b o.perm.onB o.src l (k - o.src.cnt))
        let lo : Int := if o.dst.isSigned then -(2 ^ (o.dst.width - 1)) else 0
        let hi : Int := if o.dst.isSigned then 2 ^ (o.dst.width - 1) - 1 else 2 ^ o.dst.width - 1
        stored o.dst.width (if o.sat then max lo (min x hi) else x))
      (fun _ _ => 0) (fun _ _ => []))
  ∧ ∀ o : VCvt, (o.dst = .s32 ∨ o.dst = .n32 ∨ o.dst = .s16x2 ∨ o.dst = .n16x2) → o.amax = false →
    GivesRun (.vunpk o) o 2 [o.a] false [(o.a, o.src, 0)] o.dst
      (fun e val => ∀ l ∈ e.lanes o.slot, ∀ i < 2, ∀ k < o.dst.cnt, elem (val i l) o.dst.width k =
        let w := 32 / (2 * o.dst.cnt)
        stored o.dst.width (o.src.read w (elem (e.rd o.a o.perm.onA l) w (o.dst.cnt * i + k))))
      (fun _ _ => 0) (fun _ _ => [])

/-- R198: what an index decodes to: the signs, the magnitudes and the exponent of the eight elements of a valid entry, and what an invalid
one gives. R197, R198, R259, R277, R278: VXPD writes eight f32 registers from the decoded entries of its active lanes, raises their
flags, and sets the bank's sticky bit when a lane had an invalid entry in ZERO mode; with the bank below nbanks, its scale
readable, no write to the bank pending and no entry invalid in TRAP mode. R198, R277: an index whose entry is invalid in TRAP mode
in some active lane raises CBIDX with the lowest such lane's entry and the bank in the fault word, and a bank at or above nbanks
raises PROT. -/
def Obligations.CodebookExpansion : Prop :=
  (∀ (b : Bank) (x : BitVec 16) (esc : Byte),
     let n := (x.extractLsb' 7 9).toNat
     let entry := cget b.entries n
     (entry.getLsbD 63 = false → cbDecode b x esc = if b.zero then .zeros else .bad n)
     ∧ (entry.getLsbD 63 = true → ∃ l, cbDecode b x esc = .els l ∧ l.length = 8 ∧ ∀ i < 8,
         (esc = 0xFF → l[i]? = some (.nan false))
         ∧ (esc ≠ 0xFF → ∃ v, l[i]? = some v ∧ v.IsFin
           ∧ v.sgn = (if i < 7 then x.getLsbD i else (decide (((List.range 7).filter x.getLsbD).length % 2 = 1) != entry.getLsbD 32))
           ∧ |v.rat| = (entry.extractLsb' (4 * i) 4).toNat * (2 : ℚ) ^ (b.e.toInt + (esc.toNat : Int) - 127))))
  ∧ (∀ (o : Vxpd) (s : State) (e : Env), Ready s e .vec o.slot (246 :: (o.a.num ++ o.e.num)) (o.d.runNums 8) → e.lanes o.slot ≠ [] →
     o.bank.val < e.l.p.nbanks → e.hReady [o.e] → e.bankBusy o.bank.val = false → e.tagsBad [(o.a, .cbix2, 0)] = none →
     (e.t.bank o.bank.val).bad = none →
     let idx (l : Nat) : BitVec 16 := (e.rd o.a o.perm.onA l).extractLsb' (if o.hi then 16 else 0) 16
     let dec (l : Nat) : CbRes := cbDecode (e.t.bank o.bank.val) (idx l) ((e.srd o.e).extractLsb' 0 8)
     (∀ l ∈ e.lanes o.slot, ∀ n, dec l ≠ .bad n) →
     let el (l i : Nat) : Fl Nat := match dec l with
       | .els x => round .f32 .rne false 0 (x[i]?.getD (.fin false 0 0))
       | _ => (0, 0)
     let s' : State := if ∃ l ∈ e.lanes o.slot, dec l = .zeros
       then s.putTeam (e.t.putBank o.bank.val { e.t.bank o.bank.val with sticky := true }) else s
     ∃ t r, exec (.vxpd o) s = .next t ∧ Retires s' t e r s'.teams
       ∧ e.w.regsEnd.RunSet r o.d 8 (e.lanes o.slot) (fun i l => BitVec.ofNat 32 (el l i).1) .f32
           (((e.lanes o.slot).map fun l => ((List.range 8).map fun i => (el l i).2).foldl (· ||| ·) 0).foldl (· ||| ·) 0)
           e.w.regsEnd.amax false)
  ∧ (∀ (o : Vxpd) (s : State) (e : Env), Ready s e .vec o.slot (246 :: (o.a.num ++ o.e.num)) (o.d.runNums 8) → e.lanes o.slot ≠ [] →
       (e.l.p.nbanks ≤ o.bank.val → exec (.vxpd o) s = .next (s.raise e.w { cause := 0x07, pos := e.w.pos }))
       ∧ (o.bank.val < e.l.p.nbanks → e.hReady [o.e] → e.bankBusy o.bank.val = false → e.tagsBad [(o.a, .cbix2, 0)] = none →
         (e.t.bank o.bank.val).bad = none →
         ∀ l ∈ e.lanes o.slot,
           let ent (l : Nat) : Nat := ((e.rd o.a o.perm.onA l).extractLsb' (if o.hi then 23 else 7) 9).toNat
           let invalid (l : Nat) : Bool := !(cget (e.t.bank o.bank.val).entries (ent l)).getLsbD 63
           (e.t.bank o.bank.val).zero = false → invalid l = true → (∀ j ∈ e.lanes o.slot, j < l → invalid j = false) →
           exec (.vxpd o) s = .next (s.raise e.w
             { cause := 0x09, fword := BitVec.ofNat 32 (ent l + 512 * o.bank.val), pos := e.w.pos })))

/-- R185, R258, R275, R276: AMAXR updates amax from its active lanes; AMAXC takes amax, as it stands at its due position, to its
destination and clears it, where no earlier update or write of amax falls due after that position (in checked mode one raises TIMING);
VGETTAG gives a tag's code. The model's own choices that it rests on are in the log: 132. -/
def Obligations.AmaxAndTagResults : Prop :=
  (∀ o : VToS, ∀ n, o.a = .v n → GivesWave (.vgettag o) o.slot o.d o.a.num [] fun e => (zext64 (e.r.tag n).bits, 0))
  ∧ (∀ (o : AmaxR) (s : State) (e : Env), Ready s e .vec o.slot (246 :: o.a.num) [248] → e.lanes o.slot ≠ [] →
      e.tagsBad [(o.a, o.fmt, 0)] = none →
      ∃ t, exec (.amaxr o) s = .next t ∧ Retires s t e
        { e.w.regsEnd with amax := amaxJoin e.w.regsEnd.amax (amaxOf ((e.lanes o.slot).map fun l =>
            (List.range o.fmt.cnt).map (fval o.fmt (e.rd o.a o.perm.onA l))).flatten) } s.teams)
  ∧ ∀ (o : AmaxC) (s : State) (e : Env), Ready s e .vec o.slot [] (o.d.num ++ [248]) → e.anylane o.slot = true →
      (∀ p ∈ e.w.pend, e.w.pos + 4 < p.due → 248 ∉ p.dsts) →
      let v : DWord := zext64 (e.w.regsAt (e.w.pos + 4)).amax
      o.d.takes v →
      ∃ t, exec (.amaxc o) s = .next t ∧ Retires s t e (({ e.w.regsEnd with amax := 0 }).putS o.d v) (o.d.teams s e v)

/-! ### Cross-lane and mask instructions -/

/-- R279 to R281: the instructions that gather values from other lanes, a lane's count of set bits below it, and a ballot.
The model's own choices that it rests on are in the log: 168. -/
def Obligations.CrossLaneResults : Prop :=
  (∀ o : V2, GivesRows (.vshfl o) o.slot o.d (o.a.num ++ o.b.num) [] (fun e => match o.a with | .v n => e.r.tag n | _ => .raw)
    (fun e val => ∀ l ∈ e.lanes o.slot, val l = e.rd o.a o.perm.onA ((e.rd o.b o.perm.onB l).toNat % 64)) (fun _ _ => 0))
  ∧ (∀ o : VM, GivesRows (.vbcs o) o.slot o.d (o.a.num ++ o.m.num) [] (fun e => match o.a with | .v n => e.r.tag n | _ => .raw)
    (fun e val => ∀ l ∈ e.lanes o.slot,
      (∀ j ≤ l, (e.mrd o.m).getLsbD j = true → (∀ i, j < i → i ≤ l → (e.mrd o.m).getLsbD i = false) →
        val l = e.rd o.a o.perm.onA j)
      ∧ ((∀ j ≤ l, (e.mrd o.m).getLsbD j = false) → val l = e.rd o.a o.perm.onA l)) (fun _ _ => 0))
  ∧ (∀ o : VPfx, GivesRows (.vpfx o) o.slot o.d o.m.num [] (fun _ => .n32)
    (fun e val => ∀ l ∈ e.lanes o.slot, val l = BitVec.ofNat 32 ((List.range l).filter (e.mrd o.m).getLsbD).length) (fun _ _ => 0))
  ∧ (∀ (o : VM) (s : State) (e : Env), Ready s e .vec o.slot (246 :: (o.a.num ++ o.m.num)) o.d.num → e.lanes o.slot ≠ [] →
    let kept := (e.lanes o.slot).filter (e.mrd o.m).getLsbD
    ∃ t r, exec (.vcmpr o) s = .next t ∧ Retires s t e r s.teams
      ∧ e.w.regsEnd.LanesSet r o.d ((e.lanes o.slot).take kept.length)
          (fun l => e.rd o.a o.perm.onA (kept[(e.lanes o.slot).idxOf l]?.getD 0))
          (match o.a with | .v n => e.r.tag n | _ => .raw) 0)
  ∧ (∀ o : VBal, ∀ v : Env → DWord, (∀ e, ∀ l < 64, (v e).getLsbD l = (e.active o.slot l && e.rd o.a o.perm.onA l != 0)) →
    GivesMask (.vbal o) o.slot o.d (246 :: o.a.num) v)
  ∧ (∀ o : VToS, ∀ (s : State) (e : Env), Ready s e .vec o.slot (246 :: o.a.num) o.d.num → e.anylane o.slot = true →
    (∀ l ls, e.lanes o.slot = l :: ls → o.d.takes (zext64 (e.rd o.a o.perm.onA l)) →
      ∃ t, exec (.vrfl o) s = .next t ∧ Retires s t e (e.w.regsEnd.putS o.d (zext64 (e.rd o.a o.perm.onA l)))
        (o.d.teams s e (zext64 (e.rd o.a o.perm.onA l))) 6)
    ∧ (e.lanes o.slot = [] → ∃ t, exec (.vrfl o) s = .next t ∧ Retires s t e e.w.regsEnd s.teams))

/-- R187, R190, R282: VRED reduces each element position over the active lanes; VSCAN gives each active lane the reduction over
the active lanes before it, and its own unless .excl. R282: what a reduction is: the sum modulo 2^w, the bits of and, or and xor, the
least and greatest term by the format's signedness, the exact float sum rounded once; and the identities that no terms give. What exact
float sums and minima are, RoundingRules says. -/
def Obligations.ReductionResults : Prop :=
  ((∀ o : VRed, GivesWave (.vred o) o.slot o.d (246 :: o.a.num) [(o.a, o.fmt, 0)] (lat := 6) fun e =>
     let r := o.op.lanes o.fmt o.rnd ((e.lanes o.slot).map fun l => e.rd o.a o.perm.onA l)
     (zext64 r.1, r.2))
   ∧ (∀ o : VScan, GivesRows (.vscan o) o.slot o.d o.a.num [(o.a, o.fmt, 0)] (fun _ => o.fmt)
       (fun e val => ∀ l ∈ e.lanes o.slot, val l = (o.op.lanes o.fmt o.rnd
         (((e.lanes o.slot).filter fun j => decide (j < l ∨ (j = l ∧ o.excl = false))).map fun j => e.rd o.a o.perm.onA j)).1)
       (fun e l => (o.op.lanes o.fmt o.rnd
         (((e.lanes o.slot).filter fun j => decide (j < l ∨ (j = l ∧ o.excl = false))).map fun j => e.rd o.a o.perm.onA j)).2))
   ∧ ∀ (op : ROp) (t : Tag) (rnd : Rnd) (vs : List Word) (k : Nat), k < t.cnt →
       elem (op.lanes t rnd vs).1 t.width k = (op.reduce t rnd (vs.map fun x => elem x t.width k)).1 % 2 ^ t.width)
  ∧ (∀ (t : Tag) (rnd : Rnd) (xs : List Nat), t.ffmt = none → (∀ x ∈ xs, x < 2 ^ t.width) →
       let r (op : ROp) : Nat := (ROp.reduce op t rnd xs).1
       (∀ op, (ROp.reduce op t rnd xs).2 = 0 ∧ r op < 2 ^ t.width)
       ∧ r .add = xs.sum % 2 ^ t.width
       ∧ (∀ i < t.width, (r .and).testBit i = xs.all (fun x => x.testBit i) ∧ (r .or).testBit i = xs.any (fun x => x.testBit i)
         ∧ (r .xor).testBit i = decide ((xs.filter fun x => x.testBit i).length % 2 = 1))
       ∧ (xs ≠ [] → r .min ∈ xs ∧ r .max ∈ xs
         ∧ ∀ x ∈ xs, t.read t.width (r .min) ≤ t.read t.width x ∧ t.read t.width x ≤ t.read t.width (r .max))
       ∧ (xs = [] → r .min = (if t.isSigned then 2 ^ (t.width - 1) - 1 else 2 ^ t.width - 1)
         ∧ r .max = (if t.isSigned then 2 ^ (t.width - 1) else 0)))
  ∧ (∀ (t : Tag) (f : FFmt) (rnd : Rnd) (xs : List Nat), (t = .f32 ∨ t = .bf16x2 ∨ t = .f16x2) → t.ffmt = some f →
       let once (v : FVal) : Nat := (round f .rne false 0 v).1
       (xs = [] → ROp.reduce .add t rnd xs = (0, 0) ∧ ROp.reduce .min t rnd xs = (f.infBits, 0)
         ∧ ROp.reduce .max t rnd xs = (f.infBits + 2 ^ (f.width - 1), 0))
       ∧ (xs ≠ [] → ROp.reduce .add t rnd xs = faddN f rnd (xs.map (value f))
         ∧ ∀ mx, ROp.reduce (if mx then .max else .min) t rnd xs
           = (once (fminmax mx (xs.map (value f))).1, (fminmax mx (xs.map (value f))).2)))

/-- R283: what the mask instructions give. -/
def Obligations.MaskResults : Prop :=
  (∀ o : M2, GivesMask (.mand o) o.slot o.d (o.a.num ++ o.b.num) fun e => e.mrd o.a &&& e.mrd o.b)
  ∧ (∀ o : M2, GivesMask (.mor o) o.slot o.d (o.a.num ++ o.b.num) fun e => e.mrd o.a ||| e.mrd o.b)
  ∧ (∀ o : M2, GivesMask (.mxor o) o.slot o.d (o.a.num ++ o.b.num) fun e => e.mrd o.a ^^^ e.mrd o.b)
  ∧ (∀ o : M1, GivesMask (.mnot o) o.slot o.d o.a.num fun e => ~~~e.mrd o.a)
  ∧ (∀ o : MToS, GivesWave (.mpopc o) o.slot o.d o.a.num [] fun e =>
      (BitVec.ofNat 64 ((List.range 64).filter (e.mrd o.a).getLsbD).length, 0))
  ∧ (∀ o : MToS, GivesWave (.mffs o) o.slot o.d o.a.num [] fun e =>
      (match (List.range 64).filter (e.mrd o.a).getLsbD with | [] => 64 | l :: _ => BitVec.ofNat 64 l, 0))
  ∧ ∀ (o : MMov) (s : State) (e : Env), Ready s e .vec o.slot o.a.num o.d.num → e.anylane o.slot = true →
      (∀ x, o.a = .sc x → e.hReady [x]) →
      (∀ n, o.d = .m n → ∃ t, exec (.mmov o) s = .next t
        ∧ Retires s t e { e.w.regsEnd with m := cset e.w.regsEnd.m n.val (e.msrd o.a) } s.teams)
      ∧ ∀ d, o.d = .sc d → d.takes (e.msrd o.a) → ∃ t, exec (.mmov o) s = .next t
        ∧ Retires s t e (e.w.regsEnd.putS d (e.msrd o.a)) (d.teams s e (e.msrd o.a))

/-! ### Sequencer control, generators -/

/-- R229, R240, R241: the steering instructions write nblk and clear the returned bit of every lane of their slot, whatever exm holds;
NEXTC with keep leaves the lanes that fail alone; NEXTX raises ILLOP with detail 3, and writes no lane, when any lane of its slot
holds neither a block of the image nor 255. NEXT, NEXTC and NEXTM that name a block outside the image, and not 255, raise the same. R244: a
steering instruction, or a RETA, that stands after a CALLA of its clause raises ILLOP with detail 1. -/
def Obligations.SteeringResults : Prop :=
  (∀ o : Sys2Proof.Next, Steers (.next o) o.slot [] (fun e => [o.bt].all fun b => decide (b.val < e.nblocks ∨ b.val = 255))
    (fun _ _ => some o.bt.val) (fun _ => false))
  ∧ (∀ o : NextC, Steers (.nextc o) o.slot o.src.num
    (fun e => [o.bt, o.bf].all fun b => decide (b.val < e.nblocks ∨ b.val = 255))
    (fun e l =>
      let v := e.rd o.src none l
      let holds : Bool := match o.cond with
        | .nz => v ≠ 0 | .z => v = 0 | .neg => v.getLsbD 31 | .nneg => ¬v.getLsbD 31 | .odd => v.toNat % 2 = 1 | .even => v.toNat % 2 = 0
      if holds then some o.bt.val else if o.keep then none else some o.bf.val) (fun _ => false))
  ∧ (∀ o : NextM, Steers (.nextm o) o.slot o.src.num
    (fun e => [o.bt, o.bf].all fun b => decide (b.val < e.nblocks ∨ b.val = 255))
    (fun e l => some (if (e.mrd o.src).getLsbD l then o.bt.val else o.bf.val)) (fun _ => false))
  ∧ (∀ o : NextX, Steers (.nextx o) o.slot [o.src.val]
    (fun e => (e.inLanes o.slot).all fun l => decide ((e.vlane o.src l).toNat < e.nblocks ∨ (e.vlane o.src l).toNat = 255))
    (fun e l => some ((e.vlane o.src l).toNat % 256)) (fun _ => false))
  ∧ (∀ o : Bare, Steers (.halt o) o.slot [] (fun _ => true) (fun _ _ => some 255) (fun _ => false))
  ∧ ∀ (o : NextX) (s : State) (e : Env), Ready s e .vec o.slot [o.src.val] [245] → e.anylane o.slot = true →
      e.afterCall = false → (∃ l ∈ e.inLanes o.slot, e.nblocks ≤ (e.vlane o.src l).toNat ∧ (e.vlane o.src l).toNat ≠ 255) →
      exec (.nextx o) s = .next (s.raise e.w { cause := 0x01, detail := 3, pos := e.w.pos })
  -- the blocks that a steering instruction names, and its place
  ∧ ∀ (i : Instr) (k : Slot) (bs : List BlockNo) (s : State) (e : Env),
      (bs = [] ∧ ((∃ o : Bare, (i = .halt o ∨ i = .reta o) ∧ k = o.slot) ∨ ∃ o : NextX, i = .nextx o ∧ k = o.slot)
        ∨ (∃ o : Sys2Proof.Next, i = .next o ∧ k = o.slot ∧ bs = [o.bt])
        ∨ (∃ o : NextC, i = .nextc o ∧ k = o.slot ∧ bs = [o.bt, o.bf])
        ∨ ∃ o : NextM, i = .nextm o ∧ k = o.slot ∧ bs = [o.bt, o.bf]) →
      s.env? = some e → e.cl.cls = .vec → k.val < e.f.blocks.length →
      let names (b : BlockNo) : Prop := b.val < e.nblocks ∨ b.val = 255
      ((∃ b ∈ bs, ¬names b) → exec i s = .next (s.raise e.w { cause := 0x01, detail := 3, pos := e.w.pos }))
      ∧ ((∀ b ∈ bs, names b) → (∃ x ∈ e.cl.words.take e.w.pos, (x.extractLsb' 54 10).toNat = 8) →
        exec i s = .next (s.raise e.w { cause := 0x01, detail := 1, pos := e.w.pos }))

/-- R242, R243, R246: NOP, in a clause of any class, changes nothing; YIELD ends the quantum once its clause completes; RETA halts
the lanes of its slot, and marks them returned at depth 1 or more. -/
def Obligations.NopYieldReturn : Prop :=
  (∀ (s : State) (e : Env), Ready s e e.cl.cls 0 [] [] → ∃ t, exec .nop s = .next t ∧ Retires s t e e.w.regsEnd s.teams)
  ∧ (∀ (o : Bare) (s : State) (e : Env), Ready s e .vec o.slot [] [] → e.anylane o.slot = true →
      ∃ t w', exec (.yield o) s = .next t ∧ Retires s t e e.w.regsEnd s.teams
        ∧ t.wave? e.w.key = some w' ∧ (w'.yielded = true ∨ w'.stage = .quantum))
  ∧ ∀ o : Bare, Steers (.reta o) o.slot [] (fun _ => true) (fun _ _ => some 255) (fun e => decide (0 < e.w.depth))

/-- R244, R245: a CALLA of a whole fragment that stands alone in its wave, with no lane returned, call depth below 64 and a
canonical aligned target, records its call and ends the restart declaration; a call of any other fragment raises ILLCONV, one at
depth 64 CTXMEM, one to an address that is not canonical PROT, and one to a misaligned canonical address ALIGN. R118, R131, R245:
when a clause with a recorded call ends, the caller's image and return block are written to the call stack in the wave area, the
fragment's lanes stand at the target's entry block, and the depth is one greater. The model's own choices that it rests on are in
the log: 64. -/
def Obligations.Calls : Prop :=
  (∀ (o : CallA) (s : State) (e : Env), Ready s e .vec o.slot (snum o.img) [245] → e.anylane o.slot = true → o.bt.val < e.nblocks →
     e.cl.e = true → e.afterCall = false →
     (e.alone o.slot = true → e.r.ret = 0 → e.w.depth < 64 → canonical (e.sreg o.img) = true → (e.sreg o.img).toNat % 128 = 0 →
       e.w.replay = [] → e.w.pos + 1 < e.cl.count →
       ∃ t w', exec (.calla o) s = .next t ∧ t.wave? e.w.key = some w' ∧ w'.call = some ⟨e.sreg o.img, o.bt, e.w.pos⟩
         ∧ w'.restart = none ∧ w'.depth = e.w.depth ∧ w'.regsEnd = e.w.regsEnd ∧ t.mem = s.mem)
     ∧ ((e.alone o.slot = false ∨ e.r.ret ≠ 0) →
       exec (.calla o) s = .next (s.raise e.w { cause := 0x02, pos := e.w.pos }))
     ∧ (e.alone o.slot = true → e.r.ret = 0 → 64 ≤ e.w.depth →
       exec (.calla o) s = .next (s.raise e.w { cause := 0x10, pos := e.w.pos }))
     ∧ (e.alone o.slot = true → e.r.ret = 0 → e.w.depth < 64 → canonical (e.sreg o.img) = false →
       exec (.calla o) s = .next (s.raise e.w { cause := 0x07, faddr := e.sreg o.img, access := 8, pos := e.w.pos }))
     ∧ (e.alone o.slot = true → e.r.ret = 0 → e.w.depth < 64 → canonical (e.sreg o.img) = true → (e.sreg o.img).toNat % 128 ≠ 0 →
       exec (.calla o) s = .next (s.raise e.w { cause := 0x08, faddr := e.sreg o.img, access := 8, pos := e.w.pos })))
  ∧ (∀ (s : State) (c : Ctx) (w : Wave) (k : Call) (f : Frag) (h : Header) (b : Found), w.pend = [] → w.call = some k →
       w.frags[w.cur]? = some f → s.entryOf c k.target = .ok (h, b) →
       ∃ w', (s.endClause c w).wave? w.key = some w' ∧ w'.img = k.target ∧ w'.depth = w.depth + 1 ∧ w'.call = none ∧ w'.clause = none
         ∧ (∀ l < 64, f.mask.getLsbD l = true → cget w'.blk l = BitVec.ofNat 8 h.entry ∧ cget w'.regs.nblk l = BitVec.ofNat 8 h.entry)
         ∧ (∀ l < 64, f.mask.getLsbD l = false → cget w'.blk l = cget w.blk l ∧ cget w'.regs.nblk l = cget w.regs.nblk l)
         ∧ mbytes (s.endClause c w).mem (s.areaOf w + 0xA00 + 16 * w.depth) 16
             = bvBytes 8 w.img ++ [BitVec.ofNat 8 k.ret.val] ++ List.replicate 7 0
         ∧ ∀ a, (a < s.areaOf w + 0xA00 + 16 * w.depth ∨ s.areaOf w + 0xA00 + 16 * w.depth + 16 ≤ a) →
             cget (w := 8) (s.endClause c w).mem a = cget (w := 8) s.mem a)

/-- R120, R236, R247, R249, R318: BAR arrives and blocks its fragment, BARA arrives and runs on, BARW blocks while an arrival is
outstanding and else runs on; an arrival ends the restart declaration; while an earlier arrival of the whole wave is outstanding, BAR and
BARA wait in place; a BAR or BARW that its fragment stood at and that has been released runs on. In a trap image each of the three raises
ILLOP with detail 1. R251: an arrival passes on what the wave's writes and observations put before it, and a BARW that does not block takes
up what the phases of its scope that have been released put before the wave. All of this is of a wave that no debugger steps. The model's
own choices that it rests on are in the log: 6, 84. -/
def Obligations.BarrierResults : Prop :=
  ∀ (o : Bar) (s : State) (e : Env), o.slot = 0 →
    (e.w.inHandler = true → s.env? = some e → e.cl.cls = .vec → 0 < e.f.blocks.length → ∀ i ∈ [Instr.bar o, .bara o, .barw o],
      exec i s = .next (s.raise e.w { cause := 0x01, detail := 1, pos := e.w.pos }))
    ∧ (Ready s e .vec 0 [] [] → e.w.inHandler = false → (o.scope = .core ∨ e.l.p.co = true) → e.w.stepping = none →
      let b := e.w.bar o.scope
      let known := joinKnown b.known (passOn (s.released e.w))
      let last := e.w.pos + 1 = e.cl.count
      let taken : Wave :=
        { e.w.learn (e.w.passedAt o.scope) with restart := none, passed := e.w.passed.filter fun p => p.1 != o.scope }
      (last → e.f.held = none → e.w.arrived o.scope = false →
        ∃ t w' f', exec (.bar o) s = .next t ∧ t.wave? e.w.key = some w' ∧ w'.bar o.scope
            = { b with arr := b.arr ||| e.f.mask, wait := b.wait ||| e.f.mask, tick := s.tick, known }
          ∧ w'.restart = none ∧ w'.frags[e.w.cur]? = some f' ∧ f'.blocked = some (.bar o.scope) ∧ w'.regs = e.w.regsEnd)
      ∧ (last → e.f.held ≠ none → ∃ t, exec (.bar o) s = .next t ∧ Retires s t e e.w.regsEnd s.teams)
      ∧ (last → e.f.held = none → e.w.arrived o.scope = true → exec (.bar o) s = .next (s.putWave { e.w with reason := 3 }))
      ∧ (e.w.arrived o.scope = false → ∃ t, exec (.bara o) s = .next t
          ∧ Retires s t { e with w := { e.w.putBar { b with arr := b.arr ||| e.f.mask, tick := s.tick, known } with restart := none } }
            e.w.regsEnd s.teams)
      ∧ (e.w.arrived o.scope = true → exec (.bara o) s = .next (s.putWave { e.w with reason := 3 }))
      ∧ (last → (b.arr = 0 ∨ e.f.held ≠ none) →
        (∃ t, exec (.barw o) s = .next t ∧ Retires s t { e with w := taken } e.w.regsEnd s.teams)
        ∧ (∀ p ∈ e.w.passed, p.1 = o.scope → ∀ n ∈ p.2, ∃ m ∈ taken.known, m.id = n.id ∧ m.paths &&& n.paths = n.paths))
      ∧ (last → e.f.held = none → b.arr ≠ 0 →
        ∃ t w' f', exec (.barw o) s = .next t ∧ t.wave? e.w.key = some w' ∧ w'.bar o.scope = { b with wait := b.wait ||| e.f.mask }
          ∧ w'.frags[e.w.cur]? = some f' ∧ f'.blocked = some (.bar o.scope) ∧ w'.regs = e.w.regsEnd))

/-- R320, R322, R323: GSET writes one field of a descriptor and GADV adds to an origin, and no other bit of it changes; a ctl
write that makes a slot ROTARY raises GENCFG, and one to a slot that is ROTARY keeps the table's address. R192, R194, R196, R321,
R324: GRD gives each active lane the generator's value at its row and column, in f32; a slot whose descriptor R321 rejects raises
GENCFG with the slot's number. R193 to R196: the exact value of each kind, rounded once; of the table that ROTARY interpolates, the three
entries that R195 gives (the others are round(2^30 sin(πk / 2048)) by the model's sums: log 130). The model's own choices that it rests
on are in the log: 130. -/
def Obligations.GeneratorResults : Prop :=
  ((∀ (o : GSet) (s : State) (e : Env), Ready s e .vec o.slot (o.a.num ++ gnum o.g) (gnum o.g) → e.anylane o.slot = true →
     e.hReady [o.a] →
     let x := e.srd o.a
     (¬ (o.field = .ctl ∧ x.toNat % 16 = 5 ∧ gKind (cget e.r.g o.g.val) ≠ 5) →
       ∃ t d, exec (.gset o) s = .next t
         ∧ Retires s t e { e.w.regsEnd with g := cset e.w.regsEnd.g o.g.val d } s.teams
         ∧ ∀ i < 256, d.getLsbD i = match o.field with
           | .seed => if i < 64 then x.getLsbD i else (cget e.w.regsEnd.g o.g.val).getLsbD i
           | .scale => if 64 ≤ i ∧ i < 96 then x.getLsbD (i - 64) else (cget e.w.regsEnd.g o.g.val).getLsbD i
           | .param => if 96 ≤ i ∧ i < 128 then x.getLsbD (i - 96) else (cget e.w.regsEnd.g o.g.val).getLsbD i
           | .row0 => if 128 ≤ i ∧ i < 160 then x.getLsbD (i - 128) else (cget e.w.regsEnd.g o.g.val).getLsbD i
           | .col0 => if 160 ≤ i ∧ i < 192 then x.getLsbD (i - 160) else (cget e.w.regsEnd.g o.g.val).getLsbD i
           | .ctl => if 192 ≤ i ∧ i < 206 then x.getLsbD (i - 192)
               else if 206 ≤ i ∧ x.toNat % 16 ≠ 5 then x.getLsbD (i - 192) else (cget e.w.regsEnd.g o.g.val).getLsbD i)
     ∧ (o.field = .ctl → x.toNat % 16 = 5 → gKind (cget e.r.g o.g.val) ≠ 5 →
       exec (.gset o) s = .next (s.raise e.w { cause := 0x0A, fword := BitVec.ofNat 32 o.g.val, pos := e.w.pos })))
   ∧ (∀ (o : GAdv) (s : State) (e : Env), Ready s e .vec o.slot (o.a.num ++ gnum o.g) (gnum o.g) → e.anylane o.slot = true →
     e.hReady [o.a] →
     let lo := if o.col then 160 else 128
     let v : Word := (cget e.r.g o.g.val).extractLsb' lo 32 + (e.srd o.a).extractLsb' 0 32
     ∃ t d, exec (.gadv o) s = .next t ∧ Retires s t e { e.w.regsEnd with g := cset e.w.regsEnd.g o.g.val d } s.teams
       ∧ ∀ i < 256, d.getLsbD i = if lo ≤ i ∧ i < lo + 32 then v.getLsbD (i - lo) else (cget e.w.regsEnd.g o.g.val).getLsbD i))
  ∧ (∀ (o : Grd) (s : State) (e : Env), Ready s e .vec o.slot (246 :: (o.r.num ++ o.c.num ++ gnum o.g)) o.d.num → e.lanes o.slot ≠ [] →
       cget e.r.gbad o.g.val = 0 →
       let d := cget e.r.g o.g.val
       (gBad d none = false →
         ∃ t r, exec (.grd o) s = .next t ∧ Retires s t e r s.teams
           ∧ e.w.regsEnd.LanesSet r o.d (e.lanes o.slot)
               (fun l => BitVec.ofNat 32 (gValue .f32 d (fun k => cget e.r.gtab (256 * o.g.val + k))
                 (gSeedEff d e.l.p.id e.t.tix e.w.wid) (e.rd o.r none l) (e.rd o.c none l))) .f32 0)
       ∧ (gBad d none = true →
         exec (.grd o) s = .next (s.raise e.w { cause := 0x0A, fword := BitVec.ofNat 32 o.g.val, pos := e.w.pos })))
  ∧ (∀ (f : FFmt) (d : BitVec 256) (tab : Nat → Word) (seed : DWord) (r c : Word),
       let sigma := value .f32 (gScale d).toNat
       let x := mix (zext64 r) (zext64 c) seed
       let p := gParam d
       let v := gExact d tab seed r c
       let u := (x.extractLsb' 40 24).toNat
       let gives (q : ℚ) : Prop := v.IsFin ∧ v.rat = q * sigma.rat ∧ (v.rat = 0 → v.sgn = false)
       gValue f d tab seed r c = (round f .rne true 0 v).1
       ∧ (sigma.IsFin →
         (gKind d = 1 → v = if x.getLsbD 63 then sigma.neg else sigma)
         ∧ (gKind d = 2 → gives (((((List.range 8).map fun k => (x.extractLsb' (8 * k) 8).toNat).sum : Nat) : ℚ) - 1020))
         ∧ (gKind d = 3 → gives ((u : ℚ) / 2 ^ 24))
         ∧ (gKind d = 4 →
           (gSub d = 0 → v = if (c.toNat : Int) ≤ r.toNat + p.toInt then sigma else .fin false 0 0)
           ∧ (gSub d = 1 → v = if r.toNat ≤ c.toNat + p.toNat ∧ c.toNat ≤ r.toNat + p.toNat then sigma else .fin false 0 0)
           ∧ (gSub d = 2 → v = if u < (p.extractLsb' 0 24).toNat then sigma else .fin false 0 0))
         ∧ (gKind d = 5 →
           let ph : Word := r * tab ((c >>> 1).toNat % 256) + (if c.getLsbD 0 then 0 else 0x40000000)
           let i := (ph.extractLsb' 20 10).toNat
           let fr : Int := (ph.extractLsb' 0 20).toNat
           let lo : Int := rotTab (if ph.getLsbD 30 then 1024 - i else i)
           let hi : Int := rotTab (if ph.getLsbD 30 then 1023 - i else i + 1)
           gives ((if ph.getLsbD 31 then -1 else 1) * ((lo * 2 ^ 20 + (hi - lo) * fr : Int) : ℚ) / 2 ^ 50))))
  ∧ rotTab 0 = 0 ∧ rotTab 512 = 759250125 ∧ rotTab 1024 = 0x40000000

/-- R191: mix as the rule computes it; distinct rows with one column and one seed give distinct values, and mix(0, 0, 0) is 0. -/
def Obligations.MixFunction : Prop :=
  (∀ row col seed : DWord, mix row col seed =
    let x := (row * 0xD6E8FEB86659FD93) ^^^ (col * 0xA0761D6478BD642F) ^^^ seed
    let x := x ^^^ (x >>> 32)
    let x := x * 0x9E3779B97F4A7C15
    let x := x ^^^ (x >>> 29)
    let x := x * 0xBF58476D1CE4E5B9
    x ^^^ (x >>> 32))
  ∧ (∀ col seed row row' : DWord, mix row col seed = mix row' col seed → row = row')
  ∧ mix 0 0 0 = 0

/-! ### Memory instructions -/

/-- R226, R286: loads read each active lane's bytes at its own address, little-endian, extend a narrow integer, and give the lanes
read the result's tag; a scalar load reads once. Nothing else changes.
The model's own choices that it rests on are in the log: 6. -/
def Obligations.LoadResults : Prop :=
  (∀ (o : VLd) (global : Bool),
    DoesAccesses (if global then .vld o else .vlds o) o.la o.slot true o.addr.nums o.d.num
      (fun e => { pos := e.w.pos, ord := o.ord
                  accs := (e.memLanes o.slot).map fun l =>
                    { lane := l, kind := .load, sp := if global then .gm else spOf o.q, va := e.ea o.addr l, size := o.ty.bytes }
                  res := match o.d with | .v r => .vreg r o.ty | .zero => .none })
      fun e ds r => ∃ val, e.w.regsEnd.LanesSet r o.d (e.memLanes o.slot) val
          (match o.ty with | .tag t => t | .n8 => .n32 | .n16 => .n32 | .s8 => .s32 | .s16 => .s32) 0
        ∧ ∀ p ∈ ds, val p.1.lane = match o.ty with
          | .s8 => (BitVec.ofNat 8 (leNat p.2)).signExtend 32
          | .s16 => (BitVec.ofNat 16 (leNat p.2)).signExtend 32
          | _ => BitVec.ofNat 32 (leNat p.2))
  ∧ ∀ o : SLd, DoesAccesses (.sld o) o.la o.slot false o.addr.nums (snum o.d)
      (fun e => { pos := e.w.pos, ord := o.ord, res := .sreg o.d o.w, lanes := e.slotMask o.slot
                  accs := [{ lane := e.first o.slot, kind := .load, sp := o.space, va := e.ea o.addr 0, size := o.w.bytes }] })
      fun e ds r => ∃ q b, ds = [(q, b)] ∧ r = { e.w.regsEnd with s := cset e.w.regsEnd.s o.d.val (match o.w with
        | .s8 => (BitVec.ofNat 8 (leNat b)).signExtend 64
        | .s16 => (BitVec.ofNat 16 (leNat b)).signExtend 64
        | .s32 => (BitVec.ofNat 32 (leNat b)).signExtend 64
        | _ => BitVec.ofNat 64 (leNat b)) }

/-- R226, R286, R287, R325: stores write each active lane's low bytes at its own address, a compress-store the kept lanes in order at
successive words from an aligned base, a scalar store or GST once; no register changes.
The model's own choices that it rests on are in the log: 6, 51. -/
def Obligations.StoreResults : Prop :=
  (∀ (o : VSt) (global : Bool),
    DoesAccesses (if global then .vst o else .vsts o) o.la o.slot true (o.addr.nums ++ o.src.num) []
      (fun e => { pos := e.w.pos, ord := o.ord
                  accs := (e.memLanes o.slot).map fun l =>
                    { lane := l, kind := .store, sp := if global then .gm else spOf o.q, va := e.ea o.addr l, size := o.w.bytes
                      x := zext64 (e.rd o.src none l) } })
      fun e _ r => r = e.w.regsEnd)
  ∧ (∀ o : SSt, DoesAccesses (.sst o) o.la o.slot false (o.addr.nums ++ o.src.num) []
      (fun e => { pos := e.w.pos, ord := o.ord, lanes := e.slotMask o.slot
                  accs := [{ lane := e.first o.slot, kind := .store, sp := o.space, va := e.ea o.addr 0, size := o.w.bytes
                             x := e.szrd o.src }] })
      fun e _ r => r = e.w.regsEnd)
  ∧ (∀ (o : VCst) (global : Bool),
    DoesAccesses (if global then .vcstGm o else .vcstSp o) o.la o.slot true (o.addr.nums ++ o.src.num ++ o.m.num) []
      (fun e => { pos := e.w.pos, ord := o.ord, seq := true, accs := e.kept o (if global then .gm else .sp), kept := e.keptSet o })
      (fun e _ r => r = e.w.regsEnd
        ∧ (e.w.redo = none → ∀ l < 64, (e.keptSet o).getLsbD l = (e.active o.slot l && (e.mrd o.m).getLsbD l))
        ∧ (e.w.redo ≠ none → ∀ n k, (e.w.packs.find? fun x => x.1 == e.w.pos) = some (n, k) → e.keptSet o = k)
        ∧ ∀ q ∈ e.kept o (if global then .gm else .sp), q.lane ∈ e.memLanes o.slot ∧ (e.keptSet o).getLsbD q.lane = true
          ∧ q.x = zext64 (e.rd o.src none q.lane)
          ∧ q.va = e.szrd o.addr.base + (sext64 (match o.addr.index with
              | .v n => e.vlane n 0 | .s n => (e.sreg n).extractLsb' 0 32 | .zero => (0 : Word)) <<< o.addr.scale.val)
            + sext64 o.addr.off
            + BitVec.ofNat 64 (4 * ((List.range q.lane).filter (e.keptSet o).getLsbD).length))
      fun e => (e.ea o.addr 0).toNat % 4 = 0)
  ∧ ∀ (o : GMem) (global : Bool),
    DoesAccesses (if global then .gstGm o else .gstSp o) o.la o.slot false (o.addr.nums ++ gnum o.g) []
      (fun e => { pos := e.w.pos, lanes := e.slotMask o.slot
                  accs := [{ lane := e.first o.slot, kind := .gst, sp := if global then .gm else .sp, va := e.ea o.addr 0, size := 32 }]
                  vals := [(e.first o.slot, (List.range 8).map fun i => (cget e.r.g o.g.val).extractLsb' (32 * i) 32)] })
      fun e _ r => r = e.w.regsEnd

/-- R288, R289: an atomic reads and writes each active lane's word in ascending lane order, later lanes seeing what earlier ones
left, and gives the old values unless .nr; a floating add first checks its format. R182, R187, R289: the value an atomic leaves,
of its old value, its operand and, for cas, its new value, in 32 or 64 bits. The model's own choices that it rests on are in the
log: 6. -/
def Obligations.Atomics : Prop :=
  ((∀ o : VAtom,
     let srcs := o.addr.nums ++ [o.data.val] ++ (if o.op = .cas then [(vAfter o.data).val] else [])
     let dsts := if o.nr then [] else [o.data.val]
     let fmt : Option Tag := match o.op with | .faddF32 => some .f32 | .faddBf16 => some .bf16x2 | .faddF16 => some .f16x2 | _ => none
     (∀ (s : State) (e : Env) (t : Tag), Ready s e .mem o.slot (246 :: srcs) dsts → e.memLanes o.slot ≠ [] → fmt = some t →
       e.r.tag o.data ≠ t → exec (.vatom o) s = .next (s.raise e.w { cause := 0x03, fword := BitVec.ofNat 32 (e.r.tag o.data).bits.toNat
                                                                     fml := maskList (e.memLanes o.slot), pos := e.w.pos }))
     ∧ DoesAccesses (.vatom o) o.la o.slot true srcs dsts
         (fun e => { pos := e.w.pos, ord := o.ord, nr := o.nr
                     res := if o.nr then .none else .vold o.data (fmt.getD (e.r.tag o.data))
                     accs := (e.memLanes o.slot).map fun l =>
                       { lane := l, kind := .atomic o.op, sp := o.space, va := e.ea o.addr l, size := 4
                         x := zext64 (e.vlane o.data l), y := zext64 (e.vlane (vAfter o.data) l) } })
         (fun e ds r => ∃ val, (∀ p ∈ ds, val p.1.lane = BitVec.ofNat 32 (leNat p.2))
           ∧ if o.nr then r = e.w.regsEnd
             else e.w.regsEnd.LanesSet r (.v o.data) (e.memLanes o.slot) val (fmt.getD (e.r.tag o.data)) 0)
         fun e => ∀ t, fmt = some t → e.r.tag o.data = t)
   ∧ ∀ o : SAtom, DoesAccesses (.satom o) o.la o.slot false
       (o.addr.nums ++ snum o.data ++ (if o.op = .cas then snum (sAfter o.data 1) else [])) (if o.nr then [] else snum o.data)
       (fun e => { pos := e.w.pos, ord := o.ord, nr := o.nr, lanes := e.slotMask o.slot
                   res := if o.nr then .none else .sreg o.data (if o.wide then .b64 else .n32)
                   accs := [{ lane := e.first o.slot, kind := .atomic o.op, sp := o.space, va := e.ea o.addr 0
                              size := if o.wide then 8 else 4, x := e.sreg o.data, y := e.sreg (sAfter o.data 1) }] })
       fun e ds r => ∃ q b, ds = [(q, b)]
         ∧ r = if o.nr then e.w.regsEnd else { e.w.regsEnd with s := cset e.w.regsEnd.s o.data.val (BitVec.ofNat 64 (leNat b)) })
  ∧ ((∀ x y z : DWord, ∀ op : AOp,
       let r := op.apply 8 x y z
       match op with
       | .add => r = x + y | .and => r = x &&& y | .or => r = x ||| y | .xor => r = x ^^^ y | .xchg => r = y
       | .min => r.toInt = min x.toInt y.toInt | .max => r.toInt = max x.toInt y.toInt
       | .minn => r.toNat = min x.toNat y.toNat | .maxn => r.toNat = max x.toNat y.toNat
       | .cas => r = if x = y then z else x
       | _ => True)
     ∧ ∀ x y z : Word, ∀ op : AOp,
       let r : Word := (op.apply 4 (zext64 x) (zext64 y) (zext64 z)).extractLsb' 0 32
       let sum (f : FFmt) : Prop := ∀ k < 32 / f.width, elem r f.width k
         = (faddN f .rne [value f (elem x f.width k), value f (elem y f.width k)]).1 % 2 ^ f.width
       op.apply 4 (zext64 x) (zext64 y) (zext64 z) = zext64 r ∧ match op with
         | .add => r = x + y | .and => r = x &&& y | .or => r = x ||| y | .xor => r = x ^^^ y | .xchg => r = y
         | .min => r.toInt = min x.toInt y.toInt | .max => r.toInt = max x.toInt y.toInt
         | .minn => r.toNat = min x.toNat y.toNat | .maxn => r.toNat = max x.toNat y.toNat
         | .cas => r = if x = y then z else x
         | .faddF32 => sum .f32 | .faddBf16 => sum .bf16 | .faddF16 => sum .f16)

/-- R155, R161, R286, R289, R292, R293: accesses performed change memory only in the bytes that they store, which hold what was
stored last; beyond memory, its poison and its forms, and the record of writes that some agent may not see yet, only link sets differ;
what is recorded is the issuer's. R169, R362: a reader sees, in each byte, what memory holds, or what the byte held before one of those
writes that does not come before its reads; with none such it sees what memory holds.
The model's own choices that it rests on are in the log: 6, 133. -/
def Obligations.AccessFrame : Prop :=
  (∀ (a : Actor) (key : Nat) (op : MemOp) (ans : Bool) (s S : State) (qs : List Acc) (ds : List (Acc × List Byte))
     (ws : List (Nat × List Byte × Bool)), Performs a key op ans s qs S ds ws →
     S = { s with mem := S.mem, poison := S.poison, rewrote := S.rewrote, forms := S.forms, waves := S.waves, hist := S.hist
                  written := S.written }
     ∧ S.mem = ws.foldl (fun m x => mput m x.1 x.2.1) s.mem
     ∧ (∀ x, (∀ p ∈ ws, x < p.1 ∨ p.1 + p.2.1.length ≤ x) → cget (w := 8) S.mem x = cget (w := 8) s.mem x)
     ∧ (∀ k w, s.wave? k = some w → ∃ w', S.wave? k = some w' ∧ w' = { w with links := w'.links })
     ∧ ds.map Prod.fst = qs
     ∧ (∃ more, S.hist = s.hist ++ more ∧ S.written = s.written + more.length
       ∧ ∀ x ∈ more, x.wave = a.key ∧ x.path = a.path ∧ x.core = a.core ∧ s.written ≤ x.id)
     ∧ ((∀ q ∈ qs, q.kind = .load ∨ q.kind = .ldl ∨ q.kind = .gld) → ws = [] ∧ S.mem = s.mem ∧ S.hist = s.hist))
  ∧ ∀ (s : State) (r : Reader), ((∀ x ∈ s.hist, r.knows x = true) → s.seenBy r = s.mem)
    ∧ ∀ pa, cget (w := 8) (s.seenBy r) pa = cget (w := 8) s.mem pa
      ∨ ∃ x ∈ s.hist, r.knows x = false ∧ x.pa ≤ pa ∧ x.old[pa - x.pa]? = some (cget (w := 8) (s.seenBy r) pa)

/-- R291 to R293, R325: LDL gives its lanes the words read and links them; STC stores all of a lane's linked words or none, and gives
each lane its status; GLD loads a descriptor, and a table for a ROTARY one.
The model's own choices that it rests on are in the log: 6, 50. -/
def Obligations.LinkedAndDescriptorResults : Prop :=
  (∀ (o : Ldl) (global wide : Bool), (wide = true → ∀ v, o.d = .v v → v.val + 1 < 128) →
    DoesAccesses (match global, wide with
        | true, false => .ldlGm32 o | true, true => .ldlGm64 o | false, false => .ldlSp32 o | false, true => .ldlSp64 o)
      o.la o.slot true o.addr.nums (o.d.runNums (if wide then 2 else 1))
      (fun e => { pos := e.w.pos, ord := o.ord
                  accs := (e.memLanes o.slot).map fun l =>
                    { lane := l, kind := .ldl, sp := if global then .gm else .sp, va := e.ea o.addr l, size := if wide then 8 else 4 }
                  res := match o.d with | .v r => (if wide then .vpair r else .vreg r (.tag .raw)) | .zero => .none })
      fun e ds r => ∃ val, e.w.regsEnd.RunSet r o.d (if wide then 2 else 1) (e.memLanes o.slot) val .raw 0 e.w.regsEnd.amax false
        ∧ ∀ p ∈ ds, ∀ i, i < (if wide then 2 else 1) → val i p.1.lane = BitVec.ofNat 32 (leNat p.2 / 2 ^ (32 * i)))
  ∧ (∀ o : Stc, DoesAccesses (.stc o) o.la o.slot true ((stcValues o).map (·.val)) [o.vs.val]
      (fun e => { pos := e.w.pos, ord := o.ord, res := .status o.vs
                  accs := (e.memLanes o.slot).map fun l => { lane := l, kind := .stc, sp := .gm, va := 0, size := 0 }
                  vals := (e.memLanes o.slot).map fun l => (l, (stcValues o).map fun v => e.vlane v l) })
      fun e ds r => ∃ val, e.w.regsEnd.LanesSet r (.v o.vs) (e.memLanes o.slot) val .n32 0
        ∧ ∀ p ∈ ds, val p.1.lane = BitVec.ofNat 32 (leNat p.2))
  ∧ ∀ (o : GMem) (global : Bool),
    DoesAccesses (if global then .gldGm o else .gldSp o) o.la o.slot false o.addr.nums (gnum o.g)
      (fun e => { pos := e.w.pos, lanes := e.slotMask o.slot, res := .gen o.g
                  accs := [{ lane := e.first o.slot, kind := .gld, sp := if global then .gm else .sp, va := e.ea o.addr 0, size := 32 }] })
      fun e ds r => ∃ q b, ds = [(q, b)]
        ∧ cget r.g o.g.val = BitVec.ofNat 256 (leNat (b.take 32)) ∧ cget r.gbad o.g.val = 0
        ∧ (∀ n, n ≠ o.g.val → cget r.g n = cget e.w.regsEnd.g n ∧ cget r.gbad n = cget e.w.regsEnd.gbad n)
        ∧ (b.length ≤ 32 → r.gtab = e.w.regsEnd.gtab)
        ∧ (∀ j, (j < 256 * o.g.val ∨ 256 * o.g.val + 256 ≤ j) → cget r.gtab j = cget e.w.regsEnd.gtab j)
        ∧ (32 < b.length → ∀ k < 256, cget r.gtab (256 * o.g.val + k) = BitVec.ofNat 32 (leNat ((b.drop (32 + 4 * k)).take 4)))
        ∧ r = { e.w.regsEnd with g := r.g, gtab := r.gtab, gbad := r.gbad }

/-- R292, R294, R295: LKCLR empties and opens the link sets of its active lanes alone; a fence waits in place while an access of the
wave waits, or (R173) a logged store of it has yet to reach an agent that the fence covers, and then changes no register and no memory. R167,
R168, R171: what it orders: the wave's own writes, those that it has observed, and what the fences and releases whose observer sets match had
before them, come before the wave's later accesses and are what it releases; FENCEX joins the paths that it names. R141 to
R144, R296: SPLK gives each active lane the slot of the lowest matching entry, −2 when that entry is busy and −1 without one, and a hit on
a slot that a copy installed comes after that copy's writes; SPSET, SPCLR and SPGET write, clear and read one entry; a number at or above
u raises PROT. The model writes the entry at issue (the model's choice, in the assumption log). The model's own choices that it rests on
are in the log: 6, 45, 46, 47, 48, 157. -/
def Obligations.FenceAndTagTable : Prop :=
  ((∀ (o : Bare) (s : State) (e : Env), Ready s e .mem o.slot [246] [] → e.lanes o.slot ≠ [] →
     ∃ t ls, exec (.lkclr o) s = .next t ∧ Retires s t { e with w := { e.w with links := ls } } e.w.regsEnd s.teams
       ∧ ∀ l < 64, ({ e.w with links := ls } : Wave).linkOf l = if e.active o.slot l then ⟨l, .open_, []⟩ else e.w.linkOf l)
   ∧ ∀ (i : Instr) (k : Slot) (obs : Byte) (names : BitVec 3), ((∃ o : Fence, i = .fence o ∧ k = o.slot ∧ obs = o.obs ∧ names = 0)
       ∨ ∃ o : FenceX, i = .fencex o ∧ k = o.slot ∧ obs = o.obs
         ∧ names.getLsbD 0 = o.vec ∧ names.getLsbD 1 = o.mtx ∧ names.getLsbD 2 = o.cpy) →
     ∀ (s : State) (e : Env), Ready s e .mem k [] [] → e.anylane k = true →
       let before := joinKnown (s.released e.w) (acquired e.coreNo obs (s.fences ++ e.w.heard))
       let some_ : Prop := s.hist ≠ [] ∨ e.w.logged = true
       ((e.w.stalls ≠ [] ∨ e.unperformed obs = true) → e.w.stepping = none → exec i s = .next (s.putWave { e.w with reason := 6 }))
       ∧ (e.w.stalls = [] → e.unperformed obs = false → ∃ t w S, exec i s = .next t
         ∧ w = { e.w with known := w.known, heard := w.heard, rels := w.rels } ∧ S = { s with fences := S.fences }
         ∧ Retires S t { e with w } e.w.regsEnd s.teams
         ∧ (¬some_ → S = s ∧ w = e.w)
         ∧ (some_ → (let f : FenceRec := { core := e.coreNo, obs, known := passOn w.known }
             S.fences = s.fences ++ [f] ∧ w.rels = f :: e.w.rels.filter fun y => y.obs != obs)
           ∧ w.heard = [] ∧ ∀ n ∈ before, ∃ m ∈ w.known, m.id = n.id ∧ m.paths &&& n.paths = n.paths)
         ∧ ∀ x ∈ s.hist, names.getLsbD x.path = true → (x.wave = e.w.key ∨ ∃ n ∈ before, n.id = x.id) →
           ∃ m ∈ w.known, m.id = x.id ∧ (m.paths ||| m.here) &&& names = names)
       -- what comes before it: what the wave knows, its own writes, those that it has seen, and what it synchronizes with
       ∧ (∀ n ∈ e.w.known, ∃ m ∈ before, m.id = n.id ∧ m.paths &&& n.paths = n.paths)
       ∧ (∀ x ∈ s.hist, x.wave = e.w.key → x.path = 0 → x.peer = none → ∃ m ∈ before, m.id = x.id ∧ m.paths.getLsbD 0 = true)
       ∧ (∀ x ∈ e.w.saw, ∃ m ∈ before, m.id = x.2 ∧ m.paths.getLsbD 0 = true)
       ∧ ∀ r ∈ s.fences ++ e.w.heard, syncs r e.coreNo obs = true → ∀ n ∈ r.known,
         ∃ m ∈ before, m.id = n.id ∧ m.paths &&& n.paths = n.paths)
  ∧ (let entered (t : Team) (n : Nat) (v : DWord) : Team :=
       { t with tab := cset t.tab n v, installs := t.installs.filter fun y => y.1 != n }
     (∀ (o : SpLk) (s : State) (e : Env), Ready s e .mem o.slot (246 :: o.addr.nums) o.d.num → e.memLanes o.slot ≠ [] →
       8 ≤ e.w.lg → (∀ p ∈ e.w.pend, p.long = true → p.due < e.w.pos + 1 + e.la o.la) →
       let entry (l n : Nat) : Bool :=
         let x := cget e.t.tab n
         (x.getLsbD 63 || x.getLsbD 62)
           && (List.range 57).all fun i => decide (i < e.w.lg)
             || (e.ea o.addr l).getLsbD i == (if i = 8 then x.getLsbD 60 else x.getLsbD (i + 3))
       let found (l : Nat) := (List.range ((e.l.p.spbytes + 4095) / 4096)).find? (entry l)
       ∃ t r w, exec (.splk o) s = .next t ∧ Retires s t { e with w } r s.teams ∧ w = { e.w with known := w.known }
         ∧ e.w.regsEnd.LanesSet r o.d (e.memLanes o.slot) (fun l =>
             match found l with
             | none => -1
             | some n => if (cget e.t.tab n).getLsbD 62 then -2 else ((cget e.t.tab n).extractLsb' 0 10).setWidth 32) .s32 0
         ∧ ∀ l ∈ e.memLanes o.slot, ∀ n y, found l = some n → (e.t.installs.find? fun x => x.1 == n) = some y →
           ∀ x ∈ s.hist, x.cmd = some y.2 → ∃ m ∈ w.known, m.id = x.id ∧ m.paths.getLsbD 0 = true)
     ∧ (∀ (o : SpSet) (s : State) (e : Env), Ready s e .mem o.slot (snum o.n ++ snum o.src) [] → e.anylane o.slot = true → 8 ≤ e.w.lg →
       (∀ p ∈ e.w.pend, p.long = true → p.due < e.w.pos + 1 + e.la o.la) → e.w.stepping = none →
       let n := (e.sreg o.n).toNat
       let x := e.sreg o.src
       ((e.l.p.spbytes + 4095) / 4096 ≤ n →
         exec (.spset o) s = .next (s.raise e.w { cause := 0x07, fml := e.slotMask o.slot, pos := e.w.pos }))
       ∧ (n < (e.l.p.spbytes + 4095) / 4096 → (cget e.t.tab n).getLsbD 62 = true →
         exec (.spset o) s = .next (s.putWave { e.w with reason := 1 }))
       ∧ (n < (e.l.p.spbytes + 4095) / 4096 → (cget e.t.tab n).getLsbD 62 = false →
         e.l.p.spbytes < ((x.extractLsb' 0 10).toNat + 1) * 2 ^ e.w.lg →
         exec (.spset o) s = .next (s.raise e.w { cause := 0x07, fml := e.slotMask o.slot, pos := e.w.pos }))
       ∧ (n < (e.l.p.spbytes + 4095) / 4096 → (cget e.t.tab n).getLsbD 62 = false →
         ((x.extractLsb' 0 10).toNat + 1) * 2 ^ e.w.lg ≤ e.l.p.spbytes →
         ∃ t v, exec (.spset o) s = .next t
           ∧ Retires (s.putTeam (entered e.t n v)) t e e.w.regsEnd (s.putTeam (entered e.t n v)).teams
           ∧ ∀ i < 64, v.getLsbD i =
               if i = 62 ∨ i = 11 ∨ i = 10 then false
               else if i = 60 then decide (e.w.lg = 8) && x.getLsbD 60
               else if 12 ≤ i ∧ i < 60 then decide (e.w.lg ≤ i - 3) && x.getLsbD i
               else x.getLsbD i))
     ∧ (∀ (o : SpClr) (s : State) (e : Env), Ready s e .mem o.slot (snum o.n) [] → e.anylane o.slot = true →
       (∀ p ∈ e.w.pend, p.long = true → p.due < e.w.pos + 1 + e.la o.la) → e.w.stepping = none →
       let n := (e.sreg o.n).toNat
       ((e.l.p.spbytes + 4095) / 4096 ≤ n →
         exec (.spclr o) s = .next (s.raise e.w { cause := 0x07, fml := e.slotMask o.slot, pos := e.w.pos }))
       ∧ (n < (e.l.p.spbytes + 4095) / 4096 → (cget e.t.tab n).getLsbD 62 = true →
         exec (.spclr o) s = .next (s.putWave { e.w with reason := 1 }))
       ∧ (n < (e.l.p.spbytes + 4095) / 4096 → (cget e.t.tab n).getLsbD 62 = false →
         ∃ t v, exec (.spclr o) s = .next t
           ∧ Retires (s.putTeam (entered e.t n v)) t e e.w.regsEnd (s.putTeam (entered e.t n v)).teams
           ∧ ∀ i < 64, v.getLsbD i = if i = 63 ∨ i = 61 then false else (cget e.t.tab n).getLsbD i))
     ∧ ∀ (o : SpGet) (s : State) (e : Env), Ready s e .mem o.slot (snum o.n) (snum o.d) → e.anylane o.slot = true →
       (∀ p ∈ e.w.pend, p.long = true → p.due < e.w.pos + 1 + e.la o.la) →
       let n := (e.sreg o.n).toNat
       ((e.l.p.spbytes + 4095) / 4096 ≤ n →
         exec (.spget o) s = .next (s.raise e.w { cause := 0x07, fml := e.slotMask o.slot, pos := e.w.pos }))
       ∧ (n < (e.l.p.spbytes + 4095) / 4096 → ∃ t, exec (.spget o) s = .next t
         ∧ Retires s t e { e.w.regsEnd with s := cset e.w.regsEnd.s o.d.val (cget e.t.tab n) } s.teams))

/-- R79, R81: in a STAGED launch a scalar store to global memory enters the team's log and leaves memory as it is; the team's own
loads see it, at its place and nowhere else.
The model's own choices that it rests on are in the log: 6. -/
def Obligations.StagedStores : Prop :=
  ∀ (o : SSt) (s : State) (e : Env) (ps : List Piece), MemReady s e o.slot o.la (o.addr.nums ++ o.src.num) [] →
    e.anylane o.slot = true → o.space = .gm → e.staged = true →
    (e.actor o.ord).place s .gm .wr (o.ord.order == .plain) true (e.ea o.addr 0) o.w.bytes (Config.peerAnswers s.nondet) = .ok ps →
    let es := (numberLog s.written
      (logWrites (storePieces ps (leBytes o.w.bytes (e.szrd o.src).toNat)) (e.actor o.ord).logTag)).1
    e.t.log.length + es.length ≤ e.l.p.logsz * 64 →
    ∃ t, exec (.sst o) s = .next t ∧ t.mem = s.mem ∧ t.team? e.t.key = some { e.t with log := e.t.log ++ es } ∧ (∀ x ∈ es, x.Formed)
      ∧ ∀ pa cmp, ps = [.mem pa o.w.bytes cmp] → pa % 32 + o.w.bytes ≤ 32 →
        ∀ a, cget (w := 8) (({ e.t with log := e.t.log ++ es } : Team).view s.mem) a
          = if pa ≤ a ∧ a < pa + o.w.bytes then (e.szrd o.src).extractLsb' (8 * (a - pa)) 8 else cget (w := 8) (e.t.view s.mem) a

/-- R155, R158: a scalar load or store at an address that is not aligned to its size raises ALIGN with its address and the lanes of
its slot, and performs nothing; a TLB may come to hold a translation. R287: a compress-store whose base is not 4-aligned raises ALIGN with
the base and the lanes that it keeps, whatever it keeps, and performs nothing.
The model's own choices that it rests on are in the log: 32, 51. -/
def Obligations.AlignmentTraps : Prop :=
  (∀ (s : State) (e : Env) (k : Slot) (la : La) (srcs dsts : List Nat), MemReady s e k la srcs dsts → e.anylane k = true →
    let gives (i : Instr) (va : DWord) (access : Byte) : Prop := ∃ tlb late,
      let w : Wave :=
        { e.w with
          late, pend := e.w.pend ++ [{ pos := e.w.pos, due := e.w.pos + 1 + e.la la, long := true, effs := [], srcs, dsts }] }
      exec i s = .next ((({ s with tlb, nondet := s.nondet + 1 } : State).putWave w).raise w
        { cause := 0x08, faddr := va, fml := e.slotMask k, access, pos := e.w.pos })
    (∀ o : SLd, o.slot = k → o.la = la → o.addr.nums = srcs → snum o.d = dsts → (e.ea o.addr 0).toNat % o.w.bytes ≠ 0 →
      gives (.sld o) (e.ea o.addr 0) 1)
    ∧ ∀ o : SSt, o.slot = k → o.la = la → o.addr.nums ++ o.src.num = srcs → dsts = [] → (e.ea o.addr 0).toNat % o.w.bytes ≠ 0 →
      gives (.sst o) (e.ea o.addr 0) 2)
  ∧ ∀ (o : VCst) (global : Bool) (s : State) (e : Env), Ready s e .mem o.slot (246 :: (o.addr.nums ++ o.src.num ++ o.m.num)) [] →
      e.memLanes o.slot ≠ [] → (e.ea o.addr 0).toNat % 4 ≠ 0 →
      ∃ fml, exec (if global then .vcstGm o else .vcstSp o) s = .next (s.raise e.w
          { cause := 0x08, faddr := e.ea o.addr 0, access := 2, pos := e.w.pos, fml, kept := [(e.w.pos, e.keptSet o)] })
        ∧ ∀ l < 64, fml.getLsbD l = ((e.memLanes o.slot).contains l && (e.keptSet o).getLsbD l)

/-! ### The matrix engine -/

/-- R305 to R316, R318, R330 to R332: what each matrix instruction queues, when its checks pass. R305, R307, R310, R311: a matrix
instruction of fewer than all lanes raises ILLCONV, one of a tile that the team does not hold PROT with mrp as the fault word, and one of a
misaligned address pair ALIGN, each before anything is queued. The model's own choices that it rests on are in the log: 53, 62, 65, 67. -/
def Obligations.MatrixIssue : Prop :=
  let pair (e : Env) (n : SReg) : Prop := (e.sreg n).toNat % 32 = 0 ∧ (e.sreg (sAfter n 1)).toNat % 32 = 0
  let gen (e : Env) (g : Fin 8) (f : Tag) : Prop := cget e.r.gbad g.val = 0 ∧ gBad (cget e.r.g g.val) (some f) = false
  let aNum : AOpd → List Nat := fun a => match a with
     | .addr n _ => snum n ++ snum (sAfter n 1) | .gen g => gnum g
  let bNum : BOpd → List Nat := fun b => match b with
     | .addr n _ => snum n ++ snum (sAfter n 1) | .gen g => gnum g | .cb n _ _ => snum n ++ snum (sAfter n 1) ++ snum (sAfter n 2)
  ((∀ (o : Mma) (zero : Bool), let i : Instr := if zero then .mmaz o else .mma o
     Queues i o.slot ([246, 249, 250] ++ aNum o.a ++ bNum o.b) [] true
       (fun e => e.mayMtx o.slot o.tile.val
         ∧ (match o.a with | .addr n _ => pair e n | .gen g => gen e g o.fmt)
         ∧ match o.b with
           | .addr n _ => pair e n
           | .gen g => gen e g o.fmt
           | .cb n _ b => b.val < e.l.p.nbanks ∧ e.bankBusy b.val = false ∧ (e.t.bank b.val).bad = none ∧ (e.sreg n).toNat % 2 = 0
             ∧ 0 < (e.sreg (sAfter n 2)).toNat % 2 ^ 32 ∧ (e.sreg (sAfter n 2)).toNat % 2 ^ 32 % 48 = 0
             ∧ (e.sreg (sAfter n 2)).toNat / 2 ^ 32 % 8 = 0)
       (fun e =>
         let j := e.plainJob i
         let j := match o.a with
           | .addr n _ => { j with a0 := e.sreg n, a1 := e.sreg (sAfter n 1) }
           | .gen g => { j with ga := cget e.r.g g.val, gaTab := (List.range 256).map fun k => cget e.r.gtab (256 * g.val + k) }
         match o.b with
           | .addr n _ => { j with b0 := e.sreg n, b1 := e.sreg (sAfter n 1) }
           | .gen g => { j with gb := cget e.r.g g.val, gbTab := (List.range 256).map fun k => cget e.r.gtab (256 * g.val + k) }
           | .cb n _ _ => { j with b0 := e.sreg n, b1 := e.sreg (sAfter n 1), b2 := e.sreg (sAfter n 2) }))
   ∧ (∀ o : MZero, Queues (.mzero o) o.slot [246] [] false (fun e => e.mayMtx o.slot o.tile.val) fun e => e.plainJob (.mzero o))
   ∧ (∀ o : MLd, Queues (.mld o) o.slot (246 :: 250 :: snum o.s ++ snum (sAfter o.s 1)) [] true
       (fun e => e.mayMtx o.slot o.tile.val ∧ pair e o.s)
       fun e => { e.plainJob (.mld o) with a0 := e.sreg o.s, a1 := e.sreg (sAfter o.s 1) })
   ∧ (∀ o : MSt, Queues (.mst o) o.slot (246 :: 250 :: (snum o.s ++ snum (sAfter o.s 1))) (if o.amax then [248, 252] else [252]) true
       (fun e => e.mayMtx o.slot o.tile.val ∧ pair e o.s)
       fun e => { e.plainJob (.mst o) with a0 := e.sreg o.s, a1 := e.sreg (sAfter o.s 1) })
   ∧ (∀ o : MRstl, Queues (.mrstl o) o.slot [246] [] false
       (fun e => (∀ l < 64, e.inslot o.slot l = true) ∧ e.r.exm = ones64 ∧ ∃ h, e.w.hdr = some h ∧ o.entry.val < h.nrestart)
       fun e => e.plainJob (.mrstl o))
   ∧ (∀ o : CbWr, Queues (.cbwr o) o.slot (o.e.num ++ o.w.num) [] false (fun e => o.bank.val < e.l.p.nbanks ∧ e.hReady [o.e, o.w])
       fun e => { e.plainJob (.cbwr o) with a0 := e.srd o.e, b0 := e.srd o.w })
   ∧ (∀ o : CbCfg, Queues (.cbcfg o) o.slot o.c.num [] false (fun e => o.bank.val < e.l.p.nbanks ∧ e.hReady [o.c])
       fun e => { e.plainJob (.cbcfg o) with a0 := e.srd o.c })
   ∧ (∀ o : CbInv, Queues (.cbinv o) o.slot [] [] false (fun e => o.bank.val < e.l.p.nbanks) fun e => e.plainJob (.cbinv o)))
  ∧ (∀ (s : State) (e : Env) (i : Instr) (k : Slot) (tile : Fin 16) (reads writes : List Nat),
       (∃ o : Mma, (i = .mma o ∨ i = .mmaz o) ∧ k = o.slot ∧ tile = o.tile ∧ reads = [246, 249, 250] ++ aNum o.a ++ bNum o.b ∧ writes = [])
       ∨ (∃ o : MZero, i = .mzero o ∧ k = o.slot ∧ tile = o.tile ∧ reads = [246] ∧ writes = [])
       ∨ (∃ o : MLd, i = .mld o ∧ k = o.slot ∧ tile = o.tile ∧ reads = 246 :: 250 :: snum o.s ++ snum (sAfter o.s 1) ∧ writes = [])
       ∨ (∃ o : MSt, i = .mst o ∧ k = o.slot ∧ tile = o.tile ∧ reads = 246 :: 250 :: (snum o.s ++ snum (sAfter o.s 1))
           ∧ writes = if o.amax then [248, 252] else [252]) →
       Ready s e .mtx k reads writes → e.anylane k = true →
       let whole := (∀ l < 64, e.inslot k l = true) ∧ e.r.exm = ones64
       (¬whole → exec i s = .next (s.raise e.w { cause := 0x02, pos := e.w.pos }))
       ∧ (whole → e.l.p.ntiles ≤ tile.val →
           exec i s = .next (s.raise e.w { cause := 0x07, fword := e.r.mrp.setWidth 32, pos := e.w.pos })))
  ∧ (∀ (s : State) (e : Env) (i : Instr) (k : Slot) (tile : Fin 16) (n : SReg) (acc : Byte) (reads writes : List Nat),
       (∃ o : MLd, i = .mld o ∧ k = o.slot ∧ tile = o.tile ∧ n = o.s ∧ acc = 0x11
           ∧ reads = 246 :: 250 :: snum o.s ++ snum (sAfter o.s 1) ∧ writes = [])
       ∨ (∃ o : MSt, i = .mst o ∧ k = o.slot ∧ tile = o.tile ∧ n = o.s ∧ acc = 0x12
           ∧ reads = 246 :: 250 :: (snum o.s ++ snum (sAfter o.s 1)) ∧ writes = if o.amax then [248, 252] else [252])
       ∨ (∃ (o : Mma) (sp : Bool), (i = .mma o ∨ i = .mmaz o) ∧ k = o.slot ∧ tile = o.tile ∧ o.a = .addr n sp ∧ acc = 0x11
           ∧ (∀ m x b, o.b ≠ .cb m x b) ∧ reads = [246, 249, 250] ++ aNum o.a ++ bNum o.b ∧ writes = []) →
       Ready s e .mtx k reads writes → e.mayMtx k tile.val → ¬pair e n →
       exec i s = .next (s.raise e.w { cause := 0x08, faddr := e.sreg n, access := acc, pos := e.w.pos }))

/-- R186 to R188, R307, R309, R313: an MMA whose operands can be read gives each element of rows start to mvc − 1 of its tile half the
accumulator (+0 for MMAZ and in a half tagged zero) plus the products of the row of A and the column of B, rounded once; other rows and the other half keep their
bits, the half takes the accumulation format's tag, the other half is raw when it held half of an f32 value, and the flags are those of every
product and sum. EnginePerforms says what the engine makes of it.
The model's own choices that it rests on are in the log: 6, 59, 65, 66. -/
def Obligations.MatrixProduct : Prop :=
  ∀ (m : MtxEnv) (o : Mma) (zero : Bool) (cols : List (List FVal)) (sticky : Bool) (g1 g2 : List Seen) (all : Option (List (List FVal)))
    (row : Nat → List FVal) (g : Nat → List Seen),
    let f := o.fmt.ff
    let acc : FFmt := match o.half with | .whole => .f32 | _ => if o.fmt = .bf16x2 then .bf16 else .f16
    let half : Word → Nat := fun x => match o.half with
      | .whole => x.toNat | .lo => x.toNat % 2 ^ 16 | .hi => x.toNat / 2 ^ 16
    let t := m.a.t.tile o.tile.val
    let tag := match o.half with | .whole => if t.lo = 1 then t.hi else t.lo | .lo => t.lo | .hi => t.hi
    (zero = true ∨ match o.half with | .whole => tag = 1 | _ => tag = 4 ∨ tag = if acc = .bf16 then 2 else 3) →
    o.tile.val < m.a.t.tiles.length → m.s.team? m.a.t.key = some m.a.t →
    m.readB o f (256 / f.width) = .ok ((cols, sticky), g1) → cols.length = 64 → m.readA o f (256 / f.width) = .ok (all, g2) →
    (∀ i, m.j.start ≤ i → i < m.j.mvc → m.rowA o f (256 / f.width) all i = .ok (row i, g i)) →
    let rows := (List.range m.j.mvc).filter (m.j.start ≤ ·)
    let prods (i j : Nat) : List (Fl FVal) := ((row i).zip (cols.getD j [])).map fun p => fmul p.1 p.2
    let old (i j : Nat) : Nat := half (cget t.cells (64 * i + j))
    ∃ S sn fl t' tm, ∃ c : Nat → Nat → FVal,
      let sum (i j : Nat) : Fl Nat := faddN acc .rne (c i j :: (prods i j).map (·.1))
      m.mma o zero = (S, sn, .done fl 0) ∧ S = m.s.putTeam tm ∧ tm = { m.a.t with tiles := tm.tiles, banks := tm.banks }
      ∧ tm.tile o.tile.val = t' ∧ (∀ k, k ≠ o.tile.val → tm.tile k = m.a.t.tile k)
      ∧ (∀ i j, (c i j = value acc (old i j) ∨ (zero = true ∨ tag = 4) ∧ c i j = .fin false 0 0) ∧ (zero = true → c i j = .fin false 0 0))
      ∧ fl = ((rows.flatMap fun i => (List.range 64).flatMap fun j => (sum i j).2 :: (prods i j).map (·.2))).foldl (· ||| ·) 0
      ∧ (match o.half with
        | .whole => t'.lo = 1 ∧ t'.hi = 1
        | .lo => t'.lo = (if acc = .bf16 then 2 else 3) ∧ t'.hi = if t.hi = 1 then 0 else t.hi
        | .hi => t'.hi = (if acc = .bf16 then 2 else 3) ∧ t'.lo = if t.lo = 1 then 0 else t.lo)
      ∧ ∀ i j, j < 64 →
        half (cget t'.cells (64 * i + j)) = (if m.j.start ≤ i ∧ i < m.j.mvc then (sum i j).1 % 2 ^ acc.width else old i j)
        ∧ match o.half with
          | .whole => True
          | .lo => (cget t'.cells (64 * i + j)).toNat / 2 ^ 16 = (cget t.cells (64 * i + j)).toNat / 2 ^ 16
          | .hi => (cget t'.cells (64 * i + j)).toNat % 2 ^ 16 = (cget t.cells (64 * i + j)).toNat % 2 ^ 16

/-! ### Copies, tags and handles -/

/-- R144 to R146, R297 to R301, R329: CPY, CPYN and CBLD issue their commands, with the byte counts, pitches and strides that their
registers or shape record give; the shape record is read as the wave's lanes see it, here with no watchpoint set.
The model's own choices that it rests on are in the log: 63, 64, 165, 166. -/
def Obligations.CommandIssue : Prop :=
  let size (d : List (Nat × DWord × DWord)) : Prop := (∀ x ∈ d, x.1 ≠ 0) ∧ (d.map (·.1)).prod ≤ 2 ^ 40
  let slotOk (o : Cpy) (e : Env) : Prop := match o.install with
    | none => True
    | some n => (e.sreg n).toNat < (e.l.p.spbytes + 4095) / 4096 ∧ (e.sreg (sAfter o.sa 1)).toNat % 2 ^ e.w.lg = 0
  let tab (o : Cpy) (e : Env) : Cells 64 := match o.install with
    | none => e.t.tab
    | some n => cset e.t.tab (e.sreg n).toNat
        (entryOf false true false e.w.lg (e.sreg o.sa).toNat ((e.sreg (sAfter o.sa 1)).toNat / 2 ^ e.w.lg))
  let cmd (o : Cpy) (e : Env) (d : List (Nat × DWord × DWord)) : Cmd :=
    { tag := o.tag.val, seq := 0, wave := e.w.key, src := o.src, dst := o.dst, sa := e.sreg o.sa, da := e.sreg (sAfter o.sa 1), dims := d
      install := o.install.map fun n => (e.sreg n).toNat }
  let inst (o : Cpy) : List Nat := match o.install with | some n => snum n | none => []
  (∀ o : Cpy,
    let dims (e : Env) : List (Nat × DWord × DWord) :=
      let n := e.sreg (sAfter o.sa 2)
      let p := e.sreg (sAfter o.sa 3)
      [(n.toNat % 2 ^ 32, 0, 0), (n.toNat / 2 ^ 32, sext64 (p.extractLsb' 0 32), sext64 (p.extractLsb' 32 32))]
    Issues (.cpy o) 1 o.slot o.h (((List.range 4).map fun k => 128 + (sAfter o.sa k).val) ++ inst o) o.tag.val
      (fun e => size (dims e) ∧ slotOk o e) (fun e => cmd o e (dims e)) (tab o))
  ∧ (∀ (o : Cpy) (b : List Byte) (nd : Nat),
    let at_ (off n : Nat) : Nat := leNat ((b.drop off).take n)
    let dims := (List.range nd).map fun i => (at_ (8 + 24 * i) 4, BitVec.ofNat 64 (at_ (16 + 24 * i) 8), BitVec.ofNat 64 (at_ (24 + 24 * i) 8))
    Issues (.cpyn o) 1 o.slot o.h (((List.range 3).map fun k => 128 + (sAfter o.sa k).val) ++ inst o) o.tag.val
      (fun e =>
        let ra := e.sreg (sAfter o.sa 2)
        (∀ n < 4, cget e.s.ctl (watchOff (quadOf e.coreNo) n + 0x10) = 0) ∧ ra.toNat % 8 = 0 ∧ ra.toNat + 128 ≤ e.l.p.spbytes
        ∧ readAt e.s.poison (({ e.actor with who := some (e.w.key, ones64) }).view e.s)
            (2 ^ 56 + 2 ^ 20 * e.coreNo + (e.t.spBase + ra.toNat)) 128 = .ok b
        ∧ nd = at_ 0 1 ∧ 1 ≤ nd ∧ nd ≤ 5 ∧ at_ 1 7 = 0 ∧ (∀ i < nd, at_ (12 + 24 * i) 4 = 0) ∧ at_ 16 8 = 0 ∧ at_ 24 8 = 0
        ∧ size dims ∧ slotOk o e)
      (fun e => cmd o e dims) (tab o))
  ∧ ∀ o : CbLd, Issues (.cbld o) 3 o.slot o.h (snum o.sa) o.tag.val
      (fun e => o.bank.val < e.l.p.nbanks ∧ (e.sreg o.sa).toNat % 8 = 0)
      (fun e => { tag := o.tag.val, seq := 0, wave := e.w.key, src := if o.sp then .sp else .gm, dst := .sp, sa := e.sreg o.sa, da := 0
                  dims := [(4096, 0, 0)], bank := some o.bank.val }) (fun e => e.t.tab)

/-- R120, R159, R302: a wait on tags or on a handle goes on at once when it is satisfied and no command it consumes has faulted,
raises that command's fault when one has (of several tags the lowest), and else blocks its fragment; one that its event has resumed goes on
or raises its fault as that event left it, whatever its operand holds by then, and is issued anew after that trap. R172: the writes of the commands that it waited for come
before the wave's later accesses, and nothing else of the wave changes. R302 to R304: TFFR gives the lowest set tag bit of its mask, TCLR
clears tag bits when it falls due, HTEST gives a command's bytes done, class and status, and HCANCEL marks a copy in flight to stop and does
nothing else. The model's own choices that it rests on are in the log: 6, 13, 62, 155. -/
def Obligations.TagWaitsAndResults : Prop :=
  (∀ (s : State) (e : Env), e.w.pos + 1 = e.cl.count →
     let mask (a : MSSrc) : DWord := match a with | .m n => cget e.r.m n.val | .sc y => e.srd y
     -- a wait that comes to x ends: the wave learns of the commands' writes, and goes on or traps
     let ends (i : Instr) (x : Passed) : Prop := ∃ known,
       (∀ n ∈ e.w.known, ∃ m ∈ known, m.id = n.id ∧ m.paths &&& n.paths = n.paths)
       ∧ (∀ y ∈ s.hist, (∃ q ∈ x.seqs, y.cmd = some q) → ∃ m ∈ known, m.id = y.id ∧ m.paths.getLsbD 0 = true)
       ∧ (x.trap = none → ∃ t, exec i s = .next t ∧ Retires s t { e with w := { e.w with known } } e.w.regsEnd s.teams)
       ∧ ∀ tr, x.trap = some tr → exec i s = .next
           (s.raise ({ e.w with known }.setFrag e.w.cur fun f => { f with past := none }) { tr with pos := e.w.pos })
     let blocks (i : Instr) (x : Wait) : Prop := e.w.stepping = none → ∃ t, exec i s = .next t ∧ Blocks s t e x
     (∀ o : TMask, Ready s e .asy o.slot (247 :: o.a.num) [] → e.anylane o.slot = true →
       (∀ x, e.f.past = some x → ends (.twany o) x ∧ ends (.twall o) x)
       ∧ (e.f.past = none → (∀ y, o.a = .sc y → e.hReady [y]) → (mask o.a).toNat < 2 ^ e.l.p.ntags →
         let m := mask o.a
         ((m = 0 ∨ e.t.tags &&& m ≠ 0) → ends (.twany o) (e.t.passes (.tagAny m)))
         ∧ (e.t.tags &&& m = m → ends (.twall o) (e.t.passes (.tagAll m)))
         ∧ (m ≠ 0 → e.t.tags &&& m = 0 → blocks (.twany o) (.tagAny m))
         ∧ (e.t.tags &&& m ≠ m → blocks (.twall o) (.tagAll m))))
     ∧ ∀ o : HOp, Ready s e .asy o.slot (hnum o.h) [] → e.anylane o.slot = true →
       (∀ x, e.f.past = some x → ends (.hwait o) x)
       ∧ (e.f.past = none →
         let h := cget e.r.h o.h.val
         let tag := h.toNat / 2 ^ 22 % 64
         (h = 0 ∨ (h.toNat / 2 ^ 28 = 1 ∨ h.toNat / 2 ^ 28 = 3) ∧ tag < e.l.p.ntags) →
         let live : Prop := h ≠ 0 ∧ h.extractLsb' 0 22 = (e.t.tag tag).gen ∧ (e.t.tag tag).busy = true
         (¬live → ends (.hwait o) (e.t.passes (.handle h))) ∧ (live → blocks (.hwait o) (.handle h))))
  -- what a wait comes to: the commands that it shows complete, and the fault of the lowest tag it consumes that has one
  ∧ (∀ t : Team,
       let failed (k : Nat) : Prop := (t.tag k).busy = false ∧ (t.tag k).status = 3
       let trap (k : Nat) : Trap :=
         { cause := (t.tag k).cause, faddr := (t.tag k).faddr, access := (t.tag k).access
           fword := BitVec.ofNat 32 (if (t.tag k).cause = 0x0F then (t.tag k).ecc else k) }
       let names (m : DWord) (x : Passed) : Prop :=
         (∀ k < 64, m.getLsbD k = true → ∀ q, ((t.tag k).gen.toNat, q) ∈ (t.tag k).seqs → q ∈ x.seqs)
         ∧ ((∀ k < 64, m.getLsbD k = true → ¬failed k) → x.trap = none)
         ∧ ∀ k < 64, m.getLsbD k = true → failed k → (∀ j < k, m.getLsbD j = true → ¬failed j) → x.trap = some (trap k)
       (∀ m, names (t.tags &&& m) (t.passes (.tagAny m)) ∧ names m (t.passes (.tagAll m)))
       ∧ ∀ h : Word, let tag := h.toNat / 2 ^ 22 % 64
         (h = 0 → t.passes (.handle h) = {})
         ∧ (h ≠ 0 → ∀ q, ((h.extractLsb' 0 22).toNat, q) ∈ (t.tag tag).seqs → q ∈ (t.passes (.handle h)).seqs)
         ∧ (h ≠ 0 → (h.extractLsb' 0 22 ≠ (t.tag tag).gen ∨ ¬failed tag) → (t.passes (.handle h)).trap = none)
         ∧ (h ≠ 0 → h.extractLsb' 0 22 = (t.tag tag).gen → failed tag → (t.passes (.handle h)).trap = some (trap tag)))
  ∧ (∀ (s : State) (e : Env),
       let mask (a : MSSrc) : DWord := match a with | .m n => cget e.r.m n.val | .sc y => e.srd y
       let good (h : Word) : Prop := h = 0 ∨ (h.toNat / 2 ^ 28 = 1 ∨ h.toNat / 2 ^ 28 = 3) ∧ h.toNat / 2 ^ 22 % 64 < e.l.p.ntags
       (∀ o : TFfr, Ready s e .asy o.slot (247 :: o.a.num) o.d.num → e.anylane o.slot = true → (∀ y, o.a = .sc y → e.hReady [y]) →
         (mask o.a).toNat < 2 ^ e.l.p.ntags →
         ∃ t v, exec (.tffr o) s = .next t ∧ Retires s t e (e.w.regsEnd.putS o.d v) (o.d.teams s e v)
           ∧ (e.t.tags &&& mask o.a = 0 → v = 64)
           ∧ (e.t.tags &&& mask o.a ≠ 0 → v.toNat < 64 ∧ (e.t.tags &&& mask o.a).getLsbD v.toNat = true
               ∧ ∀ k < v.toNat, (e.t.tags &&& mask o.a).getLsbD k = false))
       ∧ (∀ o : TMask, Ready s e .asy o.slot o.a.num [247] → e.anylane o.slot = true → (∀ y, o.a = .sc y → e.hReady [y]) →
         (mask o.a).toNat < 2 ^ e.l.p.ntags →
         ∃ t w', exec (.tclr o) s = .next t
           ∧ Retires s t e e.w.regsEnd (s.putTeam { e.t with tags := e.t.tags &&& ~~~(mask o.a) }).teams
           ∧ t.wave? e.w.key = some w'
           ∧ (s.lands e.w 4 = false →
             ({ pos := e.w.pos, due := e.w.pos + 4, effs := [.tclr (mask o.a)], dsts := [247] } : Pend) ∈ w'.pend)
           ∧ (s.lands e.w 4 = true → t.team? e.t.key = some { e.t with tags := e.t.tags &&& ~~~(mask o.a) }))
       ∧ (∀ o : HTest, Ready s e .asy o.slot (hnum o.h) o.d.num → e.anylane o.slot = true →
         let h := cget e.r.h o.h.val
         let x := e.t.tag (h.toNat / 2 ^ 22 % 64)
         let v : DWord := if h = 0 then 1
           else if h.extractLsb' 0 22 ≠ x.gen then BitVec.ofNat 64 (128 + 16 * (h.toNat / 2 ^ 28) + 1)
           else BitVec.ofNat 64 (256 * e.t.bytesDone (h.toNat / 2 ^ 22 % 64) + 16 * (h.toNat / 2 ^ 28) + if x.busy then 0 else x.status)
         good h → o.d.takes v →
         ∃ t, exec (.htest o) s = .next t ∧ Retires s t e (e.w.regsEnd.putS o.d v) (o.d.teams s e v))
       ∧ ∀ o : HOp, Ready s e .asy o.slot (hnum o.h) [] → e.anylane o.slot = true →
         let h := cget e.r.h o.h.val
         let tag := h.toNat / 2 ^ 22 % 64
         let live : Prop := h ≠ 0 ∧ h.extractLsb' 0 22 = (e.t.tag tag).gen ∧ (e.t.tag tag).busy = true
         good h →
         (¬live → ∃ t, exec (.hcancel o) s = .next t ∧ Retires s t e e.w.regsEnd s.teams)
         ∧ (live →
           let S := s.putTeam { e.t with
             cmds := e.t.cmds.map fun c => if c.tag = tag ∧ c.bank = none then { c with cancel := true } else c }
           ∃ t, exec (.hcancel o) s = .next t ∧ Retires S t e e.w.regsEnd S.teams))

/-! ### Traps, system registers, the latch and the Threshold order -/

/-- R131 to R134: taking a trap writes the frame in the wave's area, and nothing else of memory, and starts the trap image in one
fragment of all lanes: a cause that resumes "at" sets the trapping instruction's replay bit, one that resumes "after" none, and cont
names the next instruction, or the end of the clause. Here the wave re-issues nothing and has no further faults.
The model's own choices that it rests on are in the log: 33. -/
def Obligations.TrapEntry : Prop :=
  ∀ (s : State) (w : Wave) (tr : Trap) (t : Team) (c : Ctx) (f : Frag) (cl : Clause) (h : Header) (b : Found),
    w.quiet → s.team? w.team = some t → s.ctx? t.ctx = some c → w.inHandler = false → c.trapImg ≠ 0 → s.trSize = 0 →
    let flat := { w with regs := w.regsEnd, pend := [] }
    (s.store none (s.areaOf w) (flat.areaBytes tr (c.checked || cl.k) s.tick) false).entryOf c c.trapImg = .ok (h, b) →
    w.frags[w.cur]? = some f → w.clause = some cl → w.replay = [] → tr.more = [] →
    tr.header = false → tr.atEnd = false → tr.pos = w.pos → w.pos < cl.count → cl.count ≤ 15 → f.cp < 2 ^ 31 → w.frags.length ≤ 64 →
    w.cur < 64 → tr.cause < 2 ^ 16 → tr.detail < 256 → w.depth < 256 →
    let at_ : Bool := tr.cause ≠ 11 ∧ tr.cause ≠ 12 ∧ tr.cause ≠ 13 ∧ tr.cause ≠ 14
    let u := s.takeTrap w tr
    let a := s.areaOf w
    let word (off n : Nat) : Nat := mnat u.mem (a + off) n
    word 0 2 = tr.cause ∧ word 2 1 = (if tr.cause = 1 then tr.detail else 0) ∧ word 3 1 = (if c.checked || cl.k then 2 else 0)
    ∧ word 4 4 = f.cp + 8 + 8 * w.pos
    ∧ word 8 4 = (if w.pos + 1 < cl.count then f.cp + 8 + 8 * (w.pos + 1) else f.cp + 128)
    ∧ word 12 2 = (if at_ then 2 ^ w.pos else 0) ∧ word 14 1 = w.frags.length ∧ word 15 1 = w.cur ∧ word 16 8 = w.img.toNat
    ∧ word 24 8 = tr.faddr.toNat ∧ word 32 8 = tr.fml.toNat ∧ word 40 8 = w.regsEnd.exm.toNat ∧ word 48 8 = s.tick % 2 ^ 64
    ∧ word 56 4 = tr.fword.toNat ∧ word 60 1 = w.depth ∧ word 61 1 = tr.access.toNat ∧ word 64 8 = w.regsEnd.ret.toNat
    ∧ (∀ l < 64, word (0x100 + l) 1 = (cget w.blk l).toNat ∧ word (0x140 + l) 1 = (cget w.regsEnd.nblk l).toNat)
    ∧ (∀ i g, w.frags[i]? = some g → word (0x200 + 16 * i) 8 = g.mask.toNat ∧ word (0x208 + 16 * i) 4 = g.cp % 2 ^ 32)
    ∧ (∀ x, (x < a ∨ a + 0x600 ≤ x) → cget (w := 8) u.mem x = cget (w := 8) s.mem x)
    ∧ ∃ w' g, u.wave? w.key = some w' ∧ w'.inHandler = true ∧ w'.img = c.trapImg ∧ w'.hdr = some h ∧ w'.stage = .ready ∧ w'.pos = 0
      ∧ w'.frags = [g] ∧ g.mask = ones64 ∧ g.cp = b.first ∧ g.state = b.state ∧ w'.cur = 0
      ∧ (∀ l < 64, cget w'.blk l = BitVec.ofNat 8 h.entry ∧ cget w'.regs.nblk l = BitVec.ofNat 8 h.entry
          ∧ (w'.linkOf l).st = .cleared)
      ∧ w'.regs = { w.regsEnd with fml := tr.fml, ret := 0, exm := ones64, nblk := w'.regs.nblk }

/-- R335: SWTRAP raises SWTRAP with its immediate as the fault word, BRK raises BRK; with no long-latency work under way the trap
is taken at once, else the wave waits in place with the trap pending (R132). R173, R206, R339, R340: ICINV empties the instruction and
state caches of the cores in its scope alone, and waits while stores of the wave stand in the team's log; TICK gives the global tick; PMARK
changes nothing but what tracing records. The model's own choices that it rests on are in the log: 33, 71, 140. -/
def Obligations.SystemResults : Prop :=
  (∀ (s : State) (e : Env) (i : Instr) (k : Slot) (tr : Trap),
     ((∃ o : Imm16, i = .swtrap o ∧ k = o.slot ∧ tr = { cause := 0x0E, fword := o.imm.setWidth 32, pos := e.w.pos })
       ∨ ∃ o : Bare, i = .brk o ∧ k = o.slot ∧ tr = { cause := 0x0B, pos := e.w.pos }) →
     Ready s e .sys k [] [] → e.anylane k = true → e.w.trap = none →
     let w : Wave := { e.w with stepped := true }
     (s.busy e.w = false → exec i s = .next (s.takeTrap w tr))
     ∧ (s.busy e.w = true → exec i s = .next (s.putWave { w with trap := some tr, stage := .trap })))
  ∧ ((∀ (o : IcInv) (s : State) (e : Env), Ready s e .sys o.slot [] [] → e.anylane o.slot = true →
       (e.staged = true → e.w.logged = true → e.w.stepping = none → exec (.icinv o) s = .next (s.putWave { e.w with reason := 6 }))
       ∧ (e.w.stalls = [] → (e.staged = true → e.w.logged = false) →
       let inside (c : Nat) : Prop := match o.scope with
         | .core => c = e.coreNo | .quad => c / 4 = e.coreNo / 4 | .die => c / 160 = e.coreNo / 160 | .pkg => True
       ∃ t S, exec (.icinv o) s = .next t ∧ Retires S t e e.w.regsEnd s.teams ∧ S = { s with cores := S.cores, quads := S.quads }
         ∧ (∀ c, inside c → (S.core c).lines = [] ∧ (S.core c).sc = [] ∧ (S.quad (c / 4)).lines = [])
         ∧ (∀ c, ¬inside c → S.core c = s.core c)
         ∧ (∀ c, (S.core c).mtx = (s.core c).mtx)
         ∧ ∀ g, (∀ p < 4, ¬inside (4 * g + p)) → S.quad g = s.quad g))
     ∧ (∀ (o : TickI) (s : State) (e : Env), Ready s e .sys o.slot [] o.d.num → e.anylane o.slot = true →
       ∃ t, exec (.tick o) s = .next t ∧ Retires s t e (match o.d with
         | .s d => { e.w.regsEnd with s := cset e.w.regsEnd.s d.val (BitVec.ofNat 64 s.tick) } | .zero => e.w.regsEnd) s.teams)
     ∧ ∀ (o : Imm16) (s : State) (e : Env), Ready s e .sys o.slot [] [] → e.anylane o.slot = true →
       let S := s.trace e.coreNo 0x01 3 e.c.id (o.imm.toNat + 65536 * e.w.slotNo) []
       ∃ t, exec (.pmark o) s = .next t ∧ Retires S t e e.w.regsEnd S.teams
         ∧ (s.trSize = 0 → S = s))

/-- R113, R135, R336: ERET in a handler restores the image, blk, nblk, exm, the returned mask and the fragments from the frame (here at
most the eight that the split table holds), clears fml, and re-issues the frame's replay positions in the clause of the trapping fragment
before going on at cont; outside a handler it raises ILLOP with detail 1. R242, R245: back in the clause that trapped, a YIELD that it had
issued and a call that had passed its checks still stand. R250: another restored fragment is blocked at a barrier when all its lanes wait
there.
The model's own choices that it rests on are in the log: 72, 139. -/
def Obligations.TrapReturn : Prop :=
  ∀ (o : Bare) (s : State) (e : Env), Ready s e .sys o.slot [] [] → e.anylane o.slot = true → e.w.pos + 1 = e.cl.count →
    (e.w.inHandler = false → exec (.eret o) s = .next (s.raise e.w { cause := 0x01, detail := 1, pos := e.w.pos }))
    ∧ ∀ (h : Header) (fs : List Frag) (i : Nat) (bytes : List Byte) (cl : Clause) (rep : List Nat) (b : List Byte),
      let img : DWord := BitVec.ofNat 64 (bnat b 16 8)
      let blk (l : Nat) := bnat b (0x100 + l) 1
      let live := maskList ((List.range 64).filter fun l => blk l ≠ 255)
      let recs := ((List.range (min (bnat b 14 1) 64)).map fun i => (i, recordOf ((b.drop (0x200 + 16 * i)).take 16))).filterMap fun p =>
        if p.2.2 ∧ p.2.1.mask &&& live ≠ 0 then some (p.1, { p.2.1 with mask := p.2.1.mask &&& live }) else none
      let cont := bnat b 8 4
      readAt s.poison s.mem (s.areaOf e.w) 0x600 = .ok b →
      e.w.inHandler = true → e.w.frags.length = 1 → (∀ l < 64, (cget e.w.blk l).toNat = 255 ∨ e.f.mask.getLsbD l = true) →
      bnat b 60 1 = e.w.depth → s.header e.c img = .ok h → s.frameStates e.c img h (recs.map (·.2)) = .ok fs →
      (∀ l < 64, blk l ≠ 255 → ∃ g, (fs.filter fun f => f.mask.getLsbD l) = [g] ∧ g.blocks.contains (blk l) = true) →
      (recs.findIdx? fun p => p.1 == bnat b 15 1) = some i → s.line e.c e.coreNo img h ((fs.map (·.cp)).getD i 0) = .ok bytes →
      clauseOf ((fs.map (·.cp)).getD i 0) (lineWords bytes) = some cl →
      rep = (List.range cl.count).filter (fun p => (bnat b 12 2).testBit p) → rep ≠ [] → e.w.stepping = none → fs.length ≤ 8 →
      (cont = cl.off + 128 ∨ ∃ p < cl.count, cont = cl.off + 8 + 8 * p) →
      s.classTaken e.w cl.cls = false → (∀ g, fs[i]? = some g → (e.w.resumeWait g).blocked = none) →
      ∃ t w', exec (.eret o) s = .next t ∧ t.wave? e.w.key = some w' ∧ w'.inHandler = false ∧ w'.img = img ∧ w'.hdr = some h
        ∧ w'.clause = some cl ∧ w'.replay = rep ∧ w'.pos = rep.headD 0 ∧ w'.stage = .issue ∧ w'.cur = i
        ∧ cl.off + 8 + 8 * w'.cont = (if cont = cl.off + 128 then cl.off + 8 + 8 * cl.count else cont)
        ∧ w'.redo = some (BitVec.ofNat 64 (bnat b 32 8))
        ∧ w'.yielded = (decide (cl.off = e.w.keptCp) && e.w.keptYield) ∧ w'.call = (if cl.off = e.w.keptCp then e.w.keptCall else none)
        ∧ (e.w.kept = [] → ∀ k g, k ≠ i → w'.frags[k]? = some g →
            (g.blocked.isSome = true ↔ ∃ b ∈ e.w.bars, g.mask &&& ~~~b.wait = 0))
        ∧ (∀ l < 64, (cget w'.blk l).toNat = blk l ∧ (cget w'.regs.nblk l).toNat = bnat b (0x140 + l) 1)
        ∧ w'.frags.map (fun f => (f.mask, f.cp, f.state)) = fs.map (fun f => (f.mask, f.cp, f.state))
        ∧ w'.regs = { e.w.regsEnd with
            exm := BitVec.ofNat 64 (bnat b 40 8), nblk := w'.regs.nblk, ret := BitVec.ofNat 64 (bnat b 64 8), fml := 0 }
        ∧ t.mem = s.mem ∧ ∀ k, k ≠ e.w.key → t.wave? k = s.wave? k

/-- R337, R338: CSRR gives each listed register's fields at their places; a number that is not listed, and a FRAME register
outside a handler, raise ILLOP with detail 1. R126, R337: a CSRW changes its register four positions on, or at the clause's end:
SRSEED and SRCTR the wave's, SPSLOT the team's, a FRAME word its eight bytes of the wave's area and no others. The model's own
choices that it rests on are in the log: 74. -/
def Obligations.ControlRegisters : Prop :=
  (∀ (o : CsrR) (s : State) (e : Env), Ready s e .sys o.slot [0x1000 + o.csr.toNat] o.d.num →
     let n := o.csr.toNat
     let gives (v : DWord) : Prop := ∃ t, exec (.csrr o) s = .next t ∧ Retires s t e
       (match o.d with | .s d => { e.w.regsEnd with s := cset e.w.regsEnd.s d.val v } | .zero => e.w.regsEnd) s.teams
     (e.anylane o.slot = true →
       (n = 0x000 → gives (BitVec.ofNat 64 e.t.spBase)) ∧ (n = 0x001 → gives (BitVec.ofNat 64 e.w.lg))
       ∧ (n = 0x002 → gives (zext64 e.l.p.id))
       ∧ (n = 0x003 → gives (BitVec.ofNat 64 (2 ^ 32 * min e.t.resumes (2 ^ 32 - 1) + 2 ^ 16 * e.w.slotNo + e.coreNo)))
       ∧ (n = 0x004 → gives (BitVec.ofNat 64 e.w.depth)) ∧ (n = 0x010 → gives e.r.srseed) ∧ (n = 0x011 → gives e.r.srctr)
       ∧ (n = 0x030 → gives (BitVec.ofNat 64 (s.tai / 2 ^ 32)))
       ∧ (∀ b < e.l.p.nbanks, b < 16 → n = 0x020 + b →
           let k := e.t.bank b
           gives (BitVec.ofNat 64 ((match k.backing with | .empty => 0 | .source _ _ => 1 | .none => 2) * 2 ^ 24
             + k.e.toNat * 2 ^ 18 + (if k.zero then 2 ^ 17 else 0) + (if k.sticky then 2 ^ 16 else 0) + k.gen.toNat)))
       ∧ (∀ k < 512, n = 0x100 + k → e.w.inHandler = true →
           let word := readAt s.poison s.mem (s.areaOf e.w + 8 * k) 8
           (192 ≤ k ∧ k < 320 → gives 0)
           ∧ (¬(192 ≤ k ∧ k < 320) → (∀ b, word = .ok b → gives (BitVec.ofNat 64 (leNat b)))
             ∧ ∀ n l, word = .error (.ecc n l) → exec (.csrr o) s = .next (s.strike e.w n l { cause := 0x0F, pos := e.w.pos })))
       ∧ ∀ b < 16, e.l.p.nbanks ≤ b → n = 0x020 + b → exec (.csrr o) s = .next (s.raise e.w { cause := 0x07, pos := e.w.pos }))
     ∧ ((n ≤ 0x004 ∨ n = 0x010 ∨ n = 0x011 ∨ 0x020 ≤ n ∧ n < 0x030 ∨ n = 0x030 ∨ 0x100 ≤ n ∧ n < 0x300 ∧ e.w.inHandler = true) ∨
       exec (.csrr o) s = .next (s.raise e.w { cause := 0x01, detail := 1, pos := e.w.pos })))
  ∧ (∀ (o : CsrW) (s : State) (e : Env), Ready s e .sys o.slot (snum o.src) [0x1000 + o.csr.toNat] → e.anylane o.slot = true →
       let n := o.csr.toNat
       let x := e.sreg o.src
       (n = 0x010 → ∃ t, exec (.csrw o) s = .next t ∧ Retires s t e { e.w.regsEnd with srseed := x } s.teams)
       ∧ (n = 0x011 → ∃ t, exec (.csrw o) s = .next t ∧ Retires s t e { e.w.regsEnd with srctr := x } s.teams)
       ∧ (n = 0x001 → (x.toNat % 32 < 8 ∨ 16 < x.toNat % 32) →
           exec (.csrw o) s = .next (s.raise e.w { cause := 0x01, detail := 1, pos := e.w.pos }))
       ∧ ((n = 0x001 ∧ 8 ≤ x.toNat % 32 ∧ x.toNat % 32 ≤ 16 ∨ (0x100 ≤ n ∧ n < 0x1C0 ∨ 0x240 ≤ n ∧ n < 0x300) ∧ e.w.inHandler = true) →
         (e.w.replay = [] → e.w.pos + 1 < e.cl.count → (∀ p ∈ e.w.pend, p.long = true → e.w.pos + 1 < p.due) →
           ∃ t w', exec (.csrw o) s = .next t ∧ t.wave? e.w.key = some w' ∧ t.teams = s.teams ∧ t.mem = s.mem
             ∧ w'.regs = e.w.regs ∧ w'.lg = e.w.lg
             ∧ w'.pend = e.w.pend ++ [{ pos := e.w.pos, due := e.w.pos + 4, effs := [.csrw n x], dsts := [0x1000 + n] }])
         ∧ (e.w.replay = [] → e.w.pos + 1 = e.cl.count → e.cl.count ≤ 15 → (∀ p ∈ e.w.pend, p.waits = false) → s.busy e.w = false →
           ∃ t w', exec (.csrw o) s = .next t ∧ t.wave? e.w.key = some w' ∧ w'.regs = e.w.regsEnd ∧ w'.pend = []
             ∧ (n = 0x001 → w'.lg = x.toNat % 32 ∧ t.team? e.t.key = some { e.t with lg := x.toNat % 32 } ∧ t.mem = s.mem)
             ∧ (n ≠ 0x001 → t.teams = s.teams ∧ mbytes t.mem (s.areaOf e.w + 8 * (n - 0x100)) 8 = bvBytes 8 x
                 ∧ ∀ a, (a < s.areaOf e.w + 8 * (n - 0x100) ∨ s.areaOf e.w + 8 * (n - 0x100) + 8 ≤ a) →
                   cget (w := 8) t.mem a = cget (w := 8) s.mem a))))

/-- R124, R235, R341: LACQ on a latch that is free takes it, with the pair's registers v64 to v127, and on one that the wave holds
does nothing; on the partner's it blocks and waits; without a latch it raises LATCH. LREL frees the latch when it falls due. R84,
R85, R342: in a FREE or STAGED launch TKWAIT and TKREL only end the restart declaration; in an ORDERED one they block until the
team holds the position, at which its log is applied and it goes direct, and TKREL releases its ticket, once. What the wave knows of writes
may grow there (R343). The model's own choices that it rests on are in the log: 6, 87. -/
def Obligations.LatchAndThreshold : Prop :=
  (∀ (o : Bare) (s : State) (e : Env), Ready s e .sys o.slot [] [] → e.anylane o.slot = true →
     let x := e.t.latch (e.w.wid / 2)
     let w : Wave := { e.w with restart := none }
     (e.w.pos + 1 = e.cl.count → e.w.inHandler = false →
       (e.l.p.latch = false → exec (.lacq o) s = .next (s.raise w { cause := 0x05, pos := e.w.pos }))
       ∧ (e.l.p.latch = true → x.owner = some e.w.key → ∃ t, exec (.lacq o) s = .next t ∧ Retires s t { e with w } e.w.regsEnd s.teams)
       ∧ (e.l.p.latch = true → x.owner = none → e.w.wid / 2 < e.t.latches.length →
         ∃ t w1 tm, exec (.lacq o) s = .next t ∧ Retires (s.putTeam tm) t { e with w := w1 } w1.regsEnd (s.putTeam tm).teams
           ∧ w1 = { w with regs := { w.regs with v := w1.regs.v, vt := w1.regs.vt } }
           ∧ tm = { e.t with latches := tm.latches } ∧ (tm.latch (e.w.wid / 2)).owner = some e.w.key
           ∧ (cwf x.v = true → (∀ p ∈ x.v, 4096 ≤ p.1 ∧ p.1 < 8192) →
               ∀ k, cget w1.regs.v k = if 4096 ≤ k ∧ k < 8192 then cget x.v k else cget w.regs.v k))
       ∧ (∀ p, e.l.p.latch = true → x.owner = some p → p ≠ e.w.key → e.w.stepping = none → e.w.wid / 2 < e.t.latches.length →
         ∃ t tm, exec (.lacq o) s = .next t ∧ Blocks (s.putTeam tm) t { e with w } .latch ∧ tm = { e.t with latches := tm.latches }
           ∧ tm.latch (e.w.wid / 2) = { x with waiter := some e.w.key }))
     ∧ (e.w.replay = [] → e.w.pos + 1 < e.cl.count → (∀ p ∈ e.w.pend, p.long = true → e.w.pos + 1 < p.due) →
       ∃ t w', exec (.lrel o) s = .next t ∧ Retires s t e e.w.regsEnd s.teams ∧ t.wave? e.w.key = some w'
         ∧ w'.pend = e.w.pend ++ [{ pos := e.w.pos, due := e.w.pos + 4, effs := [.lrel] }])
     ∧ (e.w.replay = [] → e.w.pos + 1 = e.cl.count → e.cl.count ≤ 15 → (∀ p ∈ e.w.pend, p.waits = false) → s.busy e.w = false → x.owner = some e.w.key →
       x.waiter = none → e.w.wid / 2 < e.t.latches.length →
       ∃ t tm, exec (.lrel o) s = .next t ∧ t.team? e.t.key = some tm ∧ tm = { e.t with latches := tm.latches }
         ∧ (tm.latch (e.w.wid / 2)).owner = none))
  ∧ (∀ (o : Bare) (s : State) (e : Env), Ready s e .sys o.slot [] [] → e.anylane o.slot = true → e.w.pos + 1 = e.cl.count →
       e.w.inHandler = false →
       let w : Wave := { e.w with restart := none }
       let plain (i : Instr) : Prop := ∃ t, exec i s = .next t ∧ Retires s t { e with w } e.w.regsEnd s.teams
       let turn : Prop := ∀ k < e.t.tix, e.l.released.contains k = true ∨ e.l.voided.contains k = true
       (e.l.p.mode ≠ 2 → plain (.tkwait o) ∧ plain (.tkrel o))
       ∧ (e.l.p.mode = 2 → e.t.released = true → plain (.tkrel o))
       ∧ (e.l.p.mode = 2 → turn → e.t.direct = true →
         ∃ t known, exec (.tkwait o) s = .next t ∧ Retires s t { e with w := { w with known } } e.w.regsEnd s.teams)
       ∧ (e.l.p.mode = 2 → turn → e.t.direct = false →
         (∃ x, (s.goDirect e.t).wave? e.w.key = some x ∧ x.stage = .issue) →
         ∃ t S known, exec (.tkwait o) s = .next t ∧ Retires S t { e with w := { w with known } } e.w.regsEnd S.teams
           ∧ S = s.goDirect e.t
           ∧ (e.t.log = [] → S = s.putTeam { e.t with direct := true, wantDirect := false }))
       ∧ (e.l.p.mode = 2 → ¬turn → e.w.stepping = none → ∃ t tm, exec (.tkwait o) s = .next t
           ∧ Blocks (s.putTeam tm) t { e with w } .tkwait ∧ tm.wantDirect = true ∧ tm = { e.t with wantDirect := true, wantSince := tm.wantSince })
       ∧ (e.l.p.mode = 2 → ¬turn → e.t.released = false → e.w.stepping = none → ∃ t tm, exec (.tkrel o) s = .next t
           ∧ Blocks (s.putTeam tm) t { e with w } .tkrel ∧ tm.wantRelease = true
           ∧ tm = { e.t with wantDirect := true, wantSince := tm.wantSince, wantRelease := true })
       ∧ (e.l.p.mode = 2 → turn → e.t.released = false → (e.t.direct = true ∨ e.t.log = []) → s.trSize = 0 → ∃ t, exec (.tkrel o) s = .next t
           ∧ ∃ tm l, t.team? e.t.key = some tm
             ∧ tm = { e.t with released := true, wantRelease := false, direct := true, wantDirect := tm.wantDirect }
             ∧ t.launch? e.l.key = some l ∧ l.released.contains e.t.tix = true
             ∧ l = { e.l with released := l.released, known := l.known }))

/-! ### Events of waves -/

/-- R51, R98, R120, R127, R132: a wave starts in its image's entry block with the launch's arguments in its s registers; a wave whose
long-latency work has completed issues on, its loads with the values that they read last (log 6); a pending trap is taken once that work has; a blocked fragment whose wait is satisfied runs,
with what its wait came to; a wave with no fragment left ends. R319: a wave that resumes at its restart label starts in one fragment of all its lanes, in the label's
block, with mrp 0. R371: an image whose header or entry fails its check ends the team, with a record that gives the image's address.
The model's own choices that it rests on are in the log: 6, 18, 75, 146. -/
def Obligations.WaveEvents : Prop :=
  ∀ (s : State) (w : Wave) (t : Team) (c : Ctx) (l : Launch), s.wave? w.key = some w → s.team? w.team = some t →
    s.ctx? t.ctx = some c → s.launch? t.launch = some l → s.ready = true → s.dead = false → s.gated = false → w.place.isSome = true →
    (s.quad (w.coreNo / 4)).stopped = false → w.stepping = none →
    let after (i : Instr) (P : Wave → Prop) : Prop := ∃ u w', exec i s = .next u ∧ u.wave? w.key = some w' ∧ P w'
      ∧ ∀ k, k ≠ w.key → (u.wave? k).map (fun x => { x with links := [] }) = (s.wave? k).map fun x => { x with links := [] }
    (∀ h f, w.stage = .entering → w.stalls = [] → w.trap = none → s.entryOf c l.p.image = .ok (h, f) →
      after (.waveStart w.key) fun w' => w'.img = l.p.image ∧ w'.hdr = some h ∧ w'.stage = .ready ∧ w'.cur = 0 ∧ w'.lg = t.lg
        ∧ w'.frags = [{ mask := ones64, cp := f.first, state := f.state, blocks := f.blocks }]
        ∧ cget w'.regs.s 0 = l.p.args ∧ cget w'.regs.s 1 = BitVec.ofNat 64 l.p.teams
        ∧ cget w'.regs.s 2 = (if h.poolbytes = 0 then 0 else l.p.image + BitVec.ofNat 64 h.pool)
        ∧ (∀ n, 3 ≤ n → cget w'.regs.s n = 0)
        ∧ (∀ i < 64, w'.regs.exm.getLsbD i = decide (w.wid + 1 ≠ l.p.waves ∨ i < l.p.lanes))
        ∧ (∀ i < 64, cget w'.blk i = BitVec.ofNat 8 h.entry ∧ cget w'.regs.nblk i = BitVec.ofNat 8 h.entry)
        ∧ w'.regs = { s := w'.regs.s, exm := w'.regs.exm, nblk := w'.regs.nblk, w := t.w })
    ∧ (∀ r h f, w.stage = .label → w.stalls = [] → w.trap = none → w.restart = some r → w.hdr = some h →
      s.single c w.img h r.block = .ok f →
      after (.waveStart w.key) fun w' => w'.stage = .ready ∧ w'.cur = 0 ∧ w'.img = w.img
        ∧ w'.frags = [{ mask := w.live, cp := f.first, state := f.state, blocks := f.blocks }]
        ∧ (∀ i < 64, cget w'.blk i = if w.live.getLsbD i then BitVec.ofNat 8 r.block else cget w.blk i)
        ∧ w'.regs = { w.regs with nblk := w'.regs.nblk, mrp := 0 })
    ∧ (∀ va, w.stage = .entering → w.stalls = [] → w.trap = none → w.pend = [] → s.busy w = false → s.entryOf c l.p.image = .error (.bad va) →
      ∃ u r, exec (.waveStart w.key) s = .next u ∧ u.team? t.key = none ∧ u.fqHeld = s.fqHeld ++ [r] ∧ r.kind = 3 ∧ r.addr = l.p.image
        ∧ r.team = t.tix)
    ∧ (w.stage = .long → (∀ x ∈ w.stalls, x.peer = none ∧ (x.fault ≠ none ∨ x.trap ≠ none ∨ t.direct = false)) → w.pos < w.count →
      (∀ p ∈ w.pend, p.long = true → p.due ≤ w.pos → (∀ x ∈ w.stalls, x.op.pos ≠ p.pos) ∧
        ∀ j ∈ (s.core w.coreNo).mtx, ¬(j.wave = w.key ∧ j.pos = p.pos)) →
      after (.longLatencyComplete w.key) fun w' => w'.stage = .issue ∧ w'.pos = w.pos ∧ w'.regs = w.regs
        ∧ w'.pend.length = w.pend.length ∧ ∀ (i : Nat) (p : Pend), w.pend[i]? = some p → ∃ p' more, w'.pend[i]? = some p'
          ∧ p' = { p with effs := p.effs ++ more, completed := p'.completed } ∧ (w.late = [] → more = [])
          ∧ (p.due ≤ w.pos → p'.waits = false))
    ∧ (∀ tr, w.stage = .trap → w.trap = some tr → s.busy w = false → exec (.trapEntry w.key) s = .next (s.takeTrap w tr))
    ∧ (∀ i f x, w.frags[i]? = some f → f.blocked = some x →
      (match x with
        | .handle h => t.complete h = true
        | .tagAny m => m = 0 ∨ t.tags &&& m ≠ 0
        | .tagAll m => t.tags &&& m = m
        | .latch => (t.latch (w.wid / 2)).owner = some w.key ∨ (t.latch (w.wid / 2)).owner = none
        | .tkwait | .tkrel => ∀ k < t.tix, l.released.contains k = true ∨ l.voided.contains k = true
        | .bar _ => False
        | .mask m => ∀ k < 16, m.getLsbD k = true → t.complete (cget w.regs.h k) = true) →
      after (.waitSatisfied w.key i) fun w' => w'.regs = w.regs ∧ w'.frags.map Frag.mask = w.frags.map Frag.mask
        ∧ ∃ g, w'.frags[i]? = some g ∧ g.blocked = none ∧ g.held = f.held ∧ g.cp = f.cp
          ∧ g.past = if f.held ≠ none then some (t.passes x) else none)
    ∧ (∀ i f, w.frags[i]? = some f → f.blocked = some (.bar .core) → exec (.waitSatisfied w.key i) s = .next s)
    ∧ (w.stage = .ending → s.busy w = false → (t.latch (w.wid / 2)).owner ≠ some w.key →
      after (.waveEnd w.key) fun w' => w'.stage = .ended ∧ w'.regs = w.regs)

/-- R93, R94, R125: the selector starts a clause of a wave that has been ready longest, among the waves of the core whose next clause
has a class with none in progress; it begins at position 0, or at the Block instruction that its fragment stood at, or where ERET left the
fragment in it (R135, R250), with the team's w registers; a wave that stands inside its clause goes on there, with all that pends.
The model's own choices that it rests on are in the log: 76, 77, 78, 79, 169. -/
def Obligations.ClauseSelection : Prop :=
  ∀ (s : State) (core : Nat) (e : WEnv) (cl : Clause) (b : Option (List Byte)), s.troubled core = none →
    s.select core = some (e, cl, b) →
    (∀ n < 4, (cget s.ctl (0x210000 + 0x100 * core + 0x10 * n + 8)).getLsbD 0 = false) →
    (∃ t w', exec (.clauseStart core) s = .next t ∧ t.wave? e.w.key = some w' ∧ w'.clause = some cl
      ∧ (∀ k, k ≠ e.w.key → t.wave? k = s.wave? k) ∧ t.mem = s.mem
      ∧ (e.w.stage = .inside → w' = { e.w with stage := w'.stage, reason := w'.reason, stepped := w'.stepped }
        ∧ w'.stage = if e.w.pos < cl.count ∧ e.w.stalls = [] then .issue else .long)
      ∧ (e.w.stage = .ready → w'.regs = { e.w.regs with w := e.t.w } ∧ w'.lg = e.t.lg
        ∧ (b ≠ none → w'.pos = 0 ∧ w'.stage = if cl.count = 0 then .long else .issue)
        ∧ (b = none → ∀ f, e.w.frags[e.w.cur]? = some f →
          w'.yielded = f.yield
          ∧ (f.todo = none → w'.pos = cl.count - 1 ∧ w'.stage = if cl.count = 0 then .long else .issue)
          ∧ ∀ bits cont fml, f.todo = some (bits, cont, fml) →
            let rep := (List.range cl.count).filter bits.testBit
            w'.replay = rep ∧ w'.cont = cont ∧ w'.pos = rep.headD cont ∧ w'.redo = (if rep = [] then none else some fml)
            ∧ w'.stage = if rep.headD cont < cl.count then .issue else .long)))
    ∧ ((e, cl, b) ∈ s.readyWaves core) ∧ cl.cls.bits.toNat ∉ s.inProgress core ∧ (s.inProgress core).length < 4
    ∧ ∀ x ∈ s.readyWaves core, x.2.1.cls.bits.toNat ∉ s.inProgress core →
        x.1.w.age ≤ e.w.age

/-- R108 to R116: the vote gives each lane of the fragment its nblk as its block and puts the surviving lanes in fragments of their
states; with every lane halted and no fragment or caller left the wave ends; at a quantum's end the wave switches to the next runnable
fragment in list order; the first fragment past the park limit unparks.
The model's own choices that it rests on are in the log: 80, 81. -/
def Obligations.VoteAndQuantum : Prop :=
  ∀ (s : State) (w : Wave) (t : Team) (c : Ctx) (l : Launch) (f : Frag) (h : Header), s.wave? w.key = some w →
    s.team? w.team = some t → s.ctx? t.ctx = some c → s.launch? t.launch = some l → s.ready = true → s.dead = false → s.gated = false →
    w.place.isSome = true → (s.quad (w.coreNo / 4)).stopped = false → w.stepping = none → w.stalls = [] → w.frags[w.cur]? = some f →
    w.hdr = some h →
    let after (i : Instr) (P : Wave → Prop) : Prop := ∃ u w', exec i s = .next u ∧ u.wave? w.key = some w' ∧ P w'
      ∧ ∀ k, k ≠ w.key → (u.wave? k).map (fun x => { x with links := [] }) = (s.wave? k).map fun x => { x with links := [] }
    let halted (i : Nat) : Prop := (cget w.regs.nblk i).toNat = 255
    let voted (w' : Wave) : Prop := (∀ i < 64, cget w'.blk i = if f.mask.getLsbD i then cget w.regs.nblk i else cget w.blk i)
      ∧ w'.regs = w.regs ∧ w'.clause = none
    (w.stage = .vote → (∀ i < 64, f.mask.getLsbD i = true → halted i) → w.frags = [f] → (w.depth = 0 ∨ w.regs.ret = 0) →
      after (.vote w.key) fun w' => w'.stage = .ending ∧ w'.frags = [] ∧ voted w')
    ∧ (∀ m blk fs s', w.stage = .vote → m ≠ 0 → (∀ i < 64, m.getLsbD i = true ↔ f.mask.getLsbD i = true ∧ ¬halted i) →
      blk = csetAll w.blk ((lanesOf f.mask).map fun i => (i, cget w.regs.nblk i)) → s.form c w h blk m true = .ok (fs, s') →
      after (.vote w.key) fun w' => voted w' ∧ (w'.stage = .ready ∨ w'.stage = .quantum)
        ∧ w'.frags.map Frag.mask = (w.frags.take w.cur ++ fs ++ w.frags.drop (w.cur + 1)).map Frag.mask)
    ∧ (∀ i, w.stage = .quantum → (∀ g ∈ w.frags, g.parked = true → min 255 (g.age + 1) ≤ c.p) → i < w.frags.length →
      (∃ g : Frag, w.frags[(w.cur + 1 + i) % w.frags.length]? = some g ∧ g.parked = false ∧ g.blocked = none) →
      (∀ j < i, ∀ g : Frag, w.frags[(w.cur + 1 + j) % w.frags.length]? = some g → g.parked = true ∨ g.blocked ≠ none) →
      after (.quantumEnd w.key) fun w' => w'.stage = .ready ∧ w'.cur = (w.cur + 1 + i) % w.frags.length ∧ w'.regs = w.regs
        ∧ w'.frags.map (fun g => (g.mask, g.age)) = w.frags.map fun g => (g.mask, if g.parked then min 255 (g.age + 1) else g.age))
    ∧ (∀ (i : Nat) (g : Frag), (w.stage = .switch ∨ w.stage = .ready) → w.frags[i]? = some g → g.parked = true → c.p < g.age → g.blocked = none →
      (∀ j < i, ∀ x : Frag, w.frags[j]? = some x → x.parked = true → x.age ≤ c.p) →
      after (.unpark w.key) fun w' => w'.regs = w.regs ∧ w'.frags.map Frag.mask = w.frags.map Frag.mask
        ∧ ∃ x, w'.frags[i]? = some x ∧ x.parked = false ∧ x.age = 0)

/-- R197, R307, R309, R314, R327, R330 to R332: the engine performs the instruction at its head: MZERO zeroes its half and tags it zero,
CBWR writes one entry of its bank, CBCFG its configuration, CBINV empties it, MRSTL declares its restart label (R318); the job is gone. MMA and
MMAZ leave the tile that MatrixProduct says, and raise their flags (R313). A write of one half leaves the other raw when it held half of an f32
value (R309).
R315: MLD gives the rows from its start row on the values that it loads, rounded to the half's format, with the half's tag, and raises
their flags. R316, R317: MST stores those rows packed, each value rounded, in memory or in the team's log, and adds its flags and its amax
update, of all 64 rows, to its instruction's effects. R307: at a page fault in a row, the rows before it are done; a trap's fault word and
mrp are the row, and under STALL the job waits to go on with it, its flags kept.
The model's own choices that it rests on are in the log: 6, 34, 65, 67. -/
def Obligations.EnginePerforms : Prop :=
  ∀ (s : State) (core : Nat) (j : MtxJob) (w : Wave) (t : Team) (l : Launch) (c : Ctx), s.mtxJob? core = some j →
    s.wave? j.wave = some w → s.team? w.team = some t → s.launch? t.launch = some l → s.ctx? t.ctx = some c → s.ready = true →
    s.dead = false → s.gated = false → j.fault = none → j.trapped = false → (∀ x ∈ t.cmds, x.bank = none ∨ j.seq ≤ x.seq) →
    (∀ b, s.expanding t b = false) → (∀ n < 4, cget s.ctl (watchOff (quadOf core) n + 0x10) = 0) →
    let gone (u : State) : Prop := ∀ x ∈ (u.core core).mtx, x.seq ≠ j.seq
    let after (P : Team → Prop) : Prop := ∃ u tm, exec (.matrixEnginePerform core) s = .next u ∧ u.team? t.key = some tm ∧ P tm
      ∧ gone u ∧ u.mem = s.mem
    let banks (b : Fin 16) (P : Bank → Bank → Prop) : Prop := after fun tm => P (t.bank b.val) (tm.bank b.val)
      ∧ (∀ n, n ≠ b.val → tm.bank n = t.bank n) ∧ tm = { t with banks := tm.banks }
    let a : Actor := { core, c, t, l, who := none, staged := l.p.mode != 0 && !t.direct, key := j.wave, path := 1, known := j.known, via := j.peer }
    let space (sp : Bool) : Space := if sp then .sp else .gm
    let row (i : Nat) : DWord := j.a0 + BitVec.ofNat 64 i * j.a1
    let flags (l : List (Fl Nat)) : Flags := (l.map (·.2)).foldl (· ||| ·) 0
    -- the page fault of a row at an address, after the work of a state in which the rows before it are done
    let faults (stop : Nat) (va : DWord) (acc : Byte) (fl : Flags) (P : State → Prop) : Prop :=
      (c.trapPolicy = true → w.stalls = [] → ∃ S x tr, exec (.matrixEnginePerform core) s = .next (S.takeTrap x tr) ∧ P S
        ∧ x.key = w.key ∧ x.regs = { w.regs with mrp := BitVec.ofNat 7 stop }
        ∧ tr.cause = 0x06 ∧ tr.faddr = va ∧ tr.access = acc ∧ tr.fword = BitVec.ofNat 32 stop ∧ tr.pos = j.pos)
      ∧ (c.trapPolicy = false → ∃ u k x, exec (.matrixEnginePerform core) s = .next u ∧ P u ∧ x ∈ (u.core core).mtx
        ∧ x = { j with start := stop, flags := j.flags ||| fl, peer := none, fault := some k, page := va.toNat / 4096, va })
    -- tags after a write of a tile, or of a half with its tag
    let marked (h : Half) (tag : Nat) (x y : Tile) : Prop := match h with
      | .whole => y.lo = 1 ∧ y.hi = 1
      | .lo => y.lo = tag ∧ y.hi = if x.hi = 1 then 0 else x.hi
      | .hi => y.hi = tag ∧ y.lo = if x.lo = 1 then 0 else x.lo
    (∀ o : MZero, j.instr = .mzero o → o.tile.val < t.tiles.length → after fun tm => tm = { t with tiles := tm.tiles }
      ∧ (∀ n, n ≠ o.tile.val → tm.tile n = t.tile n) ∧ marked o.half 4 (t.tile o.tile.val) (tm.tile o.tile.val)
      ∧ ∀ k < 4096, let x := cget (t.tile o.tile.val).cells k; let y := cget (tm.tile o.tile.val).cells k
        match o.half with
          | .whole => y = 0
          | .lo => y = x &&& 0xFFFF0000
          | .hi => y = x &&& 0xFFFF)
    ∧ (∀ (o : Mma) (zero : Bool) (S : State) (sn : List Seen), j.instr = (if zero then .mmaz o else .mma o) →
        let left (u : State) : Prop := u.mem = s.mem ∧ u.team? t.key = S.team? t.key
        (∀ fl, (MtxEnv.mk s a w j).mma o zero = (S, sn, .done fl 0) → ∃ u w', exec (.matrixEnginePerform core) s = .next u ∧ left u ∧ gone u
          ∧ u.wave? w.key = some w' ∧ w'.regs = { w.regs with fflags := w.regs.fflags ||| (j.flags ||| fl) })
        ∧ ∀ r va fl, (MtxEnv.mk s a w j).mma o zero = (S, sn, .fault r (.flt .page va) fl) → faults r va 0x11 fl left)
    ∧ (∀ o : CbWr, j.instr = .cbwr o → o.bank.val < t.banks.length → banks o.bank fun x y =>
        y = { x with entries := cset x.entries (j.a0.toNat % 512) j.b0, gen := x.gen + 1, backing := .none })
    ∧ (∀ o : CbCfg, j.instr = .cbcfg o → o.bank.val < t.banks.length → banks o.bank fun x y =>
        y = { x with e := j.a0.extractLsb' 0 6, zero := j.a0.getLsbD 8, sticky := x.sticky && !j.a0.getLsbD 9 })
    ∧ (∀ o : CbInv, j.instr = .cbinv o → o.bank.val < t.banks.length → banks o.bank fun x y =>
        y = { x with entries := [], gen := x.gen + 1, backing := .empty })
    ∧ (∀ (o : MRstl) h b tiles, j.instr = .mrstl o → w.hdr = some h → s.restartEntry c w.img h o.entry.val = .ok (b, tiles) →
        tiles.toNat < 2 ^ l.p.ntiles →
        ∃ u w', exec (.matrixEnginePerform core) s = .next u ∧ u.wave? w.key = some w' ∧ gone u ∧ u.mem = s.mem
          ∧ w'.restart = (if tiles = 0 then none else some ⟨w.img, o.entry.val, w.depth, b, tiles⟩))
    ∧ (∀ (o : MLd) (bytes : Nat → List Byte) (stop : Nat), j.instr = .mld o → o.tile.val < t.tiles.length →
        (o.half = .whole ∨ o.fmt = .bf16x2 ∨ o.fmt = .f16x2) → j.start ≤ stop → stop ≤ 64 → (o.tr = true → stop = 64) →
        let n := 64 * o.fmt.ff.width / 8
        let out : FFmt := match o.half with | .whole => .f32 | _ => o.fmt.ff
        let el (i k : Nat) : FVal :=
          let p := if o.tr then (k, i) else (i, k)
          value o.fmt.ff (leNat (bytes p.1) / 2 ^ (o.fmt.ff.width * p.2) % 2 ^ o.fmt.ff.width)
        let res (i k : Nat) : Fl Nat := round out .rne false 0 (el i k)
        let fl (stop : Nat) : Flags := flags (((List.range stop).filter (j.start ≤ ·)).flatMap fun i => (List.range 64).map (res i))
        let loaded (tm : Team) : Prop := tm = { t with tiles := tm.tiles } ∧ (∀ n, n ≠ o.tile.val → tm.tile n = t.tile n)
          ∧ ∀ i k, k < 64 →
            let x := (cget (t.tile o.tile.val).cells (64 * i + k)).toNat
            let y := (cget (tm.tile o.tile.val).cells (64 * i + k)).toNat
            if j.start ≤ i ∧ i < stop then
              match o.half with
              | .whole => y = (res i k).1 % 2 ^ 32
              | .lo => y % 2 ^ 16 = (res i k).1 % 2 ^ 16 ∧ y / 2 ^ 16 = x / 2 ^ 16
              | .hi => y / 2 ^ 16 = (res i k).1 % 2 ^ 16 ∧ y % 2 ^ 16 = x % 2 ^ 16
            else y = x
        (∀ i < 64, (o.tr = true ∨ j.start ≤ i ∧ i < stop) → a.read s (space o.sp) (row i) n = .ok (bytes i)) →
        (stop = 64 → ∃ u w' tm, exec (.matrixEnginePerform core) s = .next u ∧ u.team? t.key = some tm ∧ loaded tm ∧ u.mem = s.mem ∧ gone u
          ∧ marked o.half (if o.fmt = .bf16x2 then 2 else 3) (t.tile o.tile.val) (tm.tile o.tile.val)
          ∧ u.wave? w.key = some w' ∧ w'.regs = { w.regs with fflags := w.regs.fflags ||| (j.flags ||| fl 64) })
        ∧ ∀ va, stop < 64 → a.read s (space o.sp) (row stop) n = .error (.page, va) → faults stop va 0x11 (fl stop) fun u =>
            u.mem = s.mem ∧ ∀ tm, u.team? t.key = some tm → loaded tm)
    ∧ (∀ (o : MSt) (bytes : Nat → List Byte) (ps : Nat → List Piece) (S : Nat → State) (stop : Nat), j.instr = .mst o →
        j.start ≤ stop → stop ≤ 64 →
        let tile := t.tile o.tile.val
        let f := o.fmt.ff
        let tag := match o.half with | .whole => if tile.lo = 1 then tile.hi else tile.lo | .lo => tile.lo | .hi => tile.hi
        let n := 64 * f.width / 8
        let el (i k : Nat) : FVal :=
          let x := (cget tile.cells (64 * i + k)).toNat
          match o.half with
          | .whole => value .f32 x
          | .lo => if tag = 4 then .fin false 0 0 else value (if tag = 2 then .bf16 else .f16) (x % 2 ^ 16)
          | .hi => if tag = 4 then .fin false 0 0 else value (if tag = 2 then .bf16 else .f16) (x / 2 ^ 16)
        let res (i k : Nat) : Fl Nat := round f o.rnd o.sat 0 (el i k)
        let pairs : List (Nat × Nat) := (List.range 64).flatMap fun i => (List.range 64).map fun k => (i, k)
        let fl : Flags := flags (pairs.map fun p => res p.1 p.2)
        let am : BitVec 33 := if o.amax then amaxOf (pairs.map fun p => el p.1 p.2) else 0
        let log : Bool := a.staged && !o.sp
        let es := (numberLog s.written
          (logWrites (((List.range stop).filter (j.start ≤ ·)).flatMap fun i => storePieces (ps i) (bytes i)) a.logTag)).1
        (match o.half with | .whole => tag = 1 | _ => tag = 2 ∨ tag = 3 ∨ tag = 4) →
        (∀ i < 64, (bytes i).length = n ∧ ∀ k < 64, leNat (bytes i) / 2 ^ (f.width * k) % 2 ^ f.width = (res i k).1 % 2 ^ f.width) →
        S j.start = s →
        (∀ i, j.start ≤ i → i < stop →
          a.place (S i) (space o.sp) .wr true false (row i) n (Config.peerAnswers (S i).nondet) = .ok (ps i)
          ∧ S (i + 1) = if log then s else (S i).storeAll (some (a.event false)) none (storePieces (ps i) (bytes i))) →
        (a.staged = true → t.log.length + (if log then es.length else 0) ≤ l.logCap) →
        let stored (u : State) : Prop := u.mem = (S stop).mem ∧ u.poison = (S stop).poison
          ∧ ∀ tm, u.team? t.key = some tm → tm.log = if log then t.log ++ es else t.log
        (stop = 64 → ∃ u w', exec (.matrixEnginePerform core) s = .next u ∧ stored u ∧ gone u ∧ u.wave? w.key = some w' ∧ w'.regs = w.regs
          ∧ w'.pend = w.pend.map fun p =>
            if p.pos = j.pos ∧ p.long = true then
              { p with effs := p.effs ++ ((if fl ||| j.flags = 0 then [] else [.flagsOr (fl ||| j.flags)])
                                          ++ if am = 0 then [] else [.amaxUpd am]) }
            else p)
        ∧ ∀ va, stop < 64 →
            a.place (S stop) (space o.sp) .wr true false (row stop) n (Config.peerAnswers (S stop).nondet) = .error (.page, va) →
            faults stop va 0x12 0 stored)

/-! ### Events of teams -/

/-- R77, R81 to R87, R97, R249: a barrier's release clears the arrivals of its scope and runs the fragments that waited on it; a team's
end frees its core and leaves its log to be applied; a log applied, where its entries meet no error, is what the team's own loads saw; a ticket passes in team order.
The model's own choices that it rests on are in the log: 82, 86, 87, 128. -/
def Obligations.TeamEvents : Prop :=
  ∀ (s : State), s.ready = true → s.dead = false → s.gated = false → s.trSize = 0 → (s.waves.map (·.key)).Nodup →
    let applied (u : State) (t : Team) : Prop := ∀ a, cget (w := 8) u.mem a = cget (w := 8) (t.view s.mem) a
    (∀ sc k unit l, s.launch? k = some l → (sc = .pod → l.p.podgrp = 0) → s.barReady sc l (s.barTeams sc l unit) = true →
      ∃ u l', exec (.barrierRelease sc k unit) s = .next u ∧ u.launch? l.key = some l' ∧ l'.phase sc unit = l.phase sc unit + 1
        ∧ ∀ w ∈ s.wavesOf (s.barTeams sc l unit), ∃ w', u.wave? w.key = some w' ∧ (w'.bar sc).arr = 0 ∧ (w'.bar sc).wait = 0
          ∧ (∀ f ∈ w'.frags, f.blocked ≠ some (.bar sc)) ∧ w'.regs = w.regs)
    ∧ (∀ k l, s.launch? k = some l → l.p.podgrp ≠ 0 → l.podSent = none → s.barReady .pod l (s.barTeams .pod l 0) = true →
      s.podRoot (l.p.podgrp - 1) ≠ s.podid → s.route (s.podRoot (l.p.podgrp - 1)) ≠ [] →
      ∃ u, exec (.barrierRelease .pod k 0) s = .next u
        ∧ u.outbox = s.outbox ++ [.podArrive (s.podRoot (l.p.podgrp - 1)) l.p.id.toNat (l.phase .pod 0) false])
    ∧ (∀ m id ph fin, m ≠ s.podid → (∀ a ∈ s.podArrs, ¬(a.mem = s.podid ∧ a.launchid = id)) →
      exec (.podArrival m id ph fin) s = .next { s with podArrs := s.podArrs ++ [{ mem := m, launchid := id, phase := ph, final := fin }] })
    ∧ (∀ id ph l, (s.launches.find? fun l => l.p.id.toNat == id && l.p.podgrp != 0 && l.podSent == some ph) = some l →
      ∃ u l', exec (.podRelease id ph) s = .next u ∧ u.launch? l.key = some l' ∧ l'.podSent = none
        ∧ l'.phase .pod 0 = l.phase .pod 0 + 1)
    ∧ (∀ t l, s.team? t.key = some t → s.launch? t.launch = some l → t.ended = false → t.saved = false → t.cmds = [] →
      t.core.isSome = true → (∀ w ∈ s.waves, w.team = t.key → w.stage = .ended) →
      (l.p.mode ≠ 2 → t.log = [] → t.rec_ = none → ∃ u, exec (.teamEnd t.key) s = .next u ∧ u.team? t.key = none
        ∧ (∀ w ∈ u.waves, w.team ≠ t.key) ∧ u.launch? l.key = some { l with finished := l.finished ++ [t.tix] } ∧ u.mem = s.mem)
      ∧ ((l.p.mode ≠ 2 ∧ t.log ≠ [] ∨ l.p.mode = 2 ∧ t.released = false ∧ l.holds t.tix = false) →
        ∃ u tm, exec (.teamEnd t.key) s = .next u ∧ u.team? t.key = some tm ∧ tm.ended = true ∧ tm.core = none ∧ tm.log = t.log
          ∧ (∀ w ∈ u.waves, w.team ≠ t.key) ∧ u.mem = s.mem))
    ∧ (∀ t l, s.team? t.key = some t → s.launch? t.launch = some l → s.LogApplies t →
      (t.ended = true → l.p.mode = 1 → t.rec_ = none → ∃ u, exec (.logApply t.key) s = .next u ∧ applied u t ∧ u.team? t.key = none
        ∧ u.launch? l.key = some { l with finished := l.finished ++ [t.tix] })
      ∧ (t.ended = false → l.p.mode = 2 → t.wantDirect = true → t.direct = false → l.holds t.tix = true →
        ∃ u, exec (.logApply t.key) s = .next u ∧ applied u t
          ∧ u.team? t.key = some { t with log := [], direct := true, wantDirect := false }))
    ∧ ∀ k l t, s.launch? k = some l → l.p.mode = 2 → (s.teams.find? fun t => t.launch == l.key && t.ended && l.holds t.tix) = some t →
      s.team? t.key = some t → t.released = false → t.rec_ = none → s.LogApplies t → ∃ u l', exec (.ticketRelease k) s = .next u ∧ applied u t
        ∧ u.team? t.key = none ∧ u.launch? l.key = some l' ∧ l'.released.contains t.tix = true ∧ l'.finished = l.finished ++ [t.tix]

/-! ### The arbiter and placement -/

/-- R67 to R75, R88 to R91, R24: a service places the lowest team of the candidate served on a core that passes the placement test, in
free wave slots and a free run of its scratchpad, with its waves at their start, and gives a copy a free engine; a co-resident launch
that does not fit is held, and its teams are placed at once; a queue unserved for 500 µs rises one level, at most to 6; a drain limit
saves each resident team as soon as it stands; a launch that restarts begins again at team 0.
The model's own choices that it rests on are in the log: 97, 98, 99, 100, 101, 138, 144, 145. -/
def Obligations.PlacementEvents : Prop :=
  ∀ (s : State), s.running = true →
    (∀ core l f, s.fits core l true = some f → (s.core core).held = none ∧ f.slots.length = l.p.waves ∧ f.slots.Nodup
      ∧ (∀ k ∈ f.slots, k < 16 ∧ ∀ x ∈ s.onCore core, k ∉ x.1.slots)
      ∧ (l.p.spbytes ≠ 0 → f.sp + roundUp4K l.p.spbytes ≤ 0x100000
        ∧ ∀ x ∈ s.onCore core, f.sp + roundUp4K l.p.spbytes ≤ x.1.spBase ∨ x.1.spBase + roundUp4K x.2.p.spbytes ≤ f.sp)
      ∧ (s.onCore core).foldl (fun n x => n + x.2.p.ntags) 0 + l.p.ntags ≤ 64
      ∧ (s.onCore core).foldl (fun n x => n + x.2.p.ntiles) 0 + l.p.ntiles ≤ 16
      ∧ (s.onCore core).foldl (fun n x => n + x.2.p.nbanks) 0 + l.p.nbanks ≤ 8)
    ∧ (∀ l s' n tix i, s.pick = some (.place l s' n) → l.p.co = false → l.p.affinity = false → s.launch? l.key = some l →
      nextDue (s.waiting l) = some (.fresh tix) → (∀ t ∈ s.teams, t.key < s.fresh) → (∀ w ∈ s.waves, w.key < s.fresh) →
      i = .arbiterServe ∨ i = .teamPlace l.key →
      ∃ u core f, exec i s = .next u ∧ core < 640 ∧ s.fits core l true = some f
        ∧ u.team? s.fresh = some
          { key := s.fresh, launch := l.key, ctx := l.ctx, tix, core := some core, slots := f.slots, spBase := f.sp
            logDie := core / 160, logBase := f.log, tiles := List.replicate l.p.ntiles {}, banks := List.replicate l.p.nbanks {}
            latches := if l.p.latch then List.replicate (l.p.waves / 2) {} else [], start := s.tick }
        ∧ u.launch? l.key = some { l with next := tix + 1, lastDie := some (core / 160) }
        ∧ (∀ k < l.p.waves, ∃ slot, f.slots[k]? = some slot ∧ u.wave? (s.fresh + 1 + k) = some
          { key := s.fresh + 1 + k, team := s.fresh, wid := k, place := some (16 * core + slot) })
        ∧ (∀ k < s.fresh, u.team? k = s.team? k ∧ (s.trSize = 0 → u.wave? k = s.wave? k)) ∧ (s.trSize = 0 → u.mem = s.mem)
        ∧ ∀ q, l.tt = none → s.queue? l.queue = some q → ∃ q', u.queue? l.queue = some q' ∧ q'.level = q.prio ∧ q'.unserved = 0
          ∧ q'.credit = (if q.credit = 0 then q.weight else q.credit) - 1)
    ∧ (∀ l s' n tix t c i, s.pick = some (.place l s' n) → l.p.co = false → l.p.affinity = false → s.launch? l.key = some l →
      nextDue (s.waiting l) = some (.saved tix t.key) → s.team? t.key = some t → s.ctx? l.ctx = some c → (s.waves.map (·.key)).Nodup →
      (∀ w ∈ s.waves, w.team = t.key → w.stalls = [] ∧ w.short = false ∧ w.restart = none ∧ w.area.length ≤ 4096 ∧ w.wid < l.p.waves) →
      t.toKill = false → c.mem < 2 ^ 55 → s.trSize = 0 → i = .arbiterServe ∨ i = .teamPlace l.key →
      ∃ u core f t', exec i s = .next u ∧ core < 640 ∧ s.fits core l false = some f ∧ u.team? t.key = some t' ∧ t' = { t with
          core := some core, slots := f.slots, spBase := f.sp, saved := false, resumes := t.resumes + 1, sp := [], rec_ := none, jobs := []
          banks := t'.banks, cmds := t'.cmds }
        ∧ t'.cmds.map (fun c => { c with orig := [] }) = t.cmds.map (fun c => { c with orig := [] })
        ∧ (∀ w ∈ s.waves, w.team = t.key → ∃ w' slot, f.slots[w.wid]? = some slot ∧ u.wave? w.key = some w'
          ∧ w' = { w with
              place := some (16 * core + slot), area := [], regs := w'.regs, links := w'.links, known := w'.known, frags := w'.frags
              stage := w'.stage }
          ∧ (w'.stage ≠ w.stage → w'.stage = .inside ∧ ∃ cl, w.clause = some cl ∧ (w.stage = .issue ∨ w.stage = .long))
          ∧ w'.frags.map (fun f => { f with spill := none }) = w.frags.map (fun f => { f with spill := none }) ∧ w'.regs.s = w.regs.s
          ∧ w'.regs.v = w.regs.v ∧ w'.regs.g = w.regs.g)
        ∧ ∀ a < l.p.spbytes, cget (w := 8) u.mem (spAddr core f.sp + a) = cget t.sp a)
    ∧ (∀ k e, s.pick = some (.copy k e) → e < 8 ∧ k ∈ s.copies ∧ k.engine = none ∧ (∀ y ∈ s.copies, y.engine ≠ some e)
      ∧ ∃ u, exec .arbiterServe s = .next u ∧ u.mem = s.mem ∧ u.copies = s.copies.map fun y =>
        if y.queue = k.queue ∧ y.idx = k.idx then { k with engine := some e } else y)
    ∧ (∀ l, s.pick = some (.hold l) → l.p.co = true ∧ s.service l = none ∧ exec .arbiterServe s = .next (s.putLaunch { l with hold := true }))
    ∧ (∀ l s' n, s.gangReady = some (l, s', n) → l.p.co = true → s.launch? l.key = some l → l.redo = [] → l.next ≤ l.p.teams →
      (∀ t ∈ s.teams, t.launch = l.key → t.saved = false) →
      ∃ u l', exec .gangPlace s = .next u ∧ u.launch? l.key = some l' ∧ l'.hold = false ∧ l'.next = l.p.teams)
    ∧ (∀ q, s.queue? q.id = some q → ∃ u, exec .aging s = .next u ∧ u.mem = s.mem ∧ u.queue? q.id = some
      (if 500 * 1100 ≤ q.unserved ∧ s.offers q.id = true then
        { q with level := min 6 (q.level + 1), unserved := q.unserved - 500 * 1100 } else q))
    ∧ (∀ c p t l, s.ctxs = [c] → c.preempt = some p → p.left = 0 → s.resident c.id = [t] → s.team? t.key = some t →
      s.launch? t.launch = some l →
      (s.teamSavable t = false → exec .drainLimit s = .next (s.putTeam { t with toSave := true }))
      ∧ (s.teamSavable t = true → s.poison = [] → ∃ u t', exec .drainLimit s = .next u ∧ u.team? t.key = some t' ∧ t'.saved = true ∧ t'.core = none
        ∧ t'.slots = [] ∧ t'.tags = t.tags ∧ t'.w = t.w ∧ t'.log = t.log
        ∧ t'.cmds.map (fun c => { c with orig := [] }) = t.cmds.map (fun c => { c with orig := [] }) ∧ (∀ w ∈ u.waves, w.team = t.key → w.place = none)
        ∧ (t'.rec_ ≠ none → ∀ i < l.p.spbytes,
          cget t'.sp i = cget (w := 8) s.mem (spAddr (t.core.getD 0) t.spBase + i))))
    ∧ ∀ l, (s.launches.find? fun l => l.restarting && !s.teams.any fun t => t.launch == l.key) = some l →
      ∃ u, exec .launchRestart s = .next u ∧ u.teams = s.teams ∧ u.mem = s.mem ∧ u.launch? l.key = some
        { l with next := 0, redo := [], finished := [], released := [], voided := [], restarts := l.restarts + 1, restarting := false
                 lastDie := none, phases := [], groups := [], known := [] }

/-! ### User queues -/

/-- R45 to R50, R52 to R56, R24, R60: doorbells, the consumption of packets with their checks, and each packet's effect when it starts
and when it completes. A SIGNAL whose vector is masked waits with its message, and one whose table entry names no
host address (R21) sends none.
The model's own choices that it rests on are in the log: 88, 89, 90, 91, 92, 94, 96, 134, 143. -/
def Obligations.QueueEvents : Prop :=
  ∀ (s : State) (x : Queue) (c : Ctx), s.running = true → s.queue? x.id = some x → s.ctx? x.ctx = some c →
    let goes (i : Instr) (P : State → Queue → Prop) : Prop := ∃ u x', exec i s = .next u ∧ u.queue? x.id = some x' ∧ P u x'
    let drawn (S : State) : State := { S with nondet := S.nondet + 1 }
    let ended (i : Nat) (x' : Queue) : Prop := x'.lastDone = i ∧ x'.lastTick = s.tick ∧ ∀ p ∈ x'.pkts, p.i ≠ i
    (∀ v : DWord, exec (.doorbellWidx x.id v false) s = .next s ∧ (x.st = .ok →
        (x.widx.toNat ≤ v.toNat → v.toNat ≤ x.ridx + 2 ^ x.n → exec (.doorbellWidx x.id v true) s = .next (s.putQueue { x with widx := v }))
        ∧ (v.toNat < x.widx.toNat → exec (.doorbellWidx x.id v true) s = .next s)
        ∧ (x.widx.toNat ≤ v.toNat → x.ridx + 2 ^ x.n < v.toNat → goes (.doorbellWidx x.id v true) fun u x' =>
          x' = { x with st := .error 6 } ∧ ∃ r, u.fqHeld = s.fqHeld ++ [r] ∧ r.kind = 4 ∧ r.code = 6 ∧ r.queue = x.id)))
    ∧ (∀ b, x.st = .ok → x.fault = none → x.destroy ≠ some true → x.wbDue = false → x.peer = none → x.ridx < x.widx.toNat →
      s.pkgRead c (x.ring + BitVec.ofNat 64 (64 * (x.ridx % 2 ^ x.n))) 64 = .ok b →
      goes (.packetConsume x.id) fun u x' =>
        (s.packetBad b = none → x'.ridx = x.ridx + 1
          ∧ x'.pkts = x.pkts ++ [{ i := x.ridx, bytes := b, seen := s.tick }])
        ∧ ∀ k, s.packetBad b = some k → x' = { x with st := .error k } ∧ ∃ r, u.fqHeld = s.fqHeld ++ [r] ∧ r.kind = 4 ∧ r.code = k)
    ∧ (∀ b, b.length = 64 → 5 < bnat b 0 1 → s.packetBad b = some 1)
    ∧ (∀ p, x.next? = some p →
      (p.op = 0 → goes (.nopPacket x.id) fun _ x' => ended p.i x')
      ∧ (p.op = 1 → goes (.launch x.id) fun u x' => (∃ y ∈ x'.pkts, y.i = p.i ∧ y.started = true)
        ∧ u.launches = s.launches ++ [{ key := s.fresh, ctx := c.id, queue := x.id, idx := p.i, tt := none, p := LaunchPkt.of p.bytes }])
      ∧ (p.op = 2 → goes (.copy x.id) fun u x' => (∃ y ∈ x'.pkts, y.i = p.i ∧ y.started = true)
        ∧ u.copies = s.copies ++ [{
          queue := x.id, idx := p.i, ctx := c.id, src := BitVec.ofNat 64 (bnat p.bytes 8 8), dst := BitVec.ofNat 64 (bnat p.bytes 16 8)
          len := bnat p.bytes 24 8, sig := BitVec.ofNat 64 (bnat p.bytes 32 8), sigval := BitVec.ofNat 64 (bnat p.bytes 40 8)
          fill := decide (bnat p.bytes 48 1 % 2 = 1) }])
      ∧ (p.op = 4 → goes (.wait x.id) fun _ x' => ∃ y ∈ x'.pkts, y.i = p.i ∧ y.started = true ∧ y.tick = s.tick ∧ y.clk = s.clock))
    ∧ (∀ S y p ps old, s.pktFor x.id 3 = some (c, S, y, p) → p.peer = none →
      let add := bnat p.bytes 24 1 = 1
      let v : DWord := BitVec.ofNat 64 (bnat p.bytes 16 8)
      let irq := bnat p.bytes 25 1 % 2 = 1
      let k := 2048 * s.linkFor (firstPa ps) + bnat p.bytes 26 2
      let entry := (s.msixTab.find? fun y => y.k == k).getD ⟨k, 0, 0⟩
      S.pkgPieces c (if bnat p.bytes 24 1 == 1 then .atom else .wr) (BitVec.ofNat 64 (bnat p.bytes 8 8)) 8 = .ok ps →
      (add → readPieces S.poison S.mem ps = .ok old) → goes (.signal x.id) fun u x' =>
        (add → u.mem = (S.putPieces ps (bvBytes 8 (BitVec.ofNat 64 (leNat old) + v))).mem)
        ∧ (¬add → u.mem = (S.putPieces ps (bvBytes 8 v)).mem)
        ∧ (¬irq ∨ s.unmasked.contains k = true → ended p.i x')
        ∧ (irq → s.unmasked.contains k = true → ∃ flits, u.outbox = S.outbox ++ flits
            ++ (if entry.addr.toNat < 2 ^ 52 then [.msix (k / 2048) (k % 2048) entry.addr entry.data] else [])
          ∧ (s.links = [] → flits = []))
        ∧ (irq → s.unmasked.contains k = false → ∃ z ∈ x'.pkts, z = { p with msg := some k, peer := none }))
    ∧ (∀ S T y p, s.pktFor x.id 5 = some (c, S, y, p) → p.peer = none →
      (drawn S).pkgWrite c (BitVec.ofNat 64 (bnat p.bytes 8 8)) (le 8 p.tick ++ le 8 (p.tai / 2 ^ 32)) = .ok T →
      goes (.timestamp x.id) fun u x' => ended p.i x' ∧ u.mem = T.mem)
    ∧ (∀ p b, x.waiting = some p → p.fault = none → p.peer = none → s.pkgRead c (BitVec.ofNat 64 (bnat p.bytes 8 8)) 8 = .ok b →
      let m : DWord := BitVec.ofNat 64 (bnat p.bytes 24 8)
      let w : DWord := BitVec.ofNat 64 (leNat b) &&& m
      let r : DWord := BitVec.ofNat 64 (bnat p.bytes 16 8) &&& m
      let holds : Prop := match bnat p.bytes 32 1 with
        | 0 => w = r | 1 => w ≠ r | 2 => r.toNat ≤ w.toNat | 3 => w.toNat < r.toNat | 4 => r.toInt ≤ w.toInt | _ => w.toInt < r.toInt
      goes (.waitPoll x.id) fun u x' => u.mem = s.mem ∧ (holds → ended p.i x') ∧ (¬holds → x'.pkts.map Pkt.i = x.pkts.map Pkt.i
        ∧ x'.lastDone = x.lastDone))
    ∧ (∀ p, (s.queues.map (·.id)).Nodup → x.waiting = some p → bnat p.bytes 36 4 ≠ 0 →
      p.clk + bnat p.bytes 36 4 * 1100 ≤ s.clock → goes .waitTimeout fun _ x' => x'.st = .error 9)
    ∧ (∀ k : PkgCopy, k.queue = x.id → k.ctx = c.id → (s.copies.find? fun y => y.queue == x.id && y.idx == k.idx) = some k →
      k.engine.isSome = true → k.fault = none → k.peer = none →
      (∀ b ps, 0 < k.len - k.done → k.len - k.done ≤ 256 → (drawn s).copySource c k (k.len - k.done) = .ok b →
        (drawn s).pkgPieces c .wr (k.dst + BitVec.ofNat 64 k.done) (k.len - k.done) = .ok ps →
        goes (.copyPacketComplete x.id k.idx) fun u _ => u.mem = (s.putPieces ps b).mem
          ∧ ∃ k', (u.copies.find? fun y => y.queue == x.id && y.idx == k.idx) = some k' ∧ k'.done = k.len)
      ∧ (k.len ≤ k.done → k.sig = 0 → goes (.copyPacketComplete x.id k.idx) fun u x' => ended k.idx x' ∧ u.mem = s.mem
        ∧ u.copies = s.copies.filter fun y => !(y.queue == x.id && y.idx == k.idx))
      ∧ (∀ T, k.len ≤ k.done → k.sig ≠ 0 → (drawn s).pkgWrite c k.sig (bvBytes 8 k.sigval) = .ok T →
        goes (.copyPacketComplete x.id k.idx) fun u x' => ended k.idx x' ∧ u.mem = T.mem))
    ∧ (∀ l, l.queue = x.id → l.ctx = c.id → l.tt = none → l.p.podgrp = 0 → s.launch? l.key = some l → s.launchEnded l = true →
      l.fault = none → l.peer = none →
      (l.p.sigaddr = 0 → goes (.launchComplete l.key) fun u x' => ended l.idx x' ∧ u.launch? l.key = none ∧ u.mem = s.mem)
      ∧ (∀ ps, l.p.sigaddr ≠ 0 → (drawn s).pkgPieces c .wr l.p.sigaddr 32 = .ok ps →
        goes (.launchComplete l.key) fun u x' => ended l.idx x' ∧ u.launch? l.key = none
          ∧ u.mem = (s.putPieces ps (bvBytes 8 l.p.sigval
            ++ le 4 (if l.aborted then 3 else if l.error then 2 else if l.voided ≠ [] then 1 else 0)
            ++ le 4 (l.reruns + l.restarts) ++ le 4 l.voided.length
            ++ le 4 (if l.voided = [] then 0xFFFFFFFF else lowest l.voided 0xFFFFFFFF) ++ le 8 s.tick)).mem))

/-! ### The admin queue -/

/-- R55, R56, R88, R92, R130, R150, R151, R162: the admin packets of contexts, queues, translation and pre-emption. Each completes with
its status word, error code 0, and the next read index; one of an opcode that no admin packet has completes with code 1.
The model's own choices that it rests on are in the log: 36, 102, 103, 104, 151. -/
def Obligations.AdminContextEvents : Prop :=
  ∀ (s : State) (b : List Byte), s.running = true → bnat b 56 8 / 8 * 8 + 8 ≤ 2 ^ 52 →
    let stopped (i : Instr) (code : Nat → Prop) : Prop := ∃ u, exec i s = .next u ∧ u.admRidx = s.admRidx + 1 ∧ u.adm = none
      ∧ code (mnat u.mem (hostPa (bnat b 56 8 / 8 * 8)) 8) ∧ u.ctxs = s.ctxs ∧ u.queues = s.queues ∧ u.teams = s.teams
      ∧ u.timetable = s.timetable ∧ u.apertures = s.apertures ∧ u.tai = s.tai
    let done (i : Instr) (code : Nat) (P : State → Prop) : Prop := ∃ u, exec i s = .next u ∧ u.admRidx = s.admRidx + 1 ∧ u.adm = none
      ∧ mnat u.mem (hostPa (bnat b 56 8)) 8 = code ∧ P u
    let pkt (op : Nat) : Prop := s.admNext = some b ∧ bnat b 0 1 = op ∧ headBad b = false
    let ctx := bnat b 8 2
    (∀ i ∈ [Instr.ctxCreate, .ctxDestroy, .queueCreate, .queueDestroy, .setRange, .setPtbase, .setAperture, .preempt, .preemptResume,
        .timetableSet, .timeSet, .timeOffset, .timeRate, .setAtPps, .icinvBroadcast, .traceConfig, .retry, .faultReplyTrap, .kill,
        .releaseCore], s.admNext = some b → (bnat b 0 1 < 0x80 ∨ 0x8C < bnat b 0 1) → stopped i (· = 1))
    ∧ (bnat b 56 8 % 8 ≠ 0 → s.adm = none → ∀ x ∈ [(0x80, Instr.ctxCreate), (0x81, .ctxDestroy), (0x82, .queueCreate), (0x83, .queueDestroy),
        (0x84, .setRange), (0x85, .setPtbase), (0x86, .setAperture), (0x87, .preempt), (0x87, .preemptResume), (0x88, .timetableSet),
        (0x89, .timeSet), (0x89, .timeOffset), (0x89, .timeRate), (0x89, .setAtPps), (0x8A, .icinvBroadcast), (0x8B, .traceConfig),
        (0x8C, .retry), (0x8C, .faultReplyTrap), (0x8C, .kill), (0x8C, .releaseCore)], s.admNext = some b → bnat b 0 1 = x.1 →
        (headBad b = true → stopped x.2 (· = 2)) ∧ stopped x.2 fun code => 2 ≤ code ∧ code ≤ 4)
    ∧ (bnat b 56 8 % 8 ≠ 0 → pkt 0x81 → bzero b 10 46 = true → stopped .ctxDestroy (· = 4))
    ∧ (bnat b 56 8 % 8 = 0 →
    (pkt 0x80 → (∀ x ∈ ctxCreateChk s b, x.1 = false) → done .ctxCreate 0 fun u => ∃ c, u.ctx? ctx = some c
        ∧ (∀ k, k ≠ ctx → u.ctx? k = s.ctx? k) ∧ c.id = ctx ∧ c.pasid = bnat b 12 4 ∧ c.mem = bnat b 16 8
        ∧ c.trapImg = BitVec.ofNat 64 (bnat b 24 8) ∧ c.trapPolicy = decide (bnat b 32 1 % 2 = 1) ∧ c.checked = decide (bnat b 32 1 / 2 % 2 = 1)
        ∧ c.drain = (if bnat b 36 4 = 0 then 100 else bnat b 36 4) ∧ c.q = (if bnat b 40 1 = 0 then 8 else bnat b 40 1)
        ∧ c.p = (if bnat b 41 1 = 0 then 4 else bnat b 41 1) ∧ c.ranges = [] ∧ c.root = none ∧ c.preempt = none ∧ c.stopped = false
        ∧ c.poolbase = mnat s.mem (bnat b 16 8) 8 ∧ c.poolsize = mnat s.mem (bnat b 16 8 + 8) 8)
    ∧ (pkt 0x80 → bzero b 10 2 = true → bnat b 12 4 < 2 ^ 20 → bnat b 32 1 < 4 → bzero b 33 3 = true → bzero b 42 14 = true → ctx ≤ 1023 →
        bnat b 41 1 ≠ 255 → State.ctxMemOk (bnat b 16 8) = true → bzero (mbytes s.mem (bnat b 16 8) 4096) 32 4064 = true →
        0x2801000 ≤ mnat s.mem (bnat b 16 8) 8 → mnat s.mem (bnat b 16 8) 8 % 4096 = 0 → mnat s.mem (bnat b 16 8 + 8) 8 % 4096 = 0 →
        bnat b 16 8 % 4096 = 0 → s.poison = [] → s.ctx? ctx ≠ none → done .ctxCreate 10 fun u => u.ctxs = s.ctxs)
    ∧ (pkt 0x81 → bzero b 10 46 = true → (∀ q ∈ s.queues, q.ctx ≠ ctx) → s.timetable = [] → s.ctx? ctx ≠ none →
        done .ctxDestroy 0 fun u => (∀ k, u.ctx? k = if k = ctx then none else s.ctx? k) ∧ ∀ a ∈ u.apertures, a.ctx ≠ ctx)
    ∧ (pkt 0x82 → bzero b 12 4 = true → bzero b 35 1 = true → bzero b 38 18 = true → 1 ≤ bnat b 8 2 → bnat b 8 2 ≤ 4095 →
        6 ≤ bnat b 32 1 → bnat b 32 1 ≤ 16 → bnat b 33 1 ≤ 6 → bnat b 34 1 ≠ 0 → bnat b 36 2 ≠ 1 → bnat b 36 2 ≤ 2047 →
        bnat b 16 8 % 4096 = 0 → bnat b 24 8 % 8 = 0 → s.queue? (bnat b 8 2) = none → s.ctx? (bnat b 10 2) ≠ none →
        done .queueCreate 0 fun u => u.queue? (bnat b 8 2) = some {
          id := bnat b 8 2, ctx := bnat b 10 2, ring := BitVec.ofNat 64 (bnat b 16 8), wb := BitVec.ofNat 64 (bnat b 24 8), n := bnat b 32 1
          prio := bnat b 33 1, weight := bnat b 34 1, vec := bnat b 36 2, level := bnat b 33 1 })
    ∧ (∀ q : Queue, pkt 0x83 → bnat b 10 1 ≤ 1 → bzero b 11 45 = true → s.queue? (bnat b 8 2) = some q →
        (bnat b 10 1 = 0 → exec .queueDestroy s = .next ({ s with adm := some b }.putQueue { q with destroy := some false }))
        ∧ (bnat b 10 1 = 1 → (s.launches.map (·.key)).Nodup → ∃ u, exec .queueDestroy s = .next u ∧ u.adm = some b
          ∧ u.queue? q.id = some { q with destroy := some true, pkts := q.pkts.filter fun p => p.started && p.op != 4 }
          ∧ ∀ l ∈ s.launches, l.queue = q.id → l.tt = none → (∀ t ∈ u.teams, t.launch ≠ l.key)
            ∧ ∃ l', u.launch? l.key = some l' ∧ l'.aborted = true))
    ∧ (∀ q : Queue, s.adm = some b → bnat b 0 1 = 0x83 → s.queue? (bnat b 8 2) = some q → (∀ l ∈ s.launches, l.queue ≠ q.id) →
        (∀ k ∈ s.copies, k.queue ≠ q.id) → (q.destroy = some true ∨ q.pkts = [] ∧ q.widx.toNat ≤ q.ridx) →
        done .queueDestroy 0 fun u => ∀ k, u.queue? k = if k = q.id then none else s.queue? k)
    ∧ (∀ c : Ctx, pkt 0x84 → bzero b 11 1 = true → bnat b 12 4 < 64 → bzero b 40 16 = true → bnat b 10 1 ≤ 15 → bnat b 16 8 % 4096 = 0 →
        (bnat b 24 8 + 1) % 4096 = 0 → s.ctx? ctx = some c → done .setRange 0 fun u => ∃ c', u.ctx? ctx = some c'
          ∧ c' = { c with ranges := c'.ranges } ∧ (∀ x ∈ u.tlb, x.ctx ≠ ctx) ∧ ∀ n, c'.ranges.find? (fun r => r.n == n) = if n = bnat b 10 1 then some {
            n := bnat b 10 1, base := BitVec.ofNat 64 (bnat b 16 8), limit := BitVec.ofNat 64 (bnat b 24 8)
            offset := BitVec.ofNat 64 (bnat b 32 8), attrs := BitVec.ofNat 32 (bnat b 12 4) } else c.ranges.find? fun r => r.n == n)
    ∧ (∀ c : Ctx, pkt 0x85 → bzero b 10 6 = true → bzero b 24 32 = true → bnat b 16 8 % 4096 = 0 → s.ctx? ctx = some c →
        done .setPtbase 0 fun u => u.ctx? ctx = some { c with root := some (bnat b 16 8) } ∧ ∀ x ∈ u.tlb, x.ctx ≠ ctx)
    ∧ (pkt 0x86 → bnat b 8 1 ≤ 31 → s.ctx? (bnat b 10 2) ≠ none →
        (bnat b 9 1 = 0 → done .setAperture 0 fun u => u.apertures = s.apertures.filter fun a => a.n != bnat b 8 1)
        ∧ (1 ≤ bnat b 9 1 → bnat b 9 1 ≤ 4 → paramReserved (bnat b 9 1) (bnat b 12 4) = false → apertureBad (apertureOf b) = false →
          done .setAperture 0 fun u => u.apertures = (s.apertures.filter fun a => a.n != bnat b 8 1) ++ [{
            n := bnat b 8 1, kind := bnat b 9 1, ctx := bnat b 10 2, param := BitVec.ofNat 32 (bnat b 12 4)
            base := BitVec.ofNat 64 (bnat b 16 8), size := BitVec.ofNat 64 (bnat b 24 8), bufA := BitVec.ofNat 64 (bnat b 32 8)
            bufB := BitVec.ofNat 64 (bnat b 40 8), pitch := BitVec.ofNat 64 (bnat b 48 8) }]))
    ∧ ∀ c : Ctx, s.ctx? ctx = some c →
        (pkt 0x87 → bnat b 10 1 < 4 → bzero b 11 45 = true →
          (bnat b 10 1 % 2 = 0 → c.stopped = false → exec .preempt s = .next ({ s with adm := some b }.putCtx { c with
            stopped := true
            preempt := some { left := if bnat b 10 1 / 2 = 1 then 0 else c.drain * 1100, forced := decide (bnat b 10 1 / 2 = 1) } }))
          ∧ (bnat b 10 1 % 2 = 1 → done .preemptResume 0 fun u => u.ctx? ctx = some { c with stopped := false, preempt := none }))
        ∧ (s.adm = some b → bnat b 0 1 = 0x87 → (∀ t ∈ s.teams, t.ctx = ctx → t.core = none) →
          done .preemptDrained 0 fun u => u.ctx? ctx = some { c with preempt := none }))

/-- R43, R44, R56, R57, R59, R61 to R63, R213: the admin packets of time, the timetable, caches, trace and replies; the timetable's slots
and PPS edges; fault records written; invalidations and page responses of the host.
The model's own choices that it rests on are in the log: 105, 106, 107, 108, 112, 136, 148, 149, 150. -/
def Obligations.AdminTimeAndFaultEvents : Prop :=
  ∀ (s : State) (b : List Byte), s.running = true → bnat b 56 8 % 8 = 0 → bnat b 56 8 + 8 ≤ 2 ^ 52 →
    let done (i : Instr) (P : State → Prop) : Prop := ∃ u, exec i s = .next u ∧ u.admRidx = s.admRidx + 1 ∧ u.adm = none
      ∧ mnat u.mem (hostPa (bnat b 56 8)) 8 = 0 ∧ P u
    let pkt (op : Nat) : Prop := s.admNext = some b ∧ bnat b 0 1 = op ∧ headBad b = false
    let now := s.taiNs.toNat
    let v : DWord := BitVec.ofNat 64 (bnat b 16 8)
    let reply (act : Nat) (x : OpenFault) : Prop := pkt 0x8C ∧ bzero b 13 1 = true ∧ bzero b 16 40 = true ∧ bnat b 12 1 = act
      ∧ (s.fqOpen.find? fun x => x.id == bnat b 8 4) = some x
    let fires (e : TtEntry) (slot : Nat) (u : State) : Prop := ∀ q : Queue, ∀ a p, s.queue? e.queue = some q → s.phys e.pkt = some a →
      localOk a = true → readAt s.poison s.mem a 64 = .ok p → bnat p 0 1 = 1 → s.launchBad p = none →
      u.launches = s.launches ++ [{ key := s.fresh, ctx := q.ctx, queue := q.id, idx := 0, tt := some e.n, slotTime := slot, p := LaunchPkt.of p }]
        ∧ (cget u.fires e.n).toNat = min ((cget s.fires e.n).toNat + 1) (2 ^ 64 - 1) ∧ u.skips = s.skips
        ∧ ∀ x ∈ u.timetable, x.n = e.n → x.pending = none
    (pkt 0x88 → bzero b 12 4 = true → bzero b 40 16 = true →
        (bnat b 9 1 = 0 → done .timetableSet fun u => u.timetable = s.timetable.filter fun e => e.n != bnat b 8 1)
        ∧ ((bnat b 9 1 = 1 ∨ bnat b 9 1 = 2) → 10000 ≤ bnat b 16 8 → bnat b 32 8 % 64 = 0 → s.queue? (bnat b 10 2) ≠ none →
          done .timetableSet fun u => ∃ next, u.timetable = (s.timetable.filter fun e => e.n != bnat b 8 1) ++ [{
              n := bnat b 8 1, policy := bnat b 9 1, queue := bnat b 10 2, period := bnat b 16 8, phase := bnat b 24 8, pkt := bnat b 32 8
              next }]
            ∧ now ≤ next ∧ bnat b 24 8 ≤ next ∧ (next - bnat b 24 8) % bnat b 16 8 = 0
            ∧ (next = bnat b 24 8 ∨ next < now + bnat b 16 8)))
    ∧ (pkt 0x89 → bzero b 9 7 = true → bzero b 24 32 = true →
        (bnat b 8 1 = 0 → done .timeSet fun u => u.taiNs = v ∧ u.tai % 2 ^ 32 = 0 ∧ ∀ e ∈ u.timetable, e.period ≠ 0 → v.toNat ≤ e.next)
        ∧ (bnat b 8 1 = 1 → done .timeOffset fun u => u.taiNs = s.taiNs + v ∧ u.tai % 2 ^ 32 = s.tai % 2 ^ 32)
        ∧ (bnat b 8 1 = 2 → done .timeRate fun u =>
          u.taiRate.toInt = max (-(500000 * 65536)) (min (500000 * 65536) v.toInt) ∧ u.tai = s.tai)
        ∧ (bnat b 8 1 = 3 → exec .setAtPps s = .next { s with adm := some b, ppsSet := some (v, bnat b 56 8) }))
    ∧ ((∀ t, s.ppsLast = some t → t + 550000000 ≤ s.tick) →
        ((s.ppsSet = none ∨ s.adm = none) →
          exec .ppsEdge s = .next { s with ppsLast := some s.tick, ppsTick := BitVec.ofNat 64 s.tick, ppsTai := s.taiNs })
        ∧ (∀ x, s.ppsSet = some x → s.adm = some b → done .ppsEdge fun u => u.taiNs = x.1 ∧ u.ppsTai = x.1 ∧ u.ppsSet = none
          ∧ u.ppsTick = BitVec.ofNat 64 s.tick ∧ u.ppsLast = some s.tick))
    ∧ (∀ t, s.ppsLast = some t → s.tick < t + 550000000 → exec .ppsEdge s = .next s)
    ∧ (pkt 0x8A → bzero b 9 3 = true → bzero b 16 40 = true →
        let n := bnat b 12 4
        let within (core : Nat) : Prop := match bnat b 8 1 with
          | 0 => core = n | 1 => core / 4 = n | 2 => core / 160 = n | _ => True;
        (bnat b 8 1 = 0 ∧ n < 640 ∨ bnat b 8 1 = 1 ∧ n < 160 ∨ bnat b 8 1 = 2 ∧ n < 4 ∨ bnat b 8 1 = 3) →
          done .icinvBroadcast fun u => (∀ k ∈ u.cores, within k.id → k.lines = [] ∧ k.sc = [])
            ∧ ∀ q ∈ u.quads, ∀ p < 4, within (4 * q.id + p) → q.lines = [])
    ∧ (pkt 0x8B → bzero b 32 24 = true → bnat b 24 8 / 2 ^ 6 % 4 = 0 → bnat b 24 8 / 2 ^ 13 % 8 = 0 → bnat b 24 8 / 2 ^ 42 % 64 = 0 →
        bnat b 24 8 < 2 ^ 49 → bnat b 8 8 % 4096 = 0 → bnat b 16 8 % 4096 = 0 → 0x10000 ≤ bnat b 16 8 →
        bnat b 16 8 ≤ 0x40000000 → 6 ≤ bnat b 24 8 / 256 % 32 → bnat b 24 8 / 256 % 32 ≤ 20 →
        done .traceConfig fun u => u.trAddr = bnat b 8 8 ∧ u.trSize = bnat b 16 8 ∧ u.trMask = BitVec.ofNat 64 (bnat b 24 8) ∧ u.trTail = 0
          ∧ u.trHead = 0)
    ∧ (∀ x, reply 0 x → x.kind ≠ 7 → s.waitsOn x.key = true → s.stallsOn x.key = [] →
        done .retry fun u => u.waitsOn x.key = false ∧ u.fqOpen = s.fqOpen.filter fun y => y.key != x.key)
    ∧ (∀ x w y, reply 0 x → x.kind ≠ 7 → s.stallsOn x.key = [(w, y)] → w.place = none → s.wave? w.key = some w →
        done .retry fun u => ∃ w', u.wave? w.key = some w' ∧ w'.regs = w.regs ∧ { y with fault := none, reply := some .retry } ∈ w'.stalls)
    ∧ (∀ x w y, reply 1 x → x.kind ≠ 7 → s.stallsOn x.key = [(w, y)] → w.place = none → s.wave? w.key = some w →
        (∀ l ∈ s.launches, l.fault ≠ some x.key) →
        done .faultReplyTrap fun u => ∃ w', u.wave? w.key = some w' ∧ w'.regs = w.regs
          ∧ { y with fault := none, reply := some .trap } ∈ w'.stalls)
    ∧ (∀ x t c, reply 1 x → x.kind ≠ 7 → s.stallsOn x.key = [] → s.team? t.key = some t → t.cmds = [c] → c.fault = some x.key →
        c.install = none → (∀ l ∈ s.launches, l.fault ≠ some x.key) → done .faultReplyTrap fun u => ∃ tm, u.team? t.key = some tm ∧ tm.cmds = []
          ∧ (c.cancel = true → (tm.tag c.tag).status = 2)
          ∧ (c.cancel = false → (tm.tag c.tag).status = 3 ∧ (tm.tag c.tag).cause = 6 ∧ (tm.tag c.tag).faddr = c.va)
          ∧ (tm.tag c.tag).busy = false ∧ tm.tags.getLsbD c.tag = decide (c.tag < 64))
    ∧ (∀ x t, reply 2 x → x.kind ≠ 7 → t ∈ s.teams → (∀ l ∈ s.launches, l.fault ≠ some x.key) →
        ((∃ c ∈ t.cmds, c.fault = some x.key) ∨ ∃ w ∈ s.waves, w.team = t.key ∧ ∃ y ∈ w.stalls, y.fault = some x.key) →
        (t.saved = false → done .kill fun u => u.team? t.key = none ∧ ∀ l, u.launch? t.launch = some l → l.voided.contains t.tix = true)
        ∧ (t.saved = true → (s.teams.map (·.key)).Nodup →
          done .kill fun u => ∃ tm, u.team? t.key = some tm ∧ tm.saved = true ∧ tm.toKill = true))
    ∧ (∀ x, reply 3 x → x.kind = 7 → x.core = bnat b 14 2 →
        done .releaseCore fun u => (u.core x.core).held = none ∧ ∀ k, k ≠ x.core → u.core k = s.core k)
    ∧ (∀ r rest, s.fqHeld = r :: rest → s.fqEnable = true → s.fqTail < s.fqHead.toNat + 2 ^ (s.fqLg + 6) →
        (cget s.ctl 0x40).toNat + 64 * (s.fqTail % 2 ^ (s.fqLg + 6)) + 64 ≤ 2 ^ 52 →
        ∃ u, exec .faultRecordWrite s = .next u ∧ u.fqHeld = rest ∧ u.fqTail = s.fqTail + 1
          ∧ mbytes u.mem (hostPa ((cget s.ctl 0x40).toNat + 64 * (s.fqTail % 2 ^ (s.fqLg + 6)))) 64
            = le 4 (s.fqTail % 2 ^ 32) ++ le 1 r.kind ++ bvBytes 1 r.access ++ le 2 r.code ++ le 2 r.ctx ++ le 2 r.queue ++ le 2 r.core
              ++ le 1 r.wave ++ le 1 0 ++ bvBytes 8 r.addr ++ bvBytes 4 r.launchid ++ le 4 r.team ++ le 8 r.tick ++ List.replicate 23 0
              ++ le 1 (if s.fqTail / 2 ^ (s.fqLg + 6) % 2 = 0 then 1 else 0))
    ∧ (∀ e, (s.timetable.find? fun e => e.next ≤ now) = some e → ∃ u, exec .timetableSlot s = .next u
        ∧ (s.overrun e = false → e.pending = none → fires e e.next u)
        ∧ ((s.overrun e = true ∨ e.pending.isSome = true) → u.launches = s.launches ∧ u.fires = s.fires
          ∧ (e.policy = 2 → e.pending = none → e.late = false → u.skips = s.skips ∧ ∀ x ∈ u.timetable, x.n = e.n → x.pending = some e.next)
          ∧ (e.policy ≠ 2 ∨ e.pending.isSome = true ∨ e.late = true →
            (cget u.skips e.n).toNat = min ((cget s.skips e.n).toNat + 1) (2 ^ 64 - 1)))
        ∧ ∀ x ∈ u.timetable, x.n = e.n → e.period ≠ 0 → now < x.next)
    ∧ (∀ e slot, (s.timetable.find? fun e => e.pending.isSome && !s.overrun e) = some e → e.pending = some slot →
        ∃ u, exec .timetableDeferredStart s = .next u ∧ fires e slot u)
    ∧ (∀ fn pasid page pages gs, ∃ u, exec (.atsInvalidate fn pasid page pages gs) s = .next u
        ∧ u.outbox = s.outbox ++ [.invalidateDone fn.val pasid page] ∧ ∀ e ∈ u.iommu, e ∈ gs
          ∨ e ∈ s.iommu ∧ ¬(e.pasid = pasid ∧ page ≤ e.page ∧ e.page < page + pages))
    ∧ (∀ p code gs, (s.pri.find? fun x => x.ctx == p.ctx && x.page == p.page && x.sent) = some p → s.stallsOn p.key = [] →
        let rest := s.pri.filter fun x => !(x.ctx == p.ctx && x.page == p.page)
        let sent (u : State) : Prop := u.pri.map (·.key) = rest.map (·.key) ∧ ((∀ x ∈ rest, x.sent = true) → u.pri = rest)
          ∧ ∀ x c, (rest.find? fun x => !x.sent) = some x → (rest.filter (·.sent)).length < Config.priAllocation → s.ctx? x.ctx = some c →
            .pageRequest c.pasid x.page ∈ u.outbox ∧ ∃ y ∈ u.pri, y.key = x.key ∧ y.sent = true
        (code = .success → ∃ u, exec (.priResponse p.ctx p.page code gs) s = .next u ∧ sent u ∧ u.waitsOn p.key = false
          ∧ (∀ g, gs = [g] → g ∈ u.iommu) ∧ ∀ e ∈ u.iommu, e ∈ gs ∨ e ∈ s.iommu)
        ∧ ∀ c : Ctx, code ≠ .success → s.ctx? p.ctx = some c → c.trapPolicy = false → s.waitsOn p.key = true →
          p.rec_.kind = 2 → p.rec_.key = p.key → ∃ u r, exec (.priResponse p.ctx p.page code gs) s = .next u ∧ sent u
            ∧ u.fqHeld = s.fqHeld ++ [r] ∧ r.kind = 2 ∧ r.key = p.key ∧ r.addr = p.rec_.addr)

/-! ### Copy engines -/

/-- R146, R300, R301, R304, R327 to R329: a copy whose bytes are all reached writes its source's bytes at its destination and completes
its tag with status OK; a cancelled one completes with status 2 at a step boundary; a codebook load replaces its bank's entries.
The model's own choices that it rests on are in the log: 23, 24. -/
def Obligations.CopyEngineEvents : Prop :=
  ∀ (s : State) (t : Team) (c : Cmd) (l : Launch) (cx : Ctx) (core : Nat), s.running = true → s.team? t.key = some t →
    (t.cmds.find? fun x => x.tag == c.tag) = some c → s.launch? t.launch = some l → s.ctx? t.ctx = some cx → t.saved = false →
    t.ended = false → t.core = some core → (s.quad (core / 4)).stopped = false →
    let S : State := { s with nondet := s.nondet + 1 }
    let A : Actor := { core, c := cx, t, l, who := none, staged := false, key := c.wave, path := 2, known := c.known, cmd := some c.seq, via := c.peer }
    let ans (x : State) := Config.peerAnswers x.nondet
    let ends (i : Instr) (status done : Nat) (P : State → Team → Prop) : Prop := ∃ u tm, exec i s = .next u ∧ u.team? t.key = some tm
      ∧ (tm.cmds = t.cmds.filter fun x => x.tag != c.tag) ∧ tm.tags = t.tags ||| (1 <<< c.tag) ∧ (tm.tag c.tag).status = status
      ∧ (tm.tag c.tag).busy = false ∧ (tm.tag c.tag).done = done ∧ (∀ k, k ≠ c.tag → tm.tag k = t.tag k) ∧ P u tm
    (c.bank = none → c.cancel = true → c.install = none → ends (.commandComplete t.key c.tag) 2 c.done fun u _ => u.mem = s.mem)
    ∧ (∀ n a b ps qs bytes, c.fault = none → c.bank = none → c.cancel = false → c.install = none → (l.p.mode = 0 ∨ t.direct = true) → c.done = 0 →
      c.orig = [] → c.dims = [(n, a, b)] → 0 < n → n ≤ 256 → (∀ i < 4, cget s.ctl (watchOff (core / 4) i + 0x10) = 0) →
      A.place S c.src .rd true false c.sa n (ans S) = .ok ps → readPieces S.poison (A.view S) ps = .ok bytes →
      A.place S c.dst .wr true false c.da n (ans S) = .ok qs →
      ends (.commandComplete t.key c.tag) 1 n fun u _ => u.mem = (S.storeAll (some (A.event false)) none (storePieces qs bytes)).mem)
    ∧ (∀ b bytes, c.fault = none → c.bank = some b → c.install = none → b < t.banks.length → s.bankFree t c b = true →
      (∀ i < 4, cget s.ctl (watchOff (core / 4) i + 0x10) = 0) → A.read s c.src c.sa 4096 = .ok bytes →
      ends (.cbldComplete t.key c.tag) 1 4096 fun u tm => u.mem = s.mem ∧ (∀ n, n ≠ b → tm.bank n = t.bank n)
        ∧ (tm.bank b).gen = (t.bank b).gen + 1 ∧ (tm.bank b).backing = .source (c.src != .gm) c.sa
        ∧ ∀ k < 512, cget (tm.bank b).entries k = BitVec.ofNat 64 (bnat bytes (8 * k) 8))

/-! ### Registers, the Shutter, quad stops and histograms -/

/-- R34, R36, R37, R40, R42, R57, R60, R64, R65, R201 to R203, R209 to R213: what writes of the interface's registers do. R201 to
R203: arming and gating the package, reading its scan stream and ungating it. The model's own choices that it rests on are in the
log: 109, 110, 111, 113, 114, 115, 152. -/
def Obligations.RegisterEvents : Prop :=
  (∀ (s : State), s.ready = true → s.dead = false →
     (∀ v, exec (.admqWidx v) s = .next { s with admWidx := v })
     ∧ (∀ v, exec (.linkpairPaired 0 v) s = .next { s with paired0 := v } ∧ exec (.linkpairPaired 1 v) s = .next { s with paired1 := v })
     ∧ (∀ v : DWord, let on := v.getLsbD 4
       ∃ u, exec (.fqEnable v) s = .next u ∧ u = { s with fqEnable := on, fqLg := u.fqLg, fqTail := u.fqTail, fqHead := u.fqHead }
         ∧ u.fqLg = v.toNat % 16 ∧ (on = true → s.fqEnable = false → u.fqTail = 0 ∧ u.fqHead = 0)
         ∧ (on = false ∨ s.fqEnable = true → u.fqTail = s.fqTail ∧ u.fqHead = s.fqHead))
     ∧ (∀ v : Word, exec (.podidWrite v) s = .next
         (if s.podidSet then s else { s with podid := v.toNat % 1024, podidSet := true }))
     ∧ (∀ v : DWord, exec (.xpeertoWrite v) s = .next { s with
         peerTo := if v.toNat < 100 then 100 else if 1000000 < v.toNat then 1000000 else v.toNat })
     ∧ (∀ n : Fin 12, ∃ u, exec (.xlstatClrcnt n) s = .next u ∧ u = { s with links := u.links }
         ∧ u.link n.val = { s.link n.val with n := n.val, retries := 0, repairs := 0 } ∧ ∀ k, k ≠ n.val → u.link k = s.link k)
     ∧ (∀ (n : Fin 256) (v : DWord), ∃ u, exec (.timetableSkipsClear n v) s = .next u ∧ u = { s with skips := u.skips }
         ∧ ∀ k, cget u.skips k = if k = n.val then cget s.skips k &&& ~~~v else cget s.skips k)
     ∧ (∀ (fn : Fin 2) (vec : Nat) (addr : DWord) (data : Word) (masked : Bool), vec < 2048 → let k := 2048 * fn.val + vec
       let message : List Output := if addr.toNat < 2 ^ 52 then [.msix fn.val vec addr data] else []
       ∃ u, exec (.msixUnmask fn ⟨vec, addr, data, masked⟩) s = .next u ∧ (u.msixTab.find? fun y => y.k == k) = some ⟨k, addr, data⟩
         ∧ (∀ j, j ≠ k → (u.msixTab.find? fun y => y.k == j) = s.msixTab.find? fun y => y.k == j)
         ∧ (masked = true → u = { s with msixTab := u.msixTab, unmasked := u.unmasked })
         ∧ (masked = false → u.pending = s.pending.filter (· != k) ∧ ((∀ q ∈ s.queues, ∀ p ∈ q.pkts, p.msg ≠ some k) →
           u.outbox = s.outbox ++ (List.replicate (s.pending.count k) message).flatten ∧ u.queues = s.queues))
         ∧ (∀ q p, masked = false → s.pending.contains k = false → s.queues = [q] → q.pkts = [p] → p.msg = some k →
           (s.gated = false → u.outbox = s.outbox ++ message
             ∧ u.queues = [{ q with pkts := [], lastDone := p.i, lastTick := s.tick }])
           ∧ (s.gated = true → u.outbox = s.outbox ∧ u.queues = [q]))
         ∧ u.unmasked.contains k = !masked ∧ ∀ j, j ≠ k → u.unmasked.contains j = s.unmasked.contains j)
     ∧ (∀ (v : DWord), exec (.registerWrite 0x10 v) s = .next { s with ctl := cset s.ctl 0x10 v }
         ∧ exec (.registerWrite 0x20 v) s = .next { s with admWidx := v } ∧ exec (.registerWrite 0x28 v) s = .next s
         ∧ exec (.registerWrite 0x58 v) s = .next { s with fqHead := v } ∧ exec (.registerWrite 0xC8 v) s = .next { s with trHead := v }
         ∧ exec (.registerWrite 0xD0 v) s = .next { s with trStat := s.trStat &&& ~~~v.setWidth 2 }
         ∧ exec (.registerWrite 0x200000 v) s = .next { s with shutTick := v }
         ∧ exec (.registerWrite 0x100008 v) s = exec (.xpeertoWrite v) s
         ∧ ∀ off, off % 4 ≠ 0 → exec (.registerWrite off v) s = .next s))
  ∧ (∀ (s : State), s.ready = true → s.dead = false →
       (∀ v, exec (.shutterArm v) s = .next { s with shutArm := v })
       ∧ exec .shutterNow s = .next (if s.gated then s else { s with shutNow := true })
       ∧ (s.gated = false → (s.shutNow = true ∨ s.shutArm = true ∧ s.shutTick.toNat ≤ s.tick) →
         ∃ u, exec .shutterGate s = .next u ∧ u.gated = true
           ∧ u = { s with gated := true, shutNow := false, shutArm := false, stream := u.stream, nondet := u.nondet }
           ∧ u.stream.take 24 = le 2 0 ++ le 2 0 ++ le 4 16 ++ le 8 0 ++ bvBytes 8 s.shutTick)
       ∧ (s.shutNow = false → (s.shutArm = false ∨ s.tick < s.shutTick.toNat) → exec .shutterGate s = .next s)
       ∧ (s.gated = true → ∃ u, exec .shutterUngate s = .next u ∧ u.gated = false ∧ u.stream = [] ∧ u.heldDoors = [] ∧ u.waves = s.waves
         ∧ u.teams = s.teams ∧ u.cores = s.cores ∧ u.mem = s.mem ∧ u.heldEvents = [] ∧ u.agenda = s.heldEvents.map Move.ev ++ s.agenda
         ∧ (∀ x v, s.heldDoors = [(x.id, v)] → s.queue? x.id = some x → x.st = .ok → x.widx.toNat ≤ v.toNat → v.toNat ≤ x.ridx + 2 ^ x.n →
           (∀ q ∈ s.queues, ∀ p ∈ q.pkts, p.msg = none) → u.queue? x.id = some { x with widx := v })
         ∧ ∀ q p k, s.heldDoors = [] → s.unmasked = [k] → s.queues = [q] → q.pkts = [p] → p.msg = some k →
           u.queues = [{ q with pkts := [], lastDone := p.i, lastTick := s.tick }])
       ∧ exec .shutterData s = .next { s with
           outbox := s.outbox ++ [.read (BitVec.ofNat 64 (leNat (s.stream.take 8)))], stream := s.stream.drop 8 }
       ∧ (∀ t n, (s.gated = false → exec (.shutterReadout t n) s = .next { s with shutTick := t, shutArm := true })
         ∧ (s.gated = true → exec (.shutterReadout t n) s = .next { s with
           outbox := s.outbox ++ [.scan (s.stream.take n)], stream := s.stream.drop n })))

/-- R209 to R212, R215: quad stops, single steps, and histogram samples and flushes.
The model's own choices that it rests on are in the log: 68, 118, 119, 120. -/
def Obligations.StopAndHistogramEvents : Prop :=
  ∀ (s : State), s.ready = true → s.dead = false →
    (∀ g < 160, ∃ u, exec (.qctlStop g) s = .next u ∧ (∀ k, k ≠ g → u.quad k = s.quad k) ∧ u.teams = s.teams ∧ u.quad g =
      if (s.quad g).stopped then { s.quad g with missed := min ((s.quad g).missed + 1) 0xFFFFFFFF }
      else { s.quad g with stopped := true, kind := 2, num := 0, pos := 0, slot := 0, path := 0, tick := s.tick, addr := 0 })
    ∧ (∀ g, (s.quad g).stopped = true → ∃ u, exec (.qctlResume g) s = .next u ∧ u.quad g = { s.quad g with stopped := false }
      ∧ (∀ k, k ≠ g → u.quad k = s.quad k) ∧ u = { s with quads := u.quads })
    ∧ (∀ core w, (s.quad (core / 4)).stopped = true →
      (s.waves.find? fun w => w.place == some (16 * core + (s.core core).stepSlot)) = some w → w.stepping = none →
      ∃ u w', exec (.dstepGo core) s = .next u ∧ u.wave? w.key = some w' ∧ u.mem = s.mem ∧ (∀ k, k ≠ w.key → u.wave? k = s.wave? k)
        ∧ (w.stage = .issue → w' = { w with stepping := some (if (s.core core).stepMode then .clause else .instr), stepBlocked := false, stepped := (s.core core).stepMode }
          ∧ (u.core core).stepDone = false)
        ∧ (w.stage = .ended → w' = { w with stepBlocked := false } ∧ (u.core core).stepDone = true)
        ∧ (w.stage = .ready → (∀ f ∈ w.frags, f.parked = false ∧ f.blocked.isSome = true) →
          w' = { w with stepBlocked := true } ∧ (u.core core).stepDone = true))
    ∧ (∀ w e f, s.gated = false → s.trSize ≠ 0 → s.trMask.getLsbD 1 = true → s.trMask.getLsbD 48 = false →
      s.histLast + 2 ^ (s.trMask.toNat / 256 % 32) ≤ s.tick → s.cap = 3200 → s.bins = [] → s.waves = [w] → w.place.isSome = true →
      ((s.quad (w.coreNo / 4)).stopped = false ∨ w.stepping.isSome = true) → s.wenv? w.key = some e → w.frags[w.cur]? = some f →
      ∃ u, exec .histSample s = .next u ∧ u.histLast = s.histLast + 2 ^ (s.trMask.toNat / 256 % 32) ∧ u.bins = [{
          die := w.coreNo / 160, ctx := e.c.id, va := some (w.img + BitVec.ofNat 64 f.cp), cap := false, counts := [(s.stallReason e, 1)] }])
    ∧ ∀ b, s.gated = false → s.trSize ≠ 0 → s.trMask.getLsbD 1 = true → s.flushLast + s.flushPeriod ≤ s.tick → s.bins = [b] → b.die < 4 →
      ∃ u, exec .histFlush s = .next u ∧ u.flushLast = s.flushLast + s.flushPeriod
        ∧ (s.trHead.toNat + s.trSize < s.trTail + 128 → u.trTail = s.trTail ∧ u.mem = s.mem ∧ u.trStat = s.trStat ||| 1
          ∧ u.bins = [{ b with sat := true }])
        ∧ (s.trTail + 128 ≤ s.trHead.toNat + s.trSize → s.trTail % s.trSize + 128 ≤ s.trSize →
          s.trAddr + s.trTail % s.trSize + 128 ≤ 2 ^ 52 → u.trTail = s.trTail + 128 ∧ u.bins = []
          ∧ u.trStat = s.trStat ∧ mbytes u.mem (hostPa (s.trAddr + s.trTail % s.trSize)) 16
            = le 8 (2 + b.die * 2 ^ 8 + (if b.cap then 2 ^ 10 else 0) + (if b.sat then 2 ^ 11 else 0)
              + (if b.va = none then 2 ^ 12 else 0) + b.ctx * 2 ^ 16) ++ bvBytes 8 (b.va.getD 0))

/-! ### Links, resets, errors, the Wicket port -/

/-- R28 to R33, R36, R40, R65, R289, R290: links of the host and of the Transom, flits, and requests between packages.
The model's own choices that it rests on are in the log: 20, 57, 121, 122, 123, 124, 125, 126, 153, 154. -/
def Obligations.LinkEvents : Prop :=
  ∀ (s : State), s.ready = true → s.dead = false →
    let isUp (u : State) (n : Fin 2) : Bool := if n.val = 0 then u.link0 else u.link1
    let paired (u : State) (n : Fin 2) : Bool := if n.val = 0 then u.paired0 else u.paired1
    (∀ n : Fin 2, exec (.pcieLinkUp n) s = .next (if n.val = 0 then { s with link0 := true } else { s with link1 := true }))
    ∧ (∀ n lost, isUp s n = true → ∃ u, exec (.pcieLinkDown n lost) s = .next u ∧ isUp u n = false ∧ u.paired0 = false ∧ u.paired1 = false
      ∧ u.teams = s.teams ∧ u.mem = s.mem
      ∧ (∀ p ∈ s.pri, ∀ c, p.sent = true → s.ctx? p.ctx = some c → s.linkFor (p.page * 4096) = n.val → .pageRequest c.pasid p.page ∈ u.outbox)
      ∧ ∀ k < 1024, (∃ r ∈ u.fqHeld.drop s.fqHeld.length, r.kind = 6 ∧ r.ctx = k) ↔ k ∈ lost ∧ s.ctx? k ≠ none)
    ∧ (∀ n : Fin 2, ∃ u v, exec (.functionLevelReset n) s = .next u ∧ exec (.oneLinkReset n) s = .next v ∧ paired u n = false
      ∧ (∀ m, m ≠ n → paired u m = paired s m ∧ isUp v m = isUp s m) ∧ isUp u n = isUp s n ∧ isUp v n = false ∧ v.paired0 = false
      ∧ v.paired1 = false ∧ u.queues = s.queues ∧ v.queues = s.queues ∧ u.mem = s.mem ∧ v.mem = s.mem ∧ u.teams = s.teams ∧ v.teams = s.teams
      ∧ u.msixTab = (s.msixTab.filter fun e => e.k / 2048 != n.val) ∧ v.msixTab = u.msixTab
      ∧ u.pending = (s.pending.filter fun k => k / 2048 != n.val) ∧ v.pending = u.pending
      ∧ ∀ k, (u.unmasked.contains k = (s.unmasked.contains k && k / 2048 != n.val)) ∧ v.unmasked.contains k = u.unmasked.contains k)
    ∧ (∀ n : Fin 12, let l := { s.link n.val with n := n.val }
      let becomes (i : Instr) (l' : XLink) (o : List Output) : Prop := ∃ u, exec i s = .next u ∧ u.link n.val = l' ∧ u.outbox = s.outbox ++ o
        ∧ (∀ k, k ≠ n.val → u.link k = s.link k) ∧ u.mem = s.mem
      (s.gated = false → l.up = false → 6 ≤ popcount l.lanemap → becomes (.transomLinkTrained n) { l with up := true, down := false } [])
      ∧ (∀ k : Fin 8, s.gated = false → l.up = true → l.lanemap.getLsbD k.val = true → let m := l.lanemap &&& ~~~((1 : BitVec 8) <<< k.val);
        let low : XLink := { l with lanemap := m, repairs := min (l.repairs + 1) 255, crcRow := 0, up := false, down := true, queue := [] }
        (popcount m < 6 → l.queue = [] → becomes (.laneRepair n k) low [])
        ∧ (∀ x, popcount m < 6 → l.queue = [x] → x.req = none → let ls := (s.route (x.pa / 2 ^ 44 % 2 ^ 10)).filter (· != n.val)
          (ls = [] → becomes (.laneRepair n k) low [])
          ∧ ∀ o, ls[Config.routeHash (x.pa / 4096) % ls.length]? = some o → let d := { s.link o with n := o }
            ∃ u, exec (.laneRepair n k) s = .next u ∧ u.link n.val = low ∧ u.mem = s.mem ∧ u.outbox = s.outbox
              ∧ (∀ j, j ≠ n.val → j ≠ o → u.link j = s.link j)
              ∧ (d.queue = [] → d.unacked + x.flits ≤ 512 → u.link o = { d with sent := d.sent + BitVec.ofNat 12 x.flits })
              ∧ (d.queue = [] → 512 < d.unacked + x.flits → u.link o = { d with queue := [x] }))
        ∧ (6 ≤ popcount m → l.unacked = 0 → becomes (.laneRepair n k) { l with
          lanemap := m, repairs := min (l.repairs + 1) 255, crcRow := 0, up := true, down := false
          retries := min l.retries 0xFFFFFFFF } []))
      ∧ ∀ flit : List Byte, s.gated = false → l.up = true → flit.length = 64 →
        let h : Word := BitVec.ofNat 32 (bnat flit 0 4)
        let seq := h.extractLsb' 0 12
        let good := crc32c (flit.take 60) = BitVec.ofNat 32 (bnat flit 60 4) ∧ (h.extractLsb' 24 4).toNat < 5
        (¬good → l.crcRow ≠ 7 → becomes (.flitReceive n flit) { l with discarding := true, crcRow := l.crcRow + 1 } [])
        ∧ (¬good → l.crcRow = 7 → ∃ u k, exec (.flitReceive n flit) s = .next u ∧ u.agenda = s.agenda ++ [.ev (.laneRepair n k)])
        ∧ (good → seq ≠ l.expect → exec (.flitReceive n flit) s = .next s)
        ∧ (good → seq = l.expect →
          let l' := { l with
            expect := l.expect + 1, discarding := false, crcRow := 0, acked := if h.getLsbD 28 then h.extractLsb' 12 12 else l.acked }
          let replay := (h.extractLsb' 24 4).toNat = 4
          (¬replay → l.queue = [] → becomes (.flitReceive n flit) l' [.ack n.val seq])
          ∧ (∀ x t, ¬replay → l.queue = x :: t → 512 < l'.unacked + x.flits → becomes (.flitReceive n flit) l' [.ack n.val seq])
          ∧ (∀ x, ¬replay → l.queue = [x] → l'.unacked + x.flits ≤ 512 → becomes (.flitReceive n flit)
            { l' with sent := l'.sent + BitVec.ofNat 12 x.flits, queue := [] } (x.req.toList.map Output.forward ++ [.ack n.val seq]))
          ∧ (replay → l.queue = [] → becomes (.flitReceive n flit) { l' with retries := min (l'.retries + l'.unacked) 0xFFFFFFFF }
            ([.ack n.val seq] ++ if l'.unacked = 0 then [] else [.flits n.val (l'.acked + 1)])))
        ∧ (s.gated = true → ∀ k, ∀ i ∈ [Instr.flitReceive n flit, .laneRepair n k, .transomLinkTrained n], exec i s = .next { s with
          heldEvents := s.heldEvents ++ [i] }))
    ∧ (∀ r : PeerReq, s.gated = true → ∀ i ∈ [Instr.peerRequestForward r, .peerRequestArrival r], exec i s = .next { s with
        heldEvents := s.heldEvents ++ [i] })
    ∧ (∀ r : PeerReq, s.gated = false → r.dst ≠ s.podid → r.dst < 1024 →
      let ls := s.route r.dst
      let sent : PeerReq := { r with hops := r.hops + 1 }
      let queued (k : Nat) : Queued := { flits := k, pa := 2 ^ 55 + 2 ^ 44 * r.dst + r.addr % 2 ^ 44, req := some sent }
      ((ls = [] ∨ 4 ≤ r.hops) → exec (.peerRequestForward r) s = .next { s with outbox := s.outbox ++ [.discard r] })
      ∧ ∀ n, r.hops < 4 → ls[Config.routeHash ((2 ^ 55 + 2 ^ 44 * r.dst + r.addr % 2 ^ 44) / 4096) % ls.length]? = some n →
        let l := { s.link n with n }
        ∃ u k, exec (.peerRequestForward r) s = .next u ∧ 1 ≤ k ∧ k ≤ 512 ∧ u.mem = s.mem ∧ (∀ m, m ≠ n → u.link m = s.link m)
          ∧ (l.queue = [] → l.unacked + k ≤ 512 → u.link n = { l with sent := l.sent + BitVec.ofNat 12 k }
            ∧ u.outbox = s.outbox ++ [.forward sent])
          ∧ (l.queue = [] → 512 < l.unacked + k → u.link n = { l with queue := [queued k] } ∧ u.outbox = s.outbox)
          ∧ ∀ x t, l.queue = x :: t → 512 < l.unacked + x.flits → u.link n = { l with queue := l.queue ++ [queued k] }
            ∧ u.outbox = s.outbox)
    ∧ (∀ r : PeerReq, s.gated = false → r.dst = s.podid → ∃ u, exec (.peerRequestArrival r) s = .next u ∧ let seen := s.seenBy (s.peerOf r.src r.agent).reader; match r.op with
      | .read n => u.mem = s.mem ∧ (rangeOk r.addr n = false → u.outbox = s.outbox ++ [.peerError r.src])
        ∧ (∀ f, readAt s.poison seen r.addr n = .error f → u.outbox = s.outbox ++ [.peerError r.src])
        ∧ ∀ b, rangeOk r.addr n = true → readAt s.poison seen r.addr n = .ok b →
          u.outbox = s.outbox ++ [.peerReply r.src b]
      | .write b => u.outbox = s.outbox ++ [if rangeOk r.addr b.length then .peerReply r.src [] else .peerError r.src]
        ∧ ∀ a, cget (w := 8) u.mem a = if rangeOk r.addr b.length ∧ r.addr ≤ a ∧ a < r.addr + b.length then (b[a - r.addr]?).getD 0
          else cget (w := 8) s.mem a
      | .atomic op wide x y => let n := if wide then 8 else 4
        ((rangeOk r.addr n = false ∨ r.addr % n ≠ 0) → u.mem = s.mem ∧ u.outbox = s.outbox ++ [.peerError r.src])
        ∧ ∀ b, rangeOk r.addr n = true → r.addr % n = 0 → readAt s.poison s.mem r.addr n = .ok b → u.outbox = s.outbox ++ [.peerReply r.src b]
          ∧ mnat u.mem r.addr n = if op = .cas ∧ leNat b ≠ x.toNat % 2 ^ (8 * n) then mnat s.mem r.addr n
            else (op.apply n (BitVec.ofNat 64 (leNat b)) x y).toNat % 2 ^ (8 * n))

/-- R10 to R12, R23 to R27, R33, R58, R65, R66: resets, errors and their repair, peers that give no response, and the Wicket port.
The model's own choices that it rests on are in the log: 16, 17, 18, 39, 40, 41, 127, 129, 135. -/
def Obligations.PackageEvents : Prop :=
  ∀ (s : State),
    let empty (u : State) : Prop := u.waves = [] ∧ u.teams = [] ∧ u.launches = [] ∧ u.queues = [] ∧ u.ctxs = [] ∧ u.copies = []
      ∧ u.tick = 0 ∧ u.admEnable = false ∧ u.fqEnable = false ∧ u.gated = false ∧ u.dead = false ∧ u.links = [] ∧ u.repair = s.repair
      ∧ u.cap = s.cap ∧ ∀ a < 2 ^ 56, cget (w := 8) u.mem a = cget s.mem a
    let lacks : List Output := ((List.range 6).filter fun p => Config.cxl && decide (Config.expander p < 2 ^ 29)).map (Output.report 3)
    let retired (die q : Nat) : Bool := s.repair.contains (die, q)
    let usable (die : Nat) : Nat := min 40 (((List.range 42).filter fun q => !retired die q).length)
    ((∀ die < 4, 40 ≤ ((List.range 42).filter fun q => !retired die q).length) →
      ∃ u, exec .packageReset s = .next u ∧ empty u ∧ u.ready = true ∧ u.diesok = 0xF ∧ u.link0 = true ∧ u.link1 = true
        ∧ u.outbox = s.outbox ++ lacks ∧ u.quadMap.length = 160 ∧ ∀ g < 160, ∃ q < 42, u.quadMap[g]? = some q ∧ retired (g / 40) q = false)
    ∧ ((∃ die < 4, usable die < 40) → ∃ u, exec .packageReset s = .next u ∧ empty u ∧ u.ready = false ∧ u.link0 = false ∧ u.link1 = false
      ∧ u.outbox = s.outbox ++ (((List.range 4).filter fun die => decide (usable die < 40)).map (Output.report 0)) ++ lacks)
    ∧ (∀ i, i = .moduleReset ∨ i = .wicketPackageReset → ∃ u, exec i s = .next u ∧ empty u ∧ u.ready = false ∧ u.link0 = false
      ∧ u.link1 = false)
    ∧ (∀ (die : Fin 4) (b : Fin 2), exec (.d2dLinkFailure die b) s = .next { s with
      dead := true, outbox := s.outbox ++ [.report 1 (2 * die.val + b.val)] })
    ∧ (∀ (die : Fin 4) bank row,
      let events := (s.rowEvents.filter fun e => decide (s.tick < e.1 + 86400 * 1100000000) && e.2 == (die.val, bank, row)).length
      let t : State := { s with rowEvents := s.rowEvents.filter fun e => e.2 != (die.val, bank, row) }
      exec (.rowRetire die bank row) s = .next
        (if s.running = false ∨ events ≤ 16 then s
        else if (s.rows.filter fun r => r.1 == die.val && r.2.1 == bank).length < Config.sparesPerBank then
          { t with rows := s.rows ++ [(die.val, bank, row)] } else { t with outbox := s.outbox ++ [.report 2 die.val] }))
    ∧ (∀ w, exec (.powerCap w) s = .next { s with cap := if w < 800 then 800 else if 3200 < w then 3200 else w })
    ∧ exec .attestation s = .next { s with outbox := s.outbox ++ [.attest Config.certificates (Config.measurement s.repair)] }
    ∧ exec .repairRead s = .next { s with outbox := s.outbox ++ [.repair s.repair] }
    ∧ (∀ (die : Fin 4) q, exec (.repairAppend die q) s = .next
      (if q < 42 ∧ retired die.val q = false then { s with repair := s.repair ++ [(die.val, q)] } else s))
    ∧ (∃ u temps power rows quads lanes, exec .sensors s = .next u ∧ u.outbox = s.outbox ++ [.sensor temps power s.corrected s.uncorrected rows
      quads lanes] ∧ temps.length = 4 ∧ quads.length = 4 ∧ lanes.length = 12
      ∧ (∀ k < 12, lanes[k]? = some (popcount (s.link k).lanemap)) ∧ u = { s with outbox := u.outbox, nondet := u.nondet })
    ∧ (∀ w source addr e, s.running = true → s.wenv? w = some e → e.w.place.isSome = true → 1 ≤ source → source ≤ 9 →
      source ≠ 8 →
      let tier := source = 3 ∨ source = 4 ∨ source = 5
      let before := if tier ∧ localOk addr = true ∧ s.poison.contains (addr / 128) = false then e.l.struck.filter fun x => x.2 != addr / 128
        else e.l.struck
      let struck := if tier then before ++ [(e.t.tix, addr / 128)] else before
      (if tier then s.poisonLine addr else s).replayedOut e.t { e.l with struck := before } = false → (e.l.p.mode ≠ 0 ∧ e.t.direct = false ∨ e.l.p.mode = 0 ∧ e.l.p.idem = true) →
      ∃ u l, exec (.uncorrectedError w source addr) s = .next u ∧ u.team? e.t.key = none ∧ (∀ x ∈ u.waves, x.team ≠ e.t.key)
        ∧ u.launch? e.l.key = some l ∧ u.uncorrected = s.uncorrected + 1
        ∧ (e.l.p.mode ≠ 0 → l = { e.l with struck, redo := e.l.redo ++ [(e.t.tix, e.t.replays + 1, e.t.core.getD 0)], reruns := e.l.reruns + 1 })
        ∧ (e.l.p.mode = 0 → l = { e.l with struck, restarting := true, finished := e.l.finished ++ [e.t.tix] })
        ∧ (tier → localOk addr = true → u.poison.contains (addr / 128) = true)
        ∧ ((source = 1 ∨ source = 6) → (u.core e.w.coreNo).held.isSome = true))
    ∧ (∀ w addr e, s.running = true → s.wenv? w = some e → e.w.place.isSome = true → e.w.stage = .issue →
      ∃ u w', exec (.uncorrectedError w 8 addr) s = .next u ∧ u.wave? w = some w' ∧ w'.stage = .trap
        ∧ w'.trap.map (fun t => (t.cause, t.fword)) = some (15, if 2 ≤ e.t.replays ∨ 2 ≤ e.l.restarts then 0x8008 else 8)
        ∧ w'.regs = e.w.regs)
    ∧ (s.running = true → (∀ w ∈ s.waves, ∀ x ∈ w.stalls, s.past x.peer = false) → (∀ k ∈ s.cores, ∀ j ∈ k.mtx, s.past j.peer = false) →
      (∀ k ∈ s.copies, s.past k.peer = false) → (∀ l ∈ s.launches, s.past l.peer = false) →
      (∀ t c, s.teams = [t] → t.cmds = [c] → c.install = none → s.past c.peer = true →
        (∀ q ∈ s.queues, s.past q.peer = false ∧ ∀ p ∈ q.pkts, s.past p.peer = false) →
        ∃ u tm, exec .peerTimeout s = .next u ∧ u.team? t.key = some tm ∧ tm.cmds = [] ∧ (tm.tag c.tag).status = 3
          ∧ (tm.tag c.tag).cause = 15
          ∧ (∀ l, s.launch? t.launch = some l → (tm.tag c.tag).ecc = if 2 ≤ t.replays ∨ 2 ≤ l.restarts then 0x8008 else 8) ∧ (tm.tag c.tag).busy = false)
      ∧ (∀ q p, s.queues = [q] → q.peer = none → q.pkts = [p] → s.past p.peer = true → (∀ t ∈ s.teams, t.cmds = []) →
        ∃ u x, exec .peerTimeout s = .next u ∧ u.queue? q.id = some x ∧ x.st = .error 7 ∧ x.pkts = []))
end

