-- ==== Sys2Proof/Laws/Lists.lean ====
section
/-! SUPPORT. Lists by key, sparse stores and memory: what a read gives after a write, and that the canonical form is kept. -/

namespace Sys2Proof.Machine

/-! ### Lists by key -/

theorem lput_find_self {α : Type} (l : List α) (p : α → Bool) (x : α) (hx : p x = true) : (lput l p x).find? p = some x := by
  unfold lput
  split
  · rename_i h
    induction l with
    | nil => simp at h
    | cons a l ih =>
      by_cases ha : p a = true
      · simp [ha, hx]
      · have : l.any p = true := by simpa [ha] using h
        simp [ha, ih this]
  · rename_i h
    have hn : l.find? p = none := by simpa using h
    simp [List.find?_append, hn, hx]

theorem lput_find_other {α : Type} (l : List α) (p q : α → Bool) (x : α) (hx : q x = false) (hpq : ∀ y, p y = true → q y = false) :
    (lput l p x).find? q = l.find? q := by
  unfold lput
  split
  · clear * - hx hpq
    induction l with
    | nil => rfl
    | cons a l ih =>
      by_cases ha : p a = true
      · simp [ha, hx, hpq a ha, ih]
      · simp [ha, ih, List.find?_cons]
  · simp [List.find?_append, hx]

/-! ### Sparse stores -/

theorem cget_cins {w : Nat} (c : Cells w) (k j : Nat) (x : BitVec w) (h : ∀ p ∈ c, p.1 ≠ k) :
    cget (cins c k x) j = if j = k then x else cget c j := by
  induction c with
  | nil => simp [cins, cget, eq_comm]
  | cons p t ih =>
    obtain ⟨a, y⟩ := p
    have ha : a ≠ k := h (a, y) (by simp)
    have ht := ih fun p hp => h p (by simp [hp])
    simp only [cins]
    split
    · simp [cget, eq_comm]
    · simp only [cget, ht]
      split <;> split <;> simp_all

theorem cget_cdel {w : Nat} (c : Cells w) (k j : Nat) : cget (cdel c k) j = if j = k then 0 else cget c j := by
  induction c with
  | nil => simp [cdel, cget]
  | cons p t ih =>
    obtain ⟨a, y⟩ := p
    simp only [cdel, List.filter_cons] at ih ⊢
    by_cases ha : a = k
    · simp only [ha, bne_self_eq_false, Bool.false_eq_true, if_false, ih, cget]; split <;> simp_all [eq_comm]
    · simp [ha, cget, ih]; split <;> split <;> simp_all

/-- A read after a write: the value at its number, and every other number as before. -/
theorem cget_cset {w : Nat} (c : Cells w) (k j : Nat) (x : BitVec w) : cget (cset c k x) j = if j = k then x else cget c j := by
  unfold cset
  split
  · rename_i h; subst h; exact cget_cdel c k j
  · rw [cget_cins _ _ _ _ (by intro p hp; simp [cdel] at hp; exact hp.2), cget_cdel]
    split <;> rfl

@[simp] theorem cget_cset_self {w : Nat} (c : Cells w) (k : Nat) (x : BitVec w) : cget (cset c k x) k = x := by simp [cget_cset]

theorem cget_cset_ne {w : Nat} (c : Cells w) (k j : Nat) (x : BitVec w) (h : j ≠ k) : cget (cset c k x) j = cget c j := by
  simp [cget_cset, h]

/-- The canonical form as a chain of rising numbers with no 0. -/
theorem cwf_cons {w : Nat} (a : Nat) (x : BitVec w) (t : Cells w) :
    cwf ((a, x) :: t) = true ↔ x ≠ 0 ∧ (∀ p ∈ t, a < p.1) ∧ cwf t = true := by
  induction t generalizing a x with
  | nil => simp [cwf]
  | cons q t ih =>
    obtain ⟨b, y⟩ := q
    simp only [cwf, Bool.and_eq_true, bne_iff_ne, decide_eq_true_eq, List.mem_cons, forall_eq_or_imp]
    constructor
    · rintro ⟨⟨hx, hab⟩, ht⟩
      refine ⟨hx, ⟨hab, fun p hp => ?_⟩, ht⟩
      exact lt_trans hab (((ih b y).1 ht).2.1 p hp)
    · rintro ⟨hx, ⟨hab, _⟩, ht⟩
      exact ⟨⟨hx, hab⟩, ht⟩

theorem cwf_filter {w : Nat} (c : Cells w) (f : Nat × BitVec w → Bool) (h : cwf c = true) : cwf (c.filter f) = true := by
  induction c with
  | nil => exact h
  | cons p t ih =>
    obtain ⟨a, x⟩ := p
    obtain ⟨hx, hlt, ht⟩ := (cwf_cons a x t).1 h
    simp only [List.filter_cons]
    split
    · exact (cwf_cons _ _ _).2 ⟨hx, fun p hp => hlt p (List.mem_filter.1 hp).1, ih ht⟩
    · exact ih ht

theorem cins_mem {w : Nat} (c : Cells w) (k : Nat) (x : BitVec w) (p : Nat × BitVec w) (hp : p ∈ cins c k x) :
    p = (k, x) ∨ p ∈ c := by
  induction c with
  | nil => simpa [cins] using hp
  | cons q t ih =>
    obtain ⟨a, y⟩ := q
    simp only [cins] at hp
    split at hp
    · simpa using hp
    · simp only [List.mem_cons] at hp ⊢
      rcases hp with h | h
      · exact .inr (.inl h)
      · rcases ih h with h | h
        · exact .inl h
        · exact .inr (.inr h)

theorem cwf_cins {w : Nat} (c : Cells w) (k : Nat) (x : BitVec w) (h : cwf c = true) (hx : x ≠ 0) (hk : ∀ p ∈ c, p.1 ≠ k) :
    cwf (cins c k x) = true := by
  induction c with
  | nil => simpa [cins, cwf] using hx
  | cons p t ih =>
    obtain ⟨a, y⟩ := p
    obtain ⟨hy, hlt, ht⟩ := (cwf_cons a y t).1 h
    have hak : a ≠ k := hk (a, y) (by simp)
    simp only [cins]
    split
    · rename_i hka
      refine (cwf_cons _ _ _).2 ⟨hx, ?_, h⟩
      intro p hp
      rcases List.mem_cons.1 hp with rfl | hp
      · exact hka
      · exact lt_trans hka (hlt p hp)
    · rename_i hka
      refine (cwf_cons _ _ _).2 ⟨hy, ?_, ih ht fun p hp => hk p (by simp [hp])⟩
      intro p hp
      rcases cins_mem t k x p hp with rfl | hp
      · simp only at hka ⊢; omega
      · exact hlt p hp

/-- A write keeps the canonical form. -/
theorem cwf_cset {w : Nat} (c : Cells w) (k : Nat) (x : BitVec w) (h : cwf c = true) : cwf (cset c k x) = true := by
  unfold cset
  split
  · exact cwf_filter c _ h
  · rename_i hx
    exact cwf_cins _ k x (cwf_filter c _ h) hx (by intro p hp; simp [cdel] at hp; exact hp.2)

/-- Two canonical stores that read alike are equal. -/
theorem cwf_ext {w : Nat} (c d : Cells w) (hc : cwf c = true) (hd : cwf d = true) (h : ∀ k, cget c k = cget d k) : c = d := by
  induction c generalizing d with
  | nil =>
    cases d with
    | nil => rfl
    | cons q t =>
      obtain ⟨b, y⟩ := q
      have := h b
      simp [cget] at this
      exact absurd this.symm ((cwf_cons b y t).1 hd).1
  | cons p s ih =>
    obtain ⟨a, x⟩ := p
    obtain ⟨hx, hlt, hs⟩ := (cwf_cons a x s).1 hc
    cases d with
    | nil => have := h a; simp [cget] at this; exact absurd this hx
    | cons q t =>
      obtain ⟨b, y⟩ := q
      obtain ⟨hy, hlt', ht⟩ := (cwf_cons b y t).1 hd
      have low (u : Cells w) (n m : Nat) (hu : ∀ p ∈ u, n < p.1) (hm : m ≤ n) : cget u m = 0 := by
        clear * - hu hm
        induction u with
        | nil => rfl
        | cons r u ih' =>
          have := hu r (by simp)
          simp only [cget]
          rw [if_neg (by omega)]
          exact ih' fun p hp => hu p (by simp [hp])
      have hab : a = b := by
        rcases Nat.lt_trichotomy a b with hl | he | hg
        · have h1 := h a
          simp only [cget, if_true] at h1
          rw [if_neg (by omega), low t b a hlt' (by omega)] at h1
          exact absurd h1 hx
        · exact he
        · have h1 := h b
          simp only [cget, if_true] at h1
          rw [if_neg (by omega), low s a b hlt (by omega)] at h1
          exact absurd h1.symm hy
      subst hab
      have hxy : x = y := by have := h a; simpa [cget] using this
      subst hxy
      rw [ih t hs ht fun k => ?_]
      by_cases hk : a = k
      · subst hk; rw [low s a a hlt le_rfl, low t a a hlt' le_rfl]
      · have := h k; simpa [cget, hk] using this

/-! ### Memory -/

/-- Bytes written keep the canonical form of memory. -/
theorem mput_wf (m : List Host.Cell) (a : Nat) (b : List Byte) (h : Memory.wf m = true) : Memory.wf (mput m a b) = true := by
  induction b generalizing m a with
  | nil => exact h
  | cons x r ih => exact ih _ _ (cwf_cset m a x h)

/-- A byte outside the bytes written reads as before. -/
theorem cget_mput_out (m : List Host.Cell) (a : Nat) (b : List Byte) (j : Nat) (h : j < a ∨ a + b.length ≤ j) :
    cget (w := 8) (mput m a b) j = cget (w := 8) m j := by
  induction b generalizing m a with
  | nil => rfl
  | cons x r ih =>
    simp only [List.length_cons] at h
    simp only [mput]
    rw [ih _ _ (by omega), cget_cset_ne _ _ _ _ (by omega)]

/-- A byte written reads back. -/
theorem cget_mput_in (m : List Host.Cell) (a : Nat) (b : List Byte) (i : Nat) (h : i < b.length) :
    cget (w := 8) (mput m a b) (a + i) = b[i] := by
  induction b generalizing m a i with
  | nil => simp at h
  | cons x r ih =>
    simp only [mput]
    cases i with
    | zero => simp only [Nat.add_zero, List.getElem_cons_zero]; rw [cget_mput_out _ _ _ _ (by omega)]; simp
    | succ i =>
      have := ih (cset (w := 8) m a x) (a + 1) i (by simpa using h)
      rw [show a + (i + 1) = a + 1 + i by omega, this]; simp

/-- Bytes read give each byte at its address. -/
theorem mbytes_length (m : List Host.Cell) (a n : Nat) : (mbytes m a n).length = n := by
  induction n generalizing a with
  | zero => rfl
  | succ n ih => simp [mbytes, ih]

theorem mbytes_get (m : List Host.Cell) (a n i : Nat) (h : i < n) :
    (mbytes m a n)[i]'(by rw [mbytes_length]; exact h) = cget (w := 8) m (a + i) := by
  induction n generalizing a i with
  | zero => omega
  | succ n ih =>
    cases i with
    | zero => rfl
    | succ i =>
      simp only [mbytes, List.getElem_cons_succ]
      rw [ih (a + 1) i (by omega)]; congr 1; omega

/-- The bytes written read back. -/
theorem mbytes_mput (m : List Host.Cell) (a : Nat) (b : List Byte) : mbytes (mput m a b) a b.length = b := by
  apply List.ext_getElem
  · rw [mbytes_length]
  · intro i h1 h2
    rw [mbytes_get _ _ _ _ h2, cget_mput_in _ _ _ _ h2]

/-- Bytes outside the bytes written read as before. -/
theorem mbytes_mput_out (m : List Host.Cell) (a : Nat) (b : List Byte) (c n : Nat) (h : c + n ≤ a ∨ a + b.length ≤ c) :
    mbytes (mput m a b) c n = mbytes m c n := by
  apply List.ext_getElem
  · rw [mbytes_length, mbytes_length]
  · intro i h1 h2
    rw [mbytes_length] at h1
    rw [mbytes_get _ _ _ _ h1, mbytes_get _ _ _ _ h1, cget_mput_out _ _ _ _ (by omega)]

end Sys2Proof.Machine
end

