-- ==== Sys2Proof/Laws/State.lean ====
section
/-! SUPPORT. Each shared update of the state, field by field; what a lookup by key gives after it. -/

namespace Sys2Proof.Machine

variable (s : State)

/-! ### putWave -/

@[simp] theorem State.putWave_agenda (x : Wave) : (s.putWave x).agenda = s.agenda := rfl
@[simp] theorem State.putWave_nondet (x : Wave) : (s.putWave x).nondet = s.nondet := rfl
@[simp] theorem State.putWave_fresh (x : Wave) : (s.putWave x).fresh = s.fresh := rfl
@[simp] theorem State.putWave_cur (x : Wave) : (s.putWave x).cur = s.cur := rfl
@[simp] theorem State.putWave_outbox (x : Wave) : (s.putWave x).outbox = s.outbox := rfl
@[simp] theorem State.putWave_mem (x : Wave) : (s.putWave x).mem = s.mem := rfl
@[simp] theorem State.putWave_poison (x : Wave) : (s.putWave x).poison = s.poison := rfl
@[simp] theorem State.putWave_rewrote (x : Wave) : (s.putWave x).rewrote = s.rewrote := rfl
@[simp] theorem State.putWave_hist (x : Wave) : (s.putWave x).hist = s.hist := rfl
@[simp] theorem State.putWave_written (x : Wave) : (s.putWave x).written = s.written := rfl
@[simp] theorem State.putWave_fences (x : Wave) : (s.putWave x).fences = s.fences := rfl
@[simp] theorem State.putWave_peers (x : Wave) : (s.putWave x).peers = s.peers := rfl
@[simp] theorem State.putWave_forms (x : Wave) : (s.putWave x).forms = s.forms := rfl
@[simp] theorem State.putWave_ready (x : Wave) : (s.putWave x).ready = s.ready := rfl
@[simp] theorem State.putWave_diesok (x : Wave) : (s.putWave x).diesok = s.diesok := rfl
@[simp] theorem State.putWave_dead (x : Wave) : (s.putWave x).dead = s.dead := rfl
@[simp] theorem State.putWave_repair (x : Wave) : (s.putWave x).repair = s.repair := rfl
@[simp] theorem State.putWave_quadMap (x : Wave) : (s.putWave x).quadMap = s.quadMap := rfl
@[simp] theorem State.putWave_cap (x : Wave) : (s.putWave x).cap = s.cap := rfl
@[simp] theorem State.putWave_rows (x : Wave) : (s.putWave x).rows = s.rows := rfl
@[simp] theorem State.putWave_rowEvents (x : Wave) : (s.putWave x).rowEvents = s.rowEvents := rfl
@[simp] theorem State.putWave_corrected (x : Wave) : (s.putWave x).corrected = s.corrected := rfl
@[simp] theorem State.putWave_uncorrected (x : Wave) : (s.putWave x).uncorrected = s.uncorrected := rfl
@[simp] theorem State.putWave_tick (x : Wave) : (s.putWave x).tick = s.tick := rfl
@[simp] theorem State.putWave_clock (x : Wave) : (s.putWave x).clock = s.clock := rfl
@[simp] theorem State.putWave_tai (x : Wave) : (s.putWave x).tai = s.tai := rfl
@[simp] theorem State.putWave_taiRate (x : Wave) : (s.putWave x).taiRate = s.taiRate := rfl
@[simp] theorem State.putWave_ppsTick (x : Wave) : (s.putWave x).ppsTick = s.ppsTick := rfl
@[simp] theorem State.putWave_ppsTai (x : Wave) : (s.putWave x).ppsTai = s.ppsTai := rfl
@[simp] theorem State.putWave_ppsLast (x : Wave) : (s.putWave x).ppsLast = s.ppsLast := rfl
@[simp] theorem State.putWave_ppsSet (x : Wave) : (s.putWave x).ppsSet = s.ppsSet := rfl
@[simp] theorem State.putWave_link0 (x : Wave) : (s.putWave x).link0 = s.link0 := rfl
@[simp] theorem State.putWave_link1 (x : Wave) : (s.putWave x).link1 = s.link1 := rfl
@[simp] theorem State.putWave_paired0 (x : Wave) : (s.putWave x).paired0 = s.paired0 := rfl
@[simp] theorem State.putWave_paired1 (x : Wave) : (s.putWave x).paired1 = s.paired1 := rfl
@[simp] theorem State.putWave_unmasked (x : Wave) : (s.putWave x).unmasked = s.unmasked := rfl
@[simp] theorem State.putWave_pending (x : Wave) : (s.putWave x).pending = s.pending := rfl
@[simp] theorem State.putWave_msixTab (x : Wave) : (s.putWave x).msixTab = s.msixTab := rfl
@[simp] theorem State.putWave_iommu (x : Wave) : (s.putWave x).iommu = s.iommu := rfl
@[simp] theorem State.putWave_pri (x : Wave) : (s.putWave x).pri = s.pri := rfl
@[simp] theorem State.putWave_tlb (x : Wave) : (s.putWave x).tlb = s.tlb := rfl
@[simp] theorem State.putWave_ctl (x : Wave) : (s.putWave x).ctl = s.ctl := rfl
@[simp] theorem State.putWave_admEnable (x : Wave) : (s.putWave x).admEnable = s.admEnable := rfl
@[simp] theorem State.putWave_admLg (x : Wave) : (s.putWave x).admLg = s.admLg := rfl
@[simp] theorem State.putWave_admWidx (x : Wave) : (s.putWave x).admWidx = s.admWidx := rfl
@[simp] theorem State.putWave_admRidx (x : Wave) : (s.putWave x).admRidx = s.admRidx := rfl
@[simp] theorem State.putWave_adm (x : Wave) : (s.putWave x).adm = s.adm := rfl
@[simp] theorem State.putWave_fqEnable (x : Wave) : (s.putWave x).fqEnable = s.fqEnable := rfl
@[simp] theorem State.putWave_fqLg (x : Wave) : (s.putWave x).fqLg = s.fqLg := rfl
@[simp] theorem State.putWave_fqTail (x : Wave) : (s.putWave x).fqTail = s.fqTail := rfl
@[simp] theorem State.putWave_fqHead (x : Wave) : (s.putWave x).fqHead = s.fqHead := rfl
@[simp] theorem State.putWave_fqHeld (x : Wave) : (s.putWave x).fqHeld = s.fqHeld := rfl
@[simp] theorem State.putWave_fqOpen (x : Wave) : (s.putWave x).fqOpen = s.fqOpen := rfl
@[simp] theorem State.putWave_ctxs (x : Wave) : (s.putWave x).ctxs = s.ctxs := rfl
@[simp] theorem State.putWave_apertures (x : Wave) : (s.putWave x).apertures = s.apertures := rfl
@[simp] theorem State.putWave_queues (x : Wave) : (s.putWave x).queues = s.queues := rfl
@[simp] theorem State.putWave_launches (x : Wave) : (s.putWave x).launches = s.launches := rfl
@[simp] theorem State.putWave_teams (x : Wave) : (s.putWave x).teams = s.teams := rfl
@[simp] theorem State.putWave_waves (x : Wave) : (s.putWave x).waves = lput s.waves (fun y => y.key == x.key) x := rfl
@[simp] theorem State.putWave_cores (x : Wave) : (s.putWave x).cores = s.cores := rfl
@[simp] theorem State.putWave_quads (x : Wave) : (s.putWave x).quads = s.quads := rfl
@[simp] theorem State.putWave_copies (x : Wave) : (s.putWave x).copies = s.copies := rfl
@[simp] theorem State.putWave_dispatch (x : Wave) : (s.putWave x).dispatch = s.dispatch := rfl
@[simp] theorem State.putWave_timetable (x : Wave) : (s.putWave x).timetable = s.timetable := rfl
@[simp] theorem State.putWave_fires (x : Wave) : (s.putWave x).fires = s.fires := rfl
@[simp] theorem State.putWave_skips (x : Wave) : (s.putWave x).skips = s.skips := rfl
@[simp] theorem State.putWave_shutTick (x : Wave) : (s.putWave x).shutTick = s.shutTick := rfl
@[simp] theorem State.putWave_shutArm (x : Wave) : (s.putWave x).shutArm = s.shutArm := rfl
@[simp] theorem State.putWave_shutNow (x : Wave) : (s.putWave x).shutNow = s.shutNow := rfl
@[simp] theorem State.putWave_gated (x : Wave) : (s.putWave x).gated = s.gated := rfl
@[simp] theorem State.putWave_stream (x : Wave) : (s.putWave x).stream = s.stream := rfl
@[simp] theorem State.putWave_heldDoors (x : Wave) : (s.putWave x).heldDoors = s.heldDoors := rfl
@[simp] theorem State.putWave_heldEvents (x : Wave) : (s.putWave x).heldEvents = s.heldEvents := rfl
@[simp] theorem State.putWave_podid (x : Wave) : (s.putWave x).podid = s.podid := rfl
@[simp] theorem State.putWave_podidSet (x : Wave) : (s.putWave x).podidSet = s.podidSet := rfl
@[simp] theorem State.putWave_peerTo (x : Wave) : (s.putWave x).peerTo = s.peerTo := rfl
@[simp] theorem State.putWave_links (x : Wave) : (s.putWave x).links = s.links := rfl
@[simp] theorem State.putWave_podArrs (x : Wave) : (s.putWave x).podArrs = s.podArrs := rfl
@[simp] theorem State.putWave_trAddr (x : Wave) : (s.putWave x).trAddr = s.trAddr := rfl
@[simp] theorem State.putWave_trSize (x : Wave) : (s.putWave x).trSize = s.trSize := rfl
@[simp] theorem State.putWave_trMask (x : Wave) : (s.putWave x).trMask = s.trMask := rfl
@[simp] theorem State.putWave_trTail (x : Wave) : (s.putWave x).trTail = s.trTail := rfl
@[simp] theorem State.putWave_trHead (x : Wave) : (s.putWave x).trHead = s.trHead := rfl
@[simp] theorem State.putWave_trStat (x : Wave) : (s.putWave x).trStat = s.trStat := rfl
@[simp] theorem State.putWave_trSrcs (x : Wave) : (s.putWave x).trSrcs = s.trSrcs := rfl
@[simp] theorem State.putWave_bins (x : Wave) : (s.putWave x).bins = s.bins := rfl
@[simp] theorem State.putWave_histLast (x : Wave) : (s.putWave x).histLast = s.histLast := rfl
@[simp] theorem State.putWave_flushLast (x : Wave) : (s.putWave x).flushLast = s.flushLast := rfl

/-! ### putTeam -/

@[simp] theorem State.putTeam_agenda (x : Team) : (s.putTeam x).agenda = s.agenda := rfl
@[simp] theorem State.putTeam_nondet (x : Team) : (s.putTeam x).nondet = s.nondet := rfl
@[simp] theorem State.putTeam_fresh (x : Team) : (s.putTeam x).fresh = s.fresh := rfl
@[simp] theorem State.putTeam_cur (x : Team) : (s.putTeam x).cur = s.cur := rfl
@[simp] theorem State.putTeam_outbox (x : Team) : (s.putTeam x).outbox = s.outbox := rfl
@[simp] theorem State.putTeam_mem (x : Team) : (s.putTeam x).mem = s.mem := rfl
@[simp] theorem State.putTeam_poison (x : Team) : (s.putTeam x).poison = s.poison := rfl
@[simp] theorem State.putTeam_rewrote (x : Team) : (s.putTeam x).rewrote = s.rewrote := rfl
@[simp] theorem State.putTeam_hist (x : Team) : (s.putTeam x).hist = s.hist := rfl
@[simp] theorem State.putTeam_written (x : Team) : (s.putTeam x).written = s.written := rfl
@[simp] theorem State.putTeam_fences (x : Team) : (s.putTeam x).fences = s.fences := rfl
@[simp] theorem State.putTeam_peers (x : Team) : (s.putTeam x).peers = s.peers := rfl
@[simp] theorem State.putTeam_forms (x : Team) : (s.putTeam x).forms = s.forms := rfl
@[simp] theorem State.putTeam_ready (x : Team) : (s.putTeam x).ready = s.ready := rfl
@[simp] theorem State.putTeam_diesok (x : Team) : (s.putTeam x).diesok = s.diesok := rfl
@[simp] theorem State.putTeam_dead (x : Team) : (s.putTeam x).dead = s.dead := rfl
@[simp] theorem State.putTeam_repair (x : Team) : (s.putTeam x).repair = s.repair := rfl
@[simp] theorem State.putTeam_quadMap (x : Team) : (s.putTeam x).quadMap = s.quadMap := rfl
@[simp] theorem State.putTeam_cap (x : Team) : (s.putTeam x).cap = s.cap := rfl
@[simp] theorem State.putTeam_rows (x : Team) : (s.putTeam x).rows = s.rows := rfl
@[simp] theorem State.putTeam_rowEvents (x : Team) : (s.putTeam x).rowEvents = s.rowEvents := rfl
@[simp] theorem State.putTeam_corrected (x : Team) : (s.putTeam x).corrected = s.corrected := rfl
@[simp] theorem State.putTeam_uncorrected (x : Team) : (s.putTeam x).uncorrected = s.uncorrected := rfl
@[simp] theorem State.putTeam_tick (x : Team) : (s.putTeam x).tick = s.tick := rfl
@[simp] theorem State.putTeam_clock (x : Team) : (s.putTeam x).clock = s.clock := rfl
@[simp] theorem State.putTeam_tai (x : Team) : (s.putTeam x).tai = s.tai := rfl
@[simp] theorem State.putTeam_taiRate (x : Team) : (s.putTeam x).taiRate = s.taiRate := rfl
@[simp] theorem State.putTeam_ppsTick (x : Team) : (s.putTeam x).ppsTick = s.ppsTick := rfl
@[simp] theorem State.putTeam_ppsTai (x : Team) : (s.putTeam x).ppsTai = s.ppsTai := rfl
@[simp] theorem State.putTeam_ppsLast (x : Team) : (s.putTeam x).ppsLast = s.ppsLast := rfl
@[simp] theorem State.putTeam_ppsSet (x : Team) : (s.putTeam x).ppsSet = s.ppsSet := rfl
@[simp] theorem State.putTeam_link0 (x : Team) : (s.putTeam x).link0 = s.link0 := rfl
@[simp] theorem State.putTeam_link1 (x : Team) : (s.putTeam x).link1 = s.link1 := rfl
@[simp] theorem State.putTeam_paired0 (x : Team) : (s.putTeam x).paired0 = s.paired0 := rfl
@[simp] theorem State.putTeam_paired1 (x : Team) : (s.putTeam x).paired1 = s.paired1 := rfl
@[simp] theorem State.putTeam_unmasked (x : Team) : (s.putTeam x).unmasked = s.unmasked := rfl
@[simp] theorem State.putTeam_pending (x : Team) : (s.putTeam x).pending = s.pending := rfl
@[simp] theorem State.putTeam_msixTab (x : Team) : (s.putTeam x).msixTab = s.msixTab := rfl
@[simp] theorem State.putTeam_iommu (x : Team) : (s.putTeam x).iommu = s.iommu := rfl
@[simp] theorem State.putTeam_pri (x : Team) : (s.putTeam x).pri = s.pri := rfl
@[simp] theorem State.putTeam_tlb (x : Team) : (s.putTeam x).tlb = s.tlb := rfl
@[simp] theorem State.putTeam_ctl (x : Team) : (s.putTeam x).ctl = s.ctl := rfl
@[simp] theorem State.putTeam_admEnable (x : Team) : (s.putTeam x).admEnable = s.admEnable := rfl
@[simp] theorem State.putTeam_admLg (x : Team) : (s.putTeam x).admLg = s.admLg := rfl
@[simp] theorem State.putTeam_admWidx (x : Team) : (s.putTeam x).admWidx = s.admWidx := rfl
@[simp] theorem State.putTeam_admRidx (x : Team) : (s.putTeam x).admRidx = s.admRidx := rfl
@[simp] theorem State.putTeam_adm (x : Team) : (s.putTeam x).adm = s.adm := rfl
@[simp] theorem State.putTeam_fqEnable (x : Team) : (s.putTeam x).fqEnable = s.fqEnable := rfl
@[simp] theorem State.putTeam_fqLg (x : Team) : (s.putTeam x).fqLg = s.fqLg := rfl
@[simp] theorem State.putTeam_fqTail (x : Team) : (s.putTeam x).fqTail = s.fqTail := rfl
@[simp] theorem State.putTeam_fqHead (x : Team) : (s.putTeam x).fqHead = s.fqHead := rfl
@[simp] theorem State.putTeam_fqHeld (x : Team) : (s.putTeam x).fqHeld = s.fqHeld := rfl
@[simp] theorem State.putTeam_fqOpen (x : Team) : (s.putTeam x).fqOpen = s.fqOpen := rfl
@[simp] theorem State.putTeam_ctxs (x : Team) : (s.putTeam x).ctxs = s.ctxs := rfl
@[simp] theorem State.putTeam_apertures (x : Team) : (s.putTeam x).apertures = s.apertures := rfl
@[simp] theorem State.putTeam_queues (x : Team) : (s.putTeam x).queues = s.queues := rfl
@[simp] theorem State.putTeam_launches (x : Team) : (s.putTeam x).launches = s.launches := rfl
@[simp] theorem State.putTeam_teams (x : Team) : (s.putTeam x).teams = lput s.teams (fun y => y.key == x.key) x := rfl
@[simp] theorem State.putTeam_waves (x : Team) : (s.putTeam x).waves = s.waves := rfl
@[simp] theorem State.putTeam_cores (x : Team) : (s.putTeam x).cores = s.cores := rfl
@[simp] theorem State.putTeam_quads (x : Team) : (s.putTeam x).quads = s.quads := rfl
@[simp] theorem State.putTeam_copies (x : Team) : (s.putTeam x).copies = s.copies := rfl
@[simp] theorem State.putTeam_dispatch (x : Team) : (s.putTeam x).dispatch = s.dispatch := rfl
@[simp] theorem State.putTeam_timetable (x : Team) : (s.putTeam x).timetable = s.timetable := rfl
@[simp] theorem State.putTeam_fires (x : Team) : (s.putTeam x).fires = s.fires := rfl
@[simp] theorem State.putTeam_skips (x : Team) : (s.putTeam x).skips = s.skips := rfl
@[simp] theorem State.putTeam_shutTick (x : Team) : (s.putTeam x).shutTick = s.shutTick := rfl
@[simp] theorem State.putTeam_shutArm (x : Team) : (s.putTeam x).shutArm = s.shutArm := rfl
@[simp] theorem State.putTeam_shutNow (x : Team) : (s.putTeam x).shutNow = s.shutNow := rfl
@[simp] theorem State.putTeam_gated (x : Team) : (s.putTeam x).gated = s.gated := rfl
@[simp] theorem State.putTeam_stream (x : Team) : (s.putTeam x).stream = s.stream := rfl
@[simp] theorem State.putTeam_heldDoors (x : Team) : (s.putTeam x).heldDoors = s.heldDoors := rfl
@[simp] theorem State.putTeam_heldEvents (x : Team) : (s.putTeam x).heldEvents = s.heldEvents := rfl
@[simp] theorem State.putTeam_podid (x : Team) : (s.putTeam x).podid = s.podid := rfl
@[simp] theorem State.putTeam_podidSet (x : Team) : (s.putTeam x).podidSet = s.podidSet := rfl
@[simp] theorem State.putTeam_peerTo (x : Team) : (s.putTeam x).peerTo = s.peerTo := rfl
@[simp] theorem State.putTeam_links (x : Team) : (s.putTeam x).links = s.links := rfl
@[simp] theorem State.putTeam_podArrs (x : Team) : (s.putTeam x).podArrs = s.podArrs := rfl
@[simp] theorem State.putTeam_trAddr (x : Team) : (s.putTeam x).trAddr = s.trAddr := rfl
@[simp] theorem State.putTeam_trSize (x : Team) : (s.putTeam x).trSize = s.trSize := rfl
@[simp] theorem State.putTeam_trMask (x : Team) : (s.putTeam x).trMask = s.trMask := rfl
@[simp] theorem State.putTeam_trTail (x : Team) : (s.putTeam x).trTail = s.trTail := rfl
@[simp] theorem State.putTeam_trHead (x : Team) : (s.putTeam x).trHead = s.trHead := rfl
@[simp] theorem State.putTeam_trStat (x : Team) : (s.putTeam x).trStat = s.trStat := rfl
@[simp] theorem State.putTeam_trSrcs (x : Team) : (s.putTeam x).trSrcs = s.trSrcs := rfl
@[simp] theorem State.putTeam_bins (x : Team) : (s.putTeam x).bins = s.bins := rfl
@[simp] theorem State.putTeam_histLast (x : Team) : (s.putTeam x).histLast = s.histLast := rfl
@[simp] theorem State.putTeam_flushLast (x : Team) : (s.putTeam x).flushLast = s.flushLast := rfl

/-! ### putLaunch -/

@[simp] theorem State.putLaunch_agenda (x : Launch) : (s.putLaunch x).agenda = s.agenda := rfl
@[simp] theorem State.putLaunch_nondet (x : Launch) : (s.putLaunch x).nondet = s.nondet := rfl
@[simp] theorem State.putLaunch_fresh (x : Launch) : (s.putLaunch x).fresh = s.fresh := rfl
@[simp] theorem State.putLaunch_cur (x : Launch) : (s.putLaunch x).cur = s.cur := rfl
@[simp] theorem State.putLaunch_outbox (x : Launch) : (s.putLaunch x).outbox = s.outbox := rfl
@[simp] theorem State.putLaunch_mem (x : Launch) : (s.putLaunch x).mem = s.mem := rfl
@[simp] theorem State.putLaunch_poison (x : Launch) : (s.putLaunch x).poison = s.poison := rfl
@[simp] theorem State.putLaunch_rewrote (x : Launch) : (s.putLaunch x).rewrote = s.rewrote := rfl
@[simp] theorem State.putLaunch_hist (x : Launch) : (s.putLaunch x).hist = s.hist := rfl
@[simp] theorem State.putLaunch_written (x : Launch) : (s.putLaunch x).written = s.written := rfl
@[simp] theorem State.putLaunch_fences (x : Launch) : (s.putLaunch x).fences = s.fences := rfl
@[simp] theorem State.putLaunch_peers (x : Launch) : (s.putLaunch x).peers = s.peers := rfl
@[simp] theorem State.putLaunch_forms (x : Launch) : (s.putLaunch x).forms = s.forms := rfl
@[simp] theorem State.putLaunch_ready (x : Launch) : (s.putLaunch x).ready = s.ready := rfl
@[simp] theorem State.putLaunch_diesok (x : Launch) : (s.putLaunch x).diesok = s.diesok := rfl
@[simp] theorem State.putLaunch_dead (x : Launch) : (s.putLaunch x).dead = s.dead := rfl
@[simp] theorem State.putLaunch_repair (x : Launch) : (s.putLaunch x).repair = s.repair := rfl
@[simp] theorem State.putLaunch_quadMap (x : Launch) : (s.putLaunch x).quadMap = s.quadMap := rfl
@[simp] theorem State.putLaunch_cap (x : Launch) : (s.putLaunch x).cap = s.cap := rfl
@[simp] theorem State.putLaunch_rows (x : Launch) : (s.putLaunch x).rows = s.rows := rfl
@[simp] theorem State.putLaunch_rowEvents (x : Launch) : (s.putLaunch x).rowEvents = s.rowEvents := rfl
@[simp] theorem State.putLaunch_corrected (x : Launch) : (s.putLaunch x).corrected = s.corrected := rfl
@[simp] theorem State.putLaunch_uncorrected (x : Launch) : (s.putLaunch x).uncorrected = s.uncorrected := rfl
@[simp] theorem State.putLaunch_tick (x : Launch) : (s.putLaunch x).tick = s.tick := rfl
@[simp] theorem State.putLaunch_clock (x : Launch) : (s.putLaunch x).clock = s.clock := rfl
@[simp] theorem State.putLaunch_tai (x : Launch) : (s.putLaunch x).tai = s.tai := rfl
@[simp] theorem State.putLaunch_taiRate (x : Launch) : (s.putLaunch x).taiRate = s.taiRate := rfl
@[simp] theorem State.putLaunch_ppsTick (x : Launch) : (s.putLaunch x).ppsTick = s.ppsTick := rfl
@[simp] theorem State.putLaunch_ppsTai (x : Launch) : (s.putLaunch x).ppsTai = s.ppsTai := rfl
@[simp] theorem State.putLaunch_ppsLast (x : Launch) : (s.putLaunch x).ppsLast = s.ppsLast := rfl
@[simp] theorem State.putLaunch_ppsSet (x : Launch) : (s.putLaunch x).ppsSet = s.ppsSet := rfl
@[simp] theorem State.putLaunch_link0 (x : Launch) : (s.putLaunch x).link0 = s.link0 := rfl
@[simp] theorem State.putLaunch_link1 (x : Launch) : (s.putLaunch x).link1 = s.link1 := rfl
@[simp] theorem State.putLaunch_paired0 (x : Launch) : (s.putLaunch x).paired0 = s.paired0 := rfl
@[simp] theorem State.putLaunch_paired1 (x : Launch) : (s.putLaunch x).paired1 = s.paired1 := rfl
@[simp] theorem State.putLaunch_unmasked (x : Launch) : (s.putLaunch x).unmasked = s.unmasked := rfl
@[simp] theorem State.putLaunch_pending (x : Launch) : (s.putLaunch x).pending = s.pending := rfl
@[simp] theorem State.putLaunch_msixTab (x : Launch) : (s.putLaunch x).msixTab = s.msixTab := rfl
@[simp] theorem State.putLaunch_iommu (x : Launch) : (s.putLaunch x).iommu = s.iommu := rfl
@[simp] theorem State.putLaunch_pri (x : Launch) : (s.putLaunch x).pri = s.pri := rfl
@[simp] theorem State.putLaunch_tlb (x : Launch) : (s.putLaunch x).tlb = s.tlb := rfl
@[simp] theorem State.putLaunch_ctl (x : Launch) : (s.putLaunch x).ctl = s.ctl := rfl
@[simp] theorem State.putLaunch_admEnable (x : Launch) : (s.putLaunch x).admEnable = s.admEnable := rfl
@[simp] theorem State.putLaunch_admLg (x : Launch) : (s.putLaunch x).admLg = s.admLg := rfl
@[simp] theorem State.putLaunch_admWidx (x : Launch) : (s.putLaunch x).admWidx = s.admWidx := rfl
@[simp] theorem State.putLaunch_admRidx (x : Launch) : (s.putLaunch x).admRidx = s.admRidx := rfl
@[simp] theorem State.putLaunch_adm (x : Launch) : (s.putLaunch x).adm = s.adm := rfl
@[simp] theorem State.putLaunch_fqEnable (x : Launch) : (s.putLaunch x).fqEnable = s.fqEnable := rfl
@[simp] theorem State.putLaunch_fqLg (x : Launch) : (s.putLaunch x).fqLg = s.fqLg := rfl
@[simp] theorem State.putLaunch_fqTail (x : Launch) : (s.putLaunch x).fqTail = s.fqTail := rfl
@[simp] theorem State.putLaunch_fqHead (x : Launch) : (s.putLaunch x).fqHead = s.fqHead := rfl
@[simp] theorem State.putLaunch_fqHeld (x : Launch) : (s.putLaunch x).fqHeld = s.fqHeld := rfl
@[simp] theorem State.putLaunch_fqOpen (x : Launch) : (s.putLaunch x).fqOpen = s.fqOpen := rfl
@[simp] theorem State.putLaunch_ctxs (x : Launch) : (s.putLaunch x).ctxs = s.ctxs := rfl
@[simp] theorem State.putLaunch_apertures (x : Launch) : (s.putLaunch x).apertures = s.apertures := rfl
@[simp] theorem State.putLaunch_queues (x : Launch) : (s.putLaunch x).queues = s.queues := rfl
@[simp] theorem State.putLaunch_launches (x : Launch) : (s.putLaunch x).launches = lput s.launches (fun y => y.key == x.key) x := rfl
@[simp] theorem State.putLaunch_teams (x : Launch) : (s.putLaunch x).teams = s.teams := rfl
@[simp] theorem State.putLaunch_waves (x : Launch) : (s.putLaunch x).waves = s.waves := rfl
@[simp] theorem State.putLaunch_cores (x : Launch) : (s.putLaunch x).cores = s.cores := rfl
@[simp] theorem State.putLaunch_quads (x : Launch) : (s.putLaunch x).quads = s.quads := rfl
@[simp] theorem State.putLaunch_copies (x : Launch) : (s.putLaunch x).copies = s.copies := rfl
@[simp] theorem State.putLaunch_dispatch (x : Launch) : (s.putLaunch x).dispatch = s.dispatch := rfl
@[simp] theorem State.putLaunch_timetable (x : Launch) : (s.putLaunch x).timetable = s.timetable := rfl
@[simp] theorem State.putLaunch_fires (x : Launch) : (s.putLaunch x).fires = s.fires := rfl
@[simp] theorem State.putLaunch_skips (x : Launch) : (s.putLaunch x).skips = s.skips := rfl
@[simp] theorem State.putLaunch_shutTick (x : Launch) : (s.putLaunch x).shutTick = s.shutTick := rfl
@[simp] theorem State.putLaunch_shutArm (x : Launch) : (s.putLaunch x).shutArm = s.shutArm := rfl
@[simp] theorem State.putLaunch_shutNow (x : Launch) : (s.putLaunch x).shutNow = s.shutNow := rfl
@[simp] theorem State.putLaunch_gated (x : Launch) : (s.putLaunch x).gated = s.gated := rfl
@[simp] theorem State.putLaunch_stream (x : Launch) : (s.putLaunch x).stream = s.stream := rfl
@[simp] theorem State.putLaunch_heldDoors (x : Launch) : (s.putLaunch x).heldDoors = s.heldDoors := rfl
@[simp] theorem State.putLaunch_heldEvents (x : Launch) : (s.putLaunch x).heldEvents = s.heldEvents := rfl
@[simp] theorem State.putLaunch_podid (x : Launch) : (s.putLaunch x).podid = s.podid := rfl
@[simp] theorem State.putLaunch_podidSet (x : Launch) : (s.putLaunch x).podidSet = s.podidSet := rfl
@[simp] theorem State.putLaunch_peerTo (x : Launch) : (s.putLaunch x).peerTo = s.peerTo := rfl
@[simp] theorem State.putLaunch_links (x : Launch) : (s.putLaunch x).links = s.links := rfl
@[simp] theorem State.putLaunch_podArrs (x : Launch) : (s.putLaunch x).podArrs = s.podArrs := rfl
@[simp] theorem State.putLaunch_trAddr (x : Launch) : (s.putLaunch x).trAddr = s.trAddr := rfl
@[simp] theorem State.putLaunch_trSize (x : Launch) : (s.putLaunch x).trSize = s.trSize := rfl
@[simp] theorem State.putLaunch_trMask (x : Launch) : (s.putLaunch x).trMask = s.trMask := rfl
@[simp] theorem State.putLaunch_trTail (x : Launch) : (s.putLaunch x).trTail = s.trTail := rfl
@[simp] theorem State.putLaunch_trHead (x : Launch) : (s.putLaunch x).trHead = s.trHead := rfl
@[simp] theorem State.putLaunch_trStat (x : Launch) : (s.putLaunch x).trStat = s.trStat := rfl
@[simp] theorem State.putLaunch_trSrcs (x : Launch) : (s.putLaunch x).trSrcs = s.trSrcs := rfl
@[simp] theorem State.putLaunch_bins (x : Launch) : (s.putLaunch x).bins = s.bins := rfl
@[simp] theorem State.putLaunch_histLast (x : Launch) : (s.putLaunch x).histLast = s.histLast := rfl
@[simp] theorem State.putLaunch_flushLast (x : Launch) : (s.putLaunch x).flushLast = s.flushLast := rfl

/-! ### putCtx -/

@[simp] theorem State.putCtx_agenda (x : Ctx) : (s.putCtx x).agenda = s.agenda := rfl
@[simp] theorem State.putCtx_nondet (x : Ctx) : (s.putCtx x).nondet = s.nondet := rfl
@[simp] theorem State.putCtx_fresh (x : Ctx) : (s.putCtx x).fresh = s.fresh := rfl
@[simp] theorem State.putCtx_cur (x : Ctx) : (s.putCtx x).cur = s.cur := rfl
@[simp] theorem State.putCtx_outbox (x : Ctx) : (s.putCtx x).outbox = s.outbox := rfl
@[simp] theorem State.putCtx_mem (x : Ctx) : (s.putCtx x).mem = s.mem := rfl
@[simp] theorem State.putCtx_poison (x : Ctx) : (s.putCtx x).poison = s.poison := rfl
@[simp] theorem State.putCtx_rewrote (x : Ctx) : (s.putCtx x).rewrote = s.rewrote := rfl
@[simp] theorem State.putCtx_hist (x : Ctx) : (s.putCtx x).hist = s.hist := rfl
@[simp] theorem State.putCtx_written (x : Ctx) : (s.putCtx x).written = s.written := rfl
@[simp] theorem State.putCtx_fences (x : Ctx) : (s.putCtx x).fences = s.fences := rfl
@[simp] theorem State.putCtx_peers (x : Ctx) : (s.putCtx x).peers = s.peers := rfl
@[simp] theorem State.putCtx_forms (x : Ctx) : (s.putCtx x).forms = s.forms := rfl
@[simp] theorem State.putCtx_ready (x : Ctx) : (s.putCtx x).ready = s.ready := rfl
@[simp] theorem State.putCtx_diesok (x : Ctx) : (s.putCtx x).diesok = s.diesok := rfl
@[simp] theorem State.putCtx_dead (x : Ctx) : (s.putCtx x).dead = s.dead := rfl
@[simp] theorem State.putCtx_repair (x : Ctx) : (s.putCtx x).repair = s.repair := rfl
@[simp] theorem State.putCtx_quadMap (x : Ctx) : (s.putCtx x).quadMap = s.quadMap := rfl
@[simp] theorem State.putCtx_cap (x : Ctx) : (s.putCtx x).cap = s.cap := rfl
@[simp] theorem State.putCtx_rows (x : Ctx) : (s.putCtx x).rows = s.rows := rfl
@[simp] theorem State.putCtx_rowEvents (x : Ctx) : (s.putCtx x).rowEvents = s.rowEvents := rfl
@[simp] theorem State.putCtx_corrected (x : Ctx) : (s.putCtx x).corrected = s.corrected := rfl
@[simp] theorem State.putCtx_uncorrected (x : Ctx) : (s.putCtx x).uncorrected = s.uncorrected := rfl
@[simp] theorem State.putCtx_tick (x : Ctx) : (s.putCtx x).tick = s.tick := rfl
@[simp] theorem State.putCtx_clock (x : Ctx) : (s.putCtx x).clock = s.clock := rfl
@[simp] theorem State.putCtx_tai (x : Ctx) : (s.putCtx x).tai = s.tai := rfl
@[simp] theorem State.putCtx_taiRate (x : Ctx) : (s.putCtx x).taiRate = s.taiRate := rfl
@[simp] theorem State.putCtx_ppsTick (x : Ctx) : (s.putCtx x).ppsTick = s.ppsTick := rfl
@[simp] theorem State.putCtx_ppsTai (x : Ctx) : (s.putCtx x).ppsTai = s.ppsTai := rfl
@[simp] theorem State.putCtx_ppsLast (x : Ctx) : (s.putCtx x).ppsLast = s.ppsLast := rfl
@[simp] theorem State.putCtx_ppsSet (x : Ctx) : (s.putCtx x).ppsSet = s.ppsSet := rfl
@[simp] theorem State.putCtx_link0 (x : Ctx) : (s.putCtx x).link0 = s.link0 := rfl
@[simp] theorem State.putCtx_link1 (x : Ctx) : (s.putCtx x).link1 = s.link1 := rfl
@[simp] theorem State.putCtx_paired0 (x : Ctx) : (s.putCtx x).paired0 = s.paired0 := rfl
@[simp] theorem State.putCtx_paired1 (x : Ctx) : (s.putCtx x).paired1 = s.paired1 := rfl
@[simp] theorem State.putCtx_unmasked (x : Ctx) : (s.putCtx x).unmasked = s.unmasked := rfl
@[simp] theorem State.putCtx_pending (x : Ctx) : (s.putCtx x).pending = s.pending := rfl
@[simp] theorem State.putCtx_msixTab (x : Ctx) : (s.putCtx x).msixTab = s.msixTab := rfl
@[simp] theorem State.putCtx_iommu (x : Ctx) : (s.putCtx x).iommu = s.iommu := rfl
@[simp] theorem State.putCtx_pri (x : Ctx) : (s.putCtx x).pri = s.pri := rfl
@[simp] theorem State.putCtx_tlb (x : Ctx) : (s.putCtx x).tlb = s.tlb := rfl
@[simp] theorem State.putCtx_ctl (x : Ctx) : (s.putCtx x).ctl = s.ctl := rfl
@[simp] theorem State.putCtx_admEnable (x : Ctx) : (s.putCtx x).admEnable = s.admEnable := rfl
@[simp] theorem State.putCtx_admLg (x : Ctx) : (s.putCtx x).admLg = s.admLg := rfl
@[simp] theorem State.putCtx_admWidx (x : Ctx) : (s.putCtx x).admWidx = s.admWidx := rfl
@[simp] theorem State.putCtx_admRidx (x : Ctx) : (s.putCtx x).admRidx = s.admRidx := rfl
@[simp] theorem State.putCtx_adm (x : Ctx) : (s.putCtx x).adm = s.adm := rfl
@[simp] theorem State.putCtx_fqEnable (x : Ctx) : (s.putCtx x).fqEnable = s.fqEnable := rfl
@[simp] theorem State.putCtx_fqLg (x : Ctx) : (s.putCtx x).fqLg = s.fqLg := rfl
@[simp] theorem State.putCtx_fqTail (x : Ctx) : (s.putCtx x).fqTail = s.fqTail := rfl
@[simp] theorem State.putCtx_fqHead (x : Ctx) : (s.putCtx x).fqHead = s.fqHead := rfl
@[simp] theorem State.putCtx_fqHeld (x : Ctx) : (s.putCtx x).fqHeld = s.fqHeld := rfl
@[simp] theorem State.putCtx_fqOpen (x : Ctx) : (s.putCtx x).fqOpen = s.fqOpen := rfl
@[simp] theorem State.putCtx_ctxs (x : Ctx) : (s.putCtx x).ctxs = lput s.ctxs (fun y => y.id == x.id) x := rfl
@[simp] theorem State.putCtx_apertures (x : Ctx) : (s.putCtx x).apertures = s.apertures := rfl
@[simp] theorem State.putCtx_queues (x : Ctx) : (s.putCtx x).queues = s.queues := rfl
@[simp] theorem State.putCtx_launches (x : Ctx) : (s.putCtx x).launches = s.launches := rfl
@[simp] theorem State.putCtx_teams (x : Ctx) : (s.putCtx x).teams = s.teams := rfl
@[simp] theorem State.putCtx_waves (x : Ctx) : (s.putCtx x).waves = s.waves := rfl
@[simp] theorem State.putCtx_cores (x : Ctx) : (s.putCtx x).cores = s.cores := rfl
@[simp] theorem State.putCtx_quads (x : Ctx) : (s.putCtx x).quads = s.quads := rfl
@[simp] theorem State.putCtx_copies (x : Ctx) : (s.putCtx x).copies = s.copies := rfl
@[simp] theorem State.putCtx_dispatch (x : Ctx) : (s.putCtx x).dispatch = s.dispatch := rfl
@[simp] theorem State.putCtx_timetable (x : Ctx) : (s.putCtx x).timetable = s.timetable := rfl
@[simp] theorem State.putCtx_fires (x : Ctx) : (s.putCtx x).fires = s.fires := rfl
@[simp] theorem State.putCtx_skips (x : Ctx) : (s.putCtx x).skips = s.skips := rfl
@[simp] theorem State.putCtx_shutTick (x : Ctx) : (s.putCtx x).shutTick = s.shutTick := rfl
@[simp] theorem State.putCtx_shutArm (x : Ctx) : (s.putCtx x).shutArm = s.shutArm := rfl
@[simp] theorem State.putCtx_shutNow (x : Ctx) : (s.putCtx x).shutNow = s.shutNow := rfl
@[simp] theorem State.putCtx_gated (x : Ctx) : (s.putCtx x).gated = s.gated := rfl
@[simp] theorem State.putCtx_stream (x : Ctx) : (s.putCtx x).stream = s.stream := rfl
@[simp] theorem State.putCtx_heldDoors (x : Ctx) : (s.putCtx x).heldDoors = s.heldDoors := rfl
@[simp] theorem State.putCtx_heldEvents (x : Ctx) : (s.putCtx x).heldEvents = s.heldEvents := rfl
@[simp] theorem State.putCtx_podid (x : Ctx) : (s.putCtx x).podid = s.podid := rfl
@[simp] theorem State.putCtx_podidSet (x : Ctx) : (s.putCtx x).podidSet = s.podidSet := rfl
@[simp] theorem State.putCtx_peerTo (x : Ctx) : (s.putCtx x).peerTo = s.peerTo := rfl
@[simp] theorem State.putCtx_links (x : Ctx) : (s.putCtx x).links = s.links := rfl
@[simp] theorem State.putCtx_podArrs (x : Ctx) : (s.putCtx x).podArrs = s.podArrs := rfl
@[simp] theorem State.putCtx_trAddr (x : Ctx) : (s.putCtx x).trAddr = s.trAddr := rfl
@[simp] theorem State.putCtx_trSize (x : Ctx) : (s.putCtx x).trSize = s.trSize := rfl
@[simp] theorem State.putCtx_trMask (x : Ctx) : (s.putCtx x).trMask = s.trMask := rfl
@[simp] theorem State.putCtx_trTail (x : Ctx) : (s.putCtx x).trTail = s.trTail := rfl
@[simp] theorem State.putCtx_trHead (x : Ctx) : (s.putCtx x).trHead = s.trHead := rfl
@[simp] theorem State.putCtx_trStat (x : Ctx) : (s.putCtx x).trStat = s.trStat := rfl
@[simp] theorem State.putCtx_trSrcs (x : Ctx) : (s.putCtx x).trSrcs = s.trSrcs := rfl
@[simp] theorem State.putCtx_bins (x : Ctx) : (s.putCtx x).bins = s.bins := rfl
@[simp] theorem State.putCtx_histLast (x : Ctx) : (s.putCtx x).histLast = s.histLast := rfl
@[simp] theorem State.putCtx_flushLast (x : Ctx) : (s.putCtx x).flushLast = s.flushLast := rfl

/-! ### putQueue -/

@[simp] theorem State.putQueue_agenda (x : Queue) : (s.putQueue x).agenda = s.agenda := rfl
@[simp] theorem State.putQueue_nondet (x : Queue) : (s.putQueue x).nondet = s.nondet := rfl
@[simp] theorem State.putQueue_fresh (x : Queue) : (s.putQueue x).fresh = s.fresh := rfl
@[simp] theorem State.putQueue_cur (x : Queue) : (s.putQueue x).cur = s.cur := rfl
@[simp] theorem State.putQueue_outbox (x : Queue) : (s.putQueue x).outbox = s.outbox := rfl
@[simp] theorem State.putQueue_mem (x : Queue) : (s.putQueue x).mem = s.mem := rfl
@[simp] theorem State.putQueue_poison (x : Queue) : (s.putQueue x).poison = s.poison := rfl
@[simp] theorem State.putQueue_rewrote (x : Queue) : (s.putQueue x).rewrote = s.rewrote := rfl
@[simp] theorem State.putQueue_hist (x : Queue) : (s.putQueue x).hist = s.hist := rfl
@[simp] theorem State.putQueue_written (x : Queue) : (s.putQueue x).written = s.written := rfl
@[simp] theorem State.putQueue_fences (x : Queue) : (s.putQueue x).fences = s.fences := rfl
@[simp] theorem State.putQueue_peers (x : Queue) : (s.putQueue x).peers = s.peers := rfl
@[simp] theorem State.putQueue_forms (x : Queue) : (s.putQueue x).forms = s.forms := rfl
@[simp] theorem State.putQueue_ready (x : Queue) : (s.putQueue x).ready = s.ready := rfl
@[simp] theorem State.putQueue_diesok (x : Queue) : (s.putQueue x).diesok = s.diesok := rfl
@[simp] theorem State.putQueue_dead (x : Queue) : (s.putQueue x).dead = s.dead := rfl
@[simp] theorem State.putQueue_repair (x : Queue) : (s.putQueue x).repair = s.repair := rfl
@[simp] theorem State.putQueue_quadMap (x : Queue) : (s.putQueue x).quadMap = s.quadMap := rfl
@[simp] theorem State.putQueue_cap (x : Queue) : (s.putQueue x).cap = s.cap := rfl
@[simp] theorem State.putQueue_rows (x : Queue) : (s.putQueue x).rows = s.rows := rfl
@[simp] theorem State.putQueue_rowEvents (x : Queue) : (s.putQueue x).rowEvents = s.rowEvents := rfl
@[simp] theorem State.putQueue_corrected (x : Queue) : (s.putQueue x).corrected = s.corrected := rfl
@[simp] theorem State.putQueue_uncorrected (x : Queue) : (s.putQueue x).uncorrected = s.uncorrected := rfl
@[simp] theorem State.putQueue_tick (x : Queue) : (s.putQueue x).tick = s.tick := rfl
@[simp] theorem State.putQueue_clock (x : Queue) : (s.putQueue x).clock = s.clock := rfl
@[simp] theorem State.putQueue_tai (x : Queue) : (s.putQueue x).tai = s.tai := rfl
@[simp] theorem State.putQueue_taiRate (x : Queue) : (s.putQueue x).taiRate = s.taiRate := rfl
@[simp] theorem State.putQueue_ppsTick (x : Queue) : (s.putQueue x).ppsTick = s.ppsTick := rfl
@[simp] theorem State.putQueue_ppsTai (x : Queue) : (s.putQueue x).ppsTai = s.ppsTai := rfl
@[simp] theorem State.putQueue_ppsLast (x : Queue) : (s.putQueue x).ppsLast = s.ppsLast := rfl
@[simp] theorem State.putQueue_ppsSet (x : Queue) : (s.putQueue x).ppsSet = s.ppsSet := rfl
@[simp] theorem State.putQueue_link0 (x : Queue) : (s.putQueue x).link0 = s.link0 := rfl
@[simp] theorem State.putQueue_link1 (x : Queue) : (s.putQueue x).link1 = s.link1 := rfl
@[simp] theorem State.putQueue_paired0 (x : Queue) : (s.putQueue x).paired0 = s.paired0 := rfl
@[simp] theorem State.putQueue_paired1 (x : Queue) : (s.putQueue x).paired1 = s.paired1 := rfl
@[simp] theorem State.putQueue_unmasked (x : Queue) : (s.putQueue x).unmasked = s.unmasked := rfl
@[simp] theorem State.putQueue_pending (x : Queue) : (s.putQueue x).pending = s.pending := rfl
@[simp] theorem State.putQueue_msixTab (x : Queue) : (s.putQueue x).msixTab = s.msixTab := rfl
@[simp] theorem State.putQueue_iommu (x : Queue) : (s.putQueue x).iommu = s.iommu := rfl
@[simp] theorem State.putQueue_pri (x : Queue) : (s.putQueue x).pri = s.pri := rfl
@[simp] theorem State.putQueue_tlb (x : Queue) : (s.putQueue x).tlb = s.tlb := rfl
@[simp] theorem State.putQueue_ctl (x : Queue) : (s.putQueue x).ctl = s.ctl := rfl
@[simp] theorem State.putQueue_admEnable (x : Queue) : (s.putQueue x).admEnable = s.admEnable := rfl
@[simp] theorem State.putQueue_admLg (x : Queue) : (s.putQueue x).admLg = s.admLg := rfl
@[simp] theorem State.putQueue_admWidx (x : Queue) : (s.putQueue x).admWidx = s.admWidx := rfl
@[simp] theorem State.putQueue_admRidx (x : Queue) : (s.putQueue x).admRidx = s.admRidx := rfl
@[simp] theorem State.putQueue_adm (x : Queue) : (s.putQueue x).adm = s.adm := rfl
@[simp] theorem State.putQueue_fqEnable (x : Queue) : (s.putQueue x).fqEnable = s.fqEnable := rfl
@[simp] theorem State.putQueue_fqLg (x : Queue) : (s.putQueue x).fqLg = s.fqLg := rfl
@[simp] theorem State.putQueue_fqTail (x : Queue) : (s.putQueue x).fqTail = s.fqTail := rfl
@[simp] theorem State.putQueue_fqHead (x : Queue) : (s.putQueue x).fqHead = s.fqHead := rfl
@[simp] theorem State.putQueue_fqHeld (x : Queue) : (s.putQueue x).fqHeld = s.fqHeld := rfl
@[simp] theorem State.putQueue_fqOpen (x : Queue) : (s.putQueue x).fqOpen = s.fqOpen := rfl
@[simp] theorem State.putQueue_ctxs (x : Queue) : (s.putQueue x).ctxs = s.ctxs := rfl
@[simp] theorem State.putQueue_apertures (x : Queue) : (s.putQueue x).apertures = s.apertures := rfl
@[simp] theorem State.putQueue_queues (x : Queue) : (s.putQueue x).queues = lput s.queues (fun y => y.id == x.id) x := rfl
@[simp] theorem State.putQueue_launches (x : Queue) : (s.putQueue x).launches = s.launches := rfl
@[simp] theorem State.putQueue_teams (x : Queue) : (s.putQueue x).teams = s.teams := rfl
@[simp] theorem State.putQueue_waves (x : Queue) : (s.putQueue x).waves = s.waves := rfl
@[simp] theorem State.putQueue_cores (x : Queue) : (s.putQueue x).cores = s.cores := rfl
@[simp] theorem State.putQueue_quads (x : Queue) : (s.putQueue x).quads = s.quads := rfl
@[simp] theorem State.putQueue_copies (x : Queue) : (s.putQueue x).copies = s.copies := rfl
@[simp] theorem State.putQueue_dispatch (x : Queue) : (s.putQueue x).dispatch = s.dispatch := rfl
@[simp] theorem State.putQueue_timetable (x : Queue) : (s.putQueue x).timetable = s.timetable := rfl
@[simp] theorem State.putQueue_fires (x : Queue) : (s.putQueue x).fires = s.fires := rfl
@[simp] theorem State.putQueue_skips (x : Queue) : (s.putQueue x).skips = s.skips := rfl
@[simp] theorem State.putQueue_shutTick (x : Queue) : (s.putQueue x).shutTick = s.shutTick := rfl
@[simp] theorem State.putQueue_shutArm (x : Queue) : (s.putQueue x).shutArm = s.shutArm := rfl
@[simp] theorem State.putQueue_shutNow (x : Queue) : (s.putQueue x).shutNow = s.shutNow := rfl
@[simp] theorem State.putQueue_gated (x : Queue) : (s.putQueue x).gated = s.gated := rfl
@[simp] theorem State.putQueue_stream (x : Queue) : (s.putQueue x).stream = s.stream := rfl
@[simp] theorem State.putQueue_heldDoors (x : Queue) : (s.putQueue x).heldDoors = s.heldDoors := rfl
@[simp] theorem State.putQueue_heldEvents (x : Queue) : (s.putQueue x).heldEvents = s.heldEvents := rfl
@[simp] theorem State.putQueue_podid (x : Queue) : (s.putQueue x).podid = s.podid := rfl
@[simp] theorem State.putQueue_podidSet (x : Queue) : (s.putQueue x).podidSet = s.podidSet := rfl
@[simp] theorem State.putQueue_peerTo (x : Queue) : (s.putQueue x).peerTo = s.peerTo := rfl
@[simp] theorem State.putQueue_links (x : Queue) : (s.putQueue x).links = s.links := rfl
@[simp] theorem State.putQueue_podArrs (x : Queue) : (s.putQueue x).podArrs = s.podArrs := rfl
@[simp] theorem State.putQueue_trAddr (x : Queue) : (s.putQueue x).trAddr = s.trAddr := rfl
@[simp] theorem State.putQueue_trSize (x : Queue) : (s.putQueue x).trSize = s.trSize := rfl
@[simp] theorem State.putQueue_trMask (x : Queue) : (s.putQueue x).trMask = s.trMask := rfl
@[simp] theorem State.putQueue_trTail (x : Queue) : (s.putQueue x).trTail = s.trTail := rfl
@[simp] theorem State.putQueue_trHead (x : Queue) : (s.putQueue x).trHead = s.trHead := rfl
@[simp] theorem State.putQueue_trStat (x : Queue) : (s.putQueue x).trStat = s.trStat := rfl
@[simp] theorem State.putQueue_trSrcs (x : Queue) : (s.putQueue x).trSrcs = s.trSrcs := rfl
@[simp] theorem State.putQueue_bins (x : Queue) : (s.putQueue x).bins = s.bins := rfl
@[simp] theorem State.putQueue_histLast (x : Queue) : (s.putQueue x).histLast = s.histLast := rfl
@[simp] theorem State.putQueue_flushLast (x : Queue) : (s.putQueue x).flushLast = s.flushLast := rfl

/-! ### putCore -/

@[simp] theorem State.putCore_agenda (x : Core) : (s.putCore x).agenda = s.agenda := rfl
@[simp] theorem State.putCore_nondet (x : Core) : (s.putCore x).nondet = s.nondet := rfl
@[simp] theorem State.putCore_fresh (x : Core) : (s.putCore x).fresh = s.fresh := rfl
@[simp] theorem State.putCore_cur (x : Core) : (s.putCore x).cur = s.cur := rfl
@[simp] theorem State.putCore_outbox (x : Core) : (s.putCore x).outbox = s.outbox := rfl
@[simp] theorem State.putCore_mem (x : Core) : (s.putCore x).mem = s.mem := rfl
@[simp] theorem State.putCore_poison (x : Core) : (s.putCore x).poison = s.poison := rfl
@[simp] theorem State.putCore_rewrote (x : Core) : (s.putCore x).rewrote = s.rewrote := rfl
@[simp] theorem State.putCore_hist (x : Core) : (s.putCore x).hist = s.hist := rfl
@[simp] theorem State.putCore_written (x : Core) : (s.putCore x).written = s.written := rfl
@[simp] theorem State.putCore_fences (x : Core) : (s.putCore x).fences = s.fences := rfl
@[simp] theorem State.putCore_peers (x : Core) : (s.putCore x).peers = s.peers := rfl
@[simp] theorem State.putCore_forms (x : Core) : (s.putCore x).forms = s.forms := rfl
@[simp] theorem State.putCore_ready (x : Core) : (s.putCore x).ready = s.ready := rfl
@[simp] theorem State.putCore_diesok (x : Core) : (s.putCore x).diesok = s.diesok := rfl
@[simp] theorem State.putCore_dead (x : Core) : (s.putCore x).dead = s.dead := rfl
@[simp] theorem State.putCore_repair (x : Core) : (s.putCore x).repair = s.repair := rfl
@[simp] theorem State.putCore_quadMap (x : Core) : (s.putCore x).quadMap = s.quadMap := rfl
@[simp] theorem State.putCore_cap (x : Core) : (s.putCore x).cap = s.cap := rfl
@[simp] theorem State.putCore_rows (x : Core) : (s.putCore x).rows = s.rows := rfl
@[simp] theorem State.putCore_rowEvents (x : Core) : (s.putCore x).rowEvents = s.rowEvents := rfl
@[simp] theorem State.putCore_corrected (x : Core) : (s.putCore x).corrected = s.corrected := rfl
@[simp] theorem State.putCore_uncorrected (x : Core) : (s.putCore x).uncorrected = s.uncorrected := rfl
@[simp] theorem State.putCore_tick (x : Core) : (s.putCore x).tick = s.tick := rfl
@[simp] theorem State.putCore_clock (x : Core) : (s.putCore x).clock = s.clock := rfl
@[simp] theorem State.putCore_tai (x : Core) : (s.putCore x).tai = s.tai := rfl
@[simp] theorem State.putCore_taiRate (x : Core) : (s.putCore x).taiRate = s.taiRate := rfl
@[simp] theorem State.putCore_ppsTick (x : Core) : (s.putCore x).ppsTick = s.ppsTick := rfl
@[simp] theorem State.putCore_ppsTai (x : Core) : (s.putCore x).ppsTai = s.ppsTai := rfl
@[simp] theorem State.putCore_ppsLast (x : Core) : (s.putCore x).ppsLast = s.ppsLast := rfl
@[simp] theorem State.putCore_ppsSet (x : Core) : (s.putCore x).ppsSet = s.ppsSet := rfl
@[simp] theorem State.putCore_link0 (x : Core) : (s.putCore x).link0 = s.link0 := rfl
@[simp] theorem State.putCore_link1 (x : Core) : (s.putCore x).link1 = s.link1 := rfl
@[simp] theorem State.putCore_paired0 (x : Core) : (s.putCore x).paired0 = s.paired0 := rfl
@[simp] theorem State.putCore_paired1 (x : Core) : (s.putCore x).paired1 = s.paired1 := rfl
@[simp] theorem State.putCore_unmasked (x : Core) : (s.putCore x).unmasked = s.unmasked := rfl
@[simp] theorem State.putCore_pending (x : Core) : (s.putCore x).pending = s.pending := rfl
@[simp] theorem State.putCore_msixTab (x : Core) : (s.putCore x).msixTab = s.msixTab := rfl
@[simp] theorem State.putCore_iommu (x : Core) : (s.putCore x).iommu = s.iommu := rfl
@[simp] theorem State.putCore_pri (x : Core) : (s.putCore x).pri = s.pri := rfl
@[simp] theorem State.putCore_tlb (x : Core) : (s.putCore x).tlb = s.tlb := rfl
@[simp] theorem State.putCore_ctl (x : Core) : (s.putCore x).ctl = s.ctl := rfl
@[simp] theorem State.putCore_admEnable (x : Core) : (s.putCore x).admEnable = s.admEnable := rfl
@[simp] theorem State.putCore_admLg (x : Core) : (s.putCore x).admLg = s.admLg := rfl
@[simp] theorem State.putCore_admWidx (x : Core) : (s.putCore x).admWidx = s.admWidx := rfl
@[simp] theorem State.putCore_admRidx (x : Core) : (s.putCore x).admRidx = s.admRidx := rfl
@[simp] theorem State.putCore_adm (x : Core) : (s.putCore x).adm = s.adm := rfl
@[simp] theorem State.putCore_fqEnable (x : Core) : (s.putCore x).fqEnable = s.fqEnable := rfl
@[simp] theorem State.putCore_fqLg (x : Core) : (s.putCore x).fqLg = s.fqLg := rfl
@[simp] theorem State.putCore_fqTail (x : Core) : (s.putCore x).fqTail = s.fqTail := rfl
@[simp] theorem State.putCore_fqHead (x : Core) : (s.putCore x).fqHead = s.fqHead := rfl
@[simp] theorem State.putCore_fqHeld (x : Core) : (s.putCore x).fqHeld = s.fqHeld := rfl
@[simp] theorem State.putCore_fqOpen (x : Core) : (s.putCore x).fqOpen = s.fqOpen := rfl
@[simp] theorem State.putCore_ctxs (x : Core) : (s.putCore x).ctxs = s.ctxs := rfl
@[simp] theorem State.putCore_apertures (x : Core) : (s.putCore x).apertures = s.apertures := rfl
@[simp] theorem State.putCore_queues (x : Core) : (s.putCore x).queues = s.queues := rfl
@[simp] theorem State.putCore_launches (x : Core) : (s.putCore x).launches = s.launches := rfl
@[simp] theorem State.putCore_teams (x : Core) : (s.putCore x).teams = s.teams := rfl
@[simp] theorem State.putCore_waves (x : Core) : (s.putCore x).waves = s.waves := rfl
@[simp] theorem State.putCore_cores (x : Core) : (s.putCore x).cores = lput s.cores (fun y => y.id == x.id) x := rfl
@[simp] theorem State.putCore_quads (x : Core) : (s.putCore x).quads = s.quads := rfl
@[simp] theorem State.putCore_copies (x : Core) : (s.putCore x).copies = s.copies := rfl
@[simp] theorem State.putCore_dispatch (x : Core) : (s.putCore x).dispatch = s.dispatch := rfl
@[simp] theorem State.putCore_timetable (x : Core) : (s.putCore x).timetable = s.timetable := rfl
@[simp] theorem State.putCore_fires (x : Core) : (s.putCore x).fires = s.fires := rfl
@[simp] theorem State.putCore_skips (x : Core) : (s.putCore x).skips = s.skips := rfl
@[simp] theorem State.putCore_shutTick (x : Core) : (s.putCore x).shutTick = s.shutTick := rfl
@[simp] theorem State.putCore_shutArm (x : Core) : (s.putCore x).shutArm = s.shutArm := rfl
@[simp] theorem State.putCore_shutNow (x : Core) : (s.putCore x).shutNow = s.shutNow := rfl
@[simp] theorem State.putCore_gated (x : Core) : (s.putCore x).gated = s.gated := rfl
@[simp] theorem State.putCore_stream (x : Core) : (s.putCore x).stream = s.stream := rfl
@[simp] theorem State.putCore_heldDoors (x : Core) : (s.putCore x).heldDoors = s.heldDoors := rfl
@[simp] theorem State.putCore_heldEvents (x : Core) : (s.putCore x).heldEvents = s.heldEvents := rfl
@[simp] theorem State.putCore_podid (x : Core) : (s.putCore x).podid = s.podid := rfl
@[simp] theorem State.putCore_podidSet (x : Core) : (s.putCore x).podidSet = s.podidSet := rfl
@[simp] theorem State.putCore_peerTo (x : Core) : (s.putCore x).peerTo = s.peerTo := rfl
@[simp] theorem State.putCore_links (x : Core) : (s.putCore x).links = s.links := rfl
@[simp] theorem State.putCore_podArrs (x : Core) : (s.putCore x).podArrs = s.podArrs := rfl
@[simp] theorem State.putCore_trAddr (x : Core) : (s.putCore x).trAddr = s.trAddr := rfl
@[simp] theorem State.putCore_trSize (x : Core) : (s.putCore x).trSize = s.trSize := rfl
@[simp] theorem State.putCore_trMask (x : Core) : (s.putCore x).trMask = s.trMask := rfl
@[simp] theorem State.putCore_trTail (x : Core) : (s.putCore x).trTail = s.trTail := rfl
@[simp] theorem State.putCore_trHead (x : Core) : (s.putCore x).trHead = s.trHead := rfl
@[simp] theorem State.putCore_trStat (x : Core) : (s.putCore x).trStat = s.trStat := rfl
@[simp] theorem State.putCore_trSrcs (x : Core) : (s.putCore x).trSrcs = s.trSrcs := rfl
@[simp] theorem State.putCore_bins (x : Core) : (s.putCore x).bins = s.bins := rfl
@[simp] theorem State.putCore_histLast (x : Core) : (s.putCore x).histLast = s.histLast := rfl
@[simp] theorem State.putCore_flushLast (x : Core) : (s.putCore x).flushLast = s.flushLast := rfl

/-! ### putQuad -/

@[simp] theorem State.putQuad_agenda (x : Quad) : (s.putQuad x).agenda = s.agenda := rfl
@[simp] theorem State.putQuad_nondet (x : Quad) : (s.putQuad x).nondet = s.nondet := rfl
@[simp] theorem State.putQuad_fresh (x : Quad) : (s.putQuad x).fresh = s.fresh := rfl
@[simp] theorem State.putQuad_cur (x : Quad) : (s.putQuad x).cur = s.cur := rfl
@[simp] theorem State.putQuad_outbox (x : Quad) : (s.putQuad x).outbox = s.outbox := rfl
@[simp] theorem State.putQuad_mem (x : Quad) : (s.putQuad x).mem = s.mem := rfl
@[simp] theorem State.putQuad_poison (x : Quad) : (s.putQuad x).poison = s.poison := rfl
@[simp] theorem State.putQuad_rewrote (x : Quad) : (s.putQuad x).rewrote = s.rewrote := rfl
@[simp] theorem State.putQuad_hist (x : Quad) : (s.putQuad x).hist = s.hist := rfl
@[simp] theorem State.putQuad_written (x : Quad) : (s.putQuad x).written = s.written := rfl
@[simp] theorem State.putQuad_fences (x : Quad) : (s.putQuad x).fences = s.fences := rfl
@[simp] theorem State.putQuad_peers (x : Quad) : (s.putQuad x).peers = s.peers := rfl
@[simp] theorem State.putQuad_forms (x : Quad) : (s.putQuad x).forms = s.forms := rfl
@[simp] theorem State.putQuad_ready (x : Quad) : (s.putQuad x).ready = s.ready := rfl
@[simp] theorem State.putQuad_diesok (x : Quad) : (s.putQuad x).diesok = s.diesok := rfl
@[simp] theorem State.putQuad_dead (x : Quad) : (s.putQuad x).dead = s.dead := rfl
@[simp] theorem State.putQuad_repair (x : Quad) : (s.putQuad x).repair = s.repair := rfl
@[simp] theorem State.putQuad_quadMap (x : Quad) : (s.putQuad x).quadMap = s.quadMap := rfl
@[simp] theorem State.putQuad_cap (x : Quad) : (s.putQuad x).cap = s.cap := rfl
@[simp] theorem State.putQuad_rows (x : Quad) : (s.putQuad x).rows = s.rows := rfl
@[simp] theorem State.putQuad_rowEvents (x : Quad) : (s.putQuad x).rowEvents = s.rowEvents := rfl
@[simp] theorem State.putQuad_corrected (x : Quad) : (s.putQuad x).corrected = s.corrected := rfl
@[simp] theorem State.putQuad_uncorrected (x : Quad) : (s.putQuad x).uncorrected = s.uncorrected := rfl
@[simp] theorem State.putQuad_tick (x : Quad) : (s.putQuad x).tick = s.tick := rfl
@[simp] theorem State.putQuad_clock (x : Quad) : (s.putQuad x).clock = s.clock := rfl
@[simp] theorem State.putQuad_tai (x : Quad) : (s.putQuad x).tai = s.tai := rfl
@[simp] theorem State.putQuad_taiRate (x : Quad) : (s.putQuad x).taiRate = s.taiRate := rfl
@[simp] theorem State.putQuad_ppsTick (x : Quad) : (s.putQuad x).ppsTick = s.ppsTick := rfl
@[simp] theorem State.putQuad_ppsTai (x : Quad) : (s.putQuad x).ppsTai = s.ppsTai := rfl
@[simp] theorem State.putQuad_ppsLast (x : Quad) : (s.putQuad x).ppsLast = s.ppsLast := rfl
@[simp] theorem State.putQuad_ppsSet (x : Quad) : (s.putQuad x).ppsSet = s.ppsSet := rfl
@[simp] theorem State.putQuad_link0 (x : Quad) : (s.putQuad x).link0 = s.link0 := rfl
@[simp] theorem State.putQuad_link1 (x : Quad) : (s.putQuad x).link1 = s.link1 := rfl
@[simp] theorem State.putQuad_paired0 (x : Quad) : (s.putQuad x).paired0 = s.paired0 := rfl
@[simp] theorem State.putQuad_paired1 (x : Quad) : (s.putQuad x).paired1 = s.paired1 := rfl
@[simp] theorem State.putQuad_unmasked (x : Quad) : (s.putQuad x).unmasked = s.unmasked := rfl
@[simp] theorem State.putQuad_pending (x : Quad) : (s.putQuad x).pending = s.pending := rfl
@[simp] theorem State.putQuad_msixTab (x : Quad) : (s.putQuad x).msixTab = s.msixTab := rfl
@[simp] theorem State.putQuad_iommu (x : Quad) : (s.putQuad x).iommu = s.iommu := rfl
@[simp] theorem State.putQuad_pri (x : Quad) : (s.putQuad x).pri = s.pri := rfl
@[simp] theorem State.putQuad_tlb (x : Quad) : (s.putQuad x).tlb = s.tlb := rfl
@[simp] theorem State.putQuad_ctl (x : Quad) : (s.putQuad x).ctl = s.ctl := rfl
@[simp] theorem State.putQuad_admEnable (x : Quad) : (s.putQuad x).admEnable = s.admEnable := rfl
@[simp] theorem State.putQuad_admLg (x : Quad) : (s.putQuad x).admLg = s.admLg := rfl
@[simp] theorem State.putQuad_admWidx (x : Quad) : (s.putQuad x).admWidx = s.admWidx := rfl
@[simp] theorem State.putQuad_admRidx (x : Quad) : (s.putQuad x).admRidx = s.admRidx := rfl
@[simp] theorem State.putQuad_adm (x : Quad) : (s.putQuad x).adm = s.adm := rfl
@[simp] theorem State.putQuad_fqEnable (x : Quad) : (s.putQuad x).fqEnable = s.fqEnable := rfl
@[simp] theorem State.putQuad_fqLg (x : Quad) : (s.putQuad x).fqLg = s.fqLg := rfl
@[simp] theorem State.putQuad_fqTail (x : Quad) : (s.putQuad x).fqTail = s.fqTail := rfl
@[simp] theorem State.putQuad_fqHead (x : Quad) : (s.putQuad x).fqHead = s.fqHead := rfl
@[simp] theorem State.putQuad_fqHeld (x : Quad) : (s.putQuad x).fqHeld = s.fqHeld := rfl
@[simp] theorem State.putQuad_fqOpen (x : Quad) : (s.putQuad x).fqOpen = s.fqOpen := rfl
@[simp] theorem State.putQuad_ctxs (x : Quad) : (s.putQuad x).ctxs = s.ctxs := rfl
@[simp] theorem State.putQuad_apertures (x : Quad) : (s.putQuad x).apertures = s.apertures := rfl
@[simp] theorem State.putQuad_queues (x : Quad) : (s.putQuad x).queues = s.queues := rfl
@[simp] theorem State.putQuad_launches (x : Quad) : (s.putQuad x).launches = s.launches := rfl
@[simp] theorem State.putQuad_teams (x : Quad) : (s.putQuad x).teams = s.teams := rfl
@[simp] theorem State.putQuad_waves (x : Quad) : (s.putQuad x).waves = s.waves := rfl
@[simp] theorem State.putQuad_cores (x : Quad) : (s.putQuad x).cores = s.cores := rfl
@[simp] theorem State.putQuad_quads (x : Quad) : (s.putQuad x).quads = lput s.quads (fun y => y.id == x.id) x := rfl
@[simp] theorem State.putQuad_copies (x : Quad) : (s.putQuad x).copies = s.copies := rfl
@[simp] theorem State.putQuad_dispatch (x : Quad) : (s.putQuad x).dispatch = s.dispatch := rfl
@[simp] theorem State.putQuad_timetable (x : Quad) : (s.putQuad x).timetable = s.timetable := rfl
@[simp] theorem State.putQuad_fires (x : Quad) : (s.putQuad x).fires = s.fires := rfl
@[simp] theorem State.putQuad_skips (x : Quad) : (s.putQuad x).skips = s.skips := rfl
@[simp] theorem State.putQuad_shutTick (x : Quad) : (s.putQuad x).shutTick = s.shutTick := rfl
@[simp] theorem State.putQuad_shutArm (x : Quad) : (s.putQuad x).shutArm = s.shutArm := rfl
@[simp] theorem State.putQuad_shutNow (x : Quad) : (s.putQuad x).shutNow = s.shutNow := rfl
@[simp] theorem State.putQuad_gated (x : Quad) : (s.putQuad x).gated = s.gated := rfl
@[simp] theorem State.putQuad_stream (x : Quad) : (s.putQuad x).stream = s.stream := rfl
@[simp] theorem State.putQuad_heldDoors (x : Quad) : (s.putQuad x).heldDoors = s.heldDoors := rfl
@[simp] theorem State.putQuad_heldEvents (x : Quad) : (s.putQuad x).heldEvents = s.heldEvents := rfl
@[simp] theorem State.putQuad_podid (x : Quad) : (s.putQuad x).podid = s.podid := rfl
@[simp] theorem State.putQuad_podidSet (x : Quad) : (s.putQuad x).podidSet = s.podidSet := rfl
@[simp] theorem State.putQuad_peerTo (x : Quad) : (s.putQuad x).peerTo = s.peerTo := rfl
@[simp] theorem State.putQuad_links (x : Quad) : (s.putQuad x).links = s.links := rfl
@[simp] theorem State.putQuad_podArrs (x : Quad) : (s.putQuad x).podArrs = s.podArrs := rfl
@[simp] theorem State.putQuad_trAddr (x : Quad) : (s.putQuad x).trAddr = s.trAddr := rfl
@[simp] theorem State.putQuad_trSize (x : Quad) : (s.putQuad x).trSize = s.trSize := rfl
@[simp] theorem State.putQuad_trMask (x : Quad) : (s.putQuad x).trMask = s.trMask := rfl
@[simp] theorem State.putQuad_trTail (x : Quad) : (s.putQuad x).trTail = s.trTail := rfl
@[simp] theorem State.putQuad_trHead (x : Quad) : (s.putQuad x).trHead = s.trHead := rfl
@[simp] theorem State.putQuad_trStat (x : Quad) : (s.putQuad x).trStat = s.trStat := rfl
@[simp] theorem State.putQuad_trSrcs (x : Quad) : (s.putQuad x).trSrcs = s.trSrcs := rfl
@[simp] theorem State.putQuad_bins (x : Quad) : (s.putQuad x).bins = s.bins := rfl
@[simp] theorem State.putQuad_histLast (x : Quad) : (s.putQuad x).histLast = s.histLast := rfl
@[simp] theorem State.putQuad_flushLast (x : Quad) : (s.putQuad x).flushLast = s.flushLast := rfl

/-! ### putLink -/

@[simp] theorem State.putLink_agenda (x : XLink) : (s.putLink x).agenda = s.agenda := rfl
@[simp] theorem State.putLink_nondet (x : XLink) : (s.putLink x).nondet = s.nondet := rfl
@[simp] theorem State.putLink_fresh (x : XLink) : (s.putLink x).fresh = s.fresh := rfl
@[simp] theorem State.putLink_cur (x : XLink) : (s.putLink x).cur = s.cur := rfl
@[simp] theorem State.putLink_outbox (x : XLink) : (s.putLink x).outbox = s.outbox := rfl
@[simp] theorem State.putLink_mem (x : XLink) : (s.putLink x).mem = s.mem := rfl
@[simp] theorem State.putLink_poison (x : XLink) : (s.putLink x).poison = s.poison := rfl
@[simp] theorem State.putLink_rewrote (x : XLink) : (s.putLink x).rewrote = s.rewrote := rfl
@[simp] theorem State.putLink_hist (x : XLink) : (s.putLink x).hist = s.hist := rfl
@[simp] theorem State.putLink_written (x : XLink) : (s.putLink x).written = s.written := rfl
@[simp] theorem State.putLink_fences (x : XLink) : (s.putLink x).fences = s.fences := rfl
@[simp] theorem State.putLink_peers (x : XLink) : (s.putLink x).peers = s.peers := rfl
@[simp] theorem State.putLink_forms (x : XLink) : (s.putLink x).forms = s.forms := rfl
@[simp] theorem State.putLink_ready (x : XLink) : (s.putLink x).ready = s.ready := rfl
@[simp] theorem State.putLink_diesok (x : XLink) : (s.putLink x).diesok = s.diesok := rfl
@[simp] theorem State.putLink_dead (x : XLink) : (s.putLink x).dead = s.dead := rfl
@[simp] theorem State.putLink_repair (x : XLink) : (s.putLink x).repair = s.repair := rfl
@[simp] theorem State.putLink_quadMap (x : XLink) : (s.putLink x).quadMap = s.quadMap := rfl
@[simp] theorem State.putLink_cap (x : XLink) : (s.putLink x).cap = s.cap := rfl
@[simp] theorem State.putLink_rows (x : XLink) : (s.putLink x).rows = s.rows := rfl
@[simp] theorem State.putLink_rowEvents (x : XLink) : (s.putLink x).rowEvents = s.rowEvents := rfl
@[simp] theorem State.putLink_corrected (x : XLink) : (s.putLink x).corrected = s.corrected := rfl
@[simp] theorem State.putLink_uncorrected (x : XLink) : (s.putLink x).uncorrected = s.uncorrected := rfl
@[simp] theorem State.putLink_tick (x : XLink) : (s.putLink x).tick = s.tick := rfl
@[simp] theorem State.putLink_clock (x : XLink) : (s.putLink x).clock = s.clock := rfl
@[simp] theorem State.putLink_tai (x : XLink) : (s.putLink x).tai = s.tai := rfl
@[simp] theorem State.putLink_taiRate (x : XLink) : (s.putLink x).taiRate = s.taiRate := rfl
@[simp] theorem State.putLink_ppsTick (x : XLink) : (s.putLink x).ppsTick = s.ppsTick := rfl
@[simp] theorem State.putLink_ppsTai (x : XLink) : (s.putLink x).ppsTai = s.ppsTai := rfl
@[simp] theorem State.putLink_ppsLast (x : XLink) : (s.putLink x).ppsLast = s.ppsLast := rfl
@[simp] theorem State.putLink_ppsSet (x : XLink) : (s.putLink x).ppsSet = s.ppsSet := rfl
@[simp] theorem State.putLink_link0 (x : XLink) : (s.putLink x).link0 = s.link0 := rfl
@[simp] theorem State.putLink_link1 (x : XLink) : (s.putLink x).link1 = s.link1 := rfl
@[simp] theorem State.putLink_paired0 (x : XLink) : (s.putLink x).paired0 = s.paired0 := rfl
@[simp] theorem State.putLink_paired1 (x : XLink) : (s.putLink x).paired1 = s.paired1 := rfl
@[simp] theorem State.putLink_unmasked (x : XLink) : (s.putLink x).unmasked = s.unmasked := rfl
@[simp] theorem State.putLink_pending (x : XLink) : (s.putLink x).pending = s.pending := rfl
@[simp] theorem State.putLink_msixTab (x : XLink) : (s.putLink x).msixTab = s.msixTab := rfl
@[simp] theorem State.putLink_iommu (x : XLink) : (s.putLink x).iommu = s.iommu := rfl
@[simp] theorem State.putLink_pri (x : XLink) : (s.putLink x).pri = s.pri := rfl
@[simp] theorem State.putLink_tlb (x : XLink) : (s.putLink x).tlb = s.tlb := rfl
@[simp] theorem State.putLink_ctl (x : XLink) : (s.putLink x).ctl = s.ctl := rfl
@[simp] theorem State.putLink_admEnable (x : XLink) : (s.putLink x).admEnable = s.admEnable := rfl
@[simp] theorem State.putLink_admLg (x : XLink) : (s.putLink x).admLg = s.admLg := rfl
@[simp] theorem State.putLink_admWidx (x : XLink) : (s.putLink x).admWidx = s.admWidx := rfl
@[simp] theorem State.putLink_admRidx (x : XLink) : (s.putLink x).admRidx = s.admRidx := rfl
@[simp] theorem State.putLink_adm (x : XLink) : (s.putLink x).adm = s.adm := rfl
@[simp] theorem State.putLink_fqEnable (x : XLink) : (s.putLink x).fqEnable = s.fqEnable := rfl
@[simp] theorem State.putLink_fqLg (x : XLink) : (s.putLink x).fqLg = s.fqLg := rfl
@[simp] theorem State.putLink_fqTail (x : XLink) : (s.putLink x).fqTail = s.fqTail := rfl
@[simp] theorem State.putLink_fqHead (x : XLink) : (s.putLink x).fqHead = s.fqHead := rfl
@[simp] theorem State.putLink_fqHeld (x : XLink) : (s.putLink x).fqHeld = s.fqHeld := rfl
@[simp] theorem State.putLink_fqOpen (x : XLink) : (s.putLink x).fqOpen = s.fqOpen := rfl
@[simp] theorem State.putLink_ctxs (x : XLink) : (s.putLink x).ctxs = s.ctxs := rfl
@[simp] theorem State.putLink_apertures (x : XLink) : (s.putLink x).apertures = s.apertures := rfl
@[simp] theorem State.putLink_queues (x : XLink) : (s.putLink x).queues = s.queues := rfl
@[simp] theorem State.putLink_launches (x : XLink) : (s.putLink x).launches = s.launches := rfl
@[simp] theorem State.putLink_teams (x : XLink) : (s.putLink x).teams = s.teams := rfl
@[simp] theorem State.putLink_waves (x : XLink) : (s.putLink x).waves = s.waves := rfl
@[simp] theorem State.putLink_cores (x : XLink) : (s.putLink x).cores = s.cores := rfl
@[simp] theorem State.putLink_quads (x : XLink) : (s.putLink x).quads = s.quads := rfl
@[simp] theorem State.putLink_copies (x : XLink) : (s.putLink x).copies = s.copies := rfl
@[simp] theorem State.putLink_dispatch (x : XLink) : (s.putLink x).dispatch = s.dispatch := rfl
@[simp] theorem State.putLink_timetable (x : XLink) : (s.putLink x).timetable = s.timetable := rfl
@[simp] theorem State.putLink_fires (x : XLink) : (s.putLink x).fires = s.fires := rfl
@[simp] theorem State.putLink_skips (x : XLink) : (s.putLink x).skips = s.skips := rfl
@[simp] theorem State.putLink_shutTick (x : XLink) : (s.putLink x).shutTick = s.shutTick := rfl
@[simp] theorem State.putLink_shutArm (x : XLink) : (s.putLink x).shutArm = s.shutArm := rfl
@[simp] theorem State.putLink_shutNow (x : XLink) : (s.putLink x).shutNow = s.shutNow := rfl
@[simp] theorem State.putLink_gated (x : XLink) : (s.putLink x).gated = s.gated := rfl
@[simp] theorem State.putLink_stream (x : XLink) : (s.putLink x).stream = s.stream := rfl
@[simp] theorem State.putLink_heldDoors (x : XLink) : (s.putLink x).heldDoors = s.heldDoors := rfl
@[simp] theorem State.putLink_heldEvents (x : XLink) : (s.putLink x).heldEvents = s.heldEvents := rfl
@[simp] theorem State.putLink_podid (x : XLink) : (s.putLink x).podid = s.podid := rfl
@[simp] theorem State.putLink_podidSet (x : XLink) : (s.putLink x).podidSet = s.podidSet := rfl
@[simp] theorem State.putLink_peerTo (x : XLink) : (s.putLink x).peerTo = s.peerTo := rfl
@[simp] theorem State.putLink_links (x : XLink) : (s.putLink x).links = lput s.links (fun y => y.n == x.n) x := rfl
@[simp] theorem State.putLink_podArrs (x : XLink) : (s.putLink x).podArrs = s.podArrs := rfl
@[simp] theorem State.putLink_trAddr (x : XLink) : (s.putLink x).trAddr = s.trAddr := rfl
@[simp] theorem State.putLink_trSize (x : XLink) : (s.putLink x).trSize = s.trSize := rfl
@[simp] theorem State.putLink_trMask (x : XLink) : (s.putLink x).trMask = s.trMask := rfl
@[simp] theorem State.putLink_trTail (x : XLink) : (s.putLink x).trTail = s.trTail := rfl
@[simp] theorem State.putLink_trHead (x : XLink) : (s.putLink x).trHead = s.trHead := rfl
@[simp] theorem State.putLink_trStat (x : XLink) : (s.putLink x).trStat = s.trStat := rfl
@[simp] theorem State.putLink_trSrcs (x : XLink) : (s.putLink x).trSrcs = s.trSrcs := rfl
@[simp] theorem State.putLink_bins (x : XLink) : (s.putLink x).bins = s.bins := rfl
@[simp] theorem State.putLink_histLast (x : XLink) : (s.putLink x).histLast = s.histLast := rfl
@[simp] theorem State.putLink_flushLast (x : XLink) : (s.putLink x).flushLast = s.flushLast := rfl

/-! ### out -/

@[simp] theorem State.out_agenda (x : Output) : (s.out x).agenda = s.agenda := rfl
@[simp] theorem State.out_nondet (x : Output) : (s.out x).nondet = s.nondet := rfl
@[simp] theorem State.out_fresh (x : Output) : (s.out x).fresh = s.fresh := rfl
@[simp] theorem State.out_cur (x : Output) : (s.out x).cur = s.cur := rfl
@[simp] theorem State.out_outbox (x : Output) : (s.out x).outbox = s.outbox ++ [x] := rfl
@[simp] theorem State.out_mem (x : Output) : (s.out x).mem = s.mem := rfl
@[simp] theorem State.out_poison (x : Output) : (s.out x).poison = s.poison := rfl
@[simp] theorem State.out_rewrote (x : Output) : (s.out x).rewrote = s.rewrote := rfl
@[simp] theorem State.out_hist (x : Output) : (s.out x).hist = s.hist := rfl
@[simp] theorem State.out_written (x : Output) : (s.out x).written = s.written := rfl
@[simp] theorem State.out_fences (x : Output) : (s.out x).fences = s.fences := rfl
@[simp] theorem State.out_peers (x : Output) : (s.out x).peers = s.peers := rfl
@[simp] theorem State.out_forms (x : Output) : (s.out x).forms = s.forms := rfl
@[simp] theorem State.out_ready (x : Output) : (s.out x).ready = s.ready := rfl
@[simp] theorem State.out_diesok (x : Output) : (s.out x).diesok = s.diesok := rfl
@[simp] theorem State.out_dead (x : Output) : (s.out x).dead = s.dead := rfl
@[simp] theorem State.out_repair (x : Output) : (s.out x).repair = s.repair := rfl
@[simp] theorem State.out_quadMap (x : Output) : (s.out x).quadMap = s.quadMap := rfl
@[simp] theorem State.out_cap (x : Output) : (s.out x).cap = s.cap := rfl
@[simp] theorem State.out_rows (x : Output) : (s.out x).rows = s.rows := rfl
@[simp] theorem State.out_rowEvents (x : Output) : (s.out x).rowEvents = s.rowEvents := rfl
@[simp] theorem State.out_corrected (x : Output) : (s.out x).corrected = s.corrected := rfl
@[simp] theorem State.out_uncorrected (x : Output) : (s.out x).uncorrected = s.uncorrected := rfl
@[simp] theorem State.out_tick (x : Output) : (s.out x).tick = s.tick := rfl
@[simp] theorem State.out_clock (x : Output) : (s.out x).clock = s.clock := rfl
@[simp] theorem State.out_tai (x : Output) : (s.out x).tai = s.tai := rfl
@[simp] theorem State.out_taiRate (x : Output) : (s.out x).taiRate = s.taiRate := rfl
@[simp] theorem State.out_ppsTick (x : Output) : (s.out x).ppsTick = s.ppsTick := rfl
@[simp] theorem State.out_ppsTai (x : Output) : (s.out x).ppsTai = s.ppsTai := rfl
@[simp] theorem State.out_ppsLast (x : Output) : (s.out x).ppsLast = s.ppsLast := rfl
@[simp] theorem State.out_ppsSet (x : Output) : (s.out x).ppsSet = s.ppsSet := rfl
@[simp] theorem State.out_link0 (x : Output) : (s.out x).link0 = s.link0 := rfl
@[simp] theorem State.out_link1 (x : Output) : (s.out x).link1 = s.link1 := rfl
@[simp] theorem State.out_paired0 (x : Output) : (s.out x).paired0 = s.paired0 := rfl
@[simp] theorem State.out_paired1 (x : Output) : (s.out x).paired1 = s.paired1 := rfl
@[simp] theorem State.out_unmasked (x : Output) : (s.out x).unmasked = s.unmasked := rfl
@[simp] theorem State.out_pending (x : Output) : (s.out x).pending = s.pending := rfl
@[simp] theorem State.out_msixTab (x : Output) : (s.out x).msixTab = s.msixTab := rfl
@[simp] theorem State.out_iommu (x : Output) : (s.out x).iommu = s.iommu := rfl
@[simp] theorem State.out_pri (x : Output) : (s.out x).pri = s.pri := rfl
@[simp] theorem State.out_tlb (x : Output) : (s.out x).tlb = s.tlb := rfl
@[simp] theorem State.out_ctl (x : Output) : (s.out x).ctl = s.ctl := rfl
@[simp] theorem State.out_admEnable (x : Output) : (s.out x).admEnable = s.admEnable := rfl
@[simp] theorem State.out_admLg (x : Output) : (s.out x).admLg = s.admLg := rfl
@[simp] theorem State.out_admWidx (x : Output) : (s.out x).admWidx = s.admWidx := rfl
@[simp] theorem State.out_admRidx (x : Output) : (s.out x).admRidx = s.admRidx := rfl
@[simp] theorem State.out_adm (x : Output) : (s.out x).adm = s.adm := rfl
@[simp] theorem State.out_fqEnable (x : Output) : (s.out x).fqEnable = s.fqEnable := rfl
@[simp] theorem State.out_fqLg (x : Output) : (s.out x).fqLg = s.fqLg := rfl
@[simp] theorem State.out_fqTail (x : Output) : (s.out x).fqTail = s.fqTail := rfl
@[simp] theorem State.out_fqHead (x : Output) : (s.out x).fqHead = s.fqHead := rfl
@[simp] theorem State.out_fqHeld (x : Output) : (s.out x).fqHeld = s.fqHeld := rfl
@[simp] theorem State.out_fqOpen (x : Output) : (s.out x).fqOpen = s.fqOpen := rfl
@[simp] theorem State.out_ctxs (x : Output) : (s.out x).ctxs = s.ctxs := rfl
@[simp] theorem State.out_apertures (x : Output) : (s.out x).apertures = s.apertures := rfl
@[simp] theorem State.out_queues (x : Output) : (s.out x).queues = s.queues := rfl
@[simp] theorem State.out_launches (x : Output) : (s.out x).launches = s.launches := rfl
@[simp] theorem State.out_teams (x : Output) : (s.out x).teams = s.teams := rfl
@[simp] theorem State.out_waves (x : Output) : (s.out x).waves = s.waves := rfl
@[simp] theorem State.out_cores (x : Output) : (s.out x).cores = s.cores := rfl
@[simp] theorem State.out_quads (x : Output) : (s.out x).quads = s.quads := rfl
@[simp] theorem State.out_copies (x : Output) : (s.out x).copies = s.copies := rfl
@[simp] theorem State.out_dispatch (x : Output) : (s.out x).dispatch = s.dispatch := rfl
@[simp] theorem State.out_timetable (x : Output) : (s.out x).timetable = s.timetable := rfl
@[simp] theorem State.out_fires (x : Output) : (s.out x).fires = s.fires := rfl
@[simp] theorem State.out_skips (x : Output) : (s.out x).skips = s.skips := rfl
@[simp] theorem State.out_shutTick (x : Output) : (s.out x).shutTick = s.shutTick := rfl
@[simp] theorem State.out_shutArm (x : Output) : (s.out x).shutArm = s.shutArm := rfl
@[simp] theorem State.out_shutNow (x : Output) : (s.out x).shutNow = s.shutNow := rfl
@[simp] theorem State.out_gated (x : Output) : (s.out x).gated = s.gated := rfl
@[simp] theorem State.out_stream (x : Output) : (s.out x).stream = s.stream := rfl
@[simp] theorem State.out_heldDoors (x : Output) : (s.out x).heldDoors = s.heldDoors := rfl
@[simp] theorem State.out_heldEvents (x : Output) : (s.out x).heldEvents = s.heldEvents := rfl
@[simp] theorem State.out_podid (x : Output) : (s.out x).podid = s.podid := rfl
@[simp] theorem State.out_podidSet (x : Output) : (s.out x).podidSet = s.podidSet := rfl
@[simp] theorem State.out_peerTo (x : Output) : (s.out x).peerTo = s.peerTo := rfl
@[simp] theorem State.out_links (x : Output) : (s.out x).links = s.links := rfl
@[simp] theorem State.out_podArrs (x : Output) : (s.out x).podArrs = s.podArrs := rfl
@[simp] theorem State.out_trAddr (x : Output) : (s.out x).trAddr = s.trAddr := rfl
@[simp] theorem State.out_trSize (x : Output) : (s.out x).trSize = s.trSize := rfl
@[simp] theorem State.out_trMask (x : Output) : (s.out x).trMask = s.trMask := rfl
@[simp] theorem State.out_trTail (x : Output) : (s.out x).trTail = s.trTail := rfl
@[simp] theorem State.out_trHead (x : Output) : (s.out x).trHead = s.trHead := rfl
@[simp] theorem State.out_trStat (x : Output) : (s.out x).trStat = s.trStat := rfl
@[simp] theorem State.out_trSrcs (x : Output) : (s.out x).trSrcs = s.trSrcs := rfl
@[simp] theorem State.out_bins (x : Output) : (s.out x).bins = s.bins := rfl
@[simp] theorem State.out_histLast (x : Output) : (s.out x).histLast = s.histLast := rfl
@[simp] theorem State.out_flushLast (x : Output) : (s.out x).flushLast = s.flushLast := rfl

/-! ### draw -/

@[simp] theorem State.draw_agenda : (s.draw.2).agenda = s.agenda := rfl
@[simp] theorem State.draw_nondet : (s.draw.2).nondet = s.nondet + 1 := rfl
@[simp] theorem State.draw_fresh : (s.draw.2).fresh = s.fresh := rfl
@[simp] theorem State.draw_cur : (s.draw.2).cur = s.cur := rfl
@[simp] theorem State.draw_outbox : (s.draw.2).outbox = s.outbox := rfl
@[simp] theorem State.draw_mem : (s.draw.2).mem = s.mem := rfl
@[simp] theorem State.draw_poison : (s.draw.2).poison = s.poison := rfl
@[simp] theorem State.draw_rewrote : (s.draw.2).rewrote = s.rewrote := rfl
@[simp] theorem State.draw_hist : (s.draw.2).hist = s.hist := rfl
@[simp] theorem State.draw_written : (s.draw.2).written = s.written := rfl
@[simp] theorem State.draw_fences : (s.draw.2).fences = s.fences := rfl
@[simp] theorem State.draw_peers : (s.draw.2).peers = s.peers := rfl
@[simp] theorem State.draw_forms : (s.draw.2).forms = s.forms := rfl
@[simp] theorem State.draw_ready : (s.draw.2).ready = s.ready := rfl
@[simp] theorem State.draw_diesok : (s.draw.2).diesok = s.diesok := rfl
@[simp] theorem State.draw_dead : (s.draw.2).dead = s.dead := rfl
@[simp] theorem State.draw_repair : (s.draw.2).repair = s.repair := rfl
@[simp] theorem State.draw_quadMap : (s.draw.2).quadMap = s.quadMap := rfl
@[simp] theorem State.draw_cap : (s.draw.2).cap = s.cap := rfl
@[simp] theorem State.draw_rows : (s.draw.2).rows = s.rows := rfl
@[simp] theorem State.draw_rowEvents : (s.draw.2).rowEvents = s.rowEvents := rfl
@[simp] theorem State.draw_corrected : (s.draw.2).corrected = s.corrected := rfl
@[simp] theorem State.draw_uncorrected : (s.draw.2).uncorrected = s.uncorrected := rfl
@[simp] theorem State.draw_tick : (s.draw.2).tick = s.tick := rfl
@[simp] theorem State.draw_clock : (s.draw.2).clock = s.clock := rfl
@[simp] theorem State.draw_tai : (s.draw.2).tai = s.tai := rfl
@[simp] theorem State.draw_taiRate : (s.draw.2).taiRate = s.taiRate := rfl
@[simp] theorem State.draw_ppsTick : (s.draw.2).ppsTick = s.ppsTick := rfl
@[simp] theorem State.draw_ppsTai : (s.draw.2).ppsTai = s.ppsTai := rfl
@[simp] theorem State.draw_ppsLast : (s.draw.2).ppsLast = s.ppsLast := rfl
@[simp] theorem State.draw_ppsSet : (s.draw.2).ppsSet = s.ppsSet := rfl
@[simp] theorem State.draw_link0 : (s.draw.2).link0 = s.link0 := rfl
@[simp] theorem State.draw_link1 : (s.draw.2).link1 = s.link1 := rfl
@[simp] theorem State.draw_paired0 : (s.draw.2).paired0 = s.paired0 := rfl
@[simp] theorem State.draw_paired1 : (s.draw.2).paired1 = s.paired1 := rfl
@[simp] theorem State.draw_unmasked : (s.draw.2).unmasked = s.unmasked := rfl
@[simp] theorem State.draw_pending : (s.draw.2).pending = s.pending := rfl
@[simp] theorem State.draw_msixTab : (s.draw.2).msixTab = s.msixTab := rfl
@[simp] theorem State.draw_iommu : (s.draw.2).iommu = s.iommu := rfl
@[simp] theorem State.draw_pri : (s.draw.2).pri = s.pri := rfl
@[simp] theorem State.draw_tlb : (s.draw.2).tlb = s.tlb := rfl
@[simp] theorem State.draw_ctl : (s.draw.2).ctl = s.ctl := rfl
@[simp] theorem State.draw_admEnable : (s.draw.2).admEnable = s.admEnable := rfl
@[simp] theorem State.draw_admLg : (s.draw.2).admLg = s.admLg := rfl
@[simp] theorem State.draw_admWidx : (s.draw.2).admWidx = s.admWidx := rfl
@[simp] theorem State.draw_admRidx : (s.draw.2).admRidx = s.admRidx := rfl
@[simp] theorem State.draw_adm : (s.draw.2).adm = s.adm := rfl
@[simp] theorem State.draw_fqEnable : (s.draw.2).fqEnable = s.fqEnable := rfl
@[simp] theorem State.draw_fqLg : (s.draw.2).fqLg = s.fqLg := rfl
@[simp] theorem State.draw_fqTail : (s.draw.2).fqTail = s.fqTail := rfl
@[simp] theorem State.draw_fqHead : (s.draw.2).fqHead = s.fqHead := rfl
@[simp] theorem State.draw_fqHeld : (s.draw.2).fqHeld = s.fqHeld := rfl
@[simp] theorem State.draw_fqOpen : (s.draw.2).fqOpen = s.fqOpen := rfl
@[simp] theorem State.draw_ctxs : (s.draw.2).ctxs = s.ctxs := rfl
@[simp] theorem State.draw_apertures : (s.draw.2).apertures = s.apertures := rfl
@[simp] theorem State.draw_queues : (s.draw.2).queues = s.queues := rfl
@[simp] theorem State.draw_launches : (s.draw.2).launches = s.launches := rfl
@[simp] theorem State.draw_teams : (s.draw.2).teams = s.teams := rfl
@[simp] theorem State.draw_waves : (s.draw.2).waves = s.waves := rfl
@[simp] theorem State.draw_cores : (s.draw.2).cores = s.cores := rfl
@[simp] theorem State.draw_quads : (s.draw.2).quads = s.quads := rfl
@[simp] theorem State.draw_copies : (s.draw.2).copies = s.copies := rfl
@[simp] theorem State.draw_dispatch : (s.draw.2).dispatch = s.dispatch := rfl
@[simp] theorem State.draw_timetable : (s.draw.2).timetable = s.timetable := rfl
@[simp] theorem State.draw_fires : (s.draw.2).fires = s.fires := rfl
@[simp] theorem State.draw_skips : (s.draw.2).skips = s.skips := rfl
@[simp] theorem State.draw_shutTick : (s.draw.2).shutTick = s.shutTick := rfl
@[simp] theorem State.draw_shutArm : (s.draw.2).shutArm = s.shutArm := rfl
@[simp] theorem State.draw_shutNow : (s.draw.2).shutNow = s.shutNow := rfl
@[simp] theorem State.draw_gated : (s.draw.2).gated = s.gated := rfl
@[simp] theorem State.draw_stream : (s.draw.2).stream = s.stream := rfl
@[simp] theorem State.draw_heldDoors : (s.draw.2).heldDoors = s.heldDoors := rfl
@[simp] theorem State.draw_heldEvents : (s.draw.2).heldEvents = s.heldEvents := rfl
@[simp] theorem State.draw_podid : (s.draw.2).podid = s.podid := rfl
@[simp] theorem State.draw_podidSet : (s.draw.2).podidSet = s.podidSet := rfl
@[simp] theorem State.draw_peerTo : (s.draw.2).peerTo = s.peerTo := rfl
@[simp] theorem State.draw_links : (s.draw.2).links = s.links := rfl
@[simp] theorem State.draw_podArrs : (s.draw.2).podArrs = s.podArrs := rfl
@[simp] theorem State.draw_trAddr : (s.draw.2).trAddr = s.trAddr := rfl
@[simp] theorem State.draw_trSize : (s.draw.2).trSize = s.trSize := rfl
@[simp] theorem State.draw_trMask : (s.draw.2).trMask = s.trMask := rfl
@[simp] theorem State.draw_trTail : (s.draw.2).trTail = s.trTail := rfl
@[simp] theorem State.draw_trHead : (s.draw.2).trHead = s.trHead := rfl
@[simp] theorem State.draw_trStat : (s.draw.2).trStat = s.trStat := rfl
@[simp] theorem State.draw_trSrcs : (s.draw.2).trSrcs = s.trSrcs := rfl
@[simp] theorem State.draw_bins : (s.draw.2).bins = s.bins := rfl
@[simp] theorem State.draw_histLast : (s.draw.2).histLast = s.histLast := rfl
@[simp] theorem State.draw_flushLast : (s.draw.2).flushLast = s.flushLast := rfl

/-! ### newKey -/

@[simp] theorem State.newKey_agenda : (s.newKey.2).agenda = s.agenda := rfl
@[simp] theorem State.newKey_nondet : (s.newKey.2).nondet = s.nondet := rfl
@[simp] theorem State.newKey_fresh : (s.newKey.2).fresh = s.fresh + 1 := rfl
@[simp] theorem State.newKey_cur : (s.newKey.2).cur = s.cur := rfl
@[simp] theorem State.newKey_outbox : (s.newKey.2).outbox = s.outbox := rfl
@[simp] theorem State.newKey_mem : (s.newKey.2).mem = s.mem := rfl
@[simp] theorem State.newKey_poison : (s.newKey.2).poison = s.poison := rfl
@[simp] theorem State.newKey_rewrote : (s.newKey.2).rewrote = s.rewrote := rfl
@[simp] theorem State.newKey_hist : (s.newKey.2).hist = s.hist := rfl
@[simp] theorem State.newKey_written : (s.newKey.2).written = s.written := rfl
@[simp] theorem State.newKey_fences : (s.newKey.2).fences = s.fences := rfl
@[simp] theorem State.newKey_peers : (s.newKey.2).peers = s.peers := rfl
@[simp] theorem State.newKey_forms : (s.newKey.2).forms = s.forms := rfl
@[simp] theorem State.newKey_ready : (s.newKey.2).ready = s.ready := rfl
@[simp] theorem State.newKey_diesok : (s.newKey.2).diesok = s.diesok := rfl
@[simp] theorem State.newKey_dead : (s.newKey.2).dead = s.dead := rfl
@[simp] theorem State.newKey_repair : (s.newKey.2).repair = s.repair := rfl
@[simp] theorem State.newKey_quadMap : (s.newKey.2).quadMap = s.quadMap := rfl
@[simp] theorem State.newKey_cap : (s.newKey.2).cap = s.cap := rfl
@[simp] theorem State.newKey_rows : (s.newKey.2).rows = s.rows := rfl
@[simp] theorem State.newKey_rowEvents : (s.newKey.2).rowEvents = s.rowEvents := rfl
@[simp] theorem State.newKey_corrected : (s.newKey.2).corrected = s.corrected := rfl
@[simp] theorem State.newKey_uncorrected : (s.newKey.2).uncorrected = s.uncorrected := rfl
@[simp] theorem State.newKey_tick : (s.newKey.2).tick = s.tick := rfl
@[simp] theorem State.newKey_clock : (s.newKey.2).clock = s.clock := rfl
@[simp] theorem State.newKey_tai : (s.newKey.2).tai = s.tai := rfl
@[simp] theorem State.newKey_taiRate : (s.newKey.2).taiRate = s.taiRate := rfl
@[simp] theorem State.newKey_ppsTick : (s.newKey.2).ppsTick = s.ppsTick := rfl
@[simp] theorem State.newKey_ppsTai : (s.newKey.2).ppsTai = s.ppsTai := rfl
@[simp] theorem State.newKey_ppsLast : (s.newKey.2).ppsLast = s.ppsLast := rfl
@[simp] theorem State.newKey_ppsSet : (s.newKey.2).ppsSet = s.ppsSet := rfl
@[simp] theorem State.newKey_link0 : (s.newKey.2).link0 = s.link0 := rfl
@[simp] theorem State.newKey_link1 : (s.newKey.2).link1 = s.link1 := rfl
@[simp] theorem State.newKey_paired0 : (s.newKey.2).paired0 = s.paired0 := rfl
@[simp] theorem State.newKey_paired1 : (s.newKey.2).paired1 = s.paired1 := rfl
@[simp] theorem State.newKey_unmasked : (s.newKey.2).unmasked = s.unmasked := rfl
@[simp] theorem State.newKey_pending : (s.newKey.2).pending = s.pending := rfl
@[simp] theorem State.newKey_msixTab : (s.newKey.2).msixTab = s.msixTab := rfl
@[simp] theorem State.newKey_iommu : (s.newKey.2).iommu = s.iommu := rfl
@[simp] theorem State.newKey_pri : (s.newKey.2).pri = s.pri := rfl
@[simp] theorem State.newKey_tlb : (s.newKey.2).tlb = s.tlb := rfl
@[simp] theorem State.newKey_ctl : (s.newKey.2).ctl = s.ctl := rfl
@[simp] theorem State.newKey_admEnable : (s.newKey.2).admEnable = s.admEnable := rfl
@[simp] theorem State.newKey_admLg : (s.newKey.2).admLg = s.admLg := rfl
@[simp] theorem State.newKey_admWidx : (s.newKey.2).admWidx = s.admWidx := rfl
@[simp] theorem State.newKey_admRidx : (s.newKey.2).admRidx = s.admRidx := rfl
@[simp] theorem State.newKey_adm : (s.newKey.2).adm = s.adm := rfl
@[simp] theorem State.newKey_fqEnable : (s.newKey.2).fqEnable = s.fqEnable := rfl
@[simp] theorem State.newKey_fqLg : (s.newKey.2).fqLg = s.fqLg := rfl
@[simp] theorem State.newKey_fqTail : (s.newKey.2).fqTail = s.fqTail := rfl
@[simp] theorem State.newKey_fqHead : (s.newKey.2).fqHead = s.fqHead := rfl
@[simp] theorem State.newKey_fqHeld : (s.newKey.2).fqHeld = s.fqHeld := rfl
@[simp] theorem State.newKey_fqOpen : (s.newKey.2).fqOpen = s.fqOpen := rfl
@[simp] theorem State.newKey_ctxs : (s.newKey.2).ctxs = s.ctxs := rfl
@[simp] theorem State.newKey_apertures : (s.newKey.2).apertures = s.apertures := rfl
@[simp] theorem State.newKey_queues : (s.newKey.2).queues = s.queues := rfl
@[simp] theorem State.newKey_launches : (s.newKey.2).launches = s.launches := rfl
@[simp] theorem State.newKey_teams : (s.newKey.2).teams = s.teams := rfl
@[simp] theorem State.newKey_waves : (s.newKey.2).waves = s.waves := rfl
@[simp] theorem State.newKey_cores : (s.newKey.2).cores = s.cores := rfl
@[simp] theorem State.newKey_quads : (s.newKey.2).quads = s.quads := rfl
@[simp] theorem State.newKey_copies : (s.newKey.2).copies = s.copies := rfl
@[simp] theorem State.newKey_dispatch : (s.newKey.2).dispatch = s.dispatch := rfl
@[simp] theorem State.newKey_timetable : (s.newKey.2).timetable = s.timetable := rfl
@[simp] theorem State.newKey_fires : (s.newKey.2).fires = s.fires := rfl
@[simp] theorem State.newKey_skips : (s.newKey.2).skips = s.skips := rfl
@[simp] theorem State.newKey_shutTick : (s.newKey.2).shutTick = s.shutTick := rfl
@[simp] theorem State.newKey_shutArm : (s.newKey.2).shutArm = s.shutArm := rfl
@[simp] theorem State.newKey_shutNow : (s.newKey.2).shutNow = s.shutNow := rfl
@[simp] theorem State.newKey_gated : (s.newKey.2).gated = s.gated := rfl
@[simp] theorem State.newKey_stream : (s.newKey.2).stream = s.stream := rfl
@[simp] theorem State.newKey_heldDoors : (s.newKey.2).heldDoors = s.heldDoors := rfl
@[simp] theorem State.newKey_heldEvents : (s.newKey.2).heldEvents = s.heldEvents := rfl
@[simp] theorem State.newKey_podid : (s.newKey.2).podid = s.podid := rfl
@[simp] theorem State.newKey_podidSet : (s.newKey.2).podidSet = s.podidSet := rfl
@[simp] theorem State.newKey_peerTo : (s.newKey.2).peerTo = s.peerTo := rfl
@[simp] theorem State.newKey_links : (s.newKey.2).links = s.links := rfl
@[simp] theorem State.newKey_podArrs : (s.newKey.2).podArrs = s.podArrs := rfl
@[simp] theorem State.newKey_trAddr : (s.newKey.2).trAddr = s.trAddr := rfl
@[simp] theorem State.newKey_trSize : (s.newKey.2).trSize = s.trSize := rfl
@[simp] theorem State.newKey_trMask : (s.newKey.2).trMask = s.trMask := rfl
@[simp] theorem State.newKey_trTail : (s.newKey.2).trTail = s.trTail := rfl
@[simp] theorem State.newKey_trHead : (s.newKey.2).trHead = s.trHead := rfl
@[simp] theorem State.newKey_trStat : (s.newKey.2).trStat = s.trStat := rfl
@[simp] theorem State.newKey_trSrcs : (s.newKey.2).trSrcs = s.trSrcs := rfl
@[simp] theorem State.newKey_bins : (s.newKey.2).bins = s.bins := rfl
@[simp] theorem State.newKey_histLast : (s.newKey.2).histLast = s.histLast := rfl
@[simp] theorem State.newKey_flushLast : (s.newKey.2).flushLast = s.flushLast := rfl

/-! ### report -/

@[simp] theorem State.report_agenda (x : FaultRec) : (s.report x).agenda = s.agenda := rfl
@[simp] theorem State.report_nondet (x : FaultRec) : (s.report x).nondet = s.nondet := rfl
@[simp] theorem State.report_fresh (x : FaultRec) : (s.report x).fresh = s.fresh := rfl
@[simp] theorem State.report_cur (x : FaultRec) : (s.report x).cur = s.cur := rfl
@[simp] theorem State.report_outbox (x : FaultRec) : (s.report x).outbox = s.outbox := rfl
@[simp] theorem State.report_mem (x : FaultRec) : (s.report x).mem = s.mem := rfl
@[simp] theorem State.report_poison (x : FaultRec) : (s.report x).poison = s.poison := rfl
@[simp] theorem State.report_rewrote (x : FaultRec) : (s.report x).rewrote = s.rewrote := rfl
@[simp] theorem State.report_hist (x : FaultRec) : (s.report x).hist = s.hist := rfl
@[simp] theorem State.report_written (x : FaultRec) : (s.report x).written = s.written := rfl
@[simp] theorem State.report_fences (x : FaultRec) : (s.report x).fences = s.fences := rfl
@[simp] theorem State.report_peers (x : FaultRec) : (s.report x).peers = s.peers := rfl
@[simp] theorem State.report_forms (x : FaultRec) : (s.report x).forms = s.forms := rfl
@[simp] theorem State.report_ready (x : FaultRec) : (s.report x).ready = s.ready := rfl
@[simp] theorem State.report_diesok (x : FaultRec) : (s.report x).diesok = s.diesok := rfl
@[simp] theorem State.report_dead (x : FaultRec) : (s.report x).dead = s.dead := rfl
@[simp] theorem State.report_repair (x : FaultRec) : (s.report x).repair = s.repair := rfl
@[simp] theorem State.report_quadMap (x : FaultRec) : (s.report x).quadMap = s.quadMap := rfl
@[simp] theorem State.report_cap (x : FaultRec) : (s.report x).cap = s.cap := rfl
@[simp] theorem State.report_rows (x : FaultRec) : (s.report x).rows = s.rows := rfl
@[simp] theorem State.report_rowEvents (x : FaultRec) : (s.report x).rowEvents = s.rowEvents := rfl
@[simp] theorem State.report_corrected (x : FaultRec) : (s.report x).corrected = s.corrected := rfl
@[simp] theorem State.report_uncorrected (x : FaultRec) : (s.report x).uncorrected = s.uncorrected := rfl
@[simp] theorem State.report_tick (x : FaultRec) : (s.report x).tick = s.tick := rfl
@[simp] theorem State.report_clock (x : FaultRec) : (s.report x).clock = s.clock := rfl
@[simp] theorem State.report_tai (x : FaultRec) : (s.report x).tai = s.tai := rfl
@[simp] theorem State.report_taiRate (x : FaultRec) : (s.report x).taiRate = s.taiRate := rfl
@[simp] theorem State.report_ppsTick (x : FaultRec) : (s.report x).ppsTick = s.ppsTick := rfl
@[simp] theorem State.report_ppsTai (x : FaultRec) : (s.report x).ppsTai = s.ppsTai := rfl
@[simp] theorem State.report_ppsLast (x : FaultRec) : (s.report x).ppsLast = s.ppsLast := rfl
@[simp] theorem State.report_ppsSet (x : FaultRec) : (s.report x).ppsSet = s.ppsSet := rfl
@[simp] theorem State.report_link0 (x : FaultRec) : (s.report x).link0 = s.link0 := rfl
@[simp] theorem State.report_link1 (x : FaultRec) : (s.report x).link1 = s.link1 := rfl
@[simp] theorem State.report_paired0 (x : FaultRec) : (s.report x).paired0 = s.paired0 := rfl
@[simp] theorem State.report_paired1 (x : FaultRec) : (s.report x).paired1 = s.paired1 := rfl
@[simp] theorem State.report_unmasked (x : FaultRec) : (s.report x).unmasked = s.unmasked := rfl
@[simp] theorem State.report_pending (x : FaultRec) : (s.report x).pending = s.pending := rfl
@[simp] theorem State.report_msixTab (x : FaultRec) : (s.report x).msixTab = s.msixTab := rfl
@[simp] theorem State.report_iommu (x : FaultRec) : (s.report x).iommu = s.iommu := rfl
@[simp] theorem State.report_pri (x : FaultRec) : (s.report x).pri = s.pri := rfl
@[simp] theorem State.report_tlb (x : FaultRec) : (s.report x).tlb = s.tlb := rfl
@[simp] theorem State.report_ctl (x : FaultRec) : (s.report x).ctl = s.ctl := rfl
@[simp] theorem State.report_admEnable (x : FaultRec) : (s.report x).admEnable = s.admEnable := rfl
@[simp] theorem State.report_admLg (x : FaultRec) : (s.report x).admLg = s.admLg := rfl
@[simp] theorem State.report_admWidx (x : FaultRec) : (s.report x).admWidx = s.admWidx := rfl
@[simp] theorem State.report_admRidx (x : FaultRec) : (s.report x).admRidx = s.admRidx := rfl
@[simp] theorem State.report_adm (x : FaultRec) : (s.report x).adm = s.adm := rfl
@[simp] theorem State.report_fqEnable (x : FaultRec) : (s.report x).fqEnable = s.fqEnable := rfl
@[simp] theorem State.report_fqLg (x : FaultRec) : (s.report x).fqLg = s.fqLg := rfl
@[simp] theorem State.report_fqTail (x : FaultRec) : (s.report x).fqTail = s.fqTail := rfl
@[simp] theorem State.report_fqHead (x : FaultRec) : (s.report x).fqHead = s.fqHead := rfl
@[simp] theorem State.report_fqHeld (x : FaultRec) : (s.report x).fqHeld = s.fqHeld ++ [{ x with tick := s.tick }] := rfl
@[simp] theorem State.report_fqOpen (x : FaultRec) : (s.report x).fqOpen = s.fqOpen := rfl
@[simp] theorem State.report_ctxs (x : FaultRec) : (s.report x).ctxs = s.ctxs := rfl
@[simp] theorem State.report_apertures (x : FaultRec) : (s.report x).apertures = s.apertures := rfl
@[simp] theorem State.report_queues (x : FaultRec) : (s.report x).queues = s.queues := rfl
@[simp] theorem State.report_launches (x : FaultRec) : (s.report x).launches = s.launches := rfl
@[simp] theorem State.report_teams (x : FaultRec) : (s.report x).teams = s.teams := rfl
@[simp] theorem State.report_waves (x : FaultRec) : (s.report x).waves = s.waves := rfl
@[simp] theorem State.report_cores (x : FaultRec) : (s.report x).cores = s.cores := rfl
@[simp] theorem State.report_quads (x : FaultRec) : (s.report x).quads = s.quads := rfl
@[simp] theorem State.report_copies (x : FaultRec) : (s.report x).copies = s.copies := rfl
@[simp] theorem State.report_dispatch (x : FaultRec) : (s.report x).dispatch = s.dispatch := rfl
@[simp] theorem State.report_timetable (x : FaultRec) : (s.report x).timetable = s.timetable := rfl
@[simp] theorem State.report_fires (x : FaultRec) : (s.report x).fires = s.fires := rfl
@[simp] theorem State.report_skips (x : FaultRec) : (s.report x).skips = s.skips := rfl
@[simp] theorem State.report_shutTick (x : FaultRec) : (s.report x).shutTick = s.shutTick := rfl
@[simp] theorem State.report_shutArm (x : FaultRec) : (s.report x).shutArm = s.shutArm := rfl
@[simp] theorem State.report_shutNow (x : FaultRec) : (s.report x).shutNow = s.shutNow := rfl
@[simp] theorem State.report_gated (x : FaultRec) : (s.report x).gated = s.gated := rfl
@[simp] theorem State.report_stream (x : FaultRec) : (s.report x).stream = s.stream := rfl
@[simp] theorem State.report_heldDoors (x : FaultRec) : (s.report x).heldDoors = s.heldDoors := rfl
@[simp] theorem State.report_heldEvents (x : FaultRec) : (s.report x).heldEvents = s.heldEvents := rfl
@[simp] theorem State.report_podid (x : FaultRec) : (s.report x).podid = s.podid := rfl
@[simp] theorem State.report_podidSet (x : FaultRec) : (s.report x).podidSet = s.podidSet := rfl
@[simp] theorem State.report_peerTo (x : FaultRec) : (s.report x).peerTo = s.peerTo := rfl
@[simp] theorem State.report_links (x : FaultRec) : (s.report x).links = s.links := rfl
@[simp] theorem State.report_podArrs (x : FaultRec) : (s.report x).podArrs = s.podArrs := rfl
@[simp] theorem State.report_trAddr (x : FaultRec) : (s.report x).trAddr = s.trAddr := rfl
@[simp] theorem State.report_trSize (x : FaultRec) : (s.report x).trSize = s.trSize := rfl
@[simp] theorem State.report_trMask (x : FaultRec) : (s.report x).trMask = s.trMask := rfl
@[simp] theorem State.report_trTail (x : FaultRec) : (s.report x).trTail = s.trTail := rfl
@[simp] theorem State.report_trHead (x : FaultRec) : (s.report x).trHead = s.trHead := rfl
@[simp] theorem State.report_trStat (x : FaultRec) : (s.report x).trStat = s.trStat := rfl
@[simp] theorem State.report_trSrcs (x : FaultRec) : (s.report x).trSrcs = s.trSrcs := rfl
@[simp] theorem State.report_bins (x : FaultRec) : (s.report x).bins = s.bins := rfl
@[simp] theorem State.report_histLast (x : FaultRec) : (s.report x).histLast = s.histLast := rfl
@[simp] theorem State.report_flushLast (x : FaultRec) : (s.report x).flushLast = s.flushLast := rfl

/-! ### store -/

@[simp] theorem State.store_agenda (who : Option (Nat × DWord)) (pa : Nat) (b : List Byte) (cmp : Bool) : (s.store who pa b cmp).agenda = s.agenda := rfl
@[simp] theorem State.store_nondet (who : Option (Nat × DWord)) (pa : Nat) (b : List Byte) (cmp : Bool) : (s.store who pa b cmp).nondet = s.nondet := rfl
@[simp] theorem State.store_fresh (who : Option (Nat × DWord)) (pa : Nat) (b : List Byte) (cmp : Bool) : (s.store who pa b cmp).fresh = s.fresh := rfl
@[simp] theorem State.store_cur (who : Option (Nat × DWord)) (pa : Nat) (b : List Byte) (cmp : Bool) : (s.store who pa b cmp).cur = s.cur := rfl
@[simp] theorem State.store_outbox (who : Option (Nat × DWord)) (pa : Nat) (b : List Byte) (cmp : Bool) : (s.store who pa b cmp).outbox = s.outbox := rfl
@[simp] theorem State.store_mem (who : Option (Nat × DWord)) (pa : Nat) (b : List Byte) (cmp : Bool) : (s.store who pa b cmp).mem = mput s.mem pa b := rfl
@[simp] theorem State.store_fences (who : Option (Nat × DWord)) (pa : Nat) (b : List Byte) (cmp : Bool) : (s.store who pa b cmp).fences = s.fences := rfl
@[simp] theorem State.store_peers (who : Option (Nat × DWord)) (pa : Nat) (b : List Byte) (cmp : Bool) : (s.store who pa b cmp).peers = s.peers := rfl
@[simp] theorem State.store_ready (who : Option (Nat × DWord)) (pa : Nat) (b : List Byte) (cmp : Bool) : (s.store who pa b cmp).ready = s.ready := rfl
@[simp] theorem State.store_diesok (who : Option (Nat × DWord)) (pa : Nat) (b : List Byte) (cmp : Bool) : (s.store who pa b cmp).diesok = s.diesok := rfl
@[simp] theorem State.store_dead (who : Option (Nat × DWord)) (pa : Nat) (b : List Byte) (cmp : Bool) : (s.store who pa b cmp).dead = s.dead := rfl
@[simp] theorem State.store_repair (who : Option (Nat × DWord)) (pa : Nat) (b : List Byte) (cmp : Bool) : (s.store who pa b cmp).repair = s.repair := rfl
@[simp] theorem State.store_quadMap (who : Option (Nat × DWord)) (pa : Nat) (b : List Byte) (cmp : Bool) : (s.store who pa b cmp).quadMap = s.quadMap := rfl
@[simp] theorem State.store_cap (who : Option (Nat × DWord)) (pa : Nat) (b : List Byte) (cmp : Bool) : (s.store who pa b cmp).cap = s.cap := rfl
@[simp] theorem State.store_rows (who : Option (Nat × DWord)) (pa : Nat) (b : List Byte) (cmp : Bool) : (s.store who pa b cmp).rows = s.rows := rfl
@[simp] theorem State.store_rowEvents (who : Option (Nat × DWord)) (pa : Nat) (b : List Byte) (cmp : Bool) : (s.store who pa b cmp).rowEvents = s.rowEvents := rfl
@[simp] theorem State.store_corrected (who : Option (Nat × DWord)) (pa : Nat) (b : List Byte) (cmp : Bool) : (s.store who pa b cmp).corrected = s.corrected := rfl
@[simp] theorem State.store_uncorrected (who : Option (Nat × DWord)) (pa : Nat) (b : List Byte) (cmp : Bool) : (s.store who pa b cmp).uncorrected = s.uncorrected := rfl
@[simp] theorem State.store_tick (who : Option (Nat × DWord)) (pa : Nat) (b : List Byte) (cmp : Bool) : (s.store who pa b cmp).tick = s.tick := rfl
@[simp] theorem State.store_clock (who : Option (Nat × DWord)) (pa : Nat) (b : List Byte) (cmp : Bool) : (s.store who pa b cmp).clock = s.clock := rfl
@[simp] theorem State.store_tai (who : Option (Nat × DWord)) (pa : Nat) (b : List Byte) (cmp : Bool) : (s.store who pa b cmp).tai = s.tai := rfl
@[simp] theorem State.store_taiRate (who : Option (Nat × DWord)) (pa : Nat) (b : List Byte) (cmp : Bool) : (s.store who pa b cmp).taiRate = s.taiRate := rfl
@[simp] theorem State.store_ppsTick (who : Option (Nat × DWord)) (pa : Nat) (b : List Byte) (cmp : Bool) : (s.store who pa b cmp).ppsTick = s.ppsTick := rfl
@[simp] theorem State.store_ppsTai (who : Option (Nat × DWord)) (pa : Nat) (b : List Byte) (cmp : Bool) : (s.store who pa b cmp).ppsTai = s.ppsTai := rfl
@[simp] theorem State.store_ppsLast (who : Option (Nat × DWord)) (pa : Nat) (b : List Byte) (cmp : Bool) : (s.store who pa b cmp).ppsLast = s.ppsLast := rfl
@[simp] theorem State.store_ppsSet (who : Option (Nat × DWord)) (pa : Nat) (b : List Byte) (cmp : Bool) : (s.store who pa b cmp).ppsSet = s.ppsSet := rfl
@[simp] theorem State.store_link0 (who : Option (Nat × DWord)) (pa : Nat) (b : List Byte) (cmp : Bool) : (s.store who pa b cmp).link0 = s.link0 := rfl
@[simp] theorem State.store_link1 (who : Option (Nat × DWord)) (pa : Nat) (b : List Byte) (cmp : Bool) : (s.store who pa b cmp).link1 = s.link1 := rfl
@[simp] theorem State.store_paired0 (who : Option (Nat × DWord)) (pa : Nat) (b : List Byte) (cmp : Bool) : (s.store who pa b cmp).paired0 = s.paired0 := rfl
@[simp] theorem State.store_paired1 (who : Option (Nat × DWord)) (pa : Nat) (b : List Byte) (cmp : Bool) : (s.store who pa b cmp).paired1 = s.paired1 := rfl
@[simp] theorem State.store_unmasked (who : Option (Nat × DWord)) (pa : Nat) (b : List Byte) (cmp : Bool) : (s.store who pa b cmp).unmasked = s.unmasked := rfl
@[simp] theorem State.store_pending (who : Option (Nat × DWord)) (pa : Nat) (b : List Byte) (cmp : Bool) : (s.store who pa b cmp).pending = s.pending := rfl
@[simp] theorem State.store_msixTab (who : Option (Nat × DWord)) (pa : Nat) (b : List Byte) (cmp : Bool) : (s.store who pa b cmp).msixTab = s.msixTab := rfl
@[simp] theorem State.store_iommu (who : Option (Nat × DWord)) (pa : Nat) (b : List Byte) (cmp : Bool) : (s.store who pa b cmp).iommu = s.iommu := rfl
@[simp] theorem State.store_pri (who : Option (Nat × DWord)) (pa : Nat) (b : List Byte) (cmp : Bool) : (s.store who pa b cmp).pri = s.pri := rfl
@[simp] theorem State.store_tlb (who : Option (Nat × DWord)) (pa : Nat) (b : List Byte) (cmp : Bool) : (s.store who pa b cmp).tlb = s.tlb := rfl
@[simp] theorem State.store_ctl (who : Option (Nat × DWord)) (pa : Nat) (b : List Byte) (cmp : Bool) : (s.store who pa b cmp).ctl = s.ctl := rfl
@[simp] theorem State.store_admEnable (who : Option (Nat × DWord)) (pa : Nat) (b : List Byte) (cmp : Bool) : (s.store who pa b cmp).admEnable = s.admEnable := rfl
@[simp] theorem State.store_admLg (who : Option (Nat × DWord)) (pa : Nat) (b : List Byte) (cmp : Bool) : (s.store who pa b cmp).admLg = s.admLg := rfl
@[simp] theorem State.store_admWidx (who : Option (Nat × DWord)) (pa : Nat) (b : List Byte) (cmp : Bool) : (s.store who pa b cmp).admWidx = s.admWidx := rfl
@[simp] theorem State.store_admRidx (who : Option (Nat × DWord)) (pa : Nat) (b : List Byte) (cmp : Bool) : (s.store who pa b cmp).admRidx = s.admRidx := rfl
@[simp] theorem State.store_adm (who : Option (Nat × DWord)) (pa : Nat) (b : List Byte) (cmp : Bool) : (s.store who pa b cmp).adm = s.adm := rfl
@[simp] theorem State.store_fqEnable (who : Option (Nat × DWord)) (pa : Nat) (b : List Byte) (cmp : Bool) : (s.store who pa b cmp).fqEnable = s.fqEnable := rfl
@[simp] theorem State.store_fqLg (who : Option (Nat × DWord)) (pa : Nat) (b : List Byte) (cmp : Bool) : (s.store who pa b cmp).fqLg = s.fqLg := rfl
@[simp] theorem State.store_fqTail (who : Option (Nat × DWord)) (pa : Nat) (b : List Byte) (cmp : Bool) : (s.store who pa b cmp).fqTail = s.fqTail := rfl
@[simp] theorem State.store_fqHead (who : Option (Nat × DWord)) (pa : Nat) (b : List Byte) (cmp : Bool) : (s.store who pa b cmp).fqHead = s.fqHead := rfl
@[simp] theorem State.store_fqHeld (who : Option (Nat × DWord)) (pa : Nat) (b : List Byte) (cmp : Bool) : (s.store who pa b cmp).fqHeld = s.fqHeld := rfl
@[simp] theorem State.store_fqOpen (who : Option (Nat × DWord)) (pa : Nat) (b : List Byte) (cmp : Bool) : (s.store who pa b cmp).fqOpen = s.fqOpen := rfl
@[simp] theorem State.store_ctxs (who : Option (Nat × DWord)) (pa : Nat) (b : List Byte) (cmp : Bool) : (s.store who pa b cmp).ctxs = s.ctxs := rfl
@[simp] theorem State.store_apertures (who : Option (Nat × DWord)) (pa : Nat) (b : List Byte) (cmp : Bool) : (s.store who pa b cmp).apertures = s.apertures := rfl
@[simp] theorem State.store_queues (who : Option (Nat × DWord)) (pa : Nat) (b : List Byte) (cmp : Bool) : (s.store who pa b cmp).queues = s.queues := rfl
@[simp] theorem State.store_launches (who : Option (Nat × DWord)) (pa : Nat) (b : List Byte) (cmp : Bool) : (s.store who pa b cmp).launches = s.launches := rfl
@[simp] theorem State.store_teams (who : Option (Nat × DWord)) (pa : Nat) (b : List Byte) (cmp : Bool) : (s.store who pa b cmp).teams = s.teams := rfl
@[simp] theorem State.store_waves (who : Option (Nat × DWord)) (pa : Nat) (b : List Byte) (cmp : Bool) : (s.store who pa b cmp).waves = s.waves.map (hitLinks who pa b.length) := rfl
@[simp] theorem State.store_cores (who : Option (Nat × DWord)) (pa : Nat) (b : List Byte) (cmp : Bool) : (s.store who pa b cmp).cores = s.cores := rfl
@[simp] theorem State.store_quads (who : Option (Nat × DWord)) (pa : Nat) (b : List Byte) (cmp : Bool) : (s.store who pa b cmp).quads = s.quads := rfl
@[simp] theorem State.store_copies (who : Option (Nat × DWord)) (pa : Nat) (b : List Byte) (cmp : Bool) : (s.store who pa b cmp).copies = s.copies := rfl
@[simp] theorem State.store_dispatch (who : Option (Nat × DWord)) (pa : Nat) (b : List Byte) (cmp : Bool) : (s.store who pa b cmp).dispatch = s.dispatch := rfl
@[simp] theorem State.store_timetable (who : Option (Nat × DWord)) (pa : Nat) (b : List Byte) (cmp : Bool) : (s.store who pa b cmp).timetable = s.timetable := rfl
@[simp] theorem State.store_fires (who : Option (Nat × DWord)) (pa : Nat) (b : List Byte) (cmp : Bool) : (s.store who pa b cmp).fires = s.fires := rfl
@[simp] theorem State.store_skips (who : Option (Nat × DWord)) (pa : Nat) (b : List Byte) (cmp : Bool) : (s.store who pa b cmp).skips = s.skips := rfl
@[simp] theorem State.store_shutTick (who : Option (Nat × DWord)) (pa : Nat) (b : List Byte) (cmp : Bool) : (s.store who pa b cmp).shutTick = s.shutTick := rfl
@[simp] theorem State.store_shutArm (who : Option (Nat × DWord)) (pa : Nat) (b : List Byte) (cmp : Bool) : (s.store who pa b cmp).shutArm = s.shutArm := rfl
@[simp] theorem State.store_shutNow (who : Option (Nat × DWord)) (pa : Nat) (b : List Byte) (cmp : Bool) : (s.store who pa b cmp).shutNow = s.shutNow := rfl
@[simp] theorem State.store_gated (who : Option (Nat × DWord)) (pa : Nat) (b : List Byte) (cmp : Bool) : (s.store who pa b cmp).gated = s.gated := rfl
@[simp] theorem State.store_stream (who : Option (Nat × DWord)) (pa : Nat) (b : List Byte) (cmp : Bool) : (s.store who pa b cmp).stream = s.stream := rfl
@[simp] theorem State.store_heldDoors (who : Option (Nat × DWord)) (pa : Nat) (b : List Byte) (cmp : Bool) : (s.store who pa b cmp).heldDoors = s.heldDoors := rfl
@[simp] theorem State.store_heldEvents (who : Option (Nat × DWord)) (pa : Nat) (b : List Byte) (cmp : Bool) : (s.store who pa b cmp).heldEvents = s.heldEvents := rfl
@[simp] theorem State.store_podid (who : Option (Nat × DWord)) (pa : Nat) (b : List Byte) (cmp : Bool) : (s.store who pa b cmp).podid = s.podid := rfl
@[simp] theorem State.store_podidSet (who : Option (Nat × DWord)) (pa : Nat) (b : List Byte) (cmp : Bool) : (s.store who pa b cmp).podidSet = s.podidSet := rfl
@[simp] theorem State.store_peerTo (who : Option (Nat × DWord)) (pa : Nat) (b : List Byte) (cmp : Bool) : (s.store who pa b cmp).peerTo = s.peerTo := rfl
@[simp] theorem State.store_links (who : Option (Nat × DWord)) (pa : Nat) (b : List Byte) (cmp : Bool) : (s.store who pa b cmp).links = s.links := rfl
@[simp] theorem State.store_podArrs (who : Option (Nat × DWord)) (pa : Nat) (b : List Byte) (cmp : Bool) : (s.store who pa b cmp).podArrs = s.podArrs := rfl
@[simp] theorem State.store_trAddr (who : Option (Nat × DWord)) (pa : Nat) (b : List Byte) (cmp : Bool) : (s.store who pa b cmp).trAddr = s.trAddr := rfl
@[simp] theorem State.store_trSize (who : Option (Nat × DWord)) (pa : Nat) (b : List Byte) (cmp : Bool) : (s.store who pa b cmp).trSize = s.trSize := rfl
@[simp] theorem State.store_trMask (who : Option (Nat × DWord)) (pa : Nat) (b : List Byte) (cmp : Bool) : (s.store who pa b cmp).trMask = s.trMask := rfl
@[simp] theorem State.store_trTail (who : Option (Nat × DWord)) (pa : Nat) (b : List Byte) (cmp : Bool) : (s.store who pa b cmp).trTail = s.trTail := rfl
@[simp] theorem State.store_trHead (who : Option (Nat × DWord)) (pa : Nat) (b : List Byte) (cmp : Bool) : (s.store who pa b cmp).trHead = s.trHead := rfl
@[simp] theorem State.store_trStat (who : Option (Nat × DWord)) (pa : Nat) (b : List Byte) (cmp : Bool) : (s.store who pa b cmp).trStat = s.trStat := rfl
@[simp] theorem State.store_trSrcs (who : Option (Nat × DWord)) (pa : Nat) (b : List Byte) (cmp : Bool) : (s.store who pa b cmp).trSrcs = s.trSrcs := rfl
@[simp] theorem State.store_bins (who : Option (Nat × DWord)) (pa : Nat) (b : List Byte) (cmp : Bool) : (s.store who pa b cmp).bins = s.bins := rfl
@[simp] theorem State.store_histLast (who : Option (Nat × DWord)) (pa : Nat) (b : List Byte) (cmp : Bool) : (s.store who pa b cmp).histLast = s.histLast := rfl
@[simp] theorem State.store_flushLast (who : Option (Nat × DWord)) (pa : Nat) (b : List Byte) (cmp : Bool) : (s.store who pa b cmp).flushLast = s.flushLast := rfl

/-! ### Lookups after an update -/

@[simp] theorem State.wave_putWave_self (x : Wave) : (s.putWave x).wave? x.key = some x :=
  lput_find_self _ _ _ (by simp)

theorem State.wave_putWave_of (x : Wave) (k : Nat) (h : k = x.key) : (s.putWave x).wave? k = some x := by
  subst h; simp

theorem State.wave_putWave_ne (x : Wave) (k : Nat) (h : k ≠ x.key) : (s.putWave x).wave? k = s.wave? k :=
  lput_find_other _ _ _ _ (by simp [Ne.symm h]) (by intro y hy; simp at hy ⊢; omega)

@[simp] theorem State.team_putTeam_self (x : Team) : (s.putTeam x).team? x.key = some x :=
  lput_find_self _ _ _ (by simp)

theorem State.team_putTeam_ne (x : Team) (k : Nat) (h : k ≠ x.key) : (s.putTeam x).team? k = s.team? k :=
  lput_find_other _ _ _ _ (by simp [Ne.symm h]) (by intro y hy; simp at hy ⊢; omega)

@[simp] theorem State.launch_putLaunch_self (x : Launch) : (s.putLaunch x).launch? x.key = some x :=
  lput_find_self _ _ _ (by simp)

theorem State.launch_putLaunch_ne (x : Launch) (k : Nat) (h : k ≠ x.key) : (s.putLaunch x).launch? k = s.launch? k :=
  lput_find_other _ _ _ _ (by simp [Ne.symm h]) (by intro y hy; simp at hy ⊢; omega)

@[simp] theorem State.ctx_putCtx_self (x : Ctx) : (s.putCtx x).ctx? x.id = some x :=
  lput_find_self _ _ _ (by simp)

theorem State.ctx_putCtx_ne (x : Ctx) (k : Nat) (h : k ≠ x.id) : (s.putCtx x).ctx? k = s.ctx? k :=
  lput_find_other _ _ _ _ (by simp [Ne.symm h]) (by intro y hy; simp at hy ⊢; omega)

@[simp] theorem State.queue_putQueue_self (x : Queue) : (s.putQueue x).queue? x.id = some x :=
  lput_find_self _ _ _ (by simp)

theorem State.queue_putQueue_ne (x : Queue) (k : Nat) (h : k ≠ x.id) : (s.putQueue x).queue? k = s.queue? k :=
  lput_find_other _ _ _ _ (by simp [Ne.symm h]) (by intro y hy; simp at hy ⊢; omega)

@[simp] theorem State.core_putCore_self (x : Core) : (s.putCore x).core x.id = x := by
  simp [State.core, State.putCore, lput_find_self]

theorem State.core_putCore_ne (x : Core) (k : Nat) (h : k ≠ x.id) : (s.putCore x).core k = s.core k := by
  simp only [State.core, State.putCore]
  rw [lput_find_other _ _ _ _ (by simp [Ne.symm h]) (by intro y hy; simp at hy ⊢; omega)]

@[simp] theorem State.quad_putQuad_self (x : Quad) : (s.putQuad x).quad x.id = x := by
  simp [State.quad, State.putQuad, lput_find_self]

@[simp] theorem State.link_putLink_self (x : XLink) : (s.putLink x).link x.n = x := by
  simp [State.link, State.putLink, lput_find_self]

@[simp] theorem State.wave_putTeam (x : Team) (k : Nat) : (s.putTeam x).wave? k = s.wave? k := rfl
@[simp] theorem State.wave_putLaunch (x : Launch) (k : Nat) : (s.putLaunch x).wave? k = s.wave? k := rfl
@[simp] theorem State.wave_putCore (x : Core) (k : Nat) : (s.putCore x).wave? k = s.wave? k := rfl
@[simp] theorem State.wave_putCtx (x : Ctx) (k : Nat) : (s.putCtx x).wave? k = s.wave? k := rfl
@[simp] theorem State.team_putWave (x : Wave) (k : Nat) : (s.putWave x).team? k = s.team? k := rfl
@[simp] theorem State.team_putLaunch (x : Launch) (k : Nat) : (s.putLaunch x).team? k = s.team? k := rfl
@[simp] theorem State.team_putCore (x : Core) (k : Nat) : (s.putCore x).team? k = s.team? k := rfl
@[simp] theorem State.launch_putWave (x : Wave) (k : Nat) : (s.putWave x).launch? k = s.launch? k := rfl
@[simp] theorem State.launch_putTeam (x : Team) (k : Nat) : (s.putTeam x).launch? k = s.launch? k := rfl
@[simp] theorem State.launch_putCore (x : Core) (k : Nat) : (s.putCore x).launch? k = s.launch? k := rfl
@[simp] theorem State.ctx_putWave (x : Wave) (k : Nat) : (s.putWave x).ctx? k = s.ctx? k := rfl
@[simp] theorem State.ctx_putTeam (x : Team) (k : Nat) : (s.putTeam x).ctx? k = s.ctx? k := rfl
@[simp] theorem State.ctx_putLaunch (x : Launch) (k : Nat) : (s.putLaunch x).ctx? k = s.ctx? k := rfl
@[simp] theorem State.ctx_putCore (x : Core) (k : Nat) : (s.putCore x).ctx? k = s.ctx? k := rfl
@[simp] theorem State.core_putWave (x : Wave) (k : Nat) : (s.putWave x).core k = s.core k := rfl
@[simp] theorem State.core_putTeam (x : Team) (k : Nat) : (s.putTeam x).core k = s.core k := rfl
@[simp] theorem State.core_putLaunch (x : Launch) (k : Nat) : (s.putLaunch x).core k = s.core k := rfl
@[simp] theorem State.core_putCtx (x : Ctx) (k : Nat) : (s.putCtx x).core k = s.core k := rfl

end Sys2Proof.Machine
end

