-- ==== Sys2Proof/Laws/Ops.lean ====
section
/-! SUPPORT. What each shared operation of issue can do: the surroundings found, the checks passed, an instruction retired. -/

namespace Sys2Proof.Machine

/-! ### The surroundings -/

/-- Where the surroundings of the issuing wave come from. -/
structure Found? (s : State) (e : Env) : Prop where
  cur : s.cur = some e.w.key
  wave : s.wave? e.w.key = some e.w
  state : e.s = s
  stage : e.w.stage = .issue
  clause : e.w.clause = some e.cl
  pos : e.w.pos < e.cl.count
  team : s.team? e.w.team = some e.t
  launch : s.launch? e.t.launch = some e.l
  ctx : s.ctx? e.t.ctx = some e.c
  frag : e.w.frags[e.w.cur]? = some e.f
  regs : e.r = e.w.regsAt e.w.pos

theorem State.env_found {s : State} {e : Env} (h : s.env? = some e) : Found? s e := by
  unfold State.env? at h
  split at h
  · cases h
  rename_i k hk
  split at h
  · cases h
  rename_i w hw
  split at h
  · rename_i cl hst hcl
    split at h
    · rename_i hp
      unfold State.envOf at h
      split at h
      · rename_i t f ht hf
        split at h
        · rename_i l c hl hc
          cases h
          have hkey : w.key = k := by simpa using List.find?_some hw
          exact ⟨by simp [hk, hkey], by simp [hkey, hw], rfl, hst, hcl, hp, ht, hl, hc, hf, rfl⟩
        · cases h
      · cases h
    · cases h
  · cases h

/-! ### The checks at issue -/

/-- An instruction that is ready passes its checks. -/
theorem gate_go {p : Spec} {s : State} {e : Env} {c : Cls} {k : Slot} {reads writes : List Nat} (h : Ready s e c k reads writes)
    (hc : p.cls = none ∨ p.cls = some c) (hk : p.slot = k) (hr : p.seen = reads) (hw : p.writes = writes) (hchk : p.chk e = none)
    (hl : p.acts e = true) : gate p s = .go e := by
  subst hk hr hw
  have hcls : p.cls.any (· != e.cl.cls) = false := by
    rcases hc with hc | hc <;> simp [hc, h.cls]
  have hlen : ¬ e.f.blocks.length ≤ p.slot.val := by have := h.slot; omega
  have ht : (if e.checked then timingBad e.w.pend e.w.pos p.seen p.writes else none) = none := by
    rcases h.timing with ht | ht <;> simp [ht]
  have hlatch : e.latchBad (p.reads ++ p.writes) = false := by
    have := h.latch
    unfold Spec.seen at this
    split at this
    · simp only [Env.latchBad, List.cons_append, List.any_cons, Bool.and_eq_false_iff, Bool.or_eq_false_iff] at this ⊢
      exact this.imp_left And.right
    · exact this
  simp only [gate, h.env, hcls, hchk, hl, ht, hlatch, if_neg hlen, Bool.false_eq_true, if_false, Bool.not_true]

/-- An instruction that is ready acts. -/
theorem run_go {p : Spec} {act : Env → State} {s : State} {e : Env} {c : Cls} {k : Slot} {reads writes : List Nat}
    (h : Ready s e c k reads writes) (hc : p.cls = none ∨ p.cls = some c) (hk : p.slot = k) (hr : p.seen = reads)
    (hw : p.writes = writes) (hchk : p.chk e = none) (hl : p.acts e = true) : run p act s = .next (act e) := by
  simp only [run, gate_go h hc hk hr hw hchk hl]

/-! ### Entries in order -/

theorem mem_ins (f : Pend → Nat) (p x : Pend) (l : List Pend) : x ∈ Pend.ins f p l ↔ x = p ∨ x ∈ l := by
  induction l with
  | nil => simp [Pend.ins]
  | cons q t ih =>
    unfold Pend.ins
    split
    · simp
    · simp only [List.mem_cons, ih]; tauto

theorem sortPend_append (f : Pend → Nat) (l : List Pend) (p : Pend) : sortPend f (l ++ [p]) = Pend.ins f p (sortPend f l) := by
  simp [sortPend, List.foldl_append]

theorem mem_sortPend (f : Pend → Nat) (x : Pend) (l : List Pend) : x ∈ sortPend f l ↔ x ∈ l := by
  induction l using List.reverseRecOn with
  | nil => rfl
  | append_singleton l p ih => rw [sortPend_append, mem_ins, ih, List.mem_append, List.mem_singleton]; tauto

theorem ins_last (f : Pend → Nat) (p : Pend) (l : List Pend) (h : ∀ q ∈ l, f q ≤ f p) : Pend.ins f p l = l ++ [p] := by
  induction l with
  | nil => rfl
  | cons q t ih =>
    unfold Pend.ins
    rw [if_neg (Nat.not_lt.2 (h q (by simp))), ih fun x hx => h x (by simp [hx]), List.cons_append]

/-- An entry that no other prevails over comes last. -/
theorem sortPend_last (f : Pend → Nat) (l : List Pend) (p : Pend) (h : ∀ q ∈ l, f q ≤ f p) :
    sortPend f (l ++ [p]) = sortPend f l ++ [p] := by
  rw [sortPend_append, ins_last _ _ _ fun q hq => h q ((mem_sortPend f q l).1 hq)]

theorem ins_sorted (f : Pend → Nat) (p : Pend) (l : List Pend) (h : l.Pairwise fun x y => f x ≤ f y) :
    (Pend.ins f p l).Pairwise fun x y => f x ≤ f y := by
  induction l with
  | nil => simp [Pend.ins]
  | cons q t ih =>
    have hq : ∀ x ∈ t, f q ≤ f x := fun x hx => List.rel_of_pairwise_cons h hx
    unfold Pend.ins
    split
    · rename_i hp
      exact List.pairwise_cons.2 ⟨fun x hx => by
        rcases List.mem_cons.1 hx with rfl | hx
        · omega
        · have := hq x hx; omega, h⟩
    · rename_i hp
      exact List.pairwise_cons.2 ⟨fun x hx => by
        rcases (mem_ins f p x t).1 hx with rfl | hx
        · omega
        · exact hq x hx, ih (List.Pairwise.of_cons h)⟩

theorem sortPend_sorted (f : Pend → Nat) (l : List Pend) : (sortPend f l).Pairwise fun x y => f x ≤ f y := by
  induction l using List.reverseRecOn with
  | nil => exact .nil
  | append_singleton l p ih => rw [sortPend_append]; exact ins_sorted f p _ ih

theorem foldl_same {α β : Type} (g : α → β → α) (l : List β) (a : α) (h : ∀ x ∈ l, ∀ a, g a x = a) : l.foldl g a = a := by
  induction l generalizing a with
  | nil => rfl
  | cons x l ih => rw [List.foldl_cons, h x (by simp), ih _ fun y hy => h y (by simp [hy])]

theorem foldl_skip {α : Type} (f : Pend → Nat) (g : α → Pend → α) (p : Pend) (l : List Pend) (a : α) (h : ∀ a, g a p = a) :
    (Pend.ins f p l).foldl g a = l.foldl g a := by
  induction l generalizing a with
  | nil => exact h a
  | cons q t ih =>
    unfold Pend.ins
    split
    · rw [List.foldl_cons, h]
    · rw [List.foldl_cons, ih, List.foldl_cons]

/-- Folding over sorted entries with one more put in, after which those that come do not act. -/
theorem foldl_ins {α : Type} (f : Pend → Nat) (g : α → Pend → α) (p : Pend) (l : List Pend) (a : α)
    (hs : l.Pairwise fun x y => f x ≤ f y) (h : ∀ q ∈ l, f p < f q → ∀ a, g a q = a) :
    (Pend.ins f p l).foldl g a = g (l.foldl g a) p := by
  induction l generalizing a with
  | nil => rfl
  | cons q t ih =>
    unfold Pend.ins
    split
    · rename_i hp
      have hall : ∀ x ∈ q :: t, ∀ a, g a x = a := by
        intro x hx
        refine h x hx ?_
        rcases List.mem_cons.1 hx with rfl | hx
        · exact hp
        · exact Nat.lt_of_lt_of_le hp (List.rel_of_pairwise_cons hs hx)
      rw [List.foldl_cons, foldl_same g _ _ hall, foldl_same g _ _ hall]
    · rw [List.foldl_cons, ih _ (List.Pairwise.of_cons hs) fun x hx => h x (by simp [hx]), List.foldl_cons]

/-! ### The registers once one more entry is due -/

/-- What fflags and amax come to is no more than the effects of these ranks (R260). -/
def Accum.below (a : Accum) (n : Nat) : Prop := a.fAny ≤ n ∧ a.fSet ≤ n ∧ a.aAny ≤ n ∧ a.aSet ≤ n

theorem Accum.put_below (a : Accum) (rank pos n : Nat) (x : Eff) (ha : a.below n) (h : rank ≤ n) : (a.put rank pos x).below n := by
  obtain ⟨h1, h2, h3, h4⟩ := ha
  cases x <;> simp only [Accum.put, Accum.setFlags] <;> (try split) <;> (try split) <;>
    simp only [Accum.below] <;> omega

theorem Accum.puts_below (rank pos n : Nat) (l : List Eff) (a : Accum) (ha : a.below n) (h : rank ≤ n) :
    (l.foldl (Accum.put rank pos) a).below n := by
  induction l generalizing a with
  | nil => exact ha
  | cons x l ih => exact ih _ (a.put_below rank pos n x ha h)

theorem accum_below (n : Nat) (l : List Pend) (a : Accum) (ha : a.below n) (h : ∀ p ∈ l, p.rank ≤ n) :
    (l.foldl (fun a p => p.effs.foldl (Accum.put p.rank p.pos) a) a).below n := by
  induction l generalizing a with
  | nil => exact ha
  | cons p l ih => exact ih _ (Accum.puts_below p.rank p.pos n p.effs a ha (h p (by simp))) fun q hq => h q (by simp [hq])

/-- An effect that is no AMAXC's. -/
def Eff.noTake : Eff → Bool
  | .amaxTake _ => false
  | _ => true

theorem Accum.put_same (rank pos : Nat) (x : Eff) (a : Accum) (h : x.accumulates = false) : a.put rank pos x = a := by
  cases x <;> first | rfl | exact absurd h (Ne.symm Bool.false_ne_true)

theorem Accum.put_took (rank pos : Nat) (x : Eff) (a : Accum) (h : x.noTake = true) : (a.put rank pos x).took = a.took := by
  cases x <;> first | rfl | exact absurd h Bool.false_ne_true | (simp only [Accum.put, Accum.setFlags]; split <;> rfl)

theorem Accum.puts_took (rank pos : Nat) (l : List Eff) (a : Accum) (h : ∀ x ∈ l, x.noTake = true) :
    (l.foldl (Accum.put rank pos) a).took = a.took := by
  induction l generalizing a with
  | nil => rfl
  | cons x l ih => rw [List.foldl_cons, ih _ fun y hy => h y (by simp [hy]), a.put_took rank pos x (h x (by simp))]

theorem putPend_took (a b : Accum) (r : Regs) (p : Pend) (h : a.took = b.took) : r.putPend a p = r.putPend b p := by
  unfold Regs.putPend; rw [h]

theorem putPend_plain (a : Accum) (r : Regs) (p : Pend) (h : ∀ x ∈ p.effs, x.noTake = true) : r.putPend a p = r.putAll p.effs := by
  unfold Regs.putPend Regs.putAll
  generalize p.effs = l at h
  induction l generalizing r with
  | nil => rfl
  | cons x l ih =>
    rw [List.foldl_cons, List.foldl_cons, ih _ fun y hy => h y (by simp [hy])]
    have := h x (by simp)
    cases x <;> first | rfl | exact absurd this Bool.false_ne_true

/-- fflags and amax beside the other registers, effect by effect. -/
theorem put_accum (rank pos : Nat) (l : List Eff) (r : Regs) (a : Accum) (ha : a.below rank) (h : ∀ x ∈ l, x.noTake = true) :
    ({ r.putAll l with fflags := (l.foldl (Accum.put rank pos) a).fflags, amax := (l.foldl (Accum.put rank pos) a).amax } : Regs)
      = ({ r with fflags := a.fflags, amax := a.amax } : Regs).putAll l := by
  induction l generalizing r a with
  | nil => rfl
  | cons x l ih =>
    simp only [Regs.putAll, List.foldl_cons] at ih ⊢
    rw [ih (r.put x) (a.put rank pos x) (a.put_below rank pos rank x ha (Nat.le_refl _)) fun y hy => h y (by simp [hy])]
    congr 1
    obtain ⟨h1, h2, h3, h4⟩ := ha
    have hx := h x (by simp)
    cases x <;> first
      | exact absurd hx Bool.false_ne_true
      | (simp only [Accum.put, Accum.setFlags, Regs.put, if_pos h1, if_pos h2, if_pos h3, if_pos h4]; done)
      | (simp only [Accum.put, Accum.setFlags, Regs.put, if_pos h1, if_pos h2, if_pos h3, if_pos h4]; rfl)
      | (simp only [Accum.put, Regs.put]; split <;> first | rfl | (split <;> rfl))

/-- An entry over which nothing pending prevails, and whose effects on fflags and amax join what has fallen due before them, acts on what
the others leave (R126, R260). -/
theorem after_append (r : Regs) (l : List Pend) (p : Pend) (hr : ∀ q ∈ l, q.rank ≤ p.rank)
    (ha : (∀ x ∈ p.effs, x.accumulates = false) ∨ ∀ q ∈ l, q.effs.any Eff.accumulates = true → q.due ≤ p.due)
    (ht : ∀ x ∈ p.effs, x.noTake = true) : r.after (l ++ [p]) = (r.after l).putAll p.effs := by
  have hacc : r.accum (l ++ [p]) = p.effs.foldl (Accum.put p.rank p.pos) (r.accum l) := by
    unfold Regs.accum
    rw [sortPend_last _ _ _ hr, sortPend_append]
    rcases ha with ha | ha
    · have hp : ∀ a, p.effs.foldl (Accum.put p.rank p.pos) a = a := fun a =>
        foldl_same _ _ _ fun x hx a => a.put_same _ _ x (ha x hx)
      rw [hp]
      exact foldl_skip _ _ p _ _ hp
    · refine foldl_ins _ _ p _ _ (sortPend_sorted _ _) fun q hq hlt a => foldl_same _ _ _ fun x hx a => a.put_same _ _ x ?_
      rw [mem_sortPend, mem_sortPend] at hq
      by_contra hne
      have := ha q hq (List.any_eq_true.2 ⟨x, hx, by simpa using hne⟩)
      omega
  have hb : (r.accum l).below p.rank := accum_below _ _ _ ⟨Nat.zero_le _, Nat.zero_le _, Nat.zero_le _, Nat.zero_le _⟩ fun q hq => by
    rw [mem_sortPend, mem_sortPend] at hq; exact hr q hq
  unfold Regs.after
  simp only [hacc]
  rw [sortPend_last _ _ _ hr, List.foldl_append, List.foldl_cons, List.foldl_nil, putPend_plain _ _ _ ht]
  rw [show Regs.putPend (p.effs.foldl (Accum.put p.rank p.pos) (r.accum l)) = Regs.putPend (r.accum l) from by
    funext r q; exact putPend_took _ _ _ _ (Accum.puts_took _ _ _ _ ht)]
  exact put_accum p.rank p.pos p.effs _ _ hb ht

/-- AMAXC moves amax as it stands where it falls due, once every other write of amax is due before it (R276). -/
theorem after_take (r : Regs) (l : List Pend) (p : Pend) (d : SDst) (he : p.effs = [.amaxTake d]) (hr : ∀ q ∈ l, q.rank ≤ p.rank)
    (hp : ∀ q ∈ l, q.pos ≠ p.pos) (ha : ∀ q ∈ l, q.effs.any Eff.accumulates = true → q.due ≤ p.due) :
    r.after (l ++ [p]) = ({ r.after l with amax := 0 } : Regs).putS d ((r.after l).amax.setWidth 64) := by
  have hacc : r.accum (l ++ [p]) = (r.accum l).put p.rank p.pos (.amaxTake d) := by
    unfold Regs.accum
    rw [sortPend_last _ _ _ hr, sortPend_append, foldl_ins _ _ p _ _ (sortPend_sorted _ _) (by
      intro q hq hlt a
      refine foldl_same _ _ _ fun x hx a => a.put_same _ _ x ?_
      rw [mem_sortPend, mem_sortPend] at hq
      by_contra hne
      have := ha q hq (List.any_eq_true.2 ⟨x, hx, by simpa using hne⟩)
      omega), he]
    rfl
  have hb : (r.accum l).below p.rank := accum_below _ _ _ ⟨Nat.zero_le _, Nat.zero_le _, Nat.zero_le _, Nat.zero_le _⟩ fun q hq => by
    rw [mem_sortPend, mem_sortPend] at hq; exact hr q hq
  obtain ⟨h1, h2, h3, h4⟩ := hb
  have hsame (R : Regs) : (sortPend Pend.rank l).foldl (Regs.putPend ((r.accum l).put p.rank p.pos (.amaxTake d))) R
      = (sortPend Pend.rank l).foldl (Regs.putPend (r.accum l)) R := by
    have : ∀ q ∈ sortPend Pend.rank l, ∀ R, Regs.putPend ((r.accum l).put p.rank p.pos (.amaxTake d)) R q = Regs.putPend (r.accum l) R q := by
      intro q hq R
      have hq' := hp q ((mem_sortPend _ q l).1 hq)
      unfold Regs.putPend
      congr 1
      funext R x
      cases x <;> try rfl
      congr 2
      cases d <;> simp only [Accum.put, Accum.setFlags] <;> (try split) <;> simp [lget, Ne.symm hq']
    generalize sortPend Pend.rank l = L at this
    induction L generalizing R with
    | nil => rfl
    | cons q L ih => rw [List.foldl_cons, List.foldl_cons, this q (by simp), ih _ fun x hx => this x (by simp [hx])]
  unfold Regs.after
  simp only [hacc]
  rw [sortPend_last _ _ _ hr, List.foldl_append, List.foldl_cons, List.foldl_nil, hsame]
  unfold Regs.putPend
  rw [he]
  have hw : ((r.accum l).amax.setWidth 64).extractLsb' 0 33 = (r.accum l).amax := by
    ext i hi; simp [hi]; omega
  have hw5 : ((r.accum l).amax.setWidth 64).extractLsb' 0 5 = (r.accum l).amax.extractLsb' 0 5 := by
    ext i hi; simp [hi]; omega
  cases d <;> simp [Accum.put, Accum.setFlags, Regs.putS, lget, h1, hw, hw5]

/-! ### Effects falling due -/

theorem landEff_local (s : State) (w : Wave) (due : Nat) (x : Eff) (h : x.local = true) : landEff s w due x = (s, w) := by
  cases x with
  | wreg n x => exact absurd h Bool.false_ne_true
  | amaxTake d => cases d <;> first | rfl | exact absurd h Bool.false_ne_true
  | tclr m => exact absurd h Bool.false_ne_true
  | lrel => exact absurd h Bool.false_ne_true
  | csrw n x =>
    have : n = 0x10 ∨ n = 0x11 := of_decide_eq_true h
    rcases this with rfl | rfl <;> rfl
  | vrow => rfl
  | _ => rfl

theorem landEff_foldl (l : List Eff) (s : State) (w : Wave) (due : Nat) (h : ∀ x ∈ l, x.local = true) :
    l.foldl (fun a x => landEff a.1 a.2 due x) (s, w) = (s, w) := by
  induction l with
  | nil => rfl
  | cons x l ih =>
    rw [List.foldl_cons, landEff_local s w due x (h x (by simp))]
    exact ih fun y hy => h y (by simp [hy])

theorem land_list (l : List Pend) (s : State) (w : Wave) (q : Nat) (h : ∀ p ∈ l, ∀ x ∈ p.effs, x.local = true) :
    l.foldl (fun (a : State × Wave) p => if w.pos < p.due ∧ p.due ≤ q then p.effs.foldl (fun a e => landEff a.1 a.2 p.due e) a
      else a) (s, w) = (s, w) := by
  induction l with
  | nil => rfl
  | cons p l ih =>
    rw [List.foldl_cons, landEff_foldl p.effs s w p.due (h p (by simp)), ite_self]
    exact ih fun y hy => h y (by simp [hy])

theorem land_local (s : State) (w : Wave) (q : Nat) (h : ∀ p ∈ w.pend, ∀ x ∈ p.effs, x.local = true) : s.land w q = (s, w) :=
  land_list _ s w q fun p hp => h p ((mem_sortPend _ p _).1 hp)

/-! ### A wave put back -/

theorem setFrag_mask (w : Wave) (i : Nat) (f : Frag → Frag) (h : ∀ x, (f x).mask = x.mask) :
    (w.setFrag i f).frags.map Frag.mask = w.frags.map Frag.mask := by
  simp only [Wave.setFrag, List.map_map]
  rw [← List.zipIdx_map_fst 0 w.frags, List.map_map]
  rw [List.zipIdx_map_fst]
  apply List.map_congr_left
  intro p _
  simp only [Function.comp]
  split <;> simp [h]

/-- What putting a wave back does. -/
theorem settle_spec (s : State) (w : Wave) :
    (∃ w', (s.settle w).wave? w.key = some w' ∧ w' = { w with age := w'.age, stepping := w'.stepping, stepped := w'.stepped })
    ∧ (∀ k, k ≠ w.key → (s.settle w).wave? k = s.wave? k)
    ∧ s.settle w = { s with waves := (s.settle w).waves, cores := (s.settle w).cores }
    ∧ (w.stepping = none → (s.settle w).cores = s.cores) := by
  unfold State.settle
  extract_lets w1 k
  have hk : w1.key = w.key := by simp only [w1]; split <;> rfl
  have hs : w1.stepping = w.stepping := by simp only [w1]; split <;> rfl
  have hw : w1 = { w with age := w1.age, stepping := w1.stepping, stepped := w1.stepped } := by simp only [w1]; split <;> rfl
  split
  · rename_i h
    refine ⟨⟨{ w1 with stepping := none, stepped := false }, ?_, ?_⟩, ?_, rfl, ?_⟩
    · rw [← hk]; exact State.wave_putWave_self s { w1 with stepping := none, stepped := false }
    · rw [hw]
    · intro j hj; exact State.wave_putWave_ne s _ _ (by simpa [hk] using hj)
    · intro hn; simp [Wave.stepOver, hs, hn] at h
  · refine ⟨⟨w1, ?_, ?_⟩, ?_, rfl, fun _ => rfl⟩
    · rw [← hk]; exact State.wave_putWave_self s w1
    · exact hw
    · intro j hj; exact State.wave_putWave_ne s _ _ (by simpa [hk] using hj)

@[simp] theorem stepOver_none (w : Wave) (h : w.stepping = none) : w.stepOver = false := by simp [Wave.stepOver, h]

/-- A wave that goes on is put back as it went on. -/
theorem settle_went (s : State) (w v : Wave) (hk : v.key = w.key) (hw : w.Went v) (hs : v.stepping = w.stepping) :
    (∃ w', (s.settle v).wave? w.key = some w' ∧ w'.regsEnd = v.regsEnd ∧ w.Went w')
    ∧ (∀ k, k ≠ w.key → (s.settle v).wave? k = s.wave? k)
    ∧ s.settle v = { s with waves := (s.settle v).waves, cores := (s.settle v).cores }
    ∧ (w.stepping = none → (s.settle v).cores = s.cores) := by
  obtain ⟨⟨w', h1, h2⟩, h3, h4, h5⟩ := settle_spec s v
  rw [hk] at h1 h3
  rw [hs] at h5
  refine ⟨⟨w', h1, ?_, ⟨?_, ?_⟩⟩, h3, h4, h5⟩
  · rw [h2]; rfl
  · rw [h2]; exact hw.masks
  · have := hw.rest
    rw [h2]; simp only
    rw [this]

theorem zipIdx_if_mask (l : List Frag) (i : Nat) (f : Frag → Frag) (h : ∀ x, (f x).mask = x.mask) :
    (l.zipIdx.map fun p => if p.2 == i then f p.1 else p.1).map Frag.mask = l.map Frag.mask := by
  have := setFrag_mask { key := 0, team := 0, wid := 0, place := none, frags := l } i f h
  exact this

/-- What going on comes to, when the effects that fall due take the state to `S` at the next position and to `S'` by the clause's
end. -/
theorem advance_went (s S S' : State) (c : Ctx) (w : Wave) (cl : Clause) (hcall : w.call = none) (hcl : w.clause = some cl)
    (hS : S.cores = s.cores) (h1 : s.land w w.nextPos = (S, w))
    (h2 : ∀ v : Wave, v.pend = w.pend → v.pos = w.nextPos → v.team = w.team → v.regs = w.regs → S.land v v.lastDue = (S', v)) :
    ∃ B, B = (if s.clauseEnds w then S' else S) ∧
    (∃ w', (s.advance c w).wave? w.key = some w' ∧ w'.regsEnd = w.regsEnd ∧ w.Went w')
    ∧ (∀ k, k ≠ w.key → (s.advance c w).wave? k = B.wave? k)
    ∧ s.advance c w = { B with waves := (s.advance c w).waves, cores := (s.advance c w).cores }
    ∧ (w.stepping = none → (s.advance c w).cores = B.cores) := by
  obtain ⟨v, hv⟩ : ∃ v, v = ({ w with pos := w.nextPos, replay := w.replay.tail
                                      redo := if w.replay.tail = [] then none else w.redo, reason := 0, stepped := true } : Wave).setFrag w.cur
      fun f => { f with held := none, past := none, yield := false } := ⟨_, rfl⟩
  have hadv : s.advance c w = if S.waitsLong v w.nextPos then S.settle { v with stage := .long, reason := 6 }
      else if v.count ≤ w.nextPos then S.endClause c v else S.settle { v with stage := .issue } := by
    unfold State.advance; simp only [h1]; rw [hv]
  have hm : v.frags.map Frag.mask = w.frags.map Frag.mask := by
    rw [hv]; exact setFrag_mask _ _ _ fun _ => rfl
  have hr : v = { w with frags := v.frags, pos := v.pos, replay := v.replay, redo := v.redo, reason := v.reason, stepped := v.stepped } := by
    rw [hv]; rfl
  have hp : v.pend = w.pend := by rw [hr]
  have hg : v.regs = w.regs := by rw [hr]
  have he : v.regsEnd = w.regsEnd := by simp only [Wave.regsEnd, hp, hg]
  have hk : v.key = w.key := by rw [hr]
  have ht : v.stepping = w.stepping := by rw [hr]
  have hc : v.count = w.count := by rw [hr]; rfl
  have hb : S.busy v = s.busy w := by rw [hr]; simp only [State.busy, Wave.coreNo, State.core, hS]
  rw [hadv]
  by_cases hw : S.waitsLong v w.nextPos = true
  · rw [if_pos hw]
    refine ⟨S, (if_neg ?_).symm, ?_⟩
    · simp only [State.waitsLong, State.clauseEnds, hp, hb, hc, Bool.or_eq_true, Bool.and_eq_true, List.any_eq_true] at hw ⊢
      rintro ⟨⟨-, h2⟩, h3⟩
      rcases hw with ⟨p, h4, h5, -⟩ | ⟨-, ⟨p, h4, h5⟩ | h4⟩
      · exact absurd (List.any_eq_true.2 ⟨p, h4, h5⟩) (by simpa using h2)
      · exact absurd (List.any_eq_true.2 ⟨p, h4, h5⟩) (by simpa using h2)
      · simp [h4] at h3
    have := settle_went S w { v with stage := .long, reason := 6 } hk ⟨hm, by rw [hr]⟩ ht
    simpa only [Wave.regsEnd, hp, hg] using this
  · rw [if_neg hw]
    by_cases hq : v.count ≤ w.nextPos
    · rw [if_pos hq]
      have h2' := h2 v hp (by rw [hv]; rfl) (by rw [hr]) hg
      have hvc : v.call = none := (congrArg Wave.call hr).trans hcall
      have hvk : v.clause = some cl := (congrArg Wave.clause hr).trans hcl
      have hec : S.endClause c v = if cl.e then S'.settle { v with regs := v.regsEnd, pend := [], late := [], stage := .vote }
          else S'.settle ((({ v with regs := v.regsEnd, pend := [], late := [] } : Wave).setFrag v.cur
            fun f => { f with cp := f.cp + 128, quantum := min 255 (f.quantum + 1), held := none, past := none, yield := false }).nextClause c.q) := by
        unfold State.endClause State.flush; simp only [h2', hvc, hvk]
      rw [hec]
      have hend : s.clauseEnds w = true := by
        simp only [State.waitsLong, hp, hb, hq, decide_true, Bool.true_and, Bool.not_eq_true, Bool.or_eq_false_iff] at hw
        simp only [State.clauseEnds, hw.2.1, hw.2.2, ← hc, hq, decide_true, Bool.not_false, Bool.and_self]
      refine ⟨S', (if_pos hend).symm, ?_⟩
      have hn (x : Wave) (h1 : x.pend = []) (h2 : x.regs = v.regsEnd) : x.regsEnd = w.regsEnd := by
        rw [← he]; conv_lhs => unfold Wave.regsEnd
        rw [h1, h2]; rfl
      split
      · have := settle_went S' w { v with regs := v.regsEnd, pend := [], late := [], stage := .vote } hk ⟨hm, by rw [hr]⟩ ht
        rw [hn { v with regs := v.regsEnd, pend := [], late := [], stage := .vote } rfl rfl] at this
        exact this
      · obtain ⟨u, hu⟩ : ∃ u, u = (({ v with regs := v.regsEnd, pend := [], late := [] } : Wave).setFrag v.cur
            fun f => { f with cp := f.cp + 128, quantum := min 255 (f.quantum + 1), held := none, past := none, yield := false }).nextClause c.q := ⟨_, rfl⟩
        rw [← hu]
        have hum : u.frags.map Frag.mask = w.frags.map Frag.mask := by
          rw [← hm, hu]; exact setFrag_mask { v with regs := v.regsEnd, pend := [], late := [] } v.cur
            (fun f => { f with cp := f.cp + 128, quantum := min 255 (f.quantum + 1), held := none, past := none, yield := false }) fun _ => rfl
        have hur : u = { v with regs := u.regs, pend := u.pend, late := u.late, frags := u.frags, stage := u.stage, clause := u.clause, pos := u.pos
                                yielded := u.yielded } := by rw [hu]; rfl
        have := settle_went S' w u ((congrArg Wave.key hur).trans hk) ⟨hum, by rw [hur]; rw [hr]⟩
          ((congrArg Wave.stepping hur).trans ht)
        rw [hn u (by rw [hu]; rfl) (by rw [hu]; rfl)] at this
        exact this
    · rw [if_neg hq]
      refine ⟨S, (if_neg ?_).symm, ?_⟩
      · rw [State.clauseEnds, ← hc]; simp [hq]
      have := settle_went S w { v with stage := .issue } hk ⟨hm, by rw [hr]⟩ ht
      simpa only [Wave.regsEnd, hp, hg] using this

/-- What going on leaves, from a state whose teams are `B`'s. -/
structure WentOn (s t : State) (w : Wave) (r : Regs) : Prop where
  wave : ∃ w', t.wave? w.key = some w' ∧ w'.regsEnd = r ∧ w.Went w'
  others : ∀ k, k ≠ w.key → t.wave? k = s.wave? k
  rest : t = { s with waves := t.waves, cores := t.cores }
  cores : w.stepping = none → t.cores = s.cores

/-- A wave whose pending effects change its own registers goes on, and nothing else changes (R126). -/
theorem advance_local (s : State) (c : Ctx) (w : Wave) (cl : Clause) (hcall : w.call = none) (hcl : w.clause = some cl)
    (hloc : ∀ p ∈ w.pend, ∀ x ∈ p.effs, x.local = true) : WentOn s (s.advance c w) w w.regsEnd := by
  obtain ⟨B, hB, h1, h2, h3, h4⟩ := advance_went s s s c w cl hcall hcl rfl (land_local s w _ hloc)
    (fun v hv _ _ _ => land_local s v _ (by rw [hv]; exact hloc))
  rw [ite_self] at hB
  subst hB
  exact ⟨h1, h2, h3, h4⟩

/-- Every pending effect falls due by the last due position. -/
theorem le_lastDue {w : Wave} {p : Pend} (h : p ∈ w.pend) : p.due ≤ w.lastDue := by
  have key (l : List Pend) (n : Nat) : n ≤ l.foldl (fun n p => max n p.due) n ∧ ∀ p ∈ l, p.due ≤ l.foldl (fun n p => max n p.due) n := by
    induction l generalizing n with
    | nil => simp
    | cons x l ih =>
      have := ih (max n x.due)
      refine ⟨le_trans (Nat.le_max_left _ _) this.1, fun q hq => ?_⟩
      rcases List.mem_cons.1 hq with rfl | hq
      · exact le_trans (Nat.le_max_right _ _) this.1
      · exact this.2 q hq
  exact (key w.pend 0).2 p h

/-- The same when the newest pending effect writes a team register: the team has it as soon as it is due (R125). -/
theorem advance_wreg (s : State) (c : Ctx) (w : Wave) (cl : Clause) (tm : Team) (old : List Pend) (p : Pend) (n : Fin 16) (x : DWord)
    (hcall : w.call = none) (hcl : w.clause = some cl) (ht : s.team? w.team = some tm) (hp : w.pend = old ++ [p])
    (he : p.effs = [.wreg n x]) (hdue : w.pos < p.due) (hloc : ∀ p ∈ old, ∀ x ∈ p.effs, x.local = true) (hrank : ∀ q ∈ old, q.rank ≤ p.rank) :
    ∃ B, B = (if s.clauseEnds w || decide (p.due ≤ w.nextPos) then s.putTeam { tm with w := cset tm.w n.val x } else s) ∧ WentOn B (s.advance c w) w w.regsEnd := by
  have hval (v : Wave) (hv : v.pend = w.pend) (hr : v.regs = w.regs) : cget (v.regsAt p.due).w n.val = x := by
    unfold Wave.regsAt
    rw [hv, hp, List.filter_append]
    have : [p].filter (fun q => decide (q.due ≤ p.due)) = [p] := by simp
    rw [this, after_append _ _ _ (fun q hq => hrank q (List.mem_filter.1 hq).1) (.inl (by rw [he]; simp [Eff.accumulates]))
      (by rw [he]; simp [Eff.noTake]), he]
    exact cget_cset_self _ _ _
  have hfold (S : State) (v : Wave) (q : Nat) (hv : v.pend = w.pend) (w0 : Nat) :
      (sortPend Pend.due v.pend).foldl (fun (a : State × Wave) p => if w0 < p.due ∧ p.due ≤ q then
        p.effs.foldl (fun a e => landEff a.1 a.2 p.due e) a else a) (S, v)
      = if w0 < p.due ∧ p.due ≤ q then (S.landW v p.due n, v) else (S, v) := by
    have hold : ∀ y ∈ sortPend Pend.due old, ∀ a : State × Wave, (if w0 < y.due ∧ y.due ≤ q then
        y.effs.foldl (fun a e => landEff a.1 a.2 y.due e) a else a) = a := by
      intro y hy a
      rw [landEff_foldl y.effs a.1 a.2 y.due (hloc y ((mem_sortPend _ y _).1 hy)), ite_self]
    rw [hv, hp, sortPend_append, foldl_ins _ _ p _ _ (sortPend_sorted _ _) fun y hy _ => hold y hy, foldl_same _ _ _ hold, he]
    rfl
  have hland (S : State) (v : Wave) (q : Nat) (hv : v.pend = w.pend) (hr : v.regs = w.regs) (hS : S.team? v.team = some tm) :
      S.land v q = (if v.pos < p.due ∧ p.due ≤ q then S.putTeam { tm with w := cset tm.w n.val x } else S, v) := by
    unfold State.land
    rw [hfold S v q hv]
    split
    · unfold State.landW; rw [hS]; simp only [hval v hv hr]
    · rfl
  have hlast : p.due ≤ w.lastDue := le_lastDue (by rw [hp]; simp)
  have hlast' (v : Wave) (hv : v.pend = w.pend) : v.lastDue = w.lastDue := by simp only [Wave.lastDue, hv]
  by_cases hd : p.due ≤ w.nextPos
  · obtain ⟨B, hB, h1, h2, h3, h4⟩ := advance_went s (s.putTeam { tm with w := cset tm.w n.val x }) (s.putTeam { tm with w := cset tm.w n.val x }) c w cl hcall hcl
      rfl (by rw [hland s w _ rfl rfl ht, if_pos ⟨hdue, hd⟩]) (fun v hv hvp hvt _ => by
        unfold State.land
        rw [hfold _ v _ hv, if_neg (by rw [hvp]; omega)])
    rw [ite_self] at hB
    exact ⟨B, by rw [hB]; simp [hd], ⟨h1, h2, h3, h4⟩⟩
  · obtain ⟨B, hB, h1, h2, h3, h4⟩ := advance_went s s (s.putTeam { tm with w := cset tm.w n.val x }) c w cl hcall hcl
      rfl (by rw [hland s w _ rfl rfl ht, if_neg fun h => hd h.2])
      (fun v hv hvp hvt hvr => by rw [hland s v _ hv hvr (by rw [hvt]; exact ht), hvp, hlast' v hv, if_pos ⟨by omega, hlast⟩])
    exact ⟨B, by rw [hB]; simp [hd], ⟨h1, h2, h3, h4⟩⟩

/-! ### Fixed-latency instructions that retire -/

theorem noTake_local {l : List Eff} (h : ∀ x ∈ l, x.local = true) (h' : ∀ d, .amaxTake d ∉ l) : ∀ x ∈ l, x.noTake = true := by
  intro x hx
  cases x <;> first | rfl | exact absurd hx (h' _)

/-- What pends ranks below an instruction that is ready and is not of class MEM. -/
theorem Ready.rank {s : State} {e : Env} {c : Cls} {k : Slot} {reads writes : List Nat} (h : Ready s e c k reads writes) (hc : c ≠ .mem) :
    ∀ q ∈ e.w.pend, q.rank ≤ 2 * e.w.pos := by
  intro q hq
  have h1 := (h.ahead q hq).1
  have h2 := (h.ahead q hq).2 hc
  unfold Pend.rank
  split
  · rename_i hl; have := h2 hl; omega
  · omega

/-- The registers with one more entry pending of an instruction that is ready (R126, R260). -/
theorem regsEnd_ready {s : State} {e : Env} {c : Cls} {k : Slot} {reads writes : List Nat} (h : Ready s e c k reads writes) (hc : c ≠ .mem)
    (lat : Nat) (hlat : 4 ≤ lat) (wr : List Nat) (effs : List Eff) (ht : ∀ x ∈ effs, x.noTake = true) :
    ({ e.w with pend := e.w.pend ++ [{ pos := e.w.pos, due := e.w.pos + lat, effs := effs, dsts := wr }] } : Wave).regsEnd = e.w.regsEnd.putAll effs :=
  after_append _ _ _ (h.rank hc) (.inr fun q hq hx => Nat.le_trans (h.accum q hq hx) (by simp only; omega)) ht

/-- With no effect on the teams it does not matter when one would fall due. -/
theorem Retires.anyLat {s t : State} {e : Env} {r : Regs} {lat : Nat} (h : Retires s t e r s.teams lat) (n : Nat) : Retires s t e r s.teams n :=
  ⟨h.wave, h.others, by rw [h.teams]; simp, h.rest, h.cores⟩

/-- An instruction whose effects change its wave's own registers retires and changes nothing else (R126). -/
theorem fixed_retires {s : State} {e : Env} {c : Cls} {k : Slot} {reads writes : List Nat} (h : Ready s e c k reads writes) (hc : c ≠ .mem)
    (lat : Nat) (hlat : 4 ≤ lat) (wr : List Nat) (effs : List Eff) (hl : ∀ x ∈ effs, x.local = true) (ht : ∀ x ∈ effs, x.noTake = true) :
    Retires s (e.fixed lat wr effs) e (e.w.regsEnd.putAll effs) s.teams lat := by
  have hf := State.env_found h.env
  have hq := h.quiet
  simp only [Env.fixed, Env.retire, hf.state]
  obtain ⟨⟨w', h1, h2, h3⟩, h4, h5, h6⟩ := advance_local s e.c
    { e.w with pend := e.w.pend ++ [{ pos := e.w.pos, due := e.w.pos + lat, effs := effs, dsts := wr }] } e.cl hq.2 hf.clause (by
    intro p hp
    rcases List.mem_append.1 hp with hp | hp
    · exact hq.1 p hp
    · rw [List.mem_singleton.1 hp]; exact hl)
  exact ⟨⟨w', h1, h2.trans (regsEnd_ready h hc lat hlat wr effs ht), ⟨h3.masks, h3.rest⟩⟩, h4, by rw [h5]; simp, by rw [h5], h6⟩

/-- An effect that no completion is awaited for does not keep the clause from ending. -/
theorem clauseEnds_pend (s : State) (w : Wave) (p : Pend) (h : p.waits = false) :
    s.clauseEnds { w with pend := w.pend ++ [p] } = s.clauseEnds w := by
  simp only [State.clauseEnds, List.any_append, List.any_cons, List.any_nil, h, Bool.or_false]; rfl

/-- The same when the effect writes a team register (R125). -/
theorem fixed_retires_wreg {s : State} {e : Env} {c : Cls} {k : Slot} {reads writes : List Nat} (h : Ready s e c k reads writes)
    (hc : c ≠ .mem) (lat : Nat) (hlat : 4 ≤ lat) (wr : List Nat) (n : Fin 16) (x : DWord) :
    Retires s (e.fixed lat wr [.wreg n x]) e (e.w.regsEnd.putAll [.wreg n x])
      (s.putTeam { e.t with w := cset e.t.w n.val x }).teams lat := by
  have hf := State.env_found h.env
  have hq := h.quiet
  simp only [Env.fixed, Env.retire, hf.state]
  obtain ⟨B, hB, ⟨w', h1, h2, h3⟩, h4, h5, h6⟩ := advance_wreg s e.c
    { e.w with pend := e.w.pend ++ [{ pos := e.w.pos, due := e.w.pos + lat, effs := [.wreg n x], dsts := wr }] } e.cl e.t e.w.pend _ n x hq.2 hf.clause hf.team
    rfl rfl (Nat.lt_add_of_pos_right (by omega)) hq.1 (h.rank hc)
  have hr := h2.trans (regsEnd_ready h hc lat hlat wr [.wreg n x] (by simp [Eff.noTake]))
  have hl := clauseEnds_pend s e.w { pos := e.w.pos, due := e.w.pos + lat, effs := [.wreg n x], dsts := wr } rfl
  replace hB : B = if s.lands e.w lat then s.putTeam { e.t with w := cset e.t.w n.val x } else s := by
    unfold State.lands; rw [← hl]; exact hB
  refine ⟨⟨w', h1, hr, ⟨h3.masks, h3.rest⟩⟩, ?_, ?_, ?_, ?_⟩
  · subst hB; intro j hj; rw [h4 j hj]; split <;> rfl
  · rw [h5, hB]; split <;> rfl
  · rw [h5, hB]; split <;> rfl
  · intro hn; rw [h6 hn, hB]; split <;> rfl

end Sys2Proof.Machine
end

