-- ==== Sys2Proof/Laws/Issue.lean ====
section
/-! SUPPORT. What the shared shapes of register instructions do when they are ready: scalar, lane-wise, wave-wide, mask. -/

namespace Sys2Proof

open Machine

/-! ### What a destination's effects do -/

theorem SDst.put_local {d : SDst} {x : DWord} {l : List Eff} (h : d.put x = some l) (hw : ∀ n, d ≠ .w n) :
    ∀ y ∈ l, y.local = true := by
  cases d <;> simp only [SDst.put] at h
  case w n => exact absurd rfl (hw n)
  case mvc => split at h <;> cases h; intro y hy; rw [List.mem_singleton.1 hy]; rfl
  case mrp => split at h <;> cases h; intro y hy; rw [List.mem_singleton.1 hy]; rfl
  all_goals (cases h; intro y hy; first | (rw [List.mem_singleton.1 hy]; rfl) | cases hy)

theorem SDst.put_noTake {d : SDst} {x : DWord} {l : List Eff} (h : d.put x = some l) : ∀ y ∈ l, y.noTake = true := by
  cases d <;> simp only [SDst.put] at h
  case mvc => split at h <;> cases h; intro y hy; rw [List.mem_singleton.1 hy]; rfl
  case mrp => split at h <;> cases h; intro y hy; rw [List.mem_singleton.1 hy]; rfl
  all_goals (cases h; intro y hy; first | (rw [List.mem_singleton.1 hy]; rfl) | cases hy)

theorem VDst.put_noTake (d : VDst) (l : List (Nat × Word)) (t : Tag) : ∀ y ∈ d.put l t, y.noTake = true := by
  cases d
  · intro y hy; rw [List.mem_singleton.1 hy]; rfl
  · intro y hy; cases hy

theorem SDst.put_regs {d : SDst} {x : DWord} {l : List Eff} (h : d.put x = some l) (r : Regs) : r.putAll l = r.putS d x := by
  cases d <;> simp only [SDst.put] at h
  case mvc => split at h <;> cases h; rfl
  case mrp => split at h <;> cases h; rfl
  all_goals (cases h; rfl)

theorem SDst.put_takes {d : SDst} {x : DWord} (h : d.takes x) : ∃ l, d.put x = some l := by
  cases d <;> simp only [SDst.put] <;> first | exact ⟨_, rfl⟩ | skip
  all_goals exact ⟨_, if_neg (Nat.not_lt.2 h)⟩

theorem VDst.put_local (d : VDst) (l : List (Nat × Word)) (t : Tag) : ∀ y ∈ d.put l t, y.local = true := by
  cases d
  · intro y hy; rw [List.mem_singleton.1 hy]; rfl
  · intro y hy; cases hy

theorem MDst.put_local (d : MDst) (x : DWord) : ∀ y ∈ d.put x, y.local = true := by
  cases d
  case zero => intro y hy; cases hy
  all_goals (intro y hy; rw [List.mem_singleton.1 hy]; rfl)

namespace Machine

theorem flagEff_local (f : Flags) : ∀ y ∈ flagEff f, y.local = true := by
  intro y hy
  unfold flagEff at hy
  split at hy
  · cases hy
  · rw [List.mem_singleton.1 hy]; rfl

theorem flagEff_noTake (f : Flags) : ∀ y ∈ flagEff f, y.noTake = true := by
  intro y hy
  unfold flagEff at hy
  split at hy
  · cases hy
  · rw [List.mem_singleton.1 hy]; rfl

theorem putAll_append (r : Regs) (a b : List Eff) : r.putAll (a ++ b) = (r.putAll a).putAll b := by
  simp [Regs.putAll, List.foldl_append]

theorem all_append {a b : List Eff} (ha : ∀ y ∈ a, y.local = true) (hb : ∀ y ∈ b, y.local = true) :
    ∀ y ∈ a ++ b, y.local = true := by
  intro y hy
  rcases List.mem_append.1 hy with h | h
  · exact ha y h
  · exact hb y h

/-! ### The shapes -/

/-- A register instruction whose effects change its wave's own registers. -/
theorem regOp_retires {p : Spec} {body : Env → Res} {s : State} {e : Env} {c : Cls} {k : Slot} {reads writes : List Nat}
    {effs : List Eff} {more : List Nat} (h : Ready s e c k reads writes) (hc : p.cls = none ∨ p.cls = some c) (hk : p.slot = k)
    (hr : p.seen = reads) (hw : p.writes = writes) (hchk : p.chk e = none) (hl : p.acts e = true) (hm : c ≠ .mem) (hlat : 4 ≤ p.lat)
    (hb : body e = .ok effs more) (hx : ∀ y ∈ effs, y.local = true) (ht : ∀ y ∈ effs, y.noTake = true) :
    ∃ t, regOp p body s = .next t ∧ Retires s t e (e.w.regsEnd.putAll effs) s.teams := by
  refine ⟨e.fixed p.lat (p.writes ++ more) effs, ?_, (fixed_retires h hm _ hlat _ _ hx ht).anyLat 4⟩
  unfold regOp
  rw [run_go h hc hk hr hw hchk hl]
  simp only [hb]

/-- The value of a scalar instruction reaches its destination. -/
theorem scalarOp_retires {slot : Slot} {d : SDst} {srcs : List SSrc} {v : Env → DWord} {s : State} {e : Env}
    (h : Ready s e .vec slot (srcs.map SSrc.num).flatten d.num) (hl : e.anylane slot = true) (hh : e.hReady srcs)
    (ht : d.takes (v e)) :
    ∃ t, scalarOp slot d srcs v s = .next t ∧ Retires s t e (e.w.regsEnd.putS d (v e)) (d.teams s e (v e)) := by
  obtain ⟨l, hp⟩ := SDst.put_takes ht
  unfold scalarOp regOp
  rw [run_go h (.inr rfl) rfl rfl rfl rfl (by simpa [Spec.acts] using hl)]
  simp only [show e.hRead srcs = none from hh, hp]
  refine ⟨_, rfl, ?_⟩
  rw [← SDst.put_regs hp]
  by_cases hw : ∃ n, d = .w n
  · obtain ⟨n, rfl⟩ := hw
    simp only [SDst.put] at hp
    cases hp
    exact fixed_retires_wreg h (by decide) _ (by decide) _ n _
  · have hw' : ∀ n, d ≠ .w n := fun n hn => hw ⟨n, hn⟩
    have := fixed_retires h (by decide) 4 (by decide) (d.num ++ []) l (SDst.put_local hp hw') (SDst.put_noTake hp)
    cases d <;> first | exact absurd rfl (hw' _) | exact this

/-! ### Lane-wise writes -/

theorem cget_csetAll {w : Nat} (l : List (Nat × BitVec w)) (c : Cells w) (k : Nat) (h : ∀ p ∈ l, p.1 ≠ k) :
    cget (csetAll c l) k = cget c k := by
  induction l generalizing c with
  | nil => rfl
  | cons p l ih =>
    simp only [csetAll, List.foldl_cons]
    rw [show (l.foldl (fun c p => cset c p.1 p.2) (cset c p.1 p.2)) = csetAll (cset c p.1 p.2) l from rfl,
      ih _ fun q hq => h q (by simp [hq]), cget_cset_ne _ _ _ _ (Ne.symm (h p (by simp)))]

theorem cget_csetAll_map {w : Nat} (ls : List Nat) (c : Cells w) (b : Nat) (f : Nat → BitVec w) (l : Nat) (hl : l ∈ ls) :
    cget (csetAll c (ls.map fun i => (b + i, f i))) (b + l) = f l := by
  induction ls generalizing c with
  | nil => cases hl
  | cons i ls ih =>
    rw [List.map_cons]
    show cget (csetAll (cset c (b + i) (f i)) (ls.map fun i => (b + i, f i))) (b + l) = f l
    by_cases hm : l ∈ ls
    · exact ih _ hm
    · have : l = i := by simpa [hm] using hl
      subst this
      rw [cget_csetAll _ _ _ (by
        intro p hp
        obtain ⟨j, hj, rfl⟩ := List.mem_map.1 hp
        simp only [ne_eq]
        intro h
        exact hm (by rwa [show l = j by omega])), cget_cset_self]

theorem lanes_lt (e : Env) (k : Slot) : ∀ l ∈ e.lanes k, l < 64 := by
  intro l hl
  simp only [Env.lanes, List.mem_filter, List.mem_range] at hl
  exact hl.1

/-- What a row written does to the registers. -/
theorem vrow_set (r : Regs) (d : VDst) (on : List Nat) (val : Nat → Word) (tag : Tag) (fl : Flags) (hon : ∀ l ∈ on, l < 64) :
    r.LanesSet ((r.putAll (d.put (on.map fun l => (l, val l)) tag)).putAll (flagEff fl)) d on val tag fl := by
  have hfl (q : Regs) : q.putAll (flagEff fl) = { q with fflags := q.fflags ||| fl } := by
    unfold flagEff
    split
    · rename_i h; subst h; simp [Regs.putAll]
    · rfl
  rw [hfl]
  cases d with
  | zero => exact ⟨by simp [VDst.put, VDst.isV, Regs.putAll], by simp [VDst.put, VDst.isV, Regs.putAll], rfl, rfl⟩
  | v n =>
    by_cases ho : on = []
    · subst ho
      exact ⟨by simp [VDst.put, Regs.putAll, Regs.put], by simp [VDst.put, Regs.putAll, Regs.put], rfl, rfl⟩
    · have hput : r.putAll ((VDst.v n).put (on.map fun l => (l, val l)) tag) =
          { r with v := csetAll r.v (on.map fun l => (64 * n.val + l, val l)), vt := cset r.vt n.val tag.bits } := by
        simp [VDst.put, Regs.putAll, Regs.put, ho, List.map_map, Function.comp_def]
      rw [hput]
      refine ⟨?_, ?_, rfl, rfl⟩
      · intro v l hl
        by_cases h : (VDst.v n).isV v = true ∧ l ∈ on
        · rw [if_pos h]
          rw [← (by simpa [VDst.isV] using h.1 : n.val = v)]
          exact cget_csetAll_map on r.v (64 * n.val) val l h.2
        · rw [if_neg h]
          apply cget_csetAll
          intro p hp
          obtain ⟨j, hj, rfl⟩ := List.mem_map.1 hp
          have := hon j hj
          simp only [ne_eq]
          intro hh
          exact h ⟨by simp only [VDst.isV, beq_iff_eq]; omega, by rwa [show l = j by omega]⟩
      · intro v
        simp only [cget_cset]
        by_cases hv : n.val = v
        · simp [hv, ho, VDst.isV]
        · simp [hv, Ne.symm hv, VDst.isV]

/-- The values of a lane-wise instruction reach its destination's active lanes, and its flags are raised. -/
theorem laneOp_retires {slot : Slot} {lat : Nat} {d : VDst} {srcs : List VSrc} {chks : List TagChk} {tag : Env → Tag}
    {f : Env → Nat → Fl Word} {s : State} {e : Env} (h : Ready s e .vec slot (246 :: (srcs.map VSrc.num).flatten) d.num)
    (hlat : 4 ≤ lat) (hl : e.lanes slot ≠ []) (ht : e.tagsBad chks = none) :
    ∃ t r, laneOp slot lat d srcs chks tag f s = .next t ∧ Retires s t e r s.teams
      ∧ e.w.regsEnd.LanesSet r d (e.lanes slot) (fun l => (f e l).1) (tag e)
          (((e.lanes slot).map fun l => (f e l).2).foldl (· ||| ·) 0) := by
  unfold laneOp
  obtain ⟨t, h1, h2⟩ := regOp_retires (p := { cls := some .vec, slot, lat, reads := (srcs.map VSrc.num).flatten, writes := d.num
                                              lanewise := true })
    (body := fun e => match e.tagsBad chks with
      | some t => .trap t
      | none =>
        let vs := (e.lanes slot).map fun l => (l, f e l)
        let fl := flagsAll (vs.map (·.2))
        .ok (d.put (vs.map fun p => (p.1, p.2.1)) (tag e) ++ flagEff fl) (flagNum fl))
    h (.inr rfl) rfl rfl rfl rfl (by simpa [Spec.acts] using hl) (by decide) hlat (by simp only [ht]; rfl)
    (all_append (VDst.put_local _ _ _) (flagEff_local _)) (by
      intro y hy
      rcases List.mem_append.1 hy with hy | hy
      · exact VDst.put_noTake _ _ _ y hy
      · exact flagEff_noTake _ y hy)
  refine ⟨t, _, h1, h2, ?_⟩
  rw [putAll_append]
  simp only [List.map_map, Function.comp_def, flagsAll, List.foldl_map]
  exact vrow_set _ d _ (fun l => (f e l).1) _ _ (lanes_lt e slot)

/-! ### Elements -/

theorem ofElems_lt (w : Nat) (l : List Nat) : l.foldr (fun x n => x % 2 ^ w + n * 2 ^ w) 0 < 2 ^ (w * l.length) := by
  induction l with
  | nil => simp
  | cons x l ih =>
    simp only [List.foldr_cons, List.length_cons, Nat.mul_add, Nat.mul_one, Nat.pow_add]
    have h1 : x % 2 ^ w < 2 ^ w := Nat.mod_lt _ (by positivity)
    have h2 : 0 < 2 ^ w := by positivity
    nlinarith

/-- An element of a lane built of elements. -/
theorem elem_ofElems (w n : Nat) (g : Nat → Nat) (k : Nat) (hk : k < n) (hn : w * n = 32) :
    elem (ofElems w ((List.range n).map g)) w k = g k % 2 ^ w := by
  have key : ∀ (l : List Nat) (k : Nat), k < l.length →
      (l.foldr (fun x n => x % 2 ^ w + n * 2 ^ w) 0) / 2 ^ (k * w) % 2 ^ w = l[k]! % 2 ^ w := by
    intro l
    induction l with
    | nil => intro k hk; simp at hk
    | cons x l ih =>
      intro k hk
      have h2 : 0 < 2 ^ w := by positivity
      cases k with
      | zero => simp
      | succ k =>
        have := ih k (by simpa using hk)
        simp only [List.foldr_cons]
        rw [show (k + 1) * w = w + k * w by ring, Nat.pow_add, ← Nat.div_div_eq_div_mul,
          Nat.add_mul_div_right _ _ h2, Nat.div_eq_of_lt (Nat.mod_lt _ h2), Nat.zero_add, this]
        simp
  have hlt := ofElems_lt w ((List.range n).map g)
  rw [List.length_map, List.length_range, hn] at hlt
  unfold elem ofElems
  rw [BitVec.toNat_ofNat, Nat.mod_eq_of_lt hlt, Nat.shiftRight_eq_div_pow, key _ k (by simpa using hk)]
  simp [hk]

theorem width_cnt (t : Tag) : t.width * t.cnt = 32 := by cases t <;> rfl

end Machine

end Sys2Proof
end

