-- ==== Sys2Proof/Laws/Access.lean ====
section
/-! SUPPORT. What the accesses of a memory instruction do to the state, and that the instruction then retires. -/

namespace Sys2Proof.Machine

/-- A state that differs in memory, and in the link sets of waves. -/
structure MemOnly (s S : State) : Prop where
  rest : S = { s with mem := S.mem, poison := S.poison, rewrote := S.rewrote, forms := S.forms, waves := S.waves, hist := S.hist
                      written := S.written }
  waves : ∀ k, (s.wave? k = none → S.wave? k = none) ∧
    ∀ w, s.wave? k = some w → ∃ w', S.wave? k = some w' ∧ w' = { w with links := w'.links }

theorem MemOnly.refl (s : State) : MemOnly s s := ⟨rfl, fun _ => ⟨id, fun w h => ⟨w, h, rfl⟩⟩⟩

theorem MemOnly.trans {s t u : State} (h : MemOnly s t) (g : MemOnly t u) : MemOnly s u := by
  refine ⟨?_, fun k => ⟨fun hk => (g.waves k).1 ((h.waves k).1 hk), fun w hw => ?_⟩⟩
  · rw [g.rest, h.rest]
  · obtain ⟨w1, h1, e1⟩ := (h.waves k).2 w hw
    obtain ⟨w2, h2, e2⟩ := (g.waves k).2 w1 h1
    exact ⟨w2, h2, by rw [e2, e1]⟩

theorem hitLinks_only (who : Option (Nat × DWord)) (pa n : Nat) (w : Wave) :
    hitLinks who pa n w = { w with links := (hitLinks who pa n w).links } := by
  unfold hitLinks; split <;> rfl

theorem find_map_key (l : List Wave) (f : Wave → Wave) (hf : ∀ w, (f w).key = w.key) (k : Nat) :
    (l.map f).find? (fun w => w.key == k) = (l.find? fun w => w.key == k).map f := by
  rw [List.find?_map]
  congr 2
  funext w
  simp [hf]

theorem store_memOnly (s : State) (ev : Option Write) (who : Option (Nat × DWord)) (pa : Nat) (b : List Byte) (c : Bool) :
    MemOnly s (s.storeAs ev who pa b c) := by
  refine ⟨rfl, fun k => ?_⟩
  have hf : (s.storeAs ev who pa b c).wave? k = (s.wave? k).map (hitLinks who pa b.length) :=
    find_map_key s.waves _ (fun w => by rw [hitLinks_only]) k
  rw [hf]
  refine ⟨fun h => by rw [h]; rfl, fun w h => ⟨_, by rw [h]; rfl, hitLinks_only _ _ _ w⟩⟩

theorem storeAll_memOnly (s : State) (ev : Option Write) (who : Option (Nat × DWord)) (l : List (Nat × List Byte × Bool)) :
    MemOnly s (s.storeAll ev who l) := by
  induction l generalizing s with
  | nil => exact MemOnly.refl s
  | cons p l ih => exact (store_memOnly s ev who p.1 p.2.1 p.2.2).trans (ih _)

theorem note_memOnly (s : State) (ev : Write) (l : List (Nat × Nat)) : MemOnly s (s.note ev l) := by
  unfold State.note
  induction l generalizing s with
  | nil => exact MemOnly.refl s
  | cons p l ih =>
    exact MemOnly.trans (t := { s with hist := s.hist ++ [s.asWrite ev s.written p], written := s.written + 1 })
      ⟨rfl, fun k => ⟨id, fun w h => ⟨w, h, rfl⟩⟩⟩ (ih _)

theorem putLink_memOnly (s : State) (key : Nat) (w : Wave) (k : Link) (h : s.wave? key = some w) : MemOnly s (s.putWave (w.putLink k)) := by
  have hk : w.key = key := by simpa using List.find?_some h
  refine ⟨rfl, fun j => ?_⟩
  by_cases hj : j = key
  · subst hj
    refine ⟨fun h' => (by rw [h] at h'; cases h'), fun w' hw' => ?_⟩
    rw [h] at hw'; cases hw'
    exact ⟨w.putLink k, State.wave_putWave_of _ _ _ hk.symm, rfl⟩
  · have := State.wave_putWave_ne s (w.putLink k) j (by show j ≠ w.key; rw [hk]; exact hj)
    rw [this]
    exact ⟨id, fun w' hw' => ⟨w', hw', rfl⟩⟩

theorem LinkStores.memOnly {a : Actor} {who : Option (Nat × DWord)} {ans : Bool} {s S : State} {l : List (LinkWord × List Byte)}
    {ws : List (Nat × List Byte × Bool)} (h : LinkStores a who ans s l S ws) : MemOnly s S := by
  induction h with
  | nil => exact MemOnly.refl _
  | cons _ _ ih => exact (storeAll_memOnly _ _ _ _).trans ih

/-- The function that stores the words of a link set. -/
theorem LinkStores.eval {a : Actor} {ans : Bool} {s S : State} {l : List (LinkWord × List Byte)} {ws : List (Nat × List Byte × Bool)}
    (h : LinkStores a a.who ans s l S ws) :
    l.foldl (fun (r : Except (Flt × DWord) State) (p : LinkWord × List Byte) =>
      match r with
      | .error f => .error f
      | .ok s =>
        match a.place s (if p.1.sp then .sp else .gm) .atom true true p.1.va p.1.size ans with
        | .error f => .error f
        | .ok ps => .ok (a.put ⟨s, []⟩ .sp ps p.2 true).s) (.ok s) = .ok S := by
  induction h with
  | nil => rfl
  | cons at_ _ ih =>
    rw [List.foldl_cons]
    simp only [at_]
    have hp : ∀ s ps b, (a.put ⟨s, []⟩ .sp ps b true).s = s.storeAll (some (a.event true)) a.who (storePieces ps b) := by
      intro s ps b; unfold Actor.put; rw [if_neg (by simp)]; rfl
    rw [hp]
    exact ih

theorem Access.memOnly {a : Actor} {key : Nat} {op : MemOp} {ans : Bool} {s S : State} {q : Acc} {b : List Byte}
    {w : List (Nat × List Byte × Bool)} (h : Access a key op ans s q S b w) : MemOnly s S := by
  cases h with
  | load => exact MemOnly.refl s
  | store => exact storeAll_memOnly _ _ _ _
  | rmw => exact storeAll_memOnly _ _ _ _
  | casFail => split; exacts [note_memOnly _ _ _, MemOnly.refl s]
  | ldl _ _ _ wv => exact putLink_memOnly _ _ _ _ wv
  | gld => exact MemOnly.refl s
  | gst => exact storeAll_memOnly _ _ _ _
  | stcFail _ wv => exact putLink_memOnly _ _ _ _ wv
  | stc _ _ _ _ _ go wv' => exact go.memOnly.trans (putLink_memOnly _ _ _ _ wv')

theorem Performs.memOnly {a : Actor} {key : Nat} {op : MemOp} {ans : Bool} {s S : State} {qs : List Acc}
    {ds : List (Acc × List Byte)} {ws : List (Nat × List Byte × Bool)} (h : Performs a key op ans s qs S ds ws) : MemOnly s S := by
  induction h with
  | nil => exact MemOnly.refl _
  | cons h _ ih => exact h.memOnly.trans ih

/-- The operation's function on one access. -/
theorem Access.eval {a : Actor} {key : Nat} {op : MemOp} {ans : Bool} {s S : State} {q : Acc} {b : List Byte}
    {w : List (Nat × List Byte × Bool)} (h : Access a key op ans s q S b w) (hw : a.who = op.who key q)
    (log : List (Nat × List Byte × Bool)) : ∃ saw heard, a.access ⟨s, log⟩ op q ans = .ok ⟨⟨S, log⟩, [], b, saw, heard⟩ := by
  have hput (now : a.staged = false ∨ q.sp ≠ .gm) (ps : List Piece) (x : List Byte) (at_ : Bool) :
      a.put ⟨s, log⟩ q.sp ps x at_ = ⟨s.storeAll (some (a.event at_)) (op.who key q) (storePieces ps x), log⟩ := by
    unfold Actor.put
    rw [if_neg (by rcases now with h | h <;> simp [h]), hw]
    rfl
  have hkey : (a.who.getD (0, 0)).1 = key := by rw [hw]; rfl
  cases h with
  | load k at_ rd => simp only [Actor.access, k, AccKind.need, at_, rd]; exact ⟨_, _, rfl⟩
  | store k now at_ => simp only [Actor.access, k, AccKind.need, at_, hput now]; exact ⟨_, _, rfl⟩
  | rmw k now at_ host rd go =>
    rename_i o ps
    have hc : ¬ ((ps.any fun p => isHost p.pa) = true ∧ (!hostOp o) = true) := by rcases host with h | h <;> simp [h]
    have hg : ¬ (o = .cas ∧ (BitVec.ofNat 64 (leNat b)).toNat ≠ q.x.toNat % 2 ^ (8 * q.size)) := by
      rintro ⟨ho, hne⟩
      rw [BitVec.toNat_ofNat] at hne
      rcases go with h | h
      · exact h ho
      · exact hne h
    have hs : ¬ (a.staged = true ∧ q.sp = .gm) := by rcases now with h | h <;> simp [h]
    simp only [Actor.access, k, AccKind.need, at_, rd, hput now, if_neg hc, if_neg hg, if_neg hs]
    exact ⟨_, _, rfl⟩
  | casFail k now at_ rd stop =>
    rename_i ps
    have hc : ¬ ((ps.any fun p => isHost p.pa) = true ∧ (!hostOp .cas) = true) := by simp [hostOp]
    have hg : (AOp.cas = .cas ∧ (BitVec.ofNat 64 (leNat b)).toNat ≠ q.x.toNat % 2 ^ (8 * q.size)) := by
      rw [BitVec.toNat_ofNat]; exact ⟨rfl, stop⟩
    have hs : ¬ (a.staged = true ∧ q.sp = .gm) := by rcases now with h | h <;> simp [h]
    simp only [Actor.access, k, AccKind.need, at_, rd, if_neg hc, if_neg hs]
    rw [if_pos ⟨trivial, hg.2⟩]
    refine ⟨(a.read? s true ps).1, (a.read? s true ps).2, ?_⟩
    split <;> rfl
  | ldl k at_ rd wv =>
    rename_i ps w
    simp only [Actor.access, k, AccKind.need, at_, rd, hkey, wv]
    cases ps <;> exact ⟨_, _, rfl⟩
  | gld k at_ rd tab => simp only [Actor.access, k, AccKind.need, at_, rd, tab]; exact ⟨_, _, rfl⟩
  | gst k now at_ => simp only [Actor.access, k, AccKind.need, at_, hput now]; exact ⟨_, _, rfl⟩
  | stcFail k wv why =>
    rename_i w code
    have hs : a.stc s key q.lane (lget op.vals q.lane []) ans = .ok (s.putWave (w.putLink ⟨q.lane, .open_, []⟩), code) := by
      unfold Actor.stc
      simp only [wv]
      rcases why with ⟨h, rfl⟩ | ⟨h, h2, rfl⟩ | ⟨h, h2, h3, rfl⟩
      · rw [if_pos h]
      · rw [if_neg h, if_pos h2]
      · rw [if_neg (by rw [h]; decide), if_neg (by simp [h2, h3]), if_pos h]
    simp only [Actor.access, k, hkey, hs]
    exact ⟨_, _, rfl⟩
  | stc k wv st some_ need go wv' =>
    rename_i S2 w w'
    rw [← hw] at go
    have hs : a.stc s key q.lane (lget op.vals q.lane []) ans = .ok ((State.putWave S2 (w'.putLink ⟨q.lane, .open_, []⟩)), 0) := by
      unfold Actor.stc
      simp only [wv]
      rw [if_neg (by rw [st]; decide), if_neg (by simp [some_, need]), if_neg (by rw [st]; decide)]
      generalize hF : List.foldl _ (Except.ok s) ((w.linkOf q.lane).stores (lget op.vals q.lane [])) = F
      have hg : F = .ok S2 := hF.symm.trans go.eval
      simp only [hg, wv']
    simp only [Actor.access, k, hkey, hs]
    exact ⟨_, _, rfl⟩

/-- The operation's function on all accesses. -/
theorem Performs.eval {a : Actor} {key : Nat} {op : MemOp} {s S : State} {ds : List (Acc × List Byte)}
    {ws : List (Nat × List Byte × Bool)} (h : Performs a key op (Config.peerAnswers s.nondet) s op.accs S ds ws) :
    ∃ saw heard, a.perform key op s = ⟨⟨S, []⟩, [], ds, [], saw, heard⟩ := by
  unfold Actor.perform
  generalize Config.peerAnswers s.nondet = ans at h ⊢
  generalize op.accs = qs at h
  have : ∀ (d : List (Acc × List Byte)) (x : List (DWord × Nat)) (y : List Release), ∃ saw heard, qs.foldl (fun (p : Perf) q =>
      if op.seq ∧ p.bad ≠ [] then
        { p with bad := p.bad ++ [(q, (match p.bad with | y :: _ => y.2.1 | [] => .page), q.va)] }
      else match ({ a with who := op.who key q }).access p.x op q ans with
        | .error (f, va) => { p with bad := p.bad ++ [(q, f, va)] }
        | .ok d =>
          let x := if d.entries.isEmpty then d.x else { d.x with s := d.x.s.addLog a.t.key d.entries }
          { x, entries := p.entries ++ d.entries, done := p.done ++ [(q, d.val)], bad := p.bad
            saw := p.saw ++ d.saw, heard := p.heard ++ d.heard })
      ({ x := ⟨s, []⟩, entries := [], done := d, bad := [], saw := x, heard := y } : Perf) = ⟨⟨S, []⟩, [], d ++ ds, [], saw, heard⟩ := by
    induction h with
    | nil => intro d x y; exact ⟨x, y, by simp⟩
    | cons h _ ih =>
      intro d x y
      rw [List.foldl_cons]
      obtain ⟨u, v, he⟩ := h.eval rfl []
      simp only [ne_eq, not_true_eq_false, and_false, if_false, he, List.isEmpty_nil, if_true, List.append_nil]
      obtain ⟨saw, heard, hi⟩ := ih (d ++ [(_, _)]) (x ++ u) (y ++ v)
      exact ⟨saw, heard, by rw [hi]; simp⟩
  obtain ⟨saw, heard, h0⟩ := this [] [] []
  rw [List.nil_append] at h0
  exact ⟨saw, heard, h0⟩

theorem drain_outs (s : State) (l : List PeerReq) :
    l.foldl (fun s r => s.out (.forward r)) s = { s with outbox := (l.foldl (fun s r => s.out (.forward r)) s).outbox } := by
  induction l generalizing s with
  | nil => rfl
  | cons r l ih => rw [List.foldl_cons, ih]; rfl

theorem push_only (s : State) (l : XLink) (q : List Queued) :
    s.push l q = { s with links := (s.push l q).links, outbox := (s.push l q).outbox } := by
  unfold State.push
  simp only
  rw [drain_outs]
  rfl

theorem sendFlits_only (s : State) (pas : List Nat) :
    s.sendFlits pas = { s with links := (s.sendFlits pas).links, outbox := (s.sendFlits pas).outbox } := by
  unfold State.sendFlits
  induction pas generalizing s with
  | nil => rfl
  | cons pa pas ih =>
    rw [List.foldl_cons, ih]
    split
    · split
      · rename_i n _
        rw [push_only]
      · rfl
    · rfl

theorem fillTlb_only (s : State) (c : Ctx) (vas : List DWord) : s.fillTlb c vas = { s with tlb := (s.fillTlb c vas).tlb } := by
  unfold State.fillTlb
  split
  · rfl
  · induction vas generalizing s with
    | nil => rfl
    | cons va vas ih =>
      rw [List.foldl_cons, ih]
      split
      · rfl
      · split
        · split <;> rfl
        · rfl

/-- What an operation that needs no log leaves beside what it stored. -/
theorem behind_only {S : State} {a : Actor} {op : MemOp} {ds : List (Acc × List Byte)} {saw : List (DWord × Nat)} {heard : List Release}
    {w : Wave} (h : S.wave? a.key = some w) :
    Beside S (a.behind op ⟨⟨S, []⟩, [], ds, [], saw, heard⟩) a.key
    ∧ ∃ w', (a.behind op ⟨⟨S, []⟩, [], ds, [], saw, heard⟩).wave? a.key = some w'
      ∧ w' = { w with known := w'.known, saw := w'.saw, heard := w'.heard } := by
  have hk : w.key = a.key := by simpa using List.find?_some h
  have hlog : S.addLog a.t.key (logWrites [] a.logTag) = S := by
    simp only [logWrites, List.foldl_nil, State.addLog, List.isEmpty_nil, if_true]
    split <;> rfl
  obtain ⟨T, hT⟩ : ∃ T : State, T = { (S.fillTlb a.c op.globals).sendFlits (a.peers S op) with
    nondet := S.nondet + 1 } := ⟨_, rfl⟩
  have hrest : T = { S with tlb := T.tlb, links := T.links, outbox := T.outbox, nondet := S.nondet + 1 } := by
    rw [hT, sendFlits_only, fillTlb_only]
  have htw : T.waves = S.waves := by rw [hrest]
  have hw : T.wave? a.key = some w := by rw [hrest]; exact h
  have hev : a.behind op ⟨⟨S, []⟩, [], ds, [], saw, heard⟩
      = T.putWave { w.after op.ord ⟨⟨S, []⟩, [], ds, [], saw, heard⟩ with logged := w.logged } := by
    unfold Actor.behind
    simp only [hlog, List.isEmpty_nil, Bool.not_true, Bool.or_false]
    have hw' : ({ (S.fillTlb a.c op.globals).sendFlits (a.peers S op) with
      nondet := ((S.fillTlb a.c op.globals).sendFlits (a.peers S op)).nondet + 1 } : State).wave? a.key
        = some w := by rw [sendFlits_only, fillTlb_only]; exact h
    rw [hw']
    simp only
    congr 1
    rw [hT, sendFlits_only, fillTlb_only]
  have haft : ({ w.after op.ord ⟨⟨S, []⟩, [], ds, [], saw, heard⟩ with logged := w.logged } : Wave)
      = { w with known := (w.after op.ord ⟨⟨S, []⟩, [], ds, [], saw, heard⟩).known
                 saw := (w.after op.ord ⟨⟨S, []⟩, [], ds, [], saw, heard⟩).saw
                 heard := (w.after op.ord ⟨⟨S, []⟩, [], ds, [], saw, heard⟩).heard } := by
    unfold Wave.after
    split
    · rfl
    · split <;> rfl
  rw [hev, haft]
  refine ⟨⟨?_, fun k hk => ?_⟩, _, State.wave_putWave_of _ _ _ hk.symm, rfl⟩
  · conv_lhs => rw [hrest]
    simp only [State.putWave, htw]
  · rename_i hwk
    rw [State.wave_putWave_ne _ _ _ (by show k ≠ w.key; rw [hwk]; exact hk)]
    rw [hrest]
    rfl

theorem watch_off (s : State) (core slot path ctx : Nat) (l : List Seen)
    (h : ∀ n < 4, cget s.ctl (watchOff (quadOf core) n + 0x10) = 0) : s.watch core slot path ctx l = (s, none) := by
  unfold State.watch
  have h0 := h 0 (by omega)
  have h1 := h 1 (by omega)
  have h2 := h 2 (by omega)
  have h3 := h 3 (by omega)
  simp [h0, h1, h2, h3, List.range_succ]

/-- Accesses that can all be performed: the instruction retires with its results pending. -/
theorem memory_retires {s S : State} {e : Env} {k : Slot} {la : La} {reads writes srcs dsts : List Nat} {op : MemOp}
    {ds : List (Acc × List Byte)} {ws : List (Nat × List Byte × Bool)} (h : MemReady s e k la reads writes)
    (hd : e.staged = true → op.takesDirect = false)
    (hp : Performs (e.actor op.ord) e.w.key op (Config.peerAnswers s.nondet) s op.accs S ds ws)
    (hloc : ∀ x ∈ op.res.effs ds, x.local = true) (hacc : ∀ x ∈ op.res.effs ds, x.accumulates = false) :
    ∃ w S', Beside S S' e.w.key ∧ S'.wave? e.w.key = some w
      ∧ w = { e.w with links := w.links, known := w.known, saw := w.saw, heard := w.heard }
      ∧ Retires S' (e.memory la srcs dsts op) { e with w } (e.w.regsEnd.putAll (op.res.effs ds)) S'.teams := by
  have hf := State.env_found h.ready.env
  have hm := hp.memOnly
  obtain ⟨w0, hw0, hwe0⟩ := (hm.waves e.w.key).2 e.w hf.wave
  obtain ⟨saw, heard, hperf⟩ := hp.eval
  obtain ⟨hb, w, hw, hwe1⟩ := behind_only (a := e.actor op.ord) (op := op) (ds := ds) (saw := saw) (heard := heard) (w := w0) hw0
  obtain ⟨S', hS'⟩ : ∃ S', S' = (e.actor op.ord).behind op ⟨⟨S, []⟩, [], ds, [], saw, heard⟩ := ⟨_, rfl⟩
  have hkey : (e.actor op.ord).key = e.w.key := rfl
  rw [← hS', hkey] at hb hw
  have hwe : w = { e.w with links := w.links, known := w.known, saw := w.saw, heard := w.heard } := by rw [hwe1, hwe0]
  refine ⟨w, S', hb, hw, hwe, ?_⟩
  have hwk : w.key = e.w.key := by rw [hwe]
  have hpl : w.pend = e.w.pend := by rw [hwe]
  obtain ⟨p, hpp⟩ : ∃ p : Pend, p = { pos := e.w.pos, due := e.w.pos + 1 + e.la la, long := true, effs := op.res.effs ds, srcs, dsts } :=
    ⟨_, rfl⟩
  obtain ⟨l, hlate⟩ : ∃ l, l = (e.actor op.ord).lateAfter s w.late op (ds.map (·.1)) (decide (e.la la = 0)) := ⟨_, rfl⟩
  have hev : e.memory la srcs dsts op = (S'.putWave { w with pend := e.w.pend ++ [p], late := l }).advance e.c { w with pend := e.w.pend ++ [p], late := l } := by
    have hord : e.orderHold op = false := by simp [Env.orderHold, h.stalls]
    have hc1 : ¬ (e.staged = true ∧ e.l.p.mode = 2 ∧ op.takesDirect = true) := by
      rintro ⟨h1, _, h2⟩; rw [hd h1] at h2; cases h2
    have hc2 : ¬ (e.staged = true ∧ op.takesDirect = true) := by
      rintro ⟨h1, h2⟩; rw [hd h1] at h2; cases h2
    have hov : ¬ (e.staged = true ∧ (⟨⟨S, []⟩, [], ds, [], saw, heard⟩ : Perf).overflows e.l e.t = true) := by
      rintro ⟨h1, h2⟩
      have := h.log h1
      simp [Perf.overflows, logWrites] at h2
      omega
    have hov' : ¬ (e.staged = true ∧ (⟨⟨S, []⟩, [], ds, [], saw, heard⟩ : Perf).overflows e.l e.t = true ∧ e.l.p.mode = 2) := by
      rintro ⟨h1, h2, _⟩; exact hov ⟨h1, h2⟩
    have hctl : S'.ctl = s.ctl := by rw [hb.rest, hm.rest]
    unfold Env.memory
    rw [if_neg (by simp [hord]), if_neg hc1]
    simp only [if_neg hc2, hf.state, hperf]
    rw [if_neg hov']
    have hns : e.struck = false := by simp [Env.struck, hf.state, hf.wave, hf.stage]
    simp only [if_neg hov, hns, Bool.false_eq_true, if_false, hf.state, hperf, ← hS']
    rw [watch_off S' _ _ _ _ _ (by simp only [hctl]; exact h.watch)]
    simp only [hw, ← hpp, hpl, ← hlate]
    obtain ⟨v, hv⟩ : ∃ v : Wave, v = { w with pend := e.w.pend ++ [p], late := l } := ⟨_, rfl⟩
    have hwd : v.watched = none := by rw [hv, hwe]; exact h.watched
    have hw2 : (S'.putWave v).wave? e.w.key = some v := State.wave_putWave_of _ _ _ (by rw [hv]; exact hwk.symm)
    rw [← hv]
    unfold State.afterAccs
    simp only [hw2, List.filter_nil, List.head?_nil, Option.any_none, Bool.not_false, Bool.or_true, if_true]
    have hst : ∀ x : State, x.stallAccs e.c e.w.key op [] none e.w.known = x := by
      intro x; simp [State.stallAccs, badPages]
    simp only [hst, hw2, hwd, Option.filter_none, Option.map_none, ite_self, List.isEmpty_nil, Bool.true_or, if_true]
  have hcl : ({ w with pend := e.w.pend ++ [p], late := l } : Wave).clause = some e.cl := by rw [hwe]; exact hf.clause
  have hcall : ({ w with pend := e.w.pend ++ [p], late := l } : Wave).call = none := by rw [hwe]; exact h.ready.quiet.2
  have hl : ∀ x ∈ ({ w with pend := e.w.pend ++ [p], late := l } : Wave).pend, ∀ y ∈ x.effs, y.local = true := by
    intro x hx
    rcases List.mem_append.1 hx with hx | hx
    · exact h.ready.quiet.1 x hx
    · rw [List.mem_singleton.1 hx, hpp]; exact hloc
  obtain ⟨⟨w', h1, h2, h3⟩, h4, h5, h6⟩ := advance_local (S'.putWave { w with pend := e.w.pend ++ [p], late := l }) e.c _ e.cl hcall hcl hl
  rw [hev]
  refine ⟨⟨w', h1, ?_, ⟨h3.masks, h3.rest⟩⟩, ?_, by rw [h5]; simp, by rw [h5]; rfl, ?_⟩
  · have hr : w.regs = e.w.regs := by rw [hwe]
    rw [h2]
    unfold Wave.regsEnd
    rw [hr]
    have := after_append e.w.regs e.w.pend p (fun q hq => by
      have h1 := (h.ready.ahead q hq).1
      have h2 := h.last q hq
      rw [hpp]
      unfold Pend.rank
      simp only [if_true]
      split
      · rename_i hlong; have := h2 hlong; omega
      · omega) (.inl (by rw [hpp]; exact hacc)) (by
      intro x hx
      rw [hpp] at hx
      have := hacc x hx
      cases x <;> first | rfl | exact absurd this (Ne.symm Bool.false_ne_true))
    rw [this, hpp]
  · intro k hk
    have hk' : k ≠ w.key := hk
    rw [h4 k hk']
    exact State.wave_putWave_ne _ _ k hk'
  · intro hs; rw [h6 hs]; rfl

end Sys2Proof.Machine
end

