-- ==== Sys2Proof/Tests/Slice0.lean ====
section
/-! SUPPORT. Tests: ill-formed terms, words of the spec's encoding, single steps with results by hand, and states that meet the
hypotheses of the statements. -/

namespace Sys2Proof.Tests

open Machine

set_option Elab.async false

/-! ### Words written out from the spec's encoding -/

/-- R234: the all-zero word is NOP. -/
theorem test_decode_nop : decode 0x0000000000000000 = .ok (.nop) := by decide

/-- R229, R232: 0x002, slot 1, bt 3, bf 4, creg v5, cc 2. -/
theorem test_decode_nextc : decode 0x0090030405200000 = .ok (.nextc {
    slot := 1, src := .v 5, bt := 3, bf := 4, cond := .neg, keep := false }) := by decide

/-- R229, R232: 0x00A, cc 2 is .die. -/
theorem test_decode_bar : decode 0x0280000000200000 = .ok (.bar { slot := 0, scope := .die }) := by decide

/-- R229, R232: 0x008, bt 7, creg s9. -/
theorem test_decode_calla : decode 0x0230070089000000 = .ok (.calla { slot := 3, img := 9, bt := 7 }) := by decide

/-- R224, R231, R232: 0x040, slot 2, s1, s2, h3. -/
theorem test_decode_sadd : decode 0x10208182CB000000 = .ok (.sadd { slot := 2, d := .s 1, a := .s 2, b := .h 3 }) := by decide

/-- R230, R232: 0x058, w4, s5, imm -5. -/
theorem test_decode_saddI : decode 0x1600DC85FFFFFFFB = .ok (.saddI {
    slot := 0, d := .w 4, a := .s 5, imm := 0xFFFFFFFB }) := by decide

/-- R254 example words: ext sel is the condition. -/
theorem test_decode_scmp : decode 0x14108788FC400000 = .ok (.scmp {
    slot := 1, d := .s 7, a := .s 8, b := .fflags, cond := .ltn }) := by decide

/-- R256. -/
theorem test_decode_vadd : decode 0x2000010203007000 = .ok (.vadd {
    slot := 0, fmt := .s32, rnd := .rne, d := .v 1, a := .v 2, b := .v 3, perm := .none }) := by decide

/-- R224, R225, R232: 0x085, fmt 7, psel 1, perm 69. -/
theorem test_decode_vmad : decode 0x21500102030470C5 = .ok (.vmad {
    slot := 1, fmt := .s32, rnd := .rne, d := .v 1, a := .v 2, b := .v 3, c := .v 4, perm := .b (.bc 5) }) := by decide

/-- R256. -/
theorem test_decode_vcmp : decode 0x25400201F0107000 = .ok (.vcmp {
    slot := 0, fmt := .s32, cond := .ne, d := .v 2, a := .v 1, b := .zero, perm := .none }) := by decide

/-- R256. -/
theorem test_decode_vli : decode 0x270014013F800000 = .ok (.vli { slot := 0, tag := .f32, d := .v 20, imm := 0x3F800000 }) := by decide

/-- R256. -/
theorem test_decode_vfma : decode 0x30D004050607250E = .ok (.vfma {
    slot := 1, fmt := .bf16x2, rnd := .ru, d := .v 4, a := .v 5, b := .v 6, c := .v 7, perm := .c .rev }) := by decide

/-- R224, R232: 0x0D4, fmt 1. -/
theorem test_decode_vexp2 : decode 0x35007E8300001000 = .ok (.vexp2 {
    slot := 0, fmt := .f32, rnd := .rne, d := .v 126, a := .s 3, perm := .none }) := by decide

/-- R256. -/
theorem test_decode_vcvt : decode 0x400008090A1D4000 = .ok (.vcvt {
    slot := 0, dst := .e4m3x4, src := .f32, rnd := .rne, sat := true, amax := true, sub := 1, d := .v 8, a := .v 9
    b := .v 10, perm := .none }) := by decide

/-- R256. -/
theorem test_decode_vxpd : decode 0x4140180287311000 = .ok (.vxpd {
    slot := 0, d := .v 24, a := .v 2, e := .s 7, bank := 3, hi := true, perm := .none }) := by decide

/-- R256. -/
theorem test_decode_vbal : decode 0x4440EA0C00000000 = .ok (.vbal { slot := 0, d := .m 2, a := .v 12, perm := .none }) := by decide

/-- R256. -/
theorem test_decode_vpfx : decode 0x44900DEA00000000 = .ok (.vpfx { slot := 1, d := .v 13, m := .m 2 }) := by decide

/-- R232, R282: 0x113, fmt 7, sel 2 max. -/
theorem test_decode_vred : decode 0x44C0860700207000 = .ok (.vred {
    slot := 0, fmt := .s32, rnd := .rne, op := .max, d := .s 6, a := .v 7, perm := .none }) := by decide

/-- R231, R232: 0x118, m1, m2, exm. -/
theorem test_decode_mand : decode 0x4600E9EAF6000000 = .ok (.mand { slot := 0, d := .m 1, a := .m 2, b := .exm }) := by decide

/-- R232, R322: 0x120, sel 2 is param. -/
theorem test_decode_gset : decode 0x4800C38400200000 = .ok (.gset { slot := 0, g := 3, a := .s 4, field := .param }) := by decide

/-- R232, R324: 0x121, fmt 1. -/
theorem test_decode_grd : decode 0x484008C109F11000 = .ok (.grd { slot := 0, d := .v 8, g := 1, r := .v 9, c := .lid }) := by decide

/-- R226, R233: 0x141, lookahead 5, v9, s10, v11, scale 2, acq, offset -4. -/
theorem test_decode_vld : decode 0x5045098A0B903FFC = .ok (.vld {
    slot := 0, la := 5, q := 0, ty := .tag .f32, d := .v 9
    addr := { base := .s 10, index := .v 11, scale := 2, off := 0xFFC }, ord := { order := .acq, obs := 3 } }) := by decide

/-- R233: 0x180 + space 2 + type 17. -/
theorem test_decode_vlds : decode 0x745009F00B000000 = .ok (.vlds {
    slot := 1, la := 0, q := 2, ty := .s8, d := .v 9, addr := { base := .zero, index := .v 11, scale := 0, off := 0 }
    ord := { order := .plain, obs := 0 } }) := by decide

/-- R233: 0x280 + space 1 · 4 + 3. -/
theorem test_decode_sst : decode 0xA1C08281F0000008 = .ok (.sst {
    slot := 0, la := 0, space := .sp, w := .b64, src := .s 2
    addr := { base := .s 1, index := .zero, scale := 0, off := 8 }, ord := { order := .plain, obs := 0 } }) := by decide

/-- R227, R233: 0x2A1, op 9 cas. -/
theorem test_decode_vatom : decode 0xA8430A810CB01900 = .ok (.vatom {
    slot := 0, la := 3, space := .sp, op := .cas, nr := false, data := 10
    addr := { base := .s 1, index := .v 12, scale := 2, off := 0 }, ord := { order := .ar, obs := 1 } }) := by decide

/-- R287 example. -/
theorem test_decode_vcst : decode 0x84000586EB000000 = .ok (.vcstGm {
    slot := 0, la := 0, src := .v 5, m := .m 3, addr := { base := .s 6, index := .zero, scale := 0, off := 0 }
    ord := { order := .plain, obs := 0 } }) := by decide

/-- R227, R232: 0x219. -/
theorem test_decode_ldl : decode 0x86400C820D000000 = .ok (.ldlGm64 {
    slot := 0, la := 0, d := .v 12, addr := { base := .s 2, index := .v 13, scale := 0, off := 0 }
    ord := { order := .plain, obs := 0 } }) := by decide

/-- R227, R232: 0x21C, three values from v12, status v20. -/
theorem test_decode_stc : decode 0x87010CF014000002 = .ok (.stc {
    slot := 0, la := 1, vf := 12, vs := 20, n := 2, ord := { order := .plain, obs := 0 } }) := by decide

/-- R227, R232: 0x21F, obs 3, paths vec and cpy. -/
theorem test_decode_fencex : decode 0x87C0000000003005 = .ok (.fencex {
    slot := 0, obs := 3, vec := true, mtx := false, cpy := true }) := by decide

/-- R227, R232: 0x221, base s3, data s4. -/
theorem test_decode_spset : decode 0x88408483F0000000 = .ok (.spset { slot := 0, la := 0, n := 3, src := 4 }) := by decide

/-- R325: 0x228, g2, s5. -/
theorem test_decode_gld : decode 0x8A00C285F0000000 = .ok (.gldGm {
    slot := 0, la := 0, g := 2, addr := { base := .s 5, index := .zero, scale := 0, off := 0 } }) := by decide

/-- R223, R228, R232: 0x2C0, tile 3, lo, bf16, ta, B from g3. -/
theorem test_decode_mma : decode 0xB00034A18EC30800 = .ok (.mma {
    slot := 0, tile := 3, half := .lo, fmt := .bf16x2, ta := true, tb := false, a := .addr 14 true, b := .gen 3 }) := by decide

/-- R330: 0x2C6, bank 6 in the ext byte's sel. -/
theorem test_decode_cbwr : decode 0xB182008182600000 = .ok (.cbwr { slot := 0, la := 2, bank := 6, e := .s 1, w := .s 2 }) := by decide

/-- R297: 0x300, from gm to sp, install through s20. -/
theorem test_decode_cpy : decode 0xC000C98821940600 = .ok (.cpy {
    slot := 0, h := 1, sa := 8, tag := 33, src := .gm, dst := .sp, install := some 20 }) := by decide

/-- R329: 0x309, sp, bank 5. -/
theorem test_decode_cbld : decode 0xC240CA8907002005 = .ok (.cbld {
    slot := 0, h := 2, sa := 9, tag := 7, sp := true, bank := 5 }) := by decide

/-- R230, R232: 0x340, operand 0x1234. -/
theorem test_decode_swtrap : decode 0xD000000000001234 = .ok (.swtrap { slot := 0, imm := 0x1234 }) := by decide

/-- R338 handler. -/
theorem test_decode_csrw : decode 0xD100BC0002C00000 = .ok (.csrw { slot := 0, csr := 0x2C0, src := 60 }) := by decide

/-- R338 handler. -/
theorem test_decode_eret : decode 0xD080000000000000 = .ok (.eret { slot := 0 }) := by decide

/-- R232: 0x34B. -/
theorem test_decode_tkrel : decode 0xD2D0000000000000 = .ok (.tkrel { slot := 1 }) := by decide

/-! ### Ill-formed terms: one for each check of WellFormed -/

def v1 : V1 := { slot := 0, fmt := .s32, rnd := .rne, d := .v 1, a := .v 2, perm := .none }

def v2 : V2 := { slot := 0, fmt := .s32, rnd := .rne, d := .v 1, a := .v 2, b := .v 3, perm := .none }

def v3 : V3 := { slot := 0, fmt := .s32, rnd := .rne, d := .v 1, a := .v 2, b := .v 3, c := .v 4, perm := .none }

def cvt : VCvt :=
  { slot := 0, dst := .bf16x2, src := .f32, rnd := .rne, sat := false, amax := false, sub := 0, d := .v 1, a := .v 2, b := .v 3, perm := .none }

def addr : MAddr := { base := .s 1, index := .v 2, scale := 0, off := 0 }

def plain : Ord := { order := .plain, obs := 0 }

def atom : VAtom := { slot := 0, la := 0, space := .gm, op := .add, nr := false, data := 3, addr := addr, ord := plain }

def mma : Mma := { slot := 0, tile := 0, half := .whole, fmt := .bf16x2, ta := false, tb := false, a := .addr 1 false, b := .addr 3 false }

def mst : MSt :=
  { slot := 0, la := 0, tile := 0, half := .whole, fmt := .f32, sat := false, amax := false, rnd := .rne, s := 1, sp := false }

def cpy : Cpy := { slot := 0, h := 0, sa := 0, tag := 0, src := .gm, dst := .sp, install := none }

theorem test_wf_good : [Instr.vadd v2, .vmad v3, .vabs v1, .vcvt cvt, .vatom atom, .mma mma, .mst mst, .cpy cpy].all Instr.wf = true := by
  decide

theorem test_wf_format : [Instr.vadd { v2 with fmt := .f32 }, .vabs { v1 with fmt := .n32 }, .vand v2, .vfadd v2, .vbfx { v2 with fmt := .s8x4 },
    .vdot4 v3, .vrcp v1, .vfdot2 { v3 with fmt := .f32 }, .vmov v1, .vshfl { slot := 0, fmt := .s32, rnd := .rne, d := .v 1, a := .v 2, b := .v 3, perm := .none },
    .amaxr { slot := 0, fmt := .s32, a := .v 1, perm := .none }, .mma { mma with fmt := .f32 }, .mst { mst with fmt := .s32 }].any Instr.wf
    = false := by decide

theorem test_wf_rounding : [Instr.vadd { v2 with rnd := .rz }, .vfadd { v2 with fmt := .f32, rnd := .sr }, .vfma { v3 with fmt := .f32, rnd := .sr },
    .mst { mst with rnd := .sr }].any Instr.wf = false := by decide

theorem test_wf_permutation : [Instr.vadd { v2 with a := .s 1, perm := .a .rev }, .vadd { v2 with perm := .c .rev },
    .vabs { v1 with perm := .b .rev }].any Instr.wf = false := by decide

theorem test_wf_conversion : [Instr.vcvt { cvt with dst := .f32 }, .vcvt { cvt with sub := 1 }, .vcvt { cvt with dst := .s16x2 },
    .vcvt { cvt with src := .bf16x2, dst := .f32, b := .v 0, d := .v 63 }, .vcvti { cvt with dst := .s16x2, b := .v 0 },
    .vcvtf { cvt with src := .s32, dst := .bf16x2, b := .v 0 }, .vpack { cvt with src := .s32, dst := .s8x4 },
    .vunpk { cvt with src := .s32, dst := .s16x2, b := .v 0 }].any Instr.wf = false := by decide

theorem test_wf_runs : [Instr.vxpd { slot := 0, d := .v 57, a := .v 1, e := .zero, bank := 0, hi := false, perm := .none },
    .ldlGm64 { slot := 0, la := 0, d := .v 63, addr := addr, ord := plain },
    .stc { slot := 0, la := 0, vf := 62, vs := 1, n := 2, ord := plain }].any Instr.wf = false := by decide

theorem test_wf_memory : [Instr.vld { slot := 0, la := 0, q := 1, ty := .n8, d := .v 1, addr := addr, ord := plain },
    .vst { slot := 0, la := 0, q := 0, w := .b8, src := .v 1, addr := addr, ord := { order := .acq, obs := 0 } },
    .vlds { slot := 0, la := 0, q := 0, ty := .n8, d := .v 1, addr := addr, ord := { order := .plain, obs := 1 } },
    .sld { slot := 0, la := 0, space := .gm, w := .b64, d := 1, addr := addr, ord := plain },
    .vcstGm { slot := 0, la := 0, src := .v 1, m := .exm, addr := addr, ord := plain },
    .vatom { atom with op := .cas, nr := true }, .vatom { atom with op := .cas, data := 63 }, .vatom { atom with addr := { addr with off := 1 } },
    .satom { slot := 0, la := 0, space := .gm, wide := true, op := .faddF32, nr := false, data := 3, addr := { addr with index := .zero }, ord := plain },
    .fencex { slot := 0, obs := 1, vec := true, mtx := false, cpy := false },
    .gldGm { slot := 0, la := 0, g := 0, addr := addr }].any Instr.wf = false := by decide

theorem test_wf_engines : [Instr.mma { mma with a := .addr 63 false }, .mma { mma with b := .cb 1 false 0 }, .mst { mst with s := 63 },
    .mld { slot := 0, tile := 0, half := .lo, fmt := .f32, tr := false, s := 1, sp := false }, .cpy { cpy with dst := .gm },
    .cpy { cpy with sa := 61 }, .cpy { cpy with src := .sp, dst := .q1, install := some 1 }].any Instr.wf = false := by decide

theorem test_wf_control : [Instr.nextc { slot := 0, src := .v 1, bt := 1, bf := 2, cond := .nz, keep := true }, .bar { slot := 1, scope := .core },
    .sshlI { slot := 0, d := .s 1, a := .s 1, imm := 64 },
    .vred { slot := 0, fmt := .f32, rnd := .rne, op := .and, d := .s 1, a := .v 1, perm := .none }].any Instr.wf = false := by decide

/-- Words that are no instruction: R221, R222, R234. -/
theorem test_decode_refused : decode 0x0000000000000001 = .error .field ∧ decode 0xE000000000000000 = .error .opcode
    ∧ decode 0x01C0000000000000 = .error .opcode ∧ decode 0x2000010203000000 = .error .operands ∧ decode 0x1000FD8182000000 = .error .field := by
  decide

/-! ### Single steps and operations, with results from the spec's examples or by hand -/

/-- A wave alone in the package, standing before one word, with registers of its own. -/
def stand (x : DWord) (r : Regs) : State :=
  let s := State.reset.beforeWord x
  { s with cur := some 2, waves := s.waves.map fun w => { w with regs := r } }

/-- The registers after an instruction. -/
def after (i : Instr) (x : DWord) (r : Regs) : Regs :=
  match exec i (stand x r) with
  | .next t => (match t.wave? 2 with | some w => w.regsEnd | none => {})
  | _ => {}

/-- What an instruction does with no register set but s. -/
def afterS (i : Instr) (s : Cells 64) : Nat → DWord := fun n => cget (after i 0x1000000000000000 { s }).s n

def s2 : S2 := { slot := 0, d := .s 3, a := .s 1, b := .s 2 }

/-- R253, by hand: sums wrap at 2^64. -/
theorem test_sadd_wraps : afterS (.sadd s2) [(1, 0xFFFFFFFFFFFFFFFF), (2, 3)] 3 = 2 := by decide

/-- R253, by hand: (−1 · 2) >> 64 is −1, and unsigned 1. -/
theorem test_smulh : afterS (.smulh s2) [(1, 0xFFFFFFFFFFFFFFFF), (2, 2)] 3 = 0xFFFFFFFFFFFFFFFF
    ∧ afterS (.smulhn s2) [(1, 0xFFFFFFFFFFFFFFFF), (2, 2)] 3 = 1 := by decide

/-- R253, by hand: shift counts are taken mod 64. -/
theorem test_sshl_count : afterS (.sshl s2) [(1, 5), (2, 65)] 3 = 10 := by decide

/-- R230, by hand: an immediate is sign-extended. -/
theorem test_saddI_negative : afterS (.saddI { slot := 0, d := .s 3, a := .s 1, imm := 0xFFFFFFFF }) [(1, 7)] 3 = 6 := by decide

/-- R230: SLIH keeps the low half. -/
theorem test_slih : afterS (.slih { slot := 0, d := .s 3, imm := 0x80000000 }) [(3, 0x1122334455667788)] 3 = 0x8000000055667788 := by decide

def vregs (v : Cells 32) (vt : Cells 4) : Regs := { v, vt, exm := 1 }

/-- R261, R262, by hand: halves wrap on their own. -/
theorem test_vadd_halves : cget (after (.vadd { v2 with fmt := .s16x2 }) 0x2000000000000000
    (vregs [(128, 0x7FFF0001), (192, 0x0001FFFF)] [(2, 9), (3, 9)])).v 64 = 0x80000000 := by decide

/-- R262, by hand: a saturating sum stops at the format's limit. -/
theorem test_vadds_saturates : cget (after (.vadds v2) 0x2000000000000000
    (vregs [(128, 0x7FFFFFFF), (192, 1)] [(2, 7), (3, 7)])).v 64 = 0x7FFFFFFF := by decide

/-- R177, R237, by hand: a source of another tag raises FMTCHK, which ends a team that has no handler (R136). -/
theorem test_fmtchk_ends_team : (match exec (.vadd v2) (stand 0x2000000000000000 (vregs [] [(2, 7), (3, 8)])) with
    | .next t => (t.team? 1, t.fqHeld.map fun r => (r.kind, r.core)) | _ => (none, [])) = (none, [(3, 0)]) := by decide

/-- The example of R283's section: lanes 0 to 7 hold 5, 0, 7, 7, 0, 2, 0 and 9. -/
def partialWave : Regs :=
  { v := [(64, 5), (66, 7), (67, 7), (69, 2), (71, 9)], vt := [(1, 7)], exm := 0xFF }

theorem test_vcmp_partial_wave : (List.range 8).map (fun l => cget (after
      (.vcmp { slot := 0, fmt := .s32, cond := .ne, d := .v 2, a := .v 1, b := .zero, perm := .none }) 0x2540000000000000 partialWave).v
      (128 + l)) = [0xFFFFFFFF, 0, 0xFFFFFFFF, 0xFFFFFFFF, 0, 0xFFFFFFFF, 0, 0xFFFFFFFF] := by decide

theorem test_vbal_partial_wave : cget (after (.vbal { slot := 0, d := .m 1, a := .v 1, perm := .none }) 0x4440000000000000 partialWave).m 1
    = 0xAD := by decide

theorem test_vpfx_partial_wave : (List.range 8).map (fun l => cget (after (.vpfx { slot := 0, d := .v 3, m := .m 1 }) 0x4480000000000000
      { partialWave with m := [(1, 0xAD)] }).v (192 + l)) = [0, 1, 1, 2, 3, 3, 4, 4] := by decide

theorem test_vcmpr_partial_wave : (List.range 6).map (fun l => cget (after (.vcmpr { slot := 0, d := .v 4, a := .v 1, m := .m 1, perm := .none })
      0x4540000000000000 { partialWave with m := [(1, 0xAD)] }).v (256 + l)) = [5, 7, 7, 2, 9, 0] := by decide

theorem test_mpopc_partial_wave : cget (after (.mpopc { slot := 0, d := .s 5, a := .m 1 }) 0x4700000000000000
    { partialWave with m := [(1, 0xAD)] }).s 5 = 5 := by decide

/-- R185's example: 310 rounds to 320 in e4m3; 470 overflows to NaN, and to 448 with .sat; 2.5 ties to 2 in e2m1. -/
theorem test_round_examples : round Tag.e4m3x4.ff .rne false 0 (fval .f32 0x439B0000 0) = (0x7A, flagNX)
    ∧ round Tag.e4m3x4.ff .rne false 0 (fval .f32 0x43EB0000 0) = (0x7F, flagOF ||| flagNX)
    ∧ (round Tag.e4m3x4.ff .rne true 0 (fval .f32 0x43EB0000 0)).1 = 0x7E
    ∧ (round Tag.e2m1x8.ff .rne false 0 (fval .f32 0x40200000 0)).1 = 4 := by decide

/-- R189's examples: VEXP2(3) = 8, VLOG2(1) = +0 and VCOST(0.5) = −1, exactly. -/
theorem test_vexp2_exact : special fexp2 0x40400000 = (0x41000000, 0) := by decide +kernel

theorem test_vlog2_exact : special flog2 0x3F800000 = (0, 0) := by decide +kernel

theorem test_vcost_exact : special fcost 0x3F000000 = (0xBF800000, 0) := by decide +kernel

/-- R188's examples: a tie at 2^24 goes to even; −∞ with +∞ gives the canonical NaN and NV. -/
theorem test_accumulation : (faddN .f32 .rne [.fin false 0 0, .fin false 1 24, .fin false 1 (-1), .fin false 1 (-1)]).1 = 0x4B800000
    ∧ faddN .f32 .rne [.inf true, .fin false 1 0, .inf false] = (0x7FC00000, flagNV)
    ∧ (faddN .f32 .rne [.fin true 0 0, .fin true 0 0]).1 = 0x80000000 := by decide

set_option maxRecDepth 100000 in

/-- R196's example: a ROTARY slot with scale 1.0 and f_0 = 1/128 turn. -/
theorem test_rotary_example : ((List.map (fun p : Word × Word => gValue .bf16 (gSetField (gSetField 0 .ctl 5) .scale 0x3F800000)
      (fun _ => 0x02000000) 0 p.1 p.2) [(16, 1), (16, 0), (48, 0)])) = [0x3F35, 0x3F35, 0xBF35] := by decide

/-- R198's example: entry 5 of a bank with E = −2, index 0x0289, scale byte 0x7F. -/
theorem test_codebook_example : (match cbDecode { entries := [(5, 0x8000000121013201)], e := 0x3E } 0x0289 0x7F with
    | .els l => l.map fun v => (round .f32 .rne false 0 v).1
    | _ => []) = [0xBE800000, 0, 0x3F000000, 0xBF400000, 0x3E800000, 0, 0x3E800000, 0xBF000000] := by decide

/-- R71's example: the lowest run and the lowest free pairs. -/
theorem test_placement_example : roundUp4K 0x18100 = 0x19000 ∧ lowestRun [(0, 0x40000), (0x50000, 0x50000)] 0x19000 0x100000 = some 0xA0000
    ∧ takeSlots [10, 11, 12, 13, 14, 15] 4 true = some [10, 11, 12, 13] := by decide

/-- R150's example. -/
def rangeCtx : Ctx := { soloCtx with ranges := [{ n := 3, base := 0x00007F0000000000, limit := 0x00007F003FFFFFFF
                                                  offset := 0xFFFF812040000000, attrs := 0xF }] }

theorem test_range_example : (match State.reset.translate rangeCtx .rd 0x00007F0012345678 with | .ok t => t.pa | .error _ => 0) = 0x2052345678
    ∧ (match State.reset.translate rangeCtx .fetch 0x00007F0012345678 with | .error f => f == .prot | .ok _ => false) = true := by decide

/-- R36's example: link 5 without lane 3 reads 7 lanes, degraded and up. -/
theorem test_xlstat_example : XLink.stat { n := 5, up := true, down := false, lanemap := 0xF7 } = 0xF70075 := by decide

set_option maxRecDepth 100000 in

/-- R28: the check value of CRC-32C for the digits 1 to 9. -/
theorem test_crc32c : crc32c [0x31, 0x32, 0x33, 0x34, 0x35, 0x36, 0x37, 0x38, 0x39] = 0xE3069283 := by decide

/-- R287's example: elements 0 to 3 of a compress-store are written before element 4 faults. -/
def vcstState : State :=
  let s := stand 0x84000586EB000000 { s := [(6, 0x100000FF0)], m := [(3, 0xF0F0)], v := (List.range 64).map (fun l => (320 + l, BitVec.ofNat 32 (10 * l))) }
  { s with
    ctxs := [{ soloCtx with ranges := [{ n := 0, base := 0x100000000, limit := 0x100000FFF, offset := -0x100000000, attrs := 0xF }] }] }

def vcstInstr : Instr :=
  .vcstGm { slot := 0, la := 0, src := .v 5, m := .m 3, addr := { base := .s 6, index := .zero, scale := 0, off := 0 }, ord := plain }

theorem test_vcst_example : (match exec vcstInstr vcstState with | .next t => mbytes t.mem 0xFF0 16 | _ => [])
    = [0x28, 0, 0, 0, 0x32, 0, 0, 0, 0x3C, 0, 0, 0, 0x46, 0, 0, 0] := by decide +kernel

/-! ### States that meet the hypotheses of the statements -/

/-- The wave that `stand` places, in a clause of n words of a class. -/
def base (c : Cls) (r : Regs) (n : Nat) : State :=
  let s := stand 0 r
  { s with waves := s.waves.map fun w => { w with
      clause := some { off := 256, cls := c, count := n, e := true, k := false, words := List.replicate n 0 } } }

def onW (s : State) (f : Wave → Wave) : State := { s with waves := s.waves.map f }

def onT (s : State) (f : Team → Team) : State := { s with teams := s.teams.map f }

def onL (s : State) (f : LaunchPkt → LaunchPkt) : State := { s with launches := s.launches.map fun l => { l with p := f l.p } }

/-- The parts of `Ready`, and more of the surroundings, as one test. -/
def readyB (s : State) (c : Cls) (k : Slot) (reads writes : List Nat) (P : Env → Bool) : Bool :=
  match s.env? with
  | some e =>
    decide (e.cl.cls = c ∧ k.val < e.f.blocks.length ∧ (e.checked = false ∨ timingBad e.w.pend e.w.pos reads writes = none)
      ∧ e.latchBad (reads ++ writes) = false ∧ (∀ p ∈ e.w.pend, ∀ x ∈ p.effs, x.local = true) ∧ e.w.call = none
      ∧ (∀ p ∈ e.w.pend, p.pos < e.w.pos ∧ (c ≠ .mem → p.long = true → p.due ≤ e.w.pos))
      ∧ ∀ p ∈ e.w.pend, p.effs.any Eff.accumulates = true → p.due ≤ e.w.pos + 4) && P e
  | none => false

theorem ready_of {s : State} {c : Cls} {k : Slot} {reads writes : List Nat} {P : Env → Bool} (h : readyB s c k reads writes P = true) :
    ∃ e, Ready s e c k reads writes ∧ P e = true := by
  unfold readyB at h
  split at h
  · rename_i e he
    simp only [Bool.and_eq_true, decide_eq_true_eq] at h
    obtain ⟨⟨h1, h2, h3, h4, h5, h6, h7, h8⟩, h9⟩ := h
    exact ⟨e, ⟨he, h1, h2, h3, h4, ⟨h5, h6⟩, h7, h8⟩, h9⟩
  · cases h

/-- The parts of `MemReady`. -/
def memReadyB (s : State) (k : Slot) (la : La) (srcs dsts : List Nat) (P : Env → Bool) : Bool :=
  readyB s .mem k srcs dsts fun e => e.w.stalls == [] && (!e.staged || decide (e.t.log.length ≤ e.l.logCap))
    && ((List.range 4).all fun n => cget s.ctl (watchOff (quadOf e.coreNo) n + 0x10) == 0)
    && (e.w.pend.all fun p => !p.long || decide (p.due < e.w.pos + 1 + e.la la)) && e.w.watched == none && P e

theorem memReady_of {s : State} {k : Slot} {la : La} {srcs dsts : List Nat} {P : Env → Bool} (h : memReadyB s k la srcs dsts P = true) :
    ∃ e, MemReady s e k la srcs dsts ∧ P e = true := by
  obtain ⟨e, h1, h2⟩ := ready_of h
  simp only [Bool.and_eq_true, beq_iff_eq, Bool.or_eq_true, Bool.not_eq_true', decide_eq_true_eq, List.all_eq_true, List.mem_range] at h2
  obtain ⟨⟨⟨⟨⟨h3, h4⟩, h5⟩, h6⟩, h8⟩, h7⟩ := h2
  refine ⟨e, ⟨h1, h3, fun hs => ?_, h8, h5, fun p hp hl => ?_⟩, h7⟩
  · rcases h4 with h | h
    · rw [hs] at h; cases h
    · exact h
  · rcases h6 p hp with h | h
    · rw [hl] at h; cases h
    · exact h

/-- Some surroundings of the issuing wave of a state meet `Ready` and a test. -/
def Meets (s : State) (c : Cls) (k : Slot) (reads writes : List Nat) (P : Env → Bool) : Prop :=
  ∃ e, Ready s e c k reads writes ∧ P e = true

def MeetsMem (s : State) (k : Slot) (la : La) (srcs dsts : List Nat) (P : Env → Bool) : Prop :=
  ∃ e, MemReady s e k la srcs dsts ∧ P e = true

theorem memReady_at {s : State} {e : Env} {k : Slot} {la : La} {srcs dsts : List Nat} {P : Env → Bool} (he : s.env? = some e)
    (h : memReadyB s k la srcs dsts P = true) : MemReady s e k la srcs dsts ∧ P e = true := by
  obtain ⟨e', h1, h2⟩ := memReady_of h
  have : e' = e := Option.some.inj (h1.ready.env.symm.trans he)
  subst this
  exact ⟨h1, h2⟩

/-- An image of one block and one clause line, with some clause header (R99 to R102, R218). -/
def imageBytes (hdr : DWord) : List (Nat × List Byte) :=
  [(0, leBytes 4 0x4E4C5848), (4, leBytes 2 0x100), (6, [1]), (8, [1]), (16, [128]), (20, [160]), (24, [176]), (32, leBytes 4 256)
   , (36, [128]), (48, leBytes 4 384), (160, leBytes 4 0xFFFFFF00), (164, leBytes 4 256), (176, leBytes 4 0xFFFFFF00)
   , (256, leBytes 8 hdr.toNat)]

/-- The image at 0x10000 in memory, at virtual address 0x100000000, with the context's pool at 1 MiB. -/
def imaged (hdr : DWord) (s : State) : State :=
  { s with
    mem := (imageBytes hdr).foldl (fun m x => mput m (0x10000 + x.1) x.2) s.mem
    ctxs := [{ soloCtx with
      mem := 0x100000, trapImg := 0x100000000
      ranges := [{ n := 0, base := 0x100000000, limit := 0x10000FFFF, offset := -0xFFFF0000, attrs := 0x1F }] }]
    waves := s.waves.map fun w => { w with img := 0x100000000 } }

theorem test_image : ((imaged 0xE018000000000000 (base .vec {} 1)).entryOf ((imaged 0xE018000000000000 (base .vec {} 1)).ctxs.headD soloCtx)
    0x100000000).toOption.map (fun p => (p.1.size, p.2.first, p.2.blocks)) = some (384, 256, [0]) := by decide +kernel

theorem wit_EncodeDecodeAgree : (Instr.vadd v2).isWord = true ∧ (Instr.vadd v2).wf = true ∧ (Instr.powerCap 3).isWord = false := by decide

theorem wit_StepRunsDecodedInstruction : (stand 0x2000010203007000 {}).gateDue = false
    ∧ (stand 0x2000010203007000 {}).agenda = [.wave 2] ∧ (∃ w cl x, (stand 0x2000010203007000 {}).wave? 2 = some w ∧ w.key = 2
      ∧ (stand 0x2000010203007000 {}).issues w = true ∧ w.clause = some cl ∧ w.pos < cl.count ∧ cl.words[w.pos]? = some x
      ∧ (∃ i, decodeIn cl.cls x = .ok i) ∧ decodeIn .mem x = .error .cls ∧ decodeIn .vec 0xFFFFFFFFFFFFFFFF ≠ .error .cls) :=
  ⟨by decide, rfl, _, _, _, rfl, rfl, by decide, rfl, by decide, rfl, ⟨_, rfl⟩, by decide, by decide⟩

theorem wit_StepRunsDecodedInstruction_event : ({ State.reset with agenda := [.ev .packageReset] } : State).gateDue = false := by decide

theorem wit_StepKeepsMemoryForm : ∃ t, ({ State.reset with agenda := [.ev (.powerCap 900)] } : State).Inv
    ∧ step { State.reset with agenda := [.ev (.powerCap 900)] } = .next t := ⟨_, rfl, rfl⟩

theorem wit_IssueChecks_class : ∃ e, (base .mem {} 1).env? = some e ∧ e.cl.cls ≠ .vec := ⟨_, rfl, by decide⟩

theorem wit_IssueChecks_slot : ∃ e, (base .vec {} 1).env? = some e ∧ e.cl.cls = .vec ∧ e.f.blocks.length ≤ 1 := ⟨_, rfl, by decide, by decide⟩

theorem wit_IssueChecks_skip : Meets (base .vec { exm := 0 } 1) .vec 0 [246, 2, 3] [1] fun e =>
    (List.range 64).all fun l => !e.active 0 l := ready_of (by decide)

/-- A register of a result due later, read under checked timing; without it, a register of the latch. -/
def early : State := onW (base .vec {} 3) fun w =>
  { w with clause := w.clause.map fun c => { c with k := true }, pos := 1, pend := [{ pos := 0, due := 4, effs := [], dsts := [2] }] }

theorem wit_IssueChecks_timing : ∃ e, early.env? = some e ∧ e.cl.cls = .vec ∧ 0 < e.f.blocks.length ∧ e.active 0 5 = true ∧ e.cl.k = true
    ∧ timingBad e.w.pend e.w.pos [246, 2, 3] [1] = some 0 := ⟨_, rfl, by decide, by decide, by decide, by decide, by decide⟩

theorem wit_IssueChecks_mask : ∃ e, (onW early fun w => { w with pend := [{ pos := 0, due := 4, effs := [], dsts := [246] }] }).env? = some e
    ∧ e.cl.k = true ∧ timingBad e.w.pend e.w.pos [246, 2, 3] [1] = some 0 := ⟨_, rfl, by decide, by decide⟩

theorem wit_IssueChecks_latch : ∃ e, (base .vec {} 1).env? = some e ∧ e.active 0 63 = true ∧ (e.cl.k || e.c.checked) = false
    ∧ (∃ r ∈ [246, 64, 3, 1], 64 ≤ r ∧ r < 128) ∧ (∃ r ∈ [246, 127, 3, 1], 64 ≤ r ∧ r < 128) ∧ (e.t.latch (e.w.wid / 2)).owner ≠ some e.w.key :=
  ⟨_, rfl, by decide, by decide, by decide, by decide, by decide⟩

theorem wit_ResultsFallDue : Meets (base .vec {} 2) .vec s2.slot (s2.a.num ++ s2.b.num) s2.d.num fun e =>
    e.anylane s2.slot && (e.hRead [s2.a, s2.b]).isNone && e.w.replay == [] && decide (e.w.pos + 1 < e.cl.count) := ready_of (by decide)

theorem wit_ScalarTwoOperandResults : Meets (base .vec {} 1) .vec s2.slot ([s2.a, s2.b].map SSrc.num).flatten s2.d.num fun e =>
    e.anylane s2.slot && (e.hRead [s2.a, s2.b]).isNone := ready_of (by decide)

theorem wit_ScalarOtherResults : Meets (base .vec {} 1) .vec 0 ([.s 1].map SSrc.num).flatten SDst.mvc.num fun e =>
    e.anylane 0 && (e.hRead [.s 1]).isNone := ready_of (by decide)

theorem wit_ScalarStops_mvc : Meets (base .vec { s := [(1, 60), (2, 5)] } 1) .vec 0 (s2.a.num ++ s2.b.num) SDst.mvc.num fun e =>
    e.anylane 0 && (e.hRead [s2.a, s2.b]).isNone && decide (64 < (e.srd s2.a + e.srd s2.b).toNat) := ready_of (by decide)

/-- h0 holds the handle of a copy in flight under tag 0. -/
def pendingHandle : State := onT (base .vec { h := [(0, 0x10000001)] } 1) fun t => { t with tagst := [(0, { gen := 1, busy := true, status := 0 })] }

theorem wit_ScalarStops_handle : Meets pendingHandle .vec 0 (SSrc.h 0).num (SDst.s 1).num fun e =>
    e.anylane 0 && e.l.handleBad (cget e.r.h 0) == none && !e.t.complete (cget e.r.h 0) && e.w.stepping == none := ready_of (by decide)

/-- Registers whose tags are those that `v1`, `v2` and `v3` name. -/
def tagged : Regs := vregs [] [(2, 7), (3, 7), (4, 7)]

theorem wit_VectorIntegerElements : Meets (base .vec tagged 1) .vec 0 (246 :: ([v3.a, v3.b, v3.c].map VSrc.num).flatten) v3.d.num fun e =>
    e.lanes 0 != [] && e.tagsBad [(v3.a, v3.fmt, 0), (v3.b, v3.fmt, 1), (v3.c, v3.fmt, 2)] == none := ready_of (by decide)

theorem wit_VectorWholeLaneResults : Meets (base .vec {} 1) .vec 0 (246 :: ((VSrc.v 2).num ++ (VSrc.v 3).num ++ (MSrc.m 0).num)) (VDst.v 1).num fun e =>
    e.lanes 0 != [] && e.tagsBad [] == none := ready_of (by decide)

theorem wit_VectorDot4 : Meets (base .vec (vregs [] [(2, 11), (3, 11), (4, 7)]) 1) .vec 0 (246 :: ([v3.a, v3.b, v3.c].map VSrc.num).flatten) v3.d.num
    fun e => e.lanes 0 != [] && e.tagsBad [(v3.a, .s8x4, 0), (v3.b, .s8x4, 1), (v3.c, .s32, 2)] == none := ready_of (by decide)

theorem wit_VectorDot4_trap : Meets (base .vec (vregs [] [(2, 11), (3, 11)]) 1) .vec 0 (246 :: (v3.a.num ++ v3.b.num ++ v3.c.num)) v3.d.num fun e =>
    e.lanes 0 != [] && v3.c == .v 4 && e.r.tag 2 == .s8x4 && e.r.tag 3 == .s8x4 && e.r.tag 4 != .s32 := ready_of (by decide)

theorem wit_VectorFormatTrap : Meets (base .vec (vregs [] [(2, 7)]) 1) .vec 0 (246 :: (v2.a.num ++ v2.b.num)) v2.d.num fun e =>
    e.lanes 0 != [] && e.r.tag 2 == v2.fmt && e.r.tag 3 != v2.fmt && e.r.tag 0 != v2.fmt := ready_of (by decide)

theorem wit_VectorFloatResults : Meets (base .vec (vregs [] [(2, 1), (3, 1), (4, 1)]) 1) .vec 0 (246 :: ([v3.a, v3.b, v3.c].map VSrc.num).flatten) v3.d.num
    fun e => e.lanes 0 != [] && e.tagsBad [(v3.a, .f32, 0), (v3.b, .f32, 1), (v3.c, .f32, 2)] == none := ready_of (by decide)

theorem wit_VectorFloatResults_dot2 : Meets (base .vec (vregs [] [(2, 2), (3, 2), (4, 1)]) 1) .vec 0 (246 :: ([v3.a, v3.b, v3.c].map VSrc.num).flatten)
    v3.d.num fun e => e.lanes 0 != [] && e.tagsBad [(v3.a, .bf16x2, 0), (v3.b, .bf16x2, 1), (v3.c, .f32, 2)] == none := ready_of (by decide)

theorem wit_SpecialFunctionResults : Meets (base .vec (vregs [] [(2, 1), (3, 1)]) 1) .vec 0 (246 :: ([v2.a, v2.b].map VSrc.num).flatten) v2.d.num
    fun e => e.lanes 0 != [] && e.tagsBad [(v2.a, .f32, 0), (v2.b, .f32, 1)] == none := ready_of (by decide)

/-- A value of f32 as its sign, magnitude and exponent. -/
theorem finite_of {x : Nat} {n : Bool} {m : Nat} {e : Int} (h : value .f32 x = .fin n m e) :
    (value .f32 x).IsFin ∧ (value .f32 x).rat = (if n then -1 else 1) * m * (2 : ℚ) ^ e := by simp [h, FVal.IsFin, FVal.rat]

/-- Their own whole numbers: 127 and −149. -/
theorem wit_SpecialFunctionResults_whole : ((value .f32 0x42FE0000).IsFin ∧ (value .f32 0x42FE0000).rat = (127 : Int))
    ∧ (value .f32 0xC3150000).IsFin ∧ (value .f32 0xC3150000).rat = (-149 : Int) := by
  obtain ⟨a, b⟩ := finite_of (x := 0x42FE0000) (n := false) (m := 0xFE0000) (e := -17) (by decide)
  obtain ⟨c, d⟩ := finite_of (x := 0xC3150000) (n := true) (m := 0x950000) (e := -16) (by decide)
  exact ⟨⟨a, by rw [b]; norm_num⟩, c, by rw [d]; norm_num⟩

/-- A power of two, turns of 3/2 and −1/4, and a number above 0. -/
theorem wit_SpecialFunctionResults_turns : (value .f32 0x41000000).rat = (2 : ℚ) ^ (3 : Int) ∧ (value .f32 0x3FC00000).rat = (3 : Int) / 2
    ∧ (value .f32 0xBE800000).rat = (-1 : Int) / 2 + 1 / 4 ∧ 0 < (value .f32 0x41000000).rat := by
  rw [(finite_of (n := false) (m := 0x800000) (e := -20) (by decide)).2, (finite_of (n := false) (m := 0xC00000) (e := -23) (by decide)).2,
    (finite_of (n := true) (m := 0x800000) (e := -25) (by decide)).2]
  norm_num

theorem wit_SpecialFunctionResults_invalid : (0x80000000 < (0xFF800000 : Word).toNat ∧ (0xFF800000 : Word).toNat ≤ 0xFF800000)
    ∧ value .f32 0x7F800001 = .nan true ∧ value .f32 0x7FC00000 = .nan false := by decide

theorem wit_RoundingRules : (round .f32 .rz false 0 (.fin false 1 (-1))).2.getLsbD 2 = false ∧ value .f32 0x3F000000 = .fin false 0x800000 (-24)
    ∧ 0x3F000000 < 2 ^ FFmt.width .f32 := by decide

/-- Terms of which one signals, of both infinities, of a quiet NaN, of one infinity, and finite ones whose sum is zero. -/
theorem wit_RoundingRules_sums : (∃ v ∈ [FVal.nan true], v.isSig = true) ∧ (FVal.inf false ∈ [FVal.inf false, .inf true])
    ∧ (¬∃ v ∈ [FVal.nan false], v.isSig = true) ∧ (∀ v ∈ [FVal.inf true, .fin false 1 0], v.isNan = false)
    ∧ FVal.inf (!true) ∉ [FVal.inf true, .fin false 1 0] ∧ (∀ v ∈ [FVal.fin false 1 0, .fin true 1 0], v.IsFin)
    ∧ ([FVal.fin false 1 0, .fin true 1 0].map FVal.rat).sum = 0 ∧ ∃ v ∈ [FVal.nan false, .fin true 0 0], v.isNan = false := by
  simp [FVal.isSig, FVal.isNan, FVal.IsFin, FVal.rat]

theorem wit_ConversionResults_equal : Meets (base .vec (vregs [] [(2, 1)]) 1) .vec 0 (246 :: ([cvt.a].map VSrc.num).flatten ++ []) (cvt.d.runNums 1)
    fun e => e.lanes 0 != [] && e.tagsBad ([(cvt.a, .f32, 0)] ++ []) == none && Tag.cnt .n32 == Tag.cnt .f32 := ready_of (by decide)

theorem wit_ConversionResults_narrow : Meets (base .vec (vregs [] [(1, 2), (2, 1), (3, 1)]) 1) .vec 0
    (246 :: ([cvt.a, cvt.b].map VSrc.num).flatten ++ cvt.d.runNums 1) (cvt.d.runNums 1) fun e =>
      e.lanes 0 != [] && e.tagsBad ([(cvt.a, .f32, 0), (cvt.b, .f32, 1)] ++ [(.v 1, .bf16x2, 3)]) == none
      && decide (Tag.cnt .f32 < Tag.cnt .bf16x2) := ready_of (by decide)

theorem wit_ConversionResults_widen : Meets (base .vec (vregs [] [(2, 2)]) 1) .vec 0 (246 :: ([cvt.a].map VSrc.num).flatten ++ []) (cvt.d.runNums 2)
    fun e => e.lanes 0 != [] && e.tagsBad ([(cvt.a, .bf16x2, 0)] ++ []) == none && decide (Tag.cnt .f32 < Tag.cnt .bf16x2) := ready_of (by decide)

theorem wit_ConversionResults_integers : Meets (base .vec (vregs [] [(2, 7), (3, 7)]) 1) .vec 0 (246 :: ([cvt.a, cvt.b].map VSrc.num).flatten ++ [])
    (cvt.d.runNums 2) fun e => e.lanes 0 != [] && e.tagsBad ([(cvt.a, .s32, 0), (cvt.b, .s32, 1)] ++ []) == none
      && Tag.cnt .s16x2 == 2 * Tag.cnt .s32 && Tag.cnt .f32 == Tag.cnt .s32 := ready_of (by decide)

def vxpd : Vxpd := { slot := 0, d := .v 8, a := .v 2, e := .s 1, bank := 0, hi := false, perm := .none }

/-- Bank 0 with entry 0 valid; v2 holds indexes of entry 0, and of entry 1 in lane 3. -/
def expands (zero : Bool) (x : Word) : State :=
  onT (base .vec (vregs [(131, x)] [(2, 13)] ) 1) fun t =>
    { t with banks := { entries := [(0, 0x8000000000000000)], zero } :: List.replicate 7 {} }

theorem wit_CodebookExpansion : Meets (onW (expands false 0) fun w => { w with regs := { w.regs with exm := ones64 } }) .vec 0
    (246 :: (vxpd.a.num ++ vxpd.e.num)) (vxpd.d.runNums 8) fun e =>
    e.lanes 0 != [] && decide (vxpd.bank.val < e.l.p.nbanks) && (e.hRead [vxpd.e]).isNone && !e.bankBusy 0 && e.tagsBad [(vxpd.a, .cbix2, 0)] == none
      && (e.t.bank 0).bad == none && (e.lanes 0).all fun l =>
        match cbDecode (e.t.bank 0) ((e.rd vxpd.a none l).extractLsb' 0 16) 0 with | .bad _ => false | _ => true := ready_of (by decide +kernel)

theorem wit_CodebookExpansion_invalid : Meets (onW (expands false 0x80) fun w => { w with regs := { w.regs with exm := ones64 } }) .vec 0
    (246 :: (vxpd.a.num ++ vxpd.e.num)) (vxpd.d.runNums 8) fun e =>
    e.lanes 0 != [] && decide (vxpd.bank.val < e.l.p.nbanks) && (e.hRead [vxpd.e]).isNone && !e.bankBusy 0 && e.tagsBad [(vxpd.a, .cbix2, 0)] == none
      && (e.t.bank 0).bad == none && !(e.t.bank 0).zero && (e.lanes 0).contains 3
      && (List.range 4).all fun l => !(cget (e.t.bank 0).entries ((e.rd vxpd.a none l).extractLsb' 7 9).toNat).getLsbD 63 == (l == 3) :=
  ready_of (by decide)

theorem wit_CodebookExpansion_bank : Meets (onL (base .vec tagged 1) fun p => { p with nbanks := 0 }) .vec 0 (246 :: (vxpd.a.num ++ vxpd.e.num))
    (vxpd.d.runNums 8) fun e => e.lanes 0 != [] && decide (e.l.p.nbanks ≤ vxpd.bank.val) := ready_of (by decide)

theorem wit_CodebookExpansion_decode : (cget [(0, (0x8000000000000000 : DWord))] 0).getLsbD 63 = true
    ∧ (cget [(0, (0x8000000000000000 : DWord))] 511).getLsbD 63 = false ∧ ((0x007F : BitVec 16).extractLsb' 7 9).toNat = 0
    ∧ ((0xFF80 : BitVec 16).extractLsb' 7 9).toNat = 511 ∧ (0 : Byte) ≠ 0xFF := by decide

theorem wit_AmaxAndTagResults : Meets (base .vec (vregs [] [(2, 1)]) 1) .vec 0 (246 :: (VSrc.v 2).num) [248] fun e =>
    e.lanes 0 != [] && e.tagsBad [(.v 2, .f32, 0)] == none := ready_of (by decide)

theorem wit_AmaxAndTagResults_take : Meets (base .vec { amax := 64 } 1) .vec 0 [] (SDst.mvc.num ++ [248]) fun e =>
    e.anylane 0 && !e.checked && decide ((zext64 (e.w.regsAt (e.w.pos + 4)).amax).toNat ≤ 64) := ready_of (by decide)

/-- An update of amax that falls due no later than AMAXC's own. -/
theorem wit_AmaxAndTagResults_pending : Meets (onW (base .vec {} 3) fun w => { w with
      pos := 2, pend := [{ pos := 0, due := 6, effs := [.amaxUpd 5], dsts := [248] }] }) .vec 0 [] (SDst.mvc.num ++ [248]) fun e =>
    e.anylane 0 && (e.w.pend.all fun p => decide (p.due ≤ e.w.pos + 4)) && (zext64 (e.w.regsAt (e.w.pos + 4)).amax).toNat == 5 :=
  ready_of (by decide)

theorem wit_CrossLaneResults : Meets (base .vec {} 1) .vec 0 (246 :: ((VSrc.v 2).num ++ (MSrc.m 0).num)) (VDst.v 1).num fun e =>
    e.lanes 0 != [] && e.anylane 0 && e.tagsBad [] == none := ready_of (by decide)

theorem wit_CrossLaneResults_noLane : Meets (base .vec { exm := 0 } 1) .vec 0 (246 :: (VSrc.v 2).num) (SDst.s 1).num fun e =>
    e.lanes 0 == [] && e.anylane 0 := ready_of (by decide)

theorem wit_ReductionResults : Meets (base .vec tagged 1) .vec 0 (246 :: (VSrc.v 2).num) (SDst.s 1).num fun e =>
    e.anylane 0 && e.lanes 0 != [] && e.tagsBad [(.v 2, .s32, 0)] == none := ready_of (by decide)

theorem wit_ReductionResults_terms : Tag.ffmt .s16x2 = none ∧ (∀ x ∈ [0x8000, 0x7FFF, 0], x < 2 ^ Tag.width .s16x2)
    ∧ Tag.ffmt .bf16x2 = some .bf16 := by decide

theorem wit_MaskResults : Meets (base .vec { s := [(1, 64)] } 1) .vec 0 (MSSrc.sc (.s 1)).num SDst.mvc.num fun e =>
    e.anylane 0 && (e.hRead [.s 1]).isNone && decide ((e.msrd (.sc (.s 1))).toNat ≤ 64) := ready_of (by decide)

theorem wit_SteeringResults : Meets (base .vec {} 1) .vec 0 [2] [245] fun e => e.anylane 0
    && ([(0 : Nat), 255].all fun b => decide (b < e.nblocks ∨ b = 255))
    && (e.inLanes 0).all fun l => decide ((e.vlane 2 l).toNat < e.nblocks ∨ (e.vlane 2 l).toNat = 255) := ready_of (by decide)

theorem wit_SteeringResults_nextx : Meets (base .vec { v := [(190, 1)] } 1) .vec 0 [2] [245] fun e => e.anylane 0
    && (e.inLanes 0).any fun l => decide (e.nblocks ≤ (e.vlane 2 l).toNat ∧ (e.vlane 2 l).toNat ≠ 255) := ready_of (by decide)

/-- A HALT that stands after a CALLA of its clause. -/
theorem wit_SteeringResults_place : ∃ e, (onW (base .vec {} 2) fun w => { w with
      pos := 1, clause := w.clause.map fun c => { c with words := [0x0200000000000000, 0] } }).env? = some e
    ∧ e.cl.cls = .vec ∧ 0 < e.f.blocks.length ∧ ∃ x ∈ e.cl.words.take e.w.pos, (x.extractLsb' 54 10).toNat = 8 :=
  ⟨_, rfl, rfl, by decide, 0x0200000000000000, .head _, rfl⟩

/-- Block 254 is none of the image's; block 255 halts, and block 0 is the image's. -/
theorem wit_SteeringResults_outside : ∃ e, (base .vec {} 1).env? = some e ∧ e.cl.cls = .vec ∧ 0 < e.f.blocks.length
    ∧ ¬(254 < e.nblocks ∨ (254 : Nat) = 255) ∧ 0 < e.nblocks := ⟨_, rfl, rfl, by decide, by decide, by decide⟩

theorem wit_SteeringResults_first : (base .vec {} 1).env?.any (fun e => !e.afterCall) = true := by decide

theorem wit_NopYieldReturn : Meets (base .mtx {} 1) .mtx 0 [] [] (fun _ => true) ∧ Meets (base .vec {} 1) .vec 0 [] [] (fun e => e.anylane 0) :=
  ⟨ready_of (by decide), ready_of (by decide)⟩

/-- s1 holds an address, for calls. -/
def calls (x : DWord) : State := imaged 0xE018000000000000 (base .vec { s := [(1, x)] } 2)

theorem wit_Calls : Meets (calls 0x100000000) .vec 0 (snum 1) [245] fun e => e.anylane 0 && decide (0 < e.nblocks) && e.cl.e && e.alone 0 && e.r.ret == 0
    && decide (e.w.depth < 64) && canonical (e.sreg 1) && (e.sreg 1).toNat % 128 == 0 && e.w.replay == [] && decide (e.w.pos + 1 < e.cl.count) :=
  ready_of (by decide +kernel)

theorem wit_Calls_convergence : Meets (base .vec { ret := 1 } 2) .vec 0 (snum 1) [245] fun e =>
    e.anylane 0 && decide (0 < e.nblocks) && e.cl.e && e.r.ret != 0 := ready_of (by decide)

theorem wit_Calls_depth : Meets (onW (base .vec {} 2) fun w => { w with depth := 64 }) .vec 0 (snum 1) [245] fun e =>
    e.anylane 0 && decide (0 < e.nblocks) && e.cl.e && e.alone 0 && e.r.ret == 0 && decide (64 ≤ e.w.depth) := ready_of (by decide)

theorem wit_Calls_canonical : Meets (calls 0x100000000000000) .vec 0 (snum 1) [245] fun e =>
    e.anylane 0 && e.alone 0 && decide (e.w.depth < 64) && !canonical (e.sreg 1) := ready_of (by decide +kernel)

theorem wit_Calls_align : Meets (calls 0x100000040) .vec 0 (snum 1) [245] fun e =>
    e.anylane 0 && e.alone 0 && decide (e.w.depth < 64) && canonical (e.sreg 1) && (e.sreg 1).toNat % 128 != 0 := ready_of (by decide +kernel)

/-- A wave whose clause recorded a call. -/
def caller : Wave :=
  { key := 2, team := 1, wid := 0, place := some 0, call := some ⟨0x100000000, 0, 0⟩
    frags := [{ mask := ones64, cp := 256, state := 0, blocks := [0] }] }

theorem wit_Calls_end : caller.pend = [] ∧ caller.call = some ⟨0x100000000, 0, 0⟩ ∧ caller.frags[caller.cur]?.isSome
    ∧ (calls 0).entryOf ((calls 0).ctxs.headD soloCtx) 0x100000000 = .ok (soloHeader, ⟨0, 256, [0]⟩) :=
  ⟨rfl, rfl, rfl, by rfl⟩

theorem wit_BarrierResults : Meets (base .vec {} 1) .vec 0 [] [] fun e => !e.w.inHandler && e.w.stepping == none && decide (e.w.pos + 1 = e.cl.count)
    && e.f.held == none && !e.w.arrived .core := ready_of (by decide)

/-- A wave all of whose lanes have arrived. -/
def arrived : State := onW (base .vec {} 1) fun w => { w with bars := [⟨.core, ones64, 0, 0, []⟩] }

theorem wit_BarrierResults_again : Meets arrived .vec 0 [] [] fun e => !e.w.inHandler && e.w.stepping == none && e.w.arrived .core
    && decide (e.w.pos + 1 = e.cl.count) && e.f.held == none && (e.w.bar .core).arr != 0 := ready_of (by decide)

theorem wit_BarrierResults_handler : ∃ e, (onW (base .vec {} 1) fun w => { w with inHandler := true }).env? = some e ∧ e.w.inHandler = true
    ∧ e.cl.cls = .vec ∧ 0 < e.f.blocks.length := ⟨_, rfl, rfl, rfl, by decide⟩

/-- A fragment that stood at a barrier which has been released; the phases released since put write 0 before the wave. -/
theorem wit_BarrierResults_released : Meets (onW (base .vec {} 1) fun w => { w with
      passed := [(.core, [{ id := 0, paths := 1 }])], frags := w.frags.map fun f => { f with held := some (soloClause 0) } }) .vec 0 [] [] fun e =>
    !e.w.inHandler && e.w.stepping == none && decide (e.w.pos + 1 = e.cl.count) && e.f.held != none && (e.w.bar .core).arr == 0
    && e.w.passed.any fun p => p.1 == .core && p.2 != [] := ready_of (by decide)

theorem wit_BarrierResults_two : Meets arrived .vec 0 [] [] (fun e => e.w.arrived .core && decide (e.w.pos + 1 = e.cl.count) && e.f.held == none)
    ∧ (∃ e, arrived.env? = some e ∧ (e.l.p.co = true ∨ Scope.core = .core)) := ⟨ready_of (by decide), _, rfl, .inr rfl⟩

theorem wit_GeneratorResults_set : Meets (base .vec { s := [(1, 5)] } 1) .vec 0 ((SSrc.s 1).num ++ gnum 0) (gnum 0) fun e =>
    e.anylane 0 && (e.hRead [.s 1]).isNone && (e.srd (.s 1)).toNat % 16 == 5 && gKind (cget e.r.g 0) != 5 := ready_of (by decide)

theorem wit_GeneratorResults_value : Meets (base .vec { g := [(0, 0x1000000000000000000000000000000000000000000000000)] } 1) .vec 0
    (246 :: ((VSrc.v 2).num ++ (VSrc.v 3).num ++ gnum 0)) (VDst.v 1).num fun e => e.lanes 0 != [] && cget e.r.gbad 0 == 0 && !gBad (cget e.r.g 0) none :=
  ready_of (by decide)

theorem wit_GeneratorResults_bad : Meets (base .vec { g := [(0, 0x7000000000000000000000000000000000000000000000000)] } 1) .vec 0
    (246 :: ((VSrc.v 2).num ++ (VSrc.v 3).num ++ gnum 0)) (VDst.v 1).num fun e => e.lanes 0 != [] && cget e.r.gbad 0 == 0 && gBad (cget e.r.g 0) none :=
  ready_of (by decide)

/-- SIGN, SUM, UNIFORM, MASK and ROTARY, each with the scale 1. -/
theorem wit_GeneratorResults_kinds : (value .f32 0x3F800000).IsFin ∧ ∀ k ∈ [1, 2, 3, 4, 5],
    gKind (BitVec.ofNat 256 (0x3F800000 * 2 ^ 64 + k * 2 ^ 192)) = k ∧ gScale (BitVec.ofNat 256 (0x3F800000 * 2 ^ 64 + k * 2 ^ 192)) = 0x3F800000 :=
  ⟨(finite_of (n := false) (m := 0x800000) (e := -23) (by decide)).1, by decide +kernel⟩

/-- s1 holds a scratchpad address; lane 0 alone is active. -/
def oneLane : State := base .mem { s := [(1, 64), (2, 7)], exm := 1 } 1

def mAddr : MAddr := { base := .s 1, index := .zero, scale := 0, off := 0 }

/-- One access of lane 0 to a word of the scratchpad. -/
def wordAt (k : AccKind) : MemOp := { pos := 0, accs := [{ lane := 0, kind := k, sp := .sp, va := 64, size := 4 }] }

/-- Its bytes. -/
def wordPiece : List Piece := [.mem (2 ^ 56 + 64) 4 false]

theorem wit_LoadResults : ∃ e S ds ws, MemReady oneLane e 0 0 (246 :: mAddr.nums) (VDst.v 3).num ∧ e.lanes 0 = [0] ∧ e.staged = false
    ∧ Performs (e.actor { order := .plain, obs := 0 }) e.w.key (wordAt .load) (Config.peerAnswers oneLane.nondet) oneLane (wordAt .load).accs S ds ws := by
  refine ⟨_, _, _, _, (memReady_at (P := fun _ => true) rfl (by decide)).1, by decide, by decide,
    .cons (.load (ps := wordPiece) rfl (by rfl) (by rfl)) (.nil _)⟩

theorem wit_StoreResults : ∃ e S ds ws, MemReady oneLane e 0 0 (mAddr.nums ++ (SZ.s 2).num) [] ∧ e.anylane 0 = true ∧ e.staged = false
    ∧ Performs (e.actor { order := .plain, obs := 0 }) e.w.key (wordAt .store) (Config.peerAnswers oneLane.nondet) oneLane (wordAt .store).accs S ds ws := by
  refine ⟨_, _, _, _, (memReady_at (P := fun _ => true) rfl (by decide)).1, by decide, by decide,
    .cons (.store (ps := wordPiece) rfl (.inl (by decide)) (by rfl)) (.nil _)⟩

theorem wit_StoreResults_generator : ∃ e S ds ws, MemReady oneLane e 0 0 (mAddr.nums ++ gnum 0) [] ∧ e.anylane 0 = true ∧ e.staged = false
    ∧ Performs (e.actor { order := .plain, obs := 0 }) e.w.key { wordAt .gst with accs := [⟨0, .gst, .sp, 64, 32, 0, 0, 0⟩] } (Config.peerAnswers oneLane.nondet) oneLane
        [⟨0, .gst, .sp, 64, 32, 0, 0, 0⟩] S ds ws := by
  refine ⟨_, _, _, _, (memReady_at (P := fun _ => true) rfl (by decide)).1, by decide, by decide,
    .cons (.gst (ps := [.mem (2 ^ 56 + 64) 32 false]) rfl (.inl (by decide)) (by rfl)) (.nil _)⟩

/-- Lane 0 stores v2 by a compress-store that keeps it. -/
def compress : VCst := { slot := 0, la := 0, src := .v 2, m := .m 0, addr := mAddr, ord := plain }

theorem wit_StoreResults_compress : ∃ e S ds ws, MemReady (base .mem { s := [(1, 64)], exm := 1, m := [(0, 1)] } 1) e 0 0
      (246 :: (mAddr.nums ++ compress.src.num ++ compress.m.num)) []
    ∧ e.memLanes 0 = [0] ∧ (e.ea mAddr 0).toNat % 4 = 0 ∧ e.staged = false ∧ e.kept compress .sp ≠ []
    ∧ Performs (e.actor plain) e.w.key { pos := 0, ord := plain, seq := true, accs := e.kept compress .sp }
        (Config.peerAnswers oneLane.nondet) (base .mem { s := [(1, 64)], exm := 1, m := [(0, 1)] } 1) (e.kept compress .sp) S ds ws := by
  refine ⟨_, _, _, _, (memReady_at (P := fun _ => true) rfl (by decide)).1, by decide, by decide, by decide, by decide,
    .cons (.store (ps := wordPiece) rfl (.inl (by decide)) (by rfl)) (.nil _)⟩

/-- The compress-store issued again for lane 1 of the two that it kept. -/
def recompress : State :=
  onW (base .mem { s := [(1, 64)], exm := 3, m := [(0, 3)] } 1) fun w => { w with redo := some 2, packs := [(0, 3)] }

theorem wit_StoreResults_again : ∃ e S ds ws, MemReady recompress e 0 0 (246 :: (mAddr.nums ++ compress.src.num ++ compress.m.num)) []
    ∧ e.memLanes 0 = [1] ∧ (e.ea mAddr 0).toNat % 4 = 0 ∧ e.staged = false ∧ (e.w.packs.find? fun x => x.1 == e.w.pos) = some (0, 3)
    ∧ e.keptSet compress = 3 ∧ (e.kept compress .sp).map (fun q => (q.lane, q.va)) = [(1, 68)]
    ∧ Performs (e.actor plain) e.w.key { pos := 0, ord := plain, seq := true, accs := e.kept compress .sp, kept := e.keptSet compress }
        (Config.peerAnswers recompress.nondet) recompress (e.kept compress .sp) S ds ws := by
  refine ⟨_, _, _, _, (memReady_at (P := fun _ => true) rfl (by decide)).1, by decide, by decide, by decide, by decide, by decide, by decide,
    .cons (.store (ps := [.mem (2 ^ 56 + 68) 4 false]) rfl (.inl (by decide)) (by rfl)) (.nil _)⟩

theorem wit_Atomics : ∃ e S ds ws, MemReady oneLane e 0 0 (246 :: (mAddr.nums ++ [3])) [3] ∧ e.lanes 0 = [0] ∧ e.staged = false
    ∧ Performs (e.actor { order := .plain, obs := 0 }) e.w.key (wordAt (.atomic .add)) (Config.peerAnswers oneLane.nondet) oneLane (wordAt (.atomic .add)).accs S ds ws := by
  refine ⟨_, _, _, _, (memReady_at (P := fun _ => true) rfl (by decide)).1, by decide, by decide,
    .cons (.rmw (ps := wordPiece) rfl (.inl (by decide)) (by rfl) (.inl (by decide)) (by rfl) (.inl (by decide))) (.nil _)⟩

theorem wit_Atomics_format : Meets oneLane .mem 0 (246 :: (mAddr.nums ++ [3])) [3] fun e => e.lanes 0 != [] && e.r.tag 3 != .f32 := ready_of (by decide)

theorem wit_Atomics_float : Meets (base .mem { s := [(1, 64)], vt := [(3, 1)] } 1) .mem 0 (246 :: (mAddr.nums ++ [3])) [3] fun e =>
    e.memLanes 0 != [] && e.r.tag 3 == .f32 := ready_of (by decide)

theorem wit_AccessFrame : ∃ e S ds ws, oneLane.env? = some e ∧ ws ≠ []
    ∧ Performs (e.actor { order := .plain, obs := 0 }) e.w.key (wordAt .store) true oneLane [⟨0, .load, .sp, 64, 4, 0, 0, 0⟩, ⟨0, .store, .sp, 64, 4, 5, 0, 0⟩] S ds ws := by
  refine ⟨_, _, _, _, rfl, ?_, .cons (.load (ps := wordPiece) rfl (by rfl) (by rfl))
    (.cons (.store (ps := wordPiece) rfl (.inl (by decide)) (by rfl)) (.nil _))⟩
  decide

/-- The write of lane 0 of wave 2 to the scratchpad's word 64, and a fence of its core that knows it. -/
def written : State :=
  { onW oneLane fun w => { w with known := [{ id := 0, paths := 1 }] } with
    hist := [{ id := 0, wave := 2, lanes := 1, core := 0, pa := 2 ^ 56 + 64, old := [0] }], written := 1
    fences := [{ core := 0, obs := 0, known := [{ id := 0, paths := 1 }] }] }

theorem wit_AccessFrame_reader : (written.hist.all fun x => Reader.knows { wave := 2, lanes := 1, core := 0, path := 0 } x)
    && !(written.hist.any fun x => Reader.knows { wave := 3, lanes := 1, core := 0, path := 0 } x) = true := by decide

theorem wit_LinkedAndDescriptorResults : ∃ e S ds ws, MemReady oneLane e 0 0 (246 :: mAddr.nums) (VDst.runNums (.v 3) 1) ∧ e.lanes 0 = [0]
    ∧ Performs (e.actor { order := .plain, obs := 0 }) e.w.key (wordAt .ldl) (Config.peerAnswers oneLane.nondet) oneLane (wordAt .ldl).accs S ds ws := by
  refine ⟨_, _, _, _, (memReady_at (P := fun _ => true) rfl (by decide)).1, by decide,
    .cons (.ldl (ps := wordPiece) rfl (by rfl) (by rfl) (by rfl)) (.nil _)⟩

theorem wit_LinkedAndDescriptorResults_stc : ∃ e S ds ws, MemReady oneLane e 0 0 [246, 2] [3] ∧ e.lanes 0 = [0]
    ∧ Performs (e.actor { order := .plain, obs := 0 }) e.w.key (wordAt .stc) (Config.peerAnswers oneLane.nondet) oneLane (wordAt .stc).accs S ds ws := by
  refine ⟨_, _, _, _, (memReady_at (P := fun _ => true) rfl (by decide)).1, by decide,
    .cons (.stcFail (code := 2) rfl (by rfl) (by decide)) (.nil _)⟩

theorem wit_LinkedAndDescriptorResults_gld : ∃ e S ds ws, MemReady oneLane e 0 0 mAddr.nums (gnum 0) ∧ e.anylane 0 = true
    ∧ Performs (e.actor { order := .plain, obs := 0 }) e.w.key (wordAt .gld) (Config.peerAnswers oneLane.nondet) oneLane [⟨0, .gld, .sp, 64, 32, 0, 0, 0⟩] S ds ws := by
  refine ⟨_, _, _, _, (memReady_at (P := fun _ => true) rfl (by decide)).1, by decide,
    .cons (.gld (ps := [.mem (2 ^ 56 + 64) 32 false]) (t := []) rfl (by rfl) (by rfl) (by rfl)) (.nil _)⟩

theorem wit_FenceAndTagTable_fence : Meets oneLane .mem 0 [] [] fun e => e.anylane 0 && e.lanes 0 != [] && e.w.stalls == [] := ready_of (by decide)

theorem wit_FenceAndTagTable_waits : Meets (onW oneLane fun w => { w with stalls := [{ op := { pos := 0, accs := [] }, fault := some 9 }] }) .mem 0 [] []
    fun e => e.anylane 0 && e.w.stalls != [] && e.w.stepping == none := ready_of (by decide)

/-- A wave with a store in its team's log; another agent is in the package or not. -/
def loggedStore (obs : Byte) (P : Env → Bool) : Prop :=
  Meets (onW (onL oneLane fun p => { p with mode := 1 }) fun w => { w with logged := true }) .mem 0 [] [] fun e =>
    e.anylane 0 && e.w.stepping == none && e.staged && e.w.logged && e.w.stalls == [] && e.unperformed obs == e.coversOthers obs && P e

theorem wit_FenceAndTagTable_unperformed : loggedStore 0xFF (fun e => e.unperformed 0xFF) ∧ loggedStore 0 fun e => !e.unperformed 0 :=
  ⟨ready_of (by decide), ready_of (by decide)⟩

theorem wit_FenceAndTagTable_orders : Meets written .mem 0 [] [] fun e => e.anylane 0 && e.w.stalls == [] && e.s.hist != []
    && (e.s.hist.any fun x => x.wave == e.w.key && x.path == 0 && (1 : BitVec 3).getLsbD x.path)
    && ((e.s.fences ++ e.w.heard).any fun r => syncs r e.coreNo 0 && r.known != []) && e.w.known.any fun n => n.id == 0 := ready_of (by decide)

theorem wit_FenceAndTagTable_lookup : Meets oneLane .mem 0 (246 :: mAddr.nums) (VDst.v 3).num fun e => e.lanes 0 != [] && e.w.redo == none
    && decide (8 ≤ e.w.lg) && e.w.pend == [] := ready_of (by decide)

/-- Tag-table entry 0 holds address 64's block, which command 5 installed. -/
def installed : State :=
  onT { written with hist := [{ id := 0, wave := 2, lanes := 0, core := 0, path := 2, pa := 0, old := [], cmd := some 5 }] }
    fun t => { t with tab := [(0, 0x8000000000000000)], installs := [(0, 5)] }

theorem wit_FenceAndTagTable_installed : Meets installed .mem 0 (246 :: mAddr.nums) (VDst.v 3).num fun e => e.memLanes 0 == [0] && decide (8 ≤ e.w.lg)
    && e.w.pend == [] && (e.t.installs.find? fun x => x.1 == 0) == some (0, 5) && e.s.hist.any (fun x => x.cmd == some 5)
    && (cget e.t.tab 0).getLsbD 63 && decide ((e.ea mAddr 0).toNat < 2 ^ e.w.lg) && decide (0 < (e.l.p.spbytes + 4095) / 4096) := ready_of (by decide)

/-- s1 holds an entry's number, s2 its new value; entry 0 has its busy bit as given. -/
def entries (n x : DWord) (busy : Bool) : State :=
  onT (base .mem { s := [(1, n), (2, x)] } 1) fun t => { t with tab := if busy then [(0, 0x4000000000000000)] else [] }

theorem wit_FenceAndTagTable_prot : Meets (entries 256 0 false) .mem 0 (snum 1 ++ snum 2) [] fun e => e.anylane 0 && decide (8 ≤ e.w.lg)
    && e.w.pend == [] && e.w.stepping == none && decide ((e.l.p.spbytes + 4095) / 4096 ≤ (e.sreg 1).toNat) := ready_of (by decide)

theorem wit_FenceAndTagTable_last : Meets (entries 255 0x3FF false) .mem 0 (snum 1 ++ snum 2) [] fun e => e.anylane 0 && decide (8 ≤ e.w.lg)
    && e.w.pend == [] && e.w.stepping == none && decide ((e.sreg 1).toNat < (e.l.p.spbytes + 4095) / 4096) && !(cget e.t.tab 255).getLsbD 62
    && decide ((((e.sreg 2).extractLsb' 0 10).toNat + 1) * 2 ^ e.w.lg ≤ e.l.p.spbytes) := ready_of (by decide)

theorem wit_FenceAndTagTable_busy : Meets (entries 0 0 true) .mem 0 (snum 1 ++ snum 2) [] fun e => e.anylane 0 && e.w.stepping == none
    && decide ((e.sreg 1).toNat < (e.l.p.spbytes + 4095) / 4096) && (cget e.t.tab 0).getLsbD 62 := ready_of (by decide)

theorem wit_FenceAndTagTable_slot : Meets (onW (entries 0 64 false) fun w => { w with lg := 14 }) .mem 0 (snum 1 ++ snum 2) [] fun e => e.anylane 0
    && !(cget e.t.tab 0).getLsbD 62 && decide (e.l.p.spbytes < (((e.sreg 2).extractLsb' 0 10).toNat + 1) * 2 ^ e.w.lg) := ready_of (by decide)

/-- An entry is formed as stores form it. -/
def formedB : LogE → Bool
  | .write _ mask bytes _ parts _ => bytes.length == 32 && (parts.all fun p => decide (p.1 + p.2 ≤ 32))
    && (List.range 32).all fun i => mask.getLsbD i == parts.any fun p => decide (p.1 ≤ i) && decide (i < p.1 + p.2)
  | .atomic _ _ _ _ _ _ => true

theorem formed_of {e : LogE} (h : formedB e = true) : e.Formed := by
  cases e with
  | write =>
    rw [formedB, Bool.and_eq_true, Bool.and_eq_true] at h
    refine ⟨by simpa using h.1.1, fun p hp => by simpa using List.all_eq_true.1 h.1.2 p hp, fun i hi => ?_⟩
    rw [eq_of_beq (List.all_eq_true.1 h.2 i (List.mem_range.2 hi))]
    simp
  | atomic => trivial

/-- A store in a STAGED launch. -/
def stagedStore : State :=
  onL (imaged 0 (base .mem { s := [(1, 0x100008000), (2, 7)] } 1)) fun p => { p with mode := 1, logsz := 4096 }

theorem wit_StagedStores_formed : ∀ x ∈ (numberLog 0 (logWrites (storePieces [.mem 0x18000 4 false] (leBytes 4 7)) {})).1, x.Formed :=
  fun _ h => formed_of (List.all_eq_true.1 (by decide +kernel : ((numberLog 0 (logWrites (storePieces [.mem 0x18000 4 false] (leBytes 4 7)) {})).1.all formedB) = true) _ h)

theorem wit_StagedStores : ∃ e, MemReady stagedStore e 0 0 (mAddr.nums ++ (SZ.s 2).num) [] ∧ e.anylane 0 = true ∧ e.staged = true
    ∧ (e.actor { order := .plain, obs := 0 }).place stagedStore .gm .wr true true (e.ea mAddr 0) 4 (Config.peerAnswers stagedStore.nondet) = .ok [.mem 0x18000 4 false]
    ∧ e.t.log.length + (logWrites (storePieces [.mem 0x18000 4 false] (leBytes 4 7))).length ≤ e.l.p.logsz * 64 :=
  ⟨_, (memReady_at (P := fun _ => true) rfl (by decide +kernel)).1, by decide +kernel, by decide +kernel, by rfl, by decide +kernel⟩

theorem wit_AlignmentTraps : MeetsMem (base .mem { s := [(1, 1), (2, 7)] } 1) 0 0 (mAddr.nums ++ (SZ.s 2).num) [] fun e =>
    e.anylane 0 && !e.s.busy e.w && (e.ea mAddr 0).toNat % SStW.bytes .b32 != 0 && (e.ea mAddr 0).toNat % SLdW.bytes .b64 != 0 :=
  memReady_of (by decide)

theorem wit_AlignmentTraps_compress : Meets (base .mem { s := [(1, 66)] } 1) .mem 0 (246 :: (mAddr.nums ++ compress.src.num ++ compress.m.num)) [] fun e =>
    e.memLanes 0 != [] && (e.ea mAddr 0).toNat % 4 != 0 := ready_of (by decide)

/-- Address pairs in s1 to s4. -/
def pairs (x : DWord) : State := base .mtx { s := [(1, x), (2, 128), (3, 0x100000000), (4, 128)], g := [(0, 0x1 <<< 192)] } 1

theorem wit_MatrixIssue : Meets (pairs 0x100000000) .mtx 0 ([246, 249, 250] ++ (snum 1 ++ snum 2) ++ (snum 3 ++ snum 4)) [] fun e => e.anylane 0
    && ((List.range 64).all fun l => e.inslot 0 l) && e.r.exm == ones64 && decide (0 < e.l.p.ntiles)
    && [1, 2, 3, 4].all fun n => (e.sreg n).toNat % 32 == 0 := ready_of (by decide)

theorem wit_MatrixIssue_generator : Meets (pairs 0) .mtx 0 ([246, 249, 250] ++ gnum 0 ++ gnum 0) [] fun e => e.anylane 0 && cget e.r.gbad 0 == 0
    && !gBad (cget e.r.g 0) (some .bf16x2) := ready_of (by decide)

theorem wit_MatrixIssue_codebook : Meets (base .mtx { s := [(1, 2), (2, 0), (3, 0x0000000800000030)] } 1) .mtx 0 [] [] fun e =>
    decide (0 < e.l.p.nbanks) && !e.bankBusy 0 && (e.t.bank 0).bad == none && (e.sreg 1).toNat % 2 == 0
    && decide (0 < (e.sreg 3).toNat % 2 ^ 32) && (e.sreg 3).toNat % 2 ^ 32 % 48 == 0 && (e.sreg 3).toNat / 2 ^ 32 % 8 == 0 := ready_of (by decide)

theorem wit_MatrixIssue_restart : Meets (onW (base .mtx {} 1) fun w => { w with hdr := some { soloHeader with nrestart := 1 } }) .mtx 0 [246] [] fun e =>
    e.anylane 0 && ((List.range 64).all fun l => e.inslot 0 l) && e.r.exm == ones64
    && match e.w.hdr with | some h => decide (0 < h.nrestart) | none => false := ready_of (by decide)

theorem wit_MatrixIssue_convergence : Meets (base .mtx { exm := 1 } 1) .mtx 0 (246 :: 250 :: snum 1 ++ snum 2) [] fun e =>
    e.anylane 0 && e.r.exm != ones64 := ready_of (by decide)

theorem wit_MatrixIssue_tile : Meets (onL (pairs 0) fun p => { p with ntiles := 0 }) .mtx 0 (246 :: 250 :: (snum 1 ++ snum 2)) [252] fun e =>
    e.anylane 0 && e.r.exm == ones64 && decide (e.l.p.ntiles ≤ 0) := ready_of (by decide)

theorem wit_MatrixIssue_align : Meets (pairs 0x10000001F) .mtx 0 (246 :: 250 :: (snum 1 ++ snum 2)) [252] fun e =>
    e.anylane 0 && e.r.exm == ones64 && (e.sreg 1).toNat % 32 != 0 := ready_of (by decide)

/-- A product of two operands that generators give, for one row. -/
def genMma : Mma := { slot := 0, tile := 0, half := .whole, fmt := .bf16x2, ta := false, tb := false, a := .gen 0, b := .gen 0 }

theorem wit_MatrixProduct : ∃ (m : MtxEnv) (cols : List (List FVal)), (m.a.t.tile 0).lo = 1 ∧ 0 < m.a.t.tiles.length
    ∧ m.s.team? m.a.t.key = some m.a.t ∧ m.readB genMma .bf16 16 = .ok ((cols, false), []) ∧ cols.length = 64
    ∧ m.readA genMma .bf16 16 = .ok (none, []) ∧ m.j.start < m.j.mvc
    ∧ ∀ i, m.j.start ≤ i → i < m.j.mvc → ∃ x, m.rowA genMma .bf16 16 none i = .ok x := by
  refine ⟨⟨pairs 0, { core := 0, c := soloCtx, t := (pairs 0).teams.headD { key := 0, launch := 0, ctx := 0, tix := 0, core := none }
                      l := { key := 0, ctx := 0, queue := 0, idx := 0, tt := none, p := soloPkt }, who := none, staged := false },
    (pairs 0).waves.headD caller, { wave := 2, seq := 0, pos := 0, instr := .mma genMma, mvc := 1, start := 0 }⟩, _, by decide, by decide,
    by rfl, by rfl, ?_, by rfl, by decide, fun i _ _ => ⟨_, rfl⟩⟩
  simp [transpose]

/-- s1 on: a copy of one run of 256 bytes; the first tag free. -/
def copies (n : DWord) : State := base .asy { s := [(1, 0x100000000), (2, 0), (3, n), (4, 0), (5, 0)] } 1

theorem wit_CommandIssue : Meets (copies 0x100000100) .asy 0 ((List.range 4).map (fun k => 128 + (sAfter 1 k).val) ++ []) (hnum 0) fun e =>
    e.anylane 0 && decide (0 < e.l.p.ntags) && !(e.t.tag 0).busy && decide ((e.sreg 3).toNat % 2 ^ 32 ≠ 0 ∧ (e.sreg 3).toNat / 2 ^ 32 ≠ 0
      ∧ (e.sreg 3).toNat % 2 ^ 32 * ((e.sreg 3).toNat / 2 ^ 32) ≤ 2 ^ 40) := ready_of (by decide)

theorem wit_CommandIssue_install : Meets (copies 0x100000100) .asy 0 ((List.range 4).map (fun k => 128 + (sAfter 1 k).val) ++ snum 5) (hnum 0) fun e =>
    decide ((e.sreg 5).toNat < (e.l.p.spbytes + 4095) / 4096) && (e.sreg 2).toNat % 2 ^ e.w.lg == 0 := ready_of (by decide)

/-- A shape record of one dimension at the start of the scratchpad. -/
def shaped : State := { copies 0 with mem := [(2 ^ 56, 1), (2 ^ 56 + 8, 16)] }

theorem wit_CommandIssue_shape : Meets shaped .asy 0 ((List.range 3).map (fun k => 128 + (sAfter 1 k).val) ++ []) (hnum 0) fun e =>
    let ra := e.sreg 3
    match readAt e.s.poison (({ e.actor with who := some (e.w.key, e.slotMask 0) }).view e.s) (2 ^ 56 + 2 ^ 20 * e.coreNo + (e.t.spBase + ra.toNat)) 128 with
    | .ok b => ra.toNat % 8 == 0 && decide (ra.toNat + 128 ≤ e.l.p.spbytes) && leNat (b.take 1) == 1 && leNat ((b.drop 1).take 7) == 0
        && leNat ((b.drop 8).take 4) == 16 && leNat ((b.drop 12).take 4) == 0 && leNat ((b.drop 16).take 8) == 0 && leNat ((b.drop 24).take 8) == 0
    | .error _ => false := ready_of (by decide +kernel)

theorem wit_CommandIssue_codebook : Meets (copies 0) .asy 0 (snum 1) (hnum 0) fun e => decide (0 < e.l.p.nbanks) && (e.sreg 1).toNat % 8 == 0 :=
  ready_of (by decide)

/-- m0 names tag 63, h0 a copy under it, whose state is given; the team holds its bit or not. -/
def waits (tags : DWord) (x : TagSt) : State :=
  onT (base .asy { m := [(0, 0x8000000000000000)], h := [(0, 0x1FC00001)] } 1) fun t => { t with tags, tagst := [(63, x)] }

/-- What all the clauses about waits ask, and more. -/
def waitsFor (s : State) (P : Env → Bool) : Prop := Meets s .asy 0 [247, 216] [] fun e => e.anylane 0 && decide (e.w.pos + 1 = e.cl.count)
  && e.f.held == none && e.w.stepping == none && decide ((cget e.r.m 0).toNat < 2 ^ e.l.p.ntags)
  && (let h := cget e.r.h 0; h.toNat / 2 ^ 28 == 1 && h.toNat / 2 ^ 22 % 64 == 63 && h.extractLsb' 0 22 == (e.t.tag 63).gen) && P e

theorem wit_TagWaitsAndResults_done : waitsFor (waits 0x8000000000000000 { gen := 1, status := 1 }) fun e =>
    e.t.tags &&& cget e.r.m 0 == cget e.r.m 0 && !(e.t.tag 63).busy && (e.t.tag 63).status != 3 := ready_of (by decide)

theorem wit_TagWaitsAndResults_blocks : waitsFor (waits 0 { gen := 1, busy := true, status := 0 }) fun e =>
    cget e.r.m 0 != 0 && e.t.tags &&& cget e.r.m 0 == 0 && (e.t.tag 63).busy := ready_of (by decide)

theorem wit_TagWaitsAndResults_fault : waitsFor (waits 0x8000000000000000 { gen := 1, status := 3, cause := 6 }) fun e =>
    e.t.tags &&& cget e.r.m 0 == cget e.r.m 0 && !(e.t.tag 63).busy && (e.t.tag 63).status == 3 && (e.t.tag 63).cause != 0x0F := ready_of (by decide)

theorem wit_TagWaitsAndResults_lowest : waitsFor (waits 0x8000000000000000 { gen := 1, status := 3, cause := 6 }) fun e =>
    let m := e.t.tags &&& cget e.r.m 0
    m != 0 && m.getLsbD 63 && (List.range 63).all fun k => !m.getLsbD k := ready_of (by decide)

/-- The wait of the clause, resumed by its event, which found no fault or one. -/
theorem wit_TagWaitsAndResults_resumed : ∀ x ∈ [({ seqs := [5] } : Passed), { trap := some { cause := 6, fword := 63 } }],
    Meets (onW (waits 0 { gen := 1, status := 1 }) fun w => { w with frags := w.frags.map fun f => { f with held := some (soloClause 0), past := some x } })
      .asy 0 [247, 216] [] fun e => e.anylane 0 && decide (e.w.pos + 1 = e.cl.count) && e.f.past == some x := by
  intro x hx
  simp only [List.mem_cons, List.not_mem_nil, or_false] at hx
  rcases hx with rfl | rfl <;> exact ready_of (by decide)

/-- A TCLR whose effect is still to come, and one at its clause's end. -/
theorem wit_TagWaitsAndResults_clears : ∀ n ∈ [2, 1], Meets (onW (waits 0x8000000000000000 { gen := 1, status := 1 }) fun w => { w with
      clause := w.clause.map fun c => { c with count := n } }) .asy 0 [216] [247] fun e => e.anylane 0 && decide ((cget e.r.m 0).toNat < 2 ^ e.l.p.ntags)
    && e.s.lands e.w 4 == (n == 1) && e.t.tags &&& ~~~(cget e.r.m 0) != e.t.tags := by
  intro n hn
  simp only [List.mem_cons, List.not_mem_nil, or_false] at hn
  rcases hn with rfl | rfl <;> exact ready_of (by decide)

/-- Tags 3 and 5 of a team: both of their commands faulted, and one was of an earlier generation. -/
def faulted : Team :=
  { key := 0, launch := 0, ctx := 0, tix := 0, core := some 0, tags := 0x28
    tagst := [(3, { gen := 1, status := 3, cause := 6, seqs := [(1, 7)] }), (5, { gen := 2, status := 3, cause := 7, seqs := [(2, 8), (1, 4)] })] }

theorem wit_TagWaitsAndResults_passes : (faulted.passes (.tagAll 0x28)).trap.map (fun x => (x.cause, x.fword)) = some (6, 3)
    ∧ (faulted.passes (.tagAny 0x20)).seqs.contains 8 = true ∧ (faulted.passes (.handle (BitVec.ofNat 32 (2 ^ 28 + 5 * 2 ^ 22 + 1)))).trap = none
    ∧ (faulted.passes (.handle (BitVec.ofNat 32 (2 ^ 28 + 5 * 2 ^ 22 + 2)))).trap.map (·.cause) = some 7 := by decide

theorem wit_TagWaitsAndResults_null : Meets (base .asy {} 1) .asy 0 (hnum 0) SDst.mvc.num fun e => e.anylane 0 && cget e.r.h 0 == 0 := ready_of (by decide)

/-- A wave before a clause of one word, of an image in memory that is also the trap image. -/
def trapping : State := imaged 0xE018000000000000 (base .sys {} 1)

def trapWave : Wave := trapping.waves.headD caller

theorem wit_TrapEntry : trapWave.quiet ∧ (∃ t c f cl, trapping.team? trapWave.team = some t ∧ trapping.ctx? t.ctx = some c
      ∧ c.trapImg = 0x100000000 ∧ trapWave.frags[trapWave.cur]? = some f ∧ trapWave.clause = some cl ∧ trapWave.pos < cl.count)
    ∧ trapWave.inHandler = false ∧ trapping.trSize = 0 ∧ trapWave.replay = [] :=
  ⟨⟨by decide, rfl⟩, ⟨_, _, _, _, rfl, rfl, rfl, rfl, rfl, by decide⟩, by decide, by decide, by decide⟩

theorem wit_TrapEntry_image : (trapping.ctx? 0).any (fun c => ((trapping.store none (trapping.areaOf trapWave)
    (({ trapWave with regs := trapWave.regsEnd, pend := [] } : Wave).areaBytes { cause := 0x0B } false trapping.tick) false).entryOf c c.trapImg).toOption
      == some (soloHeader, ⟨0, 256, [0]⟩)) = true := by decide +kernel

theorem wit_SystemResults : Meets (base .sys {} 1) .sys 0 [] SZ.zero.num fun e => e.anylane 0 && e.w.trap == none && !e.s.busy e.w && e.w.stalls == [] := ready_of (by decide)

theorem wit_SystemResults_busy : Meets (onW (base .sys {} 1) fun w => { w with stalls := [{ op := { pos := 0, accs := [] }, fault := some 9 }] }) .sys 0
    [] [] fun e => e.anylane 0 && e.w.trap == none && e.s.busy e.w := ready_of (by decide)

/-- A wave with stores in the log of its team. -/
theorem wit_SystemResults_staged : Meets (onW (onL (base .sys {} 1) fun p => { p with mode := 1 }) fun w => { w with logged := true }) .sys 0 [] [] fun e =>
    e.anylane 0 && e.staged && e.w.logged && e.w.stepping == none := ready_of (by decide)

theorem wit_SystemResults_unlogged : Meets (onL (base .sys {} 1) fun p => { p with mode := 1 }) .sys 0 [] [] fun e =>
    e.anylane 0 && e.staged && !e.w.logged && e.w.stalls == [] := ready_of (by decide)

theorem wit_TrapReturn_outside : Meets (base .sys {} 1) .sys 0 [] [] fun e => e.anylane 0 && decide (e.w.pos + 1 = e.cl.count) && !e.w.inHandler :=
  ready_of (by decide)

/-- A handler, with the frame of a wave whose one clause is to be issued again. -/
def handler : State :=
  let s := onW trapping fun w => { w with inHandler := true }
  { s with mem := [(8, leBytes 4 384), (12, [1]), (14, [1]), (16, leBytes 8 0x100000000), (0x200, List.replicate 8 0xFF), (0x208, leBytes 4 256)
      , (0x20D, [0x20])].foldl (fun m x => mput m (s.areaOf trapWave + x.1) x.2) s.mem }

theorem wit_TrapReturn : Meets handler .sys 0 [] [] fun e =>
    let b := mbytes handler.mem (handler.areaOf e.w) 0x600
    e.anylane 0 && (readAt handler.poison handler.mem (handler.areaOf e.w) 0x600).toOption == some b && !handler.classTaken e.w .vec
    && (e.w.resumeWait { mask := ones64, cp := 256, state := 0, blocks := [0] }).blocked == none
    && decide (e.w.pos + 1 = e.cl.count) && e.w.inHandler && e.w.kept == [] && e.w.frags.length == 1 && e.f.mask == ones64 && bnat b 60 1 == e.w.depth
    && (handler.header e.c (BitVec.ofNat 64 (bnat b 16 8))).toOption == some soloHeader && bnat b 14 1 == 1 && bnat b 15 1 == 0
    && recordOf ((b.drop 0x200).take 16) == ({ mask := ones64, cp := 256, state := 0, blocks := [] }, true)
    && (handler.frameStates e.c 0x100000000 soloHeader [{ mask := ones64, cp := 256, state := 0, blocks := [] }]).toOption
      == some [{ mask := ones64, cp := 256, state := 0, blocks := [0] }]
    && (List.range 64).all (fun l => bnat b (0x100 + l) 1 == 0) && bnat b 12 2 == 1 && bnat b 8 4 == 256 + 128
    && match handler.line e.c e.coreNo 0x100000000 soloHeader 256 with
      | .ok x => (clauseOf 256 (lineWords x)).any fun cl => cl.count == 1
      | .error _ => false := ready_of (by decide +kernel)

theorem wit_ControlRegisters : Meets (base .sys {} 1) .sys 0 [0x1004] SZ.zero.num fun e => e.anylane 0 && decide (0 < e.l.p.nbanks) := ready_of (by decide)

theorem wit_ControlRegisters_frame : Meets handler .sys 0 [0x12FF] SZ.zero.num fun e => e.anylane 0 && e.w.inHandler := ready_of (by decide +kernel)

/-- A FRAME word whose line is poisoned. -/
def poisonedFrame : State := { handler with poison := [(handler.areaOf trapWave) / 128] }

theorem wit_ControlRegisters_poisoned : Meets poisonedFrame .sys 0 [0x1100] SZ.zero.num fun e => e.anylane 0 && e.w.inHandler
    && match readAt poisonedFrame.poison poisonedFrame.mem (poisonedFrame.areaOf e.w) 8 with | .error (.ecc _ _) => true | _ => false :=
  ready_of (by decide +kernel)

theorem wit_ControlRegisters_frameRead : (readAt handler.poison handler.mem (handler.areaOf trapWave + 8 * 511) 8).toOption.isSome = true := by decide +kernel

theorem wit_ControlRegisters_bank : Meets (onL (base .sys {} 1) fun p => { p with nbanks := 0 }) .sys 0 [0x1020] SZ.zero.num fun e =>
    e.anylane 0 && e.l.p.nbanks == 0 := ready_of (by decide)

/-- s1 holds a value for SPSLOT. -/
def csrw (x : DWord) (n : Nat) : State := base .sys { s := [(1, x)] } n

theorem wit_ControlRegisters_write : Meets (csrw 16 2) .sys 0 (snum 1) [0x1001] fun e => e.anylane 0 && decide ((e.sreg 1).toNat % 32 ≤ 16)
    && e.w.replay == [] && decide (e.w.pos + 1 < e.cl.count) && e.w.pend == [] := ready_of (by decide)

theorem wit_ControlRegisters_end : Meets (csrw 8 1) .sys 0 (snum 1) [0x1001] fun e => e.anylane 0 && decide (8 ≤ (e.sreg 1).toNat % 32)
    && e.w.replay == [] && decide (e.w.pos + 1 = e.cl.count ∧ e.cl.count ≤ 15) && e.w.pend == [] && !e.s.busy e.w := ready_of (by decide)

theorem wit_ControlRegisters_range : Meets (csrw 7 1) .sys 0 (snum 1) [0x1001] (fun e => decide ((e.sreg 1).toNat % 32 < 8))
    ∧ Meets (csrw 17 1) .sys 0 (snum 1) [0x1001] fun e => decide (16 < (e.sreg 1).toNat % 32) := ⟨ready_of (by decide), ready_of (by decide)⟩

/-- The latch of the wave's pair, for a team that has one. -/
def latched (owner waiter : Option Nat) : State :=
  onT (onL (base .sys {} 1) fun p => { p with latch := true, waves := 2 }) fun t => { t with latches := [{ owner, waiter }] }

theorem wit_LatchAndThreshold_none : Meets (base .sys {} 1) .sys 0 [] [] fun e => e.anylane 0 && !e.l.p.latch && !e.w.inHandler
    && decide (e.w.pos + 1 = e.cl.count) := ready_of (by decide)

theorem wit_LatchAndThreshold_free : Meets (latched none none) .sys 0 [] [] fun e => e.anylane 0 && e.l.p.latch && !e.w.inHandler
    && (e.t.latch (e.w.wid / 2)).owner == none && decide (e.w.wid / 2 < e.t.latches.length) := ready_of (by decide)

theorem wit_LatchAndThreshold_held : Meets (latched (some 2) none) .sys 0 [] [] fun e => e.anylane 0 && e.l.p.latch && !e.w.inHandler
    && (e.t.latch (e.w.wid / 2)).owner == some e.w.key && (e.t.latch (e.w.wid / 2)).waiter == none && e.w.pend == [] && e.w.replay == []
    && decide (e.w.pos + 1 = e.cl.count ∧ e.cl.count ≤ 15) && !e.s.busy e.w := ready_of (by decide)

theorem wit_LatchAndThreshold_partner : Meets (latched (some 9) none) .sys 0 [] [] fun e => e.anylane 0 && e.l.p.latch && e.w.stepping == none
    && (e.t.latch (e.w.wid / 2)).owner == some 9 && decide (9 ≠ e.w.key) := ready_of (by decide)

/-- Team `n` of an ORDERED launch, which goes direct or not. -/
def ordered (n : Nat) (direct released : Bool) : State :=
  onT (onL (base .sys {} 1) fun p => { p with mode := 2 }) fun t => { t with tix := n, direct, released }

theorem wit_LatchAndThreshold_turn : Meets (ordered 0 false false) .sys 0 [] [] (fun e => e.l.p.mode == 2 && !e.t.direct && e.t.log == []
      && (List.range e.t.tix).all fun k => e.l.released.contains k || e.l.voided.contains k)
    ∧ Meets (ordered 0 true false) .sys 0 [] [] (fun e => e.l.p.mode == 2 && e.t.direct && !e.t.released && e.s.trSize == 0)
    ∧ Meets (ordered 0 true true) .sys 0 [] [] (fun e => e.l.p.mode == 2 && e.t.released) :=
  ⟨ready_of (by decide), ready_of (by decide), ready_of (by decide)⟩

/-- A team with an entry in its log goes direct at its turn, and its wave issues on. -/
def orderedLog : State := onT (ordered 0 false false) fun t => { t with log := [LogE.write 0x8000 0xF (List.replicate 32 7) false [(0, 4)] {}] }

theorem wit_LatchAndThreshold_applied : Meets orderedLog .sys 0 [] [] fun e => e.l.p.mode == 2 && !e.t.direct && e.t.log != []
    && ((orderedLog.goDirect e.t).wave? e.w.key).any fun x => x.stage == .issue := ready_of (by decide +kernel)

theorem wit_LatchAndThreshold_waits : Meets (ordered 1 false false) .sys 0 [] [] fun e => e.anylane 0 && e.l.p.mode == 2 && !e.t.released
    && e.w.stepping == none && !((List.range e.t.tix).all fun k => e.l.released.contains k || e.l.voided.contains k) := ready_of (by decide)

/-- The wave of `base`, in a stage, and more. -/
def inStage (st : Stage) (f : Wave → Wave) : State :=
  imaged 0xE018000000000000 (onW (base .vec {} 1) fun w => f { w with stage := st, clause := none, hdr := some soloHeader })

/-- What the statements about waves' events ask of every state. -/
def eventBase (s : State) (P : Wave → Team → Ctx → Launch → Bool) : Bool :=
  s.ready && !s.dead && !s.gated && match s.wave? 2 with
  | none => false
  | some w => match s.team? w.team with
    | none => false
    | some t => match s.ctx? t.ctx, s.launch? t.launch with
      | some c, some l => w.place.isSome && !(s.quad (w.coreNo / 4)).stopped && w.stepping == none && P w t c l
      | _, _ => false

theorem wit_WaveEvents_start : (let s := onL (inStage .entering id) fun p => { p with image := 0x100000000 }
    eventBase s fun w _ c l => w.stage == .entering && w.stalls == [] && w.trap == none
      && (s.entryOf c l.p.image).toOption == some (soloHeader, ⟨0, 256, [0]⟩)) = true := by decide +kernel

/-- A wave that resumes at a restart label in block 0, and one whose image has no header. -/
theorem wit_WaveEvents_label : (let s := inStage .label fun w => { w with restart := some ⟨0x100000000, 0, 0, 0, 1⟩ }
    eventBase s fun w _ c _ => w.stage == .label && w.stalls == [] && w.trap == none
      && match w.restart, w.hdr with
        | some r, some h => (match s.single c w.img h r.block with | .ok _ => true | .error _ => false)
        | _, _ => false) = true := by decide +kernel

theorem wit_WaveEvents_image : (let s := onL (inStage .entering id) fun p => { p with image := 0x100008000 }
    eventBase s fun w _ c l => w.stage == .entering && w.stalls == [] && w.pend == [] && !s.busy w
      && match s.entryOf c l.p.image with | .error (.bad _) => true | _ => false) = true := by decide +kernel

theorem wit_WaveEvents_long : (let s := inStage .long fun w => { w with clause := some (soloClause 0) }
    eventBase s fun w _ _ _ => w.stage == .long && w.stalls == [] && w.pend == [] && decide (w.pos < w.count)) = true := by decide +kernel

/-- A window's end before which a later access of the wave still waits. -/
theorem wit_WaveEvents_stalled : (let s := inStage .long fun w => { w with
      clause := some (soloClause 0), pend := [{ pos := 0, due := 0, long := true, effs := [], dsts := [] }]
      stalls := [{ op := { pos := 5, accs := [] }, fault := some 9 }] }
    eventBase s fun w _ _ _ => w.stage == .long && decide (w.pos < w.count) && w.stalls.all (fun x => x.peer == none && x.fault != none)
      && w.pend.all fun p => (w.stalls.all fun x => x.op.pos != p.pos) && (s.core w.coreNo).mtx.isEmpty) = true := by decide +kernel

theorem wit_WaveEvents_trap : (let s := inStage .trap fun w => { w with trap := some { cause := 0x0B } }
    eventBase s fun w _ _ _ => w.stage == .trap && w.trap == some { cause := 0x0B } && !s.busy w) = true := by decide +kernel

/-- A wave whose fragment waits. -/
def blockedOn (x : Wait) : State := inStage .quantum fun w => { w with frags := w.frags.map fun f => { f with blocked := some x } }

theorem wit_WaveEvents_waits : (eventBase (blockedOn (.handle 0)) fun w t _ _ => w.frags[0]?.any (fun f => f.blocked == some (.handle 0)) && t.complete 0)
    && (eventBase (blockedOn (.tagAny 0)) fun _ t _ _ => t.tags &&& 0 == 0)
    && (eventBase (blockedOn .latch) fun w t _ _ => (t.latch (w.wid / 2)).owner == none)
    && (eventBase (blockedOn .tkwait) fun _ t _ _ => t.tix == 0)
    && (eventBase (blockedOn (.mask 0x8000)) fun w t _ _ => t.complete (cget w.regs.h 15))
    && (eventBase (blockedOn (.bar .core)) fun w _ _ _ => w.frags[0]?.any fun f => f.blocked == some (.bar .core)) = true := by decide +kernel

/-- A wait at the Block instruction of a clause. -/
theorem wit_WaveEvents_held : (let s := onW (blockedOn (.handle 0)) fun w => { w with frags := w.frags.map fun f => { f with held := some (soloClause 0) } }
    eventBase s fun w t _ _ => w.frags[0]?.any (fun f => f.blocked == some (.handle 0) && f.held != none) && t.complete 0) = true := by decide +kernel

/-- A window's end with a load that may still read a later write. -/
theorem wit_WaveEvents_late : (let s := inStage .long fun w => { w with
      clause := some (soloClause 0), pend := [{ pos := 0, due := 0, long := true, effs := [], dsts := [] }]
      late := [{ op := wordAt .load }] }
    eventBase s fun w _ _ _ => w.stage == .long && decide (w.pos < w.count) && w.stalls == [] && w.late != []
      && w.pend.all fun p => p.long && decide (p.due ≤ w.pos) && (s.core w.coreNo).mtx.isEmpty) = true := by decide +kernel

theorem wit_WaveEvents_end : (let s := inStage .ending fun w => { w with frags := [] }
    eventBase s fun w t _ _ => w.stage == .ending && !s.busy w && (t.latch (w.wid / 2)).owner != some w.key) = true := by decide +kernel

theorem wit_ClauseSelection : (let s := inStage .ready id
    (s.troubled 0).isNone && (s.select 0).any (fun x => x.1.w.key == 2 && x.2.1.off == 256 && x.2.2.isSome)
    && (List.range 4).all fun n => !(cget s.ctl (0x210000 + 0x10 * n + 8)).getLsbD 0) = true := by decide +kernel

/-- A fragment held at its clause's Block instruction, with nothing else to do there or with an instruction to issue again, and a wave that
stands inside its clause. -/
theorem wit_ClauseSelection_goesOn : ([none, some (1, 1, 0)].all fun todo =>
      let s := onW (inStage .ready id) fun w => { w with frags := w.frags.map fun f => { f with held := some { soloClause 0 with off := 256, cls := .vec }, todo } }
      (s.troubled 0).isNone && (s.select 0).any fun x => x.1.w.key == 2 && x.2.2.isNone && x.1.w.stage == .ready
        && x.1.w.frags[x.1.w.cur]?.any fun f => f.todo == todo)
    && (let s := inStage .inside fun w => { w with clause := some { soloClause 0 with off := 256, cls := .vec } }
      (s.troubled 0).isNone && (s.select 0).any fun x => x.1.w.key == 2 && x.1.w.stage == .inside) = true := by decide +kernel

theorem wit_VoteAndQuantum_halted : (let s := inStage .vote fun w => { w with regs := { nblk := (List.range 64).map fun l => (l, 255) } }
    eventBase s fun w _ _ _ => w.stage == .vote && w.stalls == [] && w.hdr.isSome && w.depth == 0 && w.frags.length == 1
      && (List.range 64).all fun l => (cget w.regs.nblk l).toNat == 255) = true := by decide +kernel

theorem wit_VoteAndQuantum_goes : (let s := inStage .vote id
    eventBase s fun w _ c _ => w.stage == .vote && (cget w.regs.nblk 0).toNat != 255
      && match w.hdr with
        | some h => (s.form c w h (csetAll w.blk ((lanesOf ones64).map fun i => (i, cget w.regs.nblk i))) ones64 true).toOption.isSome
        | none => false) = true := by decide +kernel

theorem wit_VoteAndQuantum_quantum : (let s := inStage .quantum id
    eventBase s fun w _ _ _ => w.stage == .quantum && w.frags.all (fun g => !g.parked)
      && w.frags[(w.cur + 1 + 0) % w.frags.length]?.any fun g => !g.parked && g.blocked == none) = true := by decide +kernel

theorem wit_VoteAndQuantum_unpark : (let s := inStage .switch fun w => { w with frags := w.frags.map fun f => { f with parked := true, age := 5 } }
    eventBase s fun w _ c _ => w.frags[0]?.any fun g => g.parked && decide (c.p < g.age) && g.blocked == none) = true := by decide +kernel

/-- A job at the head of the engine of core 0. -/
def engineJob (i : Instr) : State :=
  { base .mtx {} 1 with cores := [{ id := 0, mtx := [{ wave := 2, seq := 0, pos := 0, instr := i, a0 := 511, b0 := 0x8000000000000000 }] }] }

theorem wit_EnginePerforms : ([Instr.mzero { slot := 0, tile := 15, half := .lo }, .cbwr { slot := 0, la := 0, bank := 7, e := .s 1, w := .s 2 }].all fun i =>
    (engineJob i).ready && (match (engineJob i).mtxJob? 0 with
      | some j => j.instr == i && j.fault == none && !j.trapped && match (engineJob i).wave? j.wave with
        | some w => match (engineJob i).team? w.team with
          | some t => t.cmds == [] && decide (15 < t.tiles.length) && decide (7 < t.banks.length)
          | none => false
        | none => false
      | none => false)) = true := by decide +kernel

/-- A job of one row of addresses at the head of the engine of core 0. -/
def rowJob (i : Instr) (a0 : DWord) (start : Nat) : State :=
  { base .mtx {} 1 with cores := [{ id := 0, mtx := [{ wave := 2, seq := 0, pos := 0, instr := i, a0, a1 := 128, start }] }] }

/-- Its product is of one row. -/
def oneRow (s : State) : State := { s with cores := s.cores.map fun k => { k with mtx := k.mtx.map fun j => { j with mvc := 1 } } }

/-- What the statement about the engine asks of every state, and more. -/
def engineHead (s : State) (P : MtxJob → Wave → Actor → Bool) : Bool :=
  s.ready && !s.dead && !s.gated && ((List.range 4).all fun n => cget s.ctl (watchOff (quadOf 0) n + 0x10) == 0) && match s.mtxJob? 0 with
  | none => false
  | some j => j.fault == none && !j.trapped && match s.wave? j.wave with
    | none => false
    | some w => match s.team? w.team with
      | none => false
      | some t => t.cmds == [] && ((List.range 8).all fun b => !s.expanding t b) && match s.launch? t.launch, s.ctx? t.ctx with
        | some l, some c => P j w { core := 0, c, t, l, who := none, staged := l.p.mode != 0 && !t.direct, key := j.wave, path := 1, known := j.known, via := j.peer }
        | _, _ => false

/-- A product whose operands lie at an address that no range maps. -/
def pageMma : Mma := { genMma with a := .addr 1 false, b := .addr 1 false }

theorem wit_EnginePerforms_mmaFaults : (let s := oneRow (rowJob (.mmaz pageMma) 0x100000000 0)
    engineHead s fun j w a => a.c.trapPolicy && w.stalls == [] && match (MtxEnv.mk s a w j).mma pageMma true with
      | (_, _, .fault _ (.flt .page va) _) => va == j.b0
      | _ => false) = true := by decide +kernel

theorem wit_EnginePerforms_mma : (let s := oneRow (rowJob (.mmaz genMma) 0 0)
    let s := onW s fun w => { w with regs := { w.regs with g := [(0, 0x1 <<< 192)] } }
    engineHead s fun j w a => match (MtxEnv.mk s a w j).mma genMma true with
      | (_, _, .done _ n) => n == 0
      | _ => false) = true := by decide +kernel

def mld : MLd := { slot := 0, tile := 15, half := .whole, fmt := .bf16x2, tr := false, s := 1, sp := true }

theorem wit_EnginePerforms_loads : (engineHead (rowJob (.mld mld) 0 1) fun j _ a => decide (15 < a.t.tiles.length ∧ j.start ≤ 64)
    && (List.range 64).all fun i => (a.read (rowJob (.mld mld) 0 1) .sp (j.a0 + BitVec.ofNat 64 i * j.a1) 128).toOption.isSome) = true := by decide +kernel

theorem wit_EnginePerforms_loadFaults : (let i : Instr := .mld { mld with sp := false }
    engineHead (rowJob i 0x100000000 3) fun j w a => a.c.trapPolicy && w.stalls == [] && decide (15 < a.t.tiles.length ∧ j.start ≤ 3)
      && match a.read (rowJob i 0x100000000 3) .gm (j.a0 + BitVec.ofNat 64 3 * j.a1) 128 with
        | .error (.page, _) => true
        | _ => false) = true := by decide +kernel

def mstRow (sp : Bool) : MSt := { slot := 0, la := 0, tile := 15, half := .lo, fmt := .bf16x2, sat := false, amax := true, rnd := .rne, s := 1, sp }

/-- Row 63 of a half tagged zero, stored in the scratchpad; and one that faults. -/
theorem wit_EnginePerforms_stores : (let s := onT (rowJob (.mst (mstRow true)) 0 63) fun t => { t with tiles := List.replicate 16 { lo := 4 } }
    engineHead s fun j _ a => j.start == 63 && (a.t.tile 15).lo == 4 && !a.staged && (round .bf16 .rne false 0 (.fin false 0 0)).1 == 0
      && (List.range 64).all (fun k => leNat (List.replicate 128 (0 : Byte)) / 2 ^ (16 * k) % 2 ^ 16 == 0)
      && match a.place s .sp .wr true false (j.a0 + BitVec.ofNat 64 63 * j.a1) 128 (Config.peerAnswers s.nondet) with
        | .ok _ => true
        | _ => false) = true := by decide +kernel

theorem wit_EnginePerforms_storeFaults : (let s := onT (rowJob (.mst (mstRow false)) 0x100000000 63) fun t => { t with tiles := List.replicate 16 { lo := 4 } }
    engineHead s fun j w a => w.stalls == [] && a.c.trapPolicy
      && match a.place s .gm .wr true false (j.a0 + BitVec.ofNat 64 63 * j.a1) 128 (Config.peerAnswers s.nondet) with
        | .error (.page, _) => true
        | _ => false) = true := by decide +kernel

/-- An image whose restart entry 0 names block 0 and no tile. -/
theorem wit_EnginePerforms_restart : (let s : State := onW (imaged 0xE018000000000000 (rowJob (.mrstl { slot := 0, entry := 0 }) 0 0)) fun w => { w with
      hdr := some { soloHeader with size := 384, nrestart := 1, restart := 192 } }
    engineHead s fun _ w a => match w.hdr with
      | some h => (match s.restartEntry a.c w.img h 0 with | .ok p => decide (p.2.toNat < 2 ^ a.l.p.ntiles) | .error _ => false)
      | none => false) = true := by decide +kernel

/-- What the statement about teams' events asks of every state. -/
def teamBase (s : State) : Bool := s.ready && !s.dead && !s.gated && s.trSize == 0 && decide (s.waves.map (·.key)).Nodup

theorem wit_TeamEvents_barrier : (teamBase arrived && (arrived.launch? 0).any fun l => arrived.barReady .core l (arrived.barTeams .core l 1)) = true := by
  decide +kernel

/-- A co-resident launch of pod group 1, all of whose waves have arrived. -/
def podArrived : State :=
  onL (onW (base .vec {} 1) fun w => { w with bars := [⟨.pod, ones64, 0, 0, []⟩] }) fun p => { p with co := true, podgrp := 1 }

theorem wit_TeamEvents_pod : (teamBase podArrived && (podArrived.launch? 0).any fun l => l.p.podgrp == 1 && l.podSent == none
    && podArrived.barReady .pod l (podArrived.barTeams .pod l 0)) = true := by decide +kernel

theorem wit_TeamEvents_release : (let s : State := { podArrived with launches := podArrived.launches.map fun l => { l with podSent := some 0 } }
    teamBase s && (s.launches.find? fun l => l.p.id.toNat == 0 && l.p.podgrp != 0 && l.podSent == some 0).isSome) = true := by decide +kernel

/-- A team whose wave has ended, in a launch of a mode. -/
def overState (mode : Nat) (log : List LogE) : State :=
  onL (onT (onW (base .vec {} 1) fun w => { w with stage := .ended }) fun t => { t with log }) fun p => { p with mode }

theorem wit_TeamEvents_end : ([(0, []), (1, [LogE.atomic .add 0 4 1 false {}]), (2, [])].all fun x => let s := overState x.1 x.2
    teamBase s && (s.team? 1).any fun t => !t.ended && !t.saved && t.cmds == [] && t.core.isSome && s.waves.all (fun w => w.stage == .ended)
      && (s.launch? t.launch).any fun l => l.p.mode == x.1 && t.log == x.2) = true := by decide +kernel

theorem wit_TeamEvents_log : (let s := onT (overState 1 []) fun t => { t with ended := true }
    teamBase s && (s.team? 1).any fun t => t.ended && (s.launch? t.launch).any fun l => l.p.mode == 1) = true := by decide +kernel

/-- A log of a store and an atomic. -/
def smallLog : List LogE := [.write 0x8000 0xF (List.replicate 32 7) false [(0, 4)] {}, .atomic .add 0x100 4 1 false {}]

/-- Its application meets no error. -/
theorem wit_TeamEvents_applies : (overState 1 smallLog).LogApplies { key := 1, launch := 0, ctx := 0, tix := 0, core := none, log := smallLog } := by
  refine ⟨rfl, fun e h => ⟨formed_of (List.all_eq_true.1 (by decide +kernel : (smallLog.all formedB) = true) _ h), ?_⟩⟩
  exact (by decide +kernel : ∀ e ∈ smallLog, ∀ p ∈ e.units, isPeer p.1 = false) e h

theorem wit_TeamEvents_direct : (let s := onT (overState 2 []) fun t => { t with wantDirect := true }
    teamBase s && (s.team? 1).any fun t => !t.ended && t.wantDirect && !t.direct && (s.launch? t.launch).any fun l => l.holds t.tix) = true := by
  decide +kernel

theorem wit_TeamEvents_ticket : (let s := onT (overState 2 []) fun t => { t with ended := true }
    teamBase s && (s.launch? 0).any fun l => l.p.mode == 2 && (s.teams.find? fun t => t.launch == l.key && t.ended && l.holds t.tix).isSome) = true := by
  decide +kernel

/-- A launch of one team of one wave, offered by queue 1 of context 0. -/
def offered (f : Launch → Launch) : State :=
  { State.reset with
    ready := true, fresh := 1, ctxs := [{ soloCtx with mem := 0x100000 }]
    queues := [{ id := 1, ctx := 0, ring := 0, wb := 0, n := 6, prio := 0, weight := 1, vec := 0
                 pkts := [{ i := 0, bytes := List.replicate 64 1, started := true }] }]
    launches := [f { key := 0, ctx := 0, queue := 1, idx := 0, tt := none, p := { soloPkt with spbytes := 4096 } }] }

theorem wit_PlacementEvents_place : (let s := offered id
    s.running && (match s.pick with
      | some (.place l _ _) => l.key == 0 && !l.p.co && !l.p.affinity
          && (match nextDue (s.waiting l) with | some (.fresh tix) => tix == 0 | _ => false)
      | _ => false)
    && (match s.launch? 0 with | some l => (s.fits 0 l true).isSome | none => false)) = true := by decide +kernel

theorem wit_PlacementEvents_resume : (let s : State := { offered fun l => { l with next := 1 } with
      fresh := 10, teams := [{ key := 1, launch := 0, ctx := 0, tix := 0, core := none, saved := true }]
      waves := [{ key := 2, team := 1, wid := 0, place := none, stage := .ready }] }
    s.running && s.trSize == 0 && (s.ctx? 0).any (fun c => decide (c.mem < 2 ^ 55)) && s.teams.all (fun t => !t.toKill)
    && decide ((s.waves.map (·.key)).Nodup) && (match s.pick with
      | some (.place l _ _) => (match nextDue (s.waiting l) with | some (.saved _ k) => k == 1 | _ => false)
      | _ => false)
    && s.waves.all fun w => w.stalls == [] && !w.short && w.restart == none && decide (w.area.length ≤ 4096) && w.wid == 0) = true := by decide +kernel

theorem wit_PlacementEvents_copy : (let s : State := { offered id with
      launches := [], copies := [{ queue := 1, idx := 0, ctx := 0, src := 0, dst := 0, len := 64, sig := 0, sigval := 0, fill := false }] }
    s.running && match s.pick with | some (.copy k e) => k.engine == none && decide (e < 8) | _ => false) = true := by decide +kernel

/-- A co-resident launch of one team, of a number of waves. -/
def gang (waves : Nat) (hold : Bool) : State := offered fun l => { l with hold, p := { l.p with co := true, waves } }

set_option maxRecDepth 100000 in

theorem wit_PlacementEvents_hold : ((gang 17 false).running && match (gang 17 false).pick with | some (.hold l) => l.p.co | _ => false) = true := by
  decide +kernel

theorem wit_PlacementEvents_gang : ((gang 1 true).running && match (gang 1 true).gangReady with
    | some (l, _, _) => l.p.co && l.redo == [] && decide (l.next ≤ l.p.teams) && (gang 1 true).teams == []
    | none => false) = true := by decide +kernel

theorem wit_PlacementEvents_aging : (let s : State := { offered id with queues := (offered id).queues.map fun q => { q with unserved := 550000 } }
    s.running && (s.queue? 1).any fun q => decide (500 * 1100 ≤ q.unserved) && s.offers q.id) = true := by decide +kernel

/-- A context past its drain limit with one resident team. -/
def draining (st : Stage) : State :=
  let s := inStage st id
  { s with ctxs := s.ctxs.map fun c => { c with preempt := some { left := 0, forced := false } } }

theorem wit_PlacementEvents_drain : ([(Stage.ready, true), (.issue, false)].all fun x => let s := draining x.1
    s.running && match s.ctxs, s.resident 0 with
      | [c], [t] => c.preempt.any (fun p => p.left == 0) && s.teamSavable t == x.2
      | _, _ => false) = true := by decide +kernel

theorem wit_PlacementEvents_restart : (let s := offered fun l => { l with restarting := true }
    s.running && (s.launches.find? fun l => l.restarting && !s.teams.any fun t => t.launch == l.key).isSome) = true := by decide +kernel

/-- 64 bytes of a packet, from the fields that are not 0. -/
def packet (l : List (Nat × List Byte)) : List Byte :=
  (List.range 64).map fun i => (l.findSome? fun x => if x.1 ≤ i ∧ i < x.1 + x.2.length then x.2[i - x.1]? else none).getD 0

/-- Queue 1 of context 0 with one packet consumed, and its ring at virtual address 0x100008000. -/
def queued (b : List Byte) (started : Bool) : State :=
  let s := imaged 0 (base .vec {} 1)
  { s with queues := [{ id := 1, ctx := 0, ring := 0x100008000, wb := 0, n := 6, prio := 0, weight := 1, vec := 0, widx := 1, ridx := 1
                        pkts := [{ i := 0, bytes := b, started }] }] }

/-- What the statement about queues' events asks of every state, and more. -/
def queueBase (s : State) (P : Queue → Ctx → Bool) : Bool :=
  s.running && (s.queue? 1).any fun x => x.st == .ok && (s.ctx? x.ctx).any (P x)

theorem wit_QueueEvents_doorbell : (queueBase (queued [] false) fun x _ => decide (x.widx.toNat ≤ 65 ∧ 65 ≤ x.ridx + 2 ^ x.n ∧ x.ridx + 2 ^ x.n < 66)) = true := by
  decide +kernel

theorem wit_QueueEvents_consume : (let s : State := { queued [] false with queues := (queued [] false).queues.map fun q => { q with ridx := 0, pkts := [] } }
    queueBase s fun x c => decide (x.ridx < x.widx.toNat) && x.fault == none && x.destroy == none && !x.wbDue
      && match s.pkgRead c (x.ring + 0) 64 with | .ok b => s.packetBad b == none | .error _ => false) = true := by decide +kernel

theorem wit_QueueEvents_badOpcode : (packet [(0, [6])]).length = 64 ∧ 5 < bnat (packet [(0, [6])]) 0 1 := by decide

theorem wit_QueueEvents_start : ([0, 1, 2, 4].all fun n => queueBase (queued (packet [(0, [BitVec.ofNat 8 n])]) false) fun x _ =>
    x.next?.any fun p => p.op == n) = true := by decide +kernel

theorem wit_QueueEvents_signal : (let s := queued (packet [(0, [3]), (8, leBytes 8 0x100009000), (16, [7])]) false
    queueBase s fun _ _ => match s.pktFor 1 3 with
      | some (c, S, _, p) => bnat p.bytes 24 1 == 0 && (S.pkgPieces c .wr 0x100009000 8).toOption.isSome
      | none => false) = true := by decide +kernel

/-- A SIGNAL with an interrupt by vector 7, masked or not. -/
def interrupts (unmasked : List Nat) : State :=
  { queued (packet [(0, [3]), (8, leBytes 8 0x100009000), (16, [7]), (24, [1, 1, 7])]) false with unmasked }

theorem wit_QueueEvents_interrupt : ([[], [2055]].all fun l => queueBase (interrupts l) fun _ _ => match (interrupts l).pktFor 1 3 with
    | some (c, S, _, p) => p.peer == none && bnat p.bytes 24 1 == 1 && bnat p.bytes 25 1 % 2 == 1
      && (interrupts l).unmasked.contains (2048 * (interrupts l).linkFor 0x19000 + 7) == !l.isEmpty
      && match S.pkgPieces c .atom 0x100009000 8 with
        | .ok ps => firstPa ps == 0x19000 && (readPieces S.poison S.mem ps).toOption.isSome
        | .error _ => false
    | none => false) = true := by decide +kernel

/-- A table entry that names no host address. -/
theorem wit_QueueEvents_address : ((({ interrupts [2055] with msixTab := [⟨2055, 0x10000000000000, 3⟩] } : State).msixTab.find? fun y => y.k == 2055).getD
    ⟨2055, 0, 0⟩).addr.toNat = 2 ^ 52 := by decide

theorem wit_QueueEvents_timestamp : (let s := queued (packet [(0, [5]), (8, leBytes 8 0x100009000)]) false
    queueBase s fun _ _ => match s.pktFor 1 5 with
      | some (c, S, _, p) => (({ S with nondet := S.nondet + 1 } : State).pkgWrite c 0x100009000 (le 8 p.tick ++ le 8 (p.tai / 2 ^ 32))).toOption.isSome
      | none => false) = true := by decide +kernel

theorem wit_QueueEvents_wait : (let s := queued (packet [(0, [4]), (8, leBytes 8 0x100009000), (16, [7]), (24, [255]), (36, [1])]) true
    queueBase { s with clock := 1100 } fun x c => x.waiting.any fun p => p.fault == none && bnat p.bytes 36 4 == 1 && decide (p.clk + 1100 ≤ 1100)
      && (s.pkgRead c 0x100009000 8).toOption.isSome) = true := by decide +kernel

/-- A copy of 64 bytes under way, with some done. -/
def copying (done : Nat) (sig : DWord) : State :=
  { queued (packet [(0, [2])]) true with
    copies := [{ queue := 1, idx := 0, ctx := 0, src := 0x100008000, dst := 0x100009000, len := 64, sig, sigval := 1, fill := false
                 engine := some 0, done }] }

theorem wit_QueueEvents_copy : ((queueBase (copying 0 0) fun _ c => (copying 0 0).copies.any fun k =>
      (({ copying 0 0 with nondet := 1 } : State).copySource c k 64).toOption.isSome
      && (({ copying 0 0 with nondet := 1 } : State).pkgPieces c .wr k.dst 64).toOption.isSome)
    && (queueBase (copying 64 0) fun _ _ => (copying 64 0).copies.all fun k => decide (k.len ≤ k.done) && k.sig == 0 && k.fault == none)
    && (queueBase (copying 64 0x100009000) fun _ c => (({ copying 64 0x100009000 with nondet := 1 } : State).pkgWrite c 0x100009000
      (bvBytes 8 (1 : DWord))).toOption.isSome)) = true := by decide +kernel

/-- A launch of queue 1 whose one team is done with. -/
def launchOver (sig : DWord) : State :=
  { queued (packet [(0, [1])]) true with
    teams := [], waves := []
    launches := [{ key := 0, ctx := 0, queue := 1, idx := 0, tt := none, next := 1, p := { soloPkt with sigaddr := sig } }] }

theorem wit_QueueEvents_launch : ([(0 : DWord), 0x100009000].all fun a => queueBase (launchOver a) fun _ c => ((launchOver a).launch? 0).any fun l =>
    (launchOver a).launchEnded l && l.fault == none && l.p.podgrp == 0
    && (({ launchOver a with nondet := 1 } : State).pkgPieces c .wr 0x100009000 32).toOption.isSome) = true := by decide +kernel

/-- The admin queue, with a packet of an opcode and fields at its read index, in the host's memory. -/
def admin (op : Byte) (l : List (Nat × List Byte)) (s : State) : State :=
  { s with
    ready := true, admEnable := true, admWidx := 1, admRidx := 0, adm := none
    mem := ((0, [op]) :: l).foldl (fun m x => mput m (hostPa 0 + x.1) x.2) s.mem }

/-- The packet that the admin queue may start has an opcode, with its head in order, and more. -/
def admits (s : State) (op : Nat) (P : List Byte → Bool) : Bool :=
  s.running && s.admNext.any fun b => bnat b 0 1 == op && !headBad b && P b

theorem wit_AdminContextEvents_opcode : ((admin 0x7F [] (offered id)).admNext.any fun b => decide (bnat b 0 1 < 0x80))
    && ((admin 0x8D [] (offered id)).admNext.any fun b => decide (0x8C < bnat b 0 1)) = true := by decide +kernel

/-- Admin packets whose status address is misaligned: with a head in order, with one that is not, and a whole CTX_DESTROY. -/
theorem wit_AdminContextEvents_status : ([(0x87 : Byte), 0x81].all fun op => (admin op [(56, [3])] (offered id)).running
      && (admin op [(56, [3])] (offered id)).admNext.any fun b => bnat b 0 1 == op.toNat && bnat b 56 8 % 8 != 0 && !headBad b && bzero b 10 46
        && decide (bnat b 56 8 / 8 * 8 + 8 ≤ 2 ^ 52))
    && ((admin 0x87 [(1, [2]), (56, [3])] (offered id)).admNext.any headBad) && ((admin 0x87 [(56, [3])] (offered id)).adm == none) = true := by
  decide +kernel

/-- Context memory at 1 GiB, whose pool begins just past the wave areas. -/
def newCtx : State := admin 0x80 [(8, [3]), (16, leBytes 8 0x40000000)] { offered id with mem := mput [] 0x40000000 (leBytes 8 0x2801000) }

theorem wit_AdminContextEvents_create : (admits newCtx 0x80 fun b => (ctxCreateChk newCtx b).all fun x => !x.1) = true := by decide +kernel

theorem wit_AdminContextEvents_exists : (admits (admin 0x80 [(16, leBytes 8 0x40000000)] newCtx) 0x80 fun b =>
    bnat b 12 4 == 0 && bnat b 41 1 != 255 && State.ctxMemOk (bnat b 16 8) && bnat b 16 8 % 4096 == 0
    && newCtx.poison == [] && mnat newCtx.mem (bnat b 16 8) 8 == 0x2801000 && mnat newCtx.mem (bnat b 16 8 + 8) 8 == 0) = true
    ∧ (admin 0x80 [(8, [0]), (16, leBytes 8 0x40000000)] newCtx).ctx? 0 ≠ none := by decide +kernel

theorem wit_AdminContextEvents_destroy : (let s : State := { admin 0x81 [] (offered id) with queues := [] }
    admits s 0x81 (fun b => bzero b 10 46) && s.queues == [] && s.timetable == [] && (s.ctx? 0).isSome) = true := by decide +kernel

theorem wit_AdminContextEvents_queue : ((admits (admin 0x82 [(8, leBytes 2 4095), (32, [6, 6, 1])] (offered id)) 0x82 fun b =>
      bzero b 12 4 && bzero b 35 1 && bzero b 38 18 && bnat b 36 2 == 0 && bnat b 16 8 == 0 && bnat b 24 8 == 0)
    && (admits (admin 0x82 [(8, leBytes 2 2), (32, [16, 0, 255]), (36, leBytes 2 2047)] (offered id)) 0x82 fun b => bnat b 32 1 == 16 && bnat b 36 2 == 2047))
      = true ∧ (offered id).queue? 4095 = none ∧ (offered id).ctx? 0 ≠ none := by decide +kernel

theorem wit_AdminContextEvents_destroyQueue : ([(0 : Byte), 1].all fun m => admits (admin 0x83 [(8, [1, 0, m])] (offered id)) 0x83 fun b =>
    bnat b 10 1 == m.toNat && bzero b 11 45 && ((offered id).queue? (bnat b 8 2)).isSome) = true
    ∧ ((offered id).launches.map (·.key)).Nodup := by decide +kernel

theorem wit_AdminContextEvents_queueGone : (let b := packet [(0, [0x83]), (8, [1])]
    let s : State := { offered id with adm := some b, launches := [], queues := (offered id).queues.map fun q => { q with pkts := [] } }
    s.running && bnat b 0 1 == 0x83 && (s.queue? (bnat b 8 2)).any fun q => q.pkts == [] && decide (q.widx.toNat ≤ q.ridx)) = true := by decide

theorem wit_AdminContextEvents_range : (admits (admin 0x84 [(10, [15]), (12, [63]), (24, leBytes 8 0xFFF)] (offered id)) 0x84 fun b =>
    bzero b 11 1 && bnat b 12 4 == 63 && bnat b 10 1 == 15 && bnat b 16 8 % 4096 == 0 && (bnat b 24 8 + 1) % 4096 == 0 && bzero b 40 16) = true := by
  decide +kernel

theorem wit_AdminContextEvents_table : (admits (admin 0x85 [(16, leBytes 8 0x1000)] (offered id)) 0x85 fun b => bzero b 10 6 && bzero b 24 32) = true := by
  decide +kernel

theorem wit_AdminContextEvents_aperture : ((admits (admin 0x86 [(8, [31])] (offered id)) 0x86 fun b => bnat b 8 1 == 31 && bnat b 9 1 == 0)
    && (admits (admin 0x86 [(8, [0, 4]), (24, leBytes 8 0x1000)] (offered id)) 0x86 fun b =>
      bnat b 9 1 == 4 && !paramReserved 4 (bnat b 12 4) && !apertureBad (apertureOf b))) = true := by decide +kernel

theorem wit_AdminContextEvents_preempt : ([(0 : Byte), 3].all fun m => admits (admin 0x87 [(10, [m])] (offered id)) 0x87 fun b =>
    bnat b 10 1 == m.toNat && bzero b 11 45 && ((offered id).ctx? 0).any fun c => !c.stopped) = true := by decide +kernel

theorem wit_AdminContextEvents_drained : (let b := packet [(0, [0x87])]
    let s : State := { offered id with adm := some b }
    s.running && bnat b 0 1 == 0x87 && s.teams.all (fun t => t.core.isNone) && (s.ctx? 0).isSome) = true := by decide

theorem wit_AdminTimeAndFaultEvents_status : ((admin 0x89 [] (offered id)).admNext.any fun b =>
    bnat b 56 8 % 8 == 0 && decide (bnat b 56 8 + 8 ≤ 2 ^ 52)) = true := by decide +kernel

theorem wit_AdminTimeAndFaultEvents_timetable : ((admits (admin 0x88 [(9, [0])] (offered id)) 0x88 fun b => bzero b 12 4 && bzero b 40 16)
    && (admits (admin 0x88 [(9, [2, 1]), (16, leBytes 8 10000)] (offered id)) 0x88 fun b =>
      bnat b 9 1 == 2 && bnat b 16 8 == 10000 && bnat b 32 8 % 64 == 0 && ((offered id).queue? (bnat b 10 2)).isSome)) = true := by decide +kernel

theorem wit_AdminTimeAndFaultEvents_time : ([(0 : Byte), 1, 2, 3].all fun m => admits (admin 0x89 [(8, [m]), (16, [5])] (offered id)) 0x89 fun b =>
    bnat b 8 1 == m.toNat && bzero b 9 7 && bzero b 24 32) = true := by decide +kernel

theorem wit_AdminTimeAndFaultEvents_pps : (offered id).ppsLast = none ∧ (offered id).ppsSet = none
    ∧ ({ offered id with ppsLast := some 0, tick := 549999999 } : State).tick < 0 + 550000000 := by decide

theorem wit_AdminTimeAndFaultEvents_ppsSet : (let s : State := { offered id with ppsSet := some (5, 0), adm := some (packet [(0, [0x89])]) }
    s.running && s.ppsSet == some (5, 0) && s.adm.isSome && s.ppsLast == none) = true := by decide

theorem wit_AdminTimeAndFaultEvents_caches : ([((0 : Byte), 639), (1, 159), (2, 3), (3, 0)].all fun x =>
    admits (admin 0x8A [(8, [x.1]), (12, leBytes 4 x.2)] (offered id)) 0x8A fun b =>
      bnat b 8 1 == x.1.toNat && bnat b 12 4 == x.2 && bzero b 9 3 && bzero b 16 40) = true := by decide +kernel

theorem wit_AdminTimeAndFaultEvents_trace : ([((0x10000 : Nat), 6), (0x40000000, 20)].all fun x =>
    admits (admin 0x8B [(16, leBytes 8 x.1), (24, leBytes 8 (256 * x.2))] (offered id)) 0x8B fun b => bzero b 32 24 && bnat b 16 8 == x.1
      && bnat b 24 8 / 2 ^ 6 % 4 == 0 && bnat b 24 8 / 2 ^ 13 % 8 == 0 && bnat b 24 8 / 256 % 32 == x.2 && bnat b 8 8 % 4096 == 0) = true := by
  decide +kernel

/-- A reply with an action to the one open fault, whose record has a kind; the wave stalls on it, placed or saved. -/
def replies (act : Byte) (kind : Nat) (placed : Bool) (stall : Bool) : State :=
  let s := onW (base .vec {} 1) fun w => { w with
    place := if placed then w.place else none, stalls := if stall then [{ op := { pos := 0, accs := [] }, fault := some 50, page := 7 }] else [] }
  admin 0x8C [(12, [act])] { s with fqOpen := [{ id := 0, key := 50, kind, core := 0, ctx := 0, page := 7 }] }

/-- A command that waits on it. -/
def waitingCmd : Cmd := { tag := 0, seq := 0, wave := 2, src := .gm, dst := .sp, sa := 0, da := 0, fault := some 50 }

/-- The reply is one to that fault. -/
def repliesOk (s : State) (act : Nat) (P : OpenFault → Bool) : Bool :=
  admits s 0x8C fun b => bzero b 13 1 && bzero b 16 40 && bnat b 12 1 == act && (s.fqOpen.find? fun x => x.id == bnat b 8 4).any P

theorem wit_AdminTimeAndFaultEvents_retry : (let s : State := { replies 0 1 true false with
      teams := (replies 0 1 true false).teams.map fun t => { t with cmds := [waitingCmd] } }
    repliesOk s 0 fun x => x.kind != 7 && s.waitsOn x.key && (s.stallsOn x.key).isEmpty) = true := by decide +kernel

theorem wit_AdminTimeAndFaultEvents_saved : ([(0 : Byte), 1].all fun a => repliesOk (replies a 1 false true) a.toNat fun x => x.kind != 7
    && match (replies a 1 false true).stallsOn x.key with | [(w, _)] => w.place.isNone && (replies a 1 false true).wave? w.key == some w | _ => false) = true := by
  decide +kernel

theorem wit_AdminTimeAndFaultEvents_command : (let s : State := { replies 1 1 true false with
      teams := (replies 1 1 true false).teams.map fun t => { t with cmds := [waitingCmd] } }
    repliesOk s 1 fun x => x.kind != 7 && (s.stallsOn x.key).isEmpty && s.launches.all (fun l => l.fault != some x.key)
      && (s.team? 1).any fun t => t.cmds.all fun c => c.fault == some x.key && c.install == none) = true := by decide +kernel

/-- A command that was cancelled, and one of a saved team whose fault is answered KILL. -/
theorem wit_AdminTimeAndFaultEvents_cancelled : (let s : State := { replies 1 1 true false with
      teams := (replies 1 1 true false).teams.map fun t => { t with cmds := [{ waitingCmd with cancel := true }] } }
    repliesOk s 1 fun x => x.kind != 7 && (s.stallsOn x.key).isEmpty && s.launches.all (fun l => l.fault != some x.key)
      && (s.team? 1).any fun t => t.cmds.all fun c => c.fault == some x.key && c.install == none && c.cancel) = true := by decide +kernel

theorem wit_AdminTimeAndFaultEvents_kill : (repliesOk (replies 2 1 true true) 2 fun x => x.kind != 7
    && (replies 2 1 true true).waves.any fun w => w.team == 1 && w.stalls.any fun y => y.fault == some x.key) = true := by decide +kernel

theorem wit_AdminTimeAndFaultEvents_killSaved : (let s := onT (replies 2 1 false true) fun t => { t with saved := true }
    repliesOk s 2 fun x => x.kind != 7 && s.launches.all (fun l => l.fault != some x.key) && s.teams.all (·.saved)
      && s.waves.any (fun w => w.team == 1 && w.stalls.any fun y => y.fault == some x.key) && decide (s.teams.map (·.key)).Nodup) = true := by
  decide +kernel

theorem wit_AdminTimeAndFaultEvents_core : (repliesOk (replies 3 7 true false) 3 fun x => x.kind == 7 && x.core == 0) = true := by decide +kernel

theorem wit_AdminTimeAndFaultEvents_record : (let s : State := { offered id with fqEnable := true, fqHeld := [{ key := 5, kind := 4 }], fqTail := 63 }
    s.running && s.fqEnable && !s.fqHeld.isEmpty && decide (s.fqTail < s.fqHead.toNat + 2 ^ (s.fqLg + 6))) = true := by decide

theorem wit_AdminTimeAndFaultEvents_ring : decide ((cget (offered id).ctl 0x40).toNat + 64 * (63 % 2 ^ ((offered id).fqLg + 6)) + 64 ≤ 2 ^ 52) = true := by decide

/-- Entry 0 of the timetable, due at time 0, and its packet in memory, with a slot deferred or not. -/
def timed (pending : Option Nat) : State :=
  { offered id with
    launches := [], mem := mput [] 0x1000 (packet [(0, [1]), (52, [64])])
    timetable := [{ n := 0, policy := 2, queue := 1, period := 10000, phase := 0, pkt := 0x1000, next := 0, pending }] }

theorem wit_AdminTimeAndFaultEvents_slot : ((timed none).running && ((timed none).timetable.find? fun e => e.next ≤ (timed none).taiNs.toNat).any (fun e =>
      !(timed none).overrun e && e.pending == none)
    && ((timed none).phys 0x1000).any (fun a => localOk a && match readAt (timed none).poison (timed none).mem a 64 with
      | .ok p => bnat p 0 1 == 1 | .error _ => false)
    && ((timed (some 0)).timetable.find? fun e => e.pending.isSome && !(timed (some 0)).overrun e).isSome) = true := by decide +kernel

/-- A slot met while its launch still runs: late or not, with one deferred or not. -/
theorem wit_AdminTimeAndFaultEvents_late : ([(none, false), (some 0, false), (none, true)].all fun x =>
    let s : State := { timed x.1 with
      timetable := (timed x.1).timetable.map fun e => { e with late := x.2 }
      launches := [{ key := 9, ctx := 0, queue := 1, idx := 0, tt := some 0, p := soloPkt }] }
    s.running && (s.timetable.find? fun e => e.next ≤ s.taiNs.toNat).any fun e => s.overrun e && e.policy == 2 && e.pending == x.1 && e.late == x.2) = true := by
  decide +kernel

theorem wit_AdminTimeAndFaultEvents_page : (let s : State := { inStage .ready id with
      pri := [{ ctx := 0, page := 7, key := 60 }, { ctx := 0, page := 8, key := 61, sent := false }] }
    s.running && (s.ctx? 0).isSome && (s.pri.find? fun x => x.ctx == 0 && x.page == 7 && x.sent).any fun p => (s.stallsOn p.key).isEmpty
      && ((s.pri.filter fun x => !(x.ctx == p.ctx && x.page == p.page)).find? fun x => !x.sent).any fun x => x.key == 61) = true := by decide +kernel

theorem wit_AdminTimeAndFaultEvents_refused : (let s : State := { replies 0 2 true false with
      ctxs := [{ soloCtx with trapPolicy := false }], pri := [{ ctx := 0, page := 7, key := 50, rec_ := { key := 50, kind := 2 } }]
      teams := (replies 0 2 true false).teams.map fun t => { t with cmds := [waitingCmd] } }
    s.running && s.waitsOn 50 && (s.stallsOn 50).isEmpty && ((s.ctx? 0).any fun c => !c.trapPolicy)
      && (s.pri.find? fun x => x.ctx == 0 && x.page == 7 && x.sent).any fun p => p.rec_.kind == 2 && p.rec_.key == p.key) = true := by decide +kernel

/-- A copy in flight from the scratchpad to the scratchpad, of 256 bytes, cancelled or not. -/
def inFlight (cancel : Bool) (bank : Option Nat) : State :=
  let s := onT (base .asy {} 1) fun t => { t with cmds := [{ tag := 63, seq := 9, wave := 2, src := .sp, dst := .sp, sa := 0, da := 0x1000
                                                             dims := [(256, 0, 0)], cancel, bank }] }
  { s with cur := none }

/-- What the statement about copy engines asks of every state, and more. -/
def engineBase (s : State) (P : Team → Cmd → Launch → Ctx → Bool) : Bool :=
  s.running && (s.team? 1).any fun t => (t.cmds.find? fun x => x.tag == 63).any fun c => (s.launch? t.launch).any fun l => (s.ctx? t.ctx).any fun cx =>
    !t.saved && !t.ended && t.core == some 0 && !(s.quad 0).stopped && P t c l cx

theorem wit_CopyEngineEvents_cancel : (engineBase (inFlight true none) fun _ c _ _ => c.bank == none && c.cancel && c.install == none) = true := by decide +kernel

/-- A cancelled copy that waits on a fault. -/
theorem wit_CopyEngineEvents_waiting : (engineBase (onT (inFlight true none) fun t => { t with cmds := t.cmds.map fun c => { c with fault := some 50 } })
    fun _ c _ _ => c.bank == none && c.cancel && c.install == none && c.fault.isSome) = true := by decide +kernel

theorem wit_CopyEngineEvents_copy : (engineBase (inFlight false none) fun t c l cx =>
    let S : State := { inFlight false none with nondet := (inFlight false none).nondet + 1 }
    let A : Actor := { core := 0, c := cx, t, l, who := none, staged := false, key := c.wave, path := 2, known := c.known, cmd := some c.seq, via := c.peer }
    l.p.mode == 0 && c.fault == none && c.done == 0 && c.orig == [] && c.dims == [(256, 0, 0)]
    && (List.range 4).all (fun i => cget S.ctl (watchOff 0 i + 0x10) == 0)
    && (A.place S .sp .rd true false c.sa 256 (Config.peerAnswers S.nondet)).toOption == some [.mem (2 ^ 56) 256 false]
    && (A.place S .sp .wr true false c.da 256 (Config.peerAnswers S.nondet)).toOption == some [.mem (2 ^ 56 + 0x1000) 256 false]
    && (readPieces S.poison (A.view S) [.mem (2 ^ 56) 256 false]).toOption.isSome) = true := by decide +kernel

theorem wit_CopyEngineEvents_bank : (engineBase (inFlight false (some 7)) fun t c _ _ => c.bank == some 7 && c.fault == none && decide (7 < t.banks.length)
    && (inFlight false (some 7)).bankFree t c 7) = true := by decide +kernel

theorem wit_CopyEngineEvents_bytes : (engineBase (inFlight false (some 7)) fun t c l cx => c.fault == none
    && (Actor.read { core := 0, c := cx, t, l, who := none, staged := false, key := c.wave, path := 2, known := c.known, cmd := some c.seq, via := c.peer }
      (inFlight false (some 7)) c.src c.sa 4096).toOption.isSome) = true := by decide +kernel

theorem wit_RegisterEvents : (offered id).ready = true ∧ (offered id).dead = false ∧ (offered id).gated = false
    ∧ ({ offered id with shutNow := true } : State).shutNow = true ∧ ({ offered id with gated := true, shutArm := true } : State).gated = true := by decide

theorem wit_RegisterEvents_gate : (let s : State := { offered id with shutArm := true, shutTick := 5, tick := 5 }
    s.ready && !s.gated && s.shutArm && decide (s.shutTick.toNat ≤ s.tick)) = true := by decide

theorem wit_RegisterEvents_doorbell : (let s : State := { offered id with gated := true, heldDoors := [(1, 64)] }
    s.gated && (s.queue? 1).any fun x => x.st == .ok && decide (x.widx.toNat ≤ 64 ∧ 64 ≤ x.ridx + 2 ^ x.n)) = true := by decide

/-- Entry 2047 of function 1: two messages pend; or a SIGNAL of queue 1 waits on it. -/
theorem wit_RegisterEvents_vector : (let s : State := { offered id with pending := [4095, 4095] }
    s.ready && (s.queues.all fun q => q.pkts.all fun p => p.msg != some 4095) && s.pending.count 4095 == 2)
    && (let s : State := { offered id with queues := (offered id).queues.map fun q => { q with pkts := q.pkts.map fun p => { p with msg := some 4095 } } }
      s.ready && !s.pending.contains 4095 && match s.queues with
        | [q] => (match q.pkts with | [p] => p.msg == some 4095 | _ => false)
        | _ => false) = true := by decide

/-- A SIGNAL whose vector was unmasked while the package was gated. -/
theorem wit_RegisterEvents_ungate : (let s : State := { offered id with
      gated := true, unmasked := [4095], queues := (offered id).queues.map fun q => { q with pkts := q.pkts.map fun p => { p with msg := some 4095 } } }
    s.ready && s.gated && s.heldDoors == [] && s.unmasked == [4095] && match s.queues with
      | [q] => (match q.pkts with | [p] => p.msg == some 4095 | _ => false)
      | _ => false) = true := by decide

theorem wit_RegisterEvents_held : ({ offered id with gated := true, heldEvents := [.powerCap 900] } : State).heldEvents.map Move.ev
    = [.ev (.powerCap 900)] := rfl

/-- The wave in a stage, in a stopped quad. -/
def stoppedQuad (st : Stage) : State :=
  let s := inStage st fun w => { w with frags := w.frags.map fun f => { f with blocked := some .latch } }
  { s with quads := [{ id := 0, stopped := true }] }

theorem wit_StopAndHistogramEvents_step : ([Stage.issue, .ended, .ready].all fun st => let s := stoppedQuad st
    s.ready && !s.dead && (s.quad 0).stopped && (s.waves.find? fun w => w.place == some (16 * 0 + (s.core 0).stepSlot)).any fun w =>
      w.stepping == none && w.stage == st && w.frags.all fun f => !f.parked && f.blocked.isSome) = true := by decide +kernel

/-- Histograms on, with samples every 64 ticks, at tick 64. -/
def sampling : State := { inStage .ready id with trSize := 0x10000, trMask := 0x602, tick := 64 }

theorem wit_StopAndHistogramEvents_sample : (sampling.ready && !sampling.gated && sampling.trMask.getLsbD 1 && !sampling.trMask.getLsbD 48
    && decide (sampling.histLast + 2 ^ (sampling.trMask.toNat / 256 % 32) ≤ sampling.tick) && sampling.cap == 3200 && sampling.bins.isEmpty
    && match sampling.waves with
      | [w] => w.place.isSome && !(sampling.quad (w.coreNo / 4)).stopped && (sampling.wenv? w.key).isSome && w.frags[w.cur]?.isSome
      | _ => false) = true := by decide +kernel

theorem wit_StopAndHistogramEvents_stepped : (let s : State := { onW sampling fun w => { w with stepping := some .instr } with quads := [{ id := 0, stopped := true }] }
    (s.quad 0).stopped && s.waves.all fun w => w.stepping.isSome && w.place.isSome && w.coreNo / 4 == 0) = true := by decide +kernel

theorem wit_StopAndHistogramEvents_flush : ([(0, true), (0x10000, false)].all fun x =>
    let s : State := { sampling with tick := 2 ^ 40, trTail := x.1, bins := [{ die := 3, ctx := 0, va := none, cap := false, counts := [] }] }
    decide (s.flushLast + s.flushPeriod ≤ s.tick) && decide (s.trTail + 128 ≤ s.trHead.toNat + s.trSize) == x.2) = true := by decide +kernel

theorem wit_StopAndHistogramEvents_place : decide (sampling.trAddr + 0 % sampling.trSize + 128 ≤ 2 ^ 52 ∧ 0 % sampling.trSize + 128 ≤ sampling.trSize) = true := by
  decide +kernel

/-- Link 0 of the Transom, trained, with 8 or 6 of its lanes. -/
def trained (lanemap : BitVec 8) (row : Nat) (sent : BitVec 12 := 0) (queue : List Queued := []) : State :=
  { offered id with links := [{ n := 0, up := true, down := false, lanemap, crcRow := row, sent, queue }] }

/-- A flit whose bytes are all 0 but its check value. -/
def zeroFlit : List Byte := List.replicate 60 0 ++ leBytes 4 (crc32c (List.replicate 60 0)).toNat

theorem wit_LinkEvents_host : (let s : State := { offered id with link0 := true }
    s.ready && !s.dead && s.link0) = true := by decide

theorem wit_LinkEvents_lanes : (((offered id).link 0).up == false && decide (6 ≤ popcount ((offered id).link 0).lanemap)
    && ((trained 0xFF 0).link 0).up && ((trained 0xFF 0).link 0).lanemap.getLsbD 7 && decide (6 ≤ popcount (((trained 0xFF 0).link 0).lanemap &&& 0x7F))
    && ((trained 0xFF 0).link 0).unacked == 0 && ((trained 0xFC 0).link 0).lanemap.getLsbD 7
    && decide (popcount (((trained 0xFC 0).link 0).lanemap &&& 0x7F) < 6)) = true := by decide +kernel

theorem wit_LinkEvents_flit : (zeroFlit.length == 64 && crc32c (zeroFlit.take 60) == BitVec.ofNat 32 (bnat zeroFlit 60 4)
    && BitVec.ofNat 12 (bnat zeroFlit 0 4) == ((trained 0xFF 7).link 0).expect && !(trained 0xFF 7).gated
    && crc32c ((List.replicate 64 (0 : Byte)).take 60) != BitVec.ofNat 32 (bnat (List.replicate 64 0) 60 4) && ((trained 0xFF 7).link 0).crcRow == 7
    && ((trained 0xFF 0).link 0).crcRow != 7) = true := by decide +kernel

/-- Flits that wait for room in the replay buffer: one that then has it, and one that does not. -/
theorem wit_LinkEvents_queue : (let a := (trained 0xFF 0 100 [⟨2, 0, none⟩]).link 0
    let b := (trained 0xFF 0 511 [⟨2, 0, none⟩]).link 0
    decide (a.unacked + 2 ≤ 512) && decide (512 < b.unacked + 2) && a.queue.length == 1 && b.queue.length == 1) = true := by decide +kernel

/-- Header word 0x04000000 asks for a replay. -/
theorem wit_LinkEvents_replay : ((0x04000000 : Word).extractLsb' 24 4).toNat = 4 ∧ ((trained 0xFF 0 3).link 0).queue = []
    ∧ ((trained 0xFF 0 3).link 0).unacked = 3 := by decide +kernel

theorem wit_LinkEvents_gated : ({ trained 0xFF 0 with gated := true } : State).gated = true ∧ ({ trained 0xFF 0 with gated := true } : State).ready = true :=
  ⟨rfl, rfl⟩

theorem wit_LinkEvents_peer : (offered id).gated = false ∧ (offered id).podid ≠ 5 ∧ rangeOk 0x1000 8 = true
    ∧ ∃ b, readAt (offered id).poison (offered id).mem 0x1000 8 = .ok b := ⟨rfl, by decide, by decide, _, rfl⟩

/-- Package 5 is reached by link 0 alone. -/
def routed (q : List Queued) (sent : BitVec 12) : State :=
  { trained 0xFF 0 sent q with ctl := [(0x102014, 0x1001)] }

theorem wit_LinkEvents_forward : ([([], 0), ([], 512), ([⟨2, 0, none⟩], 511)].all fun x => let s := routed x.1 x.2
    let l := s.link 0
    s.podid != 5 && s.route 5 == [0] && !s.gated && (if x.1 = [] then decide (l.unacked + 1 ≤ 512) == (x.2 == 0) else decide (512 < l.unacked + 2))) = true := by
  decide +kernel

/-- Link 0 goes below 6 lanes with a request to package 5 in its queue, which link 1 reaches too, or not. -/
theorem wit_LinkEvents_moves : ([(0x1001, 0), (0x1003, 1)].all fun x =>
    let s : State := { trained 0xFC 0 511 [⟨2, 2 ^ 55 + 2 ^ 44 * 5, none⟩] with ctl := [(0x102014, BitVec.ofNat 64 x.1)] }
    let s : State := { s with links := s.links ++ [{ n := 1, up := true, down := false, lanemap := 0xFF }] }
    ((s.route 5).filter (· != 0)).length == x.2 && decide (popcount ((s.link 0).lanemap &&& 0x7F) < 6) && (s.link 1).queue == []
      && ((s.link 0).queue.all fun q => q.req == none && q.pa / 2 ^ 44 % 2 ^ 10 == 5)) = true := by decide +kernel

theorem wit_PackageEvents_quads : (∀ die < 4, 40 ≤ ((List.range 42).filter fun q => !State.reset.repair.contains (die, q)).length)
    ∧ ∃ die < 4, min 40 (((List.range 42).filter fun q => !([(2, 0), (2, 1), (2, 41)] : List (Nat × Nat)).contains (die, q)).length) < 40 :=
  ⟨by decide, 2, by decide, by decide⟩

theorem wit_PackageEvents_row : (let s : State := { State.reset with rowEvents := List.replicate 17 (0, 3, 7, 9) }
    decide (16 < (s.rowEvents.filter fun e => decide (s.tick < e.1 + 86400 * 1100000000) && e.2 == (3, 7, 9)).length)) = true := by decide

theorem wit_PackageEvents_strike : ([(2, false), (0, true)].all fun x => let s := onL (inStage .issue id) fun p => { p with mode := x.1, idem := x.2 }
    s.ready && (s.wenv? 2).any fun e => e.w.place.isSome && !s.replayedOut e.t e.l && (if x.1 = 0 then e.l.p.idem else !e.t.direct)) = true := by decide +kernel

theorem wit_PackageEvents_poisoned : ([1, 3, 4, 5].all fun src => let s := onL (inStage .issue id) fun p => { p with mode := 2 }
    (s.wenv? 2).any fun e => !((if src = 3 ∨ src = 4 ∨ src = 5 then s.poisonLine 0x10000 else s).replayedOut e.t e.l) && localOk 0x10000) = true := by
  decide +kernel

/-- A line that struck the team stays poisoned, or has been rewritten since; and limits reached. -/
theorem wit_PackageEvents_line : ([([0x10000 / 128], true), ([], false)].all fun x =>
      let s : State := { onL (inStage .issue id) fun p => { p with mode := 2 } with poison := x.1 }
      let s : State := { s with launches := s.launches.map fun l => { l with struck := [(0, 0x10000 / 128)] } }
      (s.wenv? 2).any fun e => localOk 0x10000 && s.poison.contains (0x10000 / 128) == x.2 && !(s.poisonLine 0x10000).replayedOut e.t e.l)
    && ((onT (inStage .issue id) fun t => { t with replays := 2 }).wenv? 2).any (fun e => decide (2 ≤ e.t.replays) && e.w.stage == .issue) = true := by
  decide +kernel

theorem wit_PackageEvents_trap : (let s := inStage .issue id
    s.ready && !s.dead && (s.wenv? 2).any fun e => e.w.place.isSome && e.w.stage == .issue) = true := by decide +kernel

theorem wit_PackageEvents_peer : (let s := onT (inStage .ready id) fun t => { t with cmds := [{ waitingCmd with fault := none, peer := some { due := 0, link := 0 } }] }
    s.running && s.waves.all (fun w => w.stalls.isEmpty) && s.cores.all (fun k => k.mtx.isEmpty) && s.copies.isEmpty && s.launches.all (fun l => !s.past l.peer)
    && s.queues.isEmpty && s.teams.all fun t => t.cmds.all fun c => c.install == none && s.past c.peer) = true := by decide +kernel

theorem wit_PackageEvents_packet : (let s : State := { offered id with queues := (offered id).queues.map fun q => { q with
      pkts := q.pkts.map fun p => { p with peer := some { due := 0, link := 0 } } } }
    s.running && match s.queues with | [q] => q.peer == none && q.pkts.all (fun p => s.past p.peer) && s.teams.isEmpty | _ => false) = true := by decide +kernel

end Sys2Proof.Tests
end

section
/-! SUPPORT. Every step keeps memory's canonical form (R2, O4): one lemma `State.Inv.f` for each function `f` of the model that gives a
state, in the model's order. -/

-- The many short proofs below, elaborated at once, would each hold a thread while they wait for the same equations of the model.
set_option Elab.async false

/-! ## Every step keeps memory's canonical form (R2): stores and the other operations of the state -/

namespace Sys2Proof.Machine

section
variable {s t : State}

/-- The form speaks of memory alone: a state with the same memory has it too. -/
theorem State.Inv.frame (h : s.Inv) (e : t.mem = s.mem := by rfl) : t.Inv := by
  unfold State.Inv at *
  rw [e]
  exact h

theorem State.Inv.putWave (h : s.Inv) {x} : (s.putWave x).Inv := h
theorem State.Inv.putTeam (h : s.Inv) {x} : (s.putTeam x).Inv := h
theorem State.Inv.putLaunch (h : s.Inv) {x} : (s.putLaunch x).Inv := h
theorem State.Inv.putCtx (h : s.Inv) {x} : (s.putCtx x).Inv := h
theorem State.Inv.putQueue (h : s.Inv) {x} : (s.putQueue x).Inv := h
theorem State.Inv.putCore (h : s.Inv) {x} : (s.putCore x).Inv := h
theorem State.Inv.putQuad (h : s.Inv) {x} : (s.putQuad x).Inv := h
theorem State.Inv.putLink (h : s.Inv) {x} : (s.putLink x).Inv := h
theorem State.Inv.out (h : s.Inv) {x} : (s.out x).Inv := h
theorem State.Inv.report (h : s.Inv) {x} : (s.report x).Inv := h
theorem State.Inv.newKey (h : s.Inv) : s.newKey.2.Inv := h
theorem State.Inv.reportWave (h : s.Inv) {w kind access code addr} : (s.reportWave w kind access code addr).Inv := h

/-- Both branches of a choice have the form. -/
theorem State.Inv.ite {c : Prop} [Decidable c] (h : s.Inv) (h' : t.Inv) : (if c then s else t).Inv := by
  split
  · exact h
  · exact h'

/-- A fold of steps that keep the form keeps it. -/
theorem State.Inv.foldl {α : Type} {f : State → α → State} (hf : ∀ s a, s.Inv → (f s a).Inv) (l : List α) (h : s.Inv) :
    (l.foldl f s).Inv :=
  List.foldlRecOn l f h fun s hs a _ => hf s a hs

/-! ### Stores -/

theorem State.Inv.storeWith (h : s.Inv) {who pa bytes cmp more written} : (s.storeWith who pa bytes cmp more written).Inv :=
  mput_wf _ _ _ h

theorem State.Inv.storeAs (h : s.Inv) {ev who pa bytes cmp} : (s.storeAs ev who pa bytes cmp).Inv := h.storeWith

theorem State.Inv.store (h : s.Inv) {who pa bytes cmp} : (s.store who pa bytes cmp).Inv := h.storeWith

theorem State.Inv.note (h : s.Inv) {ev places} : (s.note ev places).Inv := h.foldl (fun _ _ h => h.frame) _

/-! ### Writes that change places (R166, R362) -/

theorem stand_wf (a : Nat) (v : Byte) (m : List Host.Cell) (l : List Write) (h : Memory.wf m = true) :
    Memory.wf (stand a v m l).2 = true := by
  induction l with
  | nil => exact cwf_cset m a v h
  | cons y t ih =>
    unfold stand
    split
    · exact h
    · exact ih

theorem Pair.swap_wf (p : Pair) (h : Memory.wf p.m = true) : Memory.wf p.swap.m = true := by
  refine List.foldlRecOn _ _ (motive := fun q : Pair => Memory.wf q.m = true) h fun q hq a _ => ?_
  split
  · exact stand_wf _ _ _ _ hq
  · exact hq

theorem sink_wf (d : Nat) (x : Write) (later : List Write) (m : List Host.Cell) (l : List Write) {r}
    (h : Memory.wf m = true) (hr : sink d x later m l = some r) : Memory.wf r.2.2.2 = true := by
  induction l generalizing x later m with
  | nil => cases hr
  | cons e t ih =>
    unfold sink at hr
    split at hr
    · exact ih _ _ _ h hr
    · split at hr
      · have hp := Pair.swap_wf { e, x, later, m } h
        simp only at hr
        split at hr
        · rename_i r' hs
          cases hr
          exact ih _ _ _ hp hs
        · cases hr
          exact hp
      · cases hr

theorem placeWrites_wf (d fuel : Nat) (done l : List Write) (m : List Host.Cell) (h : Memory.wf m = true) :
    Memory.wf (placeWrites d fuel done l m).2 = true := by
  induction fuel generalizing done l m with
  | zero => exact h
  | succ n ih =>
    cases l with
    | nil => exact h
    | cons x t =>
      unfold placeWrites
      split
      · exact ih _ _ _ h
      · rename_i hs
        refine ih _ _ _ ?_
        split at hs
        · cases hs
        · exact sink_wf _ _ _ _ _ h hs

theorem State.Inv.settleWrites (h : s.Inv) : s.settleWrites.Inv := by
  unfold State.settleWrites
  split
  · exact h
  · exact placeWrites_wf _ _ _ _ _ h

/-! ### Links, translations and lines -/

theorem State.Inv.push (h : s.Inv) {l q} : (s.push l q).Inv :=
  h.putLink.foldl (fun _ _ h => h.out) _

theorem State.Inv.sendFlits (h : s.Inv) {pas} : (s.sendFlits pas).Inv := by
  refine h.foldl (fun s pa h => ?_) _
  split
  · split
    · exact h.push
    · exact h
  · exact h

theorem State.Inv.fillTlb (h : s.Inv) {c vas} : (s.fillTlb c vas).Inv := by
  unfold State.fillTlb
  split
  · exact h
  · refine h.foldl (fun s va h => ?_) _
    split
    · exact h
    · split
      · split
        · exact h
        · exact h.frame
      · exact h

theorem State.Inv.fenced (h : s.Inv) {w obs names} : (s.fenced w obs names).1.Inv := by
  unfold State.fenced
  split
  · exact h
  · exact h.frame

end
end Sys2Proof.Machine

/-! ## Every step keeps memory's canonical form (R2): effects that fall due, traps and errors -/

namespace Sys2Proof.Machine

section
variable {s t : State}

/-- What holds of a pair's first component holds of it once the pair is known. -/
theorem of_fst {α β : Type} {P : α → Prop} {p : α × β} {a : α} {b : β} (h : P p.1) (e : p = (a, b)) : P a := by
  subst e
  exact h

theorem State.Inv.fst {α : Type} {p : State × α} {a : α} (h : p.1.Inv) (e : p = (s, a)) : s.Inv := of_fst h e

theorem State.Inv.snd {α : Type} {p : α × State} {a : α} (h : p.2.Inv) (e : p = (a, s)) : s.Inv := by
  subst e
  exact h

/-! ### Records, teams that stop early -/

theorem State.Inv.toHost (h : s.Inv) {a b} : (s.toHost a b).Inv := by
  unfold State.toHost
  split
  · exact h.store
  · exact h

theorem State.Inv.trace (h : s.Inv) {src kind en ctx payload more} : (s.trace src kind en ctx payload more).Inv := by
  unfold State.trace
  split
  · exact h
  extract_lets x put re delta head ws line s₁
  have h₁ : s₁.Inv := h.toHost
  split
  · exact h.frame
  · exact h₁.frame

theorem State.Inv.freeRecord (h : s.Inv) {t} : (s.freeRecord t).Inv := by
  unfold State.freeRecord
  split
  · exact h.store
  · exact h

theorem State.Inv.dropTeam (h : s.Inv) {t} : (s.dropTeam t).Inv := h.freeRecord.frame

theorem State.Inv.syncThreshold (h : s.Inv) {l tix} : (s.syncThreshold l tix).Inv := by
  unfold State.syncThreshold
  split
  · exact h.trace
  · exact h

theorem State.Inv.voidTeam (h : s.Inv) {t} : (s.voidTeam t).Inv := by
  unfold State.voidTeam
  split
  · exact h.dropTeam
  extract_lets s₁
  have h₁ : s₁.Inv := by
    unfold s₁
    split
    · exact h.trace
    · exact h
  exact h₁.dropTeam.syncThreshold.putLaunch

/-! ### Effects falling due -/

theorem State.Inv.freeLatch (h : s.Inv) {w} : (s.freeLatch w).1.Inv := by
  unfold State.freeLatch
  split
  · exact h
  extract_lets
  split
  · split
    · exact h.putTeam
    · exact h.putTeam.putWave
  · exact h

theorem State.Inv.landW (h : s.Inv) {w due n} : (s.landW w due n).Inv := by
  unfold State.landW
  split
  · exact h.putTeam
  · exact h

theorem State.Inv.landLocal (h : s.Inv) {w due e} (he : e.local = true) : (landEff s w due e).1.Inv := by
  rw [landEff_local s w due e he]
  exact h

theorem State.Inv.landCsrw (h : s.Inv) {w due n x} : (landEff s w due (.csrw n x)).1.Inv := by
  unfold landEff
  dsimp only
  split
  · split
    · exact h.putTeam
    · exact h
  · split
    · exact h.store
    · exact h

theorem State.Inv.landEff (h : s.Inv) {w due e} : (landEff s w due e).1.Inv := by
  cases e with
  | wreg => exact h.landW
  | amaxTake d =>
    cases d with
    | w => exact h.landW
    | _ => exact h.landLocal rfl
  | tclr =>
    unfold Machine.landEff
    dsimp only
    split
    · exact h.putTeam
    · exact h
  | lrel => exact h.freeLatch
  | csrw => exact h.landCsrw
  | _ => exact h.landLocal rfl

theorem State.Inv.foldPair {α β : Type} {f : State × β → α → State × β} (hf : ∀ p a, p.1.Inv → (f p a).1.Inv) (l : List α) {b : β}
    (h : s.Inv) : (l.foldl f (s, b)).1.Inv :=
  List.foldlRecOn l f (motive := fun p => p.1.Inv) h fun p hp a _ => hf p a hp

theorem State.Inv.land (h : s.Inv) {w q} : (s.land w q).1.Inv := by
  refine h.foldPair (fun p e hp => ?_) _
  split
  · exact hp.foldPair (fun p a hp => hp.landEff) _
  · exact hp

theorem State.Inv.flush (h : s.Inv) {w} : (s.flush w).1.Inv := h.land

theorem State.Inv.traceTrap (h : s.Inv) {w ctx cause} : (s.traceTrap w ctx cause).Inv := h.trace

/-! ### Waves put back, traps and errors -/

theorem State.Inv.settle (h : s.Inv) {w} : (s.settle w).Inv := by
  unfold State.settle
  extract_lets
  split
  · exact h.putWave.putCore
  · exact h.putWave

theorem State.Inv.takeTrap (h : s.Inv) {w tr} : (s.takeTrap w tr).Inv := by
  unfold State.takeTrap
  split
  · exact h
  split
  · exact h
  split
  rename_i s₁ w₁ e
  extract_lets checked s₂ s₃ t₁
  have h₃ : s₃.Inv := (h.flush.fst e).store.traceTrap
  split
  · exact h₃.reportWave.voidTeam
  split
  · exact h₃.settle
  · exact h₃.reportWave.voidTeam

theorem State.Inv.raise (h : s.Inv) {w tr} : (s.raise w tr).Inv := by
  unfold State.raise
  extract_lets
  split
  · exact h.putWave
  · exact h.takeTrap

theorem State.Inv.strike (h : s.Inv) {w src line tr own} : (s.strike w src line tr own).Inv := by
  unfold State.strike
  split
  · exact h
  split
  · exact h
  split
  · exact h.raise
  extract_lets s₁ out code l s₂ s₃ s₄
  have h₁ : s₁.Inv := h.frame
  have h₃ : s₃.Inv := h₁.reportWave.putLaunch
  have h₄ : s₄.Inv := h₃.frame
  split
  · exact h₁.dropTeam.putLaunch
  split
  · exact h₁.dropTeam.putLaunch
  split
  · exact h₄.raise
  · exact h₄

end
end Sys2Proof.Machine

/-! ## Every step keeps memory's canonical form (R2): the issue of an instruction -/

namespace Sys2Proof.Machine

section
variable {s t : State} {e : Env}

/-! ### Fetches, the split table, the end of a clause -/

theorem State.Inv.waitPage (h : s.Inv) {c host va mk} : (s.waitPage c host va mk).2.Inv := by
  unfold State.waitPage
  split
  · exact h
  split
  rename_i k s₁ e
  have h₁ := h.newKey.snd e
  split
  · extract_lets r s₂
    have h₂ : s₂.Inv := h₁.frame
    exact .ite h₂.out h₂
  · exact h₁.report

theorem State.Inv.fetchFault (h : s.Inv) {c w e img tr reason} : (s.fetchFault c w e img tr reason).Inv := by
  unfold State.fetchFault
  split
  extract_lets
  split
  · exact h.raise
  · exact h.strike
  · split
    · exact h.raise
    · split
      rename_i e'
      exact (h.waitPage.snd e').putWave

theorem State.Inv.spill (h : s.Inv) {w} (n : Nat) : (s.spill w n).1.Inv := by
  induction n generalizing s w with
  | zero => exact h
  | succ n ih =>
    unfold State.spill
    split
    · exact h
    · exact ih h.store

theorem State.Inv.fitTable (h : s.Inv) {w} : (s.fitTable w).1.Inv := h.spill _

theorem State.Inv.enterCall (h : s.Inv) {c w k} : (s.enterCall c w k).Inv := by
  unfold State.enterCall
  split
  · exact h.fetchFault
  · exact h.store.settle

theorem State.Inv.endClause (h : s.Inv) {c w} : (s.endClause c w).Inv := by
  unfold State.endClause
  split
  rename_i s₁ w₁ e
  have h₁ := h.flush.fst e
  split
  · exact h₁.enterCall
  split
  · exact h₁
  split
  · exact h₁.settle
  · exact h₁.settle

theorem State.Inv.advance (h : s.Inv) {c w} : (s.advance c w).Inv := by
  unfold State.advance
  extract_lets q
  split
  rename_i s₁ w₁ e
  have h₁ := h.land.fst e
  extract_lets
  split
  · exact h₁.settle
  split
  · exact h₁.endClause
  · exact h₁.settle

/-! ### Issue -/

theorem State.Inv.trap (h : e.s.Inv) {t} : (e.trap t).Inv := h.raise

theorem State.Inv.retire (h : e.s.Inv) {p} : (e.retire p).Inv := h.advance

theorem State.Inv.fixed (h : e.s.Inv) {lat writes effs} : (e.fixed lat writes effs).Inv := h.retire

theorem State.Inv.hold (h : e.s.Inv) {reason} : (e.hold reason).Inv := by
  unfold Env.hold
  extract_lets
  split
  · exact h.putWave
  · exact h.putWave.putCore

/-- What a gate lets through stands in the state that it looked at. -/
def Gate.at (s : State) : Gate → Prop
  | .none => True
  | .trap e _ => e.s = s
  | .skip e => e.s = s
  | .go e => e.s = s

theorem gate_at (p : Spec) (s : State) : (gate p s).at s := by
  unfold gate
  split
  · trivial
  rename_i e he
  have hs := (State.env_found he).state
  extract_lets
  split
  · exact hs
  split
  · exact hs
  split
  · exact hs
  split
  · exact hs
  split
  · exact hs
  split
  · exact hs
  · exact hs

/-- An outcome keeps the form: the state that it goes on to has it. -/
def Keeps : Host.Outcome State Fault Refusal → Prop
  | .next t => t.Inv
  | _ => True

theorem Keeps.ite {c : Prop} [Decidable c] {a b : Host.Outcome State Fault Refusal} (ha : Keeps a) (hb : Keeps b) :
    Keeps (if c then a else b) := by
  split
  · exact ha
  · exact hb

theorem State.Inv.run (h : s.Inv) {p : Spec} {act : Env → State} (ha : ∀ e, e.s.Inv → (act e).Inv) : Keeps (run p act s) := by
  have hg := gate_at p s
  unfold Machine.run
  split
  · trivial
  all_goals
    rename_i e
    rw [e] at hg
    obtain rfl := hg
  · exact h.trap
  · exact h.retire
  · exact ha _ h

theorem State.Inv.regOp (h : s.Inv) {p : Spec} {body : Env → Res} : Keeps (regOp p body s) := by
  refine h.run fun e h => ?_
  split
  · exact h.fixed
  · exact h.trap
  · exact h.hold
  · exact h.strike

end
end Sys2Proof.Machine

/-! ## Every step keeps memory's canonical form (R2): accesses and logs -/

namespace Sys2Proof.Machine

section
variable {s t : State} {e : Env} {a : Actor}

/-! ### Logs -/

theorem State.Inv.addLog (h : s.Inv) {key es} : (s.addLog key es).Inv := by
  unfold State.addLog
  split
  · split
    · exact h
    · exact h.frame
  · exact h

theorem State.Inv.storeUnit (h : s.Inv) {ev id p b cmp} : (s.storeUnit ev id p b cmp).Inv := h.storeWith

theorem State.Inv.perform (h : s.Inv) {ev} {l : LogE} : (l.perform ev s).Inv := by
  cases l with
  | write => exact h.foldl (fun _ _ h => h.storeUnit) _
  | atomic => exact h.storeUnit

theorem State.Inv.applyEntry (h : s.Inv) {t ev} {l : LogE} : (s.applyEntry t ev l).Inv := by
  unfold State.applyEntry
  extract_lets s₀ s₁
  have h₀ : s₀.Inv := h.sendFlits
  have h₁ : s₁.Inv := h₀.frame
  split
  · exact h₁.perform
  extract_lets done
  have hd : done.Inv := .ite h₁.perform h₁
  split
  · split
    · exact hd.putWave
    · exact hd.putTeam.strike
  · exact hd.frame

theorem State.Inv.performLog (h : s.Inv) {t known} (l : List LogE) : (s.performLog t known l).Inv := by
  induction l generalizing s known with
  | nil =>
    unfold State.performLog
    exact h
  | cons x l ih =>
    unfold State.performLog
    exact ih h.applyEntry

theorem State.Inv.teamKnows (h : s.Inv) {t} : (s.teamKnows t).Inv := .ite h h.frame

theorem State.Inv.applyLog (h : s.Inv) {t} : (s.applyLog t).Inv := (h.performLog _).teamKnows.putTeam

theorem State.Inv.goDirect (h : s.Inv) {t} : (s.goDirect t).Inv := (h.performLog _).teamKnows.putTeam

/-! ### Quad stops and watchpoints -/

theorem State.Inv.quadStop (h : s.Inv) {g kind num pos slot path addr ctx} :
    (s.quadStop g kind num pos slot path addr ctx).Inv := by
  unfold State.quadStop
  extract_lets q
  split
  · exact h.putQuad
  · exact h.putQuad.trace

theorem State.Inv.watch (h : s.Inv) {core slot path ctx l} : (s.watch core slot path ctx l).1.Inv := by
  unfold State.watch
  extract_lets g
  split
  · exact h
  · refine h.foldPair (fun p n hp => ?_) _
    split
    · exact hp
    · extract_lets q s₁ far
      split
      · exact hp.putQuad
      · exact hp.putQuad.quadStop

/-! ### Accesses -/

theorem State.Inv.put {x : Stored} (h : x.s.Inv) {space ps b atomic} : (a.put x space ps b atomic).s.Inv := by
  unfold Actor.put
  extract_lets l
  split
  · exact h
  · exact h.foldl (fun _ _ h => h.storeAs) _

/-- What an operation that may fault goes on to has the form. -/
def Ok {ε α : Type} (f : α → State) : Except ε α → Prop
  | .ok x => (f x).Inv
  | .error _ => True

theorem Ok.of_eq {ε α : Type} {f : α → State} {r : Except ε α} {x : α} (h : Ok f r) (e : r = .ok x) : (f x).Inv := by
  subst e
  exact h

theorem State.Inv.stc (h : s.Inv) {key lane vals answers} : Ok Prod.fst (a.stc s key lane vals answers) := by
  unfold Actor.stc
  split
  · exact h
  extract_lets k clear go
  have hclear (s : State) (h : s.Inv) : (clear s).Inv := by
    unfold clear
    split
    · exact h.putWave
    · exact h
  have hgo : Ok id go := by
    refine List.foldlRecOn (motive := Ok id) _ _ h fun r hr p _ => ?_
    split
    · trivial
    · split
      · trivial
      · exact State.Inv.put (x := ⟨_, []⟩) hr
  split
  · exact hclear s h
  split
  · exact hclear s h
  split
  · exact hclear s h
  clear_value go
  split
  · trivial
  · exact hclear _ hgo

theorem State.Inv.access {x : Stored} (h : x.s.Inv) {op q answers} : Ok (·.x.s) (a.access x op q answers) := by
  unfold Actor.access
  extract_lets s done plain
  split
  · split
    · trivial
    · rename_i e
      exact h.stc.of_eq e
  split
  · trivial
  split
  · exact h.put
  · exact h.put
  · split
    · trivial
    split
    · trivial
    · exact h
  · split
    · trivial
    split
    · trivial
    extract_lets old entries x₁
    have h₁ : x₁.s.Inv := by
      unfold x₁
      split
      · split
        · exact h.note
        · exact h
      · exact h.put
    split
    · exact h
    · exact h₁
  · split
    · trivial
    extract_lets pa s₁
    have h₁ : s₁.Inv := by
      unfold s₁
      split
      · exact h.putWave
      · exact h
    exact h₁
  · split
    · trivial
    · exact h

theorem State.Inv.accesses (h : s.Inv) {key op} : (a.perform key op s).x.s.Inv := by
  unfold Actor.perform
  refine List.foldlRecOn (motive := fun p : Perf => p.x.s.Inv) _ _ h fun p hp q _ => ?_
  split
  · exact hp
  split
  · exact hp
  rename_i d e
  have hd : d.x.s.Inv := hp.access.of_eq e
  dsimp only
  split
  · exact hd
  · exact hd.addLog

theorem State.Inv.behind {op p} (h : p.x.s.Inv) : (a.behind op p).Inv := by
  unfold Actor.behind
  extract_lets s₁ logs s₂ s₃
  have h₂ : s₂.Inv := h.addLog.fillTlb.sendFlits
  have h₃ : s₃.Inv := h₂.frame
  split
  · exact h₃.putWave
  · exact h₃

/-! ### Memory instructions -/

theorem State.Inv.waitDirect (h : e.s.Inv) : e.waitDirect.Inv := by
  unfold Env.waitDirect
  refine State.Inv.hold ?_
  exact h.putTeam

theorem State.Inv.stallAccs (h : s.Inv) {c key op bad via known} : (s.stallAccs c key op bad via known).Inv := by
  unfold State.stallAccs
  extract_lets groups
  refine h.foldl (fun s g h => ?_) _
  extract_lets mine op'
  split
  · exact h
  split
  · exact h.putWave
  split
  rename_i k s₁ e
  exact (h.waitPage.snd e).putWave

theorem State.Inv.afterAccs (h : s.Inv) {c key op p watch go via known} (hgo : ∀ s w, s.Inv → (go s w).Inv) :
    (s.afterAccs c key op p watch go via known).Inv := by
  unfold State.afterAccs
  extract_lets late bad waits s₁
  have h₁ : s₁.Inv := .ite h.stallAccs h
  split
  · exact h₁
  extract_lets watch
  split
  · split
    · exact h₁.raise
    · exact hgo _ _ h₁
  · split
    exact .ite h₁.strike h₁.raise

theorem State.Inv.direct (h : e.s.Inv) : e.direct.s.Inv := by
  unfold Env.direct
  split
  · exact h
  · exact h.goDirect

theorem State.Inv.ifDirect (h : e.s.Inv) {p : Prop} [Decidable p] : (if p then e.direct else e).s.Inv := by
  split
  · exact h.direct
  · exact h

theorem State.Inv.memory (h : e.s.Inv) {la srcs dsts op} : (e.memory la srcs dsts op).Inv := by
  unfold Env.memory
  split
  · exact h.hold
  split
  · exact h.waitDirect
  extract_lets e₁ p₁ e₂ a p s₁
  have h₁ : e₁.s.Inv := h.ifDirect
  have h₂ : e₂.s.Inv := h₁.ifDirect
  have hs₁ : s₁.Inv := h₂.accesses.behind
  split
  · exact h₁.waitDirect
  split
  · exact h₂
  split
  rename_i s₂ watch eq
  have hs₂ : s₂.Inv := hs₁.watch.fst eq
  split
  · exact hs₂
  · exact State.Inv.afterAccs hs₂.putWave fun _ _ h => h.advance

theorem State.Inv.reached (h : s.Inv) {c l via} : (s.reached c l via).Inv := h.fillTlb.sendFlits

theorem State.Inv.touch (h : s.Inv) {c l via} : (s.touch c l via).Inv := h.reached

theorem State.Inv.peerSend (h : s.Inv) {c need va via} : (s.peerSend c need va via).2.Inv := h.sendFlits

theorem State.Inv.retryStall (h : s.Inv) {key x} : (s.retryStall key x).Inv := by
  unfold State.retryStall
  split
  · exact h
  split
  · exact h
  split
  · extract_lets w actor full s₁ s₂ t₁ a p seen s₃
    have h₁ : s₁.Inv := h.putWave
    have h₂ : s₂.Inv := .ite h₁.goDirect h₁
    have h₃ : s₃.Inv := h₂.accesses.behind
    split
    · exact h.putWave
    split
    · exact h.putTeam.putWave
    split
    rename_i s₄ watch eq
    have h₄ : s₄.Inv := h₃.watch.fst eq
    split
    · exact h₄
    · exact State.Inv.afterAccs h₄.putWave fun _ _ h => h
  · exact h

end
end Sys2Proof.Machine

/-! ## Every step keeps memory's canonical form (R2): control, memory and asynchronous instructions -/

namespace Sys2Proof.Machine

section
variable {s t : State} {e : Env} {a : Actor}

/-! ### Control instructions -/

theorem State.Inv.execYield (h : s.Inv) {o} : Keeps (execYield o s) := h.run fun _ h => State.Inv.fixed (by exact h)

theorem State.Inv.execCalla (h : s.Inv) {o} : Keeps (execCalla o s) := h.run fun e h => by
  extract_lets va
  split
  · exact h.trap
  split
  · exact h.trap
  split
  · exact h.trap
  split
  · exact h.trap
  · exact State.Inv.fixed (by exact h)

theorem State.Inv.block (h : e.s.Inv) {x reason} : (e.block x reason).Inv := by
  unfold Env.block
  split
  rename_i s₁ w eq
  have h₁ := h.flush.fst eq
  extract_lets
  split
  · exact h₁.putWave
  · exact h₁.putWave.putCore

theorem State.Inv.execBar (h : s.Inv) {o} : Keeps (execBar o s) := h.run fun e h => by
  split
  · exact h.retire
  split
  · exact h.hold
  · exact State.Inv.block (by exact h)

theorem State.Inv.execBara (h : s.Inv) {o} : Keeps (execBara o s) := h.run fun e h => by
  split
  · exact h.hold
  · exact State.Inv.fixed (by exact h)

theorem State.Inv.execBarw (h : s.Inv) {o} : Keeps (execBarw o s) := h.run fun e h => by
  extract_lets b e₁
  split
  · exact State.Inv.retire (by exact h)
  · exact State.Inv.block (by exact h)

theorem State.Inv.execVxpd (h : s.Inv) {o} : Keeps (execVxpd o s) := h.run fun e h => by
  split
  · exact h.trap
  split
  · exact h.trap
  · exact h.hold
  split
  · exact h.hold
  split
  · exact h.trap
  extract_lets b esc rs vals fl rows zeros e₁
  split
  · exact State.Inv.trap (by exact h.putTeam)
  have h₁ : e₁.s.Inv := by
    unfold e₁
    split
    · exact h.putTeam
    · exact h
  split
  · exact h.trap
  · exact h₁.retire

/-! ### Memory instructions, fences, tag table -/

theorem State.Inv.vecMem (h : s.Inv) {slot la srcs dsts op} : Keeps (vecMem slot la srcs dsts op s) := h.run fun _ h => h.memory

theorem State.Inv.scaMem (h : s.Inv) {slot la srcs dsts op} : Keeps (scaMem slot la srcs dsts op s) := h.run fun _ h => h.memory

theorem State.Inv.vcst (h : s.Inv) {o space} : Keeps (vcst o space s) := h.run fun e h => by
  extract_lets accs
  split
  · exact h.trap
  · exact h.memory

theorem State.Inv.execVatom (h : s.Inv) {o} : Keeps (execVatom o s) := h.run fun e h => by
  split
  · exact h.trap
  · exact h.memory

theorem State.Inv.execLkclr (h : s.Inv) {o} : Keeps (execLkclr o s) := h.run fun _ h => State.Inv.retire (by exact h)

theorem State.Inv.fence (h : e.s.Inv) {obs paths} : (e.fence obs paths).Inv := by
  unfold Env.fence
  split
  · split
    rename_i s₁ w eq
    have h₁ := h.fenced.fst eq
    exact State.Inv.retire (by exact h₁)
  · exact h.hold

theorem State.Inv.long (h : e.s.Inv) {la srcs dsts effs} : (e.long la srcs dsts effs).Inv := h.retire

theorem State.Inv.execSplk (h : s.Inv) {o} : Keeps (execSplk o s) := h.run fun _ h => State.Inv.long (by exact h)

theorem State.Inv.execSpset (h : s.Inv) {o} : Keeps (execSpset o s) := h.run fun e h => by
  split
  · exact h.trap
  extract_lets x v
  split
  · exact h.hold
  split
  · exact h.trap
  · exact State.Inv.long (by exact h.putTeam)

theorem State.Inv.execSpclr (h : s.Inv) {o} : Keeps (execSpclr o s) := h.run fun e h => by
  split
  · exact h.trap
  extract_lets x
  split
  · exact h.hold
  · exact State.Inv.long (by exact h.putTeam)

theorem State.Inv.execSpget (h : s.Inv) {o} : Keeps (execSpget o s) := h.run fun e h => by
  split
  · exact h.trap
  · exact h.long

/-! ### Copies, tags and handles -/

theorem State.Inv.issueCmd (h : e.s.Inv) {cls r c watch} : (e.issueCmd cls r c watch).Inv := by
  unfold Env.issueCmd
  extract_lets g t t' src s₁ effs
  have h₁ : s₁.Inv := h.frame
  split
  · exact State.Inv.fixed (by exact h₁)
  · exact h₁.raise

theorem State.Inv.copy (h : e.s.Inv) {o dims watch} : (e.copy o dims watch).Inv := by
  unfold Env.copy
  split
  · exact h.trap
  extract_lets sa da c
  split
  · exact h.issueCmd
  split
  · exact h.trap
  · exact State.Inv.issueCmd (by exact h)

theorem State.Inv.execCpy (h : s.Inv) {o} : Keeps (execCpy o s) := h.run fun e h => by
  split
  · exact h.trap
  · exact h.hold
  · exact h.copy

theorem State.Inv.execCpyn (h : s.Inv) {o} : Keeps (execCpyn o s) := h.run fun e h => by
  split
  · exact h.trap
  · exact h.hold
  extract_lets ra pa
  split
  · exact h.trap
  split
  · exact h.trap
  split
  · exact h.strike
  split
  rename_i s₁ watch eq
  have h₁ := h.watch.fst eq
  split
  · exact State.Inv.trap (by exact h₁)
  · exact State.Inv.copy (by exact h₁)

theorem State.Inv.execCbld (h : s.Inv) {o} : Keeps (execCbld o s) := h.run fun e h => by
  split
  · exact h.trap
  split
  · exact h.trap
  · exact h.hold
  extract_lets sa
  split
  · exact h.trap
  · exact h.issueCmd

theorem State.Inv.stop (h : e.s.Inv) {r} : (e.stop r).Inv := by
  cases r with
  | trap => exact h.trap
  | wait => exact h.hold
  | ok => exact h.fixed
  | ecc => exact h.strike

theorem State.Inv.goPast (h : e.s.Inv) {x} : (e.goPast x).Inv := by
  unfold Env.goPast
  extract_lets e₁
  split
  · exact State.Inv.trap (by exact h)
  · exact State.Inv.retire (by exact h)

theorem State.Inv.tagWaitOp (h : s.Inv) {o ok w} : Keeps (tagWaitOp o ok w s) := h.run fun e h => by
  split
  · exact h.goPast
  split
  · exact h.stop
  · split
    · exact h.goPast
    · exact h.block

theorem State.Inv.execHwait (h : s.Inv) {o} : Keeps (execHwait o s) := h.run fun e h => by
  split
  · exact h.goPast
  extract_lets x
  split
  · exact h.trap
  · exact .ite h.goPast h.block

theorem State.Inv.execHcancel (h : s.Inv) {o} : Keeps (execHcancel o s) := h.run fun e h => by
  extract_lets x cmds
  split
  · exact h.trap
  split
  · exact h.fixed
  · exact State.Inv.fixed (by exact h.putTeam)

end
end Sys2Proof.Machine

/-! ## Every step keeps memory's canonical form (R2): matrix work -/

namespace Sys2Proof.Machine

section
variable {s t : State} {e : Env} {a : Actor} {m : MtxEnv}

/-! ### Generators and the issue of matrix instructions -/

theorem State.Inv.genFault (h : e.s.Inv) {g t} : (e.genFault g t).Inv := State.Inv.trap (by exact h)

theorem State.Inv.execGrd (h : s.Inv) {o} : Keeps (execGrd o s) := h.run fun e h => by
  split
  · exact h.genFault
  · exact h.fixed

theorem State.Inv.queueJob (h : e.s.Inv) {j long srcs dsts} : (e.queueJob j long srcs dsts).Inv := by
  unfold Env.queueJob
  extract_lets k src s₁ pend
  have h₁ : s₁.Inv := h.frame
  exact State.Inv.retire (by exact h₁)

theorem State.Inv.opdFault (h : e.s.Inv) {g t} : (e.opdFault g t).Inv := by
  unfold Env.opdFault
  split
  · exact h.genFault
  · exact h.trap

theorem State.Inv.takeMrp (h : e.s.Inv) : e.takeMrp.s.Inv := h

theorem State.Inv.mmaIssue (h : s.Inv) {o i} : Keeps (mmaIssue o i s) := h.run fun e h => by
  split
  · exact h.trap
  split
  · exact h.trap
  split
  · exact h.hold
  split
  · exact h.opdFault
  split
  · exact h.opdFault
  split
  · exact State.Inv.trap (by exact h.putTeam)
  · exact h.takeMrp.queueJob

theorem State.Inv.execMzero (h : s.Inv) {o} : Keeps (execMzero o s) := h.run fun e h => by
  split
  · exact h.trap
  · exact h.queueJob

theorem State.Inv.execMld (h : s.Inv) {o} : Keeps (execMld o s) := h.run fun e h => by
  split
  · exact h.trap
  split
  · exact h.trap
  · exact h.takeMrp.queueJob

theorem State.Inv.execMst (h : s.Inv) {o} : Keeps (execMst o s) := h.run fun e h => by
  split
  · exact h.trap
  split
  · exact h.trap
  · exact h.takeMrp.queueJob

theorem State.Inv.execMrstl (h : s.Inv) {o} : Keeps (execMrstl o s) := h.run fun _ h => .ite h.trap h.queueJob

theorem State.Inv.bankIssue (h : s.Inv) {slot bank srcs la j} : Keeps (bankIssue slot bank srcs la j s) := h.run fun e h => by
  split
  · exact h.trap
  split
  · exact h.trap
  · exact h.hold
  · exact h.queueJob

/-! ### What the matrix engine performs -/

theorem State.Inv.mma (h : m.s.Inv) {o zero} : (m.mma o zero).1.Inv := by
  unfold MtxEnv.mma
  extract_lets f acc k t ok
  split
  · exact h
  split
  · exact h
  split
  · exact h
  · exact h.putTeam

theorem State.Inv.mld (h : m.s.Inv) {o} : (m.mld o).1.Inv := by
  unfold MtxEnv.mld
  extract_lets f out t write all
  clear_value all
  split
  · exact h
  · exact h.putTeam

theorem State.Inv.storeRows {x : Stored} (h : x.s.Inv) {space row} (l : List Nat) : (m.storeRows space row l x).1.s.Inv := by
  induction l generalizing x with
  | nil => exact h
  | cons i is ih =>
    unfold MtxEnv.storeRows
    extract_lets b va
    split
    · exact h
    · exact ih h.put

theorem State.Inv.mst (h : m.s.Inv) {o} : (m.mst o).1.Inv := by
  unfold MtxEnv.mst
  extract_lets f t vals out all
  split
  · exact h
  split
  rename_i x bad eq
  have hx : x.s.Inv := of_fst (P := fun x => x.s.Inv) (State.Inv.storeRows (x := ⟨m.s, []⟩) h _) eq
  extract_lets es s₁ g
  have h₁ : s₁.Inv := hx.addLog
  split
  · exact h
  split
  · exact h₁
  · exact h₁

theorem State.Inv.mrstl (h : m.s.Inv) {o} : (m.mrstl o).1.Inv := by
  unfold MtxEnv.mrstl
  split
  · exact h
  split
  · exact h
  split
  · exact h
  · exact h.putWave

theorem State.Inv.mtxPerform (h : m.s.Inv) : m.perform.1.Inv := by
  unfold MtxEnv.perform
  split
  · exact h.mma
  · exact h.mma
  · exact h.putTeam
  · exact h.mld
  · exact h.mst
  · exact h.mrstl
  · exact h.putTeam
  · exact h.putTeam
  · exact h.putTeam
  · exact h

theorem State.Inv.mtxTrap (h : s.Inv) {j row tr src line} : (s.mtxTrap j row tr src line).Inv := by
  unfold State.mtxTrap
  split
  · exact h
  · exact .ite h.putCore.strike h.putCore.raise

theorem State.Inv.mtxNext (h : s.Inv) {core} : (s.mtxNext core).Inv := by
  unfold State.mtxNext
  split
  · exact h
  split
  · exact h
  split
  · exact h
  split
  case h_2 => exact h
  extract_lets wr path a put
  have hput (s : State) (j : MtxJob) (h : s.Inv) : (put s j).Inv := h.putCore
  split
  · exact h
  split
  · exact h.mtxTrap
  split
  rename_i s₁ seen r eq
  have h₁ : s₁.Inv := (State.Inv.mtxPerform (by exact h)).fst eq
  extract_lets src s₂ s₃
  have h₀ : src.Inv := h₁.touch
  have h₂ : s₂.Inv := h₀.frame
  have h₃ : s₃.Inv := by
    unfold s₃
    split
    · exact h₂
    · exact h₂.watch
  clear_value s₃
  split
  case h_1 => exact .ite h.putTeam h.goDirect
  case h_2 =>
    split
    · exact h₃.putCore
    · exact .ite h₃.putCore.putWave h₃.putCore.putWave
  case h_3 => exact h₃.mtxTrap
  case h_4 => exact h₃.mtxTrap
  case h_5 =>
    split
    split
    · exact h₃.mtxTrap
    split
    · exact h₃.mtxTrap
    split
    rename_i k s₄ eq
    exact hput _ _ (h₃.waitPage.snd eq)
  case h_6 => exact h₃.mtxTrap
  case h_7 =>
    split
    · exact h₃.mtxTrap
    · exact h₃.mtxTrap
    · exact hput _ _ h₃.peerSend
    split
    · exact h₃.mtxTrap
    split
    rename_i k s₄ eq
    exact hput _ _ (h₃.waitPage.snd eq)

end
end Sys2Proof.Machine

/-! ## Every step keeps memory's canonical form (R2): system instructions -/

namespace Sys2Proof.Machine

section
variable {s t : State} {e : Env}

theorem State.Inv.keepLine (h : s.Inv) {ctx core va b} : (s.keepLine ctx core va b).Inv := h

theorem State.Inv.icinv (h : s.Inv) {sc own} : (s.icinv sc own).Inv := h

/-! ### Return from a trap -/

theorem State.Inv.eretFetch (h : e.s.Inv) {x img} : (e.eretFetch x img).Inv := by
  cases x with
  | bad => exact h.trap
  | flt => exact h.fetchFault

theorem State.Inv.resume (h : e.s.Inv) {w cl bits cont fml} : (e.resume w cl bits cont fml).Inv := by
  unfold Env.resume
  extract_lets
  split
  · exact h.endClause
  · exact .ite h.settle h.settle

theorem State.Inv.eret (h : e.s.Inv) : e.eret.Inv := by
  unfold Env.eret
  split
  rename_i s₁ w eq
  have h₁ := h.flush.fst eq
  extract_lets e₁
  have he₁ : e₁.s.Inv := h₁
  split
  · exact he₁.eretFetch
  extract_lets img blk nblk live cur recs here place
  split
  · exact he₁.trap
  split
  · exact he₁.trap
  split
  · exact he₁.eretFetch
  split
  · exact he₁.eretFetch
  split
  · exact he₁.trap
  extract_lets w'
  clear_value here
  split
  rename_i s₂ w₂ eq
  have h₂ := h₁.fitTable.fst eq
  extract_lets e₂
  have he₂ : e₂.s.Inv := h₂
  split
  · split
    · split
      · exact he₂.eretFetch
      · exact h₂.settle
    · exact h₂.settle
  extract_lets
  split
  · exact h₂.settle
  split
  · exact he₂.eretFetch
  split
  · exact he₂.trap
  split
  · exact he₂.trap
  · exact .ite h₂.keepLine.settle (State.Inv.resume (by exact h₂.keepLine))

theorem State.Inv.execEret (h : s.Inv) {o} : Keeps (execEret o s) := h.run fun _ h => h.eret

/-! ### System, latch and Threshold instructions -/

theorem State.Inv.execSwtrap (h : s.Inv) {o} : Keeps (execSwtrap o s) := h.run fun _ h => h.trap

theorem State.Inv.execBrk (h : s.Inv) {o} : Keeps (execBrk o s) := h.run fun _ h => h.trap

theorem State.Inv.execIcinv (h : s.Inv) {o} : Keeps (execIcinv o s) := h.run fun e h => by
  split
  · exact State.Inv.retire (by exact h.icinv)
  · exact h.hold

theorem State.Inv.execPmark (h : s.Inv) {o} : Keeps (execPmark o s) := h.run fun _ h => State.Inv.fixed (by exact h.trace)

theorem State.Inv.execLacq (h : s.Inv) {o} : Keeps (execLacq o s) := h.run fun e h => by
  extract_lets x e₁
  have h₁ : e₁.s.Inv := h
  split
  · exact h₁.trap
  split
  · exact h₁.retire
  split
  · exact State.Inv.retire (by exact h₁.putTeam)
  · exact State.Inv.block (by exact h₁.putTeam)

theorem State.Inv.execLrel (h : s.Inv) {o} : Keeps (execLrel o s) := h.run fun _ h => h.fixed

theorem State.Inv.pastTicket (h : e.s.Inv) : e.pastTicket.s.Inv := h

theorem State.Inv.execTkwait (h : s.Inv) {o} : Keeps (execTkwait o s) := h.run fun e h => by
  extract_lets e₁ e₂
  have h₁ : e₁.s.Inv := h
  have h₂ : e₂.s.Inv := h₁.direct
  split
  · exact h₁.retire
  split
  · exact .ite h₂ h₂.pastTicket.retire
  · exact State.Inv.block (by exact h₁.putTeam)

theorem State.Inv.releaseTicket (h : s.Inv) {t l known} : (s.releaseTicket t l known).Inv := h.syncThreshold.putTeam.putLaunch

theorem State.Inv.execTkrel (h : s.Inv) {o} : Keeps (execTkrel o s) := h.run fun e h => by
  extract_lets e₁ e₂
  have h₁ : e₁.s.Inv := h
  have h₂ : e₂.s.Inv := h₁.direct
  split
  · exact h₁.retire
  split
  · exact .ite h₂ (State.Inv.retire (by exact h₂.pastTicket.releaseTicket))
  · exact State.Inv.block (by exact h₁.putTeam)

end
end Sys2Proof.Machine

/-! ## Every step keeps memory's canonical form (R2): the events of a wave -/

namespace Sys2Proof.Machine

section
variable {s t : State} {e : WEnv}

/-! ### Start -/

theorem State.Inv.waveEvent (h : s.Inv) {k ok act} (ha : ∀ s e, s.Inv → (act s e).Inv) : Keeps (waveEvent k ok act s) := by
  unfold Machine.waveEvent
  split
  · exact h
  · exact .ite (ha _ _ h) h

theorem State.Inv.startFault (h : s.Inv) {c w x} : (s.startFault c w x).Inv := by
  unfold State.startFault
  split
  extract_lets
  split
  · exact h.raise
  · exact h.strike
  · split
    · exact h.raise
    · split
      rename_i eq
      exact (h.waitPage.snd eq).putWave

theorem State.Inv.execWaveStart (h : s.Inv) {k} : Keeps (execWaveStart k s) := h.waveEvent fun s e h => by
  split
  · split
    · exact h.startFault
    · exact h.settle
  · split
    · exact h.startFault
    · exact h.settle

/-! ### The issue selector -/

theorem State.Inv.notStarted (h : s.Inv) {x} (ht : s.notStarted e x = some t) : t.Inv := by
  cases x with
  | err => cases ht; exact h.fetchFault
  | trap => cases ht; exact h.raise
  | wait =>
    cases ht
    split
    · exact h.putWave
    · exact h.putWave.putCore
  | no => cases ht
  | clause => cases ht

theorem State.Inv.startClause (h : s.Inv) {core cl line} : (s.startClause core e cl line).Inv := by
  unfold State.startClause
  extract_lets s₁ k s₂
  have h₁ : s₁.Inv := by
    unfold s₁
    split
    · exact h.keepLine
    · exact h
  have h₂ : s₂.Inv := h₁.putCore
  split
  · exact h₂.putWave
  split
  · split
    · exact h₂.putWave
    · exact h₂.putWave
  · exact h₂.putWave

theorem State.Inv.chosen (h : s.Inv) {core cl line} : (s.chosen core e cl line).Inv := by
  unfold State.chosen
  extract_lets va
  split
  · exact h.startClause
  · exact .ite h.quadStop.startClause h.quadStop

theorem State.Inv.troubled (h : s.Inv) {core} (ht : s.troubled core = some t) : t.Inv := by
  obtain ⟨w, _, hw⟩ := List.exists_of_findSome?_eq_some ht
  split at hw
  · obtain ⟨e, _, he⟩ := Option.bind_eq_some_iff.1 hw
    exact h.notStarted he
  · cases hw

theorem State.Inv.execClauseStart (h : s.Inv) {core} : Keeps (execClauseStart core s) := by
  unfold Machine.execClauseStart
  split
  · rename_i ht
    exact h.troubled ht
  split
  · exact h.chosen
  · exact h

/-! ### Long-latency work -/

theorem State.Inv.execLongLatencyComplete (h : s.Inv) {k} : Keeps (execLongLatencyComplete k s) := h.waveEvent fun s e h => by
  extract_lets w atEnd w' s₁
  have h₁ : s₁.Inv := .ite h h.frame
  split
  · exact h.retryStall
  · exact .ite h₁.endClause h₁.settle

theorem State.Inv.execMatrixEnginePerform (h : s.Inv) {core} : Keeps (execMatrixEnginePerform core s) := by
  unfold Machine.execMatrixEnginePerform
  exact .ite h.mtxNext h

/-! ### The vote, quantum ends, merges -/

theorem State.Inv.fillState (h : s.Inv) {ctx core img bs n first} : (s.fillState ctx core img bs n first).Inv := h.putCore

theorem State.Inv.formStates (h : s.Inv) {c core img hd bs} : Ok Prod.snd (s.formStates c core img hd bs) := by
  unfold State.formStates
  split
  · trivial
  · exact h.fillState
  · split
    · trivial
    · exact h

theorem State.Inv.form (h : s.Inv) {c w hd blk m park} : Ok Prod.snd (s.form c w hd blk m park) := by
  unfold State.form
  split
  · trivial
  rename_i eq
  split
  · trivial
  · exact h.formStates.of_eq eq

theorem State.Inv.voteFault (h : s.Inv) {x img reason} : (s.voteFault e x img reason).Inv := h.fetchFault

theorem State.Inv.vote (h : s.Inv) {f hd} : (s.vote e f hd).Inv := by
  unfold State.vote
  extract_lets w out m blk fs w'
  split
  · split
    · split
      · exact h.settle
      · exact h.voteFault
    · exact h.settle
  · split
    · exact h.voteFault
    rename_i eq
    split
    rename_i eq'
    exact ((h.form.of_eq eq).fitTable.fst eq').settle

theorem State.Inv.execVote (h : s.Inv) {k} : Keeps (execVote k s) := h.waveEvent fun s e h => by
  split
  · exact h.vote
  · exact h

theorem State.Inv.goTo (h : s.Inv) {w j} : (s.goTo w j).Inv := by
  unfold State.goTo
  split
  rename_i eq
  exact (h.fitTable.fst eq).settle

theorem State.Inv.merge (h : s.Inv) {w i hd} : (s.merge e w i hd).Inv := by
  unfold State.merge
  extract_lets m nblk
  split
  · exact h.fetchFault
  rename_i eq
  split
  rename_i eq'
  exact ((h.form.of_eq eq).fitTable.fst eq').settle

theorem State.Inv.switchFrag (h : s.Inv) {w} : (s.switchFrag e w).Inv := by
  unfold State.switchFrag
  split
  · exact h.goTo
  split
  · exact h.merge
  · exact h.settle

theorem State.Inv.execQuantumEnd (h : s.Inv) {k} : Keeps (execQuantumEnd k s) := h.waveEvent fun _ _ h =>
  .ite (.ite h.putWave h.switchFrag) h.switchFrag

theorem State.Inv.execUnpark (h : s.Inv) {k} : Keeps (execUnpark k s) := h.waveEvent fun s e h => by
  split
  · exact h
  · exact .ite (.ite h.putWave h.switchFrag) (.ite h.goTo h.putWave)

/-! ### Waits, trap entry, the end of a wave -/

theorem State.Inv.unblock (h : s.Inv) {t w i} : (s.unblock t w i).Inv := .ite h.goTo h.putWave

theorem State.Inv.execWaitSatisfied (h : s.Inv) {k f} : Keeps (execWaitSatisfied k f s) := h.waveEvent fun _ _ h => h.unblock

theorem State.Inv.execTrapEntry (h : s.Inv) {k} : Keeps (execTrapEntry k s) := h.waveEvent fun s e h => by
  split
  · exact h.takeTrap
  · exact h

theorem State.Inv.execWaveEnd (h : s.Inv) {k} : Keeps (execWaveEnd k s) := h.waveEvent fun s e h => by
  split
  rename_i eq
  exact (h.freeLatch.fst eq).settle

end
end Sys2Proof.Machine

/-! ## Every step keeps memory's canonical form (R2): the events of a team -/

namespace Sys2Proof.Machine

section
variable {s t : State}

/-! ### Barriers -/

theorem State.Inv.releaseWave (h : s.Inv) {sc known w} : (State.releaseWave sc known s w).Inv := by
  unfold State.releaseWave
  extract_lets w'
  split
  · split
    · exact h.goTo
    · exact h.putWave
  · exact h.putWave

theorem State.Inv.syncBar (h : s.Inv) {sc l unit ts} : (s.syncBar sc l unit ts).Inv := by
  unfold State.syncBar
  extract_lets ws
  clear_value ws
  split
  · exact h
  · exact h.trace

theorem State.Inv.barRelease (h : s.Inv) {sc l unit ts} : (s.barRelease sc l unit ts).Inv := by
  unfold State.barRelease
  extract_lets s₁ known
  exact (State.Inv.foldl (fun _ _ h => h.releaseWave) _ h.syncBar).putLaunch

/-! ### Pod barriers -/

theorem State.Inv.podSend (h : s.Inv) {l dst o} : (s.podSend l dst o).Inv := by
  unfold State.podSend
  extract_lets lost src s'
  have hlost (s : State) (h : s.Inv) : (lost s).Inv := h
  have h' : s'.Inv := h.frame
  exact .ite (hlost _ h) (.ite h' (hlost _ h'))

theorem State.Inv.podReleased (h : s.Inv) {launchid phase} : (s.podReleased launchid phase).Inv := by
  unfold State.podReleased
  split
  · exact h
  · exact h.barRelease

theorem State.Inv.podCheck (h : s.Inv) {launchid phase} : (s.podCheck launchid phase).Inv := by
  unfold State.podCheck
  split
  · exact h
  extract_lets ms l s₁ s₂
  have h₁ : s₁.Inv := h.frame
  have h₂ : s₂.Inv := h₁.foldl (fun _ _ h => h.podSend) _
  split
  · exact h.frame
  · exact .ite h₂.podReleased h

theorem State.Inv.podChecks (h : s.Inv) {launchid phase} : (s.podChecks launchid phase).Inv :=
  State.Inv.foldl (fun _ _ h => h.podCheck) _ h.podCheck

theorem State.Inv.podArrive (h : s.Inv) {l phase final} : (s.podArrive l phase final).Inv := by
  unfold State.podArrive
  extract_lets g a s'
  have h' : s'.Inv := h.frame
  exact .ite h'.podChecks h.podSend

theorem State.Inv.execBarrierRelease (h : s.Inv) {scope l unit} : Keeps (execBarrierRelease scope l unit s) := by
  unfold Machine.execBarrierRelease
  split
  · exact h
  exact .ite (.ite (.ite h h.putLaunch.podArrive) h.barRelease) h

theorem State.Inv.holdEvent (h : s.Inv) {i} : (s.holdEvent i).Inv := .ite h.frame h

theorem State.Inv.execPodArrival (h : s.Inv) {mem launchid phase final} : Keeps (execPodArrival mem launchid phase final s) := by
  unfold Machine.execPodArrival
  split
  · exact State.Inv.podChecks h.frame
  · exact h.holdEvent

theorem State.Inv.execPodRelease (h : s.Inv) {launchid phase} : Keeps (execPodRelease launchid phase s) :=
  .ite h.podReleased h.holdEvent

/-! ### Team ends and staging logs -/

theorem State.Inv.finishTeam (h : s.Inv) {t l} : (s.finishTeam t l).Inv := h.dropTeam.putLaunch

theorem State.Inv.queueLog (h : s.Inv) {t} : (s.queueLog t).Inv := h

theorem State.Inv.exitOrdered (h : s.Inv) {t l} : (s.exitOrdered t l).Inv := by
  unfold State.exitOrdered
  extract_lets known s₁ s₂
  have h₁ : s₁.Inv := h.goDirect
  have h₂ : s₂.Inv := .ite h₁ h₁.releaseTicket
  split
  · exact h₂
  · exact h₂.finishTeam

theorem State.Inv.execTeamEnd (h : s.Inv) {k} : Keeps (execTeamEnd k s) := by
  unfold Machine.execTeamEnd
  split
  · exact h
  split
  · exact h
  split
  · exact .ite (State.Inv.ite h.trace.exitOrdered h.trace.queueLog) (.ite h.trace.finishTeam h.trace.queueLog)
  · exact h

theorem State.Inv.execLogApply (h : s.Inv) {k} : Keeps (execLogApply k s) := by
  unfold Machine.execLogApply
  split
  · exact h
  split
  · exact h
  exact .ite h (.ite h.applyLog.finishTeam (.ite h.goDirect h))

theorem State.Inv.execTicketRelease (h : s.Inv) {k} : Keeps (execTicketRelease k s) := by
  unfold Machine.execTicketRelease
  split
  · exact h
  split
  · exact .ite h.exitOrdered h
  · exact h

end
end Sys2Proof.Machine

/-! ## Every step keeps memory's canonical form (R2): copies of a team -/

namespace Sys2Proof.Machine

section
variable {s t : State} {a : Actor}

/-! ### Copies -/

/-- The state of a step that was made has the form. -/
def Stepped.Keeps : Stepped → Prop
  | .ok s _ _ _ => s.Inv
  | .bad _ _ _ => True

theorem Stepped.Keeps.ok {r : Stepped} {es seen orig} (h : r.Keeps) (e : r = .ok s es seen orig) : s.Inv := by
  subst e
  exact h

theorem State.Inv.copyStep (h : s.Inv) {c runs answers} : (a.copyStep s c runs answers).Keeps := by
  unfold Actor.copyStep
  extract_lets m rd
  clear_value rd
  split
  · trivial
  extract_lets wr
  clear_value wr
  split
  · trivial
  extract_lets orig
  split
  · exact h
  · exact h.foldl (fun _ _ h => h.storeAs) _

theorem State.Inv.cmdFault (h : s.Inv) {cx t c f va wr} : (s.cmdFault cx t c f va wr).Inv := by
  unfold State.cmdFault
  extract_lets fail
  have hfail (s : State) (cause ecc : Nat) (h : s.Inv) : (fail s cause ecc).Inv := by
    unfold fail
    split
    · exact h.putTeam
    · exact h
  split
  · exact hfail _ _ _ h
  · extract_lets code
    split
    · exact hfail _ _ _ h
    · exact hfail _ _ _ h.strike
  · exact h.peerSend.putTeam
  · split
    · exact hfail _ _ _ h
    split
    · exact hfail _ _ _ h
    split
    rename_i eq
    exact (h.waitPage.snd eq).putTeam

theorem State.Inv.copySteps (h : s.Inv) {key tag} (k : Nat) : (s.copySteps key tag k).Inv := by
  induction k generalizing s with
  | zero => exact h
  | succ k ih =>
    unfold State.copySteps
    split
    · exact h
    split
    case h_2 => exact h
    split
    · exact h
    extract_lets total stop a
    split
    · exact h.cmdFault
    rename_i s₁ es seen orig eq
    have h₁ := h.copyStep.ok eq
    split
    · split
      · exact ih h.goDirect
      · exact h.putTeam
    extract_lets s₂ src s₃
    have h₂ : s₂.Inv := h₁.addLog
    have h₃ : s₃.Inv := h₂.touch.frame
    split
    rename_i s₄ w eq'
    have h₄ := h₃.watch.fst eq'
    split
    · exact h₄
    · exact .ite h₄.putTeam (ih h₄.putTeam)

theorem State.Inv.execCommandComplete (h : s.Inv) {t tag} : Keeps (execCommandComplete t tag s) := by
  unfold Machine.execCommandComplete
  split
  · exact h
  split
  · exact h
  split
  · exact h
  split
  · exact h.putTeam
  split
  · exact h
  · exact State.Inv.copySteps h.frame _

theorem State.Inv.execCbldComplete (h : s.Inv) {t tag} : Keeps (execCbldComplete t tag s) := by
  unfold Machine.execCbldComplete
  split
  · exact h
  split
  case h_2 => exact h
  split
  · exact h
  split
  · exact h
  extract_lets a s₁ k seen s₂
  have h₁ : s₁.Inv := h.frame
  split
  · exact h₁.cmdFault
  have h₂ : s₂.Inv := h₁.touch
  extract_lets entries y
  split
  rename_i eq
  exact h₂.putTeam.watch.fst eq

end
end Sys2Proof.Machine

/-! ## Every step keeps memory's canonical form (R2): queues, packets and launches -/

namespace Sys2Proof.Machine

section
variable {s t : State}

/-! ### Interrupts and queue errors -/

theorem State.Inv.sendMsix (h : s.Inv) {k} : (s.sendMsix k).Inv := by
  unfold State.sendMsix
  exact .ite h.out h

theorem State.Inv.msix (h : s.Inv) {a vec} : (s.msix a vec).Inv := .ite h.sendMsix h.frame

theorem State.Inv.queueError (h : s.Inv) {q code i} : (s.queueError q code i).Inv := by
  unfold State.queueError
  split
  rename_i k s₁ eq
  have h₁ := h.newKey.snd eq
  exact .ite h₁.putQueue.report h₁.putQueue.report.msix

/-! ### Accesses of packets -/

theorem State.Inv.used (h : s.Inv) {c need va n via} : (s.used c need va n via).Inv := h.reached

theorem State.Inv.putPieces (h : s.Inv) {ps b} : (s.putPieces ps b).Inv := h.foldl (fun _ _ h => h.store) _

theorem State.Inv.pkgWrite (h : s.Inv) {c va b via} : Ok id (s.pkgWrite c va b via) := by
  unfold State.pkgWrite
  split
  · trivial
  · exact h.putPieces.used

/-- The state that a fault of a packet's access leaves has the form. -/
def PktFault.Keeps : PktFault → Prop
  | .wait _ s => s.Inv
  | .peer _ s => s.Inv
  | .stop => True

theorem PktFault.Keeps.wait {r : PktFault} {k} (h : r.Keeps) (e : r = .wait k s) : s.Inv := by
  subst e
  exact h

theorem PktFault.Keeps.peer {r : PktFault} {x} (h : r.Keeps) (e : r = .peer x s) : s.Inv := by
  subst e
  exact h

theorem State.Inv.pktFault (h : s.Inv) {c queue access f va via launchid} : (s.pktFault c queue access f va via launchid).Keeps := by
  unfold State.pktFault
  split
  · exact h.peerSend
  split
  · trivial
  · split
    rename_i eq
    exact h.waitPage.snd eq

theorem State.Inv.doorbell (h : s.Inv) {q v} : (s.doorbell q v).Inv := by
  unfold State.doorbell
  split
  · exact h
  · exact .ite h (.ite h.queueError h.putQueue)

theorem State.Inv.execDoorbellWidx (h : s.Inv) {q v whole} : Keeps (execDoorbellWidx q v whole s) :=
  .ite h (.ite h h.doorbell)

/-! ### Consumption -/

theorem State.Inv.ringFault (h : s.Inv) {c q access f va} : (s.ringFault c q access f va).Inv := by
  unfold State.ringFault
  split
  · rename_i eq
    exact (h.pktFault.wait eq).putQueue
  · rename_i eq
    exact (h.pktFault.peer eq).putQueue
  · exact h.queueError

theorem State.Inv.writeBack (h : s.Inv) {c q} : (s.writeBack c q).Inv := by
  unfold State.writeBack
  split
  · split
    · exact h.ringFault
    · rename_i eq
      exact (h.pkgWrite.of_eq eq).putQueue
  · exact h.putQueue

theorem State.Inv.execPacketConsume (h : s.Inv) {q} : Keeps (execPacketConsume q s) := by
  unfold Machine.execPacketConsume
  split
  · exact h
  split
  · exact h
  extract_lets s₁ s₂
  have h₁ : s₁.Inv := h.frame
  have h₂ : s₂.Inv := h₁.used
  refine .ite h (.ite h₁.writeBack (.ite h ?_))
  split
  · exact h₁.ringFault
  split
  · exact h₂.queueError
  · exact h₂.writeBack

/-! ### Starts and ends of packets -/

theorem State.Inv.startPkt (h : s.Inv) {q p} : (s.startPkt q p).1.Inv := by
  unfold State.startPkt
  extract_lets p' q' s₁
  have h₁ : s₁.Inv := .ite h.trace h
  exact h₁.putQueue

theorem State.Inv.donePkt (h : s.Inv) {q i} : (s.donePkt q i).Inv := by
  unfold State.donePkt
  split
  · exact h
  · exact h.putQueue

theorem State.Inv.unmaskSignals (h : s.Inv) {k} : (s.unmaskSignals k).Inv :=
  h.foldl (fun _ _ h => h.foldl (fun _ _ h => h.sendMsix.donePkt) _) _

theorem State.Inv.stopPkt (h : s.Inv) {q i} : (s.stopPkt q i).Inv := by
  unfold State.stopPkt
  split
  · exact h
  · exact h.queueError

theorem State.Inv.faultPkt (h : s.Inv) {c q p access f va} : (s.faultPkt c q p access f va).Inv := by
  unfold State.faultPkt
  split
  · rename_i eq
    exact (h.pktFault.wait eq).putQueue
  · rename_i eq
    exact (h.pktFault.peer eq).putQueue
  · exact h.stopPkt

theorem State.Inv.pktFor (h : s.Inv) {q op c t x p} (e : s.pktFor q op = some (c, t, x, p)) : t.Inv := by
  unfold State.pktFor at e
  split at e
  · cases e
  split at e
  · cases e
  split at e
  · cases e
  split at e
  · cases e
    exact h
  split at e
  · split at e
    · cases e
      exact h.startPkt
    · cases e
  · cases e

theorem State.Inv.startFor (h : s.Inv) {q op c t x p} (e : s.startFor q op = some (c, t, x, p)) : t.Inv := by
  unfold State.startFor at e
  split at e
  · cases e
  split at e
  · cases e
  split at e
  · split at e
    · cases e
      exact h.startPkt
    · cases e
  · cases e

theorem State.Inv.execNopPacket (h : s.Inv) {q} : Keeps (execNopPacket q s) := by
  unfold Machine.execNopPacket
  split
  · exact h
  · rename_i eq
    exact (h.startFor eq).donePkt

theorem State.Inv.addLaunch (h : s.Inv) {ctx queue idx tt slotTime b} : (s.addLaunch ctx queue idx tt slotTime b).Inv := h

theorem State.Inv.execLaunch (h : s.Inv) {q} : Keeps (execLaunch q s) := by
  unfold Machine.execLaunch
  split
  · exact h
  · rename_i eq
    exact (h.startFor eq).addLaunch

theorem State.Inv.execCopy (h : s.Inv) {q} : Keeps (execCopy q s) := by
  unfold Machine.execCopy
  split
  · exact h
  · rename_i eq
    exact (h.startFor eq).frame

theorem State.Inv.execSignal (h : s.Inv) {q} : Keeps (execSignal q s) := by
  unfold Machine.execSignal
  split
  · exact h
  rename_i c s₁ x p eq
  have h₁ := h.pktFor eq
  extract_lets va v add s₂
  have h₂ : s₂.Inv := h₁.frame
  split
  · exact h₂.faultPkt
  split
  · exact h₂.faultPkt
  extract_lets s₃ k
  have h₃ : s₃.Inv := h₂.putPieces.used
  exact .ite h₃.donePkt (.ite h₃.sendMsix.donePkt h₃.putQueue)

theorem State.Inv.execTimestamp (h : s.Inv) {q} : Keeps (execTimestamp q s) := by
  unfold Machine.execTimestamp
  split
  · exact h
  rename_i c s₁ x p eq
  have h₁ := h.pktFor eq
  extract_lets s₂
  have h₂ : s₂.Inv := h₁.frame
  split
  · exact h₂.faultPkt
  · rename_i eq'
    exact (h₂.pkgWrite.of_eq eq').donePkt

theorem State.Inv.execWait (h : s.Inv) {q} : Keeps (execWait q s) := by
  unfold Machine.execWait
  split
  · exact h
  · rename_i eq
    exact h.startFor eq

theorem State.Inv.execWaitPoll (h : s.Inv) {q} : Keeps (execWaitPoll q s) := by
  unfold Machine.execWaitPoll
  split
  · exact h
  split
  case h_2 => exact h
  extract_lets s₁ s₂
  have h₁ : s₁.Inv := h.frame
  have h₂ : s₂.Inv := h₁.used
  split
  · exact h
  split
  · exact h₁.faultPkt
  exact .ite h₂.donePkt h₂.putQueue

theorem State.Inv.execWaitTimeout (h : s.Inv) : Keeps (execWaitTimeout s) := by
  unfold Machine.execWaitTimeout
  refine .ite h (State.Inv.foldl (fun s q h => ?_) _ h)
  split
  · exact .ite h.queueError h
  · exact h

/-! ### Package copies -/

theorem State.Inv.faultCopy (h : s.Inv) {c k access f va} : (s.faultCopy c k access f va).Inv := by
  unfold State.faultCopy
  split
  · rename_i eq
    exact (h.pktFault.wait eq).frame
  · rename_i eq
    exact (h.pktFault.peer eq).frame
  · exact State.Inv.stopPkt h.frame

theorem State.Inv.pkgSteps (h : s.Inv) {c} (m : Nat) {k} : (s.pkgSteps c k m).Inv := by
  induction m generalizing s k with
  | zero =>
    unfold State.pkgSteps
    exact h
  | succ m ih =>
    unfold State.pkgSteps
    extract_lets n
    split
    · exact h
    split
    · exact h.faultCopy
    split
    · exact h.faultCopy
    extract_lets orig s₁ s₂ k'
    have h₁ : s₁.Inv := h.putPieces.used
    have h₂ : s₂.Inv := .ite h₁ h₁.used
    exact ih h₂.frame

theorem State.Inv.execCopyPacketComplete (h : s.Inv) {q i} : Keeps (execCopyPacketComplete q i s) := by
  unfold Machine.execCopyPacketComplete
  split
  · exact h
  split
  · exact h
  extract_lets s₁
  have h₁ : s₁.Inv := h.frame
  refine .ite h (.ite (h₁.pkgSteps _) (.ite (State.Inv.donePkt h₁.frame) ?_))
  split
  · exact h₁.faultCopy
  · rename_i eq
    exact State.Inv.donePkt (h₁.pkgWrite.of_eq eq).frame

/-! ### The end of a launch -/

theorem State.Inv.dropLaunch (h : s.Inv) {l} : (s.dropLaunch l).Inv := by
  unfold State.dropLaunch
  extract_lets s₁ s₂
  have h₁ : s₁.Inv := h.frame
  have h₂ : s₂.Inv := .ite h₁.podArrive h₁
  exact h₂.frame

theorem State.Inv.endLaunch (h : s.Inv) {l} : (s.endLaunch l).Inv := by
  unfold State.endLaunch
  extract_lets s₁
  have h₁ : s₁.Inv := h.dropLaunch
  split
  · exact h₁.donePkt
  · exact h₁

theorem State.Inv.recordLost (h : s.Inv) {l} : (s.recordLost l).Inv := by
  unfold State.recordLost
  extract_lets s₁
  have h₁ : s₁.Inv := h.dropLaunch
  split
  · exact h₁.stopPkt
  · exact h₁

theorem State.Inv.execLaunchComplete (h : s.Inv) {k} : Keeps (execLaunchComplete k s) := by
  unfold Machine.execLaunchComplete
  split
  · exact h
  refine .ite h (.ite h.endLaunch ?_)
  split
  · exact h.endLaunch
  extract_lets s₁
  have h₁ : s₁.Inv := h.frame
  split
  · exact h₁.putPieces.used.endLaunch
  split
  · rename_i eq
    exact (h₁.pktFault.wait eq).putLaunch
  · rename_i eq
    exact (h₁.pktFault.peer eq).putLaunch
  · exact h₁.recordLost

theorem State.Inv.execLaunchRestart (h : s.Inv) : Keeps (execLaunchRestart s) := by
  unfold Machine.execLaunchRestart
  split
  · exact h
  · exact .ite h.putLaunch h

end
end Sys2Proof.Machine

/-! ## Every step keeps memory's canonical form (R2): placement and forced saves -/

namespace Sys2Proof.Machine

section
variable {s t : State}

theorem State.Inv.putCopy (h : s.Inv) {k} : (s.putCopy k).Inv := h

theorem State.Inv.dropCopy (h : s.Inv) {k} : (s.dropCopy k).Inv := h

/-! ### A team placed (R72, R92) -/

theorem State.Inv.newTeam (h : s.Inv) {l core tix replays f} : (s.newTeam l core tix replays f).Inv := by
  unfold State.newTeam
  extract_lets key t ws s₁
  have h₁ : s₁.Inv := h.frame
  exact h₁.trace

theorem State.Inv.lateReply (h : s.Inv) {key x} : (s.lateReply key x).Inv := by
  unfold State.lateReply
  split
  · exact h.retryStall
  · exact h.raise
  · exact h

theorem State.Inv.putArea (h : s.Inv) {c w place area} : (s.putArea c w place area).Inv :=
  State.Inv.store (.ite h.store h)

theorem State.Inv.resumeWave (h : s.Inv) {c a place w} : (s.resumeWave c a place w).Inv := by
  unfold State.resumeWave
  extract_lets s₁ w₁
  have h₁ : s₁.Inv := h.putArea
  split
  rename_i s₂ w₂ eq
  have h₂ : s₂.Inv := by
    split at eq
    · cases eq
      exact h₁.flush
    · cases eq
      exact h₁
  split
  rename_i s₃ w₃ eq₃
  have h₃ : s₃.Inv := h₂.fitTable.fst eq₃
  exact h₃.putWave.foldl (fun _ _ h => h.lateReply) _

theorem State.Inv.resumeTeam (h : s.Inv) {l core key f} : (s.resumeTeam l core key f).Inv := by
  unfold State.resumeTeam
  split
  case h_2 => exact h
  extract_lets t k ws jobs s₁ s₂ a s₃ s₄ s₅ s₆
  have h₁ : s₁.Inv := h.putCore.freeRecord
  have h₂ : s₂.Inv := h₁.store
  have h₄ : s₄.Inv := h₂.putTeam.putTeam
  have h₅ : s₅.Inv := h₄.foldl (fun _ _ h => h.resumeWave) _
  have h₆ : s₆.Inv := State.Inv.trace h₅.frame
  clear_value s₆
  split
  · exact h₆.voidTeam
  · exact h₆

theorem State.Inv.putOn (h : s.Inv) {l d core f} : (s.putOn l d core f).Inv := by
  unfold State.putOn
  extract_lets s₁ s₂
  have h₁ : s₁.Inv := by
    unfold s₁
    split
    · exact h.newTeam
    · exact h.newTeam
    · exact h.resumeTeam
  have h₂ : s₂.Inv := h₁.frame
  split
  · exact h₂
  · exact h₂.putLaunch

theorem State.Inv.placeOne (h : s.Inv) {l} (ht : s.placeOne l = some t) : t.Inv := by
  unfold State.placeOne at ht
  split at ht
  · cases ht
  · obtain ⟨x, -, rfl⟩ := Option.map_eq_some_iff.mp ht
    exact h.putOn

theorem State.Inv.placeIn (h : s.Inv) {key grp g fuel} (ht : s.placeIn key grp g fuel = some t) : t.Inv := by
  induction fuel generalizing s with
  | zero =>
    cases ht
    exact h
  | succ n ih =>
    unfold State.placeIn at ht
    split at ht
    · cases ht
    split at ht
    · cases ht
      exact h
    split at ht
    · cases ht
      exact h
    split at ht
    · cases ht
    · exact ih h.putOn ht

theorem State.Inv.placeAll (h : s.Inv) {key fuel} (ht : s.placeAll key fuel = some t) : t.Inv := by
  induction fuel generalizing s with
  | zero =>
    cases ht
    exact h
  | succ n ih =>
    unfold State.placeAll at ht
    split at ht
    · cases ht
    split at ht
    · cases ht
      exact h
    split at ht
    · split at ht
      · cases ht
      · rename_i eq
        obtain ⟨g, -, hg⟩ := List.exists_of_findSome?_eq_some eq
        exact ih (h.placeIn hg) ht
    · split at ht
      · cases ht
      · rename_i eq
        exact ih (h.placeOne eq) ht

theorem State.Inv.service (h : s.Inv) {l x} (hx : s.service l = some x) : x.1.Inv := by
  unfold State.service at hx
  split at hx
  · cases hx
  split at hx
  · obtain ⟨t, ht, rfl⟩ := Option.map_eq_some_iff.mp hx
    exact h.placeAll ht
  · obtain ⟨t, ht, rfl⟩ := Option.map_eq_some_iff.mp hx
    exact h.placeOne ht

/-! ### The arbiter (R67 to R69, R74) -/

/-- What the arbiter does next leaves the form in place. -/
def Serve.Keeps : Serve → Prop
  | .place _ s _ => s.Inv
  | _ => True

theorem State.Inv.reach (h : s.Inv) {lev l x} (hx : s.reach lev l = some x) : x.Keeps := by
  unfold State.reach at hx
  split at hx
  · cases hx
  split at hx
  · rename_i eq
    cases hx
    exact h.service eq
  · split at hx
    · cases hx
      trivial
    · cases hx

theorem State.Inv.reachQueue (h : s.Inv) {q x} (hx : s.reachQueue q = some x) : x.Keeps := by
  unfold State.reachQueue at hx
  extract_lets viaL viaC first at hx
  have hL {y} (hy : viaL = some y) : y.Keeps := by
    obtain ⟨l, -, hl⟩ := Option.bind_eq_some_iff.mp hy
    exact h.reach hl
  have hC {y} (hy : viaC = some y) : y.Keeps := by
    obtain ⟨k, -, hk⟩ := Option.bind_eq_some_iff.mp hy
    obtain ⟨e, -, rfl⟩ := Option.map_eq_some_iff.mp hk
    trivial
  clear_value viaL viaC
  split at hx
  · cases viaL with
    | some y => exact hL hx
    | none => exact hC hx
  · cases viaC with
    | some y => exact hC hx
    | none => exact hL hx

theorem State.Inv.serve7 (h : s.Inv) {fuel ls x} (hx : s.serve7 fuel ls = some x) : x.Keeps := by
  induction fuel generalizing ls with
  | zero => cases hx
  | succ n ih =>
    unfold State.serve7 at hx
    split at hx
    · cases hx
    split at hx
    · rename_i eq
      cases hx
      exact h.reach eq
    · exact ih hx

theorem State.Inv.pick (h : s.Inv) {x} (hx : s.pick = some x) : x.Keeps := by
  unfold State.pick at hx
  extract_lets tts at hx
  split at hx
  · rename_i eq
    cases hx
    exact h.serve7 eq
  · obtain ⟨lev, -, hlev⟩ := List.exists_of_findSome?_eq_some hx
    obtain ⟨q, -, hq⟩ := List.exists_of_findSome?_eq_some hlev
    exact h.reachQueue hq

theorem State.Inv.served (h : s.Inv) {q n} : (s.served q n).Inv := by
  unfold State.served
  split
  · exact h
  extract_lets s₁
  have h₁ : s₁.Inv := .ite h.frame h
  split
  · exact h₁
  · exact h₁.putQueue

theorem State.Inv.doServe (h : s.Inv) {x : Serve} (hx : x.Keeps) : (s.doServe x).Inv := by
  unfold State.doServe
  split
  · split
    · exact hx
    · exact State.Inv.served hx
  · exact h.putLaunch
  · exact State.Inv.served h.putCopy

theorem State.Inv.execArbiterServe (h : s.Inv) : Keeps (execArbiterServe s) := by
  unfold Machine.execArbiterServe
  refine .ite h ?_
  split
  · rename_i eq
    exact h.doServe (h.pick eq)
  · exact h

theorem State.Inv.execTeamPlace (h : s.Inv) {l} : Keeps (execTeamPlace l s) := by
  unfold Machine.execTeamPlace
  refine .ite h ?_
  split
  · rename_i eq
    exact .ite (h.doServe (h.pick eq)) h
  · exact h

theorem mem_of_bestBy {α : Type} {f : α → Nat × Nat} {l : List α} {x : α} (h : bestBy f l = some x) : x ∈ l := by
  induction l generalizing x with
  | nil => cases h
  | cons y t ih =>
    unfold bestBy at h
    split at h
    · cases h
      exact List.mem_cons_self
    · rename_i z hz
      cases h
      split
      · exact List.mem_cons_of_mem _ (ih hz)
      · exact List.mem_cons_self

theorem State.Inv.gangReady (h : s.Inv) {x} (hx : s.gangReady = some x) : x.2.1.Inv := by
  obtain ⟨l, -, hl⟩ := List.mem_filterMap.mp (mem_of_bestBy hx)
  obtain ⟨y, hy, rfl⟩ := Option.map_eq_some_iff.mp hl
  exact h.service hy

theorem State.Inv.execGangPlace (h : s.Inv) : Keeps (execGangPlace s) := by
  unfold Machine.execGangPlace
  refine .ite h ?_
  split
  · exact h
  · rename_i l s₁ n eq
    have h₁ : s₁.Inv := h.gangReady eq
    extract_lets s₂
    have h₂ : s₂.Inv := by
      unfold s₂
      split
      · exact h₁.putLaunch
      · exact h₁
    clear_value s₂
    split
    · exact h₂
    · exact h₂.served

theorem State.Inv.execAging (h : s.Inv) : Keeps (execAging s) := by
  unfold Machine.execAging
  exact .ite h (h.frame (t := { s with queues := _ }))

/-! ### Forced save (R88 to R91) -/

theorem State.Inv.poolUse (h : s.Inv) {c f} : (s.poolUse c f).Inv := h.store

theorem State.Inv.capture (h : s.Inv) {c l t} : (s.capture c l t).Inv := by
  unfold State.capture
  extract_lets core rc size used at_ short jobs t₁ t₂ keys s₁ k s₂ s₃ s₄ src s₅
  have h₁ : s₁.Inv := h.trace
  have h₃ : s₃.Inv := h₁.frame
  have h₄ : s₄.Inv := h₃.putTeam
  have hsrc : src.Inv := h₄.store
  have h₅ : s₅.Inv := hsrc.frame
  clear_value s₅ s₄ at_
  split
  · exact h₄.poolUse
  split
  · exact h₅.putLaunch
  · exact h₅

theorem State.Inv.saveTeam (h : s.Inv) {c l t} : (s.saveTeam c l t).Inv := by
  unfold State.saveTeam
  split
  · exact h.capture
  extract_lets s₁
  have h₁ : s₁.Inv := h.strike
  split
  · extract_lets s₂
    have h₂ : s₂.Inv := h₁.capture
    exact h₂.frame
  · exact h₁

theorem State.Inv.execDrainLimit (h : s.Inv) : Keeps (execDrainLimit s) := by
  unfold Machine.execDrainLimit
  refine .ite h (h.foldl (fun s c h => ?_) _)
  split
  · refine .ite h (h.foldl (fun s t h => ?_) _)
    split
    · exact h
    · exact .ite h.saveTeam h.putTeam
  · exact h

end
end Sys2Proof.Machine

/-! ## Every step keeps memory's canonical form (R2): the admin queue, faults and time -/

namespace Sys2Proof.Machine

section
variable {s t : State}

/-! ### Replies (R44, R59, R157) -/

theorem State.Inv.retryRest (h : s.Inv) {k} : (s.retryRest k).Inv := h

theorem State.Inv.keepReply (h : s.Inv) {key x r} : (s.keepReply key x r).Inv := by
  unfold State.keepReply
  split
  · exact h.putWave
  · exact h

theorem State.Inv.retryKey (h : s.Inv) {k} : (s.retryKey k).Inv :=
  State.Inv.retryRest (h.foldl (fun _ _ h => .ite h.keepReply h.retryStall) _)

theorem State.Inv.trapStall (h : s.Inv) {key x} : (s.trapStall key x).Inv := by
  unfold State.trapStall
  split
  · exact h
  · exact h.raise

theorem State.Inv.stopRest (h : s.Inv) {k} : (s.stopRest k).Inv := by
  unfold State.stopRest
  extract_lets s₁ s₂ s₃ s₄
  have h₁ : s₁.Inv := h.frame
  have h₂ : s₂.Inv := h₁.foldl (fun _ _ h => h.dropCopy.stopPkt) _
  have h₃ : s₃.Inv := h₂.foldl (fun _ _ h => h.recordLost) _
  have h₄ : s₄.Inv := h₃.foldl (fun _ _ h => h.foldl (fun _ _ h => h.stopPkt) _) _
  exact h₄.foldl (fun _ _ h => .ite h.queueError h) _

theorem State.Inv.trapKey (h : s.Inv) {k} : (s.trapKey k).Inv :=
  State.Inv.stopRest (h.foldl (fun _ _ h => .ite h.keepReply h.trapStall) _)

theorem State.Inv.killTeam (h : s.Inv) {t} : (s.killTeam t).Inv := .ite h.putTeam h.voidTeam

theorem State.Inv.killKey (h : s.Inv) {k} : (s.killKey k).Inv :=
  State.Inv.stopRest (h.foldl (fun _ _ h => h.killTeam) _)

theorem State.Inv.execFaultRecordWrite (h : s.Inv) : Keeps (execFaultRecordWrite s) := by
  unfold Machine.execFaultRecordWrite
  split
  · exact h
  split
  · extract_lets a s₁ x s₂
    have h₁ : s₁.Inv := h.toHost
    clear_value s₁
    have h₂ : s₂.Inv := h₁.frame
    exact h₂.msix
  · exact h

/-! ### The admin queue (R55, R56) -/

theorem State.Inv.admDone (h : s.Inv) {b code} : (s.admDone b code).Inv := by
  unfold State.admDone
  extract_lets a s₀ s₁
  have h₀ : s₀.Inv := h.toHost
  have h₁ : s₁.Inv := h₀.frame
  exact h₁.msix

/-- An admin event keeps the form when its action does. -/
theorem State.Inv.adminEvent (h : s.Inv) {op checks mine act} (ha : ∀ s b, s.Inv → (act s b : State).Inv) :
    Keeps (adminEvent op checks mine act s) := by
  unfold Machine.adminEvent
  split
  · exact h
  refine .ite h.admDone (.ite h ?_)
  split
  · exact h.admDone
  · exact .ite (ha _ _ h) h

/-- A packet that completes at once keeps the form when its effect does. -/
theorem State.Inv.adminAtOnce (h : s.Inv) {op checks mine f} (hf : ∀ s b, s.Inv → (f s b : State).Inv) :
    Keeps (Machine.adminEvent op checks mine (atOnce f) s) :=
  h.adminEvent fun s b h => (hf s b h).admDone

theorem State.Inv.execCtxCreate (h : s.Inv) : Keeps (execCtxCreate s) :=
  h.adminAtOnce fun _ _ h => State.Inv.putCtx h.store

theorem State.Inv.execCtxDestroy (h : s.Inv) : Keeps (execCtxDestroy s) :=
  h.adminAtOnce fun _ _ h => h.frame

theorem State.Inv.execQueueCreate (h : s.Inv) : Keeps (execQueueCreate s) :=
  h.adminAtOnce fun _ _ h => h.putQueue

theorem State.Inv.abortLaunches (h : s.Inv) {q} : (s.abortLaunches q).Inv := by
  refine h.foldl (fun s l h => State.Inv.putLaunch ?_) _
  exact h.foldl (fun _ _ h => h.dropTeam) _

theorem State.Inv.execQueueDestroy (h : s.Inv) : Keeps (execQueueDestroy s) := by
  unfold Machine.execQueueDestroy
  split
  · refine .ite h ?_
    split
    · exact h.admDone
    · exact .ite (State.Inv.admDone h.frame) h
  · refine h.adminEvent fun s b h => ?_
    split
    · exact h
    extract_lets abort s₁
    have h₁ : s₁.Inv := h.frame
    exact .ite h₁.abortLaunches.putQueue h₁.putQueue

theorem State.Inv.dropTlb (h : s.Inv) {c} : (s.dropTlb c).Inv := h

theorem State.Inv.execSetRange (h : s.Inv) : Keeps (execSetRange s) := by
  refine h.adminAtOnce fun s b h => ?_
  split
  · exact h
  · exact h.dropTlb.putCtx

theorem State.Inv.execSetPtbase (h : s.Inv) : Keeps (execSetPtbase s) := by
  refine h.adminAtOnce fun s b h => ?_
  split
  · exact h
  · exact h.dropTlb.putCtx

theorem State.Inv.execSetAperture (h : s.Inv) : Keeps (execSetAperture s) :=
  h.adminAtOnce fun _ _ h => h.frame

theorem State.Inv.execPreempt (h : s.Inv) : Keeps (execPreempt s) := by
  refine h.adminEvent fun s b h => ?_
  split
  · exact h
  · exact .ite h.admDone h.frame

theorem State.Inv.execPreemptResume (h : s.Inv) : Keeps (execPreemptResume s) := by
  refine h.adminAtOnce fun s b h => ?_
  split
  · exact h
  · exact h.putCtx

theorem State.Inv.execPreemptDrained (h : s.Inv) : Keeps (execPreemptDrained s) := by
  unfold Machine.execPreemptDrained
  split
  · exact h
  refine .ite h (State.Inv.admDone ?_)
  split
  · exact h.putCtx
  · exact h

/-! ### Time and the timetable (R61 to R64) -/

theorem State.Inv.setClock (h : s.Inv) {tai} : (s.setClock tai).Inv := h

theorem State.Inv.execTimeSet (h : s.Inv) : Keeps (execTimeSet s) :=
  h.adminAtOnce fun _ _ h => h.setClock

theorem State.Inv.execTimeOffset (h : s.Inv) : Keeps (execTimeOffset s) :=
  h.adminAtOnce fun _ _ h => h.setClock

theorem State.Inv.execTimeRate (h : s.Inv) : Keeps (execTimeRate s) :=
  h.adminAtOnce fun _ _ h => h.frame

theorem State.Inv.execSetAtPps (h : s.Inv) : Keeps (execSetAtPps s) :=
  h.adminEvent fun _ _ h => h.frame

theorem State.Inv.execPpsEdge (h : s.Inv) : Keeps (execPpsEdge s) := by
  unfold Machine.execPpsEdge
  extract_lets s₁
  have h₁ : s₁.Inv := by
    unfold s₁
    split
    · exact State.Inv.admDone h.frame
    · exact h
  exact .ite h h₁.frame

theorem State.Inv.execTimetableSet (h : s.Inv) : Keeps (execTimetableSet s) :=
  h.adminAtOnce fun _ _ h => h.frame

theorem State.Inv.fire (h : s.Inv) {e slot late} : (s.fire e slot late).Inv := by
  unfold State.fire
  extract_lets drop
  have hdrop {code ctx} : (drop s code ctx).Inv := h.frame
  clear_value drop
  split
  · exact hdrop
  split
  · exact hdrop
  split
  · exact hdrop
  · extract_lets s₁
    have h₁ : s₁.Inv := h.addLaunch
    exact h₁.frame

theorem State.Inv.skipSlots (h : s.Inv) : s.skipSlots.Inv :=
  h.foldl (fun _ _ h => .ite h.frame h) _

theorem State.Inv.execTimetableSlot (h : s.Inv) : Keeps (execTimetableSlot s) := by
  unfold Machine.execTimetableSlot
  extract_lets now put
  have hput (x) : (put s x).Inv := h.frame
  clear_value put
  split
  · exact h
  refine .ite (State.Inv.ite h.skipSlots h) ?_
  exact .ite (.ite (hput _) (State.Inv.frame (hput _))) (State.Inv.fire (hput _))

theorem State.Inv.execTimetableDeferredStart (h : s.Inv) : Keeps (execTimetableDeferredStart s) := by
  unfold Machine.execTimetableDeferredStart
  split
  · exact h
  · exact .ite h.fire h

/-! ### Caches, trace and fault replies (R56, R59, R206, R213) -/

theorem State.Inv.execIcinvBroadcast (h : s.Inv) : Keeps (execIcinvBroadcast s) :=
  h.adminAtOnce fun _ _ h => h.icinv

theorem State.Inv.execTraceConfig (h : s.Inv) : Keeps (execTraceConfig s) :=
  h.adminAtOnce fun _ _ h => h.frame

/-- A reply keeps the form when its action does. -/
theorem State.Inv.reply (h : s.Inv) {b act} (ha : ∀ s x, s.Inv → (act s x : State).Inv) : (s.reply b act).Inv := by
  unfold State.reply
  split
  · exact h
  · exact ha _ _ h.frame

theorem State.Inv.execRetry (h : s.Inv) : Keeps (execRetry s) :=
  h.adminAtOnce fun _ _ h => h.reply fun _ _ h => h.retryKey

theorem State.Inv.execFaultReplyTrap (h : s.Inv) : Keeps (execFaultReplyTrap s) :=
  h.adminAtOnce fun _ _ h => h.reply fun _ _ h => h.trapKey

theorem State.Inv.execKill (h : s.Inv) : Keeps (execKill s) :=
  h.adminAtOnce fun _ _ h => h.reply fun _ _ h => h.killKey

theorem State.Inv.execReleaseCore (h : s.Inv) : Keeps (execReleaseCore s) :=
  h.adminAtOnce fun _ _ h => h.reply fun _ _ h => h.putCore

/-! ### ATS and PRI (R43, R44) -/

theorem State.Inv.grant (h : s.Inv) {gs} : (s.grant gs).Inv := h

theorem State.Inv.execAtsInvalidate (h : s.Inv) {fn pasid page pages grants} :
    Keeps (execAtsInvalidate fn pasid page pages grants s) := by
  unfold Machine.execAtsInvalidate
  exact .ite h (State.Inv.frame (t := State.out _ _) h)

theorem State.Inv.sendRequest (h : s.Inv) : s.sendRequest.Inv := by
  unfold State.sendRequest
  split
  · exact h
  extract_lets s₁
  have h₁ : s₁.Inv := h.frame
  refine .ite h ?_
  split
  · exact h₁.out
  · exact h₁

theorem State.Inv.execPriResponse (h : s.Inv) {ctx page code grants} : Keeps (execPriResponse ctx page code grants s) := by
  unfold Machine.execPriResponse
  split
  · exact h
  refine .ite h.holdEvent ?_
  extract_lets s₁
  have h₁ : s₁.Inv := State.Inv.sendRequest h.frame
  split
  · exact h₁.grant.retryKey
  · exact .ite h₁.trapKey (.ite h₁.report h₁)
  · exact h₁

end
end Sys2Proof.Machine

/-! ## Every step keeps memory's canonical form (R2): registers, the Shutter and debugging -/

namespace Sys2Proof.Machine

section
variable {s t : State}

/-! ### Register writes with an effect of their own (R34, R36, R37, R40, R42, R57, R64) -/

theorem State.Inv.execAdmqWidx (h : s.Inv) {v} : Keeps (execAdmqWidx v s) := State.Inv.ite h.frame h

theorem State.Inv.execLinkpairPaired (h : s.Inv) {link v} : Keeps (execLinkpairPaired link v s) :=
  State.Inv.ite h (.ite h.frame h.frame)

theorem State.Inv.execFqEnable (h : s.Inv) {v} : Keeps (execFqEnable v s) :=
  State.Inv.ite h (.ite h.frame h.frame)

theorem State.Inv.execPodidWrite (h : s.Inv) {v} : Keeps (execPodidWrite v s) := State.Inv.ite h.frame h

theorem State.Inv.execXpeertoWrite (h : s.Inv) {v} : Keeps (execXpeertoWrite v s) := State.Inv.ite h.frame h

theorem State.Inv.execXlstatClrcnt (h : s.Inv) {link} : Keeps (execXlstatClrcnt link s) := State.Inv.ite h.putLink h

theorem State.Inv.execTimetableSkipsClear (h : s.Inv) {n v} : Keeps (execTimetableSkipsClear n v s) :=
  State.Inv.ite h.frame h

/-! ### The Shutter (R201 to R203) -/

theorem State.Inv.execShutterArm (h : s.Inv) {v} : Keeps (execShutterArm v s) := State.Inv.ite h.frame h

theorem State.Inv.execShutterNow (h : s.Inv) : Keeps (execShutterNow s) := State.Inv.ite h.frame h

theorem State.Inv.execShutterGate (h : s.Inv) : Keeps (execShutterGate s) := State.Inv.ite h.frame h

theorem State.Inv.execShutterUngate (h : s.Inv) : Keeps (execShutterUngate s) := by
  unfold Machine.execShutterUngate
  extract_lets s₀ s₁
  have h₀ : s₀.Inv := h.skipSlots
  have h₁ : s₁.Inv := h₀.frame
  refine .ite h (State.Inv.foldl (fun _ _ h => h.unmaskSignals) _ ?_)
  exact h₁.foldl (fun _ _ h => h.doorbell) _

theorem State.Inv.execShutterData (h : s.Inv) : Keeps (execShutterData s) := State.Inv.ite h.frame h

/-! ### Quad stops and single steps (R209 to R212) -/

theorem State.Inv.execQctlStop (h : s.Inv) {g} : Keeps (execQctlStop g s) := State.Inv.ite h.quadStop h

theorem State.Inv.execQctlResume (h : s.Inv) {g} : Keeps (execQctlResume g s) := State.Inv.ite h.putQuad h

theorem State.Inv.stepEnds (h : s.Inv) {k w blocked} : (s.stepEnds k w blocked).Inv := h.putWave.putCore

theorem State.Inv.endSteps (h : s.Inv) : s.endSteps.Inv := by
  unfold State.endSteps
  exact .ite (h.foldl (fun _ _ h => .ite h.stepEnds h) _) h

theorem State.Inv.execDstepGo (h : s.Inv) {core} : Keeps (execDstepGo core s) := by
  unfold Machine.execDstepGo
  extract_lets k
  split
  · exact h
  · exact .ite h (.ite h.stepEnds (.ite h.stepEnds h.putWave.putCore))

/-! ### REGISTER_WRITE (R4, R5) -/

theorem State.Inv.setCtl (h : s.Inv) {off v mask} : (s.setCtl off v mask).Inv := h

theorem State.Inv.nextOr (h : s.Inv) {r} (hr : Keeps r) : (nextOr s r).Inv := by
  unfold Machine.nextOr
  split
  · exact hr
  · exact h

theorem State.Inv.writeHost (h : s.Inv) {off v} : (s.writeHost off v).Inv := by
  unfold State.writeHost
  split
  case h_3 => exact h.nextOr h.execAdmqWidx
  case h_5 => exact h.nextOr h.execFqEnable
  all_goals exact h.frame

theorem State.Inv.writeShutter (h : s.Inv) {v} : (s.writeShutter v).Inv := by
  unfold State.writeShutter
  extract_lets s₁ s₂
  have h₁ : s₁.Inv := h.nextOr h.execShutterArm
  have h₂ : s₂.Inv := .ite (h₁.nextOr h₁.execShutterUngate) h₁
  exact .ite (h₂.nextOr h₂.execShutterNow) h₂

theorem State.Inv.writeCore (h : s.Inv) {c r off v} : (s.writeCore c r off v).Inv := by
  unfold State.writeCore
  extract_lets k s₁
  have h₁ : s₁.Inv := h.putCore
  exact .ite h.setCtl (.ite (.ite (h₁.nextOr h₁.execDstepGo) h₁) h)

theorem State.Inv.writeQuad (h : s.Inv) {g r off v} : (s.writeQuad g r off v).Inv := by
  unfold State.writeQuad
  extract_lets q hits m s₁
  have h₁ : s₁.Inv := .ite (h.nextOr h.execQctlStop) h
  split
  · split
    · exact h.setCtl
    · exact h.setCtl
    · exact h.setCtl
    · exact h.putQuad
    · exact h
  · exact .ite h.putQuad (.ite (.ite (h₁.nextOr h₁.execQctlResume) h₁) h)

theorem State.Inv.writeReg (h : s.Inv) {off v} : (s.writeReg off v).Inv := by
  unfold State.writeReg
  refine .ite h.writeHost (.ite (h.nextOr h.execTimetableSkipsClear) ?_)
  refine .ite (h.nextOr h.execPodidWrite) (.ite (h.nextOr h.execXpeertoWrite) ?_)
  refine .ite (.ite (h.nextOr h.execXlstatClrcnt) h) (.ite h.setCtl ?_)
  refine .ite (.ite h.setCtl (.ite h.setCtl h)) (.ite h.frame ?_)
  exact .ite h.writeShutter (.ite h.writeCore (.ite h.writeQuad h))

theorem State.Inv.execRegisterWrite (h : s.Inv) {off v} : Keeps (execRegisterWrite off v s) := State.Inv.ite h.writeReg h

/-! ### Histograms (R215) -/

theorem State.Inv.execHistSample (h : s.Inv) : Keeps (execHistSample s) := by
  unfold Machine.execHistSample
  exact .ite h (h.frame (t := { s with bins := _, histLast := _, nondet := _ }))

theorem State.Inv.ringPut (h : s.Inv) {k b} : (s.ringPut k b).Inv := by
  induction k generalizing s b with
  | zero => exact h
  | succ k ih =>
    unfold State.ringPut
    split
    · exact h
    · refine ih ?_
      extract_lets s₁
      have h₁ : s₁.Inv := h.toHost
      exact h₁.frame

theorem State.Inv.flushDie (h : s.Inv) {die} : (s.flushDie die).Inv := by
  unfold State.flushDie
  extract_lets bs sat bytes s₁
  have h₁ : s₁.Inv := h.ringPut
  exact .ite h₁.frame h.frame

theorem State.Inv.execHistFlush (h : s.Inv) : Keeps (execHistFlush s) := by
  unfold Machine.execHistFlush
  extract_lets s₁
  have h₁ : s₁.Inv := h.foldl (fun _ _ h => h.flushDie) _
  clear_value s₁
  exact .ite h (h₁.frame (t := { s₁ with flushLast := _ }))

end
end Sys2Proof.Machine

/-! ## Every step keeps memory's canonical form (R2): resets, errors, links and peers -/

namespace Sys2Proof.Machine

section
variable {s t : State}

/-! ### Resets (R10, R65, R66) -/

/-- A reset drops the scratchpads' part of memory. -/
theorem State.Inv.downed (h : s.Inv) : s.downed.Inv := cwf_filter _ _ h

theorem State.Inv.execPackageReset (h : s.Inv) : Keeps (execPackageReset s) := by
  unfold Machine.execPackageReset
  extract_lets s₁ bad ok s₂
  have h₁ : s₁.Inv := h.downed
  have h₂ : s₂.Inv := h₁.frame
  exact State.Inv.foldl (fun _ _ h => h.out) _ (h₂.foldl (fun _ _ h => h.out) _)

theorem State.Inv.execWicketPackageReset (h : s.Inv) : Keeps (execWicketPackageReset s) := h.downed

theorem State.Inv.execModuleReset (h : s.Inv) : Keeps (execModuleReset s) := h.downed

/-- Page requests sent again. -/
theorem State.Inv.requestPages (h : s.Inv) {l : List PriReq} :
    (l.foldl (fun s p => match s.ctx? p.ctx with
      | some c => s.out (.pageRequest c.pasid p.page)
      | none => s) s).Inv := by
  refine h.foldl (fun s p h => ?_) _
  split
  · exact h.out
  · exact h

theorem State.Inv.resetFn (h : s.Inv) {fn} : (s.resetFn fn).Inv := by
  unfold State.resetFn
  extract_lets s₁
  have h₁ : s₁.Inv := h.frame
  exact h₁.requestPages

theorem State.Inv.execFunctionLevelReset (h : s.Inv) {link} : Keeps (execFunctionLevelReset link s) :=
  State.Inv.ite h.resetFn h

/-! ### Host links (R40, R60, R65) -/

theorem State.Inv.setUp (h : s.Inv) {link up} : (s.setUp link up).Inv := .ite h.frame h.frame

theorem State.Inv.execPcieLinkDown (h : s.Inv) {link lost} : Keeps (execPcieLinkDown link lost s) := by
  unfold Machine.execPcieLinkDown
  extract_lets again s₀ s₁ s₂
  have h₀ : s₀.Inv := h.setUp
  have h₁ : s₁.Inv := h₀.frame
  have h₂ : s₂.Inv := h₁.requestPages
  clear_value s₂
  exact .ite h (h₂.foldl (fun _ _ h => h.newKey.report) _)

theorem State.Inv.execPcieLinkUp (h : s.Inv) {link} : Keeps (execPcieLinkUp link s) := State.Inv.ite h.setUp h

theorem State.Inv.execOneLinkReset (h : s.Inv) {link} : Keeps (execOneLinkReset link s) := by
  unfold Machine.execOneLinkReset
  extract_lets s₁
  have h₁ : s₁.Inv := h.resetFn.setUp
  exact State.Inv.ite h₁.frame h

theorem State.Inv.execMsixUnmask (h : s.Inv) {fn x} : Keeps (execMsixUnmask fn x s) := by
  unfold Machine.execMsixUnmask
  extract_lets k s₁ s₂ s₃
  have h₁ : s₁.Inv := h.frame
  have h₂ : s₂.Inv := h₁.frame
  have h₃ : s₃.Inv := h₂.foldl (fun _ _ h => h.sendMsix) _
  exact .ite h (.ite h₁.frame (State.Inv.ite h₃.unmaskSignals h₃))

/-! ### Errors, repair and power (R11, R12, R23 to R27) -/

theorem State.Inv.poisonLine (h : s.Inv) {addr} : (s.poisonLine addr).Inv := .ite h.frame h

theorem State.Inv.holdCore (h : s.Inv) {w code} : (s.holdCore w code).Inv := .ite h h.newKey.putCore.report

theorem State.Inv.execUncorrectedError (h : s.Inv) {w source addr} : Keeps (execUncorrectedError w source addr s) := by
  unfold Machine.execUncorrectedError
  split
  · exact h
  extract_lets line s₁ s₂
  have h₁ : s₁.Inv := .ite h.poisonLine h
  have h₂ : s₂.Inv := .ite h₁.holdCore h₁
  exact .ite h (.ite h₂.putWave h₂.strike)

theorem State.Inv.execRowRetire (h : s.Inv) {die bank row} : Keeps (execRowRetire die bank row s) := by
  unfold Machine.execRowRetire
  extract_lets used s₁
  have h₁ : s₁.Inv := h.frame
  exact .ite h (State.Inv.ite h₁.frame h₁.out)

theorem State.Inv.execD2dLinkFailure (h : s.Inv) {die bit} : Keeps (execD2dLinkFailure die bit s) := h

theorem State.Inv.execPowerCap (h : s.Inv) {watts} : Keeps (execPowerCap watts s) := h

/-! ### Transom links (R28 to R30, R36) -/

theorem State.Inv.replayFlits (h : s.Inv) {l} : (s.replayFlits l).Inv := .ite h.putLink h.putLink.out

theorem State.Inv.execFlitReceive (h : s.Inv) {link flit} : Keeps (execFlitReceive link flit s) := by
  unfold Machine.execFlitReceive
  extract_lets l₀ l hd kind seq s₁ lanes l₁ s₂
  have h₁ : s₁.Inv := h.putLink
  have h₂ : s₂.Inv := h.push.out
  exact .ite h.holdEvent (.ite (State.Inv.ite h₁.frame h₁) (.ite h (State.Inv.ite h₂.replayFlits h₂)))

theorem State.Inv.sendOn (h : s.Inv) {r} : (s.sendOn r).Inv := by
  unfold State.sendOn
  split
  · exact h.out
  extract_lets x l s₁
  have h₁ : s₁.Inv := h.push
  exact .ite h.out h₁.frame

theorem State.Inv.linkDown (h : s.Inv) {l} : (s.linkDown l).Inv := by
  refine h.putLink.foldl (fun s x h => ?_) _
  split
  · exact h.sendOn
  · exact h.push
  · exact h

theorem State.Inv.execLaneRepair (h : s.Inv) {link lane} : Keeps (execLaneRepair link lane s) :=
  Keeps.ite h.holdEvent (State.Inv.ite h.replayFlits h.linkDown)

theorem State.Inv.execTransomLinkTrained (h : s.Inv) {link} : Keeps (execTransomLinkTrained link s) :=
  State.Inv.ite h.putLink h.holdEvent

/-! ### Requests between packages (R31, R32, R289, R290) -/

theorem State.Inv.execPeerRequestForward (h : s.Inv) {r} : Keeps (execPeerRequestForward r s) :=
  Keeps.ite h.holdEvent h.sendOn

theorem State.Inv.peerRead (h : s.Inv) {p ord home pa n} : (s.peerRead p ord home pa n).Inv := .ite h h.frame

theorem State.Inv.execPeerRequestArrival (h : s.Inv) {r} : Keeps (execPeerRequestArrival r s) := by
  unfold Machine.execPeerRequestArrival
  refine .ite h.holdEvent ?_
  extract_lets no p e
  have hno : no.Inv := h.out
  split
  · refine .ite hno ?_
    split
    · exact hno
    · extract_lets s₁
      have h₁ : s₁.Inv := h.peerRead
      exact h₁.frame
  · exact .ite (State.Inv.out h.storeAs) hno
  · extract_lets n s₁
    have h₁ : s₁.Inv := h.peerRead
    refine .ite hno ?_
    split
    · exact hno
    · extract_lets old s₂
      have h₂ : s₂.Inv := .ite (.ite h₁.note h₁) h₁.storeAs
      exact h₂.out

/-! ### Peer timeouts (R33) -/

theorem State.Inv.mayPerform (h : s.Inv) {a : Actor} {key op} : (a.mayPerform key op s).Inv := by
  refine h.foldl (fun s q h => ?_) _
  extract_lets does
  split
  · split
    · rename_i eq
      exact (h.access).of_eq eq
    · exact h
  · exact h

theorem State.Inv.stallTimeout (h : s.Inv) {key x} : (s.stallTimeout key x).Inv := by
  unfold State.stallTimeout
  split
  · exact h
  extract_lets s₁
  have h₁ : s₁.Inv := by
    unfold s₁
    split
    · exact h.mayPerform
    · exact h
  split
  · exact h₁
  · exact h₁.strike

theorem State.Inv.cmdTimeout (h : s.Inv) {t c} : (s.cmdTimeout t c).Inv := by
  unfold State.cmdTimeout
  extract_lets s₁
  have h₁ : s₁.Inv := by
    unfold s₁
    split
    · extract_lets a
      split
      · split
        · rename_i eq
          exact h.copyStep.ok eq
        · exact h
      · exact h
    · exact h
  split
  · exact h₁.putTeam
  · exact h₁

theorem State.Inv.mstRow (h : s.Inv) {a j o} : (s.mstRow a j o).Inv := by
  unfold State.mstRow
  extract_lets f b sp'
  split
  · exact h.put
  · exact h

theorem State.Inv.mtxTimeout (h : s.Inv) {j} : (s.mtxTimeout j).Inv := by
  unfold State.mtxTimeout
  extract_lets s₁ path
  have h₁ : s₁.Inv := by
    unfold s₁
    split
    · exact .ite h.mstRow h
    · exact h
  exact h₁.mtxTrap

theorem State.Inv.mayWrite (h : s.Inv) {c va b} : (s.mayWrite c va b).Inv := by
  unfold State.mayWrite
  split
  · split
    · exact h.putPieces
    · exact h
  · exact h

theorem State.Inv.mayAdd (h : s.Inv) {c p} : (s.mayAdd c p).Inv := by
  unfold State.mayAdd
  split
  · split
    · exact h
    split
    · exact h
    · exact h.putPieces
  · exact h

theorem State.Inv.pktTimeout (h : s.Inv) {q p} : (s.pktTimeout q p).Inv := by
  refine State.Inv.stopPkt ?_
  split
  · exact h.mayWrite.mayAdd
  · exact h

theorem State.Inv.copyTimeout (h : s.Inv) {k} : (s.copyTimeout k).Inv := by
  unfold State.copyTimeout
  extract_lets n s₁
  have h₁ : s₁.Inv := by
    unfold s₁
    split
    · exact h
    extract_lets src
    refine .ite h.mayWrite ?_
    clear_value src
    split
    · exact h.mayWrite
    · exact h
  exact h₁.dropCopy.stopPkt

theorem State.Inv.recordTimeout (h : s.Inv) {l} : (s.recordTimeout l).Inv := by
  refine State.Inv.recordLost ?_
  split
  · exact h.mayWrite
  · exact h

theorem State.Inv.execPeerTimeout (h : s.Inv) : Keeps (execPeerTimeout s) := by
  unfold Machine.execPeerTimeout
  extract_lets s₁ s₂ s₃ s₄ s₅ s₆
  have h₁ : s₁.Inv := h.foldl (fun _ _ h => h.foldl (fun _ _ h => h.stallTimeout) _) _
  have h₂ : s₂.Inv := h₁.foldl (fun _ _ h => h.foldl (fun _ _ h => h.cmdTimeout) _) _
  have h₃ : s₃.Inv := h₂.foldl (fun _ _ h => h.foldl (fun _ _ h => h.mtxTimeout) _) _
  have h₄ : s₄.Inv := by
    refine h₃.foldl (fun s q h => ?_) _
    extract_lets t
    have ht : t.Inv := h.foldl (fun _ _ h => h.pktTimeout) _
    split
    · split
      · exact ht.queueError
      · exact ht
    · exact ht
  have h₅ : s₅.Inv := h₄.foldl (fun _ _ h => h.copyTimeout) _
  have h₆ : s₆.Inv := h₅.foldl (fun _ _ h => h.recordTimeout) _
  clear_value s₆
  exact .ite h (h₆.frame (t := { s₆ with nondet := _ }))

/-! ### The Wicket port (R66) -/

theorem State.Inv.execAttestation (h : s.Inv) : Keeps (execAttestation s) := h

theorem State.Inv.execSensors (h : s.Inv) : Keeps (execSensors s) := h

theorem State.Inv.execRepairRead (h : s.Inv) : Keeps (execRepairRead s) := h

theorem State.Inv.execRepairAppend (h : s.Inv) {die quad} : Keeps (execRepairAppend die quad s) := State.Inv.ite h.frame h

theorem State.Inv.execShutterReadout (h : s.Inv) {t bytes} : Keeps (execShutterReadout t bytes s) :=
  State.Inv.ite h.frame (.ite h.frame h)

end
end Sys2Proof.Machine

/-! ## Every step keeps memory's canonical form (R2): a step -/

namespace Sys2Proof.Machine

section
variable {s t : State}

/-! ### The families of instructions that work on registers alone -/

theorem State.Inv.scalarOp (h : s.Inv) {slot d srcs v} : Keeps (scalarOp slot d srcs v s) := h.regOp

theorem State.Inv.scalar1 (h : s.Inv) {o f} : Keeps (scalar1 o f s) := h.scalarOp

theorem State.Inv.scalar2 (h : s.Inv) {o f} : Keeps (scalar2 o f s) := h.scalarOp

theorem State.Inv.scalarI (h : s.Inv) {o f} : Keeps (scalarI o f s) := h.scalarOp

theorem State.Inv.laneOp (h : s.Inv) {slot lat d srcs chks tag f} : Keeps (laneOp slot lat d srcs chks tag f s) := h.regOp

theorem State.Inv.vint1 (h : s.Inv) {o tag f} : Keeps (vint1 o tag f s) := h.laneOp

theorem State.Inv.vint2 (h : s.Inv) {o f} : Keeps (vint2 o f s) := h.laneOp

theorem State.Inv.vbit2 (h : s.Inv) {o f} : Keeps (vbit2 o f s) := h.laneOp

theorem State.Inv.vflt1 (h : s.Inv) {o tag f} : Keeps (vflt1 o tag f s) := h.laneOp

theorem State.Inv.vflt2 (h : s.Inv) {o f} : Keeps (vflt2 o f s) := h.laneOp

theorem State.Inv.vflt3 (h : s.Inv) {o f} : Keeps (vflt3 o f s) := h.laneOp

theorem State.Inv.vspecial (h : s.Inv) {o g} : Keeps (vspecial o g s) := h.laneOp

theorem State.Inv.waveScalar (h : s.Inv) {slot lat d reads f} : Keeps (waveScalar slot lat d reads f s) := h.regOp

theorem State.Inv.xlane (h : s.Inv) {slot d reads tag f} : Keeps (xlane slot d reads tag f s) := h.regOp

theorem State.Inv.maskOp (h : s.Inv) {slot d srcs f} : Keeps (maskOp slot d srcs f s) := h.regOp

theorem State.Inv.convRetire {e : Env} (h : e.s.Inv) {rnd writes effs} : (e.convRetire rnd writes effs).Inv := h.retire

theorem State.Inv.convOp (h : s.Inv) {o n srcs dstRead chks tag f} : Keeps (convOp o n srcs dstRead chks tag f s) := by
  refine h.run fun e h => ?_
  extract_lets own
  split
  · exact h.trap
  · exact h.convRetire

theorem State.Inv.execVcvt (h : s.Inv) {o} : Keeps (execVcvt o s) := by
  unfold Machine.execVcvt
  extract_lets ns nd g
  exact .ite h.convOp (.ite h.convOp h.convOp)

/-! ### The families of memory instructions -/

theorem State.Inv.vload (h : s.Inv) {o space} : Keeps (vload o space s) := h.vecMem

theorem State.Inv.vstore (h : s.Inv) {o space} : Keeps (vstore o space s) := h.vecMem

theorem State.Inv.ldl (h : s.Inv) {o space size} : Keeps (ldl o space size s) := h.vecMem

theorem State.Inv.gld (h : s.Inv) {o space} : Keeps (gld o space s) := h.scaMem

theorem State.Inv.gst (h : s.Inv) {o space} : Keeps (gst o space s) := h.scaMem

/-! ### Every instruction and event -/

/-- Every instruction and event keeps the form. -/
theorem State.Inv.exec (h : s.Inv) (i : Instr) : Keeps (exec i s) := by
  cases i with
  -- Instructions that work on registers alone
  | next | nextc | nextm | nextx | halt | reta | vsel | amaxr | amaxc | vbal | vscan | mmov | gset | gadv | tffr | tclr | htest | csrr |
    csrw | tick | nop =>
    unfold Machine.exec
    exact h.regOp
  | sadd | ssub | smul | smulh | smulhn | sand | sor | sxor | sshl | sshr | ssra | smin | smax | sminn | smaxn =>
    unfold Machine.exec
    exact h.scalar2
  | snot | smov | sclz | spopc =>
    unfold Machine.exec
    exact h.scalar1
  | scmp | ssel | sli | slih | saddc | scmpI =>
    unfold Machine.exec
    exact h.scalarOp
  | saddI | ssubI | smulI | sandI | sorI | sxorI | sshlI | sshrI | ssraI | sminI | smaxI | sminnI | smaxnI =>
    unfold Machine.exec
    exact h.scalarI
  | vadd | vsub | vmul | vmulh | vmulhn | vadds | vsubs | vshl | vshr | vsra | vmin | vmax | vminn | vmaxn =>
    unfold Machine.exec
    exact h.vint2
  | vmad | vnot | vcmp | vbfx | vbfi | vmov | vli | vdot4 | vfcmp | vfdot2 | vdiv | vretag =>
    unfold Machine.exec
    exact h.laneOp
  | vand | vor | vxor =>
    unfold Machine.exec
    exact h.vbit2
  | vabs | vneg | vpopc | vclz =>
    unfold Machine.exec
    exact h.vint1
  | vfadd | vfsub | vfmul | vfmin | vfmax =>
    unfold Machine.exec
    exact h.vflt2
  | vfma | vfms | vfnma =>
    unfold Machine.exec
    exact h.vflt3
  | vfabs | vfneg | vfcls =>
    unfold Machine.exec
    exact h.vflt1
  | vrcp | vrsq | vsqrt | vexp2 | vlog2 | vsint | vcost =>
    unfold Machine.exec
    exact h.vspecial
  | vcvt => exact h.execVcvt
  | vcvti | vcvtf | vpack | vunpk =>
    unfold Machine.exec
    exact h.convOp
  | vgettag | vred | vrfl | mpopc | mffs =>
    unfold Machine.exec
    exact h.waveScalar
  | vshfl | vpfx | vcmpr | vbcs =>
    unfold Machine.exec
    exact h.xlane
  | mand | mor | mxor | mnot =>
    unfold Machine.exec
    exact h.maskOp
  -- Memory, matrix and asynchronous instructions of a shared shape
  | vld | vlds =>
    unfold Machine.exec
    exact h.vload
  | vst | vsts =>
    unfold Machine.exec
    exact h.vstore
  | sld | sst | satom =>
    unfold Machine.exec
    exact h.scaMem
  | vcstGm | vcstSp =>
    unfold Machine.exec
    exact h.vcst
  | ldlGm32 | ldlGm64 | ldlSp32 | ldlSp64 =>
    unfold Machine.exec
    exact h.ldl
  | stc =>
    unfold Machine.exec
    exact h.vecMem
  | fence | fencex =>
    unfold Machine.exec
    exact h.run fun _ h => h.fence
  | gldGm | gldSp =>
    unfold Machine.exec
    exact h.gld
  | gstGm | gstSp =>
    unfold Machine.exec
    exact h.gst
  | mma | mmaz =>
    unfold Machine.exec
    exact h.mmaIssue
  | cbwr | cbcfg | cbinv =>
    unfold Machine.exec
    exact h.bankIssue
  | twany | twall =>
    unfold Machine.exec
    exact h.tagWaitOp
  -- Events, and instructions with a meaning of their own
  | functionLevelReset => exact h.execFunctionLevelReset
  | pcieLinkDown => exact h.execPcieLinkDown
  | atsInvalidate => exact h.execAtsInvalidate
  | priResponse => exact h.execPriResponse
  | msixUnmask => exact h.execMsixUnmask
  | uncorrectedError => exact h.execUncorrectedError
  | rowRetire => exact h.execRowRetire
  | d2dLinkFailure => exact h.execD2dLinkFailure
  | flitReceive => exact h.execFlitReceive
  | laneRepair => exact h.execLaneRepair
  | peerRequestForward => exact h.execPeerRequestForward
  | transomLinkTrained => exact h.execTransomLinkTrained
  | peerRequestArrival => exact h.execPeerRequestArrival
  | podArrival => exact h.execPodArrival
  | podRelease => exact h.execPodRelease
  | powerCap => exact h.execPowerCap
  | oneLinkReset => exact h.execOneLinkReset
  | shutterReadout => exact h.execShutterReadout
  | repairAppend => exact h.execRepairAppend
  | doorbellWidx => exact h.execDoorbellWidx
  | admqWidx => exact h.execAdmqWidx
  | linkpairPaired => exact h.execLinkpairPaired
  | fqEnable => exact h.execFqEnable
  | podidWrite => exact h.execPodidWrite
  | xpeertoWrite => exact h.execXpeertoWrite
  | xlstatClrcnt => exact h.execXlstatClrcnt
  | timetableSkipsClear => exact h.execTimetableSkipsClear
  | shutterArm => exact h.execShutterArm
  | qctlStop => exact h.execQctlStop
  | qctlResume => exact h.execQctlResume
  | dstepGo => exact h.execDstepGo
  | registerWrite => exact h.execRegisterWrite
  | packetConsume => exact h.execPacketConsume
  | nopPacket => exact h.execNopPacket
  | launch => exact h.execLaunch
  | launchComplete => exact h.execLaunchComplete
  | copy => exact h.execCopy
  | copyPacketComplete => exact h.execCopyPacketComplete
  | signal => exact h.execSignal
  | wait => exact h.execWait
  | waitPoll => exact h.execWaitPoll
  | timestamp => exact h.execTimestamp
  | teamPlace => exact h.execTeamPlace
  | waveStart => exact h.execWaveStart
  | clauseStart => exact h.execClauseStart
  | longLatencyComplete => exact h.execLongLatencyComplete
  | matrixEnginePerform => exact h.execMatrixEnginePerform
  | vote => exact h.execVote
  | quantumEnd => exact h.execQuantumEnd
  | unpark => exact h.execUnpark
  | waitSatisfied => exact h.execWaitSatisfied
  | barrierRelease => exact h.execBarrierRelease
  | waveEnd => exact h.execWaveEnd
  | teamEnd => exact h.execTeamEnd
  | trapEntry => exact h.execTrapEntry
  | logApply => exact h.execLogApply
  | ticketRelease => exact h.execTicketRelease
  | commandComplete => exact h.execCommandComplete
  | cbldComplete => exact h.execCbldComplete
  | yield => exact h.execYield
  | calla => exact h.execCalla
  | bar => exact h.execBar
  | bara => exact h.execBara
  | barw => exact h.execBarw
  | vxpd => exact h.execVxpd
  | grd => exact h.execGrd
  | vatom => exact h.execVatom
  | lkclr => exact h.execLkclr
  | splk => exact h.execSplk
  | spset => exact h.execSpset
  | spclr => exact h.execSpclr
  | spget => exact h.execSpget
  | mzero => exact h.execMzero
  | mst => exact h.execMst
  | mld => exact h.execMld
  | mrstl => exact h.execMrstl
  | cpy => exact h.execCpy
  | cpyn => exact h.execCpyn
  | hwait => exact h.execHwait
  | hcancel => exact h.execHcancel
  | cbld => exact h.execCbld
  | swtrap => exact h.execSwtrap
  | brk => exact h.execBrk
  | eret => exact h.execEret
  | icinv => exact h.execIcinv
  | pmark => exact h.execPmark
  | lacq => exact h.execLacq
  | lrel => exact h.execLrel
  | tkwait => exact h.execTkwait
  | tkrel => exact h.execTkrel
  | pcieLinkUp => exact h.execPcieLinkUp
  | packageReset => exact h.execPackageReset
  | ppsEdge => exact h.execPpsEdge
  | launchRestart => exact h.execLaunchRestart
  | peerTimeout => exact h.execPeerTimeout
  | attestation => exact h.execAttestation
  | sensors => exact h.execSensors
  | moduleReset => exact h.execModuleReset
  | wicketPackageReset => exact h.execWicketPackageReset
  | repairRead => exact h.execRepairRead
  | shutterNow => exact h.execShutterNow
  | shutterGate => exact h.execShutterGate
  | shutterUngate => exact h.execShutterUngate
  | shutterData => exact h.execShutterData
  | waitTimeout => exact h.execWaitTimeout
  | ctxCreate => exact h.execCtxCreate
  | ctxDestroy => exact h.execCtxDestroy
  | queueCreate => exact h.execQueueCreate
  | queueDestroy => exact h.execQueueDestroy
  | setRange => exact h.execSetRange
  | setPtbase => exact h.execSetPtbase
  | setAperture => exact h.execSetAperture
  | preempt => exact h.execPreempt
  | preemptResume => exact h.execPreemptResume
  | preemptDrained => exact h.execPreemptDrained
  | drainLimit => exact h.execDrainLimit
  | timetableSet => exact h.execTimetableSet
  | timeSet => exact h.execTimeSet
  | timeOffset => exact h.execTimeOffset
  | timeRate => exact h.execTimeRate
  | setAtPps => exact h.execSetAtPps
  | icinvBroadcast => exact h.execIcinvBroadcast
  | traceConfig => exact h.execTraceConfig
  | retry => exact h.execRetry
  | faultReplyTrap => exact h.execFaultReplyTrap
  | kill => exact h.execKill
  | releaseCore => exact h.execReleaseCore
  | faultRecordWrite => exact h.execFaultRecordWrite
  | timetableSlot => exact h.execTimetableSlot
  | timetableDeferredStart => exact h.execTimetableDeferredStart
  | arbiterServe => exact h.execArbiterServe
  | gangPlace => exact h.execGangPlace
  | aging => exact h.execAging
  | histSample => exact h.execHistSample
  | histFlush => exact h.execHistFlush

/-! ### A step -/

theorem State.Inv.illegal (h : s.Inv) {w x} : (s.illegal w x).Inv := h.raise

theorem State.Inv.issueWave (h : s.Inv) {k} : Keeps (issueWave k s) := by
  unfold Machine.issueWave
  split
  · exact h
  refine .ite ?_ h
  split
  · exact h
  split
  · exact State.Inv.exec (s := { s with cur := some k }) h.frame _
  · exact h.illegal

theorem State.Inv.runMove (h : s.Inv) (m : Move) : Keeps (runMove s m) := by
  cases m with
  | wave k => exact h.issueWave
  | ev i => exact h.exec i

theorem State.Inv.pickMove (h : s.Inv) : s.pickMove.2.Inv := by
  unfold State.pickMove
  split
  · exact h
  split
  · exact h.frame
  · exact h.frame

theorem State.Inv.elapse (h : s.Inv) : s.elapse.Inv := by
  unfold State.elapse
  extract_lets s₁ d s₂
  have h₁ : s₁.Inv := h.endSteps.settleWrites
  have h₂ : s₂.Inv := h₁.frame
  exact .ite h₂.frame h₂.frame

theorem Keeps.andElapse {r} (h : Keeps r) : Keeps (andElapse r) := by
  cases r with
  | next t => exact State.Inv.elapse h
  | fault f => trivial
  | refused r => trivial

theorem State.Inv.step (h : s.Inv) : Keeps (step s) := by
  unfold Machine.step
  split
  · rename_i m s₁ eq
    have h₁ : s₁.Inv := h.pickMove.snd eq
    exact (h₁.runMove m).andElapse
  · rename_i s₁ eq
    have h₁ : s₁.Inv := h.pickMove.snd eq
    exact h₁.elapse

end

/-- Settles O4: whatever the move, its instruction or event keeps the form, and so does the time that passes. -/
theorem stepKeepsMemoryForm : Obligations.StepKeepsMemoryForm := by
  unfold Obligations.StepKeepsMemoryForm
  intro s t h hstep
  have hk : Keeps (step s) := h.step
  rw [hstep] at hk
  exact hk

end Sys2Proof.Machine

end

section
/-! SUPPORT. Registers of the interface and the Shutter (O57): what each write does, by the register. -/

namespace Sys2Proof.Machine

section
variable {s t u : State}

/-! ### Messages, doorbells and SIGNALs that wait: what they touch (R47, R50, R60) -/

/-- The message of an MSI-X entry, as far as the device issues it (R21, R60). -/
def State.message (s : State) (k : Nat) : List Output :=
  let e := (s.msixTab.find? fun x => x.k == k).getD ⟨k, 0, 0⟩
  if e.addr.toNat < 2 ^ 52 then [.msix (k / 2048) (k % 2048) e.addr e.data] else []

theorem State.sendMsix_eq (s : State) (k : Nat) : s.sendMsix k = { s with outbox := s.outbox ++ s.message k } := by
  unfold State.sendMsix State.message
  dsimp only
  split
  · rfl
  · rw [List.append_nil]

/-- An entry whose message waits n times sends it n times. -/
theorem State.sendMsix_replicate (s : State) (k n : Nat) : (List.replicate n k).foldl State.sendMsix s
    = { s with outbox := s.outbox ++ (List.replicate n (s.message k)).flatten } := by
  induction n generalizing s with
  | zero => simp
  | succ n ih =>
    have hm : (s.sendMsix k).message k = s.message k := by rw [State.sendMsix_eq]; rfl
    rw [List.replicate_succ, List.foldl_cons, ih, hm, State.sendMsix_eq]
    simp [List.replicate_succ]

/-- Nothing but the queues, and what leaves the package for them, changes from one state to another. -/
def State.QueuesOnly (s t : State) : Prop :=
  t = { s with outbox := t.outbox, queues := t.queues, pending := t.pending, fresh := t.fresh, fqHeld := t.fqHeld }

theorem State.QueuesOnly.refl (s : State) : s.QueuesOnly s := rfl

theorem State.QueuesOnly.trans (h : s.QueuesOnly t) (g : t.QueuesOnly u) : s.QueuesOnly u := by
  unfold State.QueuesOnly at *
  rw [g, h]

theorem State.QueuesOnly.foldl {α : Type} {f : State → α → State} (hf : ∀ (s : State) a, s.QueuesOnly (f s a)) (l : List α) :
    s.QueuesOnly (l.foldl f s) :=
  List.foldlRecOn l f (.refl s) fun _ h a _ => h.trans (hf _ a)

theorem State.sendMsix_queuesOnly (s : State) (k : Nat) : s.QueuesOnly (s.sendMsix k) := by
  rw [State.sendMsix_eq]
  rfl

theorem State.msix_queuesOnly (s : State) (a vec : Nat) : s.QueuesOnly (s.msix a vec) := by
  unfold State.msix
  dsimp only
  split
  · exact s.sendMsix_queuesOnly _
  · rfl

theorem State.queueError_queuesOnly (s : State) (q : Queue) (code i : Nat) : s.QueuesOnly (s.queueError q code i) := by
  unfold State.queueError
  dsimp only
  split
  · rfl
  · refine .trans ?_ (State.msix_queuesOnly _ _ _)
    rfl

theorem State.doorbell_queuesOnly (s : State) (q : Nat) (v : DWord) : s.QueuesOnly (s.doorbell q v) := by
  unfold State.doorbell
  split
  · exact .refl s
  · split
    · exact .refl s
    · split
      · exact s.queueError_queuesOnly _ _ _
      · rfl

/-- A write of widx within the ring is taken (R47). -/
theorem State.doorbell_taken {x : Queue} {v : DWord} (hx : s.queue? x.id = some x) (hst : x.st = .ok) (hlo : x.widx.toNat ≤ v.toNat)
    (hhi : v.toNat ≤ x.ridx + 2 ^ x.n) : s.doorbell x.id v = s.putQueue { x with widx := v } := by
  unfold State.doorbell
  rw [hx]
  dsimp only
  rw [if_neg (by simpa [hst] using hlo), if_neg (by omega)]

theorem State.donePkt_only (s : State) (q i : Nat) : s.donePkt q i = { s with queues := (s.donePkt q i).queues } := by
  unfold State.donePkt
  split <;> rfl

/-- SIGNALs that wait touch the queues and the outbox alone. -/
theorem State.unmaskSignals_only (s : State) (k : Nat) :
    s.unmaskSignals k = { s with outbox := (s.unmaskSignals k).outbox, queues := (s.unmaskSignals k).queues } := by
  unfold State.unmaskSignals
  refine List.foldlRecOn (motive := fun t : State => t = { s with outbox := t.outbox, queues := t.queues }) _ _ rfl fun t ht q _ => ?_
  refine List.foldlRecOn (motive := fun t : State => t = { s with outbox := t.outbox, queues := t.queues }) _ _ ht fun u hu p _ => ?_
  rw [State.donePkt_only, State.sendMsix_eq, hu]

theorem State.unmaskSignals_queuesOnly (s : State) (k : Nat) : s.QueuesOnly (s.unmaskSignals k) := by
  rw [State.unmaskSignals_only]
  rfl

/-- No SIGNAL waits for the entry. -/
theorem State.unmaskSignals_none {k : Nat} (h : ∀ q ∈ s.queues, ∀ p ∈ q.pkts, p.msg ≠ some k) : s.unmaskSignals k = s := by
  refine foldl_same _ _ _ fun q hq a => ?_
  have hf : (q.pkts.filter fun p => p.msg == some k) = [] := by simpa using h q hq
  rw [hf]
  rfl

/-- The one packet of the one queue is a SIGNAL that waits for the entry. -/
theorem State.unmaskSignals_one {q : Queue} {p : Pkt} {k : Nat} (hq : s.queues = [q]) (hp : q.pkts = [p]) (hm : p.msg = some k) :
    s.unmaskSignals k = { s with
      outbox := s.outbox ++ s.message k, queues := [{ q with pkts := [], lastDone := p.i, lastTick := s.tick }] } := by
  unfold State.unmaskSignals
  simp [hq, hp, hm, State.sendMsix_eq, State.donePkt, State.queue?, State.putQueue, lput]

theorem State.skipSlots_only (s : State) : s.skipSlots = { s with skips := s.skipSlots.skips, timetable := s.skipSlots.timetable } := by
  unfold State.skipSlots
  refine List.foldlRecOn (motive := fun t : State => t = { s with skips := t.skips, timetable := t.timetable }) _ _ rfl fun t ht e _ => ?_
  dsimp only
  split
  · rw [ht]
  · exact ht

/-! ### Registers of the interface (R34 to R42, R57, R64, R209, R213) -/

theorem State.regs_up (hr : s.ready = true) (hd : s.dead = false) : s.regs = true := by simp [State.regs, hr, hd]

theorem State.running_eq (h : s.regs = true) : s.running = !s.gated := by
  unfold State.running
  unfold State.regs at h
  rw [h, Bool.true_and]

theorem exec_linkpairPaired (hd : s.dead = false) (v : Bool) :
    exec (.linkpairPaired 0 v) s = .next { s with paired0 := v } ∧ exec (.linkpairPaired 1 v) s = .next { s with paired1 := v } :=
  ⟨congrArg Host.Outcome.next (if_neg (by simp [hd])), congrArg Host.Outcome.next (if_neg (by simp [hd]))⟩

theorem State.link_putLink (l : XLink) : (s.putLink l).link l.n = l := by
  unfold State.link State.putLink
  rw [lput_find_self _ _ _ (by simp)]
  rfl

theorem State.link_putLink_ne (l : XLink) {k : Nat} (h : k ≠ l.n) : (s.putLink l).link k = s.link k := by
  unfold State.link State.putLink
  rw [lput_find_other _ _ _ _ (by simpa using h.symm)]
  intro y hy
  have : y.n = l.n := by simpa using hy
  simpa [this] using h.symm

/-- A write inside a register changes nothing. -/
theorem exec_registerWrite_inside {off : Nat} (hoff : off % 4 ≠ 0) (v : DWord) : exec (.registerWrite off v) s = .next s := by
  have h8 : off % 8 ≠ 0 := by omega
  have ha : regAligned off = false := by simp [regAligned, h8, hoff]
  exact congrArg Host.Outcome.next (if_neg (by simp [ha]))

section
variable (h : s.regs = true)
include h

theorem exec_admqWidx (v : DWord) : exec (.admqWidx v) s = .next { s with admWidx := v } :=
  congrArg Host.Outcome.next (if_pos h)

/-- FQ_CTL takes its fields; the indices restart when enable goes from 0 to 1 (R57). -/
theorem exec_fqEnable (v : DWord) : ∃ u, exec (.fqEnable v) s = .next u
    ∧ u = { s with fqEnable := v.getLsbD 4, fqLg := u.fqLg, fqTail := u.fqTail, fqHead := u.fqHead } ∧ u.fqLg = v.toNat % 16
    ∧ (v.getLsbD 4 = true → s.fqEnable = false → u.fqTail = 0 ∧ u.fqHead = 0)
    ∧ (v.getLsbD 4 = false ∨ s.fqEnable = true → u.fqTail = s.fqTail ∧ u.fqHead = s.fqHead) := by
  have hlg : (v.extractLsb' 0 4).toNat = v.toNat % 16 := by simp
  refine ⟨_, congrArg Host.Outcome.next (if_neg (by simp [h])), ?_⟩
  split
  next hset =>
    simp only [Bool.and_eq_true, Bool.not_eq_true'] at hset
    exact ⟨rfl, hlg, fun _ _ => ⟨rfl, rfl⟩, by simp [hset]⟩
  next hset =>
    simp only [Bool.and_eq_true, Bool.not_eq_true'] at hset
    exact ⟨rfl, hlg, fun h₁ h₂ => absurd ⟨h₁, h₂⟩ hset, fun _ => ⟨rfl, rfl⟩⟩

theorem exec_podidWrite (v : Word) : exec (.podidWrite v) s = .next
    (if s.podidSet then s else { s with podid := v.toNat % 1024, podidSet := true }) := by
  have hid : (v.extractLsb' 0 10).toNat = v.toNat % 1024 := by simp
  change execPodidWrite v s = _
  unfold execPodidWrite
  rw [h, hid]
  cases s.podidSet <;> rfl

theorem exec_xpeertoWrite (v : DWord) : exec (.xpeertoWrite v) s = .next { s with
    peerTo := if v.toNat < 100 then 100 else if 1000000 < v.toNat then 1000000 else v.toNat } := by
  have hclamp : max 100 (min 1000000 v.toNat) = if v.toNat < 100 then 100 else if 1000000 < v.toNat then 1000000 else v.toNat := by
    split
    · omega
    · split <;> omega
  change execXpeertoWrite v s = _
  unfold execXpeertoWrite
  rw [if_pos h, hclamp]

theorem exec_xlstatClrcnt (n : Fin 12) : ∃ u, exec (.xlstatClrcnt n) s = .next u ∧ u = { s with links := u.links }
    ∧ u.link n.val = { s.link n.val with n := n.val, retries := 0, repairs := 0 } ∧ ∀ k, k ≠ n.val → u.link k = s.link k :=
  ⟨_, congrArg Host.Outcome.next (if_pos h), rfl, State.link_putLink _, fun _ hk => State.link_putLink_ne _ hk⟩

theorem exec_timetableSkipsClear (n : Fin 256) (v : DWord) :
    ∃ u, exec (.timetableSkipsClear n v) s = .next u ∧ u = { s with skips := u.skips }
      ∧ ∀ k, cget u.skips k = if k = n.val then cget s.skips k &&& ~~~v else cget s.skips k := by
  refine ⟨_, congrArg Host.Outcome.next (if_pos h), rfl, fun k => ?_⟩
  change cget (cset s.skips n.val _) k = _
  rw [cget_cset]
  split
  next hk => rw [hk]
  next => rfl

theorem exec_registerWrite {off : Nat} (ha : regAligned off = true) (v : DWord) :
    exec (.registerWrite off v) s = .next (s.writeReg off v) :=
  congrArg Host.Outcome.next (if_pos (by rw [h, ha]; rfl))

/-- REGISTER_WRITE, by its offset. -/
theorem exec_registerWrites (v : DWord) : exec (.registerWrite 0x10 v) s = .next { s with ctl := cset s.ctl 0x10 v }
    ∧ exec (.registerWrite 0x20 v) s = .next { s with admWidx := v } ∧ exec (.registerWrite 0x28 v) s = .next s
    ∧ exec (.registerWrite 0x58 v) s = .next { s with fqHead := v } ∧ exec (.registerWrite 0xC8 v) s = .next { s with trHead := v }
    ∧ exec (.registerWrite 0xD0 v) s = .next { s with trStat := s.trStat &&& ~~~v.setWidth 2 }
    ∧ exec (.registerWrite 0x200000 v) s = .next { s with shutTick := v }
    ∧ exec (.registerWrite 0x100008 v) s = exec (.xpeertoWrite v) s
    ∧ ∀ off, off % 4 ≠ 0 → exec (.registerWrite off v) s = .next s := by
  have write {off : Nat} {t : State} (ha : regAligned off = true) (hw : s.writeReg off v = t) : exec (.registerWrite off v) s = .next t := by
    rw [exec_registerWrite h ha, hw]
  have hx := exec_xpeertoWrite h v
  have hones : v &&& ones64 = v := by
    have : ones64 = BitVec.allOnes 64 := by decide
    rw [this, BitVec.and_allOnes]
  have hlow : v.extractLsb' 0 2 = v.setWidth 2 := by
    apply BitVec.eq_of_toNat_eq
    simp
  refine ⟨write rfl ?_, write rfl ?_, write rfl rfl, write rfl rfl, write rfl rfl, write rfl ?_, write rfl rfl, ?_,
    fun _ hoff => exec_registerWrite_inside hoff v⟩
  · change s.setCtl 0x10 v ones64 = _
    unfold State.setCtl
    rw [hones]
  · change nextOr s (exec (.admqWidx v) s) = _
    rw [exec_admqWidx h]
    rfl
  · rw [← hlow]
    rfl
  · rw [hx]
    refine write rfl ?_
    change nextOr s (exec (.xpeertoWrite v) s) = _
    rw [hx]
    rfl

end

/-! ### MSIX_UNMASK (R60, R202) -/

theorem contains_unmasked (l : List Nat) (k j : Nat) :
    (if l.contains k then l else l ++ [k]).contains j = (j == k || l.contains j) := by
  rw [Bool.eq_iff_iff]
  split
  next hk =>
    have hk : k ∈ l := by simpa using hk
    simpa using fun hj => hj ▸ hk
  next => simp [or_comm]

/-- An entry of the MSI-X table that has been written is found. -/
theorem find_entered (l : List MsixEntry) (k : Nat) (addr : DWord) (data : Word) :
    (lput l (fun e => e.k == k) ⟨k, addr, data⟩).find? (fun e => e.k == k) = some ⟨k, addr, data⟩ := lput_find_self _ _ _ (by simp)

theorem find_entered_ne (l : List MsixEntry) (k : Nat) (addr : DWord) (data : Word) (j : Nat) (hj : j ≠ k) :
    (lput l (fun e => e.k == k) ⟨k, addr, data⟩).find? (fun e => e.k == j) = l.find? fun e => e.k == j :=
  lput_find_other _ _ _ _ (by simpa using hj.symm) fun y hy => by simpa [eq_of_beq hy] using hj.symm

/-- The state in which an entry has been written and unmasked, and its messages wait no longer. -/
def State.unmasking (s : State) (k : Nat) (addr : DWord) (data : Word) : State :=
  { s with
    msixTab := lput s.msixTab (fun e => e.k == k) ⟨k, addr, data⟩
    unmasked := if s.unmasked.contains k then s.unmasked else s.unmasked ++ [k]
    pending := s.pending.filter (· != k) }

/-- Once an entry has been written its messages carry what was written. -/
theorem State.message_unmasking (s : State) (k : Nat) (addr : DWord) (data : Word) :
    (s.unmasking k addr data).message k = if addr.toNat < 2 ^ 52 then [.msix (k / 2048) (k % 2048) addr data] else [] := by
  have he : ((s.unmasking k addr data).msixTab.find? fun e => e.k == k) = some ⟨k, addr, data⟩ := find_entered _ _ _ _
  unfold State.message
  rw [he]
  rfl

section
variable (h : s.regs = true)
include h

theorem msixUnmask_acts {vec : Nat} (hv : vec < 2048) : ¬((!s.regs) = true ∨ 2048 ≤ vec) := by simpa [h] using hv

/-- MSIX_UNMASK of an entry whose mask is written as 1. -/
theorem exec_msixUnmask_masked (fn : Fin 2) {vec : Nat} (hv : vec < 2048) (addr : DWord) (data : Word) :
    exec (.msixUnmask fn ⟨vec, addr, data, true⟩) s = .next { s with
      msixTab := lput s.msixTab (fun e => e.k == 2048 * fn.val + vec) ⟨2048 * fn.val + vec, addr, data⟩
      unmasked := s.unmasked.filter (· != 2048 * fn.val + vec) } := by
  change execMsixUnmask fn _ s = _
  unfold execMsixUnmask
  dsimp only
  rw [if_neg (msixUnmask_acts h hv), if_pos rfl]

/-- MSIX_UNMASK of an entry whose mask is written as 0: the messages that were pending go out, then SIGNALs that wait go on unless the package
is gated. -/
theorem exec_msixUnmask_open (fn : Fin 2) {vec : Nat} (hv : vec < 2048) (addr : DWord) (data : Word) :
    let k := 2048 * fn.val + vec
    let message : List Output := if addr.toNat < 2 ^ 52 then [.msix fn.val vec addr data] else []
    ∃ t, exec (.msixUnmask fn ⟨vec, addr, data, false⟩) s = .next (if s.gated then t else t.unmaskSignals k)
      ∧ t = { s.unmasking k addr data with outbox := t.outbox } ∧ t.message k = message
      ∧ t.outbox = s.outbox ++ (List.replicate (s.pending.count k) message).flatten := by
  intro k message
  have hm : (s.unmasking k addr data).message k = message := by
    rw [State.message_unmasking, show k / 2048 = fn.val by omega, show k % 2048 = vec by omega]
  obtain ⟨t, hsent, ht, hto⟩ : ∃ t, (s.pending.filter (· == k)).foldl State.sendMsix (s.unmasking k addr data) = t
      ∧ t = { s.unmasking k addr data with outbox := t.outbox }
      ∧ t.outbox = s.outbox ++ (List.replicate (s.pending.count k) message).flatten := by
    refine ⟨_, rfl, ?_⟩
    rw [List.filter_beq, State.sendMsix_replicate, hm]
    exact ⟨rfl, rfl⟩
  have hexec : exec (.msixUnmask fn ⟨vec, addr, data, false⟩) s = if (!s.regs) = true ∨ 2048 ≤ vec then .next s
      else .next (if s.running then ((s.pending.filter (· == k)).foldl State.sendMsix (s.unmasking k addr data)).unmaskSignals k
        else (s.pending.filter (· == k)).foldl State.sendMsix (s.unmasking k addr data)) := rfl
  rw [hexec, if_neg (msixUnmask_acts h hv), hsent, State.running_eq h]
  refine ⟨t, ?_, ht, ?_, hto⟩
  · cases s.gated <;> rfl
  · rw [ht]
    exact hm

theorem exec_msixUnmask (fn : Fin 2) (vec : Nat) (addr : DWord) (data : Word) (masked : Bool) (hv : vec < 2048) :
    let k := 2048 * fn.val + vec
    let message : List Output := if addr.toNat < 2 ^ 52 then [.msix fn.val vec addr data] else []
    ∃ u, exec (.msixUnmask fn ⟨vec, addr, data, masked⟩) s = .next u ∧ (u.msixTab.find? fun y => y.k == k) = some ⟨k, addr, data⟩
      ∧ (∀ j, j ≠ k → (u.msixTab.find? fun y => y.k == j) = s.msixTab.find? fun y => y.k == j)
      ∧ (masked = true → u = { s with msixTab := u.msixTab, unmasked := u.unmasked })
      ∧ (masked = false → u.pending = s.pending.filter (· != k) ∧ ((∀ q ∈ s.queues, ∀ p ∈ q.pkts, p.msg ≠ some k) →
        u.outbox = s.outbox ++ (List.replicate (s.pending.count k) message).flatten ∧ u.queues = s.queues))
      ∧ (∀ q p, masked = false → s.pending.contains k = false → s.queues = [q] → q.pkts = [p] → p.msg = some k →
        (s.gated = false → u.outbox = s.outbox ++ message
          ∧ u.queues = [{ q with pkts := [], lastDone := p.i, lastTick := s.tick }])
        ∧ (s.gated = true → u.outbox = s.outbox ∧ u.queues = [q]))
      ∧ u.unmasked.contains k = !masked ∧ ∀ j, j ≠ k → u.unmasked.contains j = s.unmasked.contains j := by
  intro k message
  cases masked with
  | true =>
    refine ⟨_, exec_msixUnmask_masked h fn hv addr data, find_entered _ _ _ _, find_entered_ne _ _ _ _, fun _ => rfl, nofun, nofun, ?_, fun j hj => ?_⟩
    · change (s.unmasked.filter (· != k)).contains k = false
      simp
    · change (s.unmasked.filter (· != k)).contains j = _
      simp [hj]
  | false =>
    obtain ⟨t, hexec, ht, htm, hto⟩ := exec_msixUnmask_open h fn hv addr data
    have htq : t.queues = s.queues := by rw [ht]; rfl
    obtain ⟨u, hu, hou⟩ : ∃ u, (if s.gated then t else t.unmaskSignals k) = u ∧ u = { t with outbox := u.outbox, queues := u.queues } := by
      refine ⟨_, rfl, ?_⟩
      split
      · rfl
      · exact t.unmaskSignals_only k
    have hun : u.unmasked = if s.unmasked.contains k then s.unmasked else s.unmasked ++ [k] := by rw [hou, ht]; rfl
    have htab : u.msixTab = lput s.msixTab (fun e => e.k == k) ⟨k, addr, data⟩ := by rw [hou, ht]; rfl
    refine ⟨u, hu ▸ hexec, ?_, ?_, nofun, fun _ => ⟨?_, fun hno => ?_⟩, fun q p _ hp hq hpk hmsg => ?_, ?_, fun j hj => ?_⟩
    · rw [htab, find_entered]
    · rw [htab]
      exact find_entered_ne _ _ _ _
    · rw [hou, ht]
      rfl
    · rw [← hu, State.unmaskSignals_none (by rwa [htq]), ite_self]
      exact ⟨hto, htq⟩
    · have hnone : t.outbox = s.outbox := by
        rw [hto, List.count_eq_zero.2 (by simpa using hp)]
        simp
      refine ⟨fun hg => ?_, fun hg => ?_⟩
      · rw [← hu, hg, State.unmaskSignals_one (htq.trans hq) hpk hmsg, htm, ← hnone]
        refine ⟨rfl, ?_⟩
        rw [ht]
        rfl
      · rw [← hu, hg]
        exact ⟨hnone, htq.trans hq⟩
    · rw [hun, contains_unmasked]
      simp
    · rw [hun, contains_unmasked]
      simp [hj]

end

/-! ### The Shutter (R201 to R203) -/

theorem length_leBytes (n x : Nat) : (leBytes n x).length = n := by
  induction n generalizing x with
  | zero => rfl
  | succ n ih => simp [leBytes, ih]

/-- The stream begins with the section of kind 0, which begins with T (R203). -/
theorem State.scan_head (s : State) :
    s.scan.take 24 = le 2 0 ++ le 2 0 ++ le 4 16 ++ le 8 0 ++ bvBytes 8 s.shutTick := by
  have hbody : (bvBytes 8 s.shutTick ++ le 4 (s.sections.length + 1) ++ le 4 0).length = 16 := by simp [bvBytes, length_leBytes]
  have hlen : (le 2 0 ++ le 2 0 ++ le 4 16 ++ le 8 0 ++ bvBytes 8 s.shutTick).length = 24 := by simp [bvBytes, length_leBytes]
  unfold State.scan section_
  dsimp only
  rw [hbody]
  simp only [← List.append_assoc]
  rw [List.append_assoc, List.append_assoc, List.take_left' hlen]

/-- The state at ungating, before what was held acts (R202). -/
def State.ungated (s : State) : State :=
  { s.skipSlots with
    gated := false, stream := [], heldDoors := [], heldEvents := [], agenda := s.heldEvents.map Move.ev ++ s.agenda
    trSrcs := s.trSrcs.map fun x => if x.id < 640 then { x with resync := true } else x }

theorem State.ungated_only (s : State) : s.ungated = { s with
    skips := s.ungated.skips, timetable := s.ungated.timetable, trSrcs := s.ungated.trSrcs, gated := false, stream := [], heldDoors := []
    heldEvents := [], agenda := s.heldEvents.map Move.ev ++ s.agenda } := by
  unfold State.ungated
  rw [s.skipSlots_only]

theorem State.ungated_queues (s : State) : s.ungated.queues = s.queues := by rw [s.ungated_only]

theorem exec_shutterUngate (hg : s.gated = true) : exec .shutterUngate s = .next
    (s.unmasked.foldl State.unmaskSignals (s.heldDoors.foldl (fun s p => s.doorbell p.1 p.2) s.ungated)) := by
  have hu : s.ungated.unmasked = s.unmasked := by rw [s.ungated_only]
  rw [← hu]
  exact if_neg (by simp [hg])

/-- What ungating leaves, whatever acts then (R202, R203). -/
theorem exec_shutterUngate_only (hg : s.gated = true) : ∃ u, exec .shutterUngate s = .next u ∧ u = { s with
    outbox := u.outbox, queues := u.queues, pending := u.pending, fresh := u.fresh, fqHeld := u.fqHeld, skips := u.skips
    timetable := u.timetable, trSrcs := u.trSrcs, gated := false, stream := [], heldDoors := [], heldEvents := []
    agenda := s.heldEvents.map Move.ev ++ s.agenda } := by
  refine ⟨_, exec_shutterUngate hg, ?_⟩
  have hdoors := State.QueuesOnly.foldl (fun s (p : Nat × DWord) => s.doorbell_queuesOnly p.1 p.2) s.heldDoors (s := s.ungated)
  have hsignals := hdoors.trans (.foldl State.unmaskSignals_queuesOnly s.unmasked)
  generalize s.unmasked.foldl _ _ = u at hsignals ⊢
  rw [hsignals, s.ungated_only]

/-- With no SIGNAL that waits, unmasked vectors bring nothing. -/
theorem State.foldl_unmaskSignals_none (l : List Nat) (hno : ∀ q ∈ s.queues, ∀ p ∈ q.pkts, p.msg = none) :
    l.foldl State.unmaskSignals s = s := by
  induction l with
  | nil => rfl
  | cons k l ih => rw [List.foldl_cons, State.unmaskSignals_none fun q hq p hp => by simp [hno q hq p hp], ih]

theorem mem_lput {α : Type} {l : List α} {f : α → Bool} {x y : α} (hy : y ∈ lput l f x) : y = x ∨ y ∈ l := by
  unfold lput at hy
  split at hy
  · obtain ⟨z, hz, rfl⟩ := List.mem_map.1 hy
    split
    · exact .inl rfl
    · exact .inr hz
  · simpa [or_comm] using hy

/-- A doorbell write that was held acts after ungating (R47, R202). -/
theorem exec_shutterUngate_doorbell {u : State} {x : Queue} {v : DWord} (hg : s.gated = true) (hu : exec .shutterUngate s = .next u)
    (hdoors : s.heldDoors = [(x.id, v)]) (hx : s.queue? x.id = some x) (hst : x.st = .ok) (hlo : x.widx.toNat ≤ v.toNat)
    (hhi : v.toNat ≤ x.ridx + 2 ^ x.n) (hno : ∀ q ∈ s.queues, ∀ p ∈ q.pkts, p.msg = none) :
    u.queue? x.id = some { x with widx := v } := by
  have hx' : s.ungated.queue? x.id = some x := by
    unfold State.queue?
    rwa [s.ungated_queues]
  have hq : (s.ungated.putQueue { x with widx := v }).queue? x.id = some { x with widx := v } := lput_find_self _ _ _ (by simp)
  rw [exec_shutterUngate hg, hdoors, List.foldl_cons, List.foldl_nil, State.doorbell_taken hx' hst hlo hhi,
    State.foldl_unmaskSignals_none] at hu
  · cases hu
    exact hq
  · intro q hq p hp
    rcases mem_lput hq with rfl | hold
    · exact hno x (List.mem_of_find?_eq_some hx) p hp
    · rw [s.ungated_queues] at hold
      exact hno q hold p hp

/-- A SIGNAL whose vector was unmasked while the package was gated completes after ungating (R60, R202). -/
theorem exec_shutterUngate_signal {u : State} {q : Queue} {p : Pkt} {k : Nat} (hg : s.gated = true) (hu : exec .shutterUngate s = .next u)
    (hdoors : s.heldDoors = []) (hun : s.unmasked = [k]) (hq : s.queues = [q]) (hp : q.pkts = [p]) (hm : p.msg = some k) :
    u.queues = [{ q with pkts := [], lastDone := p.i, lastTick := s.tick }] := by
  have htick : s.ungated.tick = s.tick := by rw [s.ungated_only]
  rw [exec_shutterUngate hg, hdoors, hun, List.foldl_nil, List.foldl_cons, List.foldl_nil,
    State.unmaskSignals_one (s.ungated_queues.trans hq) hp hm, htick] at hu
  cases hu
  rfl

theorem exec_shutterUngate_gated (hg : s.gated = true) :
    ∃ u, exec .shutterUngate s = .next u ∧ u.gated = false ∧ u.stream = [] ∧ u.heldDoors = [] ∧ u.waves = s.waves
      ∧ u.teams = s.teams ∧ u.cores = s.cores ∧ u.mem = s.mem ∧ u.heldEvents = [] ∧ u.agenda = s.heldEvents.map Move.ev ++ s.agenda
      ∧ (∀ x v, s.heldDoors = [(x.id, v)] → s.queue? x.id = some x → x.st = .ok → x.widx.toNat ≤ v.toNat → v.toNat ≤ x.ridx + 2 ^ x.n →
        (∀ q ∈ s.queues, ∀ p ∈ q.pkts, p.msg = none) → u.queue? x.id = some { x with widx := v })
      ∧ ∀ q p k, s.heldDoors = [] → s.unmasked = [k] → s.queues = [q] → q.pkts = [p] → p.msg = some k →
        u.queues = [{ q with pkts := [], lastDone := p.i, lastTick := s.tick }] := by
  obtain ⟨u, hu, honly⟩ := exec_shutterUngate_only hg
  exact ⟨u, hu, by rw [honly], by rw [honly], by rw [honly], by rw [honly], by rw [honly], by rw [honly], by rw [honly], by rw [honly],
    by rw [honly],
    fun _ _ hdoors hx hst hlo hhi hno => exec_shutterUngate_doorbell hg hu hdoors hx hst hlo hhi hno,
    fun _ _ _ hdoors hun hq hp hm => exec_shutterUngate_signal hg hu hdoors hun hq hp hm⟩

section
variable (h : s.regs = true)
include h

theorem State.gateDue_iff : s.gateDue = true ↔ s.gated = false ∧ (s.shutNow = true ∨ s.shutArm = true ∧ s.shutTick.toNat ≤ s.tick) := by
  simp [State.gateDue, h]

theorem exec_shutterArm (v : Bool) : exec (.shutterArm v) s = .next { s with shutArm := v } := congrArg Host.Outcome.next (if_pos h)

theorem exec_shutterNow : exec .shutterNow s = .next (if s.gated then s else { s with shutNow := true }) := by
  change execShutterNow s = _
  unfold execShutterNow
  rw [h]
  cases s.gated <;> rfl

theorem exec_shutterGate_due (hg : s.gated = false) (hdue : s.shutNow = true ∨ s.shutArm = true ∧ s.shutTick.toNat ≤ s.tick) :
    ∃ u, exec .shutterGate s = .next u ∧ u.gated = true
      ∧ u = { s with gated := true, shutNow := false, shutArm := false, stream := u.stream, nondet := u.nondet }
      ∧ u.stream.take 24 = le 2 0 ++ le 2 0 ++ le 4 16 ++ le 8 0 ++ bvBytes 8 s.shutTick :=
  ⟨_, congrArg Host.Outcome.next (if_pos ((State.gateDue_iff h).2 ⟨hg, hdue⟩)), rfl, rfl, s.scan_head⟩

theorem exec_shutterGate_early (hn : s.shutNow = false) (ha : s.shutArm = false ∨ s.tick < s.shutTick.toNat) :
    exec .shutterGate s = .next s := by
  refine congrArg Host.Outcome.next (if_neg ?_)
  rw [State.gateDue_iff h]
  rintro ⟨-, hnow | ⟨harm, htick⟩⟩
  · simp [hn] at hnow
  · rcases ha with ha | ha
    · simp [ha] at harm
    · omega

theorem exec_shutterData : exec .shutterData s = .next { s with
    outbox := s.outbox ++ [.read (BitVec.ofNat 64 (leNat (s.stream.take 8)))], stream := s.stream.drop 8 } :=
  congrArg Host.Outcome.next (if_pos h)

theorem exec_shutterReadout (t : DWord) (n : Nat) :
    (s.gated = false → exec (.shutterReadout t n) s = .next { s with shutTick := t, shutArm := true })
    ∧ (s.gated = true → exec (.shutterReadout t n) s = .next { s with
      outbox := s.outbox ++ [.scan (s.stream.take n)], stream := s.stream.drop n }) := by
  change (_ → execShutterReadout t n s = _) ∧ (_ → execShutterReadout t n s = _)
  unfold execShutterReadout
  refine ⟨fun hg => ?_, fun hg => ?_⟩
  · rw [if_neg (by simp [hg]), if_pos h]
  · rw [if_pos hg]
    rfl

end

end

/-- Settles O57: one lemma for each register's event above, put together. -/
theorem registerEvents : Obligations.RegisterEvents := by
  unfold Obligations.RegisterEvents
  refine ⟨fun s hr hd => ?_, fun s hr hd => ?_⟩
  · have h : s.regs = true := State.regs_up hr hd
    exact ⟨exec_admqWidx h, exec_linkpairPaired hd, exec_fqEnable h, exec_podidWrite h, exec_xpeertoWrite h, exec_xlstatClrcnt h,
      exec_timetableSkipsClear h, exec_msixUnmask h, exec_registerWrites h⟩
  · have h : s.regs = true := State.regs_up hr hd
    exact ⟨exec_shutterArm h, exec_shutterNow h, exec_shutterGate_due h, exec_shutterGate_early h, exec_shutterUngate_gated,
      exec_shutterData h, exec_shutterReadout h⟩

end Sys2Proof.Machine
end

section
/-! SUPPORT. A link that goes down passes its requests to other links (R30): O59. -/

namespace Sys2Proof.Machine

section
variable {s : State}

/-- A link as lane repair leaves it when too few lanes remain (R29, R30). -/
def XLink.lowered (l : XLink) (k : Fin 8) : XLink :=
  { l with lanemap := l.lanemap &&& ~~~((1 : BitVec 8) <<< k.val), repairs := min (l.repairs + 1) 255, crcRow := 0, up := false, down := true }

/-- LANE_REPAIR below 6 lanes takes the link down. -/
theorem exec_laneRepair_down (n : Fin 12) (k : Fin 8) {l : XLink} (hl : { s.link n.val with n := n.val } = l) (hrun : s.running = true)
    (hup : l.up = true) (hlane : l.lanemap.getLsbD k.val = true) (hfew : popcount (l.lowered k).lanemap < 6) :
    exec (.laneRepair n k) s = .next (s.linkDown (l.lowered k)) := by
  change execLaneRepair n k s = _
  unfold execLaneRepair
  extract_lets src l₀ m ok l₁
  have hl₀ : l₀ = l := hl
  have hm : m = (l.lowered k).lanemap := by
    rw [← hl₀]
    rfl
  have hok : ¬ ok := by
    unfold ok
    rw [hm]
    omega
  have hl₁ : l₁ = l.lowered k := by
    unfold l₁
    rw [decide_eq_false hok, hm, hl₀]
    rfl
  rw [if_neg (by simp [hl₀, hrun, hup, hlane]), if_neg hok, hl₁]

/-- The one request that a link which goes down had not sent, the package's own, takes another link. -/
theorem State.linkDown_one {l : XLink} {x : Queued} {o : Nat} (hq : l.queue = [x]) (hx : x.req = none)
    (ho : (s.putLink { l with queue := [] }).linkOf x.pa = some o) : s.linkDown l
      = (s.putLink { l with queue := [] }).push { (s.putLink { l with queue := [] }).link o with n := o } [x] := by
  unfold State.linkDown
  rw [hq, List.foldl_cons, List.foldl_nil]
  simp only [hx, ho]

end

/-- A read for package 5 that comes from package 1. -/
def passing : PeerReq := { src := 1, dst := 5, hops := 1, addr := 0, op := .read 8 }

/-- A request of the package itself to package 5. -/
def leaving : Queued := { flits := 1, pa := 2 ^ 55 + 2 ^ 44 * 5 }

/-- Link 0 has six lanes left, and a request that it has not sent. -/
def sixLanes : XLink := { n := 0, up := true, down := false, lanemap := 0xFC, queue := [leaving] }

/-- Links 0 and 1 both lead to package 5. Link 1 holds a request that it forwards, for which its replay buffer has room. -/
def twoRoutes : State :=
  { State.reset with
    ready := true, ctl := [(0x102014, 0x1003)]
    links := [sixLanes, { n := 1, up := true, down := false, queue := [{ leaving with req := some passing }] }] }

/-- What is left of it when link 0 has lost lane 7. -/
def oneRoute : State := twoRoutes.putLink { sixLanes.lowered 7 with queue := [] }

theorem oneRoute_linkOf : oneRoute.linkOf leaving.pa = some 1 := by
  have hroute : oneRoute.route (leaving.pa / 2 ^ 44 % 2 ^ 10) = [1] := by decide
  unfold State.linkOf State.linkTo
  rw [hroute]
  simp [Nat.mod_one]

/-- The request that waited on link 1 to be forwarded leaves before the one that comes from link 0. -/
theorem twoRoutes_laneRepair : ∃ u, exec (.laneRepair 0 7) twoRoutes = .next u ∧ u.outbox = [.forward passing] := by
  have h := exec_laneRepair_down (s := twoRoutes) (l := sixLanes) 0 7 rfl rfl rfl rfl (by decide)
  rw [State.linkDown_one (o := 1) rfl rfl oneRoute_linkOf] at h
  exact ⟨_, h, by decide⟩

/-- Refutes O59: a request that changes links lets out one that already waited there to be forwarded, where the replay buffer has room. The clause
on a LANE_REPAIR that moves a request says that nothing leaves, and does not ask that the other link's queue is empty or lacks room. -/
theorem not_linkEvents : ¬ Obligations.LinkEvents := by
  unfold Obligations.LinkEvents
  intro h
  obtain ⟨-, -, -, hlink, -⟩ := h twoRoutes rfl rfl
  obtain ⟨-, hlanes, -⟩ := hlink 0
  obtain ⟨-, hmoves, -⟩ := hlanes 7 rfl rfl rfl
  obtain ⟨-, hother⟩ := hmoves leaving (by decide) rfl rfl
  have hroutes : (twoRoutes.route (leaving.pa / 2 ^ 44 % 2 ^ 10)).filter (· != (0 : Fin 12).val) = [1] := by decide
  obtain ⟨u, hu, -, -, hout, -⟩ := hother 1 (by rw [hroutes]; simp [Nat.mod_one])
  obtain ⟨v, hv, hforward⟩ := twoRoutes_laneRepair
  cases hu.symm.trans hv
  exact absurd (hout.symm.trans hforward) (by decide)

end Sys2Proof.Machine
end

section
/-! SUPPORT. A line that an error poisons, and a store that ends the poison again (R11): O60. -/

namespace Sys2Proof.Machine

/-- A LAUNCH packet of one team in mode 1. -/
def oneTeam : LaunchPkt :=
  { image := 0, args := 0, sigaddr := 0, sigval := 0, teams := 1, spbytes := 0, waves := 1, lanes := 64, ntags := 0, ntiles := 0, nbanks := 0
    mode := 1, latch := false, co := false, affinity := false, idem := false, logsz := 0, id := 0, podgrp := 0 }

/-- One wave of one team that has a save record. Its context's memory begins at line 0, and all of that line but bytes 16 to 23, which count the
pool's bytes in use, have been rewritten. -/
def lineRewritten : State :=
  { State.reset with
    ready := true
    waves := [{ key := 0, team := 0, wid := 0, place := some 0 }]
    teams := [{ key := 0, launch := 0, ctx := 0, tix := 0, core := some 0, rec_ := some (0, 0) }]
    launches := [{ key := 0, ctx := 0, queue := 0, idx := 0, tt := none, p := oneTeam }]
    ctxs := [{ id := 0, pasid := 0, mem := 0, trapImg := 0, trapPolicy := true, checked := false, drain := 0, q := 0, p := 0 }]
    rewrote := [(0, ~~~lineMask 0 16 8)] }

theorem lineRewritten_wenv : ∃ e, lineRewritten.wenv? 0 = some e ∧ e.w.place.isSome = true ∧ e.l.p.mode = 1 ∧ e.t.direct = false
    ∧ ∀ struck, (lineRewritten.poisonLine 0).replayedOut e.t { e.l with struck } = false := ⟨_, rfl, rfl, rfl, rfl, fun _ => rfl⟩

/-- Freeing the team's save record rewrites the rest of the line. -/
theorem lineRewritten_strike : ∃ u, exec (.uncorrectedError 0 3 0) lineRewritten = .next u ∧ u.poison = [] :=
  ⟨_, rfl, by decide⟩

/-- Refutes O60: an error poisons its line, then the end of its team frees the team's save record, and the store of R130 ends the poison where the
other bytes of the line count as rewritten already. The clause that the line is poisoned afterwards asks nothing of `rewrote`, which every
step leaves empty. -/
theorem not_packageEvents : ¬ Obligations.PackageEvents := by
  unfold Obligations.PackageEvents
  intro h
  obtain ⟨-, -, -, -, -, -, -, -, -, -, hstrike, -⟩ := h lineRewritten
  obtain ⟨e, he, hplaced, hmode, hdirect, hout⟩ := lineRewritten_wenv
  obtain ⟨u, l, hu, -, -, -, -, -, -, hpoison, -⟩ := hstrike 0 3 0 e rfl he hplaced (by decide) (by decide) (by decide)
    (hout _) (.inl ⟨by omega, hdirect⟩)
  obtain ⟨v, hv, hclean⟩ := lineRewritten_strike
  cases hu.symm.trans hv
  have hline := hpoison (.inl rfl) (by decide)
  rw [hclean] at hline
  cases hline

end Sys2Proof.Machine
end

section
/-! SUPPORT. What stores, traces, messages and the traffic of accesses leave unchanged, and the bytes of a word stored: O47, O53, O54. -/

namespace Sys2Proof.Machine

section
variable {s t u : State}

/-! ### Bytes of a word -/

theorem leNat_leBytes (n x : Nat) : leNat (leBytes n x) = x % 256 ^ n := by
  induction n generalizing x with
  | zero => simp [leBytes, leNat, Nat.mod_one]
  | succ n ih =>
    have h8 : (BitVec.ofNat 8 x).toNat = x % 256 := by simp
    rw [leBytes, leNat, ih, h8, Nat.pow_succ', Nat.mod_mul]

theorem mnat_mput (m : List Host.Cell) (a n x : Nat) : mnat (mput m a (leBytes n x)) a n = x % 256 ^ n := by
  have h := mbytes_mput m a (leBytes n x)
  rw [length_leBytes] at h
  rw [mnat, h, leNat_leBytes]

theorem mbytes_drop_take (m : List Host.Cell) (a n i k : Nat) (h : i + k ≤ n) :
    ((mbytes m a n).drop i).take k = mbytes m (a + i) k := by
  apply List.ext_getElem
  · simp only [List.length_take, List.length_drop, mbytes_length]
    omega
  · intro j h₁ h₂
    rw [mbytes_length] at h₂
    rw [List.getElem_take, List.getElem_drop, mbytes_get _ _ _ _ (by omega), mbytes_get _ _ _ _ h₂, Nat.add_assoc]

/-- A field of bytes read is the number that stands there. -/
theorem bnat_mbytes (m : List Host.Cell) (a n i k : Nat) (h : i + k ≤ n) : bnat (mbytes m a n) i k = mnat m (a + i) k := by
  rw [bnat, mbytes_drop_take _ _ _ _ _ h, mnat]

theorem leNat_lt (l : List Byte) : leNat l < 256 ^ l.length := by
  induction l with
  | nil => simp [leNat]
  | cons b l ih =>
    have hb : b.toNat < 256 := b.isLt
    rw [leNat, List.length_cons, Nat.pow_succ']
    omega

theorem bnat_lt (b : List Byte) (off n : Nat) : bnat b off n < 256 ^ n := by
  refine lt_of_lt_of_le (leNat_lt _) (Nat.pow_le_pow_right (by omega) ?_)
  simp

/-! ### Stores and traces -/

/-- Nothing but memory, what is remembered of it, links that a store hits, and the trace changes from one state to another. -/
def State.StoresOnly (s t : State) : Prop :=
  t = { s with
    mem := t.mem, poison := t.poison, rewrote := t.rewrote, forms := t.forms, waves := t.waves, hist := t.hist, written := t.written
    trStat := t.trStat, trSrcs := t.trSrcs, trTail := t.trTail }

theorem State.StoresOnly.refl (s : State) : s.StoresOnly s := rfl

theorem State.StoresOnly.trans (h : s.StoresOnly t) (g : t.StoresOnly u) : s.StoresOnly u := by
  unfold State.StoresOnly at *
  rw [g, h]

theorem State.store_storesOnly (s : State) (who : Option (Nat × DWord)) (pa : Nat) (b : List Byte) (cmp : Bool) :
    s.StoresOnly (s.store who pa b cmp) := rfl

theorem State.toHost_storesOnly (s : State) (a : Nat) (b : List Byte) : s.StoresOnly (s.toHost a b) := by
  unfold State.toHost
  split
  · exact s.store_storesOnly _ _ _ _
  · exact .refl s

theorem State.toHost_mem (s : State) {a : Nat} {b : List Byte} (h : a + b.length ≤ 2 ^ 52) : (s.toHost a b).mem = mput s.mem (hostPa a) b := by
  unfold State.toHost
  rw [if_pos h]
  rfl

theorem State.trace_storesOnly (s : State) (src kind en ctx payload : Nat) (more : List Nat) :
    s.StoresOnly (s.trace src kind en ctx payload more) := by
  unfold State.trace
  split
  · exact .refl s
  extract_lets x put re delta head ws line s₁
  have h₁ : s.StoresOnly s₁ := s.toHost_storesOnly _ _
  split
  · rfl
  · exact h₁.trans rfl

theorem State.sync_storesOnly (s : State) (src scope ctx unit last lastTick long longTick : Nat) :
    s.StoresOnly (s.sync src scope ctx unit last lastTick long longTick) := s.trace_storesOnly _ _ _ _ _ _

theorem State.StoresOnly.foldl {α : Type} {f : State → α → State} (hf : ∀ (s : State) a, s.StoresOnly (f s a)) (l : List α) (s : State) :
    s.StoresOnly (l.foldl f s) :=
  List.foldlRecOn l f (.refl s) fun _ h a _ => h.trans (hf _ a)

/-! ### Messages -/

theorem State.msix_only (s : State) (a vec : Nat) :
    s.msix a vec = { s with outbox := (s.msix a vec).outbox, pending := (s.msix a vec).pending } := by
  unfold State.msix
  dsimp only
  split
  · rw [State.sendMsix_eq]
  · rfl

end

end Sys2Proof.Machine
end

section
/-! SUPPORT. Admin packets of contexts, queues, translation and pre-emption (R55, R56, R88): O54. -/

namespace Sys2Proof.Machine

section
variable {s : State} {b : List Byte} {i : Instr} {op code : Nat} {checks : State → List Byte → List (Bool × Nat)} {mine : List Byte → Bool}
  {act : State → List Byte → State}

/-! ### A packet completes (R56) -/

/-- What the completion of an admin packet changes: memory with its status word, the message of vector 1, and the queue's place. -/
theorem State.admDone_only (s : State) (b : List Byte) (code : Nat) : ∃ t : State, s.StoresOnly t
    ∧ t.mem = (s.toHost (bnat b 56 8 / 8 * 8) (le 8 code)).mem
    ∧ s.admDone b code = { t with
        admRidx := s.admRidx + 1, adm := none, outbox := (s.admDone b code).outbox, pending := (s.admDone b code).pending } := by
  refine ⟨_, s.toHost_storesOnly _ _, rfl, ?_⟩
  unfold State.admDone
  dsimp only
  rw [State.msix_only]

theorem State.admDone_status (hb : bnat b 56 8 / 8 * 8 + 8 ≤ 2 ^ 52) (hc : code < 2 ^ 64) :
    mnat (s.admDone b code).mem (hostPa (bnat b 56 8 / 8 * 8)) 8 = code := by
  obtain ⟨t, -, hm, hd⟩ := s.admDone_only b code
  rw [hd, hm, State.toHost_mem s (by rwa [length_leBytes]), mnat_mput]
  exact Nat.mod_eq_of_lt hc

@[simp] theorem State.admDone_admRidx : (s.admDone b code).admRidx = s.admRidx + 1 := by
  obtain ⟨t, -, -, hd⟩ := s.admDone_only b code
  rw [hd]

@[simp] theorem State.admDone_adm : (s.admDone b code).adm = none := by
  obtain ⟨t, -, -, hd⟩ := s.admDone_only b code
  rw [hd]

@[simp] theorem State.admDone_ctxs : (s.admDone b code).ctxs = s.ctxs := by
  obtain ⟨t, ht, -, hd⟩ := s.admDone_only b code
  rw [hd, ht]

@[simp] theorem State.admDone_queues : (s.admDone b code).queues = s.queues := by
  obtain ⟨t, ht, -, hd⟩ := s.admDone_only b code
  rw [hd, ht]

@[simp] theorem State.admDone_teams : (s.admDone b code).teams = s.teams := by
  obtain ⟨t, ht, -, hd⟩ := s.admDone_only b code
  rw [hd, ht]

@[simp] theorem State.admDone_timetable : (s.admDone b code).timetable = s.timetable := by
  obtain ⟨t, ht, -, hd⟩ := s.admDone_only b code
  rw [hd, ht]

@[simp] theorem State.admDone_apertures : (s.admDone b code).apertures = s.apertures := by
  obtain ⟨t, ht, -, hd⟩ := s.admDone_only b code
  rw [hd, ht]

@[simp] theorem State.admDone_tai : (s.admDone b code).tai = s.tai := by
  obtain ⟨t, ht, -, hd⟩ := s.admDone_only b code
  rw [hd, ht]

@[simp] theorem State.admDone_tlb : (s.admDone b code).tlb = s.tlb := by
  obtain ⟨t, ht, -, hd⟩ := s.admDone_only b code
  rw [hd, ht]

@[simp] theorem State.admDone_ctx (k : Nat) : (s.admDone b code).ctx? k = s.ctx? k := by simp [State.ctx?]

@[simp] theorem State.admDone_queue (k : Nat) : (s.admDone b code).queue? k = s.queue? k := by simp [State.queue?]

/-- An event completes the packet with a code, and leaves the rest of the host interface as it was. -/
def Stops (s : State) (b : List Byte) (i : Instr) (code : Nat → Prop) : Prop := ∃ u, exec i s = .next u ∧ u.admRidx = s.admRidx + 1
  ∧ u.adm = none ∧ code (mnat u.mem (hostPa (bnat b 56 8 / 8 * 8)) 8) ∧ u.ctxs = s.ctxs ∧ u.queues = s.queues ∧ u.teams = s.teams
  ∧ u.timetable = s.timetable ∧ u.apertures = s.apertures ∧ u.tai = s.tai

/-- An event completes the packet, whose status address is aligned, with a code. -/
def Completes (s : State) (b : List Byte) (i : Instr) (code : Nat) (P : State → Prop) : Prop := ∃ u, exec i s = .next u
  ∧ u.admRidx = s.admRidx + 1 ∧ u.adm = none ∧ mnat u.mem (hostPa (bnat b 56 8)) 8 = code ∧ P u

theorem stops_of_admDone {P : Nat → Prop} (hexec : exec i s = .next (s.admDone b code)) (hb : bnat b 56 8 / 8 * 8 + 8 ≤ 2 ^ 52)
    (hc : code < 2 ^ 64) (hP : P code) : Stops s b i P :=
  ⟨_, hexec, by simp, by simp, by rwa [State.admDone_status hb hc], by simp, by simp, by simp, by simp, by simp, by simp⟩

theorem completes_of_admDone {t : State} {P : State → Prop} (hexec : exec i s = .next (t.admDone b code)) (ht : t.admRidx = s.admRidx)
    (hal : bnat b 56 8 % 8 = 0) (hb : bnat b 56 8 / 8 * 8 + 8 ≤ 2 ^ 52) (hc : code < 2 ^ 64) (hP : P (t.admDone b code)) :
    Completes s b i code P := by
  refine ⟨_, hexec, by simp [ht], by simp, ?_, hP⟩
  have hst := State.admDone_status (s := t) hb hc
  rwa [show bnat b 56 8 / 8 * 8 = bnat b 56 8 by omega] at hst

/-! ### The checks of a packet, in their order (R55) -/

theorem State.admNext_adm (h : s.admNext = some b) : s.adm = none := by
  unfold State.admNext at h
  split at h
  next hn =>
    simp only [Bool.and_eq_true, Option.isNone_iff_eq_none] at hn
    exact hn.1.2
  next => cases h

theorem firstBadCheck_none {l : List (Bool × Nat)} (h : ∀ x ∈ l, x.1 = false) : firstBadCheck l = none := by
  unfold firstBadCheck
  rw [List.find?_eq_none.2 (by simpa using h)]
  rfl

theorem firstBadCheck_false (k : Nat) (l : List (Bool × Nat)) : firstBadCheck ((false, k) :: l) = firstBadCheck l := rfl

theorem firstBadCheck_mem {l : List (Bool × Nat)} {c : Nat} (h : firstBadCheck l = some c) : ∃ x ∈ l, x.2 = c := by
  unfold firstBadCheck at h
  obtain ⟨x, hx, hc⟩ := Option.map_eq_some_iff.1 h
  exact ⟨x, List.mem_of_find?_eq_some hx, hc⟩

theorem le_firstBadCheck {l : List (Bool × Nat)} {n d : Nat} (hd : n ≤ d) (h : ∀ x ∈ l, n ≤ x.2) : n ≤ (firstBadCheck l).getD d := by
  cases hc : firstBadCheck l with
  | none => exact hd
  | some c =>
    obtain ⟨x, hx, rfl⟩ := firstBadCheck_mem hc
    exact h x hx

theorem admOp_range (h : 0x80 ≤ bnat b 0 1 ∧ bnat b 0 1 ≤ 0x8C) : admOp b = true := by simpa [admOp] using h

/-- A packet of an opcode that no admin packet has. -/
theorem adminEvent_badOpcode (hn : s.admNext = some b) (h : bnat b 0 1 < 0x80 ∨ 0x8C < bnat b 0 1) :
    adminEvent op checks mine act s = .next (s.admDone b 1) := by
  have hop : admOp b = false := by
    simp only [admOp, Bool.and_eq_false_iff, decide_eq_false_iff_not]
    omega
  unfold adminEvent
  rw [hn]
  simp [hop]

section
variable (hn : s.admNext = some b) (hop : bnat b 0 1 = op) (hr : 0x80 ≤ op ∧ op ≤ 0x8C)
include hn hop hr

theorem adminEvent_failed (hc : admCheck b (checks s b) = some code) : adminEvent op checks mine act s = .next (s.admDone b code) := by
  unfold adminEvent
  rw [hn]
  simp [admOp_range (hop ▸ hr), hop, hc]

theorem adminEvent_passed (hc : admCheck b (checks s b) = none) (hm : mine b = true) : adminEvent op checks mine act s = .next (act s b) := by
  unfold adminEvent
  rw [hn]
  simp [admOp_range (hop ▸ hr), hop, hc, hm]

/-- The first check that fails gives the code of a packet whose status address is aligned. -/
theorem adminEvent_fails (hh : headBad b = false) (hal : bnat b 56 8 % 8 = 0) (hc : firstBadCheck (checks s b) = some code) :
    adminEvent op checks mine act s = .next (s.admDone b code) := by
  have hchk : admCheck b (checks s b) = some code := by
    unfold admCheck
    rw [hh, firstBadCheck_false, hc]
    simp [hal]
  exact adminEvent_failed hn hop hr hchk

/-- A packet acts once no check has failed. -/
theorem adminEvent_acts (hh : headBad b = false) (hal : bnat b 56 8 % 8 = 0) (hc : ∀ x ∈ checks s b, x.1 = false) (hm : mine b = true) :
    adminEvent op checks mine act s = .next (act s b) := by
  have hchk : admCheck b (checks s b) = none := by
    unfold admCheck
    rw [hh, firstBadCheck_none (by simpa using hc)]
    simp [hal]
  exact adminEvent_passed hn hop hr hchk hm

/-- A status address that is misaligned fails with code 4, unless a check before it fails. -/
theorem adminEvent_misaligned (hal : bnat b 56 8 % 8 ≠ 0) : adminEvent op checks mine act s
    = .next (s.admDone b (min ((firstBadCheck ((headBad b, 2) :: checks s b)).getD 4) 4)) := by
  refine adminEvent_failed hn hop hr ?_
  unfold admCheck
  cases firstBadCheck ((headBad b, 2) :: checks s b) <;> simp [hal]

end

/-- The admin events that act on a packet of the queue, with their opcodes (R56). -/
def adminEvents : List (Nat × Instr) :=
  [(0x80, .ctxCreate), (0x81, .ctxDestroy), (0x82, .queueCreate), (0x83, .queueDestroy), (0x84, .setRange), (0x85, .setPtbase)
   , (0x86, .setAperture), (0x87, .preempt), (0x87, .preemptResume), (0x88, .timetableSet), (0x89, .timeSet), (0x89, .timeOffset)
   , (0x89, .timeRate), (0x89, .setAtPps), (0x8A, .icinvBroadcast), (0x8B, .traceConfig), (0x8C, .retry), (0x8C, .faultReplyTrap)
   , (0x8C, .kill), (0x8C, .releaseCore)]

/-- An event is the admin event of an opcode, with checks whose codes are those of R55. -/
def ActsOnPacket (s : State) (x : Nat × Instr) : Prop := ∃ (checks : State → List Byte → List (Bool × Nat)) (mine : List Byte → Bool)
  (act : State → List Byte → State), exec x.2 s = adminEvent x.1 checks mine act s ∧ ∀ b, ∀ y ∈ checks s b, 2 ≤ y.2

theorem exec_queueDestroy_first (ha : s.adm = none) : ∃ act, exec .queueDestroy s = adminEvent 0x83 (fun s b =>
    [(bnat b 10 1 / 2 != 0 || !bzero b 11 45, 2), ((s.queue? (bnat b 8 2)).isNone, 11)]) (fun _ => true) act s := by
  change ∃ act, execQueueDestroy s = _
  unfold execQueueDestroy
  rw [ha]
  exact ⟨_, rfl⟩

theorem ActsOnPacket.of {op : Nat} {checks : State → List Byte → List (Bool × Nat)} {mine : List Byte → Bool} {act : State → List Byte → State}
    (he : exec i s = adminEvent op checks mine act s) (hc : ∀ b, ∀ y ∈ checks s b, 2 ≤ y.2) : ActsOnPacket s (op, i) := ⟨_, _, _, he, hc⟩

theorem ctxCreateChk_codes : (ctxCreateChk s b).map Prod.snd = [2, 3, 4, 7, 10] := rfl

theorem two_le_ctxCreateChk : ∀ y ∈ ctxCreateChk s b, 2 ≤ y.2 := by
  have h : ∀ k ∈ (ctxCreateChk s b).map Prod.snd, 2 ≤ k := by
    rw [ctxCreateChk_codes]
    decide
  exact fun y hy => h _ (List.mem_map_of_mem hy)

theorem two_le_timeChk : ∀ y ∈ timeChk s b, 2 ≤ y.2 := by simp [timeChk]

theorem two_le_replyChk : ∀ y ∈ replyChk s b, 2 ≤ y.2 := by simp [replyChk]

theorem two_le_preemptChk : ∀ y ∈ preemptChk s b, 2 ≤ y.2 := by simp [preemptChk]

/-- Each admin event that meets no packet in progress acts on the packet of its opcode. -/
theorem adminEvents_actOnPacket (ha : s.adm = none) : ∀ x ∈ adminEvents, ActsOnPacket s x := by
  obtain ⟨act, hq⟩ := exec_queueDestroy_first ha
  unfold adminEvents
  simp only [List.forall_mem_cons]
  exact ⟨.of (execCtxCreate.eq_def s) fun _ => two_le_ctxCreateChk, .of (execCtxDestroy.eq_def s) (by simp),
    .of (execQueueCreate.eq_def s) (by simp), .of hq (by simp), .of (execSetRange.eq_def s) (by simp), .of (execSetPtbase.eq_def s) (by simp),
    .of (execSetAperture.eq_def s) (by simp), .of (execPreempt.eq_def s) fun _ => two_le_preemptChk,
    .of (execPreemptResume.eq_def s) fun _ => two_le_preemptChk, .of (execTimetableSet.eq_def s) (by simp),
    .of (execTimeSet.eq_def s) fun _ => two_le_timeChk, .of (execTimeOffset.eq_def s) fun _ => two_le_timeChk,
    .of (execTimeRate.eq_def s) fun _ => two_le_timeChk, .of (execSetAtPps.eq_def s) fun _ => two_le_timeChk,
    .of (execIcinvBroadcast.eq_def s) (by simp), .of (execTraceConfig.eq_def s) (by simp),
    .of (execRetry.eq_def s) fun _ => two_le_replyChk, .of (execFaultReplyTrap.eq_def s) fun _ => two_le_replyChk,
    .of (execKill.eq_def s) fun _ => two_le_replyChk, .of (execReleaseCore.eq_def s) fun _ => two_le_replyChk, by simp⟩

/-- Whichever admin event meets it, a packet of no admin opcode completes with code 1. -/
theorem adminEvents_badOpcode (hb : bnat b 56 8 / 8 * 8 + 8 ≤ 2 ^ 52) (hn : s.admNext = some b)
    (h : bnat b 0 1 < 0x80 ∨ 0x8C < bnat b 0 1) : ∀ x ∈ adminEvents, Stops s b x.2 (· = 1) := by
  intro x hx
  obtain ⟨checks, mine, act, hexec, -⟩ := adminEvents_actOnPacket (State.admNext_adm hn) x hx
  exact stops_of_admDone (hexec.trans (adminEvent_badOpcode hn h)) hb (by omega) rfl

theorem adminEvents_opcode : ∀ x ∈ adminEvents, 0x80 ≤ x.1 ∧ x.1 ≤ 0x8C := by decide

/-- A packet whose status address is misaligned completes with the first code that fails, and with 4 when none does before. -/
theorem adminEvents_misaligned (hb : bnat b 56 8 / 8 * 8 + 8 ≤ 2 ^ 52) (hal : bnat b 56 8 % 8 ≠ 0) (hn : s.admNext = some b) :
    ∀ x ∈ adminEvents, bnat b 0 1 = x.1 →
      (headBad b = true → Stops s b x.2 (· = 2)) ∧ Stops s b x.2 fun code => 2 ≤ code ∧ code ≤ 4 := by
  intro x hx hop
  obtain ⟨checks, mine, act, hexec, hcodes⟩ := adminEvents_actOnPacket (State.admNext_adm hn) x hx
  rw [adminEvent_misaligned hn hop (adminEvents_opcode x hx) hal] at hexec
  refine ⟨fun hh => ?_, ?_⟩
  · rw [hh] at hexec
    have hc : firstBadCheck ((true, 2) :: checks s b) = some 2 := rfl
    rw [hc] at hexec
    exact stops_of_admDone hexec hb (by decide) rfl
  · have hlow : 2 ≤ (firstBadCheck ((headBad b, 2) :: checks s b)).getD 4 :=
      le_firstBadCheck (by decide) (List.forall_mem_cons.2 ⟨le_rfl, hcodes b⟩)
    exact stops_of_admDone hexec hb (by omega) (by omega)

end

end Sys2Proof.Machine
end

section
/-! SUPPORT. What each admin packet of contexts, queues, translation and pre-emption does: O54. -/

namespace Sys2Proof.Machine

section
variable {s : State} {b : List Byte} {i : Instr} {op code : Nat} {checks : State → List Byte → List (Bool × Nat)} {mine : List Byte → Bool}
  {act f : State → List Byte → State}

/-! ### Lists by key -/

theorem find?_filter_key {α : Type} (l : List α) (key : α → Nat) (k n : Nat) :
    (l.filter fun x => key x != k).find? (fun x => key x == n) = if n = k then none else l.find? fun x => key x == n := by
  rw [List.find?_filter]
  split
  next h =>
    subst h
    rw [List.find?_eq_none]
    simp
  next h =>
    congr 1
    funext x
    grind

theorem State.hasCtx_of_ne {k : Nat} (h : s.ctx? k ≠ none) : s.hasCtx k = true := Option.isSome_iff_ne_none.2 h

theorem State.ctx_id {k : Nat} {c : Ctx} (h : s.ctx? k = some c) : c.id = k := by simpa using List.find?_some h

theorem State.queue_id {k : Nat} {q : Queue} (h : s.queue? k = some q) : q.id = k := by simpa using List.find?_some h

/-! ### The packets' records -/

/-- The pool that a context's header names (R130). -/
theorem ctxOf_pool (m : List Host.Cell) (a : Nat) :
    (ctxOf b (mbytes m a 16)).poolbase = mnat m a 8 ∧ (ctxOf b (mbytes m a 16)).poolsize = mnat m (a + 8) 8 :=
  ⟨bnat_mbytes m a 16 0 8 (by decide), bnat_mbytes m a 16 8 8 (by decide)⟩

/-- The checks of CTX_CREATE, of a header that can be read. -/
theorem ctxCreateChk_of_read {hd : List Byte} (h : readAt s.poison s.mem (bnat b 16 8) 4096 = .ok hd) : ctxCreateChk s b =
    [(!bzero b 10 2 || bnat b 12 4 / 2 ^ 20 != 0 || bnat b 32 1 / 4 != 0 || !bzero b 33 3 || !bzero b 42 14
        || (State.ctxMemOk (bnat b 16 8) && !bzero hd 32 4064), 2),
     (1023 < ctxAt b || bnat b 41 1 == 255 || !State.ctxMemOk (bnat b 16 8) || bnat hd 0 8 < 0x2801000, 3),
     (bnat b 16 8 % 4096 != 0 || bnat hd 0 8 % 4096 != 0 || bnat hd 8 8 % 4096 != 0, 4),
     (State.ctxMemOk (bnat b 16 8) && false, 7), (s.hasCtx (ctxAt b), 10)] := by
  simp only [ctxCreateChk, h, -List.reduceReplicate]
  rfl

theorem apertureBad_unbound (h : bnat b 9 1 = 0) : apertureBad (apertureOf b) = false := by
  have hk : (apertureOf b).kind = 0 := h
  simp [apertureBad, hk]

/-- A status address that is misaligned outweighs the checks of CTX_DESTROY that find no context or a queue in it (R55). -/
theorem ctxDestroy_misaligned (hb : bnat b 56 8 / 8 * 8 + 8 ≤ 2 ^ 52) (hal : bnat b 56 8 % 8 ≠ 0) (hn : s.admNext = some b)
    (hop : bnat b 0 1 = 0x81) (hh : headBad b = false) (hz : bzero b 10 46 = true) : Stops s b .ctxDestroy (· = 4) := by
  have hexec := (execCtxDestroy.eq_def s).trans (adminEvent_misaligned hn hop (by decide) hal)
  refine stops_of_admDone hexec hb (by omega) ?_
  simp only [hh, hz, Bool.not_true, firstBadCheck_false]
  exact Nat.min_eq_right (le_firstBadCheck (by decide) (by simp))

/-! ### A packet that acts at once -/

section
variable (hal : bnat b 56 8 % 8 = 0) (hb : bnat b 56 8 / 8 * 8 + 8 ≤ 2 ^ 52) (hn : s.admNext = some b) (hop : bnat b 0 1 = op)
  (hr : 0x80 ≤ op ∧ op ≤ 0x8C) (hh : headBad b = false)
include hal hb hn hop hr hh

/-- A packet that acts at once completes with code 0. -/
theorem completes_atOnce {P : State → Prop} (he : exec i s = adminEvent op checks mine (atOnce f) s) (hm : mine b = true)
    (hc : ∀ x ∈ checks s b, x.1 = false) (hf : (f s b).admRidx = s.admRidx) (hP : P ((f s b).admDone b 0)) : Completes s b i 0 P :=
  completes_of_admDone (he.trans (adminEvent_acts hn hop hr hh hal hc hm)) hf hal hb (by decide) hP

/-- A packet that fails a check completes with the check's code. -/
theorem completes_failed {P : State → Prop} (he : exec i s = adminEvent op checks mine act s) (hc : firstBadCheck (checks s b) = some code)
    (hcode : code < 2 ^ 64) (hP : P (s.admDone b code)) : Completes s b i code P :=
  completes_of_admDone (he.trans (adminEvent_fails hn hop hr hh hal hc)) rfl hal hb hcode hP

end

section
variable (hal : bnat b 56 8 % 8 = 0) (hb : bnat b 56 8 / 8 * 8 + 8 ≤ 2 ^ 52) (hn : s.admNext = some b) (hh : headBad b = false)
include hal hb hn hh

/-! ### Contexts -/

theorem ctxCreate_completes (hop : bnat b 0 1 = 0x80) (hc : ∀ x ∈ ctxCreateChk s b, x.1 = false) :
    Completes s b .ctxCreate 0 fun u => u.ctx? (ctxAt b) = some (ctxOf b (mbytes s.mem (bnat b 16 8) 16))
      ∧ ∀ k, k ≠ ctxAt b → u.ctx? k = s.ctx? k := by
  refine completes_atOnce hal hb hn hop (by decide) hh (execCtxCreate.eq_def s) rfl hc ?_ ?_
  · rw [State.putCtx_admRidx, State.store_admRidx]
  · refine ⟨?_, fun k hk => ?_⟩
    · rw [State.admDone_ctx]
      exact State.ctx_putCtx_self _ _
    · rw [State.admDone_ctx, State.ctx_putCtx_ne _ _ _ hk]
      rfl

theorem ctxCreate_exists (hop : bnat b 0 1 = 0x80) (hz : bzero b 10 2 = true ∧ bzero b 33 3 = true ∧ bzero b 42 14 = true)
    (hf : bnat b 12 4 < 2 ^ 20 ∧ bnat b 32 1 < 4 ∧ ctxAt b ≤ 1023 ∧ bnat b 41 1 ≠ 255) (hm : State.ctxMemOk (bnat b 16 8) = true)
    (hd : bzero (mbytes s.mem (bnat b 16 8) 4096) 32 4064 = true)
    (hpool : 0x2801000 ≤ mnat s.mem (bnat b 16 8) 8 ∧ mnat s.mem (bnat b 16 8) 8 % 4096 = 0 ∧ mnat s.mem (bnat b 16 8 + 8) 8 % 4096 = 0)
    (halign : bnat b 16 8 % 4096 = 0) (hp : s.poison = []) (hx : s.ctx? (ctxAt b) ≠ none) :
    Completes s b .ctxCreate 10 fun u => u.ctxs = s.ctxs := by
  have hread : readAt s.poison s.mem (bnat b 16 8) 4096 = .ok (mbytes s.mem (bnat b 16 8) 4096) := by
    rw [hp]
    rfl
  have hbase : bnat (mbytes s.mem (bnat b 16 8) 4096) 0 8 = mnat s.mem (bnat b 16 8) 8 := bnat_mbytes _ _ _ 0 8 (by decide)
  have hsize : bnat (mbytes s.mem (bnat b 16 8) 4096) 8 8 = mnat s.mem (bnat b 16 8 + 8) 8 := bnat_mbytes _ _ _ 8 8 (by decide)
  refine completes_failed hal hb hn hop (by decide) hh (execCtxCreate.eq_def s) (code := 10) ?_ (by decide) (by simp)
  rw [ctxCreateChk_of_read hread, hbase, hsize]
  have h₁ : (!bzero b 10 2 || bnat b 12 4 / 2 ^ 20 != 0 || bnat b 32 1 / 4 != 0 || !bzero b 33 3 || !bzero b 42 14
      || (State.ctxMemOk (bnat b 16 8) && !bzero (mbytes s.mem (bnat b 16 8) 4096) 32 4064)) = false := by
    have hpasid : bnat b 12 4 / 2 ^ 20 = 0 := Nat.div_eq_of_lt hf.1
    rw [hpasid]
    simp [hz, hd, Nat.div_eq_of_lt hf.2.1]
  have h₂ : (decide (1023 < ctxAt b) || bnat b 41 1 == 255 || !State.ctxMemOk (bnat b 16 8)
      || decide (mnat s.mem (bnat b 16 8) 8 < 0x2801000)) = false := by
    simp [hf, hm, hpool]
  have h₃ : (bnat b 16 8 % 4096 != 0 || mnat s.mem (bnat b 16 8) 8 % 4096 != 0 || mnat s.mem (bnat b 16 8 + 8) 8 % 4096 != 0) = false := by
    simp [halign, hpool]
  rw [h₁, h₂, h₃, Bool.and_false, State.hasCtx_of_ne hx]
  rfl

theorem ctxDestroy_completes (hop : bnat b 0 1 = 0x81) (hz : bzero b 10 46 = true) (hq : ∀ q ∈ s.queues, q.ctx ≠ ctxAt b)
    (ht : s.timetable = []) (hx : s.ctx? (ctxAt b) ≠ none) :
    Completes s b .ctxDestroy 0 fun u => (∀ k, u.ctx? k = if k = ctxAt b then none else s.ctx? k) ∧ ∀ a ∈ u.apertures, a.ctx ≠ ctxAt b := by
  refine completes_atOnce hal hb hn hop (by decide) hh (execCtxDestroy.eq_def s) rfl ?_ rfl ⟨fun k => ?_, ?_⟩
  · simp only [List.forall_mem_cons]
    exact ⟨by simp [hz], by simpa [ht] using hq, by simp [State.hasCtx_of_ne hx], by simp⟩
  · rw [State.admDone_ctx]
    exact find?_filter_key _ _ _ _
  · simp

/-! ### Queues -/

/-- The queue of a QUEUE_CREATE packet (R45). -/
def queueOf (b : List Byte) : Queue :=
  { id := bnat b 8 2, ctx := bnat b 10 2, ring := BitVec.ofNat 64 (bnat b 16 8), wb := BitVec.ofNat 64 (bnat b 24 8), n := bnat b 32 1
    prio := bnat b 33 1, weight := bnat b 34 1, vec := bnat b 36 2, level := bnat b 33 1 }

theorem queueCreate_completes (hop : bnat b 0 1 = 0x82) (hz : bzero b 12 4 = true ∧ bzero b 35 1 = true ∧ bzero b 38 18 = true)
    (hid : 1 ≤ bnat b 8 2 ∧ bnat b 8 2 ≤ 4095) (hsize : 6 ≤ bnat b 32 1 ∧ bnat b 32 1 ≤ 16)
    (hlevel : bnat b 33 1 ≤ 6 ∧ bnat b 34 1 ≠ 0) (hvec : bnat b 36 2 ≠ 1 ∧ bnat b 36 2 ≤ 2047)
    (halign : bnat b 16 8 % 4096 = 0 ∧ bnat b 24 8 % 8 = 0) (hq : s.queue? (bnat b 8 2) = none) (hx : s.ctx? (bnat b 10 2) ≠ none) :
    Completes s b .queueCreate 0 fun u => u.queue? (bnat b 8 2) = some (queueOf b) := by
  refine completes_atOnce hal hb hn hop (by decide) hh (execQueueCreate.eq_def s) rfl ?_ rfl ?_
  · simp only [List.forall_mem_cons]
    refine ⟨by simp [hz], ?_, by simp [halign], by simp [hq], by simp [State.hasCtx_of_ne hx], by simp⟩
    simp only [Bool.or_eq_false_iff, beq_eq_false_iff_ne, decide_eq_false_iff_not]
    omega
  · rw [State.admDone_queue]
    exact State.queue_putQueue_self _ (queueOf b)

/-! ### Translation -/

theorem setRange_completes {c : Ctx} (hop : bnat b 0 1 = 0x84) (hz : bzero b 11 1 = true ∧ bzero b 40 16 = true) (hattr : bnat b 12 4 < 64)
    (hnr : bnat b 10 1 ≤ 15) (halign : bnat b 16 8 % 4096 = 0 ∧ (bnat b 24 8 + 1) % 4096 = 0) (hx : s.ctx? (ctxAt b) = some c) :
    Completes s b .setRange 0 fun u => ∃ c', u.ctx? (ctxAt b) = some c' ∧ c' = { c with ranges := c'.ranges }
      ∧ (∀ x ∈ u.tlb, x.ctx ≠ ctxAt b) ∧ ∀ n, c'.ranges.find? (fun r => r.n == n) = if n = bnat b 10 1 then some {
        n := bnat b 10 1, base := BitVec.ofNat 64 (bnat b 16 8), limit := BitVec.ofNat 64 (bnat b 24 8)
        offset := BitVec.ofNat 64 (bnat b 32 8), attrs := BitVec.ofNat 32 (bnat b 12 4) } else c.ranges.find? fun r => r.n == n := by
  have hid : c.id = ctxAt b := State.ctx_id hx
  refine completes_atOnce hal hb hn hop (by decide) hh (execSetRange.eq_def s) rfl ?_ ?_ ?_
  · simp only [List.forall_mem_cons]
    refine ⟨?_, by simpa using hnr, by simp [halign], by simp [State.hasCtx, hx], by simp⟩
    simp [hz, Nat.div_eq_of_lt hattr]
  · rw [hx]
    rfl
  · rw [hx, ← hid]
    refine ⟨_, (State.admDone_ctx _).trans (State.ctx_putCtx_self _ _), rfl, by simp [State.dropTlb], fun n => ?_⟩
    split
    next h =>
      subst h
      exact lput_find_self _ _ _ (by simp)
    next h => exact lput_find_other _ _ _ _ (by simpa using Ne.symm h) (by simp; omega)

theorem setPtbase_completes {c : Ctx} (hop : bnat b 0 1 = 0x85) (hz : bzero b 10 6 = true ∧ bzero b 24 32 = true)
    (halign : bnat b 16 8 % 4096 = 0) (hx : s.ctx? (ctxAt b) = some c) : Completes s b .setPtbase 0 fun u =>
      u.ctx? (ctxAt b) = some { c with root := some (bnat b 16 8) } ∧ ∀ x ∈ u.tlb, x.ctx ≠ ctxAt b := by
  have hid : c.id = ctxAt b := State.ctx_id hx
  refine completes_atOnce hal hb hn hop (by decide) hh (execSetPtbase.eq_def s) rfl ?_ ?_ ?_
  · simp [hz, halign, State.hasCtx, hx]
  · rw [hx]
    rfl
  · rw [hx, ← hid]
    exact ⟨(State.admDone_ctx _).trans (State.ctx_putCtx_self _ _), by simp [State.dropTlb]⟩

theorem setAperture_completes (hop : bnat b 0 1 = 0x86) (hr : (apertureOf b).kind = 0 ∨ paramReserved (bnat b 9 1) (bnat b 12 4) = false)
    (ha : bnat b 8 1 ≤ 31 ∧ apertureBad (apertureOf b) = false) (hx : s.ctx? (bnat b 10 2) ≠ none) :
    Completes s b .setAperture 0 fun u => u.apertures = if bnat b 9 1 = 0 then s.apertures.filter fun a => a.n != bnat b 8 1
      else (s.apertures.filter fun a => a.n != bnat b 8 1) ++ [apertureOf b] := by
  refine completes_atOnce hal hb hn hop (by decide) hh (execSetAperture.eq_def s) rfl ?_ rfl ?_
  · have hp : (apertureOf b).param.toNat = bnat b 12 4 := by
      simpa [apertureOf] using bnat_lt b 12 4
    have hctx : s.hasCtx (apertureOf b).ctx = true := State.hasCtx_of_ne hx
    have hnum : ¬31 < (apertureOf b).n := by simpa [apertureOf] using ha.1
    have hres : (decide ((apertureOf b).kind ≤ 4) && (apertureOf b).kind != 0
        && paramReserved (apertureOf b).kind (apertureOf b).param.toNat) = false := by
      rcases hr with hk | hk
      · simp [hk]
      · rw [hp]
        exact (congrArg _ hk).trans (Bool.and_false _)
    simp [hctx, ha.2, hnum, hres]
  · rw [State.admDone_apertures]
    rfl

/-! ### Pre-emption -/

omit hb in
theorem exec_preempt_begins {c : Ctx} (hop : bnat b 0 1 = 0x87) (hf : bnat b 10 1 < 4) (hz : bzero b 11 45 = true)
    (hx : s.ctx? (ctxAt b) = some c) (hm : bnat b 10 1 % 2 = 0) (hst : c.stopped = false) :
    exec .preempt s = .next ({ s with adm := some b }.putCtx { c with
      stopped := true
      preempt := some { left := if bnat b 10 1 / 2 = 1 then 0 else c.drain * 1100, forced := decide (bnat b 10 1 / 2 = 1) } }) := by
  have hforce : bnat b 10 1 / 2 % 2 = bnat b 10 1 / 2 := Nat.mod_eq_of_lt (by omega)
  have hchk : ∀ x ∈ preemptChk s b, x.1 = false := by
    simp [preemptChk, hz, State.hasCtx, hx]
    omega
  refine (execPreempt.eq_def s).trans ((adminEvent_acts hn hop (by decide) hh hal hchk (by simpa using hm)).trans ?_)
  simp [hx, hst, hforce, Config.ticksPerUs]
  rfl

theorem preemptResume_completes {c : Ctx} (hop : bnat b 0 1 = 0x87) (hf : bnat b 10 1 < 4) (hz : bzero b 11 45 = true)
    (hx : s.ctx? (ctxAt b) = some c) (hm : bnat b 10 1 % 2 = 1) :
    Completes s b .preemptResume 0 fun u => u.ctx? (ctxAt b) = some { c with stopped := false, preempt := none } := by
  have hid : c.id = ctxAt b := State.ctx_id hx
  refine completes_atOnce hal hb hn hop (by decide) hh (execPreemptResume.eq_def s) (by simpa using hm) ?_ ?_ ?_
  · simp [preemptChk, hz, State.hasCtx, hx]
    omega
  · rw [hx]
    rfl
  · rw [hx, ← hid]
    exact (State.admDone_ctx _).trans (State.ctx_putCtx_self _ _)

end

/-! ### Packets in progress -/

/-- PREEMPT completes once no team of the context is on a core (R88). -/
theorem preemptDrained_completes {c : Ctx} (hrun : s.running = true) (hal : bnat b 56 8 % 8 = 0) (hb : bnat b 56 8 / 8 * 8 + 8 ≤ 2 ^ 52)
    (ha : s.adm = some b) (hop : bnat b 0 1 = 0x87) (ht : ∀ t ∈ s.teams, t.ctx = ctxAt b → t.core = none) (hx : s.ctx? (ctxAt b) = some c) :
    Completes s b .preemptDrained 0 fun u => u.ctx? (ctxAt b) = some { c with preempt := none } := by
  have hid : c.id = ctxAt b := State.ctx_id hx
  have hres : s.resident (ctxAt b) = [] := by
    simpa [State.resident] using ht
  have hexec : exec .preemptDrained s = .next ((s.putCtx { c with preempt := none }).admDone b 0) := by
    change execPreemptDrained s = _
    unfold execPreemptDrained
    simp [ha, hrun, hop, hres, hx]
  refine completes_of_admDone hexec rfl hal hb (by decide) ?_
  rw [← hid]
  exact (State.admDone_ctx _).trans (State.ctx_putCtx_self _ _)

/-- QUEUE_DESTROY completes once the queue has come to rest (R56). -/
theorem queueDestroy_completes {q : Queue} (hrun : s.running = true) (hal : bnat b 56 8 % 8 = 0) (hb : bnat b 56 8 / 8 * 8 + 8 ≤ 2 ^ 52)
    (ha : s.adm = some b) (hop : bnat b 0 1 = 0x83) (hq : s.queue? (bnat b 8 2) = some q) (hg : s.queueGone q = true) :
    Completes s b .queueDestroy 0 fun u => ∀ k, u.queue? k = if k = q.id then none else s.queue? k := by
  have hexec : exec .queueDestroy s = .next ({ s with queues := s.queues.filter fun x => x.id != q.id }.admDone b 0) := by
    change execQueueDestroy s = _
    unfold execQueueDestroy
    simp [ha, hrun, hop, hq, hg]
  refine completes_of_admDone hexec rfl hal hb (by decide) fun k => ?_
  rw [State.admDone_queue]
  exact find?_filter_key _ _ _ _

/-- A queue without launches and copies is at rest when it is aborted, and when it has no packet left to consume or to complete. -/
theorem State.queueGone_of {q : Queue} (hl : ∀ l ∈ s.launches, l.queue ≠ q.id) (hk : ∀ k ∈ s.copies, k.queue ≠ q.id)
    (hd : q.destroy = some true ∨ q.pkts = [] ∧ q.widx.toNat ≤ q.ridx) : s.queueGone q = true := by
  have hbusy : s.queueBusy q.id = false := by
    simp only [State.queueBusy, Bool.or_eq_false_iff, List.any_eq_false]
    exact ⟨fun l h => by simp [hl l h], fun k h => by simp [hk k h]⟩
  rcases hd with hd | ⟨hp, hw⟩
  · simp [State.queueGone, hbusy, hd]
  · simp [State.queueGone, hbusy, hp, hw]

/-! ### A queue aborted (R53, R56) -/

/-- A launch is discarded: no team of it is left, and it counts as aborted. -/
def State.Discarded (s : State) (l : Launch) : Prop :=
  (∀ t ∈ s.teams, t.launch ≠ l.key) ∧ ∃ l', s.launch? l.key = some l' ∧ l'.aborted = true

theorem State.freeRecord_storesOnly (s : State) (t : Team) : s.StoresOnly (s.freeRecord t) := by
  unfold State.freeRecord
  split
  · exact s.store_storesOnly _ _ _ _
  · exact .refl s

/-- What a team's leave changes beside memory: the teams, the waves and the matrix work. -/
theorem State.dropTeam_only (s : State) (t : Team) : ∃ S : State, s.StoresOnly S ∧ s.dropTeam t = { S with
    teams := s.teams.filter fun x => x.key != t.key, waves := (s.dropTeam t).waves, cores := (s.dropTeam t).cores } :=
  ⟨_, s.freeRecord_storesOnly t, rfl⟩

/-- The first step of an abort at one launch: its teams leave. -/
def State.dropTeams (s : State) (l : Launch) : State := (s.teams.filter fun t => t.launch == l.key).foldl (fun s t => s.dropTeam t) s

/-- An abort at one launch. -/
def State.abortLaunch (s : State) (l : Launch) : State :=
  (s.dropTeams l).putLaunch { l with aborted := true, hold := false, restarting := false, redo := [] }

theorem State.abortLaunches_eq (s : State) (q : Nat) :
    s.abortLaunches q = (s.launches.filter fun l => l.queue == q && l.tt.isNone).foldl State.abortLaunch s := rfl

/-- Teams that leave take no launch, queue or packet with them. -/
theorem State.foldl_dropTeam_only (l : List Team) (s : State) : (l.foldl (fun s t => s.dropTeam t) s).launches = s.launches
    ∧ (l.foldl (fun s t => s.dropTeam t) s).adm = s.adm
    ∧ ∀ x ∈ (l.foldl (fun s t => s.dropTeam t) s).teams, x ∈ s.teams ∧ ∀ t ∈ l, x.key ≠ t.key := by
  induction l generalizing s with
  | nil => simp
  | cons t l ih =>
    obtain ⟨S, hS, hd⟩ := s.dropTeam_only t
    obtain ⟨hl, ha, ht⟩ := ih (s.dropTeam t)
    refine ⟨?_, ?_, fun x hx => ?_⟩
    · rw [List.foldl_cons, hl, hd, hS]
    · rw [List.foldl_cons, ha, hd, hS]
    · obtain ⟨hx, hn⟩ := ht x hx
      rw [hd, List.mem_filter] at hx
      exact ⟨hx.1, List.forall_mem_cons.2 ⟨by simpa using hx.2, hn⟩⟩

theorem State.abortLaunch_adm (l : Launch) : (s.abortLaunch l).adm = s.adm := (State.foldl_dropTeam_only _ s).2.1

theorem State.mem_abortLaunch_teams {l : Launch} {t : Team} (h : t ∈ (s.abortLaunch l).teams) : t ∈ s.teams ∧ t.launch ≠ l.key := by
  obtain ⟨-, -, ht⟩ := State.foldl_dropTeam_only (s.teams.filter fun t => t.launch == l.key) s
  obtain ⟨hm, hn⟩ := ht t h
  refine ⟨hm, fun hl => ?_⟩
  exact hn t (List.mem_filter.2 ⟨hm, by simpa using hl⟩) rfl

theorem State.abortLaunch_launch (l : Launch) (k : Nat) : (s.abortLaunch l).launch? k = if k = l.key then
    some { l with aborted := true, hold := false, restarting := false, redo := [] } else s.launch? k := by
  split
  next h =>
    subst h
    exact State.launch_putLaunch_self _ _
  next h =>
    have hd : (s.dropTeams l).launches = s.launches := (State.foldl_dropTeam_only _ s).1
    refine (State.launch_putLaunch_ne (s.dropTeams l) { l with aborted := true, hold := false, restarting := false, redo := [] } k h).trans ?_
    rw [State.launch?, hd, State.launch?]

theorem State.abortLaunch_discards (s : State) (l : Launch) : (s.abortLaunch l).Discarded l := by
  refine ⟨fun t ht => (State.mem_abortLaunch_teams ht).2, _, (s.abortLaunch_launch l _).trans (if_pos rfl), rfl⟩

theorem State.Discarded.abortLaunch {l : Launch} (h : s.Discarded l) (k : Launch) : (s.abortLaunch k).Discarded l := by
  obtain ⟨ht, l', hl, ha⟩ := h
  refine ⟨fun t hm => ht t (State.mem_abortLaunch_teams hm).1, ?_⟩
  rw [State.abortLaunch_launch]
  split
  · exact ⟨_, rfl, rfl⟩
  · exact ⟨l', hl, ha⟩

theorem State.foldl_abortLaunch_discards (ls : List Launch) (s : State) : ∀ l ∈ ls, (ls.foldl State.abortLaunch s).Discarded l := by
  induction ls generalizing s with
  | nil => simp
  | cons k ls ih =>
    refine List.forall_mem_cons.2 ⟨?_, ih _⟩
    exact List.foldlRecOn (motive := fun u : State => u.Discarded k) ls _ (s.abortLaunch_discards k) fun _ h l _ => h.abortLaunch l

theorem State.abortLaunches_discards {q : Nat} {l : Launch} (hm : l ∈ s.launches) (hq : l.queue = q) (ht : l.tt = none) :
    (s.abortLaunches q).Discarded l :=
  State.foldl_abortLaunch_discards _ s l (List.mem_filter.2 ⟨hm, by simp [hq, ht]⟩)

theorem State.abortLaunches_adm (q : Nat) : (s.abortLaunches q).adm = s.adm := by
  rw [State.abortLaunches_eq]
  exact List.foldlRecOn (motive := fun u : State => u.adm = s.adm) _ _ rfl fun _ h l _ => (State.abortLaunch_adm l).trans h

/-- A first step of QUEUE_DESTROY (R45). -/
theorem exec_queueDestroy_begins {q : Queue} (hal : bnat b 56 8 % 8 = 0) (hn : s.admNext = some b) (hop : bnat b 0 1 = 0x83)
    (hh : headBad b = false) (hf : bnat b 10 1 ≤ 1) (hz : bzero b 11 45 = true) (hq : s.queue? (bnat b 8 2) = some q) :
    exec .queueDestroy s = .next (if bnat b 10 1 = 1 then ({ s with adm := some b }.abortLaunches q.id).putQueue { q with
      destroy := some true, pkts := q.pkts.filter fun p => p.started && p.op != 4 }
      else { s with adm := some b }.putQueue { q with destroy := some false }) := by
  change execQueueDestroy s = _
  unfold execQueueDestroy
  rw [State.admNext_adm hn]
  refine (adminEvent_acts hn hop (by decide) hh hal ?_ rfl).trans ?_
  · simp [hz, hq]
    omega
  · have habort : (bnat b 10 1 % 2 == 1) = decide (bnat b 10 1 = 1) := by
      rw [Nat.mod_eq_of_lt (by omega)]
      rfl
    simp only [hq, habort, decide_eq_true_eq]

/-- The first step of an abort: the launches of the queue are discarded, with the packets that have not started. -/
theorem queueDestroy_aborts {q : Queue} (hal : bnat b 56 8 % 8 = 0) (hn : s.admNext = some b) (hop : bnat b 0 1 = 0x83)
    (hh : headBad b = false) (hf : bnat b 10 1 = 1) (hz : bzero b 11 45 = true) (hq : s.queue? (bnat b 8 2) = some q) :
    ∃ u, exec .queueDestroy s = .next u ∧ u.adm = some b
      ∧ u.queue? q.id = some { q with destroy := some true, pkts := q.pkts.filter fun p => p.started && p.op != 4 }
      ∧ ∀ l ∈ s.launches, l.queue = q.id → l.tt = none → (∀ t ∈ u.teams, t.launch ≠ l.key)
        ∧ ∃ l', u.launch? l.key = some l' ∧ l'.aborted = true := by
  have hexec := exec_queueDestroy_begins hal hn hop hh hf.le hz hq
  rw [if_pos hf] at hexec
  refine ⟨_, hexec, State.abortLaunches_adm _, State.queue_putQueue_self _ _, fun l hm hlq ht => ?_⟩
  exact State.abortLaunches_discards (s := { s with adm := some b }) hm hlq ht

end

/-- Settles O54: every admin event acts on a packet after its checks (`adminEvents_actOnPacket`); what each then does stands in the lemmas
of this file. -/
theorem adminContextEvents : Obligations.AdminContextEvents := by
  unfold Obligations.AdminContextEvents
  intro s b hrun hb stopped done pkt ctx
  refine ⟨fun i hi hn hop => ?_, fun hal _ x hx hn hop => ?_, fun hal h hz => ?_, fun hal => ⟨fun h hc => ?_, ?_, ?_, ?_, ?_, ?_, ?_, ?_, ?_, ?_⟩⟩
  · obtain ⟨x, hx, rfl⟩ := List.mem_map.1 (show i ∈ adminEvents.map Prod.snd from hi)
    exact adminEvents_badOpcode hb hn hop x hx
  · exact adminEvents_misaligned hb hal hn x hx hop
  · obtain ⟨hn, hop, hh⟩ := h
    exact ctxDestroy_misaligned hb hal hn hop hh hz
  · obtain ⟨hn, hop, hh⟩ := h
    obtain ⟨u, he, hr, ha, hcode, hctx, hother⟩ := ctxCreate_completes hal hb hn hh hop hc
    exact ⟨u, he, hr, ha, hcode, _, hctx, hother, rfl, rfl, rfl, rfl, rfl, rfl, rfl, rfl, rfl, rfl, rfl, rfl, rfl, ctxOf_pool _ _⟩
  · rintro ⟨hn, hop, hh⟩ hz hpasid hfl hz₂ hz₃ hid hp hm hd hpool hbase hsize halign hpoison hx
    exact ctxCreate_exists hal hb hn hh hop ⟨hz, hz₂, hz₃⟩ ⟨hpasid, hfl, hid, hp⟩ hm hd ⟨hpool, hbase, hsize⟩ halign hpoison hx
  · rintro ⟨hn, hop, hh⟩ hz hq ht hx
    exact ctxDestroy_completes hal hb hn hh hop hz hq ht hx
  · rintro ⟨hn, hop, hh⟩ hz hz₂ hz₃ hid hid₂ hsize hsize₂ hlev hw hvec hvec₂ hring hwb hq hx
    exact queueCreate_completes hal hb hn hh hop ⟨hz, hz₂, hz₃⟩ ⟨hid, hid₂⟩ ⟨hsize, hsize₂⟩ ⟨hlev, hw⟩ ⟨hvec, hvec₂⟩ ⟨hring, hwb⟩ hq hx
  · rintro q ⟨hn, hop, hh⟩ hf hz hq
    refine ⟨fun h0 => ?_, fun h1 _ => queueDestroy_aborts hal hn hop hh h1 hz hq⟩
    rw [exec_queueDestroy_begins hal hn hop hh hf hz hq, if_neg (by omega)]
  · intro q ha hop hq hl hk hd
    exact queueDestroy_completes hrun hal hb ha hop hq (State.queueGone_of hl hk hd)
  · rintro c ⟨hn, hop, hh⟩ hz hattr hz₂ hnr hbase hlimit hx
    exact setRange_completes hal hb hn hh hop ⟨hz, hz₂⟩ hattr hnr ⟨hbase, hlimit⟩ hx
  · rintro c ⟨hn, hop, hh⟩ hz hz₂ halign hx
    exact setPtbase_completes hal hb hn hh hop ⟨hz, hz₂⟩ halign hx
  · rintro ⟨hn, hop, hh⟩ ha hx
    refine ⟨fun hk => ?_, fun hk hk₂ hr hbad => ?_⟩
    · have h := setAperture_completes hal hb hn hh hop (.inl hk) ⟨ha, apertureBad_unbound hk⟩ hx
      rwa [if_pos hk] at h
    · have h := setAperture_completes hal hb hn hh hop (.inr hr) ⟨ha, hbad⟩ hx
      rwa [if_neg (by omega)] at h
  · intro c hx
    refine ⟨?_, fun ha hop ht => preemptDrained_completes hrun hal hb ha hop ht hx⟩
    rintro ⟨hn, hop, hh⟩ hf hz
    exact ⟨fun hm hst => exec_preempt_begins hal hn hh hop hf hz hx hm hst, fun hm => preemptResume_completes hal hb hn hh hop hf hz hx hm⟩

end Sys2Proof.Machine
end

section
/-! SUPPORT. A KILL that finds two teams of one key (R59): O55. -/

namespace Sys2Proof.Machine

/-- A team whose command waits on fault 50. -/
def faultedTeam : Team :=
  { key := 0, launch := 0, ctx := 0, tix := 0, core := some 0
    cmds := [{ tag := 0, seq := 0, wave := 0, src := .gm, dst := .sp, sa := 0, da := 0, fault := some 50 }] }

/-- The open record of fault 50. -/
def openFault : OpenFault := { id := 0, key := 50, kind := 1, core := 0, ctx := 0 }

/-- A FAULT_REPLY packet with action KILL stands in the admin queue; it answers the open record of fault 50. A team on a core and a saved one,
both with key 0, wait on it. -/
def killsTwo : State :=
  { State.reset with
    ready := true
    admEnable := true
    admWidx := 1
    mem := [(hostPa 0, 0x8C), (hostPa 0 + 12, 2)]
    fqOpen := [openFault]
    teams := [faultedTeam, { faultedTeam with saved := true }] }

/-- The packet is due, and its status address is 0. -/
theorem killsTwo_packet : killsTwo.admNext = some killsTwo.admBytes ∧ bnat killsTwo.admBytes 0 1 = 0x8C ∧ headBad killsTwo.admBytes = false
    ∧ bzero killsTwo.admBytes 13 1 = true ∧ bzero killsTwo.admBytes 16 40 = true ∧ bnat killsTwo.admBytes 12 1 = 2
    ∧ bnat killsTwo.admBytes 8 4 = 0 ∧ bnat killsTwo.admBytes 56 8 = 0 := by
  decide

/-- The team on a core is voided, with what stands under its key; then the saved one is put back, to be killed when it resumes. -/
theorem killsTwo_kill : ∃ u, exec .kill killsTwo = .next u ∧ (u.team? 0).isSome = true :=
  ⟨_, rfl, by decide⟩

/-- Refutes O55: where two teams share a key, KILL voids the one on a core and then marks the saved one, which stands under that key again. The
clause that no team of the key is left asks for distinct keys only where the team is saved. -/
theorem not_adminTimeAndFaultEvents : ¬ Obligations.AdminTimeAndFaultEvents := by
  unfold Obligations.AdminTimeAndFaultEvents
  intro h
  obtain ⟨hnext, hop, hhead, hz, hz₂, hact, hid, hstatus⟩ := killsTwo_packet
  obtain ⟨-, -, -, -, -, -, -, -, -, -, hkill, -⟩ := h killsTwo killsTwo.admBytes rfl (by rw [hstatus]) (by rw [hstatus]; decide)
  have hopen : (killsTwo.fqOpen.find? fun x => x.id == bnat killsTwo.admBytes 8 4) = some openFault := by
    rw [hid]
    rfl
  obtain ⟨hvoided, -⟩ := hkill _ faultedTeam ⟨⟨hnext, hop, hhead⟩, hz, hz₂, hact, hopen⟩ (by decide) (List.mem_cons_self ..)
    (fun _ hl => (List.not_mem_nil hl).elim) (.inl ⟨_, List.mem_cons_self .., rfl⟩)
  obtain ⟨u, hu, -, -, -, hgone, -⟩ := hvoided rfl
  obtain ⟨v, hv, hleft⟩ := killsTwo_kill
  cases hu.symm.trans hv
  have hnone : u.team? 0 = none := hgone
  rw [hnone] at hleft
  cases hleft

end Sys2Proof.Machine
end

section
/-! SUPPORT. The machine right after reset (R42, R65): O5. -/

namespace Sys2Proof.Machine

/-- Settles O5: each part is the reset state's own field. -/
theorem resetState : Obligations.ResetState := by
  unfold Obligations.ResetState
  exact ⟨rfl, fun _ => rfl, rfl, rfl, rfl, rfl, rfl, rfl, rfl, rfl, rfl, rfl, rfl, rfl, rfl, rfl, rfl⟩

end Sys2Proof.Machine
end

section
/-! SUPPORT. The accesses of packets, queues in ERROR, and packets that start and complete (R50, R55, R372): O53. -/

namespace Sys2Proof.Machine

section
variable {s t u S T : State}

/-! ### Flits and translations that an access leaves behind (R29, R152) -/

theorem State.foldl_forward_outbox (l : List PeerReq) (s : State) :
    ∃ out, (l.foldl (fun s r => s.out (.forward r)) s).outbox = s.outbox ++ out := by
  induction l generalizing s with
  | nil => exact ⟨[], by simp⟩
  | cons r l ih =>
    obtain ⟨out, hout⟩ := ih (s.out (.forward r))
    exact ⟨.forward r :: out, by rw [List.foldl_cons, hout, State.out, List.append_assoc, List.singleton_append]⟩

theorem State.push_outbox (s : State) (l : XLink) (q : List Queued) : ∃ out, (s.push l q).outbox = s.outbox ++ out :=
  State.foldl_forward_outbox _ (s.putLink _)

theorem State.sendFlits_outbox (pas : List Nat) (s : State) : ∃ out, (s.sendFlits pas).outbox = s.outbox ++ out := by
  unfold State.sendFlits
  refine List.foldlRecOn (motive := fun u : State => ∃ out, u.outbox = s.outbox ++ out) pas _ ⟨[], by simp⟩ fun u hu pa _ => ?_
  split
  · split
    next n _ =>
      obtain ⟨out, hout⟩ := hu
      obtain ⟨more, hmore⟩ := u.push_outbox { u.link n with n } [{ flits := flitCount u.nondet, pa }]
      exact ⟨out ++ more, by rw [hmore, hout, List.append_assoc]⟩
    next => exact hu
  · exact hu

/-- What an access of the package leaves behind lies in the TLBs, the links and the outbox. -/
theorem State.used_only (s : State) (c : Ctx) (need : Need) (va : DWord) (n : Nat) (via : Option PeerWait) : s.used c need va n via = { s with
    tlb := (s.used c need va n via).tlb, links := (s.used c need va n via).links, outbox := (s.used c need va n via).outbox } := by
  unfold State.used State.reached
  rw [sendFlits_only, fillTlb_only]

theorem State.requests_none {c : Ctx} {l : List (Need × Nat × Nat)} {via : Option PeerWait} (h : s.links = []) : s.requests c l via = [] := by
  unfold State.requests
  rw [h]
  rfl

/-- The flits of an access follow what waits to leave; there are none without links. -/
theorem State.used_outbox (s : State) (c : Ctx) (need : Need) (va : DWord) (n : Nat) (via : Option PeerWait) :
    ∃ flits, (s.used c need va n via).outbox = s.outbox ++ flits ∧ (s.links = [] → flits = []) := by
  unfold State.used State.reached
  have hfill (vas : List DWord) : (s.fillTlb c vas).outbox = s.outbox := by rw [fillTlb_only]
  by_cases h : s.links = []
  · refine ⟨[], ?_, fun _ => rfl⟩
    rw [State.requests_none h, List.append_nil]
    exact hfill _
  · obtain ⟨out, hout⟩ := State.sendFlits_outbox (s.requests c [(need, va.toNat, n)] via)
      (s.fillTlb c ([(need, va.toNat, n)].flatMap fun x => (unitsOf x.2.1 x.2.2).map (BitVec.ofNat 64)))
    exact ⟨out, by rw [hout, hfill], fun h' => absurd h' h⟩

/-! ### Bytes that a packet writes -/

theorem State.putPieces_storesOnly (s : State) (ps : List Piece) (b : List Byte) : s.StoresOnly (s.putPieces ps b) :=
  State.StoresOnly.foldl (fun s _ => s.store_storesOnly _ _ _ _) _ s

/-- Memory after a packet's write is memory before it with the pieces' bytes. -/
theorem State.putPieces_mem (s : State) (ps : List Piece) (b : List Byte) :
    (s.putPieces ps b).mem = (storePieces ps b).foldl (fun m p => mput m p.1 p.2.1) s.mem := by
  unfold State.putPieces
  generalize storePieces ps b = l
  induction l generalizing s with
  | nil => rfl
  | cons p l ih => exact ih _

theorem State.putPieces_mem_congr (h : s.mem = t.mem) (ps : List Piece) (b : List Byte) : (s.putPieces ps b).mem = (t.putPieces ps b).mem := by
  rw [State.putPieces_mem, State.putPieces_mem, h]

/-- Nothing but memory, what is remembered of it, translations, links and the outbox changes from one state to another. -/
def State.Accessed (s t : State) : Prop := ∃ S, s.StoresOnly S ∧ t = { S with tlb := t.tlb, links := t.links, outbox := t.outbox }

theorem State.putPieces_used_accessed (s : State) (ps : List Piece) (b : List Byte) (c : Ctx) (need : Need) (va : DWord) (n : Nat)
    (via : Option PeerWait) : s.Accessed ((s.putPieces ps b).used c need va n via) :=
  ⟨_, s.putPieces_storesOnly ps b, State.used_only _ _ _ _ _ _⟩

theorem State.used_accessed (s : State) (c : Ctx) (need : Need) (va : DWord) (n : Nat) (via : Option PeerWait) :
    s.Accessed (s.used c need va n via) := ⟨s, .refl s, State.used_only _ _ _ _ _ _⟩

theorem State.used_mem (s : State) (c : Ctx) (need : Need) (va : DWord) (n : Nat) (via : Option PeerWait) :
    (s.used c need va n via).mem = s.mem := by
  rw [State.used_only]

theorem State.pkgWrite_accessed {c : Ctx} {va : DWord} {b : List Byte} {via : Option PeerWait} (h : s.pkgWrite c va b via = .ok T) :
    s.Accessed T := by
  unfold State.pkgWrite at h
  split at h
  · cases h
  next ps _ =>
    cases h
    exact s.putPieces_used_accessed ps b _ _ _ _ _

section
variable (h : s.Accessed t)
include h

theorem State.Accessed.queues : t.queues = s.queues := by obtain ⟨S, hS, ht⟩ := h; rw [ht, hS]
theorem State.Accessed.queue (k : Nat) : t.queue? k = s.queue? k := by rw [State.queue?, h.queues, State.queue?]
theorem State.Accessed.tick : t.tick = s.tick := by obtain ⟨S, hS, ht⟩ := h; rw [ht, hS]
theorem State.Accessed.fqHeld : t.fqHeld = s.fqHeld := by obtain ⟨S, hS, ht⟩ := h; rw [ht, hS]
theorem State.Accessed.copies : t.copies = s.copies := by obtain ⟨S, hS, ht⟩ := h; rw [ht, hS]
theorem State.Accessed.unmasked : t.unmasked = s.unmasked := by obtain ⟨S, hS, ht⟩ := h; rw [ht, hS]
theorem State.Accessed.message (k : Nat) : t.message k = s.message k := by obtain ⟨S, hS, ht⟩ := h; rw [ht, hS]; rfl
theorem State.Accessed.linkFor (a : Nat) : t.linkFor a = s.linkFor a := by obtain ⟨S, hS, ht⟩ := h; rw [ht, hS]; rfl

end

/-! ### A queue in ERROR (R55) -/

/-- A queue error sets the queue's state and reports it; the rest is a message. -/
theorem State.queueError_only (s : State) (q : Queue) (code i : Nat) : s.queueError q code i = { s with
    queues := (s.putQueue { q with st := .error code }).queues
    fresh := s.fresh + 1
    fqHeld := s.fqHeld ++ [{
      key := s.fresh, kind := 4, access := 0x30, code, ctx := q.ctx, queue := q.id, addr := BitVec.ofNat 64 i, tick := s.tick }]
    outbox := (s.queueError q code i).outbox
    pending := (s.queueError q code i).pending } := by
  unfold State.queueError
  dsimp only
  split
  · rfl
  · rw [State.msix_only]
    rfl

theorem State.queueError_queue (s : State) (q : Queue) (code i k : Nat) :
    (s.queueError q code i).queue? k = (s.putQueue { q with st := .error code }).queue? k := by
  rw [State.queue?, State.queueError_only, State.queue?]

theorem State.queueError_queue_self (s : State) (q : Queue) (code i : Nat) :
    (s.queueError q code i).queue? q.id = some { q with st := .error code } :=
  (s.queueError_queue q code i _).trans (State.queue_putQueue_self _ { q with st := .error code })

theorem State.queueError_queue_ne (s : State) (q : Queue) (code i : Nat) {k : Nat} (h : k ≠ q.id) :
    (s.queueError q code i).queue? k = s.queue? k :=
  (s.queueError_queue q code i k).trans (State.queue_putQueue_ne _ { q with st := .error code } k h)

/-- A queue error leaves a record with its code. -/
theorem State.queueError_record (s : State) (q : Queue) (code i : Nat) :
    ∃ r, (s.queueError q code i).fqHeld = s.fqHeld ++ [r] ∧ r.kind = 4 ∧ r.code = code ∧ r.queue = q.id := by
  rw [State.queueError_only]
  exact ⟨_, rfl, rfl, rfl, rfl⟩

/-! ### The read index's write-back (R48) -/

theorem State.ringFault_queue (s : State) (c : Ctx) (q : Queue) (access : Nat) (f : Flt) (va : DWord) :
    ∃ x, (s.ringFault c q access f va).queue? q.id = some x ∧ x.ridx = q.ridx ∧ x.pkts = q.pkts := by
  unfold State.ringFault
  split
  next k t _ => exact ⟨_, t.queue_putQueue_self { q with fault := some k }, rfl, rfl⟩
  next w t _ => exact ⟨_, t.queue_putQueue_self { q with peer := some w }, rfl, rfl⟩
  next => exact ⟨_, s.queueError_queue_self q 7 q.ridx, rfl, rfl⟩

/-- A write-back that is due, or faults, keeps the queue's packets and index. -/
theorem State.writeBack_queue (s : State) (c : Ctx) (q : Queue) :
    ∃ x, (s.writeBack c q).queue? q.id = some x ∧ x.ridx = q.ridx ∧ x.pkts = q.pkts := by
  unfold State.writeBack
  split
  · split
    · exact s.ringFault_queue c q _ _ _
    next t _ => exact ⟨_, t.queue_putQueue_self { q with lastWb := q.ridx, peer := none }, rfl, rfl⟩
  · exact ⟨q, s.queue_putQueue_self q, rfl, rfl⟩

/-! ### Packets of a queue -/

theorem Queue.putPkt_mem {q : Queue} {p : Pkt} (h : ∃ x ∈ q.pkts, x.i = p.i) : p ∈ (q.putPkt p).pkts := by
  obtain ⟨x, hx, hi⟩ := h
  exact List.mem_map.2 ⟨x, hx, by simp [hi]⟩

theorem Queue.putPkt_indices (q : Queue) (p : Pkt) : (q.putPkt p).pkts.map Pkt.i = q.pkts.map Pkt.i := by
  rw [Queue.putPkt, List.map_map]
  refine List.map_congr_left fun x _ => ?_
  simp only [Function.comp_apply]
  split <;> simp_all

theorem Queue.next_mem {q : Queue} {p : Pkt} (h : q.next? = some p) : p ∈ q.pkts := by
  unfold Queue.next? at h
  split at h
  · cases h
  · split at h
    · cases h
    next p' hp =>
      split at h
      · cases h
      · cases h
        exact List.mem_of_find?_eq_some hp

/-- A packet as it starts. -/
def State.started (s : State) (p : Pkt) : Pkt := { p with started := true, tick := s.tick, tai := s.tai, clk := s.clock }

/-- A packet has started, or goes on: beside the trace, its queue alone has changed, which holds the packet as it is now. -/
structure State.Begun (s S : State) (k : Nat) (y : Queue) (p : Pkt) : Prop where
  only : ∃ t, s.StoresOnly t ∧ S = { t with queues := S.queues }
  queue : S.queue? k = some y
  mem : p ∈ y.pkts

theorem State.startPkt_begun (s : State) {q : Queue} {p : Pkt} (hp : p ∈ q.pkts) :
    s.Begun (s.startPkt q p).1 q.id (s.startPkt q p).2.1 (s.startPkt q p).2.2 := by
  have hmem : s.started p ∈ (q.putPkt (s.started p)).pkts := Queue.putPkt_mem ⟨p, hp, rfl⟩
  unfold State.startPkt
  dsimp only
  split
  · exact ⟨⟨_, s.sync_storesOnly _ _ _ _ _ _ _ _, rfl⟩, State.queue_putQueue_self _ (q.putPkt (s.started p)), hmem⟩
  · exact ⟨⟨s, .refl s, rfl⟩, State.queue_putQueue_self _ (q.putPkt (s.started p)), hmem⟩

section
variable {x : Queue} {c : Ctx} {k op : Nat} {y : Queue} {p : Pkt}

/-- The next packet of a queue starts under the event of its opcode. -/
theorem State.startFor_next (hrun : s.running = true) (hx : s.queue? x.id = some x) (hc : s.ctx? x.ctx = some c) (hp : x.next? = some p)
    (hop : p.op = op) : s.startFor x.id op = some (c, s.startPkt x p) := by
  unfold State.startFor
  simp [hrun, hx, hc, hp, hop]

theorem State.pktFor_begun (h : s.pktFor k op = some (c, S, y, p)) : s.Begun S k y p := by
  unfold State.pktFor at h
  split at h
  · cases h
  split at h
  · cases h
  next x hx =>
  split at h
  · cases h
  split at h
  next p' hp =>
    cases h
    exact ⟨⟨s, .refl s, rfl⟩, hx, List.mem_of_find?_eq_some hp⟩
  next =>
  split at h
  next p' hp =>
    split at h
    · cases h
      exact State.queue_id hx ▸ s.startPkt_begun (Queue.next_mem hp)
    · cases h
  next => cases h

section
variable (h : s.Begun S k y p)
include h

theorem State.Begun.id : y.id = k := State.queue_id h.queue
theorem State.Begun.tick : S.tick = s.tick := by obtain ⟨t, ht, hS⟩ := h.only; rw [hS, ht]
theorem State.Begun.fresh : S.fresh = s.fresh := by obtain ⟨t, ht, hS⟩ := h.only; rw [hS, ht]
theorem State.Begun.launches : S.launches = s.launches := by obtain ⟨t, ht, hS⟩ := h.only; rw [hS, ht]
theorem State.Begun.copies : S.copies = s.copies := by obtain ⟨t, ht, hS⟩ := h.only; rw [hS, ht]
theorem State.Begun.links : S.links = s.links := by obtain ⟨t, ht, hS⟩ := h.only; rw [hS, ht]
theorem State.Begun.unmasked : S.unmasked = s.unmasked := by obtain ⟨t, ht, hS⟩ := h.only; rw [hS, ht]
theorem State.Begun.message (m : Nat) : S.message m = s.message m := by obtain ⟨t, ht, hS⟩ := h.only; rw [hS, ht]; rfl
theorem State.Begun.linkFor (a : Nat) : S.linkFor a = s.linkFor a := by obtain ⟨t, ht, hS⟩ := h.only; rw [hS, ht]; rfl

end

/-! ### A packet completes (R50) -/

theorem State.donePkt_queue (i : Nat) (h : s.queue? k = some y) :
    (s.donePkt k i).queue? k = some { y with pkts := y.pkts.filter (fun p => p.i != i), lastDone := i, lastTick := s.tick } := by
  have hid := State.queue_id h
  unfold State.donePkt
  rw [h, ← hid]
  exact s.queue_putQueue_self { y with pkts := y.pkts.filter (fun p => p.i != i), lastDone := i, lastTick := s.tick }

/-- A queue's packet has just completed. -/
def Ended (s : State) (i : Nat) (x : Queue) : Prop := x.lastDone = i ∧ x.lastTick = s.tick ∧ ∀ p ∈ x.pkts, p.i ≠ i

/-- An event leaves a state, and a queue of a number in it. -/
def Goes (s : State) (k : Nat) (i : Instr) (P : State → Queue → Prop) : Prop := ∃ u x, exec i s = .next u ∧ u.queue? k = some x ∧ P u x

/-- An event completes a packet. -/
theorem goes_of_donePkt {i : Instr} {j : Nat} {P : State → Queue → Prop} (hexec : exec i s = .next (t.donePkt k j)) (hq : t.queue? k = some y)
    (htick : t.tick = s.tick) (hP : ∀ x, Ended s j x → P (t.donePkt k j) x) : Goes s k i P :=
  ⟨_, _, hexec, State.donePkt_queue j hq, hP _ ⟨rfl, htick, by simp⟩⟩

theorem State.donePkt_mem (s : State) (k i : Nat) : (s.donePkt k i).mem = s.mem := by rw [State.donePkt_only]
theorem State.donePkt_copies (s : State) (k i : Nat) : (s.donePkt k i).copies = s.copies := by rw [State.donePkt_only]
theorem State.donePkt_outbox (s : State) (k i : Nat) : (s.donePkt k i).outbox = s.outbox := by rw [State.donePkt_only]
theorem State.donePkt_launches (s : State) (k i : Nat) : (s.donePkt k i).launches = s.launches := by rw [State.donePkt_only]

end

end

end Sys2Proof.Machine
end

section
/-! SUPPORT. What each event of user queues, package copies and launches does: O53. -/

namespace Sys2Proof.Machine

section
variable {s t u S T : State} {x y : Queue} {c : Ctx} {p : Pkt}

/-- The state whose next free choice is drawn. -/
def State.drawn (s : State) : State := { s with nondet := s.nondet + 1 }

theorem State.drawn_eq (s : State) : ({ s with nondet := s.nondet + 1 } : State) = s.drawn := rfl

theorem State.putPieces_drawn_mem (s : State) (ps : List Piece) (b : List Byte) : (s.drawn.putPieces ps b).mem = (s.putPieces ps b).mem :=
  State.putPieces_mem_congr (s := s.drawn) (t := s) rfl ps b

/-! ### Doorbells (R47) -/

theorem exec_doorbellWidx_narrow (s : State) (q : Nat) (v : DWord) : exec (.doorbellWidx q v false) s = .next s := by
  change execDoorbellWidx q v false s = _
  unfold execDoorbellWidx
  simp

theorem exec_doorbellWidx_whole (hrun : s.running = true) (q : Nat) (v : DWord) :
    exec (.doorbellWidx q v true) s = .next (s.doorbell q v) := by
  change execDoorbellWidx q v true s = _
  unfold execDoorbellWidx
  simp only [State.running, Bool.and_eq_true, Bool.not_eq_true'] at hrun
  simp [hrun]

theorem State.doorbell_below {v : DWord} (hx : s.queue? x.id = some x) (hlo : v.toNat < x.widx.toNat) : s.doorbell x.id v = s := by
  unfold State.doorbell
  rw [hx]
  dsimp only
  rw [if_pos (.inr hlo)]

theorem State.doorbell_overrun {v : DWord} (hx : s.queue? x.id = some x) (hst : x.st = .ok) (hlo : x.widx.toNat ≤ v.toNat)
    (hhi : x.ridx + 2 ^ x.n < v.toNat) : s.doorbell x.id v = s.queueError x 6 x.ridx := by
  unfold State.doorbell
  rw [hx]
  dsimp only
  rw [if_neg (by simpa [hst] using hlo), if_pos hhi]

/-! ### Consumption (R48, R55) -/

section
variable {b : List Byte} (hrun : s.running = true) (hx : s.queue? x.id = some x) (hc : s.ctx? x.ctx = some c) (hcons : x.consumes = true)
  (hwb : x.wbDue = false) (hpeer : x.peer = none) (hr : x.ridx < x.widx.toNat)
  (hb : s.pkgRead c (x.ring + BitVec.ofNat 64 (64 * (x.ridx % 2 ^ x.n))) 64 = .ok b)
include hrun hx hc hcons hwb hpeer hr hb

/-- A packet that fails a check sets the queue to ERROR. -/
theorem packetConsume_bad {code : Nat} (hbad : s.packetBad b = some code) : Goes s x.id (.packetConsume x.id) fun u x' =>
    x' = { x with st := .error code } ∧ ∃ r, u.fqHeld = s.fqHeld ++ [r] ∧ r.kind = 4 ∧ r.code = code := by
  let U := s.drawn.used c .rd (x.ring + BitVec.ofNat 64 (64 * (x.ridx % 2 ^ x.n))) 64 none
  have hexec : exec (.packetConsume x.id) s = .next (U.queueError x code x.ridx) := by
    change execPacketConsume x.id s = _
    unfold execPacketConsume
    simp [hx, hc, hrun, hcons, hwb, hpeer, hb, hbad, not_le.2 hr, State.drawn_eq, U]
  have hheld : U.fqHeld = s.fqHeld := (State.used_accessed s.drawn _ _ _ _ _).fqHeld
  obtain ⟨r, hrec, hkind, hcode, -⟩ := U.queueError_record x code x.ridx
  exact ⟨_, _, hexec, U.queueError_queue_self x code _, rfl, r, by rw [hrec, hheld], hkind, hcode⟩

/-- A packet without fault is taken, and the read index moves on. -/
theorem packetConsume_taken (hbad : s.packetBad b = none) : Goes s x.id (.packetConsume x.id) fun _ x' =>
    x'.ridx = x.ridx + 1 ∧ x'.pkts = x.pkts ++ [{ i := x.ridx, bytes := b, seen := s.tick }] := by
  let U := s.drawn.used c .rd (x.ring + BitVec.ofNat 64 (64 * (x.ridx % 2 ^ x.n))) 64 none
  let y : Queue := { x with ridx := x.ridx + 1, peer := none, pkts := x.pkts ++ [{ i := x.ridx, bytes := b, seen := s.tick }] }
  have hexec : exec (.packetConsume x.id) s = .next (U.writeBack c y) := by
    change execPacketConsume x.id s = _
    unfold execPacketConsume
    simp [hx, hc, hrun, hcons, hwb, hpeer, hb, hbad, not_le.2 hr, State.drawn_eq, U, y]
  obtain ⟨x', hx', hri, hp⟩ := U.writeBack_queue c y
  exact ⟨_, x', hexec, hx', hri, hp⟩

end

/-- No packet has an opcode above that of TIMESTAMP (R49). -/
theorem State.packetBad_opcode {b : List Byte} (h : 5 < bnat b 0 1) : s.packetBad b = some 1 := by
  unfold State.packetBad
  split
  case h_7 => rfl
  all_goals omega

/-! ### Packets that start (R50) -/

section
variable (hrun : s.running = true) (hx : s.queue? x.id = some x) (hc : s.ctx? x.ctx = some c) (hp : x.next? = some p)
include hrun hx hc hp

theorem nopPacket_goes (hop : p.op = 0) : Goes s x.id (.nopPacket x.id) fun _ x' => Ended s p.i x' := by
  have hb := s.startPkt_begun (Queue.next_mem hp)
  refine goes_of_donePkt ?_ hb.queue hb.tick fun _ h => h
  change execNopPacket x.id s = _
  unfold execNopPacket
  rw [State.startFor_next hrun hx hc hp hop]
  rfl

theorem launch_goes (hop : p.op = 1) : Goes s x.id (.launch x.id) fun u x' => (∃ y ∈ x'.pkts, y.i = p.i ∧ y.started = true)
    ∧ u.launches = s.launches ++ [{ key := s.fresh, ctx := c.id, queue := x.id, idx := p.i, tt := none, p := LaunchPkt.of p.bytes }] := by
  have hb := s.startPkt_begun (Queue.next_mem hp)
  have hexec : exec (.launch x.id) s = .next ((s.startPkt x p).1.addLaunch c.id x.id p.i none 0 p.bytes) := by
    change execLaunch x.id s = _
    unfold execLaunch
    rw [State.startFor_next hrun hx hc hp hop]
    rfl
  refine ⟨_, _, hexec, hb.queue, ⟨_, hb.mem, rfl, rfl⟩, ?_⟩
  unfold State.addLaunch
  dsimp only [State.newKey]
  rw [hb.launches, hb.fresh]

/-- The copy of a COPY packet (R54). -/
def copyOf (q ctx : Nat) (p : Pkt) : PkgCopy :=
  { queue := q, idx := p.i, ctx, src := BitVec.ofNat 64 (bnat p.bytes 8 8), dst := BitVec.ofNat 64 (bnat p.bytes 16 8)
    len := bnat p.bytes 24 8, sig := BitVec.ofNat 64 (bnat p.bytes 32 8), sigval := BitVec.ofNat 64 (bnat p.bytes 40 8)
    fill := decide (bnat p.bytes 48 1 % 2 = 1) }

theorem copy_goes (hop : p.op = 2) : Goes s x.id (.copy x.id) fun u x' => (∃ y ∈ x'.pkts, y.i = p.i ∧ y.started = true)
    ∧ u.copies = s.copies ++ [copyOf x.id c.id p] := by
  have hb := s.startPkt_begun (Queue.next_mem hp)
  have hexec : exec (.copy x.id) s = .next { (s.startPkt x p).1 with copies := (s.startPkt x p).1.copies ++ [copyOf x.id c.id p] } := by
    change execCopy x.id s = _
    unfold execCopy
    rw [State.startFor_next hrun hx hc hp hop]
    rfl
  refine ⟨_, _, hexec, hb.queue, ⟨_, hb.mem, rfl, rfl⟩, ?_⟩
  dsimp only
  rw [hb.copies]

theorem wait_goes (hop : p.op = 4) : Goes s x.id (.wait x.id) fun _ x' =>
    ∃ y ∈ x'.pkts, y.i = p.i ∧ y.started = true ∧ y.tick = s.tick ∧ y.clk = s.clock := by
  have hb := s.startPkt_begun (Queue.next_mem hp)
  have hexec : exec (.wait x.id) s = .next (s.startPkt x p).1 := by
    change execWait x.id s = _
    unfold execWait
    rw [State.startFor_next hrun hx hc hp hop]
  exact ⟨_, _, hexec, hb.queue, _, hb.mem, rfl, rfl, rfl, rfl⟩

end

/-! ### SIGNAL and TIMESTAMP (R54, R60) -/

/-- The state after a SIGNAL's access. -/
def State.signalled (S : State) (c : Ctx) (p : Pkt) (ps : List Piece) (x : DWord) : State :=
  (S.drawn.putPieces ps (bvBytes 8 x)).used c (if bnat p.bytes 24 1 == 1 then .atom else .wr)
    (BitVec.ofNat 64 (bnat p.bytes 8 8)) 8 none

theorem State.signalled_accessed (S : State) (c : Ctx) (p : Pkt) (ps : List Piece) (x : DWord) :
    S.drawn.Accessed (S.signalled c p ps x) := State.putPieces_used_accessed _ _ _ _ _ _ _ _

theorem State.signalled_mem (S : State) (c : Ctx) (p : Pkt) (ps : List Piece) (x : DWord) :
    (S.signalled c p ps x).mem = (S.putPieces ps (bvBytes 8 x)).mem :=
  (State.used_mem _ _ _ _ _ _).trans (S.putPieces_drawn_mem ps _)

/-- The flits of a SIGNAL's access. -/
theorem State.signalled_outbox (S : State) (c : Ctx) (p : Pkt) (ps : List Piece) (x : DWord) :
    ∃ flits, (S.signalled c p ps x).outbox = S.outbox ++ flits ∧ (S.links = [] → flits = []) := by
  have hput := State.putPieces_storesOnly S.drawn ps (bvBytes 8 x)
  obtain ⟨flits, hout, hnone⟩ := State.used_outbox (S.drawn.putPieces ps (bvBytes 8 x)) c
    (if bnat p.bytes 24 1 == 1 then .atom else .wr) (BitVec.ofNat 64 (bnat p.bytes 8 8)) 8 none
  refine ⟨flits, hout.trans (by rw [hput]; rfl), fun h => hnone (by rw [hput]; exact h)⟩

/-- A SIGNAL whose address can be reached is performed; then it sends its message, or waits with it while the vector is masked. -/
theorem exec_signal {k : Nat} {ps : List Piece} {old : List Byte} (h : s.pktFor k 3 = some (c, S, y, p)) (hpeer : p.peer = none)
    (hps : S.pkgPieces c (if bnat p.bytes 24 1 == 1 then .atom else .wr) (BitVec.ofNat 64 (bnat p.bytes 8 8)) 8 = .ok ps)
    (hold : (if bnat p.bytes 24 1 == 1 then readPieces S.poison S.mem ps else .ok (bvBytes 8 (0 : DWord))) = .ok old) :
    let U := S.signalled c p ps (BitVec.ofNat 64 (leNat old) + BitVec.ofNat 64 (bnat p.bytes 16 8))
    let m := U.msixOf (firstPa ps) (bnat p.bytes 26 2)
    exec (.signal k) s = .next (if bnat p.bytes 25 1 % 2 ≠ 1 then U.donePkt y.id p.i
      else if U.unmasked.contains m then (U.sendMsix m).donePkt y.id p.i
      else U.putQueue (y.putPkt { p with msg := some m, peer := none })) := by
  intro U m
  change execSignal k s = _
  unfold execSignal
  simp only [h, hpeer, hps, hold]
  rw [apply_ite Host.Outcome.next, apply_ite Host.Outcome.next]
  rfl

/-- The value that a SIGNAL writes: its operand, added to the word in memory or by itself. -/
theorem signal_goes {k : Nat} {ps : List Piece} {old : List Byte} {v : DWord} (h : s.pktFor k 3 = some (c, S, y, p)) (hpeer : p.peer = none)
    (hps : S.pkgPieces c (if bnat p.bytes 24 1 == 1 then .atom else .wr) (BitVec.ofNat 64 (bnat p.bytes 8 8)) 8 = .ok ps)
    (hold : (if bnat p.bytes 24 1 == 1 then readPieces S.poison S.mem ps else .ok (bvBytes 8 (0 : DWord))) = .ok old)
    (hv : BitVec.ofNat 64 (leNat old) + BitVec.ofNat 64 (bnat p.bytes 16 8) = v) :
    let m := 2048 * s.linkFor (firstPa ps) + bnat p.bytes 26 2
    Goes s k (.signal k) fun u x' => u.mem = (S.putPieces ps (bvBytes 8 v)).mem
      ∧ (bnat p.bytes 25 1 % 2 ≠ 1 ∨ s.unmasked.contains m = true → Ended s p.i x')
      ∧ (bnat p.bytes 25 1 % 2 = 1 → s.unmasked.contains m = true →
        ∃ flits, u.outbox = S.outbox ++ flits ++ s.message m ∧ (s.links = [] → flits = []))
      ∧ (bnat p.bytes 25 1 % 2 = 1 → s.unmasked.contains m = false → ∃ z ∈ x'.pkts, z = { p with msg := some m, peer := none }) := by
  intro m
  have hb := State.pktFor_begun h
  have hexec := exec_signal h hpeer hps hold
  rw [hv] at hexec
  have hacc := S.signalled_accessed c p ps v
  have hmem := S.signalled_mem c p ps v
  obtain ⟨flits, hflits, hnone⟩ := S.signalled_outbox c p ps v
  have hq : (S.signalled c p ps v).queue? k = some y := (hacc.queue k).trans hb.queue
  have htick : (S.signalled c p ps v).tick = s.tick := hacc.tick.trans hb.tick
  have hm : (S.signalled c p ps v).msixOf (firstPa ps) (bnat p.bytes 26 2) = m := by
    unfold State.msixOf
    rw [hacc.linkFor]
    exact congrArg (2048 * · + bnat p.bytes 26 2) (hb.linkFor _)
  have hunm : (S.signalled c p ps v).unmasked = s.unmasked := hacc.unmasked.trans hb.unmasked
  simp only [hm, hunm, hb.id] at hexec
  by_cases hirq : bnat p.bytes 25 1 % 2 = 1
  · rw [if_neg (not_not.2 hirq)] at hexec
    cases hun : s.unmasked.contains m with
    | true =>
      rw [hun, if_pos rfl] at hexec
      rw [State.sendMsix_eq] at hexec
      refine goes_of_donePkt hexec hq htick fun x' hx' => ⟨?_, fun _ => hx', fun _ _ => ⟨flits, ?_, ?_⟩, nofun⟩
      · rw [State.donePkt_mem]
        exact hmem
      · rw [State.donePkt_outbox, hflits, hacc.message]
        exact congrArg (S.outbox ++ flits ++ ·) (hb.message m)
      · exact fun hl => hnone (hb.links.trans hl)
    | false =>
      rw [hun, if_neg (by decide)] at hexec
      have hmasked := Queue.putPkt_mem (q := y) (p := { p with msg := some m, peer := none }) ⟨p, hb.mem, rfl⟩
      refine ⟨_, _, hexec, ?_, hmem, ?_, nofun, fun _ _ => ⟨_, hmasked, rfl⟩⟩
      · rw [← hb.id]
        exact State.queue_putQueue_self _ (y.putPkt { p with msg := some m, peer := none })
      · rintro (h | h)
        · exact absurd hirq h
        · cases h
  · rw [if_pos hirq] at hexec
    refine goes_of_donePkt hexec hq htick fun x' hx' => ⟨?_, fun _ => hx', fun h => absurd h hirq, fun h => absurd h hirq⟩
    rw [State.donePkt_mem]
    exact hmem

theorem timestamp_goes {k : Nat} (h : s.pktFor k 5 = some (c, S, y, p)) (hpeer : p.peer = none)
    (hT : S.drawn.pkgWrite c (BitVec.ofNat 64 (bnat p.bytes 8 8)) (le 8 p.tick ++ le 8 (p.tai / 2 ^ 32)) = .ok T) :
    Goes s k (.timestamp k) fun u x' => Ended s p.i x' ∧ u.mem = T.mem := by
  have hb := State.pktFor_begun h
  have hacc := State.pkgWrite_accessed hT
  have hexec : exec (.timestamp k) s = .next (T.donePkt k p.i) := by
    change execTimestamp k s = _
    unfold execTimestamp
    simp only [h, hpeer, State.drawn_eq, hT, hb.id]
  exact goes_of_donePkt hexec ((hacc.queue k).trans hb.queue) (hacc.tick.trans hb.tick) fun x' hx' => ⟨hx', T.donePkt_mem k p.i⟩

/-! ### WAIT (R54) -/

theorem waitPoll_goes {b : List Byte} (hrun : s.running = true) (hx : s.queue? x.id = some x) (hc : s.ctx? x.ctx = some c)
    (hp : x.waiting = some p) (hf : p.fault = none) (hpeer : p.peer = none)
    (hb : s.pkgRead c (BitVec.ofNat 64 (bnat p.bytes 8 8)) 8 = .ok b) :
    let m : DWord := BitVec.ofNat 64 (bnat p.bytes 24 8)
    let holds := waitCond (bnat p.bytes 32 1) (BitVec.ofNat 64 (leNat b) &&& m) (BitVec.ofNat 64 (bnat p.bytes 16 8) &&& m)
    Goes s x.id (.waitPoll x.id) fun u x' => u.mem = s.mem ∧ (holds = true → Ended s p.i x')
      ∧ (holds = false → x'.pkts.map Pkt.i = x.pkts.map Pkt.i ∧ x'.lastDone = x.lastDone) := by
  intro m holds
  have hacc := State.used_accessed s.drawn c .rd (BitVec.ofNat 64 (bnat p.bytes 8 8)) 8 none
  have hmem := State.used_mem s.drawn c .rd (BitVec.ofNat 64 (bnat p.bytes 8 8)) 8 none
  generalize hU : s.drawn.used c .rd (BitVec.ofNat 64 (bnat p.bytes 8 8)) 8 none = U at hacc hmem
  have hexec : exec (.waitPoll x.id) s = .next (if holds then U.donePkt x.id p.i else U.putQueue (x.putPkt { p with peer := none })) := by
    change execWaitPoll x.id s = _
    unfold execWaitPoll
    simp only [hx, hc, hp, hrun, hf, hpeer, hb, State.drawn_eq, hU, Bool.not_true, Option.isSome_none, Bool.or_false,
      Bool.false_eq_true, ↓reduceIte]
    split <;> rfl
  cases hh : holds with
  | true =>
    rw [hh, if_pos rfl] at hexec
    refine goes_of_donePkt hexec ((hacc.queue _).trans hx) hacc.tick fun x' hx' => ⟨?_, fun _ => hx', nofun⟩
    rw [State.donePkt_mem]
    exact hmem
  | false =>
    rw [hh, if_neg (by decide)] at hexec
    exact ⟨_, _, hexec, State.queue_putQueue_self _ (x.putPkt { p with peer := none }), hmem, nofun, fun _ => ⟨Queue.putPkt_indices _ _, rfl⟩⟩

/-- What WAIT_TIMEOUT does at one queue, at a clock. -/
def State.timeOut (clock : Nat) (s : State) (q : Queue) : State :=
  match q.waiting with
  | some p => if p.late clock then s.queueError { q with pkts := q.pkts.filter fun x => x.i != p.i && x.started } 9 p.i else s
  | none => s

theorem State.timeOut_queue_ne {clock k : Nat} {q : Queue} (h : k ≠ q.id) : (s.timeOut clock q).queue? k = s.queue? k := by
  unfold State.timeOut
  split
  next p _ =>
    split
    · exact State.queueError_queue_ne _ { q with pkts := q.pkts.filter fun x => x.i != p.i && x.started } _ _ h
    · rfl
  · rfl

theorem State.timeOut_late {clock : Nat} {q : Queue} (hp : q.waiting = some p) (hl : p.late clock = true) :
    ∃ x, (s.timeOut clock q).queue? q.id = some x ∧ x.st = .error 9 := by
  unfold State.timeOut
  rw [hp]
  dsimp only
  rw [if_pos hl]
  exact ⟨_, State.queueError_queue_self s { q with pkts := q.pkts.filter fun x => x.i != p.i && x.started } 9 p.i, rfl⟩

theorem State.timeOut_clock (clock : Nat) (q : Queue) : (s.timeOut clock q).clock = s.clock := by
  unfold State.timeOut
  split
  · split
    · rw [State.queueError_only]
    · rfl
  · rfl

/-- A fold that times out by the clock of its own state times out by the clock of the first. -/
theorem foldl_timeOut {f : State → Queue → State} (hf : ∀ (t : State) q, f t q = t.timeOut t.clock q) (l : List Queue) (s : State) :
    l.foldl f s = l.foldl (State.timeOut s.clock) s := by
  induction l generalizing s with
  | nil => rfl
  | cons q l ih => rw [List.foldl_cons, List.foldl_cons, hf, ih, State.timeOut_clock]

/-- A queue whose number no other has: what holds of its place after its turn still holds at the end. -/
theorem foldl_timeOut_queue {clock : Nat} {q : Queue} (hp : q.waiting = some p) (hl : p.late clock = true) (l : List Queue) (s : State)
    (hm : q ∈ l) (hn : (l.map (·.id)).Nodup) : ∃ x, (l.foldl (State.timeOut clock) s).queue? q.id = some x ∧ x.st = .error 9 := by
  induction l generalizing s with
  | nil => exact absurd hm List.not_mem_nil
  | cons a l ih =>
    rw [List.map_cons, List.nodup_cons] at hn
    rw [List.foldl_cons]
    rcases List.mem_cons.1 hm with rfl | hm
    · refine List.foldlRecOn (motive := fun u : State => ∃ x, u.queue? q.id = some x ∧ x.st = .error 9) l _ (State.timeOut_late hp hl)
        fun u hu r hr => ?_
      have hne : q.id ≠ r.id := fun h => hn.1 (h ▸ List.mem_map_of_mem (f := (·.id)) hr)
      rwa [State.timeOut_queue_ne hne]
    · exact ih _ hm hn.2

theorem waitTimeout_goes (hrun : s.running = true) (hx : s.queue? x.id = some x) (hn : (s.queues.map (·.id)).Nodup) (hp : x.waiting = some p)
    (hus : bnat p.bytes 36 4 ≠ 0) (hl : p.clk + bnat p.bytes 36 4 * 1100 ≤ s.clock) :
    Goes s x.id .waitTimeout fun _ x' => x'.st = .error 9 := by
  have hlate : p.late s.clock = true := by
    simp [Pkt.late, hus, Config.ticksPerUs, hl]
  have hexec : exec .waitTimeout s = .next (s.queues.foldl (State.timeOut s.clock) s) := by
    change execWaitTimeout s = _
    unfold execWaitTimeout
    rw [hrun]
    exact congrArg Host.Outcome.next (foldl_timeOut (fun _ _ => rfl) _ s)
  obtain ⟨x', hx', hst⟩ := foldl_timeOut_queue hp hlate s.queues s (List.mem_of_find?_eq_some hx) hn
  exact ⟨_, x', hexec, hx', hst⟩

/-! ### Package copies (R54) -/

section
variable {k : PkgCopy}

theorem find?_map_replace {α : Type} {l : List α} {p : α → Bool} {x y : α} (h : l.find? p = some x) (hy : p y = true) :
    (l.map fun z => if p z then y else z).find? p = some y := by
  rw [List.find?_map]
  have hf : (p ∘ fun z => if p z then y else z) = p := by
    funext z
    by_cases hz : p z = true
    · simp [hz, hy]
    · simp [hz]
  rw [hf, h, Option.map_some, if_pos (List.find?_some h)]

/-- The copy of a packet. -/
def State.copyFor (s : State) (q i : Nat) : Option PkgCopy := s.copies.find? fun y => y.queue == q && y.idx == i

section
variable {q : Nat} (hrun : s.running = true) (hk : s.copyFor q k.idx = some k) (hc : s.ctx? k.ctx = some c) (he : k.engine.isSome = true)
  (hf : k.fault = none)
include hrun hk hc he hf

/-- A copy that has an engine and waits on nothing takes steps, ends, or writes its signal and ends. -/
theorem exec_copyPacketComplete :
    (k.done < k.len → exec (.copyPacketComplete q k.idx) s
      = .next (s.drawn.pkgSteps c k (1 + Config.stepsDone s.nondet % ((k.len - k.done + 255) / 256))))
    ∧ (k.len ≤ k.done → k.sig = 0 → exec (.copyPacketComplete q k.idx) s = .next ((s.drawn.dropCopy k).donePkt q k.idx))
    ∧ ∀ T, k.len ≤ k.done → k.sig ≠ 0 → s.drawn.pkgWrite c k.sig (bvBytes 8 k.sigval) k.peer = .ok T →
      exec (.copyPacketComplete q k.idx) s = .next ((T.dropCopy k).donePkt q k.idx) := by
  change (_ → execCopyPacketComplete q k.idx s = _) ∧ (_ → _ → execCopyPacketComplete q k.idx s = _)
    ∧ ∀ T, _ → _ → _ → execCopyPacketComplete q k.idx s = _
  unfold execCopyPacketComplete
  unfold State.copyFor at hk
  simp only [hk, hc, hrun, hf, State.drawn_eq, Option.isNone_eq_false_iff.2 he, Bool.not_true, Option.isSome_none, Bool.or_false,
    Bool.false_eq_true, ↓reduceIte]
  refine ⟨fun hlo => if_pos hlo, fun hd hsig => ?_, fun T hd hsig hT => ?_⟩
  · rw [if_neg (not_lt.2 hd), if_pos hsig]
  · rw [if_neg (not_lt.2 hd), if_neg hsig, hT]

section
variable (hq : s.queue? q = some x) (hpeer : k.peer = none)

section
variable {b : List Byte} {ps : List Piece} (hlo : 0 < k.len - k.done) (hhi : k.len - k.done ≤ 256)
  (hb : s.drawn.copySource c k (k.len - k.done) = .ok b)
  (hps : s.drawn.pkgPieces c .wr (k.dst + BitVec.ofNat 64 k.done) (k.len - k.done) = .ok ps)
include hpeer hlo hhi hb hps

omit hrun hk hc he hf in
/-- One step of a copy, which is its last: the pieces written, and the copy put back with every byte done. -/
theorem State.pkgSteps_last : ∃ (V : State) (k' : PkgCopy), s.drawn.pkgSteps c k 1 = V.putCopy k' ∧ V.queues = s.queues ∧ V.copies = s.copies
    ∧ V.mem = (s.putPieces ps b).mem ∧ k'.queue = k.queue ∧ k'.idx = k.idx ∧ k'.done = k.len := by
  have hlast : k.done + (k.len - k.done) = k.len := by omega
  have hne : k.len - k.done ≠ 0 := by omega
  let U := (s.drawn.putPieces ps b).used c .wr (k.dst + BitVec.ofNat 64 k.done) (k.len - k.done) none
  let V := if k.fill then U else U.used c .rd (k.src + BitVec.ofNat 64 k.done) (k.len - k.done) none
  have hU : s.drawn.Accessed U := State.putPieces_used_accessed _ _ _ _ _ _ _ _
  have hUm : U.mem = (s.putPieces ps b).mem := (State.used_mem _ _ _ _ _ _).trans (s.putPieces_drawn_mem ps b)
  have hV : V.queues = s.queues ∧ V.copies = s.copies ∧ V.mem = (s.putPieces ps b).mem := by
    unfold V
    split
    · exact ⟨hU.queues, hU.copies, hUm⟩
    · have hW := State.used_accessed U c .rd (k.src + BitVec.ofNat 64 k.done) (k.len - k.done) none
      exact ⟨hW.queues.trans hU.queues, hW.copies.trans hU.copies, (State.used_mem _ _ _ _ _ _).trans hUm⟩
  let orig := if k.fill then [] else keepOrig s.drawn.mem k.orig (storePieces ps b)
  obtain ⟨hqs, hks, hmem⟩ := hV
  refine ⟨{ V with nondet := s.drawn.nondet + 256 }, { k with done := k.len, orig, peer := none }, ?_, hqs, hks, hmem, rfl, rfl, rfl⟩
  unfold State.pkgSteps
  simp only [Nat.min_eq_right hhi, hne, ↓reduceIte, hb, hpeer, hps, hlast]
  rfl

include hq

/-- A copy whose rest is one step takes it. -/
theorem copyPacketComplete_step (hkq : k.queue = q) : Goes s q (.copyPacketComplete q k.idx) fun u _ => u.mem = (s.putPieces ps b).mem
    ∧ ∃ k', u.copyFor q k.idx = some k' ∧ k'.done = k.len := by
  have hsteps : (k.len - k.done + 255) / 256 = 1 := by omega
  have hexec := (exec_copyPacketComplete hrun hk hc he hf).1 (Nat.lt_of_sub_pos hlo)
  obtain ⟨V, k', hstep, hqs, hks, hmem, hkq', hki, hdone⟩ := State.pkgSteps_last hpeer hlo hhi hb hps
  rw [hsteps, Nat.mod_one, Nat.add_zero, hstep] at hexec
  refine ⟨_, x, hexec, ?_, hmem, k', ?_, hdone⟩
  · change V.queues.find? _ = _
    rw [hqs]
    exact hq
  · change (V.copies.map _).find? _ = _
    rw [hks, hkq', hki, hkq]
    exact find?_map_replace hk (by simp [hkq', hki, hkq])

end

include hq

/-- A copy that has written every byte ends without a signal. -/
theorem copyPacketComplete_end (hkq : k.queue = q) (hd : k.len ≤ k.done) (hsig : k.sig = 0) :
    Goes s q (.copyPacketComplete q k.idx) fun u x' => Ended s k.idx x' ∧ u.mem = s.mem
      ∧ u.copies = s.copies.filter fun y => !(y.queue == q && y.idx == k.idx) := by
  have hexec := (exec_copyPacketComplete hrun hk hc he hf).2.1 hd hsig
  refine goes_of_donePkt hexec (t := s.drawn.dropCopy k) hq rfl fun x' hx' => ⟨hx', ?_, ?_⟩
  · exact State.donePkt_mem _ _ _
  · rw [State.donePkt_copies, State.dropCopy, hkq]
    rfl

include hpeer

/-- A copy that has written every byte writes its signal and ends. -/
theorem copyPacketComplete_signal (hd : k.len ≤ k.done) (hsig : k.sig ≠ 0)
    (hT : s.drawn.pkgWrite c k.sig (bvBytes 8 k.sigval) = .ok T) :
    Goes s q (.copyPacketComplete q k.idx) fun u x' => Ended s k.idx x' ∧ u.mem = T.mem := by
  have hacc := State.pkgWrite_accessed hT
  have hexec := (exec_copyPacketComplete hrun hk hc he hf).2.2 T hd hsig (by rw [hpeer, hT])
  exact goes_of_donePkt hexec (t := T.dropCopy k) ((hacc.queue q).trans hq) hacc.tick fun x' hx' => ⟨hx', State.donePkt_mem _ _ _⟩

end

end

end

/-! ### The end of a launch (R53) -/

section
variable {l : Launch}

/-- A launch of a queue, of no pod group, leaves the package and completes its packet. -/
theorem State.endLaunch_eq (htt : l.tt = none) (hpod : l.p.podgrp = 0) : ∃ hist, s.endLaunch l
    = State.donePkt { s with hist, launches := s.launches.filter fun x => x.key != l.key } l.queue l.idx := by
  refine ⟨(s.showLaunch l.key).hist, ?_⟩
  unfold State.endLaunch State.dropLaunch
  simp [htt, hpod]
  rfl

/-- An event that ends a launch completes its packet. -/
theorem goes_of_endLaunch {i : Instr} {k : Nat} (hexec : exec i s = .next (T.endLaunch l)) (htt : l.tt = none) (hpod : l.p.podgrp = 0)
    (hlq : l.queue = k) (hq : T.queue? k = some y) (htick : T.tick = s.tick) :
    Goes s k i fun u x' => Ended s l.idx x' ∧ u.launch? l.key = none ∧ u.mem = T.mem := by
  obtain ⟨hist, he⟩ := State.endLaunch_eq (s := T) htt hpod
  rw [he, hlq] at hexec
  refine goes_of_donePkt hexec (t := { T with hist, launches := T.launches.filter fun x => x.key != l.key }) hq htick fun x' hx' => ⟨hx', ?_, ?_⟩
  · rw [State.launch?, State.donePkt_launches]
    simp
  · exact State.donePkt_mem _ _ _

section
variable {k : Nat} (hrun : s.running = true) (hl : s.launch? l.key = some l) (he : s.launchEnded l = true) (hf : l.fault = none)
include hrun hl he hf

theorem exec_launchComplete_unsignalled (hsig : l.p.sigaddr = 0) : exec (.launchComplete l.key) s = .next (s.endLaunch l) := by
  change execLaunchComplete l.key s = _
  unfold execLaunchComplete
  simp [hl, hrun, he, hf, hsig]

theorem exec_launchComplete_record {ps : List Piece} (hc : s.ctx? l.ctx = some c) (hpeer : l.peer = none) (hsig : l.p.sigaddr ≠ 0)
    (hps : s.drawn.pkgPieces c .wr l.p.sigaddr 32 = .ok ps) :
    exec (.launchComplete l.key) s = .next (((s.drawn.putPieces ps
      (bvBytes 8 l.p.sigval ++ l.record s.tick)).used c .wr l.p.sigaddr 32 none).endLaunch l) := by
  change execLaunchComplete l.key s = _
  unfold execLaunchComplete
  simp only [hl, hrun, he, hf, if_neg hsig, hc, hpeer, State.drawn_eq, hps, Bool.not_true, Option.isSome_none, Bool.or_false,
    Bool.false_eq_true, ↓reduceIte]

end

end

end

/-- Settles O53, by the event that each clause names. -/
theorem queueEvents : Obligations.QueueEvents := by
  unfold Obligations.QueueEvents
  intro s x c hrun hx hc goes drawn ended
  refine ⟨fun v => ⟨exec_doorbellWidx_narrow s _ v, fun hst => ⟨fun hlo hhi => ?_, fun hlo => ?_, fun hlo hhi => ?_⟩⟩, ?_,
    fun b _ h => State.packetBad_opcode h, fun p hp => ⟨nopPacket_goes hrun hx hc hp, launch_goes hrun hx hc hp, copy_goes hrun hx hc hp,
      wait_goes hrun hx hc hp⟩, ?_, ?_, ?_, ?_, ?_, ?_⟩
  · rw [exec_doorbellWidx_whole hrun, State.doorbell_taken hx hst hlo hhi]
  · rw [exec_doorbellWidx_whole hrun, State.doorbell_below hx hlo]
  · have hexec := exec_doorbellWidx_whole hrun x.id v
    rw [State.doorbell_overrun hx hst hlo hhi] at hexec
    exact ⟨_, _, hexec, s.queueError_queue_self x 6 _, rfl, s.queueError_record x 6 _⟩
  · intro b hst hf hd hwb hpeer hr hb
    have hcons : x.consumes = true := by simp [Queue.consumes, hst, hf, hd]
    cases hbad : s.packetBad b with
    | none =>
      obtain ⟨u, x', hexec, hx', htaken⟩ := packetConsume_taken hrun hx hc hcons hwb hpeer hr hb hbad
      exact ⟨u, x', hexec, hx', fun _ => htaken, nofun⟩
    | some code =>
      obtain ⟨u, x', hexec, hx', herr⟩ := packetConsume_bad hrun hx hc hcons hwb hpeer hr hb hbad
      refine ⟨u, x', hexec, hx', nofun, fun k hk => ?_⟩
      cases hk
      exact herr
  · intro S y p ps old h hpeer add v irq k entry hps hold
    by_cases hadd : bnat p.bytes 24 1 = 1
    · obtain ⟨u, x', hexec, hx', hmem, hend, hsent, hmask⟩ := signal_goes h hpeer hps (by simpa [hadd] using hold hadd) rfl
      exact ⟨u, x', hexec, hx', fun _ => hmem, fun hn => absurd hadd hn, hend, hsent, hmask⟩
    · obtain ⟨u, x', hexec, hx', hmem, hend, hsent, hmask⟩ := signal_goes (old := bvBytes 8 (0 : DWord)) (v := v) h hpeer hps (by simp [hadd])
        (BitVec.zero_add _)
      exact ⟨u, x', hexec, hx', fun ha => absurd ha hadd, fun _ => hmem, hend, hsent, hmask⟩
  · intro S T y p h hpeer hT
    exact timestamp_goes h hpeer hT
  · intro p b hp hf hpeer hb m w r holds
    obtain ⟨u, x', hexec, hx', hmem, hend, hstay⟩ := waitPoll_goes hrun hx hc hp hf hpeer hb
    have hiff : holds ↔ waitCond (bnat p.bytes 32 1) w r = true := by
      unfold holds waitCond
      generalize bnat p.bytes 32 1 = cond
      match cond with
      | 0 => simp
      | 1 => simp
      | 2 => simp
      | 3 => simp
      | 4 => simp
      | _ + 5 => simp
    exact ⟨u, x', hexec, hx', hmem, fun h => hend (hiff.1 h), fun h => hstay (by simpa using mt hiff.2 h)⟩
  · intro p hn hp hus hl
    exact waitTimeout_goes hrun hx hn hp hus hl
  · intro k hkq hkc hk he hf hpeer
    have hck : s.ctx? k.ctx = some c := by rwa [hkc, State.ctx_id hc]
    refine ⟨fun b ps hlo hhi hb hps => ?_, fun hd hsig => ?_, fun T hd hsig hT => ?_⟩
    · exact copyPacketComplete_step hrun hk hck he hf hx hpeer hlo hhi hb hps hkq
    · exact copyPacketComplete_end hrun hk hck he hf hx hkq hd hsig
    · exact copyPacketComplete_signal hrun hk hck he hf hx hpeer hd hsig hT
  · intro l hlq hlc htt hpod hl he hf hpeer
    refine ⟨fun hsig => ?_, fun ps hsig hps => ?_⟩
    · exact goes_of_endLaunch (exec_launchComplete_unsignalled hrun hl he hf hsig) htt hpod hlq hx rfl
    · have hlctx : s.ctx? l.ctx = some c := by rwa [hlc, State.ctx_id hc]
      have hacc := s.drawn.putPieces_used_accessed ps (bvBytes 8 l.p.sigval ++ l.record s.tick) c .wr l.p.sigaddr 32 none
      obtain ⟨u, x', hexec, hx', hend, hgone, hmem⟩ := goes_of_endLaunch (exec_launchComplete_record hrun hl he hf hlctx hpeer hsig hps)
        htt hpod hlq ((hacc.queue _).trans hx) hacc.tick
      refine ⟨u, x', hexec, hx', hend, hgone, hmem.trans ?_⟩
      rw [State.used_mem, State.putPieces_drawn_mem]
      simp only [Launch.record, Launch.status, List.append_assoc]

end Sys2Proof.Machine
end

section
/-! SUPPORT. What the events of a wave do (R98, R120, R127, R132, R319, R371): O47. -/

namespace Sys2Proof.Machine

section
variable {s t u S : State} {w v : Wave}

/-! ### Other waves -/

/-- A wave but for its link sets, which any store may hit (R292). -/
def Wave.unlinked (w : Wave) : Wave := { w with links := [] }

/-- Every wave but one is as it was, its link sets apart. -/
def State.SameOthers (s u : State) (key : Nat) : Prop := ∀ k, k ≠ key → (u.wave? k).map Wave.unlinked = (s.wave? k).map Wave.unlinked

theorem MemOnly.sameOthers (h : MemOnly s u) (key : Nat) : s.SameOthers u key := by
  intro k _
  cases hw : s.wave? k with
  | none => rw [(h.waves k).1 hw]
  | some x =>
    obtain ⟨y, hy, he⟩ := (h.waves k).2 x hw
    rw [hy, he]
    rfl

/-- An event leaves a wave in a state, and the others as they were. -/
def After (s : State) (key : Nat) (i : Instr) (P : Wave → Prop) : Prop :=
  ∃ u w', exec i s = .next u ∧ u.wave? key = some w' ∧ P w' ∧ s.SameOthers u key

/-- An event that puts a wave back, which is in no single step: its age alone may have changed. -/
theorem after_settle {key : Nat} {i : Instr} {P : Wave → Prop} (hexec : exec i s = .next (t.settle v)) (hk : v.key = key)
    (ht : s.SameOthers t key) (hst : v.stepping = none) (hP : ∀ age, P { v with age }) : After s key i P := by
  subst hk
  have hsettle : t.settle v = t.putWave (if v.stage = .ready then { v with age := 0 } else v) := by
    unfold State.settle
    dsimp only
    rw [if_neg]
    split <;> simp [hst]
  rw [hsettle] at hexec
  have hother (x : Wave) (hx : x.key = v.key) : s.SameOthers (t.putWave x) v.key := fun k hk => by
    rw [State.wave_putWave_ne t x k (hx ▸ hk), ht k hk]
  by_cases hr : v.stage = .ready
  · rw [if_pos hr] at hexec
    exact ⟨_, _, hexec, State.wave_putWave_self t { v with age := 0 }, hP 0, hother _ rfl⟩
  · rw [if_neg hr] at hexec
    exact ⟨_, _, hexec, State.wave_putWave_self t v, hP v.age, hother _ rfl⟩

/-! ### A wave event acts -/

section
variable {k : Nat} {e : WEnv} {ok : State → WEnv → Bool} {act : State → WEnv → State}

theorem State.wenv_of {tm : Team} {c : Ctx} {l : Launch} (hw : s.wave? k = some w) (ht : s.team? w.team = some tm) (hc : s.ctx? tm.ctx = some c)
    (hl : s.launch? tm.launch = some l) : s.wenv? k = some ⟨c, tm, l, w⟩ := by
  unfold State.wenv?
  simp [hw, ht, hc, hl]

theorem waveEvent_acts (he : s.wenv? k = some e) (hok : ok s e = true) : waveEvent k ok act s = .next (act s e) := by
  unfold waveEvent
  simp [he, hok]

theorem waveEvent_rests (he : s.wenv? k = some e) (hok : ok s e = false) : waveEvent k ok act s = .next s := by
  unfold waveEvent
  simp [he, hok]

end

/-! ### Lanes -/

theorem mem_lanesOf {m : DWord} {l : Nat} : l ∈ lanesOf m ↔ l < 64 ∧ m.getLsbD l = true := by
  simp [lanesOf]

/-- The lanes of a list take one value. -/
theorem cget_csetAll_const {n : Nat} (ls : List Nat) (c : Cells n) (x : BitVec n) (l : Nat) :
    cget (csetAll c (ls.map fun i => (i, x))) l = if l ∈ ls then x else cget c l := by
  split
  next h =>
    have hval := cget_csetAll_map ls c 0 (fun _ => x) l h
    simpa using hval
  next h =>
    refine cget_csetAll _ _ _ fun p hp => ?_
    obtain ⟨i, hi, rfl⟩ := List.mem_map.1 hp
    exact fun he => h (he ▸ hi)

theorem cget_allLanes (b : Nat) {i : Nat} (h : i < 64) : cget (allLanes b) i = BitVec.ofNat 8 b := by
  rw [allLanes, cget_csetAll_const, if_pos (List.mem_range.2 h)]

/-! ### Entry (R51, R98) -/

section
variable (l : Launch) (tm : Team) (h : Header)

theorem entryRegs_s : cget (entryRegs l tm w h).s 0 = l.p.args ∧ cget (entryRegs l tm w h).s 1 = BitVec.ofNat 64 l.p.teams
    ∧ cget (entryRegs l tm w h).s 2 = (if h.poolbytes = 0 then 0 else l.p.image + BitVec.ofNat 64 h.pool)
    ∧ ∀ n, 3 ≤ n → cget (entryRegs l tm w h).s n = 0 := by
  refine ⟨?_, ?_, ?_, fun n hn => ?_⟩
  · simp [entryRegs, csetAll, cget_cset]
  · simp [entryRegs, csetAll, cget_cset]
  · simp [entryRegs, csetAll]
  · have hne (a b c : DWord) : ∀ p ∈ [(0, a), (1, b), (2, c)], p.1 ≠ n := by
      simp only [List.forall_mem_cons]
      exact ⟨by omega, by omega, by omega, by simp⟩
    exact cget_csetAll _ [] _ (hne _ _ _)

/-- The last wave's mask has a bit for each of the launch's lanes (R51). -/
theorem entryRegs_exm {i : Nat} (hi : i < 64) :
    (entryRegs l tm w h).exm.getLsbD i = decide (w.wid + 1 ≠ l.p.waves ∨ i < l.p.lanes) := by
  unfold entryRegs
  dsimp only
  by_cases hlast : w.wid + 1 = l.p.waves
  · rw [if_pos hlast, BitVec.getLsbD_ofNat, Nat.testBit_two_pow_sub_one]
    simp [hlast, hi]
  · have hones : ones64.getLsbD i = true := by
      rw [show ones64 = BitVec.allOnes 64 by decide, BitVec.getLsbD_allOnes]
      exact decide_eq_true hi
    rw [if_neg hlast, hones]
    simp [hlast]

end

/-! ### Lists element by element -/

theorem forall₂_trans {α : Type} {R : α → α → Prop} (hR : ∀ a b c, R a b → R b c → R a c) {l m n : List α} (h : List.Forall₂ R l m)
    (g : List.Forall₂ R m n) : List.Forall₂ R l n := by
  induction h generalizing n with
  | nil => exact g
  | cons hab _ ih =>
    cases g with
    | cons hbc hg => exact .cons (hR _ _ _ hab hbc) (ih hg)

theorem forall₂_getElem? {α : Type} {R : α → α → Prop} {l m : List α} {i : Nat} {x : α} (h : List.Forall₂ R l m) (hi : l[i]? = some x) :
    ∃ y, m[i]? = some y ∧ R x y := by
  obtain ⟨hlen, hget⟩ := List.forall₂_iff_get.1 h
  obtain ⟨hlt, rfl⟩ := List.getElem?_eq_some_iff.1 hi
  exact ⟨_, List.getElem?_eq_getElem (hlen ▸ hlt), hget i hlt (hlen ▸ hlt)⟩

/-! ### Fragments that move (R114, R115) -/

/-- A fragment as the split table and its quantum leave it. -/
def Frag.Shifts (f g : Frag) : Prop := g = { f with quantum := g.quantum, spill := g.spill }

theorem Frag.Shifts.refl (f : Frag) : f.Shifts f := rfl

theorem Frag.Shifts.trans {f g h : Frag} (hfg : f.Shifts g) (hgh : g.Shifts h) : f.Shifts h := by
  unfold Frag.Shifts at *
  rw [hgh, hfg]

/-- A wave whose fragments the split table moves, and which may go on with another of them. -/
def Wave.Shifts (w v : Wave) : Prop := v = { w with frags := v.frags, cur := v.cur, stage := v.stage, reason := v.reason }
  ∧ List.Forall₂ Frag.Shifts w.frags v.frags

theorem Wave.Shifts.trans {x : Wave} (h : w.Shifts v) (g : v.Shifts x) : w.Shifts x := by
  obtain ⟨hv, hf⟩ := h
  obtain ⟨hx, hg⟩ := g
  exact ⟨by rw [hx, hv], forall₂_trans (fun _ _ _ a b => a.trans b) hf hg⟩

theorem Wave.Shifts.refl (w : Wave) : w.Shifts w := ⟨rfl, List.forall₂_same.2 fun f _ => .refl f⟩

theorem Wave.setFrag_get (w : Wave) (i j : Nat) (f : Frag → Frag) :
    (w.setFrag i f).frags[j]? = (w.frags[j]?).map fun x => if j = i then f x else x := by
  simp only [Wave.setFrag, List.getElem?_map, List.getElem?_zipIdx, Option.map_map]
  congr 1
  funext x
  simp

theorem Wave.setFrag_shifts (w : Wave) (i : Nat) {f : Frag → Frag} (hf : ∀ x, Frag.Shifts x (f x)) : w.Shifts (w.setFrag i f) := by
  refine ⟨rfl, List.forall₂_iff_get.2 ⟨by simp [Wave.setFrag], fun j h₁ h₂ => ?_⟩⟩
  have hget := w.setFrag_get i j f
  rw [List.getElem?_eq_getElem h₁, List.getElem?_eq_getElem h₂, Option.map_some, Option.some.injEq] at hget
  simp only [List.get_eq_getElem]
  rw [hget]
  split
  · exact hf _
  · exact .refl _

theorem Wave.switchTo_shifts (w : Wave) (j : Nat) : w.Shifts (w.switchTo j) := by
  obtain ⟨hv, hf⟩ := w.setFrag_shifts j (f := fun f => { f with quantum := 0 }) fun _ => rfl
  exact ⟨rfl, hf⟩

theorem Wave.bringBack_shifts (w : Wave) (i : Nat) : w.Shifts (w.bringBack i) := by
  unfold Wave.bringBack
  split
  · split
    · obtain ⟨hv, hf⟩ := w.setFrag_shifts i (f := fun f => { f with spill := none }) fun _ => rfl
      exact ⟨rfl, hf⟩
    · exact .refl w
  · exact .refl w

theorem State.spill_shifts (fuel : Nat) (s : State) (w : Wave) : MemOnly s (s.spill w fuel).1 ∧ w.Shifts (s.spill w fuel).2 := by
  induction fuel generalizing s w with
  | zero => exact ⟨.refl s, .refl w⟩
  | succ fuel ih =>
    unfold State.spill
    split
    · exact ⟨.refl s, .refl w⟩
    · obtain ⟨hs, hw⟩ := ih _ _
      exact ⟨(store_memOnly _ _ _ _ _ _).trans hs, .trans (w.setFrag_shifts _ (f := fun f => { f with spill := some _ }) fun _ => rfl) hw⟩

theorem masks_of_shifts {l m : List Frag} (h : List.Forall₂ Frag.Shifts l m) : m.map Frag.mask = l.map Frag.mask := by
  induction h with
  | nil => rfl
  | cons hfg _ ih => rw [List.map_cons, List.map_cons, ih, hfg]

theorem Wave.Shifts.get {f : Frag} {i : Nat} (h : w.Shifts v) (hi : w.frags[i]? = some f) : ∃ g, v.frags[i]? = some g ∧ f.Shifts g :=
  forall₂_getElem? h.2 hi

/-- A wave switched to a fragment that is brought back and, as the table needs it, spills others. -/
theorem State.goTo_settles (s : State) (w : Wave) (j : Nat) : ∃ S v, s.goTo w j = S.settle v ∧ MemOnly s S ∧ w.Shifts v := by
  obtain ⟨hs, hv⟩ := s.spill_shifts ((w.switchTo j).bringBack j).frags.length ((w.switchTo j).bringBack j)
  exact ⟨_, _, rfl, hs, ((w.switchTo_shifts j).trans (Wave.bringBack_shifts _ j)).trans hv⟩

/-! ### Waits (R120) -/

/-- A fragment whose wait has come to an end. -/
def Frag.unblocked (tm : Team) (f : Frag) : Frag := { f with blocked := none, past := if f.held.isSome then f.blocked.map tm.passes else none }

/-- A fragment made runnable: the wave may go on with it, and nothing else of it changes. -/
theorem after_unblock {i : Instr} {j : Nat} {tm : Team} {P : Wave → Prop} (hexec : exec i s = .next (s.unblock tm w j)) (hst : w.stepping = none)
    (hP : ∀ v, (w.setFrag j (Frag.unblocked tm)).Shifts v → ∀ age, P { v with age }) : After s w.key i P := by
  have hunblock : s.unblock tm w j = if w.idle then s.goTo (w.setFrag j (Frag.unblocked tm)) j
      else s.putWave (w.setFrag j (Frag.unblocked tm)) := rfl
  rw [hunblock] at hexec
  split at hexec
  · obtain ⟨S, v, hgo, hs, hv⟩ := s.goTo_settles (w.setFrag j (Frag.unblocked tm)) j
    rw [hgo] at hexec
    refine after_settle hexec ?_ (hs.sameOthers _) ?_ fun age => hP v hv age
    · rw [hv.1]
      rfl
    · rw [hv.1]
      exact hst
  · refine ⟨_, _, hexec, State.wave_putWave_self s (w.setFrag j (Frag.unblocked tm)), hP _ (.refl _) _, fun k hk => ?_⟩
    rw [State.wave_putWave_ne s (w.setFrag j (Frag.unblocked tm)) k hk]

/-! ### Loads that read again (R166, R362) -/

/-- Entries of pending effects, some with more effects. -/
def Pend.Grows (p q : Pend) : Prop := ∃ more, q = { p with effs := p.effs ++ more }

theorem Pend.Grows.refl (p : Pend) : p.Grows p := ⟨[], by rw [List.append_nil]⟩

theorem Pend.Grows.trans {p q r : Pend} (h : p.Grows q) (g : q.Grows r) : p.Grows r := by
  obtain ⟨a, rfl⟩ := h
  obtain ⟨b, rfl⟩ := g
  exact ⟨a ++ b, by simp⟩

/-- A wave whose loads have read again. -/
def Wave.Rereads (w v : Wave) : Prop := v = { w with pend := v.pend, saw := v.saw, heard := v.heard } ∧ List.Forall₂ Pend.Grows w.pend v.pend

theorem Wave.Rereads.refl (w : Wave) : w.Rereads w := ⟨rfl, List.forall₂_same.2 fun p _ => .refl p⟩

theorem Wave.Rereads.trans {x : Wave} (h : w.Rereads v) (g : v.Rereads x) : w.Rereads x := by
  obtain ⟨hv, hf⟩ := h
  obtain ⟨hx, hg⟩ := g
  exact ⟨by rw [hx, hv], forall₂_trans (fun _ _ _ a b => a.trans b) hf hg⟩

theorem Wave.addEffs_grows (w : Wave) (pos : Nat) (effs : List Eff) : List.Forall₂ Pend.Grows w.pend (w.addEffs pos effs).pend := by
  unfold Wave.addEffs
  dsimp only
  rw [List.forall₂_map_right_iff]
  refine List.forall₂_same.2 fun p _ => ?_
  split
  · exact ⟨effs, rfl⟩
  · exact .refl p

theorem State.reread_rereads (s : State) (e : WEnv) (w : Wave) (x : Late) : w.Rereads (s.reread e w x) := by
  unfold State.reread
  dsimp only
  split
  · exact .refl w
  · exact ⟨rfl, w.addEffs_grows _ _⟩

theorem State.foldl_reread (s : State) (e : WEnv) (l : List Late) (w : Wave) : w.Rereads (l.foldl (s.reread e) w) :=
  List.foldlRecOn l _ (.refl w) fun v h x _ => h.trans (s.reread_rereads e v x)

/-- The wave with its loads' values, and the entries that are due complete. -/
theorem State.complete_spec (s : State) (e : WEnv) (w : Wave) (due : Pend → Bool) : ∃ v, w.Rereads v ∧ (w.late = [] → v = w)
    ∧ s.complete e w due = { v with
      late := (s.complete e w due).late, pend := v.pend.map fun p => if due p then { p with completed := true } else p } := by
  refine ⟨_, s.foldl_reread e (w.late.filter fun x => w.pend.any fun p => p.pos == x.op.pos && due p) w, fun h => ?_, rfl⟩
  rw [h]
  rfl

/-- Each entry of a wave keeps its place, with the effects that its load has read again. -/
theorem State.complete_pend {e : WEnv} {due : Pend → Bool} (hdue : ∀ p effs, due { p with effs } = due p) {i : Nat} {p : Pend}
    (hp : w.pend[i]? = some p) : ∃ p' more, (s.complete e w due).pend[i]? = some p'
      ∧ p' = { p with effs := p.effs ++ more, completed := p'.completed } ∧ (w.late = [] → more = []) ∧ (due p = true → p'.waits = false) := by
  obtain ⟨v, ⟨-, hgrows⟩, hnone, hv⟩ := s.complete_spec e w due
  obtain ⟨q, hq, more, hmore⟩ := forall₂_getElem? hgrows hp
  have hlast (hl : w.late = []) : more = [] := by
    rw [hnone hl, hp, Option.some.injEq] at hq
    have heffs := congrArg Pend.effs (hq.trans hmore)
    simpa using heffs
  have hqdue : due q = due p := by
    rw [hmore, hdue]
  refine ⟨if due q then { q with completed := true } else q, more, ?_, ?_, hlast, fun hd => ?_⟩
  · rw [hv, List.getElem?_map, hq]
    rfl
  · split
    · rw [hmore]
    · rw [hmore]
  · rw [hqdue, if_pos hd]
    simp [Pend.waits]

/-! ### What a wave may do -/

section
variable (hready : s.ready = true) (hdead : s.dead = false) (hgated : s.gated = false)
include hready hdead hgated

theorem State.running_of : s.running = true := by
  simp [State.running, hready, hdead, hgated]

theorem State.moves_of (hplace : w.place.isSome = true) (hquad : (s.quad (w.coreNo / 4)).stopped = false) : s.moves w = true := by
  simp [State.moves, State.running_of hready hdead hgated, hplace, quadOf, hquad]

end

section
variable {tm : Team} {c : Ctx} {l : Launch} (he : s.wenv? w.key = some ⟨c, tm, l, w⟩)
include he

/-! ### WAVE_START (R98, R319, R371) -/

theorem exec_waveStart_enter {h : Header} {f : Found} (hmoves : s.moves w = true) (hst : w.stage = .entering) (hstall : w.stalls = [])
    (hentry : s.entryOf c l.p.image = .ok (h, f)) : exec (.waveStart w.key) s = .next (s.settle (w.enter l tm h f)) := by
  have hok : startOk s ⟨c, tm, l, w⟩ = true := by simp [startOk, hmoves, hst, hstall]
  change execWaveStart w.key s = _
  unfold execWaveStart
  rw [waveEvent_acts he hok]
  simp [hst, hentry]

theorem exec_waveStart_bad {va : DWord} (hmoves : s.moves w = true) (hst : w.stage = .entering) (hstall : w.stalls = [])
    (hentry : s.entryOf c l.p.image = .error (.bad va)) :
    exec (.waveStart w.key) s = .next (s.startFault c { w with img := l.p.image } (.bad va)) := by
  have hok : startOk s ⟨c, tm, l, w⟩ = true := by simp [startOk, hmoves, hst, hstall]
  change execWaveStart w.key s = _
  unfold execWaveStart
  rw [waveEvent_acts he hok]
  simp [hst, hentry]

theorem exec_waveStart_label {r : Restart} {h : Header} {f : Found} (hmoves : s.moves w = true) (hst : w.stage = .label) (hstall : w.stalls = [])
    (hr : w.restart = some r) (hh : w.hdr = some h) (hf : s.single c w.img h r.block = .ok f) :
    exec (.waveStart w.key) s = .next (s.settle (w.atLabel r f)) := by
  have hok : startOk s ⟨c, tm, l, w⟩ = true := by simp [startOk, hmoves, hst, hstall]
  change execWaveStart w.key s = _
  unfold execWaveStart
  rw [waveEvent_acts he hok]
  simp [hst, hr, hh, hf]

/-! ### LONG_LATENCY_COMPLETE (R127) -/

/-- The wave's position is inside its clause, no access is to be tried again, and what is due has completed. -/
theorem exec_longLatencyComplete (hrun : s.running = true) (hplace : w.place.isSome = true) (hst : w.stage = .long)
    (hagain : ∀ x ∈ w.stalls, WEnv.again ⟨c, tm, l, w⟩ x = false) (hpos : w.pos < w.count)
    (hdone : ∀ p ∈ w.dueLong, s.underWay w p.pos = false) : exec (.longLatencyComplete w.key) s
      = .next (State.settle (if w.late.isEmpty then s else { s with nondet := s.nondet + 1 })
        { s.complete ⟨c, tm, l, w⟩ w (fun p => decide (w.count ≤ w.pos) || decide (p.due ≤ w.pos)) with stage := .issue, reason := 0 }) := by
  have hfind : w.stalls.find? (WEnv.again ⟨c, tm, l, w⟩) = none := List.find?_eq_none.2 fun x hx => by simp [hagain x hx]
  have hany : (w.dueLong.any fun p => s.underWay w p.pos) = false := List.any_eq_false.2 fun p hp => by simp [hdone p hp]
  have hok : longOk s ⟨c, tm, l, w⟩ = true := by
    simp [longOk, hrun, hplace, hst, hany, hpos]
  change execLongLatencyComplete w.key s = _
  unfold execLongLatencyComplete
  rw [waveEvent_acts he hok]
  simp only [hfind, if_neg (not_le.2 hpos)]

/-! ### Waits, trap entry and the end of a wave (R97, R120, R132) -/

section
variable {i : Nat} {f : Frag} {x : Wait}

theorem exec_waitSatisfied (hrun : s.running = true) (hplace : w.place.isSome = true) (hf : w.frags[i]? = some f) (hx : f.blocked = some x)
    (hsat : WEnv.satisfied ⟨c, tm, l, w⟩ x = true) : exec (.waitSatisfied w.key i) s = .next (s.unblock tm w i) := by
  change execWaitSatisfied w.key i s = _
  unfold execWaitSatisfied
  exact waveEvent_acts he (by simp [hrun, hplace, hf, hx, hsat])

/-- A barrier's wait ends with its release alone (R249). -/
theorem exec_waitSatisfied_barrier {k : Scope} (hf : w.frags[i]? = some f) (hx : f.blocked = some (.bar k)) :
    exec (.waitSatisfied w.key i) s = .next s := by
  change execWaitSatisfied w.key i s = _
  unfold execWaitSatisfied
  exact waveEvent_rests he (by simp [hf, hx, WEnv.satisfied])

end

theorem exec_trapEntry {tr : Trap} (hmoves : s.moves w = true) (hst : w.stage = .trap) (htr : w.trap = some tr) (hbusy : s.busy w = false) :
    exec (.trapEntry w.key) s = .next (s.takeTrap w tr) := by
  change execTrapEntry w.key s = _
  unfold execTrapEntry
  rw [waveEvent_acts he (by simp [hmoves, hst, hbusy])]
  simp [htr]

theorem exec_waveEnd (hmoves : s.moves w = true) (hst : w.stage = .ending) (hbusy : s.busy w = false) (ht : s.team? w.team = some tm)
    (hlatch : (tm.latch (w.wid / 2)).owner ≠ some w.key) : exec (.waveEnd w.key) s = .next (s.settle { w with stage := .ended }) := by
  have hfree : s.freeLatch w = (s, w) := by
    unfold State.freeLatch
    rw [ht]
    exact if_neg hlatch
  change execWaveEnd w.key s = _
  unfold execWaveEnd
  rw [waveEvent_acts he (by simp [hmoves, hst, hbusy])]
  simp [hfree]

end

/-! ### A team that ends at its image (R371) -/

theorem State.syncThreshold_storesOnly (s : State) (l : Launch) (tix : Nat) : s.StoresOnly (s.syncThreshold l tix) := by
  unfold State.syncThreshold
  split
  · exact s.sync_storesOnly _ _ _ _ _ _ _ _
  · exact .refl s

theorem State.dropTeam_team (s : State) (tm : Team) : (s.dropTeam tm).team? tm.key = none := by
  obtain ⟨S, -, hd⟩ := s.dropTeam_only tm
  rw [hd]
  simp [State.team?]

theorem State.dropTeam_fqHeld (s : State) (tm : Team) : (s.dropTeam tm).fqHeld = s.fqHeld := by
  obtain ⟨S, hS, hd⟩ := s.dropTeam_only tm
  rw [hd, hS]

/-- A team voided is gone; that alone reports nothing. -/
theorem State.voidTeam_spec (s : State) (tm : Team) : (s.voidTeam tm).team? tm.key = none ∧ (s.voidTeam tm).fqHeld = s.fqHeld := by
  have hvoid {S : State} (hS : s.StoresOnly S) (l x : Launch) :
      (((S.dropTeam tm).syncThreshold l tm.tix).putLaunch x).team? tm.key = none
        ∧ (((S.dropTeam tm).syncThreshold l tm.tix).putLaunch x).fqHeld = s.fqHeld := by
    have hsync := (S.dropTeam tm).syncThreshold_storesOnly l tm.tix
    rw [State.team_putLaunch, State.putLaunch_fqHeld, State.team?, hsync]
    exact ⟨S.dropTeam_team tm, (S.dropTeam_fqHeld tm).trans (by rw [hS])⟩
  unfold State.voidTeam
  split
  · exact ⟨s.dropTeam_team tm, s.dropTeam_fqHeld tm⟩
  · cases tm.core with
    | none => exact hvoid (.refl s) _ _
    | some k => exact hvoid (s.trace_storesOnly _ _ _ _ _ _) _ _

/-- The record of a trap that ends a wave's team (R57, R136). -/
def State.trapRecord (s : State) (w : Wave) (tr : Trap) : FaultRec :=
  { FaultRec.ofWave s w (endKind tr.cause) tr.access.toNat (if tr.cause = causeEcc then tr.fword.toNat else 0) tr.faddr with tick := s.tick }

/-- That record waiting to be written. -/
def State.reportTrap (s : State) (w : Wave) (tr : Trap) : State :=
  s.reportWave w (endKind tr.cause) tr.access.toNat (if tr.cause = causeEcc then tr.fword.toNat else 0) tr.faddr

theorem State.reportTrap_fqHeld (s : State) (w : Wave) (tr : Trap) : (s.reportTrap w tr).fqHeld = s.fqHeld ++ [s.trapRecord w tr] := rfl

/-- The record names the team, the trap's cause and its address. -/
theorem State.trapRecord_names {tm : Team} {l : Launch} {tr : Trap} (ht : s.team? w.team = some tm) (hl : s.launch? tm.launch = some l) :
    (s.trapRecord w tr).kind = endKind tr.cause ∧ (s.trapRecord w tr).addr = tr.faddr ∧ (s.trapRecord w tr).team = tm.tix := by
  unfold State.trapRecord FaultRec.ofWave
  simp [ht, hl]

/-- A wave once its pending effects are due (R126), which are none. -/
theorem State.flush_none (hpend : w.pend = []) : s.flush w = (s, { w with regs := w.regsEnd, pend := [], late := [] }) := by
  unfold State.flush
  rw [land_local s w _ (by simp [hpend])]

/-- A trap in a wave without fragments and without pending effects writes a frame and ends the team (R132, R371). -/
theorem State.takeTrap_ends {tm : Team} {c : Ctx} {tr : Trap} (ht : s.team? w.team = some tm) (hc : s.ctx? tm.ctx = some c)
    (hpend : w.pend = []) (hfrags : w.frags = []) : ∃ S v, s.StoresOnly S ∧ v.team = w.team
      ∧ s.takeTrap w tr = (S.reportTrap v tr).voidTeam tm := by
  let v : Wave := { w with regs := w.regsEnd, pend := [], late := [] }
  let checked := c.checked || (match v.clause with | some k => k.k | none => false)
  let S := (s.store none (s.areaOf v) (v.areaBytes tr checked s.tick) false).traceTrap v c.id tr.cause
  have hS : s.StoresOnly S := .trans (s.store_storesOnly _ _ _ _) (State.trace_storesOnly _ _ _ _ _ _ _)
  have hteam : S.team? w.team = some tm := by
    rw [State.team?, hS]
    exact ht
  refine ⟨S, v, hS, rfl, ?_⟩
  unfold State.takeTrap
  simp only [ht, hc, State.flush_none hpend]
  rw [if_pos (.inr (.inr hfrags))]
  exact congrArg _ (congrArg (Option.getD · tm) hteam)

/-- A start whose image fails a check ends the team; the record gives the image's address (R371). -/
theorem State.startFault_bad {tm : Team} {c : Ctx} {l : Launch} {va : DWord} (ht : s.team? w.team = some tm) (hc : s.ctx? tm.ctx = some c)
    (hl : s.launch? tm.launch = some l) (htrap : w.trap = none) (hpend : w.pend = []) (hbusy : s.busy w = false) :
    ∃ r, (s.startFault c w (.bad va)).team? tm.key = none ∧ (s.startFault c w (.bad va)).fqHeld = s.fqHeld ++ [r] ∧ r.kind = 3
      ∧ r.addr = w.img ∧ r.team = tm.tix := by
  let tr : Trap := { cause := causeIllop, faddr := w.img, access := 8, detail := 3, header := true }
  let v : Wave := { w with frags := [], trap := none, stepped := w.stepped || w.stage == .issue }
  have hidle : ¬s.busy v = true := Bool.eq_false_iff.1 hbusy
  have hraise : s.startFault c w (.bad va) = s.takeTrap v tr := by
    unfold State.startFault
    simp only [ImgErr.cause, if_true]
    unfold State.raise
    simp only [htrap]
    exact if_neg hidle
  obtain ⟨S, x, hS, hx, he⟩ := State.takeTrap_ends (s := s) (w := v) (tr := tr) ht hc hpend rfl
  obtain ⟨hgone, hheld⟩ := (S.reportTrap x tr).voidTeam_spec tm
  have hteam : S.team? x.team = some tm := by
    rw [State.team?, hS, hx]
    exact ht
  have hlaunch : S.launch? tm.launch = some l := by
    rw [State.launch?, hS]
    exact hl
  have hfq : S.fqHeld = s.fqHeld := by rw [hS]
  rw [hraise, he]
  exact ⟨_, hgone, by rw [hheld, State.reportTrap_fqHeld, hfq], State.trapRecord_names hteam hlaunch⟩

end

/-- Settles O47, by the event that each clause names. -/
theorem waveEvents : Obligations.WaveEvents := by
  unfold Obligations.WaveEvents
  intro s w tm c l hw ht hc hl hready hdead hgated hplace hquad hstep after
  have hrun := State.running_of hready hdead hgated
  have hmoves := State.moves_of hready hdead hgated hplace hquad
  have he := State.wenv_of hw ht hc hl
  refine ⟨?_, ?_, ?_, ?_, ?_, ?_, ?_, ?_⟩
  · intro h f hst hstall htrap hentry
    obtain ⟨hs0, hs1, hs2, hsn⟩ := entryRegs_s (w := w) l tm h
    refine after_settle (exec_waveStart_enter he hmoves hst hstall hentry) rfl (fun _ _ => rfl) hstep fun age => ?_
    refine ⟨rfl, rfl, ?_, rfl, rfl, rfl, hs0, hs1, hs2, hsn, fun i hi => entryRegs_exm l tm h hi,
      fun i hi => ⟨cget_allLanes _ hi, cget_allLanes _ hi⟩, rfl⟩
    simp [Wave.enter, htrap]
  · intro r h f hst hstall htrap hr hh hf
    refine after_settle (exec_waveStart_label he hmoves hst hstall hr hh hf) rfl (fun _ _ => rfl) hstep fun age => ?_
    refine ⟨?_, rfl, rfl, rfl, fun i hi => ?_, rfl⟩
    · simp [Wave.atLabel, htrap]
    · refine (cget_csetAll_const (lanesOf w.live) w.blk _ i).trans ?_
      simp [mem_lanesOf, hi]
  · intro va hst hstall htrap hpend hbusy hentry
    obtain ⟨r, hgone, hheld, hkind, haddr, htix⟩ := State.startFault_bad (w := { w with img := l.p.image }) (va := va) ht hc hl htrap hpend hbusy
    exact ⟨_, r, exec_waveStart_bad he hmoves hst hstall hentry, hgone, hheld, hkind, haddr, htix⟩
  · intro hst hstall hpos hdone
    have hagain : ∀ x ∈ w.stalls, WEnv.again ⟨c, tm, l, w⟩ x = false := by
      intro x hx
      obtain ⟨hpeer, hwait⟩ := hstall x hx
      rcases hwait with h | h | h
      · simp [WEnv.again, Stall.atLimit, hpeer, Option.isNone_eq_false_iff.2 (Option.isSome_iff_ne_none.2 h)]
      · simp [WEnv.again, Stall.atLimit, hpeer, Option.isNone_eq_false_iff.2 (Option.isSome_iff_ne_none.2 h)]
      · simp [WEnv.again, hpeer, h]
    have hover : ∀ p ∈ w.dueLong, s.underWay w p.pos = false := by
      intro p hp
      simp only [Wave.dueLong, List.mem_filter, Bool.and_eq_true, Bool.or_eq_true, decide_eq_true_eq, Pend.waits] at hp
      obtain ⟨hm, ⟨hlong, -⟩, hdue⟩ := hp
      obtain ⟨hstalls, hmtx⟩ := hdone p hm hlong (hdue.resolve_left (by omega))
      simp only [State.underWay, Bool.or_eq_false_iff, List.any_eq_false]
      exact ⟨fun x hx => by simpa using hstalls x hx, fun j hj => by simpa using hmtx j hj⟩
    obtain ⟨v, ⟨hv, hgrows⟩, -, hcomp⟩ := s.complete_spec ⟨c, tm, l, w⟩ w fun p => decide (w.count ≤ w.pos) || decide (p.due ≤ w.pos)
    refine after_settle (exec_longLatencyComplete he hrun hplace hst hagain hpos hover) ?_ ?_ ?_ fun age => ?_
    · rw [hcomp, hv]
    · intro k _
      split <;> rfl
    · rw [hcomp, hv]
      exact hstep
    · refine ⟨rfl, ?_, ?_, ?_, fun i p hp => ?_⟩
      · rw [hcomp, hv]
      · rw [hcomp, hv]
      · rw [hcomp, List.length_map]
        exact hgrows.length_eq.symm
      · obtain ⟨p', more, hget, hp', hnone, hwaits⟩ := State.complete_pend (s := s) (e := ⟨c, tm, l, w⟩)
          (due := fun p => decide (w.count ≤ w.pos) || decide (p.due ≤ w.pos)) (fun _ _ => rfl) hp
        exact ⟨p', more, hget, hp', hnone, fun hd => hwaits (by simp [hd])⟩
  · intro tr hst htr hbusy
    exact exec_trapEntry he hmoves hst htr hbusy
  · intro i f x hf hx hsat
    have hsatisfied : WEnv.satisfied ⟨c, tm, l, w⟩ x = true := by
      cases x with
      | handle h => exact hsat
      | tagAny m => simpa [WEnv.satisfied] using hsat
      | tagAll m => simpa [WEnv.satisfied] using hsat
      | latch => simpa [WEnv.satisfied, Wave.pair] using hsat
      | tkwait => simpa [WEnv.satisfied, Launch.holds] using hsat
      | tkrel => simpa [WEnv.satisfied, Launch.holds] using hsat
      | bar k => exact hsat.elim
      | mask m => simpa [WEnv.satisfied, imp_iff_not_or] using hsat
    refine after_unblock (exec_waitSatisfied he hrun hplace hf hx hsatisfied) hstep fun v hv age => ?_
    have hget := w.setFrag_get i i (Frag.unblocked tm)
    rw [hf, Option.map_some, if_pos rfl] at hget
    obtain ⟨g, hg, hfg⟩ := hv.get hget
    refine ⟨?_, (masks_of_shifts hv.2).trans (setFrag_mask w i _ fun _ => rfl), g, hg, ?_⟩
    · rw [hv.1]
      rfl
    · rw [hfg]
      refine ⟨rfl, rfl, rfl, ?_⟩
      simp only [Frag.unblocked, hx, Option.map_some, Option.isSome_iff_ne_none]
  · intro i f hf hx
    exact exec_waitSatisfied_barrier he hf hx
  · intro hst hbusy hlatch
    exact after_settle (exec_waveEnd he hmoves hst hbusy ht hlatch) rfl (fun _ _ => rfl) hstep fun age => ⟨rfl, rfl⟩

end Sys2Proof.Machine
end

section
/-! SUPPORT. Entries that stores add to a team's log, and what the team's own loads then see (R79 to R81): O36. -/

namespace Sys2Proof.Machine

section
variable {s S : State} {t : Team} {e : Env}

/-! ### Entries as stores form them (R81) -/

theorem getLsbD_run (n off i : Nat) (hi : i < 32) :
    (BitVec.ofNat 32 (2 ^ n - 1) <<< off).getLsbD i = true ↔ off ≤ i ∧ i < off + n := by
  rw [BitVec.getLsbD_shiftLeft, BitVec.getLsbD_ofNat, Nat.testBit_two_pow_sub_one]
  simp only [hi, decide_true, Bool.true_and, Bool.and_eq_true, Bool.not_eq_true', decide_eq_false_iff_not, decide_eq_true_eq]
  omega

theorem LogE.Formed.overlay {x : LogE} (h : x.Formed) {off : Nat} {b : List Byte} (hb : off + b.length ≤ 32) : (x.overlay off b).Formed := by
  cases x with
  | atomic => exact h
  | write block mask bytes cmp parts tag =>
    obtain ⟨hlen, hparts, hmask⟩ := h
    refine ⟨by simp [hlen], fun p hp => ?_, fun i hi => ?_⟩
    · rcases List.mem_append.1 hp with hp | hp
      · exact hparts p hp
      · rw [List.mem_singleton.1 hp]
        exact hb
    · rw [BitVec.getLsbD_or, Bool.or_eq_true, hmask i hi, getLsbD_run _ _ _ hi]
      simp [or_and_right, exists_or]

/-- Bytes of a block make formed entries of formed entries. -/
theorem logBlock_formed {tag : LogTag} {es : List LogE} (block off : Nat) (b : List Byte) (cmp : Bool) (h : ∀ x ∈ es, x.Formed)
    (hb : off + b.length ≤ 32) : ∀ x ∈ logBlock tag es block off b cmp, x.Formed := by
  have hnew : (LogE.write block 0 (List.replicate 32 0) cmp [] tag).Formed := ⟨by simp, by simp, by simp⟩
  unfold logBlock
  extract_lets here
  intro x hx
  split at hx
  · obtain ⟨y, hy, rfl⟩ := List.mem_map.1 hx
    split
    · exact (h y hy).overlay hb
    · exact h y hy
  · rcases List.mem_append.1 hx with hx | hx
    · exact h x hx
    · rw [List.mem_singleton.1 hx]
      exact hnew.overlay hb

theorem logBytes_formed {tag : LogTag} (fuel : Nat) {es : List LogE} (pa : Nat) (b : List Byte) (cmp : Bool) (h : ∀ x ∈ es, x.Formed) :
    ∀ x ∈ logBytes tag fuel es pa b cmp, x.Formed := by
  induction fuel generalizing es pa b with
  | zero => exact h
  | succ fuel ih =>
    unfold logBytes
    split
    · exact h
    · refine ih _ _ (logBlock_formed _ _ _ _ h ?_)
      rw [List.length_take]
      omega

theorem logWrites_formed (l : List (Nat × List Byte × Bool)) (tag : LogTag) : ∀ x ∈ logWrites l tag, x.Formed := by
  unfold logWrites
  exact List.foldlRecOn l _ (motive := fun es : List LogE => ∀ x ∈ es, x.Formed) (by simp) fun es h p _ => logBytes_formed _ _ _ _ h

theorem LogE.Formed.numbered {x : LogE} (h : x.Formed) (n : Nat) : (x.numbered n).Formed := by
  cases x with
  | write => exact h
  | atomic => exact h

theorem numberLog_formed (n : Nat) {es : List LogE} (h : ∀ x ∈ es, x.Formed) : ∀ x ∈ (numberLog n es).1, x.Formed := by
  induction es generalizing n with
  | nil => exact h
  | cons y es ih =>
    rw [List.forall_mem_cons] at h
    exact List.forall_mem_cons.2 ⟨h.1.numbered n, ih _ h.2⟩

@[simp] theorem numberLog_length (n : Nat) (es : List LogE) : (numberLog n es).1.length = es.length := by
  induction es generalizing n with
  | nil => rfl
  | cons y es ih => rw [numberLog, List.length_cons, List.length_cons, ih]

/-! ### What an entry makes of memory (R80) -/

/-- Numbering an entry leaves what it does to memory. -/
theorem LogE.onMem_numbered (m : List Host.Cell) (x : LogE) (n : Nat) : LogE.onMem m (x.numbered n) = LogE.onMem m x := by
  cases x with
  | write => rfl
  | atomic => rfl

theorem foldl_onMem_numberLog (n : Nat) (es : List LogE) (m : List Host.Cell) :
    (numberLog n es).1.foldl LogE.onMem m = es.foldl LogE.onMem m := by
  induction es generalizing n m with
  | nil => rfl
  | cons y es ih => rw [numberLog, List.foldl_cons, List.foldl_cons, ih, LogE.onMem_numbered]

/-- Of several values written, those at one number all the same: that value stands there. -/
theorem cget_csetAll_of_mem {n : Nat} {l : List (Nat × BitVec n)} {k : Nat} {x : BitVec n} (c : Cells n) (h : (k, x) ∈ l)
    (hu : ∀ p ∈ l, p.1 = k → p.2 = x) : cget (csetAll c l) k = x := by
  induction l using List.reverseRecOn with
  | nil => cases h
  | append_singleton l p ih =>
    have hlast : csetAll c (l ++ [p]) = cset (csetAll c l) p.1 p.2 := by simp [csetAll]
    rw [hlast, cget_cset]
    split
    next hk => exact hu p (by simp) hk.symm
    next hk =>
      refine ih ((List.mem_append.1 h).resolve_right fun hp => hk ?_) fun q hq => hu q (by simp [hq])
      rw [← List.mem_singleton.1 hp]

/-- The bytes of a block whose bits are set stand at their places; every other byte is as before. -/
theorem cget_onMem_write {block : Nat} {mask : BitVec 32} {bytes : List Byte} {cmp : Bool} {parts : List (Nat × Nat)} {tag : LogTag}
    (m : List Host.Cell) (hlen : bytes.length = 32) (a : Nat) :
    cget (w := 8) (LogE.onMem m (.write block mask bytes cmp parts tag)) a
      = if 32 * block ≤ a ∧ a < 32 * block + 32 ∧ mask.getLsbD (a - 32 * block) = true then (bytes[a - 32 * block]?).getD 0
        else cget (w := 8) m a := by
  have hmem (p : Nat × Byte) : p ∈ blockBytes block mask bytes ↔ ∃ i, bytes[i]? = some p.2 ∧ mask.getLsbD i = true ∧ p.1 = block * 32 + i := by
    obtain ⟨k, x⟩ := p
    simp only [blockBytes, List.mem_filterMap, Prod.exists, List.mem_zipIdx_iff_getElem?, Option.ite_none_right_eq_some,
      Option.some.injEq, Prod.mk.injEq]
    constructor
    · rintro ⟨y, i, hy, hm, rfl, rfl⟩
      exact ⟨i, hy, hm, rfl⟩
    · rintro ⟨i, hy, hm, rfl⟩
      exact ⟨x, i, hy, hm, rfl, rfl⟩
  change cget (csetAll (w := 8) m (blockBytes block mask bytes)) a = _
  split
  next h =>
    obtain ⟨hlo, hhi, hm⟩ := h
    have hi : a - 32 * block < bytes.length := by omega
    rw [List.getElem?_eq_getElem hi, Option.getD_some]
    refine cget_csetAll_of_mem _ ((hmem _).2 ⟨a - 32 * block, List.getElem?_eq_getElem hi, hm, by simp only; omega⟩) fun p hp hpa => ?_
    obtain ⟨i, hpi, -, hp1⟩ := (hmem p).1 hp
    obtain rfl : i = a - 32 * block := by omega
    rw [List.getElem?_eq_getElem hi, Option.some.injEq] at hpi
    exact hpi.symm
  next h =>
    refine cget_csetAll _ _ _ fun p hp hpa => h ?_
    obtain ⟨i, hi, hm, hp1⟩ := (hmem p).1 hp
    have hi32 : i < 32 := hlen ▸ (List.getElem?_eq_some_iff.1 hi).1
    obtain rfl : a = 32 * block + i := by omega
    simp [hm, hi32]

/-- Bytes that lie in one block make one entry, which is they at their place. -/
theorem cget_onMem_logWrites (tag : LogTag) (m : List Host.Cell) {pa : Nat} {b : List Byte} (cmp : Bool) (hb : b ≠ [])
    (hin : pa % 32 + b.length ≤ 32) (a : Nat) :
    cget (w := 8) ((logWrites [(pa, b, cmp)] tag).foldl LogE.onMem m) a
      = if pa ≤ a ∧ a < pa + b.length then (b[a - pa]?).getD 0 else cget (w := 8) m a := by
  have hlog : logWrites [(pa, b, cmp)] tag
      = [(LogE.write (pa / 32) 0 (List.replicate 32 0) cmp [] tag).overlay (pa % 32) b] := by
    obtain ⟨n, hn⟩ : ∃ n, b.length = n + 1 := Nat.exists_eq_succ_of_ne_zero (by simpa using hb)
    have htake : b.take (32 - pa % 32) = b := List.take_of_length_le (by omega)
    have hdrop : b.drop (32 - pa % 32) = [] := List.drop_eq_nil_of_le (by omega)
    have hnil (es : List LogE) (q : Nat) : logBytes tag n es q [] cmp = es := by cases n <;> rfl
    rw [logWrites, List.foldl_cons, List.foldl_nil, hn, logBytes, if_neg (by simpa using hb)]
    dsimp only
    rw [htake, hdrop, hnil]
    rfl
  rw [hlog, List.foldl_cons, List.foldl_nil, LogE.overlay, cget_onMem_write m (by simp)]
  have hrun (hi : a - 32 * (pa / 32) < 32) : ((0 : BitVec 32) ||| BitVec.ofNat 32 (2 ^ b.length - 1) <<< (pa % 32)).getLsbD (a - 32 * (pa / 32)) = true
      ↔ pa % 32 ≤ a - 32 * (pa / 32) ∧ a - 32 * (pa / 32) < pa % 32 + b.length := by
    rw [BitVec.getLsbD_or, Bool.or_eq_true, getLsbD_run _ _ _ hi]
    simp
  by_cases h : pa ≤ a ∧ a < pa + b.length
  · have hi : a - 32 * (pa / 32) < 32 := by omega
    have hat : a - 32 * (pa / 32) - pa % 32 = a - pa := by omega
    have hlt : a - pa < b.length := by omega
    rw [if_pos h, if_pos ⟨by omega, by omega, (hrun hi).2 (by omega)⟩]
    rw [List.getElem?_map, List.getElem?_zipIdx, List.getElem?_replicate, if_pos hi]
    simp [hat, hlt, show pa % 32 ≤ a - 32 * (pa / 32) by omega]
  · rw [if_neg h, if_neg]
    rintro ⟨hlo, hhi, hm⟩
    have := (hrun (by omega)).1 hm
    omega

/-! ### What entries are without what they bring with them -/

/-- An entry without what it brings with it when it is applied. -/
def LogE.bare : LogE → LogE
  | .write block mask bytes cmp parts _ => .write block mask bytes cmp parts {}
  | .atomic op pa size x cmp _ => .atomic op pa size x cmp {}

theorem LogE.bare_overlay (x : LogE) (off : Nat) (b : List Byte) : (x.overlay off b).bare = x.bare.overlay off b := by
  cases x with
  | write => rfl
  | atomic => rfl

theorem logBlock_bare (tag : LogTag) (es : List LogE) (block off : Nat) (b : List Byte) (cmp : Bool) :
    (logBlock tag es block off b cmp).map LogE.bare = logBlock {} (es.map LogE.bare) block off b cmp := by
  unfold logBlock
  extract_lets here
  have hhere (x : LogE) : here x.bare = here x := by
    cases x with
    | write => rfl
    | atomic => rfl
  have hany : (es.map LogE.bare).any here = es.any here := by
    rw [List.any_map]
    exact congrArg _ (funext hhere)
  rw [hany]
  split
  · rw [List.map_map, List.map_map]
    refine List.map_congr_left fun x _ => ?_
    simp only [Function.comp_apply, hhere]
    split
    · exact x.bare_overlay off b
    · rfl
  · rw [List.map_append, List.map_singleton, LogE.bare_overlay]
    rfl

theorem logBytes_bare (tag : LogTag) (fuel : Nat) (es : List LogE) (pa : Nat) (b : List Byte) (cmp : Bool) :
    (logBytes tag fuel es pa b cmp).map LogE.bare = logBytes {} fuel (es.map LogE.bare) pa b cmp := by
  induction fuel generalizing es pa b with
  | zero => rfl
  | succ fuel ih =>
    unfold logBytes
    split
    · rfl
    · rw [ih, logBlock_bare]

theorem logWrites_bare (l : List (Nat × List Byte × Bool)) (tag : LogTag) : (logWrites l tag).map LogE.bare = logWrites l := by
  induction l using List.reverseRecOn with
  | nil => rfl
  | append_singleton l p ih =>
    unfold logWrites at *
    rw [List.foldl_append, List.foldl_append, List.foldl_cons, List.foldl_nil, logBytes_bare, ih]
    rfl

/-- What entries bring with them does not change how many there are. -/
theorem logWrites_length (l : List (Nat × List Byte × Bool)) (tag : LogTag) : (logWrites l tag).length = (logWrites l).length := by
  rw [← logWrites_bare l tag, List.length_map]

/-! ### Bytes of a word stored (R2) -/

theorem leBytes_getElem? {n k : Nat} (x : Nat) (h : k < n) : (leBytes n x)[k]? = some (BitVec.ofNat 8 (x / 256 ^ k)) := by
  induction n generalizing x k with
  | zero => omega
  | succ n ih =>
    cases k with
    | zero => simp [leBytes]
    | succ k => rw [leBytes, List.getElem?_cons_succ, ih _ (by omega), Nat.div_div_eq_div_mul, Nat.pow_succ']

theorem leBytes_extract {n k : Nat} (x : DWord) (h : k < n) : ((leBytes n x.toNat)[k]?).getD 0 = x.extractLsb' (8 * k) 8 := by
  rw [leBytes_getElem? _ h, Option.getD_some, BitVec.extractLsb', Nat.shiftRight_eq_div_pow, Nat.pow_mul]

/-! ### A store that enters the log (R79, R81) -/

/-- A team's log with entries added, and nothing else changed but the numbers of writes. -/
theorem State.addLog_spec {key : Nat} (es : List LogE) (ht : s.team? key = some t) :
    ∃ T : State, s.addLog key es = T ∧ T = { s with teams := T.teams, written := T.written }
      ∧ T.team? key = some { t with log := t.log ++ (numberLog s.written es).1 } := by
  have hk : t.key = key := by simpa using List.find?_some ht
  refine ⟨_, rfl, ?_⟩
  unfold State.addLog
  rw [ht]
  cases es with
  | nil => exact ⟨rfl, by simpa [numberLog] using ht⟩
  | cons x es =>
    refine ⟨rfl, ?_⟩
    subst hk
    exact s.team_putTeam_self { t with log := t.log ++ (numberLog s.written (x :: es)).1 }

theorem Wave.after_only (w : Wave) (ord : Ord) (p : Perf) :
    w.after ord p = { w with known := (w.after ord p).known, saw := (w.after ord p).saw, heard := (w.after ord p).heard } := by
  unfold Wave.after
  split
  · rfl
  · split <;> rfl

/-- What an operation of a wave leaves when its stores enter the log: memory as it was, and the log with their entries. -/
theorem Actor.behind_logs {a : Actor} {op : MemOp} {p : Perf} {w : Wave} (hs : p.x.s = s) (hw : s.wave? a.key = some w)
    (ht : s.team? a.t.key = some t) : ∃ w', (a.behind op p).mem = s.mem ∧ (a.behind op p).ctl = s.ctl
      ∧ (a.behind op p).team? a.t.key = some { t with log := t.log ++ (numberLog s.written (logWrites p.x.log a.logTag)).1 }
      ∧ (a.behind op p).wave? a.key = some w'
      ∧ w' = { w with known := w'.known, saw := w'.saw, heard := w'.heard, logged := w'.logged } := by
  obtain ⟨A, hA, hrest, hteam⟩ := State.addLog_spec (logWrites p.x.log a.logTag) ht
  obtain ⟨T, hT⟩ : ∃ T : State, T = { (A.fillTlb a.c op.globals).sendFlits (a.peers A op) with
    nondet := ((A.fillTlb a.c op.globals).sendFlits (a.peers A op)).nondet + 1 } := ⟨_, rfl⟩
  have hrests : T = { A with tlb := T.tlb, links := T.links, outbox := T.outbox, nondet := T.nondet } := by
    rw [hT, sendFlits_only, fillTlb_only]
  have hwave : T.wave? a.key = some w := by
    rw [hrests, hrest]
    exact hw
  have hbehind : a.behind op p = T.putWave { w.after op.ord p with logged := w.logged || (!p.x.log.isEmpty || !p.entries.isEmpty) } := by
    unfold Actor.behind
    simp only [hs, hA, ← hT, hwave]
  have hkey : w.key = a.key := by simpa using List.find?_some hw
  refine ⟨{ w.after op.ord p with logged := w.logged || (!p.x.log.isEmpty || !p.entries.isEmpty) }, ?_⟩
  rw [hbehind]
  refine ⟨?_, ?_, ?_, State.wave_putWave_of _ _ _ ?_, ?_⟩
  · rw [State.putWave_mem, hrests, hrest]
  · rw [State.putWave_ctl, hrests, hrest]
  · rw [State.team_putWave, State.team?, hrests]
    exact hteam
  · rw [w.after_only]
    exact hkey.symm
  · rw [w.after_only]


/-- A memory instruction whose stores enter the log retires: memory stays as it is, and the log has their entries (R81, R127). -/
theorem memory_logs {k : Slot} {la : La} {reads writes srcs dsts : List Nat} {op : MemOp} {p : Perf} (h : MemReady s e k la reads writes)
    (hd : op.takesDirect = false) (hp : (e.actor op.ord).perform e.w.key op s = p) (hs : p.x.s = s) (hbad : p.bad = [])
    (hroom : e.t.log.length + (logWrites p.x.log).length + p.entries.length ≤ e.l.logCap)
    (hloc : ∀ x ∈ op.res.effs p.done, x.local = true) : (e.memory la srcs dsts op).mem = s.mem
      ∧ (e.memory la srcs dsts op).team? e.t.key
        = some { e.t with log := e.t.log ++ (numberLog s.written (logWrites p.x.log (e.actor op.ord).logTag)).1 } := by
  have hf := State.env_found h.ready.env
  have hteam : s.team? e.t.key = some e.t := by
    have hkey : e.t.key = e.w.team := by simpa using List.find?_some hf.team
    rw [hkey]
    exact hf.team
  obtain ⟨w, hmem, hctl, hlog, hw, hwe⟩ := Actor.behind_logs (a := e.actor op.ord) (op := op) hs hf.wave hteam
  have hord : e.orderHold op = false := by simp [Env.orderHold, h.stalls]
  have hover : p.overflows e.l e.t = false := by
    rw [Perf.overflows, decide_eq_false_iff_not]
    omega
  have hstruck : e.struck = false := by simp [Env.struck, hf.state, hf.wave, hf.stage]
  generalize hS : (e.actor op.ord).behind op p = S at hmem hctl hlog hw
  obtain ⟨v, hgo, hv⟩ : ∃ v, e.memory la srcs dsts op = (S.putWave v).advance e.c v ∧ v = { e.w with
      known := v.known, saw := v.saw, heard := v.heard, logged := v.logged, late := v.late
      pend := e.w.pend ++ [{ pos := e.w.pos, due := e.w.pos + 1 + e.la la, long := true, effs := op.res.effs p.done, srcs, dsts }] } := by
    unfold Env.memory
    rw [if_neg (by simp [hord]), if_neg (by simp [hd])]
    simp only [hd, hf.state, hp, hover, Bool.false_eq_true, and_false, false_and, if_false, hstruck, hS]
    rw [watch_off S _ _ _ _ _ (by rw [hctl]; exact h.watch)]
    have hkey : (e.actor op.ord).key = e.w.key := rfl
    rw [hkey] at hw
    simp only [hw]
    generalize hv : ({ w with pend := _, late := _ } : Wave) = v
    have hvw : (S.putWave v).wave? e.w.key = some v := State.wave_putWave_of _ _ _ (by rw [← hv, hwe])
    refine ⟨v, ?_, ?_⟩
    · unfold State.afterAccs
      have hstall (x : State) : x.stallAccs e.c e.w.key op [] none e.w.known = x := by simp [State.stallAccs, badPages]
      have hwatched : v.watched = none := by
        rw [← hv, hwe]
        exact h.watched
      simp [hbad, hstall, hvw, hwatched]
    · rw [← hv, hwe]
  have hgoes := advance_local (S.putWave v) e.c v e.cl (by rw [hv]; exact h.ready.quiet.2) (by rw [hv]; exact hf.clause) (by
    rw [hv]
    intro q hq
    rcases List.mem_append.1 hq with hq | hq
    · exact h.ready.quiet.1 q hq
    · rw [List.mem_singleton.1 hq]
      exact hloc)
  rw [hgo, State.team?, hgoes.rest]
  exact ⟨hmem, hlog⟩

/-- A store to global memory of a staged agent is kept for the log (R79). -/
theorem Actor.access_staged {a : Actor} {op : MemOp} {q : Acc} {ps : List Piece} {ans : Bool} (ha : a.staged = true) (hk : q.kind = .store)
    (hsp : q.sp = .gm) (hat : a.place s .gm .wr (op.ord.order == .plain) true q.va q.size ans = .ok ps) :
    a.access ⟨s, []⟩ op q ans = .ok { x := ⟨s, storePieces ps (leBytes q.size q.x.toNat)⟩, entries := [], val := [] } := by
  simp only [Actor.access, hk, hsp, AccKind.need, hat]
  simp [Actor.put, ha]

theorem Actor.perform_staged {a : Actor} {key : Nat} {op : MemOp} {q : Acc} {ps : List Piece} (ha : a.staged = true) (hop : op.accs = [q])
    (hk : q.kind = .store) (hsp : q.sp = .gm)
    (hat : a.place s .gm .wr (op.ord.order == .plain) true q.va q.size (Config.peerAnswers s.nondet) = .ok ps) :
    a.perform key op s = { x := ⟨s, storePieces ps (leBytes q.size q.x.toNat)⟩, entries := [], done := [(q, [])], bad := [] } := by
  have hput := Actor.access_staged (a := { a with who := op.who key q }) (op := op) ha hk hsp hat
  simp [Actor.perform, hop, hput]

/-- The team's own loads see a word stored within a block of its log, at its place and nowhere else (R80). -/
theorem view_stored (tag : LogTag) (n : Nat) (m : List Host.Cell) {pa k : Nat} (cmp : Bool) (x : DWord) (hk : 0 < k) (hin : pa % 32 + k ≤ 32)
    (a : Nat) : cget (w := 8) (({ t with log := t.log ++ (numberLog n (logWrites (storePieces [.mem pa k cmp] (leBytes k x.toNat)) tag)).1 } : Team).view m) a
      = if pa ≤ a ∧ a < pa + k then x.extractLsb' (8 * (a - pa)) 8 else cget (w := 8) (t.view m) a := by
  have hlen := length_leBytes k x.toNat
  have hpieces : storePieces [.mem pa k cmp] (leBytes k x.toNat) = [(pa, leBytes k x.toNat, cmp)] := by
    simp [storePieces, Piece.bytes, List.take_of_length_le hlen.le]
  have hne : leBytes k x.toNat ≠ [] := by
    rw [← List.length_pos_iff, hlen]
    exact hk
  simp only [Team.view, List.foldl_append, foldl_onMem_numberLog, hpieces]
  rw [cget_onMem_logWrites tag _ cmp hne (by omega), hlen]
  split
  next h => exact leBytes_extract x (by omega)
  next => rfl

end

/-- Settles O36: the store's pieces become entries of the log, which the team's loads read over memory. -/
theorem stagedStores : Obligations.StagedStores := by
  unfold Obligations.StagedStores
  intro o s e ps h hany hgm hstaged hat es hroom
  let op : MemOp :=
    { pos := e.w.pos, ord := o.ord, lanes := e.slotMask o.slot
      accs := [{ lane := e.first o.slot, kind := .store, sp := o.space, va := e.ea o.addr 0, size := o.w.bytes, x := e.szrd o.src }] }
  have hexec : exec (.sst o) s = .next (e.memory o.la (o.addr.nums ++ o.src.num) [] op) :=
    run_go h.ready (.inr rfl) rfl rfl rfl rfl hany
  have hperf := Actor.perform_staged (a := e.actor o.ord) (key := e.w.key) (op := op) hstaged rfl rfl hgm hat
  have hlen : (logWrites (storePieces ps (leBytes o.w.bytes (e.szrd o.src).toNat))).length = es.length :=
    (logWrites_length _ _).symm.trans (numberLog_length _ _).symm
  obtain ⟨hmem, hteam⟩ := memory_logs (la := o.la) (srcs := o.addr.nums ++ o.src.num) (dsts := []) h rfl hperf rfl rfl
    (by simpa [Launch.logCap, hlen] using hroom) (by simp [op, MemRes.effs])
  refine ⟨_, hexec, hmem, hteam, numberLog_formed _ (logWrites_formed _ _), ?_⟩
  rintro pa cmp rfl hin a
  have hpos : 0 < o.w.bytes := by cases o.w <;> decide
  exact view_stored _ _ _ cmp _ hpos hin a

end Sys2Proof.Machine
end

section
/-! SUPPORT. The choice of the next clause, and its start (R93, R94, R125, R135, R250): O48. -/

namespace Sys2Proof.Machine

section
variable {s : State} {core : Nat} {e : WEnv} {cl : Clause} {b : Option (List Byte)}

/-! ### The oldest of a list (R94) -/

/-- Nothing in a list is older than its best. -/
theorem le_of_bestBy {α : Type} {f : α → Nat × Nat} {l : List α} {y : α} (h : bestBy f l = some y) : ∀ x ∈ l, (f x).1 ≤ (f y).1 := by
  induction l generalizing y with
  | nil => simp
  | cons a l ih =>
    unfold bestBy at h
    split at h
    next hnone =>
      cases h
      have hl : l = [] := by
        cases l with
        | nil => rfl
        | cons c l =>
          unfold bestBy at hnone
          split at hnone <;> cases hnone
      simp [hl]
    next z hz =>
      have hle := ih hz
      have hor : (f z).1 ≤ (f y).1 ∧ (f a).1 ≤ (f y).1 := by
        simp only [Option.some.injEq, older, Bool.or_eq_true, Bool.and_eq_true, decide_eq_true_eq, beq_iff_eq] at h
        subst h
        split <;> omega
      exact List.forall_mem_cons.2 ⟨hor.2, fun x hx => (hle x hx).trans hor.1⟩

theorem exists_bestBy {α : Type} {f : α → Nat × Nat} {l : List α} {x : α} (h : x ∈ l) : ∃ y, bestBy f l = some y := by
  cases l with
  | nil => cases h
  | cons a l =>
    unfold bestBy
    split
    · exact ⟨_, rfl⟩
    · exact ⟨_, rfl⟩

/-! ### The selector (R93, R94) -/

/-- The wave that a class starts next is ready with a clause of the class, and none of the class is older. -/
theorem State.choice_spec {c : Nat} {l : List (WEnv × Clause × Option (List Byte))} {x : WEnv × Clause × Option (List Byte)}
    (h : s.choice core c l = some x) : x ∈ l ∧ x.2.1.cls.bits.toNat = c ∧ ∀ y ∈ l, y.2.1.cls.bits.toNat = c → y.1.w.age ≤ x.1.w.age := by
  unfold State.choice at h
  obtain ⟨hmem, hcls⟩ := List.mem_filter.1 (mem_of_bestBy h)
  exact ⟨hmem, by simpa using hcls, fun y hy hc => le_of_bestBy h y (List.mem_filter.2 ⟨hy, by simpa using hc⟩)⟩

theorem cls_bits_lt (c : Cls) : c.bits.toNat < 5 := by
  cases c <;> decide

theorem State.exists_choice {l : List (WEnv × Clause × Option (List Byte))} {x : WEnv × Clause × Option (List Byte)} (h : x ∈ l) :
    ∃ y, s.choice core x.2.1.cls.bits.toNat l = some y :=
  exists_bestBy (List.mem_filter.2 ⟨h, beq_self_eq_true _⟩)

/-- The selector takes a ready wave of a free class that has been ready longest. -/
theorem State.select_spec (h : s.select core = some (e, cl, b)) : (e, cl, b) ∈ s.readyWaves core ∧ cl.cls.bits.toNat ∉ s.inProgress core
    ∧ (s.inProgress core).length < 4 ∧ ∀ x ∈ s.readyWaves core, x.2.1.cls.bits.toNat ∉ s.inProgress core → x.1.w.age ≤ e.w.age := by
  unfold State.select at h
  dsimp only at h
  split at h
  · cases h
  next hfree =>
    obtain ⟨c, hc, hchoice⟩ := List.mem_filterMap.1 (mem_of_bestBy h)
    obtain ⟨hready, hcls, -⟩ := State.choice_spec hchoice
    have hidle : c ∉ s.inProgress core := by simpa using (List.mem_filter.1 hc).2
    refine ⟨hready, hcls ▸ hidle, by omega, fun x hx hxc => ?_⟩
    obtain ⟨y, hy⟩ := State.exists_choice (s := s) (core := core) hx
    obtain ⟨-, -, hold⟩ := State.choice_spec hy
    have hfreec : x.2.1.cls.bits.toNat ∈ (List.range 5).filter fun c => !(s.inProgress core).contains c :=
      List.mem_filter.2 ⟨List.mem_range.2 (cls_bits_lt _), by simpa using hxc⟩
    exact (hold x hx rfl).trans (le_of_bestBy h y (List.mem_filterMap.2 ⟨_, hfreec, hy⟩))

theorem State.nextOf_of_ready (h : (e, cl, b) ∈ s.readyWaves core) : s.nextOf e = .clause cl b := by
  obtain ⟨w, -, hw⟩ := List.mem_filterMap.1 h
  split at hw
  · split at hw
    · cases hw
    · split at hw
      next hnext =>
        cases hw
        exact hnext
      · cases hw
  · cases hw

/-- A wave that stands inside its clause goes on with it. -/
theorem State.nextOf_inside (h : s.nextOf e = .clause cl b) (hst : e.w.stage = .inside) : e.w.clause = some cl := by
  unfold State.nextOf at h
  cases hm : s.moves e.w with
  | false => simp [hm] at h
  | true =>
    simp only [hm, hst, beq_self_eq_true, Bool.and_self, if_true] at h
    split at h
    next hcl =>
      cases h
      exact hcl
    · cases h

/-! ### The start of a clause (R93, R125, R135, R250) -/

/-- Without a breakpoint that is on, the chosen clause starts (R205). -/
theorem State.chosen_start (h : ∀ n < 4, (cget s.ctl (breakOff core n + 8)).getLsbD 0 = false) :
    s.chosen core e cl b = s.startClause core e cl b := by
  have hhit (ctx : Nat) (va : DWord) : s.breakHit core ctx va = none := by
    refine List.find?_eq_none.2 fun n hn => ?_
    simp only [h n (List.mem_range.1 hn), Bool.false_and, Bool.false_eq_true, not_false_eq_true]
  unfold State.chosen
  simp [hhit]

/-- A clause's start puts its wave back, and leaves the other waves and memory as they are. -/
def State.Starts (s : State) (key : Nat) (t : State) (w : Wave) : Prop :=
  t.wave? key = some w ∧ (∀ k, k ≠ key → t.wave? k = s.wave? k) ∧ t.mem = s.mem

theorem State.putWave_starts {S : State} {w : Wave} {key : Nat} (hS : S.waves = s.waves) (hm : S.mem = s.mem) (hk : w.key = key) :
    s.Starts key (S.putWave w) w := by
  subst hk
  refine ⟨S.wave_putWave_self w, fun k hk => ?_, hm⟩
  rw [S.wave_putWave_ne w k hk, State.wave?, hS, State.wave?]

/-- A wave at the start of its clause, with the team's w registers (R125). -/
def WEnv.atStart (e : WEnv) (cl : Clause) (b : Option (List Byte)) : Wave :=
  { e.w with
    regs := { e.w.regs with w := e.t.w }, lg := e.t.lg, clause := some cl, reason := 0, stepped := e.w.stepping == some .clause
    stage := if cl.count = 0 then .long else .issue, pos := if b.isNone then cl.count - 1 else 0 }

/-- The state as a clause starts: a line read is kept, and its class notes the slot. -/
def State.noted (s : State) (core : Nat) (e : WEnv) (cl : Clause) (b : Option (List Byte)) : State :=
  let s := match b with
    | some l => s.keepLine e.c.id core (imgAt e.w.img cl.off) l
    | none => s
  s.putCore { s.core core with last := lset (s.core core).last cl.cls.bits.toNat e.w.slotNo }

theorem State.noted_waves : (s.noted core e cl b).waves = s.waves := by
  cases b <;> rfl

theorem State.noted_mem : (s.noted core e cl b).mem = s.mem := by
  cases b <;> rfl

theorem State.startClause_inside (h : e.w.stage = .inside) : s.startClause core e cl b
    = (s.noted core e cl b).putWave { e.w.goOn with stepped := e.w.stepped || e.w.stepping == some .clause } := by
  unfold State.startClause
  simp only [h, if_true]
  rfl

theorem State.startClause_fetched (l : List Byte) (h : e.w.stage ≠ .inside) :
    s.startClause core e cl (some l) = (s.noted core e cl (some l)).putWave (e.atStart cl (some l)) := by
  unfold State.startClause
  simp only [h, if_false]
  rfl

/-- A fragment held at the last instruction of its clause issues it again (R235). -/
theorem State.startClause_held {f : Frag} (h : e.w.stage ≠ .inside) (hf : e.w.frag? = some f) (ht : f.todo = none) :
    s.startClause core e cl none = (s.noted core e cl none).putWave { e.atStart cl none with yielded := f.yield } := by
  unfold State.startClause
  simp only [h, hf, ht, if_false]
  rfl

/-- A fragment that ERET left inside its clause goes on there (R135). -/
theorem State.startClause_replayed {f : Frag} {x : Nat × Nat × DWord} (h : e.w.stage ≠ .inside) (hf : e.w.frag? = some f)
    (ht : f.todo = some x) : s.startClause core e cl none = (s.noted core e cl none).putWave
      ({ ({ e.atStart cl none with yielded := f.yield } : Wave).setFrag e.w.cur (fun f => { f with todo := none, held := none }) with
        clause := some cl }.onward x) := by
  unfold State.startClause
  simp only [h, hf, ht, if_false]
  rfl

theorem State.startClause_none (h : e.w.stage ≠ .inside) (hf : e.w.frag? = none) :
    s.startClause core e cl none = (s.noted core e cl none).putWave (e.atStart cl none) := by
  unfold State.startClause
  simp only [h, hf, if_false]
  rfl

/-- Positions to replay are the set bits of a number (R135). -/
theorem onward_replay (n bits : Nat) : ((List.range n).filter fun p => bits / 2 ^ p % 2 == 1) = (List.range n).filter bits.testBit := by
  refine List.filter_congr fun p _ => ?_
  rw [Nat.testBit_eq_decide_div_mod_eq]
  rfl

/-- What a wave is that starts a clause anew, or goes on where its fragment stood in it (R125, R135, R250). -/
structure WEnv.Started (e : WEnv) (cl : Clause) (b : Option (List Byte)) (w : Wave) : Prop where
  clause : w.clause = some cl
  regs : w.regs = { e.w.regs with w := e.t.w }
  lg : w.lg = e.t.lg
  fetched : b ≠ none → w.pos = 0 ∧ w.stage = if cl.count = 0 then .long else .issue
  held : b = none → ∀ f, e.w.frags[e.w.cur]? = some f → w.yielded = f.yield
    ∧ (f.todo = none → w.pos = cl.count - 1 ∧ w.stage = if cl.count = 0 then .long else .issue)
    ∧ ∀ bits cont fml, f.todo = some (bits, cont, fml) →
      let rep := (List.range cl.count).filter bits.testBit
      w.replay = rep ∧ w.cont = cont ∧ w.pos = rep.headD cont ∧ w.redo = (if rep = [] then none else some fml)
      ∧ w.stage = if rep.headD cont < cl.count then .issue else .long

theorem State.startClause_started (h : e.w.stage ≠ .inside) :
    ∃ w, s.Starts e.w.key (s.startClause core e cl b) w ∧ e.Started cl b w := by
  cases b with
  | some l =>
    rw [State.startClause_fetched l h]
    exact ⟨_, State.putWave_starts State.noted_waves State.noted_mem rfl, rfl, rfl, rfl, fun _ => ⟨rfl, rfl⟩, fun hb => by cases hb⟩
  | none =>
    cases hf : e.w.frag? with
    | none =>
      rw [State.startClause_none h hf]
      refine ⟨_, State.putWave_starts State.noted_waves State.noted_mem rfl, rfl, rfl, rfl, fun hb => (hb rfl).elim, fun _ f hf' => ?_⟩
      cases hf.symm.trans hf'
    | some f =>
      cases ht : f.todo with
      | none =>
        rw [State.startClause_held h hf ht]
        refine ⟨_, State.putWave_starts State.noted_waves State.noted_mem rfl, rfl, rfl, rfl, fun hb => (hb rfl).elim, fun _ g hg => ?_⟩
        cases hf.symm.trans hg
        exact ⟨rfl, fun _ => ⟨rfl, rfl⟩, fun _ _ _ hx => by simp [ht] at hx⟩
      | some x =>
        rw [State.startClause_replayed h hf ht]
        refine ⟨_, State.putWave_starts State.noted_waves State.noted_mem rfl, rfl, rfl, rfl, fun hb => (hb rfl).elim, fun _ g hg => ?_⟩
        cases hf.symm.trans hg
        refine ⟨rfl, fun hn => by simp [ht] at hn, fun bits cont fml hx => ?_⟩
        cases ht.symm.trans hx
        have hrep := onward_replay cl.count bits
        exact ⟨hrep, rfl, congrArg (·.headD cont) hrep, by rw [← hrep]; rfl, by rw [← hrep]; rfl⟩

end

/-- Settles O48, by the selector's choice and the start of the clause chosen. -/
theorem clauseSelection : Obligations.ClauseSelection := by
  unfold Obligations.ClauseSelection
  intro s core e cl b htrouble hselect hbreak
  obtain ⟨hready, hidle, hfree, hold⟩ := State.select_spec hselect
  refine ⟨?_, hready, hidle, hfree, hold⟩
  have hnext := State.nextOf_of_ready hready
  have hexec : exec (.clauseStart core) s = .next (s.startClause core e cl b) := by
    change execClauseStart core s = _
    unfold execClauseStart
    simp only [htrouble, hselect, State.chosen_start hbreak]
  by_cases hst : e.w.stage = .inside
  · have hcl := State.nextOf_inside hnext hst
    obtain ⟨hw, hothers, hmem⟩ := State.putWave_starts (s := s) (S := s.noted core e cl b) (key := e.w.key)
      (w := { e.w.goOn with stepped := e.w.stepped || e.w.stepping == some .clause }) State.noted_waves State.noted_mem rfl
    refine ⟨_, _, hexec.trans (congrArg _ (State.startClause_inside hst)), hw, hcl, hothers, hmem, fun _ => ⟨rfl, ?_⟩, fun hr => ?_⟩
    · simp [Wave.goOn, Wave.count, hcl]
    · cases hst.symm.trans hr
  · obtain ⟨w, ⟨hw, hothers, hmem⟩, h⟩ := State.startClause_started (s := s) (core := core) (cl := cl) (b := b) hst
    exact ⟨_, w, hexec, hw, h.clause, hothers, hmem, fun hi => (hst hi).elim, fun _ => ⟨h.regs, h.lg, h.fetched, h.held⟩⟩

end Sys2Proof.Machine
end

section
/-! SUPPORT. What the events of a team do: barriers, pod messages and the end of a team (R77, R82 to R87, R97, R249): O51. -/

namespace Sys2Proof.Machine

section
variable {s S : State} {w v : Wave} {t : Team} {l : Launch} {sc : Scope} {known : List Known}

/-! ### A wave released (R249, R250) -/

/-- A wave with its masks of a scope cleared and no fragment that waits there. -/
def Wave.Released (sc : Scope) (w v : Wave) : Prop :=
  (v.bar sc).arr = 0 ∧ (v.bar sc).wait = 0 ∧ (∀ f ∈ v.frags, f.blocked ≠ some (.bar sc)) ∧ v.regs = w.regs

theorem Wave.release_only (w : Wave) : w.release sc known = { w with
    known := (w.release sc known).known, passed := (w.release sc known).passed, bars := w.bars.filter fun b => b.scope != sc
    frags := w.frags.map (Frag.release sc), kept := w.kept.map (Frag.release sc) } := by
  have hlearn : w.learn known = { w with known := (w.learn known).known } := by
    unfold Wave.learn
    split <;> rfl
  unfold Wave.release
  by_cases hwait : (w.bar sc).wait ≠ 0
  · simp only [if_pos hwait]
    rw [hlearn]
  · simp only [if_neg hwait]
    split <;> rfl

theorem Frag.release_blocked (f : Frag) : (f.release sc).blocked ≠ some (.bar sc) := by
  unfold Frag.release
  split
  · simp
  next h => exact h

theorem Wave.release_released (w : Wave) : w.Released sc (w.release sc known) := by
  rw [w.release_only]
  have hbar : ((w.bars.filter fun b => b.scope != sc).find? fun b => b.scope == sc) = none :=
    List.find?_eq_none.2 fun b hb => by simpa using (List.mem_filter.1 hb).2
  refine ⟨by simp [Wave.bar, hbar], by simp [Wave.bar, hbar], fun f hf => ?_, rfl⟩
  obtain ⟨g, -, rfl⟩ := List.mem_map.1 hf
  exact g.release_blocked

theorem forall₂_mem_right {α β : Type} {R : α → β → Prop} {l : List α} {m : List β} {y : β} (h : List.Forall₂ R l m) (hy : y ∈ m) :
    ∃ x ∈ l, R x y := by
  induction h with
  | nil => cases hy
  | cons hab _ ih =>
    rcases List.mem_cons.1 hy with rfl | hy
    · exact ⟨_, List.mem_cons_self, hab⟩
    · obtain ⟨x, hx, hr⟩ := ih hy
      exact ⟨x, List.mem_cons_of_mem _ hx, hr⟩

/-- Where the records of a released wave's fragments stand does not matter. -/
theorem Wave.Released.shifts {x : Wave} (h : w.Released sc v) (hx : v.Shifts x) : w.Released sc x := by
  obtain ⟨harr, hwait, hfrags, hregs⟩ := h
  obtain ⟨hv, hf⟩ := hx
  refine ⟨by rw [hv]; exact harr, by rw [hv]; exact hwait, fun g hg => ?_, by rw [hv]; exact hregs⟩
  obtain ⟨f, hmem, hfg⟩ := forall₂_mem_right hf hg
  rw [hfg]
  exact hfrags f hmem

theorem Wave.Released.congr {x : Wave} (h : w.Released sc v) (hbars : x.bars = v.bars) (hfrags : x.frags = v.frags) (hregs : x.regs = v.regs) :
    w.Released sc x := by
  obtain ⟨harr, hwait, hblk, hr⟩ := h
  exact ⟨by rw [Wave.bar, hbars]; exact harr, by rw [Wave.bar, hbars]; exact hwait, by rw [hfrags]; exact hblk, hregs.trans hr⟩

/-- A released wave is put back, and the others are as they were, link sets apart. -/
theorem State.releaseWave_spec (s : State) (w : Wave) : (∃ v, (s.releaseWave sc known w).wave? w.key = some v ∧ w.Released sc v)
    ∧ s.SameOthers (s.releaseWave sc known w) w.key := by
  have hkey : (w.release sc known).key = w.key := by rw [w.release_only]
  have hput : (∃ v, (s.putWave (w.release sc known)).wave? w.key = some v ∧ w.Released sc v)
      ∧ s.SameOthers (s.putWave (w.release sc known)) w.key := by
    rw [← hkey]
    refine ⟨⟨_, s.wave_putWave_self _, w.release_released⟩, fun k hk => ?_⟩
    rw [s.wave_putWave_ne _ k hk]
  unfold State.releaseWave
  dsimp only
  split
  · split
    next j _ =>
      obtain ⟨S, x, hgo, hS, hx⟩ := s.goTo_settles (w.release sc known) j
      have hxk : x.key = w.key := by rw [hx.1, ← hkey]
      obtain ⟨⟨y, hy, hyx⟩, hother, -⟩ := settle_spec S x
      rw [hgo, ← hxk]
      refine ⟨⟨y, hy, ?_⟩, fun k hk => ?_⟩
      · exact (w.release_released.shifts hx).congr (by rw [hyx]) (by rw [hyx]) (by rw [hyx])
      · rw [hother k hk]
        exact hS.sameOthers x.key k hk
    · exact hput
  · exact hput

theorem State.foldl_releaseWave_others (ws : List Wave) (s : State) {k : Nat} (hk : ∀ w ∈ ws, k ≠ w.key) :
    ((ws.foldl (State.releaseWave sc known) s).wave? k).map Wave.unlinked = (s.wave? k).map Wave.unlinked := by
  induction ws generalizing s with
  | nil => rfl
  | cons w ws ih =>
    rw [List.forall_mem_cons] at hk
    rw [List.foldl_cons, ih _ hk.2, (s.releaseWave_spec w).2 k hk.1]

/-- Waves of keys of their own are all released, one after another. -/
theorem State.foldl_releaseWave {ws : List Wave} (s : State) (hkeys : (ws.map (·.key)).Nodup) :
    ∀ w ∈ ws, ∃ v, (ws.foldl (State.releaseWave sc known) s).wave? w.key = some v ∧ w.Released sc v := by
  induction ws generalizing s with
  | nil => simp
  | cons w ws ih =>
    rw [List.map_cons, List.nodup_cons] at hkeys
    refine List.forall_mem_cons.2 ⟨?_, fun x hx => ih _ hkeys.2 x hx⟩
    obtain ⟨v, hv, hrel⟩ := (s.releaseWave_spec (sc := sc) (known := known) w).1
    have hothers := State.foldl_releaseWave_others (sc := sc) (known := known) ws (s.releaseWave sc known w) (k := w.key)
      fun x hx he => hkeys.1 (List.mem_map.2 ⟨x, hx, he.symm⟩)
    rw [hv, Option.map_some, Option.map_eq_some_iff] at hothers
    obtain ⟨x, hx, hxv⟩ := hothers
    exact ⟨x, hx, hrel.congr (congrArg Wave.bars hxv :) (congrArg Wave.frags hxv :) (congrArg Wave.regs hxv :)⟩

/-! ### Barriers (R77, R249) -/

/-- Without a trace ring no event is traced (R213). -/
theorem State.trace_off (h : s.trSize = 0) (src kind en ctx payload : Nat) (more : List Nat) : s.trace src kind en ctx payload more = s := by
  unfold State.trace
  rw [if_pos]
  simp [State.tracing, h]

theorem State.syncBar_off (h : s.trSize = 0) (unit : Nat) (ts : List Team) : s.syncBar sc l unit ts = s := by
  unfold State.syncBar
  dsimp only
  split
  · rfl
  · exact State.trace_off h _ _ _ _ _ _

theorem Launch.phase_advance (l : Launch) (sc : Scope) (unit : Nat) : (l.advance sc unit).phase sc unit = l.phase sc unit + 1 := by
  have hfind := lput_find_self l.phases (fun p => p.scope == sc && p.unit == unit) ⟨sc, unit, l.phase sc unit + 1⟩ (by simp)
  unfold Launch.advance
  rw [Launch.phase, hfind]

/-- A barrier that releases advances its phase, and every wave of its teams is released. -/
theorem State.barRelease_spec (htr : s.trSize = 0) (hkeys : (s.waves.map (·.key)).Nodup) (l : Launch) (sc : Scope) (unit : Nat) (ts : List Team) :
    (s.barRelease sc l unit ts).launch? l.key = some (l.advance sc unit)
      ∧ ∀ w ∈ s.wavesOf ts, ∃ v, (s.barRelease sc l unit ts).wave? w.key = some v ∧ w.Released sc v := by
  unfold State.barRelease
  rw [State.syncBar_off htr]
  refine ⟨State.launch_putLaunch_self _ (l.advance sc unit), ?_⟩
  exact s.foldl_releaseWave (hkeys.sublist ((List.filter_sublist).map _))

theorem exec_barrierRelease {k unit : Nat} (hrun : s.running = true) (hl : s.launch? k = some l) (hsc : sc = .pod → l.p.podgrp = 0)
    (hready : s.barReady sc l (s.barTeams sc l unit) = true) :
    exec (.barrierRelease sc k unit) s = .next (s.barRelease sc l unit (s.barTeams sc l unit)) := by
  change execBarrierRelease sc k unit s = _
  unfold execBarrierRelease
  simp only [hl, hrun, hready, Bool.and_self, if_true]
  exact if_neg fun h => h.2 (hsc h.1)

/-- At a pod barrier the package's arrival goes to the group's root first (R77). -/
theorem exec_barrierRelease_pod {k : Nat} (hrun : s.running = true) (hl : s.launch? k = some l) (hgrp : l.p.podgrp ≠ 0) (hsent : l.podSent = none)
    (hready : s.barReady .pod l (s.barTeams .pod l 0) = true) : exec (.barrierRelease .pod k 0) s
      = .next ((s.putLaunch { l with podSent := some (l.phase .pod 0) }).podArrive l (l.phase .pod 0) false) := by
  change execBarrierRelease .pod k 0 s = _
  unfold execBarrierRelease
  simp [hl, hrun, hready, hgrp, hsent]

/-! ### Pod messages (R38, R77) -/

theorem State.podSend_outbox {dst : Nat} (h : s.route dst ≠ []) (x : Option Launch) (o : Output) : (s.podSend x dst o).outbox = s.outbox ++ [o] := by
  unfold State.podSend
  dsimp only
  rw [if_neg (by simpa using h)]
  split <;> rfl

/-- A package's arrival goes to the root of its group when that is another package. -/
theorem State.podArrive_outbox (hroot : s.podRoot (l.p.podgrp - 1) ≠ s.podid) (hroute : s.route (s.podRoot (l.p.podgrp - 1)) ≠ []) (ph : Nat)
    (fin : Bool) : (s.podArrive l ph fin).outbox
      = s.outbox ++ [.podArrive (s.podRoot (l.p.podgrp - 1)) l.p.id.toNat ph fin] := by
  unfold State.podArrive
  dsimp only
  rw [if_neg hroot]
  exact State.podSend_outbox hroute _ _

/-- The root's own arrival is awaited: without it no phase is released. -/
theorem State.podCheck_waits {id : Nat} (h : ∀ a ∈ s.podArrs, ¬(a.mem = s.podid ∧ a.launchid = id)) (ph : Nat) : s.podCheck id ph = s := by
  have hfind : (s.podArrs.find? fun a => a.mem == s.podid && a.launchid == id && (a.phase == ph || (a.final && a.phase ≤ ph))) = none :=
    List.find?_eq_none.2 fun a ha => by
      have := h a ha
      simp only [Bool.and_eq_true, beq_iff_eq, not_and]
      exact fun hm => (this hm).elim
  unfold State.podCheck
  rw [hfind]
  rfl

theorem State.podChecks_waits {id : Nat} (h : ∀ a ∈ s.podArrs, ¬(a.mem = s.podid ∧ a.launchid = id)) (ph : Nat) : s.podChecks id ph = s := by
  unfold State.podChecks
  rw [State.podCheck_waits h]
  exact List.foldlRecOn _ _ (motive := fun S => S = s) rfl fun S hS p _ => by rw [hS, State.podCheck_waits h]


end

end Sys2Proof.Machine
end

section
/-! SUPPORT. A team's log applied to memory (R81, R84 to R86): O51. -/

namespace Sys2Proof.Machine

section
variable {s S : State} {t : Team} {e : LogE} {m m' : List Host.Cell}

/-! ### Memories that read alike -/

/-- Two memories hold the same bytes. -/
def SameBytes (m m' : List Host.Cell) : Prop := ∀ a, cget (w := 8) m a = cget (w := 8) m' a

theorem SameBytes.mbytes (h : SameBytes m m') (a n : Nat) : mbytes m a n = mbytes m' a n := by
  induction n generalizing a with
  | zero => rfl
  | succ n ih => rw [Machine.mbytes, Machine.mbytes, h a, ih]

theorem SameBytes.mput (h : SameBytes m m') (a : Nat) (b : List Byte) : SameBytes (mput m a b) (mput m' a b) := by
  induction b generalizing m m' a with
  | nil => exact h
  | cons x b ih =>
    refine ih (fun k => ?_) _
    rw [cget_cset, cget_cset, h k]

/-- A formed entry does the same to memories that hold the same bytes. -/
theorem SameBytes.onMem (h : SameBytes m m') (he : e.Formed) : SameBytes (LogE.onMem m e) (LogE.onMem m' e) := by
  cases e with
  | write block mask bytes cmp parts tag =>
    intro a
    rw [cget_onMem_write m he.1, cget_onMem_write m' he.1, h a]
  | atomic op pa size x cmp tag =>
    rw [LogE.onMem, LogE.onMem, mnat, mnat, h.mbytes]
    exact h.mput _ _

theorem SameBytes.foldl_onMem {es : List LogE} (h : SameBytes m m') (hes : ∀ e ∈ es, e.Formed) :
    SameBytes (es.foldl LogE.onMem m) (es.foldl LogE.onMem m') := by
  induction es generalizing m m' with
  | nil => exact h
  | cons e es ih =>
    rw [List.forall_mem_cons] at hes
    exact ih (h.onMem hes.1) hes.2

/-! ### The units of an entry (R166) -/

theorem grains_within {pa n : Nat} {g : Nat × Nat} (h : g ∈ grains pa n) : pa ≤ g.1 ∧ g.1 + g.2 ≤ pa + n := by
  unfold grains at h
  split at h
  · rw [List.mem_singleton.1 h]
    exact ⟨le_rfl, le_rfl⟩
  · obtain ⟨i, hi, rfl⟩ := List.mem_map.1 h
    rw [List.mem_range] at hi
    dsimp only
    omega

/-- The units of a range cover it. -/
theorem exists_grain {pa n a : Nat} (h : pa ≤ a) (ha : a < pa + n) : ∃ g ∈ grains pa n, g.1 ≤ a ∧ a < g.1 + g.2 := by
  unfold grains
  split
  · exact ⟨_, List.mem_singleton_self _, h, ha⟩
  · refine ⟨_, List.mem_map.2 ⟨(a - pa / 8 * 8) / 8, List.mem_range.2 (by omega), rfl⟩, ?_⟩
    dsimp only
    omega

/-- A byte stands in a unit of a formed entry where the entry's mask says so. -/
theorem mem_units {block : Nat} {mask : BitVec 32} {bytes : List Byte} {cmp : Bool} {parts : List (Nat × Nat)} {tag : LogTag}
    (h : (LogE.write block mask bytes cmp parts tag).Formed) (a : Nat) :
    (∃ g ∈ (LogE.write block mask bytes cmp parts tag).units, g.1 ≤ a ∧ a < g.1 + g.2)
      ↔ 32 * block ≤ a ∧ a < 32 * block + 32 ∧ mask.getLsbD (a - 32 * block) = true := by
  obtain ⟨-, hparts, hmask⟩ := h
  simp only [LogE.units, List.mem_flatMap]
  constructor
  · rintro ⟨g, ⟨p, hp, hg⟩, hlo, hhi⟩
    have hin := grains_within hg
    have hp32 := hparts p hp
    exact ⟨by omega, by omega, (hmask _ (by omega)).2 ⟨p, hp, by omega, by omega⟩⟩
  · rintro ⟨hlo, hhi, hm⟩
    obtain ⟨p, hp, hplo, hphi⟩ := (hmask _ (by omega)).1 hm
    obtain ⟨g, hg, hga⟩ := exists_grain (pa := 32 * block + p.1) (n := p.2) (a := a) (by omega) (by omega)
    exact ⟨g, ⟨p, hp, hg⟩, hga⟩

theorem units_within {block : Nat} {mask : BitVec 32} {bytes : List Byte} {cmp : Bool} {parts : List (Nat × Nat)} {tag : LogTag}
    (h : (LogE.write block mask bytes cmp parts tag).Formed) : ∀ g ∈ (LogE.write block mask bytes cmp parts tag).units,
      32 * block ≤ g.1 ∧ g.1 + g.2 ≤ 32 * block + 32 := by
  obtain ⟨-, hparts, -⟩ := h
  intro g hg
  obtain ⟨p, hp, hg⟩ := List.mem_flatMap.1 hg
  have hin := grains_within hg
  have hp32 := hparts p hp
  omega

/-! ### An entry applied (R81) -/

/-- Nothing changes but memory that holds no poison, what is remembered of it, link sets, and the traffic to peers. -/
structure State.Applies (s t : State) : Prop where
  rest : t = { s with
    mem := t.mem, poison := t.poison, rewrote := t.rewrote, forms := t.forms, waves := t.waves, hist := t.hist, written := t.written
    links := t.links, outbox := t.outbox, nondet := t.nondet }
  clean : t.poison = []

theorem State.Applies.refl (h : s.poison = []) : s.Applies s := ⟨rfl, h⟩

theorem State.Applies.trans {u : State} (h : s.Applies S) (g : S.Applies u) : s.Applies u :=
  ⟨by rw [g.rest, h.rest], g.clean⟩

theorem State.storeUnit_applies (h : s.poison = []) (ev : Write) (id : Nat) (p : Nat × Nat) (b : List Byte) (cmp : Bool) :
    s.Applies (s.storeUnit ev id p b cmp) := by
  refine ⟨rfl, ?_⟩
  simp [State.storeUnit, State.storeWith, h]

/-- Units of a block stored one after another. -/
theorem foldl_storeUnit {bytes : List Byte} {block : Nat} (hlen : bytes.length = 32) (ev : Write) (id : Nat) (cmp : Bool)
    (us : List ((Nat × Nat) × Nat)) (hin : ∀ u ∈ us, 32 * block ≤ u.1.1 ∧ u.1.1 + u.1.2 ≤ 32 * block + 32) (hs : s.poison = []) :
    let S := us.foldl (fun s p => s.storeUnit ev (id + p.2) p.1 ((bytes.drop (p.1.1 - 32 * block)).take p.1.2) cmp) s
    s.Applies S ∧ ∀ a, cget (w := 8) S.mem a
      = if ∃ u ∈ us, u.1.1 ≤ a ∧ a < u.1.1 + u.1.2 then (bytes[a - 32 * block]?).getD 0 else cget (w := 8) s.mem a := by
  induction us using List.reverseRecOn with
  | nil => exact ⟨.refl hs, by simp⟩
  | append_singleton us u ih =>
    obtain ⟨hS, hget⟩ := ih fun v hv => hin v (by simp [hv])
    have hu := hin u (by simp)
    have hul : ((bytes.drop (u.1.1 - 32 * block)).take u.1.2).length = u.1.2 := by
      rw [List.length_take, List.length_drop]
      omega
    rw [List.foldl_append, List.foldl_cons, List.foldl_nil]
    refine ⟨hS.trans (State.storeUnit_applies hS.clean _ _ _ _ _), fun a => ?_⟩
    simp only [List.mem_append, List.mem_singleton, or_and_right, exists_or, exists_eq_left]
    refine (show _ = cget (w := 8) (mput _ u.1.1 ((bytes.drop (u.1.1 - 32 * block)).take u.1.2)) a from rfl).trans ?_
    by_cases ha : u.1.1 ≤ a ∧ a < u.1.1 + u.1.2
    · obtain ⟨i, rfl⟩ := Nat.exists_eq_add_of_le ha.1
      have hi : i < u.1.2 := by omega
      have hat : u.1.1 + i - 32 * block = u.1.1 - 32 * block + i := by omega
      rw [if_pos (.inr ha), cget_mput_in _ _ _ _ (by omega), List.getElem_take, List.getElem_drop, hat,
        List.getElem?_eq_getElem (by omega), Option.getD_some]
    · rw [cget_mput_out _ _ _ _ (by omega), hget a]
      simp only [ha, or_false]

/-- An entry performed does to memory what the team's own loads saw of it (R80, R81). -/
theorem LogE.perform_applies (he : e.Formed) (hs : s.poison = []) (ev : Write) :
    s.Applies (e.perform ev s) ∧ SameBytes (e.perform ev s).mem (LogE.onMem s.mem e) := by
  cases e with
  | atomic op pa size x cmp tag => exact ⟨State.storeUnit_applies hs _ _ _ _ _, fun _ => rfl⟩
  | write block mask bytes cmp parts tag =>
    have hzip (u : (Nat × Nat) × Nat) (hu : u ∈ (LogE.write block mask bytes cmp parts tag).units.zipIdx) :
        u.1 ∈ (LogE.write block mask bytes cmp parts tag).units := List.fst_mem_of_mem_zipIdx hu
    obtain ⟨hS, hget⟩ := foldl_storeUnit (block := block) he.1 ev tag.id cmp (LogE.write block mask bytes cmp parts tag).units.zipIdx
      (fun u hu => units_within he _ (hzip u hu)) hs
    refine ⟨hS, fun a => (hget a).trans ?_⟩
    have hiff : (∃ u ∈ (LogE.write block mask bytes cmp parts tag).units.zipIdx, u.1.1 ≤ a ∧ a < u.1.1 + u.1.2)
        ↔ 32 * block ≤ a ∧ a < 32 * block + 32 ∧ mask.getLsbD (a - 32 * block) = true := by
      rw [← mem_units he]
      constructor
      · rintro ⟨u, hu, ha⟩
        exact ⟨u.1, hzip u hu, ha⟩
      · rintro ⟨g, hg, ha⟩
        obtain ⟨i, hi⟩ := List.getElem?_of_mem hg
        exact ⟨(g, i), List.mem_zipIdx_iff_getElem?.2 hi, ha⟩
    rw [cget_onMem_write _ he.1]
    simp only [hiff]

/-- An entry that lies in this package meets no error while no line is poisoned (R11, R33). -/
theorem State.logError_none (hs : s.poison = []) (hp : ∀ p ∈ e.units, isPeer p.1 = false) : s.logError e = none := by
  refine List.findSome?_eq_none_iff.2 fun p hmem => ?_
  have hpeer : s.peerChk p.1 (Config.peerAnswers s.nondet) = none := by
    unfold State.peerChk
    simp [hp p hmem]
  rw [hpeer]
  cases e with
  | write => rfl
  | atomic op pa size x cmp tag => simp [readAt, hs]

theorem State.applyEntry_applies (he : e.Formed) (hs : s.poison = []) (hp : ∀ p ∈ e.units, isPeer p.1 = false) (t : Team) (ev : Write) :
    s.Applies (s.applyEntry t ev e) ∧ SameBytes (s.applyEntry t ev e).mem (LogE.onMem s.mem e) := by
  obtain ⟨S, hS⟩ : ∃ S : State, S = { s.sendFlits ((e.units.map Prod.fst).take 1) with nondet := s.nondet + 1 } := ⟨_, rfl⟩
  have hrest : S = { s with links := S.links, outbox := S.outbox, nondet := S.nondet } := by
    rw [hS, sendFlits_only]
  have hclean : S.poison = [] := by rw [hrest, hs]
  have hmem : S.mem = s.mem := by rw [hrest]
  have hentry : s.applyEntry t ev e = e.perform ev S := by
    unfold State.applyEntry
    simp only [← hS, State.logError_none hclean hp]
  obtain ⟨happ, hbytes⟩ := LogE.perform_applies he hclean ev
  rw [hentry]
  exact ⟨.trans ⟨by rw [hrest], hclean⟩ happ, hmem ▸ hbytes⟩

/-- A log whose entries meet no error is performed as the team's own loads saw it. -/
theorem State.performLog_applies {es : List LogE} (hs : s.poison = []) (hes : ∀ e ∈ es, e.Formed ∧ ∀ p ∈ e.units, isPeer p.1 = false) (t : Team)
    (known : List Known) : s.Applies (s.performLog t known es) ∧ SameBytes (s.performLog t known es).mem (es.foldl LogE.onMem s.mem) := by
  induction es generalizing s known with
  | nil => exact ⟨.refl hs, fun _ => rfl⟩
  | cons e es ih =>
    rw [List.forall_mem_cons] at hes
    obtain ⟨⟨he, hp⟩, hes⟩ := hes
    unfold State.performLog
    extract_lets rels
    obtain ⟨h₁, hb₁⟩ := State.applyEntry_applies he hs hp t (e.event t (known.map (·.id)) rels)
    obtain ⟨h₂, hb₂⟩ := ih h₁.clean hes (known ++ loggedIds [e])
    exact ⟨h₁.trans h₂, fun a => (hb₂ a).trans (hb₁.foldl_onMem (fun e he => (hes e he).1) a)⟩

/-! ### A log applied, and a team gone direct (R81, R84, R86) -/

theorem State.teamKnows_only (s : State) (t : Team) : s.teamKnows t = { s with waves := (s.teamKnows t).waves } := by
  unfold State.teamKnows
  split <;> rfl

/-- A log applied: memory is what the team saw, and the team's record is put back without its log. -/
theorem State.performed_spec (h : s.LogApplies t) (x : Team) : ∃ S, s.Applies S ∧ SameBytes S.mem (t.view s.mem)
    ∧ ((s.performLog t (s.beforeLog t) t.log).teamKnows t).putTeam x = S.putTeam x := by
  obtain ⟨happ, hbytes⟩ := State.performLog_applies h.1 h.2 t (s.beforeLog t)
  refine ⟨(s.performLog t (s.beforeLog t) t.log).teamKnows t, happ.trans ⟨?_, ?_⟩, ?_, rfl⟩
  · rw [State.teamKnows_only]
  · rw [State.teamKnows_only]
    exact happ.clean
  · rw [State.teamKnows_only]
    exact hbytes

/-! ### The end of a team (R85, R97) -/

section
variable {l : Launch}

/-- A team without a save record that is done with: it and its waves are gone, and its launch counts it. -/
theorem State.finishTeam_spec (hrec : t.rec_ = none) : (s.finishTeam t l).team? t.key = none ∧ (∀ w ∈ (s.finishTeam t l).waves, w.team ≠ t.key)
    ∧ (s.finishTeam t l).launch? l.key = some { l with finished := l.finished ++ [t.tix] } ∧ (s.finishTeam t l).mem = s.mem := by
  have hfree : s.freeRecord t = s := by
    unfold State.freeRecord
    rw [hrec]
  refine ⟨?_, ?_, State.launch_putLaunch_self _ { l with finished := l.finished ++ [t.tix] }, ?_⟩
  · exact s.dropTeam_team t
  · intro w hw
    simpa using (List.mem_filter.1 hw).2
  · change (s.freeRecord t).mem = s.mem
    rw [hfree]

/-- A team whose log waits has left its core. -/
theorem State.queueLog_spec (s : State) (t : Team) : (∃ x, (s.queueLog t).team? t.key = some x ∧ x.ended = true ∧ x.core = none ∧ x.log = t.log)
    ∧ (∀ w ∈ (s.queueLog t).waves, w.team ≠ t.key) ∧ (s.queueLog t).mem = s.mem := by
  refine ⟨⟨_, State.team_putTeam_self _ { t with
    ended := true, core := none, slots := [], tiles := [], banks := [], latches := [], known := s.teamReleases t }, rfl, rfl, rfl⟩, ?_, rfl⟩
  intro w hw
  simpa using (List.mem_filter.1 hw).2

theorem Team.want_only (t : Team) (tick : Nat) : t.want tick = { t with wantDirect := true, wantSince := (t.want tick).wantSince } := by
  unfold Team.want
  split
  next h => rw [← h]
  · rfl

variable (ht : s.team? t.key = some t) (hl : s.launch? t.launch = some l)
include ht hl

theorem exec_teamEnd (htr : s.trSize = 0) (hdone : teamDone s t = true) : exec (.teamEnd t.key) s = .next (
    if l.p.mode = 2 then if t.released = true ∨ l.holds t.tix = true then s.exitOrdered t l else s.queueLog (t.want s.tick)
    else if t.log = [] then s.finishTeam t l else s.queueLog t) := by
  change execTeamEnd t.key s = _
  unfold execTeamEnd
  simp only [ht, hl, hdone, State.trace_off htr, if_true]
  split
  · rfl
  · split <;> rfl

/-- The log of a STAGED team that has ended is applied, and the team is done with (R83). -/
theorem exec_logApply_ended (hrun : s.running = true) (hend : t.ended = true) (hmode : l.p.mode = 1) :
    exec (.logApply t.key) s = .next ((s.applyLog t).finishTeam t l) := by
  change execLogApply t.key s = _
  unfold execLogApply
  simp [ht, hl, hrun, hend, hmode]

/-- An ORDERED team that waits for the position goes direct once it holds it (R84, R86). -/
theorem exec_logApply_direct (hrun : s.running = true) (hend : t.ended = false) (hmode : l.p.mode = 2) (hwant : t.wantDirect = true)
    (hdirect : t.direct = false) (hholds : l.holds t.tix = true) : exec (.logApply t.key) s = .next (s.goDirect t) := by
  change execLogApply t.key s = _
  unfold execLogApply
  simp [ht, hl, hrun, hend, hmode, hwant, hdirect, hholds]

end

/-- The ticket of the team that holds the position passes, with its queued log applied (R85). -/
theorem exec_ticketRelease {k : Nat} {l : Launch} (hrun : s.running = true) (hl : s.launch? k = some l) (hmode : l.p.mode = 2)
    (hfind : (s.teams.find? fun t => t.launch == l.key && t.ended && l.holds t.tix) = some t) :
    exec (.ticketRelease k) s = .next (s.exitOrdered t l) := by
  change execTicketRelease k s = _
  unfold execTicketRelease
  simp only [hl, hfind, hrun, hmode, and_self, if_true]

theorem State.syncThreshold_off (htr : s.trSize = 0) (l : Launch) (tix : Nat) : s.syncThreshold l tix = s := by
  unfold State.syncThreshold
  split
  · exact State.trace_off htr _ _ _ _ _ _
  · rfl

/-- An ORDERED team that exits at the position has its log applied and its ticket released, and is done with (R84, R85). -/
theorem State.exitOrdered_spec {l : Launch} (htr : s.trSize = 0) (h : s.LogApplies t) (hrel : t.released = false) (hrec : t.rec_ = none) :
    SameBytes (s.exitOrdered t l).mem (t.view s.mem) ∧ (s.exitOrdered t l).team? t.key = none
      ∧ ∃ l', (s.exitOrdered t l).launch? l.key = some l' ∧ l'.released.contains t.tix = true ∧ l'.finished = l.finished ++ [t.tix] := by
  let direct : Team := { t with log := [], direct := true, wantDirect := false }
  let passed : Team := { t with released := true, wantRelease := false }
  let known := joinKnown (s.teamReleases t) (loggedIds t.log)
  let l₁ : Launch := { l with
    known := joinKnown l.known (passOn known), released := if l.released.contains t.tix then l.released else l.released ++ [t.tix] }
  obtain ⟨S, hS, hbytes, hput⟩ := State.performed_spec h direct
  have hdirect : s.goDirect t = S.putTeam direct := hput
  have hticket : (S.putTeam direct).releaseTicket t l known = ((S.putTeam direct).putTeam passed).putLaunch l₁ := by
    have hStr : (S.putTeam direct).trSize = 0 := by rw [State.putTeam_trSize, hS.rest, htr]
    unfold State.releaseTicket
    rw [State.syncThreshold_off hStr]
  have hlaunch : (((S.putTeam direct).putTeam passed).putLaunch l₁).launch? l.key = some l₁ := State.launch_putLaunch_self _ l₁
  have hexit : s.exitOrdered t l = (((S.putTeam direct).putTeam passed).putLaunch l₁).finishTeam t l₁ := by
    unfold State.exitOrdered
    dsimp only
    rw [hdirect, if_neg (by simp [hrel]), hticket, hlaunch]
  obtain ⟨hteam, -, hdone, hmem⟩ := State.finishTeam_spec (s := ((S.putTeam direct).putTeam passed).putLaunch l₁) (l := l₁) hrec
  rw [hexit]
  refine ⟨hmem ▸ hbytes, hteam, _, hdone, ?_, rfl⟩
  change (if l.released.contains t.tix then l.released else l.released ++ [t.tix]).contains t.tix = true
  split
  next hc => exact hc
  · simp

end

/-- Settles O51, by the event that each clause names. -/
theorem teamEvents : Obligations.TeamEvents := by
  unfold Obligations.TeamEvents
  intro s hready hdead hgated htr hkeys applied
  have hrun := State.running_of hready hdead hgated
  refine ⟨?_, ?_, ?_, ?_, ?_, ?_, ?_⟩
  · intro sc k unit l hl hsc hbar
    obtain ⟨hlaunch, hwaves⟩ := State.barRelease_spec htr hkeys l sc unit (s.barTeams sc l unit)
    refine ⟨_, _, exec_barrierRelease hrun hl hsc hbar, hlaunch, l.phase_advance sc unit, fun w hw => ?_⟩
    obtain ⟨v, hv, harr, hwait, hfrags, hregs⟩ := hwaves w hw
    exact ⟨v, hv, harr, hwait, hfrags, hregs⟩
  · intro k l hl hgrp hsent hbar hroot hroute
    exact ⟨_, exec_barrierRelease_pod hrun hl hgrp hsent hbar, State.podArrive_outbox (s := s.putLaunch _) hroot hroute _ _⟩
  · intro m id ph fin hm harrs
    change execPodArrival m id ph fin s = _
    unfold execPodArrival
    rw [if_pos hrun]
    refine congrArg _ (State.podChecks_waits (fun a ha => ?_) ph)
    rcases List.mem_append.1 ha with ha | ha
    · exact harrs a ha
    · rw [List.mem_singleton.1 ha]
      exact fun h => hm h.1
  · intro id ph l hfind
    have hexec : exec (.podRelease id ph) s = .next (s.barRelease .pod { l with podSent := none } 0 (s.barTeams .pod l 0)) := by
      change execPodRelease id ph s = _
      unfold execPodRelease State.podReleased
      simp only [hrun, hfind, if_true]
    obtain ⟨hlaunch, -⟩ := State.barRelease_spec htr hkeys { l with podSent := none } .pod 0 (s.barTeams .pod l 0)
    exact ⟨_, _, hexec, hlaunch, rfl, Launch.phase_advance { l with podSent := none } .pod 0⟩
  · intro t l ht hl hend hsaved hcmds hcore hwaves
    have hdone : teamDone s t = true := by
      simp only [teamDone, hrun, hend, hsaved, hcmds, hcore, List.isEmpty_nil, Bool.not_false, Bool.and_self, Bool.true_and, List.all_eq_true]
      intro w hw
      obtain ⟨hmem, hteam⟩ := List.mem_filter.1 hw
      simpa using hwaves w hmem (by simpa using hteam)
    have hexec := exec_teamEnd ht hl htr hdone
    refine ⟨fun hmode hlog hrec => ?_, fun hcase => ?_⟩
    · rw [if_neg hmode, if_pos hlog] at hexec
      obtain ⟨hteam, hgone, hlaunch, hmem⟩ := State.finishTeam_spec (s := s) (l := l) hrec
      exact ⟨_, hexec, hteam, hgone, hlaunch, hmem⟩
    · rcases hcase with ⟨hmode, hlog⟩ | ⟨hmode, hrel, hholds⟩
      · rw [if_neg hmode, if_neg hlog] at hexec
        obtain ⟨⟨x, hx, hxend, hxcore, hxlog⟩, hgone, hmem⟩ := s.queueLog_spec t
        exact ⟨_, x, hexec, hx, hxend, hxcore, hxlog, hgone, hmem⟩
      · rw [if_pos hmode, if_neg (by simp [hrel, hholds]), t.want_only] at hexec
        obtain ⟨⟨x, hx, hxend, hxcore, hxlog⟩, hgone, hmem⟩ := s.queueLog_spec { t with wantDirect := true, wantSince := (t.want s.tick).wantSince }
        exact ⟨_, x, hexec, hx, hxend, hxcore, hxlog, hgone, hmem⟩
  · intro t l ht hl happ
    refine ⟨fun hend hmode hrec => ?_, fun hend hmode hwant hdirect hholds => ?_⟩
    · obtain ⟨S, hS, hbytes, hput⟩ := State.performed_spec happ { t with log := [] }
      obtain ⟨hteam, -, hlaunch, hmem⟩ := State.finishTeam_spec (s := s.applyLog t) (l := l) hrec
      refine ⟨_, exec_logApply_ended ht hl hrun hend hmode, ?_, hteam, hlaunch⟩
      intro a
      rw [hmem, State.applyLog, hput]
      exact hbytes a
    · obtain ⟨S, hS, hbytes, hput⟩ := State.performed_spec happ { t with log := [], direct := true, wantDirect := false }
      refine ⟨_, exec_logApply_direct ht hl hrun hend hmode hwant hdirect hholds, ?_, ?_⟩
      · intro a
        rw [State.goDirect, hput]
        exact hbytes a
      · rw [State.goDirect, hput]
        exact State.team_putTeam_self S { t with log := [], direct := true, wantDirect := false }
  · intro k l t hl hmode hfind ht hrel hrec happ
    obtain ⟨hbytes, hteam, l', hlaunch, hreleased, hfinished⟩ := State.exitOrdered_spec (l := l) htr happ hrel hrec
    exact ⟨_, l', exec_ticketRelease hrun hl hmode hfind, hbytes, hteam, hlaunch, hreleased, hfinished⟩

end Sys2Proof.Machine
end

section
/-! SUPPORT. A wave resumed with more fragments than the split table holds, in its team's own context (R92, R114): O52. -/

namespace Sys2Proof.Machine

/-- A context whose memory begins at `mem`. -/
def bareCtx (id mem : Nat) : Ctx :=
  { id, pasid := 0, mem, trapImg := 0, trapPolicy := true, checked := false, drain := 0, q := 0, p := 0 }

/-- A LAUNCH packet of one team of one wave, with one byte of scratchpad. -/
def oneByte : LaunchPkt :=
  { image := 0, args := 0, sigaddr := 0, sigval := 0, teams := 1, spbytes := 1, waves := 1, lanes := 64, ntags := 0, ntiles := 0, nbanks := 0
    mode := 0, latch := false, co := false, affinity := false, idem := false, logsz := 0, id := 0, podgrp := 0 }

/-- A timetable launch of context 0, all of whose teams have had a place. -/
def resuming : Launch := { key := 0, ctx := 0, queue := 0, idx := 0, tt := some 0, p := oneByte, next := 1 }

/-- Its saved team, with nothing in its scratchpad; it names context 1. -/
def strayTeam : Team := { key := 1, launch := 0, ctx := 1, tix := 0, core := none, saved := true }

/-- Nine fragments that the split table is to hold, and one record in each place of the spill area. -/
def crowd : List Frag :=
  List.replicate 9 { mask := 0xFF, cp := 0, state := 0, blocks := [] }
  ++ (List.range 64).map fun k => { mask := 0xFF, cp := 0, state := 0, blocks := [], spill := some k }

/-- The team waits for a place. In context 1 the spill area of the wave slot that it comes to is where the scratchpad of core 0 counts as
standing. -/
def strayed : State :=
  { State.reset with
    ready := true, fresh := 3, ctxs := [bareCtx 0 0, bareCtx 1 (2 ^ 56 - 0x1600)], launches := [resuming], teams := [strayTeam]
    waves := [{ key := 2, team := 1, wid := 0, place := none, frags := crowd }] }

/-- A state's first byte of the scratchpad of its team 1. -/
def State.firstByte? (s : State) : Option Byte := (s.team? 1).map fun t => cget s.mem (spAddr (t.core.getD 0) t.spBase)

theorem strayed_due : nextDue (strayed.waiting resuming) = some (.saved 0 strayTeam.key) := rfl

/-- The team comes to core 0, and the mask of its wave's ninth fragment to the first byte of its scratchpad. -/
theorem strayed_placeOne : ∃ s', strayed.placeOne resuming = some s' ∧ s'.firstByte? = some 0xFF := by
  have h : ((strayed.placeOne resuming).bind State.firstByte?) = some 0xFF := by decide
  exact Option.bind_eq_some_iff.1 h

/-- The arbiter's choice is the launch's saved team, the only candidate of level 7. -/
theorem strayed_pick {s' : State} (h : strayed.placeOne resuming = some s') : strayed.pick = some (.place resuming s' 1) := by
  have hcands : (strayed.launches.filter fun l => l.tt.isSome && strayed.placing l && (nextDue (strayed.waiting l)).isSome) = [resuming] := rfl
  have hservice : strayed.service resuming = some (s', 1) := by
    change (strayed.placeOne resuming).map (fun s => (s, 1)) = _
    rw [h, Option.map_some]
  have hreach : strayed.reach 7 resuming = some (.place resuming s' 1) := by
    unfold State.reach
    rw [if_neg (by decide), hservice]
  have hserve : strayed.serve7 1 [resuming] = some (.place resuming s' 1) := by
    simp only [State.serve7, bestBy, hreach]
  unfold State.pick
  rw [hcands]
  simp only [List.length_singleton, hserve]

theorem strayed_arbiterServe {s' : State} (h : strayed.placeOne resuming = some s') : exec .arbiterServe strayed = .next s' := by
  change execArbiterServe strayed = _
  unfold execArbiterServe
  rw [if_neg (by decide), strayed_pick h]
  rfl

/-- Refutes O52: a saved team resumes in a launch of context 0 but names context 1, and its wave has more fragments than the split table holds.
The record of one is stored in the spill area of context 1, which overlaps the team's scratchpad. The clause that the scratchpad is
as it was saved bounds where the memory of the launch's context begins, and does not ask that this is the team's context. -/
theorem not_placementEvents : ¬ Obligations.PlacementEvents := by
  unfold Obligations.PlacementEvents
  intro h
  obtain ⟨s', hplace, hbyte⟩ := strayed_placeOne
  obtain ⟨-, -, hsaved, -⟩ := h strayed rfl
  obtain ⟨u, core, f, t, hu, -, -, ht, hfields, -, -, hsp⟩ := hsaved resuming s' 1 0 strayTeam (bareCtx 0 0) .arbiterServe (strayed_pick hplace)
    rfl rfl rfl strayed_due rfl rfl (by decide) (by decide) rfl (by decide) rfl (.inl rfl)
  obtain rfl : s' = u := by
    simpa using (strayed_arbiterServe hplace).symm.trans hu
  have hzero : s'.firstByte? = some 0 := by
    unfold State.firstByte?
    rw [show s'.team? 1 = some t from ht, Option.map_some, hfields]
    exact congrArg some (hsp 0 (by decide))
  exact absurd (hzero.symm.trans hbyte) (by decide)

end Sys2Proof.Machine
end

section
/-! SUPPORT. The checks at issue one by one, an instruction that goes on or blocks, and the effects that fall due with it (R120, R126, R222): O6,
O7, O27, O41, O46. -/

namespace Sys2Proof.Machine

/-! ### The checks at issue, one by one (R117, R222) -/

section
variable {p : Spec} {s : State} {e : Env} (henv : s.env? = some e)
include henv

theorem Env.trap_eq (t : Trap) : e.trap t = s.raise e.w { t with pos := e.w.pos } := by
  rw [Env.trap, (State.env_found henv).state]

theorem run_cls (hmem : p.mem = false) (hkeep : p.keep = none) (hcls : p.cls.any (· != e.cl.cls) = true) (act : Env → State) :
    run p act s = .next (s.raise e.w { illop 2 with pos := e.w.pos }) := by
  simp [run, gate, henv, hcls, Spec.fml, Spec.kept, hmem, hkeep, Env.trap_eq henv, illop]

variable (hcls : p.cls.any (· != e.cl.cls) = false)
include hcls

theorem run_slot (hmem : p.mem = false) (hkeep : p.keep = none) (hslot : e.f.blocks.length ≤ p.slot.val) (act : Env → State) :
    run p act s = .next (s.raise e.w { illop 1 with pos := e.w.pos }) := by
  simp [run, gate, henv, hcls, hslot, Spec.fml, Spec.kept, hmem, hkeep, Env.trap_eq henv, illop]

variable (hslot : p.slot.val < e.f.blocks.length)
include hslot

theorem run_chk {t : Trap} (hmem : p.mem = false) (hkeep : p.keep = none) (hchk : p.chk e = some t) (act : Env → State) :
    run p act s = .next (s.raise e.w { t with fml := 0, kept := [], pos := e.w.pos }) := by
  simp [run, gate, henv, hcls, Nat.not_le.2 hslot, hchk, Spec.fml, Spec.kept, hmem, hkeep, Env.trap_eq henv]

variable (hchk : p.chk e = none)
include hchk

theorem run_skip (hacts : p.acts e = false) (act : Env → State) : run p act s = .next (e.retire []) := by
  simp [run, gate, henv, hcls, Nat.not_le.2 hslot, hchk, hacts]

variable (hmem : p.mem = false) (hkeep : p.keep = none) (hacts : p.acts e = true)
include hmem hkeep hacts

theorem run_timing {q : Nat} (hck : e.checked = true) (hbad : timingBad e.w.pend e.w.pos p.seen p.writes = some q) (act : Env → State) :
    run p act s = .next (s.raise e.w { cause := causeTiming, fword := BitVec.ofNat 32 q, pos := e.w.pos }) := by
  simp [run, gate, henv, hcls, Nat.not_le.2 hslot, hchk, hacts, hck, hbad, Spec.fml, Spec.kept, hmem, hkeep, Env.trap_eq henv]

theorem run_latch (hgood : e.checked = false ∨ timingBad e.w.pend e.w.pos p.seen p.writes = none)
    (hbad : e.latchBad (p.reads ++ p.writes) = true) (act : Env → State) :
    run p act s = .next (s.raise e.w { cause := causeLatch, pos := e.w.pos }) := by
  have htime : (if e.checked = true then timingBad e.w.pend e.w.pos p.seen p.writes else none) = none := by
    rcases hgood with h | h <;> simp [h]
  simp [run, gate, henv, hcls, Nat.not_le.2 hslot, hchk, hacts, htime, hbad, Spec.fml, Spec.kept, hmem, hkeep, Env.trap_eq henv]

end

/-! ### A wave that goes on (R126, R127) -/

/-- A wave whose clause does not end yet, and for which nothing falls due, goes on with what pends on it. -/
theorem advance_stays {s : State} {w : Wave} (c : Ctx) (hend : s.clauseEnds w = false) (hland : s.land w w.nextPos = (s, w)) :
    WentOn s (s.advance c w) w w.regsEnd ∧ ∃ w', (s.advance c w).wave? w.key = some w' ∧ w'.pend = w.pend ∧ w'.regs = w.regs := by
  obtain ⟨v, hv⟩ : ∃ v, v = ({ w with pos := w.nextPos, replay := w.replay.tail
                                      redo := if w.replay.tail = [] then none else w.redo, reason := 0, stepped := true } : Wave).setFrag w.cur
      fun f => { f with held := none, past := none, yield := false } := ⟨_, rfl⟩
  have hm : v.frags.map Frag.mask = w.frags.map Frag.mask := by
    rw [hv]
    exact setFrag_mask _ _ _ fun _ => rfl
  have hr : v = { w with frags := v.frags, pos := v.pos, replay := v.replay, redo := v.redo, reason := v.reason, stepped := v.stepped } := by
    rw [hv]
    rfl
  have hadv : ∃ st re, s.advance c w = s.settle { v with stage := st, reason := re } := by
    unfold State.advance
    simp only [hland, ← hv]
    by_cases hlong : s.waitsLong v w.nextPos = true
    · exact ⟨_, _, if_pos hlong⟩
    · have hgoes : ¬v.count ≤ w.nextPos := by
        intro hq
        have hcount : v.count = w.count := by rw [hr]; rfl
        have hpend : v.pend = w.pend := by rw [hr]
        have hbusy : s.busy v = s.busy w := by rw [hr]; rfl
        rw [hcount] at hq
        simp only [State.waitsLong, hcount, hpend, hbusy, hq, decide_true, Bool.true_and, Bool.or_eq_true, not_or, Bool.not_eq_true] at hlong
        simp [State.clauseEnds, hq, hlong.2] at hend
      exact ⟨_, v.reason, by rw [if_neg hlong, if_neg hgoes]⟩
  obtain ⟨st, re, hadv⟩ := hadv
  have hk : v.key = w.key := by rw [hr]
  have hs : v.stepping = w.stepping := by rw [hr]
  have hregs : v.regs = w.regs := by rw [hr]
  have hpend : v.pend = w.pend := by rw [hr]
  rw [hadv]
  refine ⟨?_, ?_⟩
  · obtain ⟨hwave, hothers, hrest, hcores⟩ := settle_went s w { v with stage := st, reason := re } hk ⟨hm, by rw [hr]⟩ hs
    refine ⟨?_, hothers, hrest, hcores⟩
    simpa only [Wave.regsEnd, hregs, hpend] using hwave
  · obtain ⟨⟨w', hw', he⟩, -⟩ := settle_spec s { v with stage := st, reason := re }
    exact ⟨w', by rw [← hk]; exact hw', by rw [he]; exact hpend, by rw [he]; exact hregs⟩

/-- Entries whose effects are the wave's own, or that are not due by a position, do not land. -/
theorem land_none {s : State} {w : Wave} {q : Nat} (h : ∀ p ∈ w.pend, (∀ x ∈ p.effs, x.local = true) ∨ q < p.due) : s.land w q = (s, w) := by
  unfold State.land
  refine foldl_same _ _ _ fun p hp a => ?_
  rcases h p ((mem_sortPend _ p _).1 hp) with hloc | hdue
  · rw [landEff_foldl p.effs a.1 a.2 p.due hloc, ite_self]
  · exact if_neg (by omega)

/-- Of entries whose older effects are the wave's own, only the newest lands, once it is due. -/
theorem land_newest {s : State} {w : Wave} {old : List Pend} {p : Pend} (hp : w.pend = old ++ [p])
    (hloc : ∀ q ∈ old, ∀ x ∈ q.effs, x.local = true) (q : Nat) :
    s.land w q = if w.pos < p.due ∧ p.due ≤ q then p.effs.foldl (fun a x => landEff a.1 a.2 p.due x) (s, w) else (s, w) := by
  have hold : ∀ y ∈ sortPend Pend.due old, ∀ a : State × Wave, (if w.pos < y.due ∧ y.due ≤ q then
      y.effs.foldl (fun a e => landEff a.1 a.2 y.due e) a else a) = a := by
    intro y hy a
    rw [landEff_foldl y.effs a.1 a.2 y.due (hloc y ((mem_sortPend _ y _).1 hy)), ite_self]
  unfold State.land
  rw [hp, sortPend_append, foldl_ins _ _ p _ _ (sortPend_sorted _ _) fun y hy _ => hold y hy, foldl_same _ _ _ hold]

/-- When the newest entry is the one that lands, the wave goes on in what its effects leave as soon as they are due (R126). -/
theorem advance_newest {s S' : State} {w : Wave} {cl : Clause} {old : List Pend} {p : Pend} (c : Ctx) (hcall : w.call = none)
    (hcl : w.clause = some cl) (hp : w.pend = old ++ [p]) (hdue : w.pos < p.due) (hloc : ∀ q ∈ old, ∀ x ∈ q.effs, x.local = true)
    (hcores : S'.cores = s.cores)
    (hlands : ∀ v : Wave, v.team = w.team → p.effs.foldl (fun a x => landEff a.1 a.2 p.due x) (s, v) = (S', v)) :
    ∃ B, B = (if s.clauseEnds w || decide (p.due ≤ w.nextPos) then S' else s) ∧ WentOn B (s.advance c w) w w.regsEnd := by
  have hland (S : State) (v : Wave) (q : Nat) (hv : v.pend = w.pend) (ht : v.team = w.team) (hS : S = s ∨ ¬(v.pos < p.due ∧ p.due ≤ q)) :
      S.land v q = (if v.pos < p.due ∧ p.due ≤ q then S' else S, v) := by
    rw [land_newest (hv.trans hp) hloc]
    split
    · next hnow =>
      rw [hS.resolve_right (not_not.2 hnow)]
      exact hlands v ht
    · rfl
  have hlast : p.due ≤ w.lastDue := le_lastDue (by rw [hp]; simp)
  by_cases hd : p.due ≤ w.nextPos
  · obtain ⟨B, hB, h1, h2, h3, h4⟩ := advance_went s S' S' c w cl hcall hcl hcores
      (by rw [hland s w _ rfl rfl (.inl rfl), if_pos ⟨hdue, hd⟩])
      (fun v hv hpos ht _ => by
        have hpast : ¬(v.pos < p.due ∧ p.due ≤ v.lastDue) := by omega
        rw [hland S' v _ hv ht (.inr hpast), if_neg hpast])
    rw [ite_self] at hB
    exact ⟨B, by rw [hB]; simp [hd], ⟨h1, h2, h3, h4⟩⟩
  · obtain ⟨B, hB, h1, h2, h3, h4⟩ := advance_went s s S' c w cl hcall hcl rfl
      (by rw [hland s w _ rfl rfl (.inl rfl), if_neg fun h => hd h.2])
      (fun v hv hpos ht _ => by
        have hlast' : v.lastDue = w.lastDue := by simp only [Wave.lastDue, hv]
        rw [hland s v _ hv ht (.inl rfl), if_pos (by omega)])
    exact ⟨B, by rw [hB]; simp [hd], ⟨h1, h2, h3, h4⟩⟩

/-- The registers that an instruction sees, by whether the newest entry is due; no entry prevails over it (R126). -/
theorem Wave.regsAt_newest {w : Wave} {old : List Pend} {p : Pend} (hp : w.pend = old ++ [p]) (hrank : ∀ q ∈ old, q.rank ≤ p.rank)
    (hacc : ∀ x ∈ p.effs, x.accumulates = false) (htake : ∀ x ∈ p.effs, x.noTake = true) (j : Nat) :
    w.regsAt j = if p.due ≤ j then (w.regs.after (old.filter fun q => q.due ≤ j)).putAll p.effs
      else w.regs.after (old.filter fun q => q.due ≤ j) := by
  rw [Wave.regsAt, hp, List.filter_append]
  split
  · next hj =>
    rw [List.filter_singleton, decide_eq_true hj, cond_true, after_append _ _ _ (fun q hq => hrank q (List.mem_filter.1 hq).1) (.inl hacc) htake]
  · next hj =>
    rw [List.filter_singleton, decide_eq_false hj, cond_false, List.append_nil]

section
variable {S : State} {e : Env}

/-- What going on leaves, as an instruction's retirement. -/
theorem WentOn.retires {t : State} {w : Wave} {r : Regs} (h : WentOn S t w r) (hw : ∃ l late, w = { e.w with pend := l, late := late }) :
    Retires S t e r S.teams := by
  obtain ⟨l, late, rfl⟩ := hw
  obtain ⟨⟨w', hw', hr, hwent⟩, hothers, hrest, hcores⟩ := h
  refine ⟨⟨w', hw', hr, ⟨hwent.masks, hwent.rest⟩⟩, hothers, ?_, ?_, hcores⟩
  · rw [hrest, ite_self]
  · rw [hrest]

/-- An instruction that adds nothing to what pends retires, in whatever state it has left. -/
theorem retire_retires (hcall : e.w.call = none) (hcl : e.w.clause = some e.cl) (hloc : ∀ p ∈ e.w.pend, ∀ x ∈ p.effs, x.local = true) :
    Retires S (({ e with s := S } : Env).retire []) e e.w.regsEnd S.teams := by
  unfold Env.retire
  dsimp only
  rw [List.append_nil]
  exact (advance_local S e.c e.w e.cl hcall hcl hloc).retires ⟨_, _, rfl⟩

/-- Once its effects are due, the wave of an instruction that is at the end of its clause. -/
theorem flush_local {s : State} {w : Wave} (hloc : ∀ p ∈ w.pend, ∀ x ∈ p.effs, x.local = true) :
    s.flush w = (s, { w with regs := w.regsEnd, pend := [], late := [] }) := by
  unfold State.flush
  rw [land_local s w _ hloc]

/-- A fragment that blocks, in whatever state its instruction has left (R120, R235). -/
theorem block_blocks (hstep : e.w.stepping = none) (hfrag : e.w.frags[e.w.cur]? = some e.f)
    (hloc : ∀ p ∈ e.w.pend, ∀ x ∈ p.effs, x.local = true) (x : Wait) (reason : Nat) :
    Blocks S (({ e with s := S } : Env).block x reason) e x := by
  let g (f : Frag) : Frag := { f with blocked := some x, held := some e.cl, past := none, yield := e.w.yielded }
  let v : Wave := { ({ e.w with regs := e.w.regsEnd, pend := [], late := [] } : Wave).setFrag e.w.cur g with
    clause := none, pos := 0, replay := [], yielded := false, stage := .quantum, reason }
  have hblock : ({ e with s := S } : Env).block x reason = S.putWave v := by
    unfold Env.block
    simp only [flush_local hloc]
    change (match e.w.stepping with
      | none => S.putWave v
      | some _ => (S.putWave { v with stepping := none, stepBlocked := true }).putCore { S.core v.coreNo with stepDone := true }) = _
    rw [hstep]
  have hget := ({ e.w with regs := e.w.regsEnd, pend := [], late := [] } : Wave).setFrag_get e.w.cur (f := g)
  rw [hblock]
  refine ⟨⟨v, g e.f, S.wave_putWave_self v, ?_, rfl, fun i hi => ?_, rfl⟩, fun k hk => S.wave_putWave_ne v k hk, rfl⟩
  · refine (hget e.w.cur).trans ?_
    rw [hfrag]
    simp
  · refine (hget i).trans ?_
    simp [hi]

end

end Sys2Proof.Machine
end

section
/-! SUPPORT. The checks of a bitwise instruction, and the scalar result that falls due (R126, R222): O6, O7. -/

namespace Sys2Proof.Machine

/-- Settles O6: a bitwise instruction meets the checks of `gate` in their order. -/
theorem issueChecks : Obligations.IssueChecks := by
  unfold Obligations.IssueChecks
  intro o s e henv gives regs
  have hf := State.env_found henv
  obtain ⟨p, act, hexec, hp⟩ : ∃ (p : Spec) (act : Env → State), exec (.vand o) s = run p act s
      ∧ p = { cls := some .vec, slot := o.slot, reads := o.a.num ++ o.b.num, writes := o.d.num, lanewise := true } := ⟨_, _, rfl, by simp⟩
  have hmem : p.mem = false := by rw [hp]
  have hkeep : p.keep = none := by rw [hp]
  have hchk : p.chk e = none := by rw [hp]
  have hcls (h : e.cl.cls = .vec) : p.cls.any (· != e.cl.cls) = false := by simp [hp, h]
  have hacts : p.acts e = true ↔ ∃ l < 64, e.active o.slot l = true := by
    simp [hp, Spec.acts, Env.lanes]
  refine ⟨fun hc => ?_, fun hc hslot => ?_, fun hc hslot => ⟨fun hquiet hno => ?_, fun hsome => ⟨fun q hck hbad => ?_, fun hgood hhigh hlatch => ?_⟩⟩⟩
  · exact hexec.trans (run_cls henv hmem hkeep (by simpa [hp] using Ne.symm hc) act)
  · exact hexec.trans (run_slot henv (hcls hc) hmem hkeep (by rw [hp]; exact hslot) act)
  · have hidle : p.acts e = false := by
      rw [Bool.eq_false_iff, Ne, hacts]
      rintro ⟨l, hl, hactive⟩
      exact absurd (hno l hl) (by simp [hactive])
    refine ⟨_, hexec.trans (run_skip henv (hcls hc) (by rw [hp]; exact hslot) hchk hidle act), ?_⟩
    have hret := retire_retires (S := s) hquiet.2 hf.clause hquiet.1
    rwa [← hf.state] at hret ⊢
  · exact hexec.trans (run_timing henv (hcls hc) (by rw [hp]; exact hslot) hchk hmem hkeep (hacts.2 hsome) hck (by rw [hp]; exact hbad) act)
  · have hregs : ∃ r ∈ p.reads ++ p.writes, 64 ≤ r ∧ r < 128 := by
      obtain ⟨r, hr, hlo, hhi⟩ := hhigh
      rw [List.cons_append, List.mem_cons] at hr
      exact ⟨r, by rw [hp]; exact hr.resolve_left (by omega), hlo, hhi⟩
    have hbad : e.latchBad (p.reads ++ p.writes) = true := by
      simp only [Env.latchBad, Bool.and_eq_true, List.any_eq_true, decide_eq_true_eq, bne_iff_ne]
      exact ⟨hregs, hlatch⟩
    exact hexec.trans (run_latch henv (hcls hc) (by rw [hp]; exact hslot) hchk hmem hkeep (hacts.2 hsome) (by rw [hp]; exact hgood) hbad act)

/-- Settles O7: SADD's entry is among those due from its due position on, where it is the latest write of its register. -/
theorem resultsFallDue : Obligations.ResultsFallDue := by
  unfold Obligations.ResultsFallDue
  intro o n s e hd h hany hready hreplay hpos
  have hf := State.env_found h.env
  obtain ⟨p, hp⟩ : ∃ p : Pend, p = { pos := e.w.pos, due := e.w.pos + 4, effs := [.sreg n (e.srd o.a + e.srd o.b)], dsts := o.d.num ++ [] } :=
    ⟨_, rfl⟩
  obtain ⟨w, hw⟩ : ∃ w : Wave, w = { e.w with pend := e.w.pend ++ [p] } := ⟨_, rfl⟩
  have hexec : exec (.sadd o) s = .next (s.advance e.c w) := by
    change execSadd o s = _
    unfold execSadd scalar2 scalarOp regOp
    rw [run_go h (.inr rfl) rfl (by simp [Spec.seen]) rfl rfl (by simpa [Spec.acts] using hany), hw, hp]
    simp only [show e.hRead [o.a, o.b] = none from hready, hd, SDst.put]
    rw [Env.fixed, Env.retire, hf.state]
  have hkey : w.key = e.w.key := by rw [hw]
  have hnext : w.nextPos = e.w.pos + 1 := by simp [hw, Wave.nextPos, hreplay]
  have hend : s.clauseEnds w = false := by
    have hcount : w.count = e.cl.count := by simp [hw, Wave.count, hf.clause]
    simp [State.clauseEnds, hcount, hnext, Nat.not_le.2 hpos]
  have hland : s.land w w.nextPos = (s, w) := land_local s w _ fun q hq => by
    rw [hw, List.mem_append, List.mem_singleton] at hq
    rcases hq with hq | hq
    · exact h.quiet.1 q hq
    · rw [hq, hp]
      exact fun x hx => by rw [List.mem_singleton.1 hx]; rfl
  obtain ⟨-, w', hw', hpend, hregs⟩ := advance_stays e.c hend hland
  rw [hw] at hpend hregs
  refine ⟨_, w', hexec, hkey ▸ hw', fun j => ?_⟩
  have hrank : p.rank = 2 * e.w.pos := by simp [hp, Pend.rank]
  rw [Wave.regsAt_newest hpend (hrank ▸ h.rank (by decide)) (by simp [hp, Eff.accumulates]) (by simp [hp, Eff.noTake]), hregs, hp]
  split
  · exact cget_cset_self _ _ _
  · rfl

end Sys2Proof.Machine
end

section
/-! SUPPORT. Barrier masks, and what the phases that have released put before a wave (R247 to R251): O27. -/

namespace Sys2Proof.Machine

/-! ### What is known of writes (R167, R251) -/

/-- A list of known writes holds a write on its paths. -/
def Knows (l : List Known) (n : Known) : Prop := ∃ m ∈ l, m.id = n.id ∧ m.paths &&& n.paths = n.paths

/-- One write joined to those known. -/
def joinOne (a : List Known) (k : Known) : List Known :=
  if a.any fun x => x.id == k.id then
    a.map fun x => if x.id = k.id then { x with paths := x.paths ||| k.paths, here := x.here ||| k.here } else x
  else a ++ [k]

theorem joinKnown_foldl (a b : List Known) : joinKnown a b = b.foldl joinOne a := rfl

theorem and_or_of_and {x y n : BitVec 3} (h : x &&& n = n) : (x ||| y) &&& n = n := by
  rw [BitVec.and_comm, BitVec.and_or_distrib_left, BitVec.and_comm n x, h]
  ext i hi
  simp
  tauto

theorem Knows.joinOne {a : List Known} {n : Known} (h : Knows a n) (k : Known) : Knows (joinOne a k) n := by
  obtain ⟨m, hm, hid, hpaths⟩ := h
  unfold Machine.joinOne
  split
  · refine ⟨_, List.mem_map_of_mem hm, ?_, ?_⟩
    · split <;> exact hid
    · split
      · exact and_or_of_and hpaths
      · exact hpaths
  · exact ⟨m, List.mem_append_left _ hm, hid, hpaths⟩

theorem knows_joinOne (a : List Known) (k : Known) : Knows (joinOne a k) k := by
  unfold joinOne
  split
  · next h =>
    obtain ⟨x, hx, hid⟩ := List.any_eq_true.1 h
    rw [beq_iff_eq] at hid
    refine ⟨_, List.mem_map_of_mem hx, ?_, ?_⟩
    · rw [if_pos hid]
      exact hid
    · rw [if_pos hid]
      dsimp only
      rw [BitVec.or_comm]
      exact and_or_of_and (BitVec.and_self)
  · exact ⟨k, by simp, rfl, BitVec.and_self⟩

theorem Knows.join_left {a : List Known} {n : Known} (h : Knows a n) (b : List Known) : Knows (joinKnown a b) n := by
  rw [joinKnown_foldl]
  exact List.foldlRecOn (motive := fun x => Knows x n) b Machine.joinOne h fun _ hx k _ => hx.joinOne k

theorem knows_join_right (a : List Known) {b : List Known} {n : Known} (h : n ∈ b) : Knows (joinKnown a b) n := by
  rw [joinKnown_foldl]
  induction b generalizing a with
  | nil => cases h
  | cons k b ih =>
    rcases List.mem_cons.1 h with rfl | h
    · exact (knows_joinOne a n).join_left b
    · exact ih _ h

theorem knows_self {l : List Known} {n : Known} (h : n ∈ l) : Knows l n := ⟨n, h, rfl, BitVec.and_self⟩

theorem Wave.learn_eq (w : Wave) (l : List Known) : w.learn l = { w with known := (w.learn l).known } := by
  unfold Wave.learn
  split <;> rfl

/-- A wave that learns keeps what it knew. -/
theorem Wave.learn_keeps (w : Wave) (l : List Known) {n : Known} (h : n ∈ w.known) : Knows (w.learn l).known n := by
  unfold Wave.learn
  split
  · exact knows_self h
  · exact (knows_self h).join_left l

/-- A wave that learns knows what it has learnt. -/
theorem Wave.learn_knows (w : Wave) {l : List Known} {n : Known} (h : n ∈ l) : Knows (w.learn l).known n := by
  unfold Wave.learn
  rw [if_neg (by simpa using List.ne_nil_of_mem h)]
  exact knows_join_right _ h

theorem Knows.trans {a b : List Known} {n : Known} (h : Knows a n) (hb : ∀ k ∈ a, Knows b k) : Knows b n := by
  obtain ⟨m, hm, hid, hpaths⟩ := h
  obtain ⟨x, hx, hid', hpaths'⟩ := hb m hm
  refine ⟨x, hx, hid'.trans hid, ?_⟩
  calc x.paths &&& n.paths = x.paths &&& (m.paths &&& n.paths) := by rw [hpaths]
    _ = n.paths := by rw [← BitVec.and_assoc, hpaths', hpaths]

/-- What a phase of a scope has put before a wave is among what a BARW takes up (R251). -/
theorem Wave.passedAt_knows (w : Wave) {sc : Scope} {p : Scope × List Known} (hp : p ∈ w.passed) (hsc : p.1 = sc) {n : Known} (hn : n ∈ p.2) :
    Knows (w.passedAt sc) n := by
  have key (l : List (Scope × List Known)) (a : List Known) (h : Knows a n ∨ p ∈ l) : Knows (l.foldl (fun k p => joinKnown k p.2) a) n := by
    induction l generalizing a with
    | nil => exact h.resolve_right (by simp)
    | cons q l ih =>
      refine ih _ ?_
      rcases h with h | h
      · exact .inl (h.join_left q.2)
      · rcases List.mem_cons.1 h with rfl | h
        · exact .inl (knows_join_right a hn)
        · exact .inr h
  exact key _ [] (.inr (List.mem_filter.2 ⟨hp, by simp [hsc]⟩))

/-! ### Masks of a scope (R249) -/

theorem Wave.bar_scope (w : Wave) (sc : Scope) : (w.bar sc).scope = sc := by
  unfold Wave.bar
  cases h : w.bars.find? fun b => b.scope == sc with
  | none => rfl
  | some b => simpa using List.find?_some h

theorem Wave.bar_putBar {w : Wave} {b : WBar} {sc : Scope} (h : b.scope = sc) : (w.putBar b).bar sc = b := by
  subst h
  unfold Wave.bar Wave.putBar
  dsimp only
  rw [lput_find_self _ _ _ (by simp), Option.getD_some]

theorem Wave.bar_congr {w v : Wave} (h : v.bars = w.bars) (sc : Scope) : v.bar sc = w.bar sc := by
  unfold Wave.bar
  rw [h]

/-! ### Checks (R235, R236, R247) -/

section
variable {o : Bar} {e : Env}

theorem barChk_handler (h : e.w.inHandler = true) (block : Bool) : barChk o block e = some (illop 1) := by
  unfold barChk
  rw [if_pos (.inr (.inl h))]

theorem barChk_none {block : Bool} (hslot : o.slot = 0) (hh : e.w.inHandler = false) (hsc : o.scope = .core ∨ e.l.p.co = true)
    (hlast : block = true → e.w.pos + 1 = e.cl.count) : barChk o block e = none := by
  unfold barChk
  refine if_neg ?_
  rintro (h | h | ⟨h, hco⟩ | ⟨h, hpos⟩)
  · exact h hslot
  · simp [hh] at h
  · rcases hsc with hsc | hsc
    · exact h hsc
    · simp [hsc] at hco
  · exact hpos (hlast h)

end

/-! ### An instruction without effects -/

/-- An instruction whose entry has no effects retires, in whatever state it has left. -/
theorem effectless_retires {S : State} {e : Env} (hcall : e.w.call = none) (hcl : e.w.clause = some e.cl)
    (hloc : ∀ p ∈ e.w.pend, ∀ x ∈ p.effs, x.local = true) (hrank : ∀ q ∈ e.w.pend, q.rank ≤ 2 * e.w.pos) (lat : Nat) (wr : List Nat) :
    Retires S (({ e with s := S } : Env).fixed lat wr []) e e.w.regsEnd S.teams := by
  obtain ⟨p, hp⟩ : ∃ p : Pend, p = { pos := e.w.pos, due := e.w.pos + lat, effs := [], dsts := wr } := ⟨_, rfl⟩
  have hregs : ({ e.w with pend := e.w.pend ++ [p] } : Wave).regsEnd = e.w.regsEnd := by
    refine (after_append e.w.regs e.w.pend p ?_ (.inl (by simp [hp])) (by simp [hp])).trans ?_
    · simpa [hp, Pend.rank] using hrank
    · rw [hp]
      rfl
  have hwent := advance_local S e.c { e.w with pend := e.w.pend ++ [p] } e.cl hcall hcl (by
    intro q hq
    rcases List.mem_append.1 hq with hq | hq
    · exact hloc q hq
    · rw [List.mem_singleton.1 hq, hp]
      simp)
  rw [hregs] at hwent
  unfold Env.fixed Env.retire
  rw [← hp]
  exact hwent.retires ⟨_, e.w.late, rfl⟩

/-- It does not matter what the wave has left to read again. -/
theorem Retires.of_late {s t : State} {e : Env} {r : Regs} {tm : List Team} {l : List Late}
    (h : Retires s t { e with w := { e.w with late := l } } r tm) : Retires s t e r tm := by
  obtain ⟨w', hw', hr, hwent⟩ := h.wave
  exact ⟨⟨w', hw', hr, ⟨hwent.masks, hwent.rest⟩⟩, h.others, h.teams, h.rest, h.cores⟩

theorem hold_putWave {e : Env} (h : e.w.stepping = none) (reason : Nat) : e.hold reason = e.s.putWave { e.w with reason } := by
  unfold Env.hold
  simp only [h]

/-- The wave of a BARW that does not block: its restart declaration is cleared, and it takes up what its scope's phases have put before it. -/
def Wave.takesUp (w : Wave) (sc : Scope) : Wave :=
  { ({ w with restart := none } : Wave).learn (w.passedAt sc) with passed := w.passed.filter fun p => p.1 != sc }

theorem Wave.takesUp_eq (w : Wave) (sc : Scope) : w.takesUp sc = { w with
    known := (w.learn (w.passedAt sc)).known, restart := none, passed := w.passed.filter fun p => p.1 != sc } := by
  unfold Wave.takesUp Wave.learn
  split <;> rfl

/-! ### The barrier instructions -/

section
variable {o : Bar} {s : State} {e : Env}

theorem exec_barriers_handler (hslot : o.slot = 0) (hh : e.w.inHandler = true) (henv : s.env? = some e) (hcls : e.cl.cls = .vec)
    (hblocks : 0 < e.f.blocks.length) {i : Instr} (hi : i ∈ [Instr.bar o, .bara o, .barw o]) :
    exec i s = .next (s.raise e.w { cause := 0x01, detail := 1, pos := e.w.pos }) := by
  have hrun (block : Bool) (act : Env → State) : run { cls := some .vec, slot := o.slot, always := true, chk := barChk o block } act s
      = .next (s.raise e.w { cause := 0x01, detail := 1, pos := e.w.pos }) :=
    run_chk henv (t := illop 1) (by simp [hcls]) (by simpa [hslot] using hblocks) rfl rfl (barChk_handler hh block) act
  simp only [List.mem_cons, List.not_mem_nil, or_false] at hi
  rcases hi with rfl | rfl | rfl
  · exact hrun true _
  · exact hrun false _
  · exact hrun true _

variable (hslot : o.slot = 0) (h : Ready s e .vec 0 [] []) (hh : e.w.inHandler = false) (hsc : o.scope = .core ∨ e.l.p.co = true)
include hslot h hh hsc

theorem run_barrier {block : Bool} (hlast : block = true → e.w.pos + 1 = e.cl.count) (act : Env → State) :
    run { cls := some .vec, slot := o.slot, always := true, chk := barChk o block } act s = .next (act e) :=
  run_go h (.inr rfl) hslot rfl rfl (barChk_none hslot hh hsc hlast) rfl

theorem exec_bar (hlast : e.w.pos + 1 = e.cl.count) : exec (.bar o) s = .next (if e.f.held.isSome then e.retire []
    else if e.w.arrived o.scope then e.hold 3 else (e.arrive o.scope true).block (.bar o.scope) 3) :=
  run_barrier hslot h hh hsc (fun _ => hlast) _

theorem exec_bara : exec (.bara o) s = .next (if e.w.arrived o.scope then e.hold 3 else (e.arrive o.scope false).fixed 4 [] []) :=
  run_barrier hslot h hh hsc (fun hb => absurd hb (by decide)) _

theorem exec_barw_passes (hlast : e.w.pos + 1 = e.cl.count) (hfree : (e.w.bar o.scope).arr = 0 ∨ e.f.held ≠ none) :
    exec (.barw o) s = .next (({ e with w := e.w.takesUp o.scope } : Env).retire []) := by
  refine (run_barrier hslot h hh hsc (fun _ => hlast) _).trans ?_
  have hpass : e.f.held.isSome = true ∨ (e.w.bar o.scope).arr = 0 := hfree.symm.imp_left fun hheld => Option.isSome_iff_ne_none.2 hheld
  dsimp only
  rw [if_pos hpass]
  rfl

theorem exec_barw_blocks (hlast : e.w.pos + 1 = e.cl.count) (hheld : e.f.held = none) (harr : (e.w.bar o.scope).arr ≠ 0) :
    exec (.barw o) s = .next (({ e with
      w := { e.w with restart := none }.putBar { e.w.bar o.scope with wait := (e.w.bar o.scope).wait ||| e.f.mask } } : Env).block (.bar o.scope) 3) := by
  refine (run_barrier hslot h hh hsc (fun _ => hlast) _).trans ?_
  dsimp only
  rw [if_neg fun hpass => hpass.elim (by simp [hheld]) harr]

end

/-- A fragment that blocks at a barrier, and the masks that it leaves. -/
theorem Blocks.at_bar {s t : State} {e : Env} {sc : Scope} {b : WBar} (h : Blocks s t e (.bar sc)) (hb : e.w.bar sc = b) :
    ∃ w' f', t.wave? e.w.key = some w' ∧ w'.bar sc = b ∧ w'.restart = e.w.restart ∧ w'.frags[e.w.cur]? = some f'
      ∧ f'.blocked = some (.bar sc) ∧ w'.regs = e.w.regsEnd := by
  obtain ⟨w', f', hw', hf', hblocked, -, hrest⟩ := h.wave
  refine ⟨w', f', hw', ?_, by rw [hrest], hf', by rw [hblocked], by rw [hrest]⟩
  rw [← hb]
  exact Wave.bar_congr (by rw [hrest]) sc

/-- Settles O27, by what each barrier instruction does once its checks have passed. -/
theorem barrierResults : Obligations.BarrierResults := by
  unfold Obligations.BarrierResults
  intro o s e hslot
  refine ⟨fun hh henv hcls hblocks i hi => exec_barriers_handler hslot hh henv hcls hblocks hi, ?_⟩
  intro h hh hsc hstep b known last taken
  have hf := State.env_found h.env
  obtain rfl := hf.state
  obtain ⟨hloc, hcall⟩ := h.quiet
  refine ⟨fun hlast hheld harr => ?_, fun hlast hheld => ?_, fun hlast hheld harr => ?_, fun harr => ?_, fun harr => ?_, fun hlast hfree => ⟨?_, ?_⟩,
    fun hlast hheld harr => ?_⟩
  · rw [exec_bar hslot h hh hsc hlast, if_neg (by simp [hheld]), if_neg (by simp [harr])]
    have hblock := block_blocks (S := e.s) (e := e.arrive o.scope true) hstep hf.frag hloc (.bar o.scope) 3
    obtain ⟨w', f', hw', hbar, hrestart, hfrag, hblocked, hregs⟩ := hblock.at_bar (Wave.bar_putBar (e.w.bar_scope o.scope))
    exact ⟨_, w', f', rfl, hw', hbar, hrestart, hfrag, hblocked, hregs⟩
  · rw [exec_bar hslot h hh hsc hlast, if_pos (Option.isSome_iff_ne_none.2 hheld)]
    exact ⟨_, rfl, retire_retires (S := e.s) hcall hf.clause hloc⟩
  · rw [exec_bar hslot h hh hsc hlast, if_neg (by simp [hheld]), if_pos harr, hold_putWave hstep]
  · rw [exec_bara hslot h hh hsc, if_neg (by simp [harr])]
    have hret := effectless_retires (S := e.s) (e := e.arrive o.scope false) hcall hf.clause hloc (h.rank (by decide)) 4 []
    exact ⟨_, rfl, hret.of_late⟩
  · rw [exec_bara hslot h hh hsc, if_pos harr, hold_putWave hstep]
  · have htaken : taken = e.w.takesUp o.scope := by
      simp only [taken]
      rw [Wave.takesUp_eq, Wave.learn_eq]
    have hret := retire_retires (S := e.s) (e := { e with w := e.w.takesUp o.scope }) (by rw [Wave.takesUp_eq]; exact hcall)
      (by rw [Wave.takesUp_eq]; exact hf.clause) (by rw [Wave.takesUp_eq]; exact hloc)
    have hregs : (e.w.takesUp o.scope).regsEnd = e.w.regsEnd := by
      rw [Wave.takesUp_eq]
      rfl
    rw [htaken, ← hregs]
    exact ⟨_, exec_barw_passes hslot h hh hsc hlast hfree, hret⟩
  · intro p hp hpsc n hn
    exact (e.w.passedAt_knows hp hpsc hn).trans fun k hk => e.w.learn_knows hk
  · have hblock := block_blocks (S := e.s) (e := { e with
      w := { e.w with restart := none }.putBar { e.w.bar o.scope with wait := (e.w.bar o.scope).wait ||| e.f.mask } }) hstep hf.frag hloc
      (.bar o.scope) 3
    obtain ⟨w', f', hw', hbar, -, hfrag, hblocked, hregs⟩ := hblock.at_bar (Wave.bar_putBar (e.w.bar_scope o.scope))
    exact ⟨_, w', f', exec_barw_blocks hslot h hh hsc hlast hheld harr, hw', hbar, hfrag, hblocked, hregs⟩

end Sys2Proof.Machine
end

section
/-! SUPPORT. Waits on tags and handles, what they come to, and the tag and handle results (R120, R159, R172, R302 to R304): O41. -/

namespace Sys2Proof.Machine

/-! ### Handles and lanes -/

@[simp] theorem hClass_eq (h : Word) : hClass h = h.toNat / 2 ^ 28 := by
  have := h.isLt
  rw [hClass, BitVec.extractLsb'_toNat, Nat.shiftRight_eq_div_pow]
  omega

@[simp] theorem hTag_eq (h : Word) : hTag h = h.toNat / 2 ^ 22 % 64 := by
  rw [hTag, BitVec.extractLsb'_toNat, Nat.shiftRight_eq_div_pow]

theorem getLsbD_laneBit {k j : Nat} (hj : j < 64) : (laneBit k).getLsbD j = decide (j = k) := by
  rw [laneBit, BitVec.getLsbD_shiftLeft, show (1 : DWord) = 1#64 from rfl, BitVec.getLsbD_one]
  simp only [hj, decide_true, Bool.true_and]
  by_cases hlt : j < k
  · simp [hlt, hlt.ne]
  · simp only [hlt, decide_false, Bool.not_false, Bool.true_and]
    exact decide_eq_decide.2 (by omega)

/-! ### What a wait comes to (R302) -/

section
variable (t : Team)

/-- The last command of a tag ended in FAULT. -/
def Team.Failed (k : Nat) : Prop := (t.tag k).busy = false ∧ (t.tag k).status = 3

/-- The trap that such a command brings on a wait that consumes its tag. -/
def Team.faultOf (k : Nat) : Trap :=
  { cause := (t.tag k).cause, faddr := (t.tag k).faddr, access := (t.tag k).access
    fword := BitVec.ofNat 32 (if (t.tag k).cause = 0x0F then (t.tag k).ecc else k) }

theorem Team.failed_iff (m : DWord) (k : Nat) :
    (bit m k && !(t.tag k).busy && (t.tag k).status == 3) = true ↔ m.getLsbD k = true ∧ t.Failed k := by
  simp [Team.Failed, and_assoc]

theorem Team.faulted_none {m : DWord} (h : ∀ k < 64, m.getLsbD k = true → ¬t.Failed k) : t.faulted m = none := by
  rw [Team.faulted, Option.map_eq_none_iff, List.find?_eq_none]
  intro k hk
  rw [t.failed_iff m k]
  exact fun hf => h k (List.mem_range.1 hk) hf.1 hf.2

theorem Team.faulted_lowest {m : DWord} {k : Nat} (hk : k < 64) (hm : m.getLsbD k = true) (hf : t.Failed k)
    (hlow : ∀ j < k, m.getLsbD j = true → ¬t.Failed j) : t.faulted m = some (t.faultOf k) := by
  have hfind : ((List.range 64).find? fun k => bit m k && !(t.tag k).busy && (t.tag k).status == 3) = some k := by
    refine List.find?_range_eq_some.2 ⟨(t.failed_iff m k).2 ⟨hm, hf⟩, List.mem_range.2 hk, fun j hj => ?_⟩
    rw [Bool.not_eq_true', Bool.eq_false_iff, Ne, t.failed_iff m j]
    exact fun hj' => hlow j hj hj'.1 hj'.2
  rw [Team.faulted, hfind, Option.map_some, Team.faultOf, apply_ite (BitVec.ofNat 32)]
  rfl

theorem TagSt.mem_upTo {x : TagSt} {g q : Nat} (h : (g, q) ∈ x.seqs) : q ∈ x.upTo g := by
  rw [TagSt.upTo, List.mem_map]
  refine ⟨(g, q), ?_, rfl⟩
  have hall := List.takeWhile_append_dropWhile (p := fun y : Nat × Nat => y.1 != g) (l := x.seqs.reverse)
  have hmem : (g, q) ∈ x.seqs.reverse := List.mem_reverse.2 h
  rw [← hall, List.mem_append] at hmem
  refine hmem.resolve_left fun htake => ?_
  simpa using List.mem_takeWhile_imp htake

theorem Team.mem_seqsOf {m : DWord} {k q : Nat} (hk : k < 64) (hm : m.getLsbD k = true)
    (h : ((t.tag k).gen.toNat, q) ∈ (t.tag k).seqs) : q ∈ t.seqsOf m := by
  rw [Team.seqsOf, List.mem_flatMap]
  exact ⟨k, mem_lanesOf.2 ⟨hk, hm⟩, TagSt.mem_upTo h⟩

/-- A wait that consumes the tags of a mask: the commands that it shows complete, and the fault of the lowest tag that has one. -/
structure Team.Consumes (m : DWord) (x : Passed) : Prop where
  shows : ∀ k < 64, m.getLsbD k = true → ∀ q, ((t.tag k).gen.toNat, q) ∈ (t.tag k).seqs → q ∈ x.seqs
  clean : (∀ k < 64, m.getLsbD k = true → ¬t.Failed k) → x.trap = none
  faults : ∀ k < 64, m.getLsbD k = true → t.Failed k → (∀ j < k, m.getLsbD j = true → ¬t.Failed j) → x.trap = some (t.faultOf k)

theorem Team.consumes (m : DWord) : t.Consumes m { seqs := t.seqsOf m, trap := t.faulted m } :=
  ⟨fun _ hk hm _ hq => t.mem_seqsOf hk hm hq, t.faulted_none, fun _ hk hm hf hlow => t.faulted_lowest hk hm hf hlow⟩

theorem Team.passes_null : t.passes (.handle 0) = {} := by
  have hzero : t.faulted 0 = none := t.faulted_none fun k _ hk => absurd hk (by simp)
  simp only [Team.passes, Team.seqOf, Team.uses, if_pos, true_or, hzero]

variable {h : Word}

theorem Team.passes_handle_seqs (h0 : h ≠ 0) {q : Nat} (hq : ((hGen h).toNat, q) ∈ (t.tag (hTag h)).seqs) : q ∈ (t.passes (.handle h)).seqs := by
  rw [Team.passes, Team.seqOf, if_neg h0]
  exact TagSt.mem_upTo hq

theorem Team.passes_handle_clean (hno : hGen h ≠ (t.tag (hTag h)).gen ∨ ¬t.Failed (hTag h)) : (t.passes (.handle h)).trap = none := by
  refine t.faulted_none fun k hk hbit hf => ?_
  rw [Team.uses] at hbit
  split at hbit
  · simp at hbit
  · next hlive =>
    rw [not_or, not_not] at hlive
    rw [getLsbD_laneBit hk, decide_eq_true_eq] at hbit
    rw [hbit] at hf
    exact hno.elim (fun hgen => hgen hlive.2) fun hok => hok hf

theorem Team.passes_handle_faults (h0 : h ≠ 0) (hgen : hGen h = (t.tag (hTag h)).gen) (hf : t.Failed (hTag h)) :
    (t.passes (.handle h)).trap = some (t.faultOf (hTag h)) := by
  have hlt : hTag h < 64 := by
    rw [hTag_eq]
    exact Nat.mod_lt _ (by omega)
  have huses : t.uses h = laneBit (hTag h) := by
    rw [Team.uses, if_neg]
    rw [not_or, not_not]
    exact ⟨h0, hgen⟩
  refine t.faulted_lowest hlt ?_ hf fun j hj hbit => ?_
  · rw [huses, getLsbD_laneBit hlt]
    simp
  · rw [huses, getLsbD_laneBit (hj.trans hlt), decide_eq_true_eq] at hbit
    omega

end

/-! ### Waits that end, and waits that block (R120, R172) -/

section
variable {s : State} {e : Env}

theorem State.mem_waited {y : Write} {seqs : List Nat} {q : Nat} (hy : y ∈ s.hist) (hq : q ∈ seqs) (hc : y.cmd = some q) :
    ({ id := y.id, paths := 1 } : Known) ∈ s.waited seqs := by
  unfold State.waited
  refine List.mem_append_left _ (List.mem_map.2 ⟨y, List.mem_filter.2 ⟨hy, ?_⟩, rfl⟩)
  simpa [hc] using hq

/-- A wait that comes to `x` ends: the wave learns of the commands' writes, and goes on or traps (R172). -/
def Ends (s : State) (e : Env) (i : Instr) (x : Passed) : Prop := ∃ known,
  (∀ n ∈ e.w.known, ∃ m ∈ known, m.id = n.id ∧ m.paths &&& n.paths = n.paths)
  ∧ (∀ y ∈ s.hist, (∃ q ∈ x.seqs, y.cmd = some q) → ∃ m ∈ known, m.id = y.id ∧ m.paths.getLsbD 0 = true)
  ∧ (x.trap = none → ∃ t, exec i s = .next t ∧ Retires s t { e with w := { e.w with known } } e.w.regsEnd s.teams)
  ∧ ∀ tr, x.trap = some tr → exec i s = .next
      (s.raise ({ e.w with known }.setFrag e.w.cur fun f => { f with past := none }) { tr with pos := e.w.pos })

theorem ends_goPast {i : Instr} {x : Passed} (hf : Found? s e) (hq : e.w.quiet) (hexec : exec i s = .next (e.goPast x)) : Ends s e i x := by
  obtain rfl := hf.state
  obtain ⟨hloc, hcall⟩ := hq
  refine ⟨(e.w.learn (e.s.waited x.seqs)).known, fun n hn => e.w.learn_keeps _ hn, ?_, fun htrap => ?_, fun tr htrap => ?_⟩
  · rintro y hy ⟨q, hq, hc⟩
    obtain ⟨m, hm, hid, hpaths⟩ := e.w.learn_knows (State.mem_waited hy hq hc)
    refine ⟨m, hm, hid, ?_⟩
    have hbit := congrArg (·.getLsbD 0) hpaths
    simpa using hbit
  · refine ⟨_, hexec, ?_⟩
    unfold Env.goPast
    rw [htrap, Wave.learn_eq]
    exact retire_retires (S := e.s) (e := { e with w := { e.w with known := _ } }) hcall hf.clause hloc
  · rw [hexec]
    unfold Env.goPast
    rw [htrap, Wave.learn_eq]
    rfl

variable {k : Slot} {reads : List Nat}

theorem blocks_ready {i : Instr} {x : Wait} {reason : Nat} (h : Ready s e .asy k reads []) (hexec : exec i s = .next (e.block x reason))
    (hstep : e.w.stepping = none) : ∃ t, exec i s = .next t ∧ Blocks s t e x := by
  have hf := State.env_found h.env
  obtain rfl := hf.state
  exact ⟨_, hexec, block_blocks (S := e.s) hstep hf.frag h.quiet.1 x reason⟩

theorem tagMask_ok {a : MSSrc} (hready : ∀ y, a = .sc y → e.hReady [y]) (hlt : (e.msrd a).toNat < 2 ^ e.l.p.ntags) :
    e.tagMask a = .ok (e.msrd a) := by
  have hread : (match a with | .sc y => e.hRead [y] | _ => none) = none := by
    cases a with
    | m n => rfl
    | sc y => exact hready y rfl
  unfold Env.tagMask
  split
  · next r hr => exact absurd (hread.symm.trans hr) (by simp)
  · rw [if_neg (by simpa [Nat.div_eq_zero_iff] using hlt)]

theorem handleBad_none {l : Launch} {h : Word} (hgood : h = 0 ∨ (h.toNat / 2 ^ 28 = 1 ∨ h.toNat / 2 ^ 28 = 3) ∧ h.toNat / 2 ^ 22 % 64 < l.p.ntags) :
    l.handleBad h = none := by
  unfold Launch.handleBad
  split
  · rfl
  · next h0 =>
    obtain ⟨hclass, htag⟩ := hgood.resolve_left h0
    rw [hClass_eq, hTag_eq, if_neg (by omega), if_neg (by omega)]

/-- A handle that is not complete is that of a command in flight (R147). -/
theorem complete_false {t : Team} {h : Word} : t.complete h = false ↔ h ≠ 0 ∧ hGen h = (t.tag (hTag h)).gen ∧ (t.tag (hTag h)).busy = true := by
  unfold Team.complete
  generalize hTag h = k
  simp [and_assoc]

theorem exec_twany (o : TMask) (s : State) : exec (.twany o) s = tagWaitOp o (fun t m => m == 0 || (t &&& m) != 0) .tagAny s := rfl

theorem exec_twall (o : TMask) (s : State) : exec (.twall o) s = tagWaitOp o (fun t m => (t &&& m) == m) .tagAll s := rfl

section
variable {o : TMask} (h : Ready s e .asy o.slot (247 :: o.a.num) []) (hany : e.anylane o.slot = true) (hlast : e.w.pos + 1 = e.cl.count)
include h hany hlast

theorem run_tagWait (act : Env → State) :
    run { cls := some .asy, slot := o.slot, reads := tagsNum :: o.a.num, chk := lastChk } act s = .next (act e) :=
  run_go h (.inr rfl) rfl rfl rfl (by simp [lastChk, hlast]) (by simpa [Spec.acts] using hany)

theorem tagWait_past {x : Passed} (hpast : e.f.past = some x) (ok : DWord → DWord → Bool) (w : DWord → Wait) :
    tagWaitOp o ok w s = .next (e.goPast x) := by
  unfold tagWaitOp
  rw [run_tagWait h hany hlast]
  simp only [hpast]

variable (hpast : e.f.past = none) (hready : ∀ y, o.a = .sc y → e.hReady [y]) (hlt : (e.msrd o.a).toNat < 2 ^ e.l.p.ntags)
include hpast hready hlt

theorem tagWait_now {ok : DWord → DWord → Bool} (hok : ok e.t.tags (e.msrd o.a) = true) (w : DWord → Wait) :
    tagWaitOp o ok w s = .next (e.goPast (e.t.passes (w (e.msrd o.a)))) := by
  unfold tagWaitOp
  rw [run_tagWait h hany hlast]
  simp only [hpast, tagMask_ok hready hlt, hok, if_true]

theorem tagWait_blocks {ok : DWord → DWord → Bool} (hok : ok e.t.tags (e.msrd o.a) = false) (w : DWord → Wait) :
    tagWaitOp o ok w s = .next (e.block (w (e.msrd o.a)) 2) := by
  unfold tagWaitOp
  rw [run_tagWait h hany hlast]
  simp only [hpast, tagMask_ok hready hlt, hok, Bool.false_eq_true, if_false]

end

section
variable {o : HOp} (h : Ready s e .asy o.slot (hnum o.h) []) (hany : e.anylane o.slot = true)
include h hany

theorem run_hwait (hlast : e.w.pos + 1 = e.cl.count) (act : Env → State) :
    run { cls := some .asy, slot := o.slot, reads := hnum o.h, chk := lastChk } act s = .next (act e) :=
  run_go h (.inr rfl) rfl rfl rfl (by simp [lastChk, hlast]) (by simpa [Spec.acts] using hany)

theorem exec_hwait_past (hlast : e.w.pos + 1 = e.cl.count) {x : Passed} (hpast : e.f.past = some x) :
    exec (.hwait o) s = .next (e.goPast x) := by
  change execHwait o s = _
  unfold execHwait
  rw [run_hwait h hany hlast]
  simp only [hpast]

theorem exec_hwait (hlast : e.w.pos + 1 = e.cl.count) (hpast : e.f.past = none) (hgood : e.l.handleBad (cget e.r.h o.h.val) = none) :
    exec (.hwait o) s = .next (if e.t.complete (cget e.r.h o.h.val) then e.goPast (e.t.passes (.handle (cget e.r.h o.h.val)))
      else e.block (.handle (cget e.r.h o.h.val)) 1) := by
  change execHwait o s = _
  unfold execHwait
  rw [run_hwait h hany hlast]
  simp only [hpast, hgood]

/-- A team with the copy of a handle in flight marked to stop (R304). -/
def Team.cancel (t : Team) (h : Word) : Team :=
  { t with cmds := t.cmds.map fun c => if c.tag = hTag h ∧ c.bank = none then { c with cancel := true } else c }

theorem exec_hcancel (hgood : e.l.handleBad (cget e.r.h o.h.val) = none) : exec (.hcancel o) s = .next (
    if e.t.complete (cget e.r.h o.h.val) then e.fixed 4 [] []
    else ({ e with s := e.s.putTeam (e.t.cancel (cget e.r.h o.h.val)) } : Env).fixed 4 [] []) := by
  refine (run_go h (.inr rfl) rfl rfl rfl rfl (by simpa [Spec.acts] using hany)).trans ?_
  simp only [hgood, Team.cancel, Bool.and_eq_true, beq_iff_eq, Option.isNone_iff_eq_none]

end

/-! ### Results (R302 to R304) -/

/-- A register instruction whose value reaches a scalar destination. -/
theorem regOp_put {p : Spec} {body : Env → Res} {d : SDst} {v : DWord} {c : Cls} {k : Slot} {reads writes : List Nat}
    (h : Ready s e c k reads writes) (hc : p.cls = none ∨ p.cls = some c) (hk : p.slot = k) (hr : p.seen = reads) (hw : p.writes = writes)
    (hchk : p.chk e = none) (hl : p.acts e = true) (hm : c ≠ .mem) (hlat : p.lat = 4) (hv : d.takes v)
    (hb : ∀ effs, d.put v = some effs → body e = .ok effs []) :
    ∃ t, regOp p body s = .next t ∧ Retires s t e (e.w.regsEnd.putS d v) (d.teams s e v) := by
  obtain ⟨effs, hput⟩ := SDst.put_takes hv
  have hexec : regOp p body s = .next (e.fixed 4 (p.writes ++ []) effs) := by
    unfold regOp
    rw [run_go h hc hk hr hw hchk hl]
    simp only [hb effs hput, hlat]
  refine ⟨_, hexec, ?_⟩
  rw [← SDst.put_regs hput]
  by_cases hw : ∃ n, d = .w n
  · obtain ⟨n, rfl⟩ := hw
    simp only [SDst.put, Option.some.injEq] at hput
    rw [← hput]
    exact fixed_retires_wreg h hm _ (by omega) _ n _
  · have hw' : ∀ n, d ≠ .w n := fun n hn => hw ⟨n, hn⟩
    have hret := fixed_retires h hm 4 (by omega) (p.writes ++ []) effs (SDst.put_local hput hw') (SDst.put_noTake hput)
    have hteams : d.teams s e v = s.teams := by
      cases d with
      | w n => exact absurd rfl (hw' n)
      | _ => rfl
    rwa [hteams]

/-- The lowest set tag bit, as TFFR gives it. -/
def lowestTag (m : DWord) : DWord := match (List.range 64).find? (bit m) with | some k => BitVec.ofNat 64 k | none => 64

theorem lowestTag_zero : lowestTag 0 = 64 := by
  decide

theorem lowestTag_of_ne {m : DWord} (h : m ≠ 0) :
    (lowestTag m).toNat < 64 ∧ m.getLsbD (lowestTag m).toNat = true ∧ ∀ k < (lowestTag m).toNat, m.getLsbD k = false := by
  unfold lowestTag
  split
  · next k hk =>
    obtain ⟨hbit, hlt, hlow⟩ := List.find?_range_eq_some.1 hk
    have hlt := List.mem_range.1 hlt
    have hnat : (BitVec.ofNat 64 k).toNat = k := by
      rw [BitVec.toNat_ofNat]
      omega
    rw [hnat]
    exact ⟨hlt, hbit, fun j hj => by simpa using hlow j hj⟩
  · next hnone =>
    refine absurd (BitVec.eq_of_getLsbD_eq fun i hi => ?_) h
    simpa using List.find?_range_eq_none.1 hnone i hi

theorem lowestTag_le (m : DWord) : (lowestTag m).toNat ≤ 64 := by
  by_cases h : m = 0
  · rw [h, lowestTag_zero]
    decide
  · exact (lowestTag_of_ne h).1.le

theorem SDst.takes_of_le {d : SDst} {v : DWord} (h : v.toNat ≤ 64) : d.takes v := by
  cases d with
  | mvc => exact h
  | mrp => exact h
  | _ => trivial

/-- HTEST's result, field by field (R303). -/
theorem htest_eq (t : Team) (h : Word) : t.htest h = if h = 0 then 1
    else if hGen h ≠ (t.tag (hTag h)).gen then BitVec.ofNat 64 (128 + 16 * hClass h + 1)
    else BitVec.ofNat 64 (256 * t.bytesDone (hTag h) + 16 * hClass h + if (t.tag (hTag h)).busy then 0 else (t.tag (hTag h)).status) := by
  unfold Team.htest
  simp only [Nat.mul_comm]

/-- The newest effects land in the teams alone: the instruction retires, and the teams are as those leave them once they are due (R126). -/
theorem fixed_lands {S' : State} {c : Cls} {k : Slot} {reads writes : List Nat} (h : Ready s e c k reads writes) (hm : c ≠ .mem)
    (lat : Nat) (hlat : 4 ≤ lat) (wr : List Nat) (effs : List Eff) (htake : ∀ x ∈ effs, x.noTake = true)
    (hS : S' = { s with teams := S'.teams })
    (hlands : ∀ v : Wave, v.team = e.w.team → effs.foldl (fun a x => landEff a.1 a.2 (e.w.pos + lat) x) (s, v) = (S', v)) :
    Retires s (e.fixed lat wr effs) e (e.w.regsEnd.putAll effs) S'.teams lat := by
  have hf := State.env_found h.env
  obtain ⟨hloc, hcall⟩ := h.quiet
  obtain ⟨p, hp⟩ : ∃ p : Pend, p = { pos := e.w.pos, due := e.w.pos + lat, effs, dsts := wr } := ⟨_, rfl⟩
  have hregs := regsEnd_ready h hm lat hlat wr effs htake
  rw [← hp] at hregs
  obtain ⟨B, hB, ⟨w', hw', hr, hwent⟩, hothers, hrest, hcores⟩ := advance_newest (s := s) (S' := S')
    (w := { e.w with pend := e.w.pend ++ [p] }) e.c hcall hf.clause rfl (by rw [hp]; dsimp only; omega) hloc (by rw [hS])
    (by rw [hp]; exact hlands)
  have hends := clauseEnds_pend s e.w p (by rw [hp]; rfl)
  replace hB : B = if s.lands e.w lat then S' else s := by
    rw [hB, hends, hp]
    rfl
  have hfixed : e.fixed lat wr effs = s.advance e.c { e.w with pend := e.w.pend ++ [p] } := by
    rw [hp, Env.fixed, Env.retire, hf.state]
  rw [hfixed]
  have hBt : B.teams = if s.lands e.w lat then S'.teams else s.teams := by
    rw [hB]
    split <;> rfl
  have hBs : B = { s with teams := B.teams } := by
    rw [hB]
    split
    · exact hS
    · rfl
  refine ⟨⟨w', hw', hr.trans hregs, ⟨hwent.masks, hwent.rest⟩⟩, fun j hj => ?_, ?_, ?_, fun hn => ?_⟩
  · rw [hothers j hj, hBs]
    rfl
  · rw [hrest, ← hBt]
  · rw [hrest, hBs]
  · rw [hcores hn, hBs]

end

/-! ### The tag and handle instructions -/

section
variable {s : State} {e : Env}

theorem landEff_tclr {v : Wave} {tm : Team} {m : DWord} {due : Nat} (ht : s.team? v.team = some tm) :
    landEff s v due (.tclr m) = (s.putTeam { tm with tags := tm.tags &&& ~~~m }, v) := by
  unfold landEff
  simp only [ht]

/-- TCLR's entry pends on the wave, or the team's bits are clear. -/
theorem exec_tclr {o : TMask} (h : Ready s e .asy o.slot o.a.num [247]) (hany : e.anylane o.slot = true)
    (hready : ∀ y, o.a = .sc y → e.hReady [y]) (hlt : (e.msrd o.a).toNat < 2 ^ e.l.p.ntags) :
    ∃ t w', exec (.tclr o) s = .next t
      ∧ Retires s t e e.w.regsEnd (s.putTeam { e.t with tags := e.t.tags &&& ~~~(e.msrd o.a) }).teams
      ∧ t.wave? e.w.key = some w'
      ∧ (s.lands e.w 4 = false → ({ pos := e.w.pos, due := e.w.pos + 4, effs := [.tclr (e.msrd o.a)], dsts := [247] } : Pend) ∈ w'.pend)
      ∧ (s.lands e.w 4 = true → t.team? e.t.key = some { e.t with tags := e.t.tags &&& ~~~(e.msrd o.a) }) := by
  have hf := State.env_found h.env
  obtain ⟨tm, htm⟩ : ∃ tm : Team, tm = { e.t with tags := e.t.tags &&& ~~~(e.msrd o.a) } := ⟨_, rfl⟩
  have hkey : tm.key = e.t.key := by rw [htm]
  have hexec : exec (.tclr o) s = .next (e.fixed 4 [247] [.tclr (e.msrd o.a)]) := by
    change execTclr o s = _
    unfold execTclr regOp
    rw [run_go h (.inr rfl) rfl rfl rfl rfl (by simpa [Spec.acts] using hany)]
    simp only [tagMask_ok hready hlt]
    rfl
  have hret := fixed_lands (S' := s.putTeam tm) h (by decide) 4 (le_refl 4) [247] [.tclr (e.msrd o.a)] (by simp [Eff.noTake]) rfl
    fun v hv => by
      rw [htm]
      exact landEff_tclr (due := e.w.pos + 4) (show s.team? v.team = some e.t by rw [hv]; exact hf.team)
  obtain ⟨w', hw', -⟩ := hret.wave
  rw [← htm]
  refine ⟨_, w', hexec, hret, hw', fun hno => ?_, fun hyes => ?_⟩
  · obtain ⟨p, hp⟩ : ∃ p : Pend, p = { pos := e.w.pos, due := e.w.pos + 4, effs := [.tclr (e.msrd o.a)], dsts := [247] } := ⟨_, rfl⟩
    obtain ⟨v, hv⟩ : ∃ v : Wave, v = { e.w with pend := e.w.pend ++ [p] } := ⟨_, rfl⟩
    simp only [State.lands, Bool.or_eq_false_iff, decide_eq_false_iff_not] at hno
    have hend : s.clauseEnds v = false := by
      rw [hv, clauseEnds_pend s e.w p (by rw [hp]; rfl)]
      exact hno.1
    have hnext : v.nextPos = e.w.nextPos := by rw [hv]; rfl
    have hland : s.land v v.nextPos = (s, v) := land_none fun q hq => by
      rw [hv, List.mem_append, List.mem_singleton] at hq
      rcases hq with hq | hq
      · exact .inl (h.quiet.1 q hq)
      · refine .inr ?_
        rw [hq, hp, hnext]
        exact Nat.not_le.1 hno.2
    obtain ⟨-, x, hx, hpend, -⟩ := advance_stays e.c hend hland
    have hfixed : e.fixed 4 [247] [.tclr (e.msrd o.a)] = s.advance e.c v := by
      rw [hv, hp, Env.fixed, Env.retire, hf.state]
    have hvkey : v.key = e.w.key := by rw [hv]
    rw [← hfixed, hvkey, hw', Option.some.injEq] at hx
    rw [← hp, hx, hpend, hv]
    simp
  · have hteams := hret.teams
    rw [if_pos hyes] at hteams
    rw [State.team?, hteams, ← hkey]
    exact State.team_putTeam_self s tm

theorem exec_tffr {o : TFfr} (h : Ready s e .asy o.slot (247 :: o.a.num) o.d.num) (hany : e.anylane o.slot = true)
    (hready : ∀ y, o.a = .sc y → e.hReady [y]) (hlt : (e.msrd o.a).toNat < 2 ^ e.l.p.ntags) :
    ∃ t, exec (.tffr o) s = .next t ∧ Retires s t e (e.w.regsEnd.putS o.d (lowestTag (e.t.tags &&& e.msrd o.a)))
      (o.d.teams s e (lowestTag (e.t.tags &&& e.msrd o.a))) := by
  refine regOp_put h (.inr rfl) rfl rfl rfl rfl (by simpa [Spec.acts] using hany) (by decide) rfl
    (SDst.takes_of_le (lowestTag_le _)) fun effs hput => ?_
  simp only [tagMask_ok hready hlt]
  split
  · next effs' hput' => rw [Option.some.inj (hput'.symm.trans hput)]
  · next hput' => exact absurd (hput'.symm.trans hput) (by simp)

theorem exec_htest {o : HTest} (h : Ready s e .asy o.slot (hnum o.h) o.d.num) (hany : e.anylane o.slot = true)
    (hgood : e.l.handleBad (cget e.r.h o.h.val) = none) (hv : o.d.takes (e.t.htest (cget e.r.h o.h.val))) :
    ∃ t, exec (.htest o) s = .next t ∧ Retires s t e (e.w.regsEnd.putS o.d (e.t.htest (cget e.r.h o.h.val)))
      (o.d.teams s e (e.t.htest (cget e.r.h o.h.val))) := by
  refine regOp_put h (.inr rfl) rfl rfl rfl rfl (by simpa [Spec.acts] using hany) (by decide) rfl hv fun effs hput => ?_
  simp only [hgood, hput]

end

/-- Settles O41, by the wait or instruction that each clause names. -/
theorem tagWaitsAndResults : Obligations.TagWaitsAndResults := by
  unfold Obligations.TagWaitsAndResults
  refine ⟨?_, ?_, ?_⟩
  · intro s e hlast mask ends blocks
    have hmask (a : MSSrc) : mask a = e.msrd a := rfl
    refine ⟨fun o h hany => ?_, fun o h hany => ?_⟩
    · have hf := State.env_found h.env
      have hends {i : Instr} {x : Passed} (hexec : exec i s = .next (e.goPast x)) : ends i x := ends_goPast hf h.quiet hexec
      refine ⟨fun x hpast => ⟨?_, ?_⟩, ?_⟩
      · exact hends ((exec_twany o s).trans (tagWait_past h hany hlast hpast _ _))
      · exact hends ((exec_twall o s).trans (tagWait_past h hany hlast hpast _ _))
      intro hpast hready hlt m
      rw [hmask] at hlt
      refine ⟨fun hok => ?_, fun hok => ?_, fun h0 hno hstep => ?_, fun hno hstep => ?_⟩
      · exact hends ((exec_twany o s).trans (tagWait_now h hany hlast hpast hready hlt (by simpa [m, hmask] using hok) _))
      · exact hends ((exec_twall o s).trans (tagWait_now h hany hlast hpast hready hlt (by simpa [m, hmask] using hok) _))
      · exact blocks_ready h ((exec_twany o s).trans (tagWait_blocks h hany hlast hpast hready hlt
          (by simpa [m, hmask] using And.intro h0 hno) _)) hstep
      · exact blocks_ready h ((exec_twall o s).trans (tagWait_blocks h hany hlast hpast hready hlt (by simpa [m, hmask] using hno) _)) hstep
    · have hf := State.env_found h.env
      refine ⟨fun x hpast => ends_goPast hf h.quiet (exec_hwait_past h hany hlast hpast), ?_⟩
      intro hpast w tag hgood live
      have hexec := exec_hwait h hany hlast hpast (handleBad_none hgood)
      have hlive : e.t.complete w = false ↔ live := by
        rw [complete_false, hTag_eq]
        rfl
      refine ⟨fun hno => ends_goPast hf h.quiet ?_, fun hyes => blocks_ready (reason := 1) h ?_⟩
      · rw [hexec, if_pos (by simpa using (not_congr hlive).2 hno)]
      · rw [hexec, if_neg (by rw [hlive.2 hyes]; simp)]
  · intro t failed trap names
    have hnames {m : DWord} {x : Passed} (h : t.Consumes m x) : names m x := ⟨h.shows, h.clean, h.faults⟩
    refine ⟨fun m => ⟨hnames (t.consumes _), hnames (t.consumes m)⟩, ?_⟩
    intro h tag
    refine ⟨fun h0 => ?_, fun h0 q hq => ?_, fun h0 hno => ?_, fun h0 hgen hf => ?_⟩
    · rw [h0, t.passes_null]
    · exact t.passes_handle_seqs h0 (by rw [hTag_eq]; exact hq)
    · exact t.passes_handle_clean (by rw [hTag_eq]; exact hno)
    · have htrap := t.passes_handle_faults h0 (by rw [hTag_eq]; exact hgen) (by rw [hTag_eq]; exact hf)
      rwa [hTag_eq] at htrap
  · intro s e mask good
    have hmask (a : MSSrc) : mask a = e.msrd a := rfl
    refine ⟨fun o h hany hready hlt => ?_, fun o h hany hready hlt => exec_tclr h hany hready hlt, ?_, ?_⟩
    · obtain ⟨t, hexec, hret⟩ := exec_tffr h hany hready hlt
      refine ⟨t, _, hexec, hret, fun h0 => ?_, fun h0 => lowestTag_of_ne h0⟩
      rw [← hmask, h0]
      exact lowestTag_zero
    · intro o h hany w x v hgood hv
      have hval : v = e.t.htest w := by
        rw [htest_eq, hTag_eq, hClass_eq]
        rfl
      rw [hval] at hv ⊢
      exact exec_htest h hany (handleBad_none hgood) hv
    · intro o h hany w tag live hgood
      have hf := State.env_found h.env
      obtain rfl := hf.state
      have hexec := exec_hcancel h hany (handleBad_none hgood)
      have hlive : e.t.complete w = false ↔ live := by
        rw [complete_false, hTag_eq]
        rfl
      have hrets (S : State) := effectless_retires (S := S) h.quiet.2 hf.clause h.quiet.1 (h.rank (by decide)) 4 []
      refine ⟨fun hno => ⟨_, ?_, hrets e.s⟩, fun hyes => ?_⟩
      · rw [hexec, if_pos (by simpa using (not_congr hlive).2 hno)]
      · rw [if_neg (by rw [hlive.2 hyes]; simp), Team.cancel, hTag_eq] at hexec
        exact ⟨_, hexec, hrets _⟩

end Sys2Proof.Machine
end

section
/-! SUPPORT. The frame that trap entry writes, field by field, and the wave that starts the trap image (R131 to R134): O42. -/

namespace Sys2Proof.Machine

/-! ### Parts of a byte string, and what memory holds where the string is written -/

/-- The bytes x stand in b from an offset on. -/
def Part (b : List Byte) (off : Nat) (x : List Byte) : Prop := ∃ p r, b = p ++ x ++ r ∧ p.length = off

theorem Part.trans {b x y : List Byte} {off k : Nat} (hx : Part b off x) (hy : Part x k y) : Part b (off + k) y := by
  obtain ⟨p, r, rfl, rfl⟩ := hx
  obtain ⟨p', r', rfl, rfl⟩ := hy
  exact ⟨p ++ p', r' ++ r, by simp, by simp⟩

theorem Part.flatten {l : List (List Byte)} {i : Nat} {x : List Byte} (h : l[i]? = some x) :
    Part l.flatten ((l.take i).map List.length).sum x := by
  obtain ⟨hi, rfl⟩ := List.getElem?_eq_some_iff.1 h
  refine ⟨(l.take i).flatten, (l.drop (i + 1)).flatten, ?_, by rw [List.length_flatten]⟩
  conv => lhs; rw [← List.take_append_drop i l, List.drop_eq_getElem_cons hi]
  rw [List.flatten_append, List.flatten_cons, List.append_assoc]

theorem Part.get {l : List Byte} {i : Nat} {v : Byte} (h : l[i]? = some v) : Part l i [v] := by
  obtain ⟨hi, rfl⟩ := List.getElem?_eq_some_iff.1 h
  refine ⟨l.take i, l.drop (i + 1), ?_, by simp [hi.le]⟩
  conv => lhs; rw [← List.take_append_drop i l, List.drop_eq_getElem_cons hi]
  simp

theorem Part.mnat {b x : List Byte} {off : Nat} (h : Part b off x) (m : List Host.Cell) (a : Nat) {n : Nat} (hn : x.length = n) :
    mnat (mput m a b) (a + off) n = leNat x := by
  obtain ⟨p, r, rfl, rfl⟩ := h
  subst hn
  have hlen : p.length + x.length ≤ (p ++ x ++ r).length := by simp
  rw [Machine.mnat, ← mbytes_drop_take _ a _ _ _ hlen, mbytes_mput]
  simp

theorem Part.word {b : List Byte} {off n v : Nat} (h : Part b off (le n v)) (m : List Host.Cell) (a : Nat) :
    Machine.mnat (mput m a b) (a + off) n = v % 256 ^ n := by
  rw [h.mnat m a (length_leBytes n v), leNat_leBytes]

/-! ### The wave area's parts (R131, R134) -/

/-- The fields of a frame header, in order, each with its size. -/
def Wave.frameFields (w : Wave) (tr : Trap) (checked : Bool) (tick : Nat) : List (Nat × Nat) :=
  [(2, tr.cause), (1, if tr.cause = causeIllop then tr.detail else 0), (1, (if w.inHandler then 1 else 0) + (if checked then 2 else 0)),
   (4, (w.resumeAt tr).1), (4, (w.resumeAt tr).2.2), (2, (w.resumeAt tr).2.1), (1, w.frags.length), (1, w.cur), (8, w.img.toNat),
   (8, tr.faddr.toNat), (8, tr.fml.toNat), (8, w.regs.exm.toNat), (8, tick), (4, tr.fword.toNat), (1, w.depth), (1, tr.access.toNat),
   (2, 0), (8, w.regs.ret.toNat)]

/-- The sizes of the fields. -/
def frameSizes : List Nat := [2, 1, 1, 4, 4, 2, 1, 1, 8, 8, 8, 8, 8, 4, 1, 1, 2, 8]

section
variable (w : Wave) (tr : Trap) (checked : Bool) (tick : Nat)

theorem Wave.frameFields_sizes : (w.frameFields tr checked tick).map Prod.fst = frameSizes := rfl

theorem Wave.frame_eq : w.frame tr checked tick
    = ((w.frameFields tr checked tick).map (fun p : Nat × Nat => le p.1 p.2) ++ [List.replicate 184 0]).flatten := by
  simp [Wave.frame, Wave.frameFields, bvBytes, -List.reduceReplicate]

theorem Wave.frame_length : (w.frame tr checked tick).length = 256 := by
  simp [Wave.frame, bvBytes, length_leBytes, -List.reduceReplicate]

/-- A field of the frame header stands after the fields before it. -/
theorem Wave.frame_field (i : Nat) {n v : Nat} (h : (w.frameFields tr checked tick)[i]? = some (n, v)) :
    Part (w.frame tr checked tick) (frameSizes.take i).sum (le n v) := by
  have hi : i < (w.frameFields tr checked tick).length := (List.getElem?_eq_some_iff.1 h).1
  have hpart : ((w.frameFields tr checked tick).map (fun p : Nat × Nat => le p.1 p.2) ++ [List.replicate 184 0])[i]? = some (le n v) := by
    rw [List.getElem?_append_left (by simpa using hi), List.getElem?_map, h]
    rfl
  have hoff : ((((w.frameFields tr checked tick).map (fun p : Nat × Nat => le p.1 p.2) ++ [List.replicate 184 0]).take i).map List.length).sum
      = (frameSizes.take i).sum := by
    rw [← w.frameFields_sizes tr checked tick, ← List.map_take, List.take_append_of_le_length (by simpa using hi.le), ← List.map_take, List.map_map]
    exact congrArg List.sum (List.map_congr_left fun p _ => length_leBytes p.1 p.2)
  rw [w.frame_eq, ← hoff]
  exact .flatten hpart

/-- The parts of the area, in order. -/
def Wave.areaParts : List (List Byte) :=
  [w.frame tr checked tick, laneBytes w.blk, laneBytes w.regs.nblk, List.replicate 128 0, (w.frags.map Frag.record).flatten,
   List.replicate (1024 - (w.frags.map Frag.record).flatten.length) 0]

theorem Wave.areaBytes_eq : w.areaBytes tr checked tick = (w.areaParts tr checked tick).flatten := by
  simp [Wave.areaBytes, Wave.areaParts]

@[simp] theorem laneBytes_length (c : Cells 8) : (laneBytes c).length = 64 := by
  simp [laneBytes]

theorem laneBytes_get (c : Cells 8) {l : Nat} (h : l < 64) : (laneBytes c)[l]? = some (cget c l) := by
  simp [laneBytes, h]

theorem Frag.record_length (f : Frag) : f.record.length = 16 := by
  simp [Frag.record, bvBytes, length_leBytes]

theorem Frag.records_length (fs : List Frag) : (fs.map Frag.record).flatten.length = 16 * fs.length := by
  induction fs with
  | nil => rfl
  | cons f fs ih =>
    rw [List.map_cons, List.flatten_cons, List.length_append, f.record_length, ih, List.length_cons]
    omega

theorem Frag.record_mask (f : Frag) : Part f.record 0 (le 8 f.mask.toNat) :=
  ⟨[], _, by rw [Frag.record, bvBytes]; simp only [List.append_assoc, List.nil_append]; rfl, rfl⟩

theorem Frag.record_cp (f : Frag) : Part f.record 8 (le 4 f.cp) :=
  ⟨bvBytes 8 f.mask, _, by rw [Frag.record]; simp only [List.append_assoc]; rfl, length_leBytes 8 _⟩

theorem Wave.area_length (hfrags : w.frags.length ≤ 64) : (w.areaBytes tr checked tick).length = 0x600 := by
  have hrec := Frag.records_length w.frags
  simp only [Wave.areaBytes, List.length_append, List.length_replicate, laneBytes_length, w.frame_length tr checked tick, hrec]
  omega

theorem Wave.area_field (i : Nat) {n v : Nat} (h : (w.frameFields tr checked tick)[i]? = some (n, v)) :
    Part (w.areaBytes tr checked tick) (frameSizes.take i).sum (le n v) := by
  have hframe : Part (w.areaBytes tr checked tick) 0 (w.frame tr checked tick) := by
    rw [w.areaBytes_eq]
    exact .flatten (i := 0) rfl
  simpa using hframe.trans (w.frame_field tr checked tick i h)

/-- A word of the frame, as memory holds it once the area is written. -/
theorem Wave.area_word (m : List Host.Cell) (a i : Nat) {n v x off : Nat} (h : (w.frameFields tr checked tick)[i]? = some (n, v))
    (hoff : (frameSizes.take i).sum = off) (hv : v = x) (hx : x < 256 ^ n) :
    mnat (mput m a (w.areaBytes tr checked tick)) (a + off) n = x := by
  rw [← hoff, (w.area_field tr checked tick i h).word m a, hv, Nat.mod_eq_of_lt hx]

theorem laneBytes_word {b : List Byte} {off : Nat} {c : Cells 8} (h : Part b off (laneBytes c)) {l : Nat} (hl : l < 64)
    (m : List Host.Cell) (a : Nat) : mnat (mput m a b) (a + (off + l)) 1 = (cget c l).toNat := by
  rw [(h.trans (.get (laneBytes_get c hl))).mnat m a (n := 1) rfl]
  simp [leNat]

theorem Wave.area_blk : Part (w.areaBytes tr checked tick) 0x100 (laneBytes w.blk) := by
  have h : Part (w.areaParts tr checked tick).flatten _ (laneBytes w.blk) := .flatten (i := 1) rfl
  rw [w.areaBytes_eq]
  simpa [Wave.areaParts, w.frame_length tr checked tick] using h

theorem Wave.area_nblk : Part (w.areaBytes tr checked tick) 0x140 (laneBytes w.regs.nblk) := by
  have h : Part (w.areaParts tr checked tick).flatten _ (laneBytes w.regs.nblk) := .flatten (i := 2) rfl
  rw [w.areaBytes_eq]
  simpa [Wave.areaParts, w.frame_length tr checked tick] using h

theorem Wave.area_records : Part (w.areaBytes tr checked tick) 0x200 (w.frags.map Frag.record).flatten := by
  have h : Part (w.areaParts tr checked tick).flatten _ (w.frags.map Frag.record).flatten := .flatten (i := 4) rfl
  rw [w.areaBytes_eq]
  simpa [Wave.areaParts, w.frame_length tr checked tick] using h

theorem Wave.area_record {i : Nat} {g : Frag} (h : w.frags[i]? = some g) : Part (w.areaBytes tr checked tick) (0x200 + 16 * i) g.record := by
  have hi : i < w.frags.length := (List.getElem?_eq_some_iff.1 h).1
  have hpart : Part (w.frags.map Frag.record).flatten _ g.record := .flatten (i := i) (by rw [List.getElem?_map, h]; rfl)
  rw [← List.length_flatten, ← List.map_take, Frag.records_length, List.length_take_of_le hi.le] at hpart
  exact (w.area_records tr checked tick).trans hpart

end

/-! ### Where the wave resumes (R133, R134) -/

/-- A cause that resumes after the instruction is none that resumes at it. -/
theorem causeAfter_eq (c : Nat) : causeAfter c = !decide (c ≠ 11 ∧ c ≠ 12 ∧ c ≠ 13 ∧ c ≠ 14) := by
  simp [causeAfter, causeBrk, causeWatch, causeStep, causeSwtrap, Bool.beq_eq_decide_eq, Bool.or_assoc]

/-- The replay bits of one position. -/
theorem oneBit_toNat {p : Nat} (h : p < 16) : ([p].foldl (fun (m : BitVec 16) p => m ||| (1 <<< p)) 0).toNat = 2 ^ p := by
  have hlt : 2 ^ p < 2 ^ 16 := Nat.pow_lt_pow_right (by decide) h
  have hcast : ((1 <<< p : Nat) : BitVec 16).toNat = 2 ^ p := by
    rw [Nat.one_shiftLeft]
    exact (BitVec.toNat_ofNat _ _).trans (Nat.mod_eq_of_lt hlt)
  rw [List.foldl_cons, List.foldl_nil, BitVec.toNat_or, hcast]
  exact Nat.zero_or _

/-- The resume of a wave that re-issues nothing and traps at its own position. -/
theorem Wave.resumeAt_own {w : Wave} {tr : Trap} {f : Frag} {cl : Clause} (hfrag : w.frags[w.cur]? = some f) (hcl : w.clause = some cl)
    (hrep : w.replay = []) (hmore : tr.more = []) (hhd : tr.header = false) (hend : tr.atEnd = false) (hpos : tr.pos = w.pos) (hlt : w.pos < 16) :
    w.resumeAt tr = (f.cp + 8 + 8 * w.pos, if causeAfter tr.cause then 0 else 2 ^ w.pos,
      if w.pos + 1 < cl.count then f.cp + 8 + 8 * (w.pos + 1) else f.cp + 128) := by
  have hne : w.frags ≠ [] := by
    rintro h
    simp [h] at hfrag
  have hoff : w.off = f.cp := by simp only [Wave.off, hfrag]
  have hcount : w.count = cl.count := by simp only [Wave.count, hcl]
  have hmax : max (w.pos + 1) w.pos = w.pos + 1 := Nat.max_eq_left (Nat.le_succ _)
  unfold Wave.resumeAt
  simp only [hne, hhd, hend, hrep, hmore, hoff, hcount, hpos, hmax, posOff, List.tail_nil, List.append_nil, if_false, if_true,
    Bool.false_eq_true]
  cases causeAfter tr.cause with
  | true => rfl
  | false => exact congrArg (fun n => (_, n, _)) (oneBit_toNat hlt)

/-- The words of a frame whose wave re-issues nothing and traps at its own position (R134). -/
theorem Wave.frame_words {w : Wave} {tr : Trap} {f : Frag} {cl : Clause} (hfrag : w.frags[w.cur]? = some f) (hcl : w.clause = some cl)
    (hrep : w.replay = []) (hmore : tr.more = []) (hhd : tr.header = false) (hend : tr.atEnd = false) (hpos : tr.pos = w.pos)
    (hlt : w.pos < 15) (hcp : f.cp < 2 ^ 31) (hcause : tr.cause < 2 ^ 16) (hdetail : tr.detail < 256) (hfrags : w.frags.length ≤ 64)
    (hcur : w.cur < 64) (hdepth : w.depth < 256) (hout : w.inHandler = false) (checked : Bool) (tick : Nat) (m : List Host.Cell) (a : Nat) :
    let word (off n : Nat) : Nat := mnat (mput m a (w.areaBytes tr checked tick)) (a + off) n
    word 0 2 = tr.cause ∧ word 2 1 = (if tr.cause = 1 then tr.detail else 0) ∧ word 3 1 = (if checked then 2 else 0)
    ∧ word 4 4 = f.cp + 8 + 8 * w.pos
    ∧ word 8 4 = (if w.pos + 1 < cl.count then f.cp + 8 + 8 * (w.pos + 1) else f.cp + 128)
    ∧ word 12 2 = (if causeAfter tr.cause then 0 else 2 ^ w.pos) ∧ word 14 1 = w.frags.length ∧ word 15 1 = w.cur
    ∧ word 16 8 = w.img.toNat ∧ word 24 8 = tr.faddr.toNat ∧ word 32 8 = tr.fml.toNat ∧ word 40 8 = w.regs.exm.toNat
    ∧ word 48 8 = tick % 2 ^ 64 ∧ word 56 4 = tr.fword.toNat ∧ word 60 1 = w.depth ∧ word 61 1 = tr.access.toNat
    ∧ word 64 8 = w.regs.ret.toNat := by
  have hres := Wave.resumeAt_own hfrag hcl hrep hmore hhd hend hpos (Nat.lt_succ_of_lt hlt)
  have hflag : (if w.inHandler then 1 else 0) + (if checked then 2 else 0) = if checked then 2 else 0 := by simp [hout]
  have hflag_lt : (if checked then 2 else 0) < 256 ^ 1 := by split <;> decide
  have hdetail_lt : (if tr.cause = causeIllop then tr.detail else 0) < 256 ^ 1 := by split <;> omega
  have hbits : (if causeAfter tr.cause then 0 else 2 ^ w.pos) < 256 ^ 2 := by
    split
    · decide
    · exact (Nat.pow_lt_pow_right Nat.one_lt_two (by omega) : 2 ^ w.pos < 2 ^ 16)
  intro word
  have hfield (i : Nat) {n v x off : Nat} := w.area_word tr checked tick m a i (n := n) (v := v) (x := x) (off := off)
  refine ⟨hfield 0 rfl (by decide) rfl hcause,
    hfield 1 rfl (by decide) rfl hdetail_lt,
    hfield 2 rfl (by decide) hflag hflag_lt,
    hfield 3 rfl (by decide) (congrArg Prod.fst hres) (by omega),
    hfield 4 rfl (by decide) (congrArg (·.2.2) hres) (by split <;> omega),
    hfield 5 rfl (by decide) (congrArg (·.2.1) hres) hbits,
    hfield 6 rfl (by decide) rfl (by omega),
    hfield 7 rfl (by decide) rfl (by omega),
    hfield 8 rfl (by decide) rfl w.img.isLt,
    hfield 9 rfl (by decide) rfl tr.faddr.isLt,
    hfield 10 rfl (by decide) rfl tr.fml.isLt,
    hfield 11 rfl (by decide) rfl w.regs.exm.isLt, ?_,
    hfield 13 rfl (by decide) rfl tr.fword.isLt,
    hfield 14 rfl (by decide) rfl hdepth,
    hfield 15 rfl (by decide) rfl tr.access.isLt,
    hfield 17 rfl (by decide) rfl w.regs.ret.isLt⟩
  exact (w.area_field tr checked tick 12 rfl).word m a

/-! ### Entry -/

theorem Wave.linkOf_cleared {w : Wave} (h : w.links = clearedLinks) {l : Nat} (hl : l < 64) : (w.linkOf l).st = .cleared := by
  have hrange : (List.range 64).find? (fun i => i == l) = some l := by
    refine List.find?_range_eq_some.2 ⟨beq_self_eq_true l, List.mem_range.2 hl, fun j hj => ?_⟩
    simpa using Nat.ne_of_lt hj
  have hfind : clearedLinks.find? (fun k => k.lane == l) = some ⟨l, .cleared, []⟩ := by
    rw [clearedLinks, List.find?_map]
    exact congrArg (Option.map _) hrange
  rw [Wave.linkOf, h, hfind]
  rfl

/-- The wave put back at the trap image's entry (R132 steps 3 to 7). -/
theorem State.settle_enters (S : State) (v : Wave) (tr : Trap) (img : DWord) (h : Header) (b : Found) :
    ∃ w' g, (S.settle (v.enterHandler tr img h b)).wave? v.key = some w' ∧ w'.inHandler = true ∧ w'.img = img ∧ w'.hdr = some h
      ∧ w'.stage = .ready ∧ w'.pos = 0 ∧ w'.frags = [g] ∧ g.mask = ones64 ∧ g.cp = b.first ∧ g.state = b.state ∧ w'.cur = 0
      ∧ (∀ l < 64, cget w'.blk l = BitVec.ofNat 8 h.entry ∧ cget w'.regs.nblk l = BitVec.ofNat 8 h.entry ∧ (w'.linkOf l).st = .cleared)
      ∧ w'.regs = { v.regs with fml := tr.fml, ret := 0, exm := ones64, nblk := w'.regs.nblk } := by
  obtain ⟨⟨w', hw', hshape⟩, -, -, -⟩ := settle_spec S (v.enterHandler tr img h b)
  refine ⟨w', { mask := ones64, cp := b.first, state := b.state, blocks := b.blocks }, hw', ?_⟩
  rw [hshape]
  exact ⟨rfl, rfl, rfl, rfl, rfl, rfl, rfl, rfl, rfl, rfl,
    fun l hl => ⟨cget_allLanes _ hl, cget_allLanes _ hl, Wave.linkOf_cleared rfl hl⟩, rfl⟩

/-- Taking a trap in a wave outside a handler whose trap image has an entry, once its results are due: the frame is written, and the
trap image starts (R132). -/
theorem State.takeTrap_enters {s : State} {w v : Wave} {tr : Trap} {t : Team} {c : Ctx} {cl : Clause} {h : Header} {b : Found}
    (hflush : s.flush w = (s, v)) (ht : s.team? w.team = some t) (hc : s.ctx? t.ctx = some c) (hout : v.inHandler = false)
    (himg : c.trapImg ≠ 0) (htr : s.trSize = 0) (hcl : v.clause = some cl) (hfrags : v.frags ≠ [])
    (hentry : (s.store none (s.areaOf v) (v.areaBytes tr (c.checked || cl.k) s.tick) false).entryOf c c.trapImg = .ok (h, b)) :
    s.takeTrap w tr = (s.store none (s.areaOf v) (v.areaBytes tr (c.checked || cl.k) s.tick) false).settle
      (v.enterHandler tr c.trapImg h b) := by
  have hin : ¬(v.inHandler = true ∨ c.trapImg = 0 ∨ v.frags = []) := by
    rw [hout]
    exact fun h => h.elim Bool.false_ne_true fun h => h.elim himg hfrags
  have htrace (bytes : List Byte) (cause : Nat) : (s.store none (s.areaOf v) bytes false).traceTrap v c.id cause
      = s.store none (s.areaOf v) bytes false := by
    rw [State.traceTrap, State.trace_off (by rw [State.store_trSize, htr])]
  unfold State.takeTrap
  simp only [ht, hc, hflush, hcl, htrace, if_neg hin, hentry]

/-- Settles O42: the frame is the area's first part, each word at its offset, and the wave put back is the one that enters the trap
image. -/
theorem trapEntry : Obligations.TrapEntry := by
  unfold Obligations.TrapEntry
  intro s w tr t c f cl h b hquiet ht hc hout himg htr flat hentry hfrag hcl hrep hmore hhd hend hpos hlt hcount hcp hfrags hcur
    hcause hdetail hdepth at_ u a word
  obtain ⟨hloc, -⟩ := hquiet
  have hne : w.frags ≠ [] := by
    rintro h
    simp [h] at hfrag
  obtain ⟨v, hv⟩ : ∃ v : Wave, v = { w with regs := w.regsEnd, pend := [], late := [] } := ⟨_, rfl⟩
  have hflush : s.flush w = (s, v) := by rw [hv, flush_local hloc]
  have harea : flat.areaBytes tr (c.checked || cl.k) s.tick = v.areaBytes tr (c.checked || cl.k) s.tick := by
    rw [hv]
    rfl
  have ha : s.areaOf v = a := by
    rw [hv]
    rfl
  obtain ⟨bytes, hbytes⟩ : ∃ bytes, bytes = v.areaBytes tr (c.checked || cl.k) s.tick := ⟨_, rfl⟩
  have hu : u = (s.store none a bytes false).settle (v.enterHandler tr c.trapImg h b) := by
    rw [hbytes, ← ha]
    exact State.takeTrap_enters hflush ht hc (by rw [hv]; exact hout) himg htr (by rw [hv]; exact hcl) (by rw [hv]; exact hne)
      (by rw [← harea, ha]; exact hentry)
  have hrest := (settle_spec (s.store none a bytes false) (v.enterHandler tr c.trapImg h b)).2.2.1
  have henters := State.settle_enters (s.store none a bytes false) v tr c.trapImg h b
  rw [← hu] at hrest henters
  have hmem : u.mem = mput s.mem a bytes := by
    rw [hrest]
    rfl
  have hlen : bytes.length = 0x600 := by
    rw [hbytes]
    exact v.area_length tr _ _ (by rw [hv]; exact hfrags)
  have hblk := v.area_blk tr (c.checked || cl.k) s.tick
  have hnblk := v.area_nblk tr (c.checked || cl.k) s.tick
  have hrecord {i : Nat} {g : Frag} := v.area_record tr (c.checked || cl.k) s.tick (i := i) (g := g)
  have hwords := v.frame_words (f := f) (cl := cl) (tr := tr) (by rw [hv]; exact hfrag) (by rw [hv]; exact hcl) (by rw [hv]; exact hrep)
    hmore hhd hend (by rw [hv]; exact hpos) (by rw [hv]; exact Nat.lt_of_lt_of_le hlt hcount) hcp hcause hdetail (by rw [hv]; exact hfrags)
    (by rw [hv]; exact hcur) (by rw [hv]; exact hdepth) (by rw [hv]; exact hout) (c.checked || cl.k) s.tick s.mem a
  have hbit : (if causeAfter tr.cause then 0 else 2 ^ w.pos) = if at_ then 2 ^ w.pos else 0 := by
    rw [causeAfter_eq]
    change (if (!at_) = true then 0 else 2 ^ w.pos) = _
    cases at_ <;> rfl
  simp only [← hbytes, ← hmem] at hblk hnblk hrecord hwords
  rw [hv] at hwords
  obtain ⟨h0, h2, h3, h4, h8, h12, h14, h15, h16, h24, h32, h40, h48, h56, h60, h61, h64⟩ := hwords
  refine ⟨h0, h2, h3, h4, h8, h12.trans hbit, h14, h15, h16, h24, h32, h40, h48, h56, h60, h61, h64, fun l hl => ?_, fun i g hg => ?_,
    fun x hx => ?_, ?_⟩
  · have hb := laneBytes_word hblk hl s.mem a
    have hn := laneBytes_word hnblk hl s.mem a
    rw [← hmem, hv] at hb hn
    exact ⟨hb, hn⟩
  · have hrec := hrecord (i := i) (g := g) (by rw [hv]; exact hg)
    have hm := (hrec.trans g.record_mask).word s.mem a
    have hcp := (hrec.trans g.record_cp).word s.mem a
    rw [← hmem] at hm hcp
    refine ⟨hm.trans (Nat.mod_eq_of_lt g.mask.isLt), ?_⟩
    exact (congrArg (fun x => mnat u.mem (a + x) 4) (by omega : 0x208 + 16 * i = 0x200 + 16 * i + 8)).trans hcp
  · rw [hmem, cget_mput_out _ _ _ _ (by rwa [hlen])]
  · rw [hv] at henters
    exact henters

end Sys2Proof.Machine
end

section
/-! SUPPORT. ERET from its frame to the clause that goes on (R113, R135, R250, R336): O44. -/

namespace Sys2Proof.Machine

/-! ### What ERET reads in a frame (R113, R134) -/

/-- The lanes' blocks that a frame gives, from an offset. -/
def frameLanes (b : List Byte) (off : Nat) : Cells 8 := csetAll [] ((List.range 64).map fun l => (l, BitVec.ofNat 8 (bnat b (off + l) 1)))

/-- The lanes that a frame leaves unhalted. -/
def frameLive (b : List Byte) : DWord := maskList ((List.range 64).filter fun l => (cget (frameLanes b 0x100) l).toNat != 255)

/-- The records of a frame that are valid and hold unhalted lanes, with their places. -/
def frameRecs (b : List Byte) : List (Nat × Frag) :=
  ((List.range (min (bnat b 14 1) 64)).map fun i => (i, recordOf ((b.drop (0x200 + 16 * i)).take 16))).filterMap fun p =>
    let f := { p.2.1 with mask := p.2.1.mask &&& frameLive b }
    if p.2.2 ∧ f.mask ≠ 0 then some (p.1, f) else none

theorem frameLanes_get (b : List Byte) (off : Nat) {l : Nat} (h : l < 64) : (cget (frameLanes b off) l).toNat = bnat b (off + l) 1 := by
  have hget := cget_csetAll_map (List.range 64) ([] : Cells 8) 0 (fun l => BitVec.ofNat 8 (bnat b (off + l) 1)) l (List.mem_range.2 h)
  simp only [Nat.zero_add] at hget
  rw [frameLanes, hget]
  exact (BitVec.toNat_ofNat _ _).trans (Nat.mod_eq_of_lt (bnat_lt b (off + l) 1))

theorem frameLive_eq (b : List Byte) : frameLive b = maskList ((List.range 64).filter fun l => bnat b (0x100 + l) 1 ≠ 255) := by
  refine congrArg maskList (List.filter_congr fun l hl => ?_)
  rw [frameLanes_get b 0x100 (List.mem_range.1 hl), Bool.eq_iff_iff]
  simp

/-- Every unhalted lane in exactly one record, whose state contains its block (R135). -/
theorem lanesOk_frame {b : List Byte} {fs : List Frag} (h : ∀ l < 64, bnat b (0x100 + l) 1 ≠ 255 →
    ∃ g, (fs.filter fun f => f.mask.getLsbD l) = [g] ∧ g.blocks.contains (bnat b (0x100 + l) 1) = true) :
    lanesOk (frameLanes b 0x100) fs = true := by
  refine List.all_eq_true.2 fun l hl => ?_
  have hlt := List.mem_range.1 hl
  rw [frameLanes_get b 0x100 hlt]
  by_cases hb : bnat b (0x100 + l) 1 = 255
  · simp [hb]
  · obtain ⟨g, hg, hin⟩ := h l hlt hb
    simpa [bit, hg] using Or.inr (by simpa using hin)

/-! ### The restored wave (R135, R242, R245, R250) -/

/-- A wave that a frame restores, in the clause line of its fragment i. -/
def Wave.restored (w : Wave) (b : List Byte) (h : Header) (fs : List Frag) (i : Nat) : Wave :=
  { w with
    img := BitVec.ofNat 64 (bnat b 16 8), hdr := some h, blk := frameLanes b 0x100
    regs := { w.regs with exm := BitVec.ofNat 64 (bnat b 40 8), nblk := frameLanes b 0x140, ret := BitVec.ofNat 64 (bnat b 64 8), fml := 0 }
    frags := fs.map w.resumeWait, cur := i, clause := none, pos := 0, trap := none
    stalls := [], inHandler := false, replay := [], cont := 0, redo := none, reason := 0, kept := [], keptCall := none
    yielded := (fs.map (·.cp)).getD i 0 == w.keptCp && w.keptYield, keptYield := false
    call := if (fs.map (·.cp)).getD i 0 == w.keptCp then w.keptCall else none }

@[simp] theorem Wave.resumeWait_shape (w : Wave) (f : Frag) :
    (w.resumeWait f).mask = f.mask ∧ (w.resumeWait f).cp = f.cp ∧ (w.resumeWait f).state = f.state := by
  unfold Wave.resumeWait
  dsimp only
  split <;> exact ⟨rfl, rfl, rfl⟩

/-- With nothing kept, a restored fragment is blocked at a barrier that all its lanes wait for (R250). -/
theorem Wave.resumeWait_blocked {w : Wave} (hkept : w.kept = []) (f : Frag) :
    (w.resumeWait f).blocked.isSome = true ↔ ∃ b ∈ w.bars, f.mask &&& ~~~b.wait = 0 := by
  have hblocked : (w.resumeWait f).blocked = w.barOf f.mask := by
    unfold Wave.resumeWait
    rw [hkept]
    rfl
  rw [hblocked, Wave.barOf, Option.isSome_map, List.find?_isSome]
  simp only [beq_iff_eq]

/-- A list that the split table holds loses no entry (R114). -/
theorem State.fitTable_fits {s : State} {w : Wave} (h : w.frags.length ≤ 8) : s.fitTable w = (s, w) := by
  have hvictim : w.victim = none := by
    unfold Wave.victim
    dsimp only
    refine if_pos ((List.length_filter_le _ _).trans ?_)
    simpa [splitEntries] using h
  unfold State.fitTable
  cases w.frags.length with
  | zero => rfl
  | succ n => simp only [State.spill, hvictim]

/-- ERET whose frame passes every check, back in a clause of its fragment's line: the line is kept, and the wave goes on there (R135). -/
theorem Env.eret_resumes {e : Env} {v : Wave} {b : List Byte} {h : Header} {fs : List Frag} {i : Nat} {bytes : List Byte} {cl : Clause}
    (hflush : e.s.flush e.w = (e.s, v)) (hread : e.s.areaRead (e.s.areaOf v) 0x600 = .ok b) (hone : v.frags.length = 1)
    (hlanes : ∀ l < 64, (cget v.blk l).toNat = 255 ∨ e.f.mask.getLsbD l = true) (hdepth : bnat b 60 1 = v.depth)
    (hh : e.s.header e.c (BitVec.ofNat 64 (bnat b 16 8)) = .ok h)
    (hstates : e.s.frameStates e.c (BitVec.ofNat 64 (bnat b 16 8)) h ((frameRecs b).map (·.2)) = .ok fs)
    (hok : lanesOk (frameLanes b 0x100) fs = true) (hhere : (frameRecs b).findIdx? (fun p => p.1 == bnat b 15 1) = some i)
    (hfit : fs.length ≤ 8) (hwaits : ∀ g, fs[i]? = some g → (v.resumeWait g).blocked = none) (hbits : bnat b 12 2 ≠ 0)
    (hline : e.s.line e.c v.coreNo (BitVec.ofNat 64 (bnat b 16 8)) h ((fs.map (·.cp)).getD i 0) = .ok bytes)
    (hcl : clauseOf ((fs.map (·.cp)).getD i 0) (lineWords bytes) = some cl)
    (hcont : (bnat b 8 4 == (fs.map (·.cp)).getD i 0 + 128 || ((fs.map (·.cp)).getD i 0 + 8 ≤ bnat b 8 4
      && (bnat b 8 4 - (fs.map (·.cp)).getD i 0) % 8 == 0 && (bnat b 8 4 - (fs.map (·.cp)).getD i 0 - 8) / 8 < cl.count)) = true) :
    e.eret = ({ e with s := e.s.keepLine e.c.id v.coreNo (imgAt (BitVec.ofNat 64 (bnat b 16 8)) ((fs.map (·.cp)).getD i 0)) bytes } : Env).resume
      (v.restored b h fs i) cl (bnat b 12 2) (bnat b 8 4) (BitVec.ofNat 64 (bnat b 32 8)) := by
  have hshape : ¬(v.frags.length ≠ 1 ∨ (List.range 64).any (fun l => (cget v.blk l).toNat != 255 && !bit e.f.mask l) = true) := by
    rintro (hlen | hany)
    · exact hlen hone
    · obtain ⟨l, hl, hbad⟩ := List.any_eq_true.1 hany
      have := hlanes l (List.mem_range.1 hl)
      simp only [bit, Bool.and_eq_true, bne_iff_ne, Bool.not_eq_true'] at hbad
      simp [hbad.1, hbad.2] at this
  unfold Env.eret
  simp -zeta only [hflush, hread]
  extract_lets e' img blk nblk live cur recs here place regs bits cont fml
  have hok' : ¬(!lanesOk blk fs) = true := by
    rw [show lanesOk blk fs = true from hok]
    exact Bool.false_ne_true
  have hhere' : here = some i := hhere
  rw [if_neg hshape, if_neg (not_not.2 hdepth)]
  split
  next x hx => cases hh.symm.trans hx
  next h' hx =>
  cases hh.symm.trans hx
  split
  next x hx => cases hstates.symm.trans hx
  next fs' hx =>
  cases hstates.symm.trans hx
  rw [if_neg hok']
  extract_lets w₁ e₁
  have hfit' : e.s.fitTable w₁ = (e.s, w₁) := State.fitTable_fits (by simpa [w₁] using hfit)
  simp -zeta only [hfit', hhere']
  extract_lets off back w₂ waits
  have hw₂ : w₂ = v.restored b h fs i := by
    simp only [w₂, w₁, hhere', Option.getD_some]
    rfl
  have hwaits' : ¬waits = true := by
    simp only [waits, hw₂, Wave.restored, List.getElem?_map]
    cases hg : fs[i]? with
    | none => exact Bool.false_ne_true
    | some g => simp [hwaits g hg]
  change (if bits = 0 ∧ cont = off + 8 then _ else _) = _
  rw [if_neg fun hb => hbits hb.1]
  split
  next x hx => cases hline.symm.trans hx
  next bytes' hx =>
  cases hline.symm.trans hx
  split
  next hx => cases hcl.symm.trans hx
  next cl' hx =>
  cases hcl.symm.trans hx
  have hcont' : ¬(!(cont == off + 128 || (off + 8 ≤ cont && (cont - off) % 8 == 0 && (cont - off - 8) / 8 < cl.count))) = true := by
    rw [show _ = true from hcont]
    exact Bool.false_ne_true
  rw [if_neg hcont', if_neg hwaits', hw₂]
  rfl

/-- A line kept changes no wave, and no memory. -/
@[simp] theorem State.keepLine_waves (s : State) (ctx core : Nat) (va : DWord) (b : List Byte) :
    (s.keepLine ctx core va b).waves = s.waves := rfl

@[simp] theorem State.keepLine_mem (s : State) (ctx core : Nat) (va : DWord) (b : List Byte) :
    (s.keepLine ctx core va b).mem = s.mem := rfl

theorem State.quad_id (s : State) (g : Nat) : (s.quad g).id = g := by
  unfold State.quad
  cases h : s.quads.find? fun x => x.id == g with
  | none => rfl
  | some q => simpa using List.find?_some h

theorem State.quad_putQuad (s : State) (q : Quad) (g : Nat) : (s.putQuad q).quad g = if g = q.id then q else s.quad g := by
  split
  next h => rw [h, s.quad_putQuad_self]
  next h =>
    simp only [State.quad, State.putQuad]
    rw [lput_find_other _ _ _ _ (by simpa using Ne.symm h)]
    intro y hy
    rw [beq_iff_eq] at hy
    simpa [hy] using Ne.symm h

/-- A line kept stops no quad and lets none go on. -/
theorem State.keepLine_stopped (s : State) (ctx core : Nat) (va : DWord) (b : List Byte) (g : Nat) :
    ((s.keepLine ctx core va b).quad g).stopped = (s.quad g).stopped := by
  obtain ⟨ls, hquad⟩ : ∃ ls, (s.keepLine ctx core va b).quad g = (s.putQuad { s.quad (quadOf core) with lines := ls }).quad g := ⟨_, rfl⟩
  rw [hquad, s.quad_putQuad, s.quad_id]
  split
  next h => rw [h]
  next => rfl

/-- A line kept takes no class and frees none (R93). -/
theorem State.keepLine_classTaken (s : State) (ctx core : Nat) (va : DWord) (b : List Byte) (w : Wave) (cls : Cls) :
    (s.keepLine ctx core va b).classTaken w cls = s.classTaken w cls := by
  have hmoves (x : Wave) (ws : List Wave) :
      ({ s.keepLine ctx core va b with waves := ws } : State).moves x = ({ s with waves := ws } : State).moves x := by
    have hstop := s.keepLine_stopped ctx core va b (quadOf x.coreNo)
    unfold State.moves
    exact congrArg (fun q => (s.running && x.place.isSome && (!q || x.stepping.isSome))) hstop
  unfold State.classTaken State.inProgress
  simp only [hmoves, State.keepLine_waves]

/-! ### Going on in the clause (R135) -/

theorem clauseOf_off {off : Nat} {ws : List DWord} {cl : Clause} (h : clauseOf off ws = some cl) : cl.off = off := by
  unfold clauseOf at h
  split at h
  · cases h
  split at h
  · cases h
  dsimp only at h
  split at h
  · cases h
    rfl
  · cases h

/-- Cont as a position of the clause: its end stands for the line's end (R134). -/
def contPos (cl : Clause) (cont : Nat) : Nat := if cont = cl.off + 128 then cl.count else (cont - cl.off - 8) / 8

theorem contPos_off {cl : Clause} {cont : Nat} (h : cont = cl.off + 128 ∨ ∃ p < cl.count, cont = cl.off + 8 + 8 * p) :
    cl.off + 8 + 8 * contPos cl cont = if cont = cl.off + 128 then cl.off + 8 + 8 * cl.count else cont := by
  unfold contPos
  split
  · rfl
  next hne =>
    obtain ⟨p, -, rfl⟩ := h.resolve_left hne
    omega

/-- A wave that goes on at replayed positions issues at the first of them. -/
theorem Wave.onward_first {w : Wave} {cl : Clause} {bits cont : Nat} {fml : DWord} {rep : List Nat}
    (hrep : rep = (List.range cl.count).filter fun p => bits.testBit p) (hne : rep ≠ []) :
    ({ w with clause := some cl } : Wave).onward (bits, cont, fml)
      = { w with clause := some cl, replay := rep, cont, redo := some fml, pos := rep.headD 0, stage := .issue } := by
  have hreplay : ((List.range cl.count).filter fun p => bits / 2 ^ p % 2 == 1) = rep := (onward_replay cl.count bits).trans hrep.symm
  have hhead : rep.headD cont = rep.headD 0 := by
    cases rep with
    | nil => exact absurd rfl hne
    | cons p r => rfl
  have hlt : rep.headD 0 < cl.count := by
    cases hr : rep with
    | nil => exact absurd hr hne
    | cons p r =>
      have hp : p ∈ (List.range cl.count).filter fun p => bits.testBit p := by rw [← hrep, hr]; exact List.mem_cons_self
      exact List.mem_range.1 (List.mem_filter.1 hp).1
  unfold Wave.onward
  simp only [Wave.count, hreplay, hhead, if_neg hne, if_pos hlt]

/-- A wave with positions to replay and a class that is free goes on at once (R93, R135). -/
theorem Env.resume_replays {e : Env} {w : Wave} {cl : Clause} {bits cont : Nat} {fml : DWord} {rep : List Nat}
    (hrep : rep = (List.range cl.count).filter fun p => bits.testBit p) (hne : rep ≠ []) (hfree : e.s.classTaken w cl.cls = false) :
    e.resume w cl bits cont fml = e.s.settle { w with
      clause := some cl, replay := rep, cont := contPos cl cont, redo := some fml, pos := rep.headD 0, stage := .issue } := by
  unfold Env.resume
  dsimp only
  rw [Wave.onward_first hrep hne, if_neg fun h => hne h.1]
  exact if_neg (Bool.eq_false_iff.1 hfree)

theorem Wave.restored_frags (v : Wave) (b : List Byte) (h : Header) (fs : List Frag) (i : Nat) :
    (v.restored b h fs i).frags.map (fun f => (f.mask, f.cp, f.state)) = fs.map fun f => (f.mask, f.cp, f.state) := by
  simp only [Wave.restored, List.map_map]
  refine List.map_congr_left fun f _ => ?_
  obtain ⟨hmask, hcp, hstate⟩ := v.resumeWait_shape f
  simp only [Function.comp, hmask, hcp, hstate]

/-- With nothing kept, the restored fragments blocked at a barrier are those all of whose lanes wait for it (R250). -/
theorem Wave.restored_blocked {v : Wave} (hkept : v.kept = []) {b : List Byte} {h : Header} {fs : List Frag} {i k : Nat} {g : Frag}
    (hg : (v.restored b h fs i).frags[k]? = some g) : g.blocked.isSome = true ↔ ∃ x ∈ v.bars, g.mask &&& ~~~x.wait = 0 := by
  have hmap : (fs.map v.resumeWait)[k]? = some g := hg
  rw [List.getElem?_map, Option.map_eq_some_iff] at hmap
  obtain ⟨f, -, rfl⟩ := hmap
  rw [Wave.resumeWait_blocked hkept, (v.resumeWait_shape f).1]

theorem ne_zero_of_testBit {n bits : Nat} (h : (List.range n).filter (fun p => bits.testBit p) ≠ []) : bits ≠ 0 := by
  rintro rfl
  simp at h

/-- Cont at a position of the clause or at the line's end passes ERET's check. -/
theorem contOk {cl : Clause} {cont : Nat} (h : cont = cl.off + 128 ∨ ∃ p < cl.count, cont = cl.off + 8 + 8 * p) :
    (cont == cl.off + 128 || (cl.off + 8 ≤ cont && (cont - cl.off) % 8 == 0 && (cont - cl.off - 8) / 8 < cl.count)) = true := by
  rcases h with rfl | ⟨p, hp, rfl⟩
  · simp
  · have hlow : cl.off + 8 ≤ cl.off + 8 + 8 * p := by omega
    have hmod : (cl.off + 8 + 8 * p - cl.off) % 8 = 0 := by omega
    have hdiv : (cl.off + 8 + 8 * p - cl.off - 8) / 8 = p := by omega
    simp [hlow, hmod, hdiv, hp]

theorem frameRecs_eq (b : List Byte) : frameRecs b
    = ((List.range (min (bnat b 14 1) 64)).map fun i => (i, recordOf ((b.drop (0x200 + 16 * i)).take 16))).filterMap fun p =>
        if p.2.2 ∧ p.2.1.mask &&& maskList ((List.range 64).filter fun l => bnat b (0x100 + l) 1 ≠ 255) ≠ 0 then
          some (p.1, { p.2.1 with mask := p.2.1.mask &&& maskList ((List.range 64).filter fun l => bnat b (0x100 + l) 1 ≠ 255) })
        else none := by
  rw [← frameLive_eq]
  rfl

theorem execEret_run (o : Bare) (s : State) : exec (.eret o) s = run
    { cls := some .sys, slot := o.slot
      chk := fun e => if !e.w.inHandler || e.w.pos + 1 != e.cl.count then some (illop 1) else none } Env.eret s := rfl

/-- Settles O44: the check of the handler, then the frame's checks in turn, then the replayed positions. -/
theorem trapReturn : Obligations.TrapReturn := by
  unfold Obligations.TrapReturn
  intro o s e hready hany hlast
  refine ⟨fun hout => ?_, ?_⟩
  · rw [execEret_run]
    exact run_chk (t := illop 1) hready.env (by simp [hready.cls]) hready.slot rfl rfl (by simp [hout]) _
  · intro h fs i bytes cl rep b img blk live recs cont hread hin hone hlanes hdepth hh hstates hcover hhere hline hcl hrep hne hstep hfit
      hcont hfree hwaits
    obtain rfl := (State.env_found hready.env).state
    obtain ⟨hloc, hcall⟩ := hready.quiet
    have hexec : exec (.eret o) e.s = .next e.eret := by
      rw [execEret_run]
      exact run_go hready (.inr rfl) rfl rfl rfl (by simp [hin, hlast]) (by simpa [Spec.acts] using hany)
    obtain ⟨v, hv⟩ : ∃ v : Wave, v = { e.w with regs := e.w.regsEnd, pend := [], late := [] } := ⟨_, rfl⟩
    have hflush : e.s.flush e.w = (e.s, v) := by rw [hv, flush_local hloc]
    have harea : e.s.areaOf v = e.s.areaOf e.w := by
      rw [hv]
      rfl
    have hoff := clauseOf_off hcl
    have hrecs : recs = frameRecs b := (frameRecs_eq b).symm
    rw [← hoff] at hline hcl
    have hresumes := Env.eret_resumes (bytes := bytes) (cl := cl) (h := h) (fs := fs) (i := i) (b := b) hflush
      (by rw [State.areaRead, harea, hread]) (by rw [hv]; exact hone) (by rw [hv]; exact hlanes) (by rw [hv]; exact hdepth) hh
      (by rw [← hrecs]; exact hstates) (lanesOk_frame hcover) (by rw [← hrecs]; exact hhere) hfit (by rw [hv]; exact hwaits)
      (ne_zero_of_testBit (by rw [← hrep]; exact hne)) (by rw [hv, ← hoff]; exact hline) (by rw [← hoff]; exact hcl)
      (by rw [← hoff]; exact contOk hcont)
    rw [← hoff] at hresumes
    obtain ⟨S, hS⟩ : ∃ S, S = e.s.keepLine e.c.id v.coreNo (imgAt img cl.off) bytes := ⟨_, rfl⟩
    rw [← hS] at hresumes
    have htaken : ({ e with s := S } : Env).s.classTaken (v.restored b h fs i) cl.cls = false := by
      rw [hS, State.keepLine_classTaken, hv]
      exact hfree
    obtain ⟨⟨w', hw', hshape⟩, hothers, hrest, -⟩ := settle_spec S { v.restored b h fs i with
      clause := some cl, replay := rep, cont := contPos cl cont, redo := some (BitVec.ofNat 64 (bnat b 32 8)), pos := rep.headD 0,
      stage := .issue }
    have heret := hresumes.trans (Env.resume_replays hrep hne htaken)
    rw [← heret] at hw' hothers hrest
    have hfrags := v.restored_frags b h fs i
    have hkey : (v.restored b h fs i).key = e.w.key := by rw [hv]; rfl
    have hregs : v.regs = e.w.regsEnd := by rw [hv]
    have hkeptCp : v.keptCp = e.w.keptCp := by rw [hv]
    have hkeptYield : v.keptYield = e.w.keptYield := by rw [hv]
    have hkeptCall : v.keptCall = e.w.keptCall := by rw [hv]
    have hshow : w' = { v.restored b h fs i with
        clause := some cl, replay := rep, cont := contPos cl cont, redo := some (BitVec.ofNat 64 (bnat b 32 8)), pos := rep.headD 0,
        stage := .issue, age := w'.age, stepping := w'.stepping, stepped := w'.stepped } := hshape
    refine ⟨e.eret, w', hexec, hkey ▸ hw', ?_⟩
    rw [hshow]
    refine ⟨rfl, rfl, rfl, rfl, rfl, rfl, rfl, rfl, contPos_off hcont, rfl, ?_, ?_, fun hkept k g hki hg => ?_, fun l hl => ⟨?_, ?_⟩, hfrags, ?_, ?_,
      fun k hk => ?_⟩
    · simp only [Wave.restored, ← hoff, hkeptCp, hkeptYield, Bool.beq_eq_decide_eq]
    · simp only [Wave.restored, ← hoff, hkeptCp, hkeptCall, beq_iff_eq]
    · have hbars := Wave.restored_blocked (v := v) (b := b) (h := h) (i := i) (by rw [hv]; exact hkept) hg
      rw [hv] at hbars
      exact hbars
    · exact frameLanes_get b 0x100 hl
    · exact frameLanes_get b 0x140 hl
    · simp only [Wave.restored, hregs]
    · rw [hrest, hS]
      exact e.s.keepLine_mem e.c.id v.coreNo (imgAt img cl.off) bytes
    · rw [hothers k (hkey ▸ hk), hS]
      rfl

end Sys2Proof.Machine
end

section
/-! SUPPORT. The latch of a pair of waves, and the Threshold position (R84, R85, R124, R235, R341 to R343): O46. -/

namespace Sys2Proof.Machine

/-! ### Cells written over others -/

theorem cget_of_mem {n : Nat} {c : Cells n} (h : cwf c = true) {p : Nat × BitVec n} (hp : p ∈ c) : cget c p.1 = p.2 := by
  induction c with
  | nil => cases hp
  | cons q t ih =>
    obtain ⟨-, hlt, ht⟩ := (cwf_cons q.1 q.2 t).1 h
    rcases List.mem_cons.1 hp with rfl | hp
    · exact if_pos rfl
    · exact (if_neg (Nat.ne_of_lt (hlt p hp))).trans (ih ht hp)

theorem cget_of_not_mem {n : Nat} {c : Cells n} {k : Nat} (h : ∀ p ∈ c, p.1 ≠ k) : cget c k = 0 := by
  induction c with
  | nil => rfl
  | cons q t ih => exact (if_neg (h q List.mem_cons_self)).trans (ih fun p hp => h p (List.mem_cons_of_mem _ hp))

theorem cget_cclear {n : Nat} (c : Cells n) (lo m k : Nat) : cget (cclear c lo m) k = if lo ≤ k ∧ k < lo + m then 0 else cget c k := by
  induction c with
  | nil => simp [cclear, cget]
  | cons q t ih =>
    obtain ⟨a, x⟩ := q
    unfold cclear at ih ⊢
    by_cases hin : lo ≤ a ∧ a < lo + m
    · rw [List.filter_cons_of_neg (by simp [hin]), ih]
      split
      · rfl
      next hk => exact (if_neg fun h : a = k => hk (h ▸ hin)).symm
    · rw [List.filter_cons_of_pos (by rw [decide_eq_false hin]; rfl)]
      simp only [cget]
      split
      next h => rw [if_neg (h ▸ hin)]
      next => exact ih

/-- Cells of a range, written over what a store holds outside it (R124). -/
theorem cget_restore {n : Nat} {c x : Cells n} {lo m : Nat} (hwf : cwf x = true) (hin : ∀ p ∈ x, lo ≤ p.1 ∧ p.1 < lo + m) (k : Nat) :
    cget (csetAll (cclear c lo m) x) k = if lo ≤ k ∧ k < lo + m then cget x k else cget c k := by
  by_cases hk : ∃ p ∈ x, p.1 = k
  · obtain ⟨p, hp, rfl⟩ := hk
    rw [if_pos (hin p hp), cget_of_mem hwf hp]
    refine cget_csetAll_of_mem _ hp fun q hq he => ?_
    rw [← cget_of_mem hwf hq, he, cget_of_mem hwf hp]
  · have hne : ∀ p ∈ x, p.1 ≠ k := fun p hp he => hk ⟨p, hp, he⟩
    rw [cget_csetAll _ _ _ hne, cget_cclear, cget_of_not_mem hne]

/-! ### The latch (R124, R341) -/

theorem Team.latch_putLatch {t : Team} {k : Nat} (h : k < t.latches.length) (x : Latch) : (t.putLatch k x).latch k = x := by
  simp [Team.latch, Team.putLatch, h]

/-- A wave that takes a latch gets its registers, and nothing else of it changes. -/
theorem Wave.takeLatch_wave (w : Wave) (t : Team) : (w.takeLatch t).1
    = { w with regs := { w.regs with v := (w.takeLatch t).1.regs.v, vt := (w.takeLatch t).1.regs.vt } } := rfl

theorem Wave.takeLatch_team (w : Wave) (t : Team) : (w.takeLatch t).2 = { t with latches := (w.takeLatch t).2.latches } := rfl

theorem Wave.takeLatch_owner {w : Wave} {t : Team} (h : w.pair < t.latches.length) :
    ((w.takeLatch t).2.latch w.pair).owner = some w.key := by
  rw [Wave.takeLatch, Team.latch_putLatch h]

/-- A wave that gives up a latch that no partner waits for (R341). -/
theorem State.freeLatch_free {s : State} {w : Wave} {t : Team} (ht : s.team? w.team = some t) (hown : (t.latch w.pair).owner = some w.key)
    (hwait : (t.latch w.pair).waiter = none) : s.freeLatch w
      = (s.putTeam (t.putLatch w.pair
          { t.latch w.pair with owner := none, v := crange w.regs.v 4096 4096, vt := crange w.regs.vt 64 64 }),
         { w with regs := { w.regs with v := cclear w.regs.v 4096 4096, vt := cclear w.regs.vt 64 64 } }) := by
  unfold State.freeLatch
  simp only [ht, hown, hwait, if_true]
  rfl

/-! ### What the instructions come to (R222, R235) -/

theorem blockChk_none {e : Env} (hh : e.w.inHandler = false) (hlast : e.w.pos + 1 = e.cl.count) : blockChk e = none := by
  simp [blockChk, lastChk, hh, hlast]

section
variable {o : Bare} {s : State} {e : Env} (h : Ready s e .sys o.slot [] []) (hany : e.anylane o.slot = true)
include h hany

/-- An instruction of the latch or the position that may block, once its checks are passed. -/
theorem run_blockable (hlast : e.w.pos + 1 = e.cl.count) (hh : e.w.inHandler = false) (act : Env → State) :
    run { cls := some .sys, slot := o.slot, chk := blockChk } act s = .next (act e) :=
  run_go h (.inr rfl) rfl rfl rfl (blockChk_none hh hlast) (by simpa [Spec.acts] using hany)

theorem exec_lrel : exec (.lrel o) s = .next (e.fixed 4 [] [.lrel]) :=
  run_go h (.inr rfl) rfl rfl rfl rfl (by simpa [Spec.acts] using hany)

end

/-- A wave that retires, whatever its restart declaration and what it knows have become. -/
theorem retire_of {s S : State} {e : Env} {c : Cls} {k : Slot} {reads writes : List Nat} (h : Ready s e c k reads writes) {w : Wave}
    (hw : w = { e.w with known := w.known, restart := w.restart, late := w.late }) :
    Retires S (({ e with s := S, w } : Env).retire []) { e with w } e.w.regsEnd S.teams := by
  have hregs : w.regsEnd = e.w.regsEnd := by rw [hw]; rfl
  have hf := State.env_found h.env
  rw [← hregs]
  exact retire_retires (e := { e with w }) (by rw [hw]; exact h.quiet.2) (by rw [hw]; exact hf.clause) (by rw [hw]; exact h.quiet.1)

/-- LACQ of a latch that the wave holds, of one that is free, of the partner's, and without a latch (R124, R235, R341). -/
theorem exec_lacq {o : Bare} {s : State} {e : Env} (h : Ready s e .sys o.slot [] []) (hany : e.anylane o.slot = true)
    (hlast : e.w.pos + 1 = e.cl.count) (hh : e.w.inHandler = false) :
    exec (.lacq o) s = .next (
      if e.l.p.latch = false then e.noRestart.trap { cause := causeLatch }
      else if (e.t.latch e.w.pair).owner = some e.w.key then e.noRestart.retire []
      else if (e.t.latch e.w.pair).owner = none then
        ({ e with w := (e.noRestart.w.takeLatch e.t).1, s := e.s.putTeam (e.noRestart.w.takeLatch e.t).2 } : Env).retire []
      else ({ e.noRestart with
        s := e.s.putTeam (e.t.putLatch e.w.pair { e.t.latch e.w.pair with waiter := some e.w.key }) } : Env).block .latch 5) := by
  refine (run_blockable h hany hlast hh _).trans ?_
  cases hl : e.l.p.latch with
  | false => simp [Env.noRestart, hl]
  | true =>
    simp [Env.noRestart, hl]
    rfl

/-! ### LREL (R341) -/

/-- LREL before the end of its clause pends on the wave. -/
theorem lrel_pends {s : State} {e : Env} {k : Slot} (h : Ready s e .sys k [] []) (hrep : e.w.replay = []) (hgoes : e.w.pos + 1 < e.cl.count) :
    Retires s (e.fixed 4 [] [.lrel]) e e.w.regsEnd s.teams ∧ ∃ w', (e.fixed 4 [] [.lrel]).wave? e.w.key = some w'
      ∧ w'.pend = e.w.pend ++ [{ pos := e.w.pos, due := e.w.pos + 4, effs := [.lrel] }] := by
  have hf := State.env_found h.env
  obtain ⟨p, hp⟩ : ∃ p : Pend, p = { pos := e.w.pos, due := e.w.pos + 4, effs := [.lrel] } := ⟨_, rfl⟩
  obtain ⟨v, hv⟩ : ∃ v : Wave, v = { e.w with pend := e.w.pend ++ [p] } := ⟨_, rfl⟩
  have hnext : v.nextPos = e.w.pos + 1 := by
    rw [hv]
    simp only [Wave.nextPos, hrep]
  have hcount : v.count = e.cl.count := by
    rw [hv]
    simp only [Wave.count, hf.clause]
  have hend : s.clauseEnds v = false := by
    simp [State.clauseEnds, hnext, hcount, hgoes]
  have hland : s.land v v.nextPos = (s, v) := by
    rw [land_newest (by rw [hv]) h.quiet.1, if_neg]
    rw [hnext, hp]
    dsimp only
    omega
  obtain ⟨hwent, w', hw', hpend, -⟩ := advance_stays e.c hend hland
  have hfixed : e.fixed 4 [] [.lrel] = s.advance e.c v := by
    rw [hv, hp, Env.fixed, Env.retire, hf.state]
  have hregs : v.regsEnd = e.w.regsEnd := by
    rw [hv, hp]
    exact regsEnd_ready h (by decide) 4 (le_refl 4) [] [.lrel] (by simp [Eff.noTake])
  have hkey : v.key = e.w.key := by rw [hv]
  rw [hfixed]
  rw [hregs] at hwent
  rw [hkey] at hw'
  exact ⟨hwent.retires ⟨_, e.w.late, hv⟩, w', hw', by rw [hpend, hv, hp]⟩

theorem State.settle_teams (s : State) (w : Wave) : (s.settle w).teams = s.teams := by
  rw [(settle_spec s w).2.2.1]

/-- The teams at the end of a clause without a call are as the effects leave them that fall due there. -/
theorem State.endClause_teams {s S : State} {c : Ctx} {w x : Wave} (hland : s.land w w.lastDue = (S, x)) (hcall : x.call = none) :
    (s.endClause c w).teams = S.teams := by
  unfold State.endClause State.flush
  simp only [hland, hcall]
  cases hcl : x.clause with
  | none => simp
  | some cl =>
    simp only []
    split
    · exact S.settle_teams _
    · exact S.settle_teams _

/-- A wave past its clause's last position, with nothing due on the way and no long-latency work under way, ends its clause (R126, R127). -/
theorem advance_ends {s : State} {w : Wave} (c : Ctx) (hland : s.land w w.nextPos = (s, w)) (hcount : w.count ≤ w.nextPos)
    (hwaits : ∀ p ∈ w.pend, p.waits = false) (hbusy : s.busy w = false) :
    ∃ v : Wave, s.advance c w = s.endClause c v ∧ v = { w with
      frags := v.frags, pos := w.nextPos, replay := w.replay.tail, redo := v.redo, reason := 0, stepped := true } := by
  refine ⟨({ w with pos := w.nextPos, replay := w.replay.tail, redo := if w.replay.tail = [] then none else w.redo, reason := 0, stepped := true } :
    Wave).setFrag w.cur fun f => { f with held := none, past := none, yield := false }, ?_, rfl⟩
  have hany : w.pend.any Pend.waits = false := List.any_eq_false.2 fun p hp => by simp [hwaits p hp]
  have hdue : w.pend.any (fun p => p.waits && decide (p.due ≤ w.nextPos)) = false := List.any_eq_false.2 fun p hp => by simp [hwaits p hp]
  obtain ⟨v, hv⟩ : ∃ v, v = ({ w with pos := w.nextPos, replay := w.replay.tail
                                      redo := if w.replay.tail = [] then none else w.redo, reason := 0, stepped := true } : Wave).setFrag w.cur
      fun f => { f with held := none, past := none, yield := false } := ⟨_, rfl⟩
  have hpend : v.pend = w.pend := by rw [hv]; rfl
  have hvcount : v.count = w.count := by rw [hv]; rfl
  have hvbusy : s.busy v = s.busy w := by rw [hv]; rfl
  have hlong : ¬s.waitsLong v w.nextPos = true := by
    simp [State.waitsLong, hpend, hany, hdue, hvbusy, hbusy]
  unfold State.advance
  simp only [hland, ← hv]
  rw [if_neg hlong, hvcount, if_pos hcount]

/-- LREL at the end of its clause frees the latch that the wave holds. -/
theorem lrel_frees {s : State} {e : Env} {k : Slot} (h : Ready s e .sys k [] []) (hrep : e.w.replay = []) (hlast : e.w.pos + 1 = e.cl.count)
    (hwaits : ∀ p ∈ e.w.pend, p.waits = false) (hbusy : s.busy e.w = false) (hown : (e.t.latch e.w.pair).owner = some e.w.key)
    (hwait : (e.t.latch e.w.pair).waiter = none) :
    ∃ v vt, (e.fixed 4 [] [.lrel]).teams = (s.putTeam (e.t.putLatch e.w.pair { e.t.latch e.w.pair with owner := none, v, vt })).teams := by
  have hf := State.env_found h.env
  obtain ⟨p, hp⟩ : ∃ p : Pend, p = { pos := e.w.pos, due := e.w.pos + 4, effs := [.lrel] } := ⟨_, rfl⟩
  obtain ⟨x, hx⟩ : ∃ x : Wave, x = { e.w with pend := e.w.pend ++ [p] } := ⟨_, rfl⟩
  have hnext : x.nextPos = e.w.pos + 1 := by
    rw [hx]
    simp only [Wave.nextPos, hrep]
  have hcount : x.count = e.cl.count := by
    rw [hx]
    simp only [Wave.count, hf.clause]
  have hland : s.land x x.nextPos = (s, x) := by
    rw [land_newest (by rw [hx]) h.quiet.1, if_neg]
    rw [hnext, hp]
    dsimp only
    omega
  obtain ⟨v, hends, hv⟩ := advance_ends (s := s) (w := x) e.c hland (by rw [hcount, hnext, hlast])
    (by
      rw [hx]
      intro q hq
      rcases List.mem_append.1 hq with hq | hq
      · exact hwaits q hq
      · rw [List.mem_singleton.1 hq, hp]
        rfl)
    (by rw [hx]; exact hbusy)
  have hpend : v.pend = e.w.pend ++ [p] := by rw [hv, hx]
  have hpos : v.pos = e.w.pos + 1 := by rw [hv]; exact hnext
  have hdue : v.pos < p.due ∧ p.due ≤ v.lastDue := by
    refine ⟨?_, le_lastDue (by rw [hpend]; simp)⟩
    rw [hpos, hp]
    dsimp only
    omega
  have hteam : s.team? v.team = some e.t := by
    rw [hv, hx]
    exact hf.team
  have hpair : v.pair = e.w.pair := by
    rw [hv, hx]
    rfl
  have hkey : v.key = e.w.key := by rw [hv, hx]
  have hfree := State.freeLatch_free (w := v) hteam (by rw [hpair, hkey]; exact hown) (by rw [hpair]; exact hwait)
  have hflush : s.land v v.lastDue = s.freeLatch v := by
    rw [land_newest hpend h.quiet.1, if_pos hdue, hp]
    rfl
  have hfixed : e.fixed 4 [] [.lrel] = s.advance e.c x := by
    rw [hx, hp, Env.fixed, Env.retire, hf.state]
  rw [hfixed, hends, State.endClause_teams (hflush.trans hfree) (by rw [hv, hx]; exact h.quiet.2), hpair]
  exact ⟨_, _, rfl⟩

/-! ### The Threshold position (R84, R85, R342) -/

theorem Launch.holds_iff {l : Launch} {tix : Nat} : l.holds tix = true ↔ ∀ k < tix, l.released.contains k = true ∨ l.voided.contains k = true := by
  simp [Launch.holds]

/-- With nothing logged, going direct is a mark on the team (R84). -/
theorem State.goDirect_empty {s : State} {t : Team} (h : t.log = []) : s.goDirect t = s.putTeam { t with direct := true, wantDirect := false } := by
  have hput : ({ t with log := [], direct := true, wantDirect := false } : Team) = { t with direct := true, wantDirect := false } := by
    rw [← h]
  unfold State.goDirect State.teamKnows
  rw [h, hput]
  rfl

section
variable {o : Bare} {s : State} {e : Env} (h : Ready s e .sys o.slot [] []) (hany : e.anylane o.slot = true)
  (hlast : e.w.pos + 1 = e.cl.count) (hh : e.w.inHandler = false)
include h hany hlast hh

theorem exec_tkwait : exec (.tkwait o) s = .next (
    if e.l.p.mode ≠ 2 then e.noRestart.retire []
    else if e.l.holds e.t.tix then
      if e.noRestart.direct.struck then e.noRestart.direct.s else e.noRestart.direct.pastTicket.retire []
    else ({ e.noRestart with s := e.s.putTeam (e.t.want e.s.tick) } : Env).block .tkwait 12) :=
  run_blockable h hany hlast hh _

theorem exec_tkrel : exec (.tkrel o) s = .next (
    if e.l.p.mode ≠ 2 ∨ e.t.released then e.noRestart.retire []
    else if e.l.holds e.t.tix then
      if e.noRestart.direct.struck then e.noRestart.direct.s
      else
        let x := e.noRestart.direct.pastTicket
        ({ x with s := x.s.releaseTicket x.t x.l (x.s.released x.w), w := { x.w with late := [] } } : Env).retire []
    else ({ e.noRestart with s := e.s.putTeam { e.t.want e.s.tick with wantRelease := true } } : Env).block .tkrel 12) :=
  run_blockable h hany hlast hh _

end

/-- The issuing wave of a team that is direct already is not struck. -/
theorem direct_already {s : State} {e : Env} (hf : Found? s e) (hd : e.t.direct = true) :
    e.noRestart.direct = e.noRestart ∧ e.noRestart.struck = false := by
  have hdirect : e.noRestart.direct = e.noRestart := if_pos hd
  refine ⟨hdirect, ?_⟩
  have hwave : e.noRestart.s.wave? e.noRestart.w.key = some e.w := by
    rw [Env.noRestart, hf.state]
    exact hf.wave
  simp [Env.struck, hwave, hf.stage]

/-- The issuing wave of a team that goes direct: only what it knows changes, unless its team's log strikes it (R84). -/
theorem direct_goes {e : Env} (hd : e.t.direct = false) : ∃ known, e.noRestart.direct
    = { e with s := e.s.goDirect e.t, t := ((e.s.goDirect e.t).team? e.t.key).getD e.t, w := { e.w with restart := none, known } } := by
  refine ⟨match (e.s.goDirect e.t).wave? e.w.key with | some w => w.known | none => e.w.known, ?_⟩
  unfold Env.direct
  rw [if_neg (by rw [Env.noRestart, hd]; exact Bool.false_ne_true)]
  rfl

/-- A wave that retires at the position, in whatever state its team's log has left (R342, R343). -/
theorem pastTicket_retires {s S : State} {e x : Env} {c : Cls} {k : Slot} {reads writes : List Nat} (h : Ready s e c k reads writes)
    (hS : x.s = S) (hc : x.c = e.c) {known : List Known} (hw : x.w = { e.w with restart := none, known }) :
    ∃ known, Retires S (x.pastTicket.retire []) { e with w := { e.w with restart := none, known } } e.w.regsEnd S.teams := by
  subst hS
  have hlearn := x.w.learn_eq x.l.known
  have hpast : x.pastTicket.w = { e.w with restart := none, known := (x.w.learn x.l.known).known } := by
    rw [Env.pastTicket, hlearn, hw]
  refine ⟨(x.w.learn x.l.known).known, ?_⟩
  have hret := retire_of (S := x.s) h (w := { e.w with restart := none, known := (x.w.learn x.l.known).known }) rfl
  have hsame : ({ e with s := x.s, w := { e.w with restart := none, known := (x.w.learn x.l.known).known } } : Env).retire []
      = x.pastTicket.retire [] := by
    unfold Env.retire
    rw [← hpast, ← hc]
    rfl
  rwa [hsame] at hret

/-- Going direct with nothing logged, or being so already: the wave is not struck, and the team is marked (R84). -/
theorem direct_marks {e : Env} {c : Cls} {k : Slot} {reads writes : List Nat} (h : Ready e.s e c k reads writes)
    (hd : e.t.direct = true ∨ e.t.log = []) : ∃ S tm known, e.noRestart.direct = { e with s := S, t := tm, w := { e.w with restart := none, known } }
      ∧ e.noRestart.direct.struck = false ∧ tm = { e.t with direct := true, wantDirect := tm.wantDirect } ∧ S.trSize = e.s.trSize := by
  have hf := State.env_found h.env
  by_cases hdir : e.t.direct = true
  · obtain ⟨hsame, hstruck⟩ := direct_already hf hdir
    refine ⟨e.s, e.t, e.w.known, hsame, by rw [hsame]; exact hstruck, ?_, rfl⟩
    rw [← hdir]
  · have hnot := Bool.eq_false_iff.2 hdir
    obtain ⟨known, hdirect⟩ := direct_goes hnot
    have hS := State.goDirect_empty (s := e.s) (hd.resolve_left hdir)
    have hteam : (e.s.goDirect e.t).team? e.t.key = some { e.t with direct := true, wantDirect := false } := by
      rw [hS]
      exact e.s.team_putTeam_self { e.t with direct := true, wantDirect := false }
    have hwave : (e.s.goDirect e.t).wave? e.w.key = some e.w := by
      rw [hS]
      exact hf.wave
    refine ⟨_, _, known, hdirect, by simp [hdirect, Env.struck, hwave, hf.stage], ?_, by rw [hS]; rfl⟩
    rw [hteam]
    rfl

/-- A ticket released without a trace ring: the mark on the team and the place in the launch's list (R85). -/
theorem State.releaseTicket_off {s : State} (htr : s.trSize = 0) (t : Team) (l : Launch) (known : List Known) :
    ∃ l', s.releaseTicket t l known = (s.putTeam { t with released := true, wantRelease := false }).putLaunch l'
      ∧ l' = { l with released := l'.released, known := l'.known } ∧ l'.released.contains t.tix = true := by
  refine ⟨_, by rw [State.releaseTicket, State.syncThreshold_off htr], rfl, ?_⟩
  dsimp only
  split
  next h => exact h
  next => simp

/-- A wave that retires leaves the teams and the launches as they are. -/
theorem retire_keeps {e : Env} (hcall : e.w.call = none) (hcl : e.w.clause = some e.cl) (hloc : ∀ p ∈ e.w.pend, ∀ x ∈ p.effs, x.local = true) :
    (e.retire []).teams = e.s.teams ∧ (e.retire []).launches = e.s.launches := by
  have hrest := (retire_retires (S := e.s) hcall hcl hloc).rest
  have hteams := (retire_retires (S := e.s) hcall hcl hloc).teams
  rw [ite_self] at hteams
  exact ⟨hteams, by rw [show e.retire [] = ({ e with s := e.s } : Env).retire [] from rfl, hrest]⟩

/-- The wave that releases its team's ticket retires, and leaves the ticket released (R85, R342). -/
theorem release_retires {x : Env} (hcall : x.w.call = none) (hcl : x.w.clause = some x.cl) (hloc : ∀ p ∈ x.w.pend, ∀ y ∈ p.effs, y.local = true)
    (htr : x.s.trSize = 0) :
    let u := ({ x.pastTicket with
      s := x.s.releaseTicket x.t x.l (x.s.released x.pastTicket.w), w := { x.pastTicket.w with late := [] } } : Env).retire []
    u.team? x.t.key = some { x.t with released := true, wantRelease := false }
      ∧ ∃ l', u.launch? x.l.key = some l' ∧ l'.released.contains x.t.tix = true ∧ l' = { x.l with released := l'.released, known := l'.known } := by
  intro u
  obtain ⟨l', hrel, hl', hin⟩ := State.releaseTicket_off htr x.t x.l (x.s.released x.pastTicket.w)
  have hlearn : x.pastTicket.w = { x.w with known := (x.w.learn x.l.known).known } := x.w.learn_eq x.l.known
  obtain ⟨hteams, hlaunches⟩ := retire_keeps (e := { x.pastTicket with
      s := x.s.releaseTicket x.t x.l (x.s.released x.pastTicket.w), w := { x.pastTicket.w with late := [] } })
    (by rw [hlearn]; exact hcall) (by rw [hlearn]; exact hcl) (by rw [hlearn]; exact hloc)
  have hkey : l'.key = x.l.key := by rw [hl']
  refine ⟨?_, l', ?_, hin, hl'⟩
  · rw [State.team?, hteams, hrel]
    exact x.s.team_putTeam_self { x.t with released := true, wantRelease := false }
  · rw [State.launch?, hlaunches, hrel, ← hkey]
    exact State.launch_putLaunch_self _ l'

/-- Settles O46, instruction by instruction: what each comes to, and then how the wave retires or blocks from there. -/
theorem latchAndThreshold : Obligations.LatchAndThreshold := by
  unfold Obligations.LatchAndThreshold
  refine ⟨fun o s e h hany => ?_, fun o s e h hany hlast hh => ?_⟩
  · intro x w
    have hf := State.env_found h.env
    obtain rfl := hf.state
    have hq := h.quiet
    refine ⟨fun hlast hh => ?_, fun hrep hgoes _ => ?_, fun hrep hlast _ hwaits hbusy hown hwait hpair => ?_⟩
    · have hexec := exec_lacq h hany hlast hh
      refine ⟨fun hl => ?_, fun hl hown => ?_, fun hl hown hpair => ?_, fun p hl hown hp hstep hpair => ?_⟩
      · rw [hexec, if_pos hl]
        rfl
      · replace hown : (e.t.latch e.w.pair).owner = some e.w.key := hown
        rw [if_neg (by simp [hl]), if_pos hown] at hexec
        exact ⟨_, hexec, retire_of (S := e.s) h rfl⟩
      · replace hown : (e.t.latch e.w.pair).owner = none := hown
        rw [if_neg (by simp [hl]), if_neg (by simp [hown]), if_pos hown] at hexec
        refine ⟨_, (w.takeLatch e.t).1, (w.takeLatch e.t).2, hexec, ?_, w.takeLatch_wave e.t, w.takeLatch_team e.t,
          Wave.takeLatch_owner (w := w) hpair, fun hwf hin k => ?_⟩
        · exact retire_retires (S := e.s.putTeam (w.takeLatch e.t).2) (e := { e with w := (w.takeLatch e.t).1 }) hq.2 hf.clause hq.1
        · exact cget_restore hwf hin k
      · replace hown : (e.t.latch e.w.pair).owner = some p := hown
        rw [if_neg (by simp [hl]), if_neg (by simpa [hown] using hp), if_neg (by simp [hown])] at hexec
        exact ⟨_, _, hexec, block_blocks (e := { e with w }) hstep hf.frag hq.1 .latch 5, rfl, Team.latch_putLatch hpair _⟩
    · obtain ⟨hret, w', hw', hpend⟩ := lrel_pends h hrep hgoes
      exact ⟨_, w', exec_lrel h hany, hret, hw', hpend⟩
    · replace hpair : e.w.pair < e.t.latches.length := hpair
      obtain ⟨v, vt, hteams⟩ := lrel_frees h hrep hlast hwaits hbusy hown hwait
      obtain ⟨tm, htm⟩ : ∃ tm, tm = e.t.putLatch e.w.pair { e.t.latch e.w.pair with owner := none, v, vt } := ⟨_, rfl⟩
      have hkey : tm.key = e.t.key := by rw [htm]; rfl
      refine ⟨_, tm, exec_lrel h hany, ?_, by rw [htm]; rfl, ?_⟩
      · rw [State.team?, hteams, ← htm, ← hkey]
        exact e.s.team_putTeam_self tm
      · rw [htm]
        exact congrArg Latch.owner (Team.latch_putLatch hpair _)
  · intro w plain turn
    have hf := State.env_found h.env
    have hq := h.quiet
    obtain rfl := hf.state
    have hwait := exec_tkwait h hany hlast hh
    have hrel := exec_tkrel h hany hlast hh
    refine ⟨fun hmode => ?_, fun hmode hdone => ?_, fun hmode ht hd => ?_, fun hmode ht hd hx => ?_, fun hmode ht hstep => ?_,
      fun hmode ht hopen hstep => ?_, fun hmode ht hopen hd htr => ?_⟩
    · rw [if_pos hmode] at hwait
      rw [if_pos (.inl hmode)] at hrel
      exact ⟨⟨_, hwait, retire_of (S := e.s) h rfl⟩, _, hrel, retire_of (S := e.s) h rfl⟩
    · rw [if_pos (.inr hdone)] at hrel
      exact ⟨_, hrel, retire_of (S := e.s) h rfl⟩
    · obtain ⟨hsame, hstruck⟩ := direct_already hf hd
      rw [if_neg (not_not.2 hmode), if_pos (Launch.holds_iff.2 ht), hsame, if_neg (Bool.eq_false_iff.1 hstruck)] at hwait
      obtain ⟨known, hret⟩ := pastTicket_retires (S := e.s) (x := e.noRestart) (known := e.w.known) h rfl rfl rfl
      exact ⟨_, known, hwait, hret⟩
    · obtain ⟨known, hdirect⟩ := direct_goes hd
      obtain ⟨x, hx, hissue⟩ := hx
      have hstruck : e.noRestart.direct.struck = false := by simp [hdirect, Env.struck, hx, hissue]
      rw [if_neg (not_not.2 hmode), if_pos (Launch.holds_iff.2 ht), if_neg (Bool.eq_false_iff.1 hstruck)] at hwait
      obtain ⟨known, hret⟩ := pastTicket_retires (S := e.s.goDirect e.t) (x := e.noRestart.direct) (known := known) h (by rw [hdirect])
        (by rw [hdirect]) (by rw [hdirect])
      exact ⟨_, _, known, hwait, hret, rfl, State.goDirect_empty⟩
    · rw [if_neg (not_not.2 hmode), if_neg (mt Launch.holds_iff.1 ht)] at hwait
      exact ⟨_, _, hwait, block_blocks (e := { e with w }) hstep hf.frag hq.1 .tkwait 12, by rw [e.t.want_only], e.t.want_only _⟩
    · rw [if_neg (by simp [hmode, hopen]), if_neg (mt Launch.holds_iff.1 ht)] at hrel
      refine ⟨_, _, hrel, block_blocks (e := { e with w }) hstep hf.frag hq.1 .tkrel 12, rfl, ?_⟩
      exact congrArg (fun t : Team => { t with wantRelease := true }) (e.t.want_only _)
    · rw [if_neg (by simp [hmode, hopen]), if_pos (Launch.holds_iff.2 ht)] at hrel
      obtain ⟨S, tm, known, hdirect, hstruck, htm, hsize⟩ := direct_marks h hd
      rw [if_neg (Bool.eq_false_iff.1 hstruck), hdirect] at hrel
      obtain ⟨hteam, l', hlaunch, hin, hl'⟩ := release_retires
        (x := { e with s := S, t := tm, w := { e.w with restart := none, known } }) hq.2 hf.clause hq.1 (hsize.trans htr)
      have hkey : tm.key = e.t.key := by rw [htm]
      have htix : tm.tix = e.t.tix := by rw [htm]
      refine ⟨_, hrel, { tm with released := true, wantRelease := false }, l', hkey ▸ hteam, ?_, hlaunch, htix ▸ hin, hl'⟩
      rw [htm]

end Sys2Proof.Machine
end

section
/-! SUPPORT. The vote, quantum ends and unparking (R108 to R116): O49. -/

namespace Sys2Proof.Machine

/-! ### Lanes of a vote (R108) -/

theorem getLsbD_maskList (ls : List Nat) {j : Nat} (hj : j < 64) : (maskList ls).getLsbD j = decide (j ∈ ls) := by
  have key (m : DWord) : (ls.foldl (fun m l => m ||| laneBit l) m).getLsbD j = (m.getLsbD j || decide (j ∈ ls)) := by
    induction ls generalizing m with
    | nil => simp
    | cons l ls ih =>
      rw [List.foldl_cons, ih, BitVec.getLsbD_or, getLsbD_laneBit hj]
      simp [Bool.or_assoc]
  exact (key 0).trans (by simp)

/-- The lanes of a fragment that the vote leaves unhalted. -/
theorem surviving_eq {w : Wave} {f : Frag} {m : DWord}
    (hm : ∀ i < 64, m.getLsbD i = true ↔ f.mask.getLsbD i = true ∧ ¬(cget w.regs.nblk i).toNat = 255) :
    f.mask &&& ~~~maskList ((lanesOf f.mask).filter fun l => (cget w.regs.nblk l).toNat == 255) = m := by
  refine BitVec.eq_of_getLsbD_eq fun i hi => ?_
  rw [Bool.eq_iff_iff, hm i hi, BitVec.getLsbD_and, BitVec.getLsbD_not, getLsbD_maskList _ hi]
  simp only [hi, decide_true, Bool.true_and, Bool.and_eq_true, Bool.not_eq_true', decide_eq_false_iff_not, List.mem_filter, mem_lanesOf,
    true_and, beq_iff_eq]
  tauto

theorem cget_csetAll_lanes (c d : Cells 8) (m : DWord) {i : Nat} (hi : i < 64) :
    cget (csetAll c ((lanesOf m).map fun l => (l, cget d l))) i = if m.getLsbD i then cget d i else cget c i := by
  split
  next hin =>
    have hget := cget_csetAll_map (lanesOf m) c 0 (fun l => cget d l) i (mem_lanesOf.2 ⟨hi, hin⟩)
    simpa only [Nat.zero_add] using hget
  next hout =>
    refine cget_csetAll _ _ _ fun p hp => ?_
    obtain ⟨l, hl, rfl⟩ := List.mem_map.1 hp
    exact fun he => hout (he ▸ (mem_lanesOf.1 hl).2)

/-! ### What an event leaves of the other waves -/

theorem State.SameOthers.refl (s : State) (key : Nat) : s.SameOthers s key := fun _ _ => rfl

/-- An event that puts a wave back as it is. -/
theorem after_putWave {s : State} {v : Wave} {key : Nat} {i : Instr} {P : Wave → Prop} (hexec : exec i s = .next (s.putWave v))
    (hk : v.key = key) (hP : P v) : After s key i P := by
  subst hk
  exact ⟨_, v, hexec, s.wave_putWave_self v, hP, fun k hk => by rw [s.wave_putWave_ne v k hk]⟩

/-- States found for a vote fill state caches, and change nothing else. -/
theorem State.form_waves {s s' : State} {c : Ctx} {w : Wave} {h : Header} {blk : Cells 8} {m : DWord} {park : Bool} {fs : List Frag}
    (hform : s.form c w h blk m park = .ok (fs, s')) : s'.waves = s.waves := by
  have hstates {bs : List Nat} {l : List Found} {u : State} (hx : s.formStates c w.coreNo w.img h bs = .ok (l, u)) : u.waves = s.waves := by
    unfold State.formStates at hx
    split at hx
    · cases hx
    · cases hx
      rfl
    · split at hx
      · cases hx
      · cases hx
        rfl
  unfold State.form at hform
  split at hform
  · cases hform
  next l u hx =>
    split at hform
    · cases hform
    · cases hform
      exact hstates hx

/-! ### The split table and the wave's place (R113 to R115) -/

/-- Entries spilled leave the wave with the fragment and in the stage that it had. -/
theorem State.spill_keeps (fuel : Nat) (s : State) (w : Wave) :
    (s.spill w fuel).2.cur = w.cur ∧ (s.spill w fuel).2.stage = w.stage := by
  induction fuel generalizing s w with
  | zero => exact ⟨rfl, rfl⟩
  | succ fuel ih =>
    unfold State.spill
    split
    · exact ⟨rfl, rfl⟩
    · exact ih _ _

theorem Wave.bringBack_keeps (w : Wave) (i : Nat) : (w.bringBack i).cur = w.cur ∧ (w.bringBack i).stage = w.stage := by
  unfold Wave.bringBack
  split
  · split <;> exact ⟨rfl, rfl⟩
  · exact ⟨rfl, rfl⟩

/-- A wave that goes on with a fragment is ready, and has it as its current one. -/
theorem State.goTo_ready (s : State) (w : Wave) (j : Nat) :
    ∃ S v, s.goTo w j = S.settle v ∧ MemOnly s S ∧ w.Shifts v ∧ v.cur = j ∧ v.stage = .ready := by
  obtain ⟨hs, hv⟩ := s.spill_shifts ((w.switchTo j).bringBack j).frags.length ((w.switchTo j).bringBack j)
  obtain ⟨hcur, hstage⟩ := s.spill_keeps ((w.switchTo j).bringBack j).frags.length ((w.switchTo j).bringBack j)
  obtain ⟨hcur', hstage'⟩ := (w.switchTo j).bringBack_keeps j
  exact ⟨_, _, rfl, hs, ((w.switchTo_shifts j).trans (Wave.bringBack_shifts _ j)).trans hv, hcur.trans hcur', hstage.trans hstage'⟩

/-- An event after which the wave goes on with a fragment. -/
theorem after_goTo {s : State} {w : Wave} {j : Nat} {i : Instr} {P : Wave → Prop} (hexec : exec i s = .next (s.goTo w j))
    (hst : w.stepping = none) (hP : ∀ v, w.Shifts v → v.cur = j → v.stage = .ready → ∀ age, P { v with age }) : After s w.key i P := by
  obtain ⟨S, v, hgo, hs, hv, hcur, hstage⟩ := s.goTo_ready w j
  rw [hgo] at hexec
  exact after_settle hexec (by rw [hv.1]) (hs.sameOthers _) (by rw [hv.1]; exact hst) fun age => hP v hv hcur hstage age

/-! ### The next runnable fragment (R115) -/

/-- Fragment j of a wave is runnable. -/
def Wave.runs (w : Wave) (j : Nat) : Prop := ∃ g : Frag, w.frags[j]? = some g ∧ g.runnable = true

theorem Wave.runs_iff {w : Wave} {j : Nat} : (match w.frags[j]? with | some f => f.runnable | none => false) = true ↔ w.runs j := by
  unfold Wave.runs
  cases w.frags[j]? <;> simp

/-- The next runnable fragment is the first in list order after the current one. -/
theorem Wave.nextRunnable_eq {w : Wave} {i : Nat} (hi : i < w.frags.length) (hruns : w.runs ((w.cur + 1 + i) % w.frags.length))
    (hfirst : ∀ j < i, ¬w.runs ((w.cur + 1 + j) % w.frags.length)) : w.nextRunnable = some ((w.cur + 1 + i) % w.frags.length) := by
  unfold Wave.nextRunnable
  rw [List.find?_map]
  refine Option.map_eq_some_iff.2 ⟨i, List.find?_range_eq_some.2 ⟨Wave.runs_iff.2 hruns, List.mem_range.2 hi, fun j hj => ?_⟩, rfl⟩
  rw [Bool.not_eq_true', ← Bool.not_eq_true]
  exact mt Wave.runs_iff.1 (hfirst j hj)

/-- A wave with a runnable fragment has a next one. -/
theorem Wave.nextRunnable_some {w : Wave} {i : Nat} (hcur : w.cur < w.frags.length) (hruns : w.runs i) : ∃ j, w.nextRunnable = some j := by
  obtain ⟨g, hg, hrun⟩ := hruns
  have hi : i < w.frags.length := (List.getElem?_eq_some_iff.1 hg).1
  have hpos : 0 < w.frags.length := Nat.zero_lt_of_lt hi
  have hsum : w.cur + 1 + (i + w.frags.length - (w.cur + 1)) = i + w.frags.length := by omega
  have hplace : (w.cur + 1 + (i + w.frags.length - (w.cur + 1)) % w.frags.length) % w.frags.length = i := by
    rw [Nat.add_mod_mod, hsum, Nat.add_mod_right, Nat.mod_eq_of_lt hi]
  refine Option.isSome_iff_exists.1 ?_
  unfold Wave.nextRunnable
  rw [List.find?_isSome]
  refine ⟨i, List.mem_map.2 ⟨_, List.mem_range.2 (Nat.mod_lt _ hpos), hplace⟩, Wave.runs_iff.2 ⟨g, hg, hrun⟩⟩

/-! ### The vote (R108 to R110, R119) -/

section
variable {s : State} {w : Wave} {tm : Team} {c : Ctx} {l : Launch} {f : Frag} {h : Header} (he : s.wenv? w.key = some ⟨c, tm, l, w⟩)
  (hmoves : s.moves w = true) (hstage : w.stage = .vote) (hstalls : w.stalls = []) (hfrag : w.frags[w.cur]? = some f) (hhdr : w.hdr = some h)
include he hmoves hstage hstalls hfrag hhdr

theorem exec_vote : exec (.vote w.key) s = .next (s.vote ⟨c, tm, l, w⟩ f h) := by
  change execVote w.key s = _
  unfold execVote
  rw [waveEvent_acts he (by simp [voteOk, hmoves, hstage, hstalls])]
  simp only [Wave.frag?, hfrag, hhdr]

/-- A vote of a wave's only fragment that leaves no lane, with no caller to return to, ends the wave (R119). -/
theorem exec_vote_ends (hout : ∀ i < 64, f.mask.getLsbD i = true → (cget w.regs.nblk i).toNat = 255) (hfs : w.frags = [f])
    (hret : w.depth = 0 ∨ w.regs.ret = 0) : exec (.vote w.key) s = .next (s.settle { w with
      blk := csetAll w.blk ((lanesOf f.mask).map fun l => (l, cget w.regs.nblk l)), frags := [], clause := none, pos := 0, yielded := false
      stage := .ending, depth := 0 }) := by
  have hnone := surviving_eq (w := w) (f := f) (m := 0) fun i hi => ⟨fun h0 => by simp at h0, fun hb => absurd (hout i hi hb.1) hb.2⟩
  have hcur : w.cur = 0 := by
    have hlt := (List.getElem?_eq_some_iff.1 hfrag).1
    rw [hfs] at hlt
    exact Nat.lt_one_iff.1 hlt
  rw [exec_vote he hmoves hstage hstalls hfrag hhdr]
  unfold State.vote
  simp only [hnone, if_true, replaceAt, hfs, hcur, List.take_zero, List.drop_succ_cons, List.drop_nil, List.append_nil, State.emptied,
    hret.symm]

/-- A vote that leaves lanes forms fragments of their states (R108, R109). -/
theorem exec_vote_forms {m : DWord} {fs : List Frag} {s' : State} (hm0 : m ≠ 0)
    (hm : ∀ i < 64, m.getLsbD i = true ↔ f.mask.getLsbD i = true ∧ ¬(cget w.regs.nblk i).toNat = 255)
    (hform : s.form c w h (csetAll w.blk ((lanesOf f.mask).map fun i => (i, cget w.regs.nblk i))) m true = .ok (fs, s')) :
    ∃ x, x = w.voted c.q f (csetAll w.blk ((lanesOf f.mask).map fun i => (i, cget w.regs.nblk i))) fs
      ∧ exec (.vote w.key) s = .next ((s'.fitTable x).1.settle (s'.fitTable x).2) := by
  refine ⟨_, rfl, ?_⟩
  rw [exec_vote he hmoves hstage hstalls hfrag hhdr]
  unfold State.vote
  simp only [surviving_eq hm, if_neg hm0, hform]

end

theorem Wave.voted_masks (w : Wave) (q : Nat) (f : Frag) (blk : Cells 8) (fs : List Frag) :
    (w.voted q f blk fs).frags.map Frag.mask = (w.frags.take w.cur ++ fs ++ w.frags.drop (w.cur + 1)).map Frag.mask := by
  have hmask (j n : Nat) : (fs.zipIdx.map fun p => if p.2 == j then { p.1 with quantum := n } else p.1).map Frag.mask = fs.map Frag.mask :=
    setFrag_mask { w with frags := fs } j (fun x => { x with quantum := n }) fun _ => rfl
  unfold Wave.voted
  dsimp only
  split
  · rfl
  · simp only [replaceAt, List.map_append, hmask]

theorem Wave.voted_stage (w : Wave) (q : Nat) (f : Frag) (blk : Cells 8) (fs : List Frag) :
    (w.voted q f blk fs).stage = .ready ∨ (w.voted q f blk fs).stage = .quantum := by
  unfold Wave.voted
  dsimp only
  split
  · exact .inr rfl
  · exact .inl rfl

/-! ### Quantum ends and unparking (R112, R115) -/

/-- The parked fragments of a wave, aged by a quantum end (R112). -/
def Wave.aged (w : Wave) : Wave :=
  { w with frags := w.frags.map fun (f : Frag) => if f.parked then { f with age := min 255 (f.age + 1) } else f }

theorem Wave.aged_runs {w : Wave} {j : Nat} : w.aged.runs j ↔ ∃ g : Frag, w.frags[j]? = some g ∧ g.parked = false ∧ g.blocked = none := by
  unfold Wave.runs Wave.aged
  simp only [List.getElem?_map, Option.map_eq_some_iff]
  constructor
  · rintro ⟨-, ⟨g, hg, rfl⟩, hrun⟩
    refine ⟨g, hg, ?_⟩
    by_cases hp : g.parked = true
    · simp [hp, Frag.runnable] at hrun
    · simpa [hp, Frag.runnable] using hrun
  · rintro ⟨g, hg, hp, hb⟩
    exact ⟨_, ⟨g, hg, rfl⟩, by simp [hp, hb, Frag.runnable]⟩

theorem ages_of_shifts {l m : List Frag} (h : List.Forall₂ Frag.Shifts l m) :
    m.map (fun g => (g.mask, g.age)) = l.map fun g => (g.mask, g.age) := by
  induction h with
  | nil => rfl
  | cons hfg _ ih => rw [List.map_cons, List.map_cons, ih, hfg]

/-- The first fragment past the park limit (R112). -/
theorem expired_first {w : Wave} {i p : Nat} {g : Frag} (hg : w.frags[i]? = some g) (hp : g.parked = true) (hage : p < g.age)
    (hfirst : ∀ j < i, ∀ x : Frag, w.frags[j]? = some x → x.parked = true → x.age ≤ p) : w.frags.findIdx? (Frag.expired p) = some i := by
  obtain ⟨hi, hget⟩ := List.getElem?_eq_some_iff.1 hg
  refine List.findIdx?_eq_some_iff_getElem.2 ⟨hi, by simp [hget, Frag.expired, hp, hage], fun j hj => ?_⟩
  have hx := hfirst j hj _ (List.getElem?_eq_getElem (hj.trans hi))
  simp only [Frag.expired, Bool.and_eq_true, decide_eq_true_eq]
  exact fun h => absurd (hx h.1) (Nat.not_le.2 h.2)

section
variable {s : State} {w : Wave} {tm : Team} {c : Ctx} {l : Launch} (he : s.wenv? w.key = some ⟨c, tm, l, w⟩) (hmoves : s.moves w = true)
include he hmoves

/-- A quantum end that leaves no fragment past the park limit goes on with the next runnable one. -/
theorem exec_quantumEnd {j : Nat} (hstage : w.stage = .quantum) (hstalls : w.stalls = [])
    (hages : ∀ g ∈ w.frags, g.parked = true → min 255 (g.age + 1) ≤ c.p) (hnext : w.aged.nextRunnable = some j) :
    exec (.quantumEnd w.key) s = .next (s.goTo w.aged j) := by
  have hnone : w.aged.frags.any (Frag.expired c.p) = false := by
    refine List.any_eq_false.2 fun g hg => ?_
    obtain ⟨x, hx, rfl⟩ := List.mem_map.1 hg
    by_cases hp : x.parked = true
    · have hle := hages x hx hp
      simp only [Frag.expired, hp, if_true, Bool.true_and, decide_eq_true_eq]
      exact Nat.not_lt.2 hle
    · simp [Frag.expired, hp]
  change execQuantumEnd w.key s = _
  unfold execQuantumEnd
  rw [waveEvent_acts he (by simp [quantumOk, hmoves, hstage, hstalls])]
  dsimp only
  rw [if_pos hstage]
  change Host.Outcome.next (if w.aged.frags.any (Frag.expired c.p) = true then s.putWave { w.aged with stage := .switch }
    else s.switchFrag ⟨c, tm, l, w⟩ w.aged) = _
  rw [hnone, State.switchFrag, hnext]
  rfl

/-- Unparking the first fragment past the park limit leaves the wave as it is, or has it go on. -/
theorem exec_unpark {i : Nat} {g : Frag} (hcur : w.cur < w.frags.length) (hstage : w.stage = .switch ∨ w.stage = .ready)
    (hfind : w.frags.findIdx? (Frag.expired c.p) = some i) (hg : w.frags[i]? = some g) (hb : g.blocked = none) :
    ∃ v : Wave, v = w.setFrag i (fun f => { f with parked := false, age := 0 })
      ∧ (exec (.unpark w.key) s = .next (s.putWave v) ∨ ∃ j, exec (.unpark w.key) s = .next (s.goTo v j)) := by
  have hany : w.frags.any (Frag.expired c.p) = true := by
    rw [← List.findIdx?_isSome, hfind]
    rfl
  have hok : unparkOk s ⟨c, tm, l, w⟩ = true := by
    rcases hstage with h | h <;> simp [unparkOk, hmoves, h, hany]
  obtain ⟨v, hv⟩ : ∃ v : Wave, v = w.setFrag i (fun f => { f with parked := false, age := 0 }) := ⟨_, rfl⟩
  have hvruns : v.runs i := by
    refine ⟨{ g with parked := false, age := 0 }, ?_, by simp [Frag.runnable, hb]⟩
    rw [hv, w.setFrag_get, hg]
    simp
  have hvcur : v.cur < v.frags.length := by
    rw [hv]
    simpa [Wave.setFrag] using hcur
  obtain ⟨j, hj⟩ := Wave.nextRunnable_some hvcur hvruns
  have hexec : exec (.unpark w.key) s = .next (if v.stage = .switch then
        (if v.frags.any (Frag.expired c.p) then s.putWave v else s.switchFrag ⟨c, tm, l, w⟩ v)
      else if w.idle then s.goTo v i else s.putWave v) := by
    change execUnpark w.key s = _
    unfold execUnpark
    rw [waveEvent_acts he hok]
    simp only [hfind, ← hv]
  refine ⟨v, rfl.trans hv, ?_⟩
  rw [hexec]
  split
  · split
    · exact .inl rfl
    · exact .inr ⟨j, by rw [State.switchFrag, hj]⟩
  · split
    · exact .inr ⟨i, rfl⟩
    · exact .inl rfl

end

/-- Settles O49, by what each event does with the wave, and what the split table leaves of it. -/
theorem voteAndQuantum : Obligations.VoteAndQuantum := by
  unfold Obligations.VoteAndQuantum
  intro s w t c l f h hw ht hc hl hready hdead hgated hplace hquad hstep hstalls hfrag hhdr after halted voted
  have hmoves := State.moves_of hready hdead hgated hplace hquad
  have he := State.wenv_of hw ht hc hl
  have hcur : w.cur < w.frags.length := (List.getElem?_eq_some_iff.1 hfrag).1
  refine ⟨fun hstage hout hfs hret => ?_, fun m blk fs s' hstage hm0 hm hblk hform => ?_, fun i hstage hages hi hrun hfirst => ?_,
    fun i g hstage hg hp hage hb hfirst => ?_⟩
  · refine after_settle (exec_vote_ends he hmoves hstage hstalls hfrag hhdr hout hfs hret) rfl (.refl s _) hstep fun age => ?_
    exact ⟨rfl, rfl, fun i hi => cget_csetAll_lanes _ _ _ hi, rfl, rfl⟩
  · subst hblk
    obtain ⟨x, hx, hexec⟩ := exec_vote_forms he hmoves hstage hstalls hfrag hhdr hm0 hm hform
    obtain ⟨hs, hv, hfrags⟩ : MemOnly s' (s'.fitTable x).1 ∧ x.Shifts (s'.fitTable x).2 := s'.spill_shifts x.frags.length x
    have hvstage : (s'.fitTable x).2.stage = x.stage := (s'.spill_keeps x.frags.length x).2
    have hsame : s.SameOthers (s'.fitTable x).1 w.key := fun k hk => by
      rw [hs.sameOthers w.key k hk, State.wave?, State.form_waves hform]
      rfl
    refine after_settle hexec (by rw [hv, hx]; rfl) hsame (by rw [hv, hx]; exact hstep) fun age => ⟨⟨fun i hi => ?_, ?_, ?_⟩, ?_, ?_⟩
    · rw [hv, hx]
      exact cget_csetAll_lanes _ _ _ hi
    · rw [hv, hx]
      rfl
    · rw [hv, hx]
      rfl
    · rw [hvstage, hx]
      exact w.voted_stage _ _ _ _
    · rw [masks_of_shifts hfrags, hx]
      exact w.voted_masks _ _ _ _
  · have hnext : w.aged.nextRunnable = some ((w.cur + 1 + i) % w.frags.length) := by
      have hlen : w.aged.frags.length = w.frags.length := List.length_map _
      rw [← hlen] at hi hrun hfirst ⊢
      refine Wave.nextRunnable_eq hi (Wave.aged_runs.2 hrun) fun j hj hruns => ?_
      obtain ⟨g, hg, hp, hb⟩ := Wave.aged_runs.1 hruns
      rcases hfirst j hj g hg with h | h
      · exact Bool.false_ne_true (hp.symm.trans h)
      · exact h hb
    refine after_goTo (w := w.aged) (exec_quantumEnd he hmoves hstage hstalls hages hnext) hstep fun v hv hvcur hvstage age =>
      ⟨hvstage, hvcur, by rw [hv.1]; rfl, ?_⟩
    rw [ages_of_shifts hv.2, Wave.aged, List.map_map]
    refine List.map_congr_left fun x _ => ?_
    cases hp : x.parked <;> simp [hp]
  · obtain ⟨v, hv, hexec⟩ := exec_unpark he hmoves hcur hstage (expired_first hg hp hage hfirst) hg hb
    have hkey : v.key = w.key := by rw [hv]; rfl
    have hregs : v.regs = w.regs := by rw [hv]; rfl
    have hstepping : v.stepping = none := by rw [hv]; exact hstep
    have hmasks : v.frags.map Frag.mask = w.frags.map Frag.mask := by
      rw [hv]
      exact setFrag_mask _ _ _ fun _ => rfl
    have hget : v.frags[i]? = some { g with parked := false, age := 0 } := by
      rw [hv, w.setFrag_get, hg]
      simp
    rcases hexec with hexec | ⟨j, hexec⟩
    · exact after_putWave hexec hkey ⟨hregs, hmasks, _, hget, rfl, rfl⟩
    · have hafter : After s v.key (.unpark w.key) fun w' => w'.regs = w.regs ∧ w'.frags.map Frag.mask = w.frags.map Frag.mask
          ∧ ∃ x, w'.frags[i]? = some x ∧ x.parked = false ∧ x.age = 0 := by
        refine after_goTo hexec hstepping fun x hx _ _ age => ⟨by rw [hx.1]; exact hregs, (masks_of_shifts hx.2).trans hmasks, ?_⟩
        obtain ⟨y, hy, hshift⟩ := hx.get hget
        exact ⟨y, hy, by rw [hshift], by rw [hshift]⟩
      rwa [hkey] at hafter

end Sys2Proof.Machine
end

section
/-! SUPPORT. What accesses leave unchanged, and what a reader sees of the writes remembered (R155, R161, R169, R286 to R293, R362): O33. -/

namespace Sys2Proof.Machine

section
variable {s S : State}

/-! ### Memory and the record of writes after a store (R161, R169) -/

/-- Memory with runs of bytes written one after another. -/
def putAllBytes (m : List Host.Cell) (ws : List (Nat × List Byte × Bool)) : List Host.Cell := ws.foldl (fun m x => mput m x.1 x.2.1) m

theorem putAllBytes_append (m : List Host.Cell) (l r : List (Nat × List Byte × Bool)) :
    putAllBytes m (l ++ r) = putAllBytes (putAllBytes m l) r := List.foldl_append

theorem cget_putAllBytes_out {ws : List (Nat × List Byte × Bool)} {x : Nat} (h : ∀ p ∈ ws, x < p.1 ∨ p.1 + p.2.1.length ≤ x)
    (m : List Host.Cell) : cget (w := 8) (putAllBytes m ws) x = cget (w := 8) m x := by
  induction ws generalizing m with
  | nil => rfl
  | cons p ws ih =>
    rw [List.forall_mem_cons] at h
    exact (ih h.2 _).trans (cget_mput_out m p.1 p.2.1 x h.1)

/-- Memory changes in the bytes written, and writes of one issuer, its wave, path and core, are added to the record under numbers not used
before. -/
structure Records (wave path core : Nat) (ws : List (Nat × List Byte × Bool)) (s S : State) : Prop where
  mem : S.mem = putAllBytes s.mem ws
  hist : ∃ more, S.hist = s.hist ++ more ∧ S.written = s.written + more.length
    ∧ ∀ x ∈ more, x.wave = wave ∧ x.path = path ∧ x.core = core ∧ s.written ≤ x.id

theorem Records.none {wave path core : Nat} (hm : S.mem = s.mem) (hh : S.hist = s.hist) (hw : S.written = s.written) :
    Records wave path core [] s S :=
  ⟨hm, [], by simp [hh, hw]⟩

theorem Records.trans {wave path core : Nat} {t : State} {l r : List (Nat × List Byte × Bool)} (h : Records wave path core l s S)
    (g : Records wave path core r S t) : Records wave path core (l ++ r) s t := by
  obtain ⟨hm, as, hh, hw, has⟩ := h
  obtain ⟨gm, bs, gh, gw, gbs⟩ := g
  refine ⟨by rw [gm, hm, putAllBytes_append], as ++ bs, by rw [gh, hh, List.append_assoc], by rw [gw, hw, List.length_append, Nat.add_assoc],
    fun x hx => ?_⟩
  rcases List.mem_append.1 hx with hx | hx
  · exact has x hx
  · obtain ⟨hwave, hpath, hcore, hid⟩ := gbs x hx
    exact ⟨hwave, hpath, hcore, by omega⟩

theorem State.storeAs_records (s : State) (ev : Write) (who : Option (Nat × DWord)) (p : Nat × List Byte × Bool) :
    Records ev.wave ev.path ev.core [p] s (s.storeAs (some ev) who p.1 p.2.1 p.2.2) := by
  refine ⟨rfl, _, rfl, rfl, fun x hx => ?_⟩
  simp only [State.remember, Option.isSome_some, Bool.true_or, if_true, List.mem_map] at hx
  obtain ⟨g, -, rfl⟩ := hx
  exact ⟨rfl, rfl, rfl, Nat.le_add_right _ _⟩

theorem State.storeAll_records (s : State) (ev : Write) (who : Option (Nat × DWord)) (ws : List (Nat × List Byte × Bool)) :
    Records ev.wave ev.path ev.core ws s (s.storeAll (some ev) who ws) := by
  induction ws generalizing s with
  | nil => exact .none rfl rfl rfl
  | cons p ws ih => exact (s.storeAs_records ev who p).trans (ih _)

theorem State.note_records (s : State) (ev : Write) (l : List (Nat × Nat)) : Records ev.wave ev.path ev.core [] s (s.note ev l) := by
  induction l generalizing s with
  | nil => exact .none rfl rfl rfl
  | cons p l ih =>
    have hfirst : Records ev.wave ev.path ev.core [] s { s with hist := s.hist ++ [s.asWrite ev s.written p], written := s.written + 1 } :=
      ⟨rfl, [s.asWrite ev s.written p], rfl, rfl, by simp [State.asWrite, State.ordered]⟩
    exact hfirst.trans (ih _)

/-! ### Accesses performed (R286 to R293) -/

section
variable {a : Actor} {key : Nat} {op : MemOp} {ans : Bool} {ws : List (Nat × List Byte × Bool)}

/-- What an agent stores is recorded as its own. -/
theorem Actor.stores (a : Actor) (atomic : Bool) (s : State) (who : Option (Nat × DWord)) (ws : List (Nat × List Byte × Bool)) :
    Records a.key a.path a.core ws s (s.storeAll (some (a.event atomic)) who ws) := s.storeAll_records (a.event atomic) who ws

theorem LinkStores.records {who : Option (Nat × DWord)} {l : List (LinkWord × List Byte)} (h : LinkStores a who ans s l S ws) :
    Records a.key a.path a.core ws s S := by
  induction h with
  | nil => exact .none rfl rfl rfl
  | cons _ _ ih => exact (a.stores true _ _ _).trans ih

theorem Access.records {q : Acc} {b : List Byte} (h : Access a key op ans s q S b ws) : Records a.key a.path a.core ws s S := by
  cases h with
  | load | ldl | gld | stcFail => exact .none rfl rfl rfl
  | store | gst | rmw => exact a.stores _ _ _ _
  | casFail =>
    split
    · exact s.note_records (a.event true) _
    · exact .none rfl rfl rfl
  | stc _ _ _ _ _ go => exact ⟨go.records.mem, go.records.hist⟩

theorem Performs.records {qs : List Acc} {ds : List (Acc × List Byte)} (h : Performs a key op ans s qs S ds ws) :
    Records a.key a.path a.core ws s S := by
  induction h with
  | nil => exact .none rfl rfl rfl
  | cons hq _ ih => exact hq.records.trans ih

theorem Performs.accesses {qs : List Acc} {ds : List (Acc × List Byte)} (h : Performs a key op ans s qs S ds ws) : ds.map Prod.fst = qs := by
  induction h with
  | nil => rfl
  | cons _ _ ih => rw [List.map_cons, ih]

/-- An access that only reads: a load, LDL or GLD. -/
def Acc.reads (q : Acc) : Prop := q.kind = .load ∨ q.kind = .ldl ∨ q.kind = .gld

theorem Access.reads_only {q : Acc} {b : List Byte} (h : Access a key op ans s q S b ws) (hq : q.reads) : ws = [] ∧ S.hist = s.hist := by
  cases h with
  | load | ldl | gld => exact ⟨rfl, rfl⟩
  | store k | rmw k | casFail k | gst k | stcFail k | stc k => simp [Acc.reads, k] at hq

theorem Performs.reads_only {qs : List Acc} {ds : List (Acc × List Byte)} (h : Performs a key op ans s qs S ds ws) (hq : ∀ q ∈ qs, q.reads) :
    ws = [] ∧ S.hist = s.hist := by
  induction h with
  | nil => exact ⟨rfl, rfl⟩
  | cons h _ ih =>
    rw [List.forall_mem_cons] at hq
    obtain ⟨hws, hh⟩ := h.reads_only hq.1
    obtain ⟨gws, gh⟩ := ih hq.2
    exact ⟨by rw [hws, gws, List.append_nil], gh.trans hh⟩

end

/-! ### What a reader sees (R169, R362) -/

/-- What one of a write's bytes held before it. -/
def Write.Held (e : Write) (pa : Nat) (x : Byte) : Prop := e.pa ≤ pa ∧ e.old[pa - e.pa]? = some x

/-- Taking a write back leaves a byte as it is, or gives it what it held before the write. -/
theorem cget_putOld (m : List Host.Cell) (e : Write) (seen : List (Nat × Nat)) (pa : Nat) :
    cget (w := 8) (putOld m e seen) pa = cget (w := 8) m pa ∨ e.Held pa (cget (w := 8) (putOld m e seen) pa) := by
  have hold : ∀ p ∈ e.old.zipIdx, e.Held (e.pa + p.2) p.1 := fun p hp => by
    refine ⟨Nat.le_add_right _ _, ?_⟩
    rw [Nat.add_sub_cancel_left]
    exact List.mem_zipIdx_iff_getElem?.1 hp
  unfold putOld
  generalize e.old.zipIdx = l at hold
  induction l generalizing m with
  | nil => exact .inl rfl
  | cons p l ih =>
    rw [List.forall_mem_cons] at hold
    rw [List.foldl_cons]
    rcases ih _ hold.2 with h | h
    · rw [h]
      dsimp only
      split
      next => exact .inl rfl
      next =>
        rw [cget_cset]
        split
        next hpa => exact .inr (hpa ▸ hold.1)
        next => exact .inl rfl
    · exact .inr h

/-- With the writes taken back that a reader does not see, each byte is as memory holds it, or as it was before one of those. -/
theorem cget_unsee (d : Nat) (r : Reader) (l : List Write) (m : List Host.Cell) (seen : List (Nat × Nat)) (pa : Nat) :
    cget (w := 8) (unsee d r l m seen) pa = cget (w := 8) m pa
      ∨ ∃ x ∈ l, r.sees d x = false ∧ x.Held pa (cget (w := 8) (unsee d r l m seen) pa) := by
  induction l generalizing m seen with
  | nil => exact .inl rfl
  | cons e t ih =>
    unfold unsee
    split
    next => exact (ih m _).imp_right fun ⟨x, hx, h⟩ => ⟨x, List.mem_cons_of_mem _ hx, h⟩
    next hsees =>
      rcases ih (putOld m e seen) seen with h | ⟨x, hx, h⟩
      · rw [h]
        exact (cget_putOld m e seen pa).imp_right fun h => ⟨e, List.mem_cons_self, Bool.eq_false_iff.2 hsees, h⟩
      · exact .inr ⟨x, List.mem_cons_of_mem _ hx, h⟩

theorem unsee_of_sees {d : Nat} {r : Reader} {l : List Write} (h : ∀ x ∈ l, r.sees d x = true) (m : List Host.Cell) (seen : List (Nat × Nat)) :
    unsee d r l m seen = m := by
  induction l generalizing seen with
  | nil => rfl
  | cons e t ih =>
    rw [List.forall_mem_cons] at h
    rw [unsee, if_pos h.1, ih h.2]

/-- What comes before a reader's accesses it sees (R169). -/
theorem Reader.sees_of_knows {r : Reader} {x : Write} (h : r.knows x = true) (d : Nat) : r.sees d x = true := by
  rw [Reader.sees, h, Bool.true_or]

theorem State.seenBy_known {r : Reader} (h : ∀ x ∈ s.hist, r.knows x = true) : s.seenBy r = s.mem := by
  unfold State.seenBy
  split
  · rfl
  · exact unsee_of_sees (fun x hx => Reader.sees_of_knows (h x (List.mem_reverse.1 hx)) _) _ _

/-- A byte that a reader sees: as memory holds it, or as it was before a write that does not come before its reads. -/
theorem State.cget_seenBy (s : State) (r : Reader) (pa : Nat) : cget (w := 8) (s.seenBy r) pa = cget (w := 8) s.mem pa
    ∨ ∃ x ∈ s.hist, r.knows x = false ∧ x.Held pa (cget (w := 8) (s.seenBy r) pa) := by
  unfold State.seenBy
  split
  · exact .inl rfl
  · refine (cget_unsee s.nondet r s.hist.reverse s.mem [] pa).imp_right fun ⟨x, hx, hsees, hheld⟩ => ⟨x, List.mem_reverse.1 hx, ?_, hheld⟩
    rw [Reader.sees, Bool.or_eq_false_iff] at hsees
    exact hsees.1

end

/-- Settles O33: each access adds its runs of bytes to memory and its writes to the record, and a view takes back writes not seen. -/
theorem accessFrame : Obligations.AccessFrame := by
  unfold Obligations.AccessFrame
  refine ⟨fun a key op ans s S qs ds ws h => ?_, fun s r => ⟨State.seenBy_known, s.cget_seenBy r⟩⟩
  obtain ⟨hrest, hwaves⟩ := h.memOnly
  obtain ⟨hmem, hhist⟩ := h.records
  refine ⟨hrest, hmem, fun x hx => ?_, fun k => (hwaves k).2, h.accesses, hhist, fun hq => ?_⟩
  · rw [hmem, cget_putAllBytes_out hx]
  · obtain ⟨rfl, hsame⟩ := h.reads_only hq
    exact ⟨rfl, hmem, hsame⟩

end Sys2Proof.Machine
end

section
/-! SUPPORT. Accesses at addresses that are not aligned to their size (R155, R158, R287): O37. -/

namespace Sys2Proof.Machine

/-! ### A part put back twice -/

theorem lput_of_any {α : Type} {l : List α} {p : α → Bool} (h : l.any p = true) (x : α) : lput l p x = l.map fun y => if p y then x else y :=
  if_pos h

theorem lput_of_none {α : Type} {l : List α} {p : α → Bool} (h : ¬l.any p = true) (x : α) : lput l p x = l ++ [x] := if_neg h

theorem lput_lput {α : Type} (l : List α) {p : α → Bool} {x : α} (hx : p x = true) (y : α) : lput (lput l p x) p y = lput l p y := by
  have hany : (lput l p x).any p = true := by
    have hfind := lput_find_self l p x hx
    exact List.any_eq_true.2 ⟨x, List.mem_of_find?_eq_some hfind, hx⟩
  rw [lput_of_any hany]
  by_cases h : l.any p = true
  · rw [lput_of_any h, lput_of_any h, List.map_map]
    refine List.map_congr_left fun z _ => ?_
    by_cases hz : p z = true <;> simp [hz, hx]
  · have hnone : ∀ z ∈ l, ¬p z = true := by simpa using h
    rw [lput_of_none h, lput_of_none h, List.map_append, List.map_congr_left fun z hz => if_neg (hnone z hz)]
    simp [hx]

theorem State.putWave_putWave (s : State) {v w : Wave} (h : v.key = w.key) : (s.putWave v).putWave w = s.putWave w := by
  have hput := lput_lput s.waves (p := fun x => x.key == w.key) (x := v) (by simp [h]) w
  simp only [State.putWave, h, hput]

theorem State.team_key {s : State} {k : Nat} {t : Team} (h : s.team? k = some t) : s.team? t.key = some t := by
  have hkey : t.key = k := by simpa using List.find?_some h
  rwa [hkey]

/-! ### A misaligned access -/

section
variable {s : State} {a : Actor} {op : MemOp} {q : Acc}

theorem Actor.place_misaligned {va : DWord} {n : Nat} (h : va.toNat % n ≠ 0) (space : Space) (need : Need) (plain answers : Bool) :
    a.place s space need plain true va n answers = .error (.align, va) := if_pos ⟨rfl, h⟩

/-- What an operation comes to whose one access is misaligned. -/
def Perf.misaligned (s : State) (q : Acc) : Perf := { x := ⟨s, []⟩, entries := [], done := [], bad := [(q, .align, q.va)] }

theorem Actor.perform_misaligned (hop : op.accs = [q]) (hk : q.kind = .load ∨ q.kind = .store) (h : q.va.toNat % q.size ≠ 0) (key : Nat) :
    a.perform key op s = .misaligned s q := by
  have hacc : ({ a with who := op.who key q } : Actor).access ⟨s, []⟩ op q (Config.peerAnswers s.nondet) = .error (.align, q.va) := by
    rcases hk with hk | hk <;> simp only [Actor.access, hk, Actor.place_misaligned h]
  simp [Actor.perform, hop, hacc, Perf.misaligned]

theorem Actor.peers_misaligned (hop : op.accs = [q]) (h : q.va.toNat % q.size ≠ 0) : a.peers s op = [] := by
  unfold Actor.peers
  split
  next => rfl
  next =>
    have hnone : ∀ x ∈ op.accs.filter fun q => !(a.staged && q.kind.code == 2),
        a.place s x.sp x.kind.need (op.ord.order == .plain) true x.va x.size true
        = .error (.align, x.va) := fun x hx => by
      have hxq : x = q := by simpa [hop] using (List.mem_filter.1 hx).1
      rw [hxq]
      exact Actor.place_misaligned h _ _ _ _
    rw [List.flatMap_eq_nil_iff.2 fun x hx => by rw [hnone x hx], List.filter_nil]

/-- A misaligned access leaves nothing beside a translation in a TLB (R154). -/
theorem Actor.behind_misaligned {w : Wave} {t : Team} (hop : op.accs = [q]) (h : q.va.toNat % q.size ≠ 0) (hw : s.wave? a.key = some w)
    (ht : s.team? a.t.key = some t) : ∃ tlb,
      a.behind op (.misaligned s q) = ({ s with tlb, nondet := s.nondet + 1 } : State).putWave w := by
  have hlog : s.addLog a.t.key (logWrites [] a.logTag) = s := by simp [State.addLog, ht, logWrites]
  refine ⟨(s.fillTlb a.c op.globals).tlb, ?_⟩
  unfold Actor.behind
  simp only [Perf.misaligned, hlog, a.peers_misaligned hop h, State.sendFlits, List.foldl_nil]
  rw [fillTlb_only]
  have hwave : ({ s with tlb := (s.fillTlb a.c op.globals).tlb, nondet := s.nondet + 1 } : State).wave? a.key = some w := hw
  simp [hwave, Wave.after]

/-- A wave whose access is misaligned traps, with the lane of the access and those that it counts as issued by (R133, R158). -/
theorem State.afterAccs_misaligned {S : State} {w : Wave} {key : Nat} (hw : S.wave? key = some w) (hwatched : w.watched = none)
    (hseq : op.seq = false) {pos : Nat} (hpos : op.pos = pos) (c : Ctx) (go : State → Wave → State) (known : List Known) :
    S.afterAccs c key op (.misaligned s q) none go none known = S.raise w
      { cause := causeAlign, faddr := q.va, fml := laneBit q.lane ||| op.lanes, access := BitVec.ofNat 8 q.kind.code, pos } := by
  have hstall : S.stallAccs c key op [] none known = S := by simp [State.stallAccs, badPages]
  have htrap : badTrap op [(q, .align, q.va)] = (
      { cause := causeAlign, faddr := q.va, fml := laneBit q.lane ||| op.lanes, access := BitVec.ofNat 8 q.kind.code, pos }, 0, none) := by
    simp [badTrap, hseq, hpos, maskList]
  have hcause : causeAlign ≠ causeEcc := by decide
  unfold State.afterAccs
  simp [Perf.misaligned, traps, hseq, hstall, hw, hwatched, htrap, hcause]

end

section
variable {s : State} {e : Env} {op : MemOp} {q : Acc}

/-- A memory instruction of one access that is misaligned: ALIGN, and nothing is performed (R155, R158). -/
theorem memory_misaligned {k : Slot} {la : La} {reads writes srcs dsts : List Nat} (h : MemReady s e k la reads writes) (hop : op.accs = [q])
    (hk : q.kind = .load ∨ q.kind = .store) (hseq : op.seq = false) (hpos : op.pos = e.w.pos) (hres : op.res.effs [] = [])
    (hva : q.va.toNat % q.size ≠ 0) : ∃ tlb late,
      let w : Wave := { e.w with
        late, pend := e.w.pend ++ [{ pos := e.w.pos, due := e.w.pos + 1 + e.la la, long := true, effs := [], srcs, dsts }] }
      e.memory la srcs dsts op = (({ s with tlb, nondet := s.nondet + 1 } : State).putWave w).raise w
        { cause := causeAlign, faddr := q.va, fml := laneBit q.lane ||| op.lanes, access := BitVec.ofNat 8 q.kind.code, pos := e.w.pos } := by
  have hf := State.env_found h.ready.env
  have hteam := State.team_key hf.team
  have hdirect : op.takesDirect = false := by
    rcases hk with hk | hk <;> simp [MemOp.takesDirect, hop, hk]
  have hord : e.orderHold op = false := by simp [Env.orderHold, h.stalls]
  have hstruck : e.struck = false := by simp [Env.struck, hf.state, hf.wave, hf.stage]
  have hperf := Actor.perform_misaligned (a := e.actor op.ord) (s := s) hop hk hva e.w.key
  have hroom : ¬(e.staged = true ∧ (Perf.misaligned s q).overflows e.l e.t = true) := fun ⟨hst, hover⟩ => by
    have hlog := h.log hst
    simp [Perf.overflows, Perf.misaligned, logWrites] at hover
    omega
  obtain ⟨tlb, hbehind⟩ := Actor.behind_misaligned (a := e.actor op.ord) hop hva hf.wave hteam
  refine ⟨tlb, (e.actor op.ord).lateAfter s e.w.late op [] (decide (e.la la = 0)), ?_⟩
  dsimp only
  unfold Env.memory
  rw [if_neg (by simp [hord]), if_neg (by simp [hdirect])]
  simp only [hdirect, hf.state, hperf, Bool.false_eq_true, and_false, if_false]
  rw [if_neg fun hc => hroom ⟨hc.1, hc.2.1⟩]
  simp only [if_neg hroom, hstruck, Bool.false_eq_true, if_false, hf.state, hperf, hbehind]
  rw [watch_off _ _ _ _ _ _ (by exact h.watch)]
  simp only [State.wave_putWave_self, Perf.misaligned, hres, List.map_nil]
  rw [State.putWave_putWave _ (by rfl)]
  refine State.afterAccs_misaligned ?_ ?_ hseq hpos _ _ _
  · exact State.wave_putWave_self _ _
  · exact h.watched

/-! ### The instructions -/

/-- The lowest lane of a slot that holds a lane is one of the slot's. -/
theorem Env.slotMask_first {k : Slot} (h : e.anylane k = true) : laneBit (e.first k) ||| e.slotMask k = e.slotMask k := by
  have hne : e.inLanes k ≠ [] := by
    obtain ⟨l, hl, hin⟩ := List.any_eq_true.1 h
    exact List.ne_nil_of_mem (List.mem_filter.2 ⟨hl, hin⟩)
  have hmem : e.first k ∈ e.inLanes k := by
    rw [Env.first, List.headD_eq_head?_getD, List.head?_eq_some_head hne]
    exact List.head_mem hne
  refine BitVec.eq_of_getLsbD_eq fun j hj => ?_
  rw [BitVec.getLsbD_or, getLsbD_laneBit hj, Env.slotMask, getLsbD_maskList _ hj]
  by_cases hjf : j = e.first k
  · simp [hjf, hmem]
  · simp [hjf]

theorem exec_vcst_misaligned {o : VCst} (global : Bool) (h : Ready s e .mem o.slot (246 :: (o.addr.nums ++ o.src.num ++ o.m.num)) [])
    (hany : e.memLanes o.slot ≠ []) (hva : (e.ea o.addr 0).toNat % 4 ≠ 0) :
    exec (if global then .vcstGm o else .vcstSp o) s = .next (s.raise e.w
      { cause := causeAlign, faddr := e.ea o.addr 0, access := 2, pos := e.w.pos, kept := [(e.w.pos, e.keptSet o)]
        fml := maskList ((e.kept o (if global then .gm else .sp)).map (·.lane)) }) := by
  have hexec : exec (if global then .vcstGm o else .vcstSp o) s = vcst o (if global then .gm else .sp) s := by cases global <;> rfl
  rw [hexec]
  unfold vcst
  rw [run_go h (.inr rfl) rfl rfl rfl rfl (by simpa [Spec.acts] using hany)]
  simp only [if_pos hva, Env.trap_eq h.env]

/-- The lanes that a compress-store writes: those that it acts in and keeps (R156, R287). -/
theorem Env.mem_kept {o : VCst} {space : Space} {l : Nat} (hl : l < 64) :
    l ∈ (e.kept o space).map (·.lane) ↔ l ∈ e.memLanes o.slot ∧ (e.keptSet o).getLsbD l = true := by
  have hzip : l ∈ lanesOf (e.keptSet o) ↔ ∃ p ∈ (lanesOf (e.keptSet o)).zipIdx, p.1 = l := by
    rw [← List.mem_map, List.zipIdx_map_fst]
  have hkept : (e.keptSet o).getLsbD l = true ↔ ∃ p ∈ (lanesOf (e.keptSet o)).zipIdx, p.1 = l := by
    rw [← hzip, mem_lanesOf, and_iff_right hl]
  simp only [Env.kept, List.mem_map, List.mem_filter, List.contains_iff_mem, hkept]
  constructor
  · rintro ⟨_, ⟨⟨p, hp, rfl⟩, hin⟩, rfl⟩
    exact ⟨hin, p, hp, rfl⟩
  · rintro ⟨hin, p, hp, rfl⟩
    exact ⟨_, ⟨⟨p, hp, rfl⟩, hin⟩, rfl⟩

end

/-- Settles O37: one misaligned access is not performed and traps, and a misaligned compress-store traps before its accesses. -/
theorem alignmentTraps : Obligations.AlignmentTraps := by
  unfold Obligations.AlignmentTraps
  refine ⟨fun s e k la srcs dsts h hany => ⟨?_, ?_⟩,
    fun o global s e h hany hva => ⟨_, exec_vcst_misaligned global h hany hva, fun l hl => ?_⟩⟩
  · rintro o rfl rfl rfl rfl hva
    obtain ⟨tlb, late, hmem⟩ := memory_misaligned (srcs := o.addr.nums) (dsts := snum o.d) (op :=
      { pos := e.w.pos, ord := o.ord, res := .sreg o.d o.w, lanes := e.slotMask o.slot
        accs := [{ lane := e.first o.slot, kind := .load, sp := o.space, va := e.ea o.addr 0, size := o.w.bytes }] }) h rfl (.inl rfl) rfl rfl rfl hva
    refine ⟨tlb, late, (run_go h.ready (.inr rfl) rfl rfl rfl rfl (by exact hany)).trans (congrArg _ (hmem.trans ?_))⟩
    rw [Env.slotMask_first hany]
    rfl
  · rintro o rfl rfl rfl rfl hva
    obtain ⟨tlb, late, hmem⟩ := memory_misaligned (srcs := o.addr.nums ++ o.src.num) (dsts := []) (op :=
      { pos := e.w.pos, ord := o.ord, lanes := e.slotMask o.slot
        accs := [{ lane := e.first o.slot, kind := .store, sp := o.space, va := e.ea o.addr 0, size := o.w.bytes, x := e.szrd o.src }] })
      h rfl (.inr rfl) rfl rfl rfl hva
    refine ⟨tlb, late, (run_go h.ready (.inr rfl) rfl rfl rfl rfl (by exact hany)).trans (congrArg _ (hmem.trans ?_))⟩
    rw [Env.slotMask_first hany]
    rfl
  · rw [getLsbD_maskList _ hl, Bool.eq_iff_iff, decide_eq_true_iff, Env.mem_kept hl, Bool.and_eq_true, List.contains_iff_mem]

end Sys2Proof.Machine
end

section
/-! SUPPORT. Commands issued: copies and codebook loads, with their sizes and their entries (R144 to R146, R297 to R301, R329): O40. -/

namespace Sys2Proof.Machine

/-! ### Tags (R145) -/

theorem lget_lset {α : Type} (l : List (Nat × α)) (k n : Nat) (x d : α) : lget (lset l k x) n d = if n = k then x else lget l n d := by
  have hself : (lset l k x).find? (fun p => p.1 == k) = some (k, x) := lput_find_self l _ (k, x) (by simp)
  have hother : n ≠ k → (lset l k x).find? (fun p => p.1 == n) = l.find? fun p => p.1 == n := fun h =>
    lput_find_other l _ _ (k, x) (by simpa using h.symm) (by
      intro y hy
      rw [beq_iff_eq] at hy
      simpa [hy] using h.symm)
  split
  next h => rw [h, lget, hself]
  next h => rw [lget, hother h, lget]

theorem Team.tag_putTag (t : Team) (k n : Nat) (x : TagSt) : (t.putTag k x).tag n = if n = k then x else t.tag n :=
  lget_lset t.tagst k n x {}

/-! ### A command issued (R146, R301) -/

section
variable {s : State} {e : Env}

/-- An instruction whose effects change its wave's own registers retires, in whatever state it has left (R126). -/
theorem fixed_retires_in {c : Cls} {k : Slot} {reads writes : List Nat} (h : Ready s e c k reads writes) (hc : c ≠ .mem) (S : State)
    (wr : List Nat) {effs : List Eff} (hl : ∀ x ∈ effs, x.local = true) (ht : ∀ x ∈ effs, x.noTake = true) :
    Retires S (({ e with s := S } : Env).fixed 4 wr effs) e (e.w.regsEnd.putAll effs) S.teams := by
  have hf := State.env_found h.env
  rw [← regsEnd_ready h hc 4 (le_refl 4) wr effs ht]
  refine (advance_local S e.c _ e.cl ?_ ?_ ?_).retires ⟨_, _, rfl⟩
  · exact h.quiet.2
  · exact hf.clause
  · intro p hp
    rcases List.mem_append.1 hp with hp | hp
    · exact h.quiet.1 p hp
    · rw [List.mem_singleton.1 hp]
      exact hl

/-- A team with its table and its record of installs as an instruction has left them. -/
def Team.withTab (t : Team) (tab : Cells 64) (installs : List (Nat × Nat)) : Team := { t with tab, installs }

/-- The team of a wave that has issued a command (R146, R301). -/
def Env.issuedTeam (e : Env) (cls : Nat) (c : Cmd) : Team :=
  let g := (e.t.tag c.tag).gen + 1
  { e.t.putTag c.tag { gen := g, busy := true, status := 0, cls, seqs := (e.t.tag c.tag).seqs ++ [(g.toNat, e.s.fresh)] } with
    tags := e.t.tags &&& ~~~laneBit c.tag, cmds := e.t.cmds ++ [{ c with seq := e.s.fresh, known := e.w.known }] }

theorem Env.issueCmd_eq (e : Env) (cls : Nat) (h : Fin 16) (c : Cmd) : e.issueCmd cls h c
    = ({ e with s := ({ e.s with fresh := e.s.fresh + 1 } : State).putTeam (e.issuedTeam cls c) } : Env).fixed 4 (hnum h)
        [.hreg h (handle cls c.tag ((e.t.tag c.tag).gen + 1))] := rfl

/-- An instruction that issues a command, with the team's table as it has left it, does what `Issues` says. -/
theorem issues_of {i : Instr} {cls : Nat} {k : Slot} {r : Fin 16} {reads : List Nat} {tag : Nat} {ok : Env → Prop} {c : Env → Cmd}
    {tab : Env → Cells 64} (hctag : ∀ e, (c e).tag = tag) (hexec : ∀ s e, Ready s e .asy k reads (hnum r) → e.anylane k = true →
      tag < e.l.p.ntags → (e.t.tag tag).busy = false → ok e → ∃ installs,
        exec i s = .next (({ e with t := e.t.withTab (tab e) installs } : Env).issueCmd cls r (c e))) :
    Issues i cls k r reads tag ok c tab := by
  intro s e h hany htag hbusy hok
  obtain ⟨installs, hgo⟩ := hexec s e h hany htag hbusy hok
  have hs := (State.env_found h.env).state
  obtain rfl := hctag e
  refine ⟨_, ({ e with t := e.t.withTab (tab e) installs } : Env).issuedTeam cls (c e), hgo, ?_, ?_, fun n => ?_⟩
  · rw [Env.issueCmd_eq, ← hs]
    exact fixed_retires_in h (by decide) _ (hnum r) (effs := [.hreg r (handle cls (c e).tag ((e.t.tag (c e).tag).gen + 1))])
      (List.forall_mem_singleton.2 rfl) (List.forall_mem_singleton.2 rfl)
  · rw [← hs]
    rfl
  · rw [← hs]
    exact e.t.tag_putTag (c e).tag n _

end

/-! ### Sizes, the install entry and the shape record (R144, R298, R299) -/

theorem totalBytes_eq (d : List (Nat × DWord × DWord)) : totalBytes d = (d.map (·.1)).prod := by
  rw [totalBytes, List.prod_eq_foldl, List.foldl_map]

theorem dimsOk_of {d : List (Nat × DWord × DWord)} (hd : ∀ x ∈ d, x.1 ≠ 0) (hsize : (d.map (·.1)).prod ≤ 2 ^ 40) : dimsOk d = true := by
  rw [dimsOk, Bool.and_eq_true, List.all_eq_true, totalBytes_eq, decide_eq_true_iff]
  exact ⟨fun x hx => by simpa using hd x hx, hsize⟩

theorem Launch.entries_eq (l : Launch) : l.entries = (l.p.spbytes + 4095) / 4096 := Nat.mul_div_cancel _ (by decide)

/-! ### The instructions -/

section
variable {s : State} {e : Env}

theorem Env.tagWait_free {tag : Nat} (htag : tag < e.l.p.ntags) (hbusy : (e.t.tag tag).busy = false) : e.tagWait tag = none := by
  simp [Env.tagWait, Nat.not_le.2 htag, hbusy]

/-- The slot that a copy installs: a number below the table's size, at a destination aligned to the slot (R144). -/
def Env.mayInstall (e : Env) (o : Cpy) : Prop :=
  ∀ n, o.install = some n → (e.sreg n).toNat < (e.l.p.spbytes + 4095) / 4096 ∧ (e.sreg (sAfter o.sa 1)).toNat % 2 ^ e.w.lg = 0

/-- The tag table once a copy has issued: with the entry that it installs, busy and not valid (R144). -/
def Env.copyTab (e : Env) (o : Cpy) : Cells 64 :=
  match o.install with
  | none => e.t.tab
  | some n => cset e.t.tab (e.sreg n).toNat
      (entryOf false true false e.w.lg (e.sreg o.sa).toNat ((e.sreg (sAfter o.sa 1)).toNat / 2 ^ e.w.lg))

/-- A copy's command (R298 to R301). -/
def Env.copyCmd (e : Env) (o : Cpy) (d : List (Nat × DWord × DWord)) : Cmd :=
  { tag := o.tag.val, seq := 0, wave := e.w.key, src := o.src, dst := o.dst, sa := e.sreg o.sa, da := e.sreg (sAfter o.sa 1), dims := d
    install := o.install.map fun n => (e.sreg n).toNat }

/-- A copy whose dimensions and slot are in order issues its command (R144, R298 to R301). -/
theorem Env.copy_issues {o : Cpy} {d : List (Nat × DWord × DWord)} (hd : dimsOk d = true) (hslot : e.mayInstall o) :
    ∃ installs, e.copy o d
      = ({ e with t := e.t.withTab (e.copyTab o) installs } : Env).issueCmd 1 o.h (e.copyCmd o d) := by
  unfold Env.copy Env.copyTab Env.copyCmd
  cases hi : o.install with
  | none =>
    refine ⟨e.t.installs, ?_⟩
    simp only [hd, Option.map_none, Bool.not_true, Bool.false_eq_true, if_false]
    rfl
  | some n =>
    obtain ⟨hn, hal⟩ := hslot n hi
    refine ⟨(e.t.setEntry (e.sreg n).toNat (entryOf false true false e.w.lg (e.sreg o.sa).toNat
      ((e.sreg (sAfter o.sa 1)).toNat / 2 ^ e.w.lg))).installs, ?_⟩
    have hinstall : e.install n (e.sreg o.sa) (e.sreg (sAfter o.sa 1)) = .ok ((e.sreg n).toNat, e.t.setEntry (e.sreg n).toNat
        (entryOf false true false e.w.lg (e.sreg o.sa).toNat ((e.sreg (sAfter o.sa 1)).toNat / 2 ^ e.w.lg))) := by
      unfold Env.install
      rw [e.l.entries_eq, if_neg (Nat.not_le.2 hn), if_neg (not_not.2 hal)]
    simp [hd, hinstall]
    rfl

variable {o : Cpy} (hany : e.anylane o.slot = true) (htag : o.tag.val < e.l.p.ntags) (hbusy : (e.t.tag o.tag.val).busy = false)
include hany htag hbusy

theorem exec_cpy (h : Ready s e .asy o.slot (cpyNums o 4) (hnum o.h)) : exec (.cpy o) s = .next (e.copy o (e.cpyDims o)) := by
  change execCpy o s = _
  unfold execCpy
  rw [run_go h (.inr rfl) rfl rfl rfl rfl (by exact hany)]
  simp only [Env.tagWait_free htag hbusy]

/-- CPYN with its record read, and no watchpoint set (R208, R299). -/
theorem exec_cpyn (h : Ready s e .asy o.slot (cpyNums o 3) (hnum o.h)) {b : List Byte} {d : List (Nat × DWord × DWord)}
    (hwatch : ∀ n < 4, cget e.s.ctl (watchOff (quadOf e.coreNo) n + 0x10) = 0) (hal : (e.sreg (sAfter o.sa 2)).toNat % 8 = 0)
    (hin : (e.sreg (sAfter o.sa 2)).toNat + 128 ≤ e.l.p.spbytes)
    (hread : readAt e.s.poison (({ e.actor with who := some (e.w.key, ones64) } : Actor).view e.s)
      (spAddr e.coreNo (e.t.spBase + (e.sreg (sAfter o.sa 2)).toNat)) 128 = .ok b) (hshape : shapeDims b = some d) :
    exec (.cpyn o) s = .next (e.copy o d) := by
  change execCpyn o s = _
  unfold execCpyn
  rw [run_go h (.inr rfl) rfl rfl rfl rfl (by exact hany)]
  simp only [Env.tagWait_free htag hbusy]
  rw [if_neg (not_not.2 hal), if_neg (Nat.not_lt.2 hin)]
  simp only [hread, watch_off _ _ _ _ _ _ hwatch, hshape]

end

theorem exec_cbld {s : State} {e : Env} {o : CbLd} (h : Ready s e .asy o.slot (snum o.sa) (hnum o.h)) (hany : e.anylane o.slot = true)
    (htag : o.tag.val < e.l.p.ntags) (hbusy : (e.t.tag o.tag.val).busy = false) (hbank : o.bank.val < e.l.p.nbanks)
    (hal : (e.sreg o.sa).toNat % 8 = 0) : exec (.cbld o) s = .next (e.issueCmd 3 o.h
      { tag := o.tag.val, seq := 0, wave := e.w.key, src := if o.sp then .sp else .gm, dst := .sp, sa := e.sreg o.sa, da := 0
        dims := [(4096, 0, 0)], bank := some o.bank.val }) := by
  change execCbld o s = _
  unfold execCbld
  rw [run_go h (.inr rfl) rfl rfl rfl rfl (by exact hany)]
  simp only [if_neg (Nat.not_le.2 hbank), Env.tagWait_free htag hbusy, if_neg (not_not.2 hal)]

/-- The dimensions of a shape record within its limits (R299). -/
theorem shapeDims_of {b : List Byte} {nd : Nat} (hnd : nd = leNat ((b.drop 0).take 1)) (hlo : 1 ≤ nd) (hhi : nd ≤ 5)
    (hres : leNat ((b.drop 1).take 7) = 0) (hpad : ∀ i < nd, leNat ((b.drop (12 + 24 * i)).take 4) = 0)
    (hsrc : leNat ((b.drop 16).take 8) = 0) (hdst : leNat ((b.drop 24).take 8) = 0) :
    shapeDims b = some ((List.range nd).map fun i => (leNat ((b.drop (8 + 24 * i)).take 4),
      BitVec.ofNat 64 (leNat ((b.drop (16 + 24 * i)).take 8)), BitVec.ofNat 64 (leNat ((b.drop (24 + 24 * i)).take 8)))) := by
  have hpads : ((List.range nd).any fun i => leNat ((b.drop (12 + 24 * i)).take 4) != 0) = false :=
    List.any_eq_false.2 fun i hi => by simp [hpad i (List.mem_range.1 hi)]
  unfold shapeDims
  simp only [← hnd]
  rw [if_neg (by omega), if_neg (by simp only [hpads, hsrc, hdst, ne_eq, not_true, or_false, Bool.false_eq_true, not_false_iff])]

/-- A dword's low and high words as numbers. -/
theorem dword_words (n : DWord) : (n.extractLsb' 0 32).toNat = n.toNat % 2 ^ 32 ∧ (n.extractLsb' 32 32).toNat = n.toNat / 2 ^ 32 := by
  have := n.isLt
  simp only [BitVec.extractLsb'_toNat, Nat.shiftRight_eq_div_pow]
  omega

/-- Settles O40: with its checks passed each instruction issues its command, which `issues_of` follows. -/
theorem commandIssue : Obligations.CommandIssue := by
  unfold Obligations.CommandIssue
  intro size slotOk tab cmd inst
  have hslots (o : Cpy) (e : Env) (h : slotOk o e) : e.mayInstall o := fun n hn => by
    simp only [slotOk, hn] at h
    exact h
  have hcopy (o : Cpy) (e : Env) (d : List (Nat × DWord × DWord)) (hs : size d) (hok : slotOk o e) :=
    Env.copy_issues (dimsOk_of hs.1 hs.2) (hslots o e hok)
  refine ⟨fun o => ?_, fun o b nd => ?_, fun o => ?_⟩
  · intro dims
    refine issues_of (fun e => rfl) fun s e h hany htag hbusy hok => ?_
    obtain ⟨hs, hslot⟩ := hok
    obtain ⟨installs, hgo⟩ := hcopy o e (dims e) hs hslot
    obtain ⟨hlo, hhi⟩ := dword_words (e.sreg (sAfter o.sa 2))
    have hd : e.cpyDims o = dims e := by
      simp only [Env.cpyDims, hlo, hhi, dims]
    rw [exec_cpy hany htag hbusy h, hd]
    exact ⟨installs, congrArg _ hgo⟩
  · intro at_ dims
    refine issues_of (fun e => rfl) fun s e h hany htag hbusy hok => ?_
    obtain ⟨hwatch, hal, hin, hread, hnd, hlo, hhi, hres, hpad, hsrc, hdst, hs, hslot⟩ := hok
    obtain ⟨installs, hgo⟩ := hcopy o e dims hs hslot
    rw [exec_cpyn hany htag hbusy h hwatch hal hin hread (shapeDims_of hnd hlo hhi hres hpad hsrc hdst)]
    exact ⟨installs, congrArg _ hgo⟩
  · refine issues_of (fun e => rfl) fun s e h hany htag hbusy hok => ?_
    obtain ⟨hbank, hal⟩ := hok
    exact ⟨e.t.installs, exec_cbld h hany htag hbusy hbank hal⟩

end Sys2Proof.Machine
end

section
/-! SUPPORT. What a copy engine does: a copy of one run completes, is cancelled, or loads a codebook (R146, R300, R301, R304, R327 to R329):
O56. -/

namespace Sys2Proof.Machine

/-! ### A command's completion (R146, R301) -/

theorem Team.completeCmd_eq {c : Cmd} (h : c.install = none) (t : Team) (status : Nat) : t.completeCmd c status id
    = { t.putTag c.tag { t.tag c.tag with busy := false, status, done := c.done } with
        cmds := t.cmds.filter fun x => x.tag != c.tag, tags := t.tags ||| laneBit c.tag } := by
  simp only [Team.completeCmd, Team.installed, h, id]

theorem Team.tag_completeCmd {c : Cmd} (h : c.install = none) (t : Team) (status n : Nat) : (t.completeCmd c status id).tag n
    = if n = c.tag then { t.tag c.tag with busy := false, status, done := c.done } else t.tag n := by
  rw [Team.completeCmd_eq h]
  exact t.tag_putTag c.tag n _

/-- A command that installs nothing has completed: it is gone, its tag's bit is set, and its tag alone has changed. -/
structure Team.Completed (t tm : Team) (tag status done : Nat) : Prop where
  cmds : tm.cmds = t.cmds.filter fun x => x.tag != tag
  tags : tm.tags = t.tags ||| (1 <<< tag)
  status : (tm.tag tag).status = status
  busy : (tm.tag tag).busy = false
  done : (tm.tag tag).done = done
  others : ∀ k, k ≠ tag → tm.tag k = t.tag k

theorem Team.completed {c : Cmd} (h : c.install = none) (t : Team) (status : Nat) :
    t.Completed (t.completeCmd c status id) c.tag status c.done where
  cmds := by rw [Team.completeCmd_eq h]
  tags := by rw [Team.completeCmd_eq h]; rfl
  status := by rw [Team.tag_completeCmd h, if_pos rfl]
  busy := by rw [Team.tag_completeCmd h, if_pos rfl]
  done := by rw [Team.tag_completeCmd h, if_pos rfl]
  others k hk := by rw [Team.tag_completeCmd h, if_neg hk]

theorem State.team_completeCmd {c : Cmd} (h : c.install = none) (s : State) (t : Team) (status : Nat) :
    (s.putTeam (t.completeCmd c status id)).team? t.key = some (t.completeCmd c status id) := by
  rw [Team.completeCmd_eq h]
  exact State.team_putTeam_self _ _

/-! ### What an engine's accesses leave behind (R32, R154) -/

theorem State.touch_only (s : State) (c : Ctx) (l : List Seen) (via : Option PeerWait) : s.touch c l via
    = { s with tlb := (s.touch c l via).tlb, links := (s.touch c l via).links, outbox := (s.touch c l via).outbox } := by
  unfold State.touch State.reached
  rw [sendFlits_only, fillTlb_only]

theorem State.engineRuns_of {s : State} {t : Team} {core : Nat} (hrun : s.running = true) (hsaved : t.saved = false) (hended : t.ended = false)
    (hcore : t.core = some core) (hquad : (s.quad (core / 4)).stopped = false) (c : Cmd) : s.engineRuns t c = true := by
  simp [State.engineRuns, hrun, hsaved, hended, hcore, quadOf, hquad]

theorem State.engineMoves_of {s : State} {t : Team} {c : Cmd} (hruns : s.engineRuns t c = true) (hfault : c.fault = none) :
    s.engineMoves t c = true := by
  simp [State.engineMoves, hruns, hfault]

/-! ### One step of a copy (R300) -/

theorem copyRuns_one {n : Nat} (hn : 0 < n) (a b : DWord) : copyRuns [(n, a, b)] 256 0 n = [(0, 0, n)] := by
  simp [copyRuns, copyAt, copyAt.dims, Nat.not_le.2 hn]

/-- With no byte overwritten by an earlier step, a source reads as memory holds it. -/
theorem readMixed_nil (s : State) (m : List Host.Cell) (d : Nat) (ps : List Piece) : readMixed s m [] d ps = readPieces s.poison m ps := by
  induction ps generalizing d with
  | nil => rfl
  | cons p ps ih =>
    cases p <;> simp only [readMixed, readPieces, ih, mixOrig, List.isEmpty_nil, if_true]

/-- A step of one run whose bytes are all reached stores what it read (R159, R300). -/
theorem Actor.copyStep_one {A : Actor} {S : State} {c : Cmd} {n : Nat} {answers : Bool} {ps qs : List Piece} {bytes : List Byte}
    (horig : c.orig = []) (hstaged : A.staged = false) (hsrc : A.place S c.src .rd true false c.sa n answers = .ok ps)
    (hread : readPieces S.poison (A.view S) ps = .ok bytes) (hdst : A.place S c.dst .wr true false c.da n answers = .ok qs) :
    ∃ seen orig, A.copyStep S c [(0, 0, n)] answers = .ok (S.storeAll (some (A.event false)) none (storePieces qs bytes)) [] seen orig := by
  have hzero (x : DWord) : x + 0 = x := BitVec.add_zero x
  unfold Actor.copyStep
  simp only [List.foldl_cons, List.foldl_nil, hzero, hsrc, horig, readMixed_nil, hread, List.zip_cons_cons, List.zip_nil_left,
    List.nil_append, hdst, hstaged, Bool.false_eq_true, false_and, if_false]
  exact ⟨_, _, rfl⟩

/-! ### The bank that a load replaces (R327 to R329) -/

theorem Team.bank_putBank {t : Team} {b : Nat} (hb : b < t.banks.length) (x : Bank) (n : Nat) :
    (t.putBank b x).bank n = if n = b then x else t.bank n := by
  have hget : (t.putBank b x).banks[n]? = (t.banks[n]?).map fun y => if n = b then x else y := by
    simp [Team.putBank, List.getElem?_map, List.getElem?_zipIdx, Function.comp_def]
  rw [Team.bank, hget]
  split
  next h => simp [h, hb]
  next h => simp [Team.bank]

/-- A bank as a load leaves it: its entries are the dwords of the bytes read (R329). -/
def Bank.loaded (k : Bank) (c : Cmd) (bytes : List Byte) : Bank :=
  { k with
    entries := csetAll [] ((List.range 512).map fun k => (k, BitVec.ofNat 64 (bnat bytes (8 * k) 8)))
    gen := k.gen + 1, backing := .source (c.src != .gm) c.sa, bad := none }

theorem cget_csetAll_range {w n k : Nat} (f : Nat → BitVec w) (hk : k < n) :
    cget (csetAll [] ((List.range n).map fun i => (i, f i))) k = f k := by
  simpa using cget_csetAll_map (List.range n) [] 0 f k (List.mem_range.2 hk)

theorem Bank.entries_loaded (x : Bank) (c : Cmd) (bytes : List Byte) {k : Nat} (hk : k < 512) :
    cget (x.loaded c bytes).entries k = BitVec.ofNat 64 (bnat bytes (8 * k) 8) := by
  have h : (x.loaded c bytes).entries = csetAll [] ((List.range 512).map fun k => (k, BitVec.ofNat 64 (bnat bytes (8 * k) 8))) := by
    rw [Bank.loaded]
  rw [h]
  exact cget_csetAll_range _ hk

/-! ### A copy's last step, and a load -/

section
variable {s : State} {t : Team} {c : Cmd} {l : Launch} {cx : Ctx} {core : Nat} (hteam : s.team? t.key = some t)
  (hcmd : (t.cmds.find? fun x => x.tag == c.tag) = some c) (hl : s.launch? t.launch = some l) (hcx : s.ctx? t.ctx = some cx)
  (hmoves : s.engineMoves t c = true) (hcore : t.core = some core) (hwatch : ∀ i < 4, cget s.ctl (watchOff (core / 4) i + 0x10) = 0)
include hteam hcmd hl hcx hmoves hcore hwatch

/-- A step that ends its copy: what it stored is in memory, and the command has completed (R301). -/
theorem State.copySteps_last {X : State} {k : Nat} {seen : List Seen} {orig : List Host.Cell} (hX : MemOnly s X)
    (hstaged : (l.p.mode != 0 && !t.direct) = false) (htotal : totalBytes c.dims ≤ c.done / 256 * 256 + 256)
    (hstep : (c.actor cx t l false).copyStep s c (copyRuns c.dims 256 c.done (totalBytes c.dims)) (Config.peerAnswers s.nondet)
      = .ok X [] seen orig) :
    ∃ tlb links outbox, s.copySteps t.key c.tag (k + 1)
      = ({ X with tlb, links, outbox, nondet := X.nondet + 1 } : State).putTeam
          (t.completeCmd { c with done := totalBytes c.dims, orig, peer := none } 1 id) := by
  have hteamX (tlb links outbox nondet) : ({ X with tlb, links, outbox, nondet } : State).team? t.key = some t := by
    rw [hX.rest]
    exact hteam
  have hwatchX : ∀ i < 4, cget X.ctl (watchOff (core / 4) i + 0x10) = 0 := by
    rw [hX.rest]
    exact hwatch
  have hlog : X.addLog t.key [] = X := by
    have h : X.team? t.key = some t := hteamX X.tlb X.links X.outbox X.nondet
    simp [State.addLog, h]
  have hA : (c.actor cx t l false).core = core := by simp [Cmd.actor, hcore]
  refine ⟨(X.touch cx seen c.peer).tlb, (X.touch cx seen c.peer).links, (X.touch cx seen c.peer).outbox, ?_⟩
  unfold State.copySteps
  simp only [hteam, hcmd, hl, hcx]
  rw [if_neg (by simp [hmoves])]
  simp only [hstaged, Nat.min_eq_left htotal, hstep, hlog, hA]
  rw [if_neg (by simp [Cmd.actor]), watch_off _ _ _ _ _ _ (by rw [State.touch_only]; exact hwatchX), State.touch_only]
  simp only [hteamX, if_true]

/-- A copy of one run of at most 256 bytes, all reached, stores what it read and has completed (R300, R301). -/
theorem State.copySteps_stores {n : Nat} {a b : DWord} {A : Actor} {ps qs : List Piece} {bytes : List Byte} (hA : c.actor cx t l false = A)
    (hmode : l.p.mode = 0 ∨ t.direct = true) (hdone : c.done = 0) (horig : c.orig = []) (hdims : c.dims = [(n, a, b)]) (hpos : 0 < n)
    (hle : n ≤ 256) (hsrc : A.place s c.src .rd true false c.sa n (Config.peerAnswers s.nondet) = .ok ps)
    (hread : readPieces s.poison (A.view s) ps = .ok bytes)
    (hdst : A.place s c.dst .wr true false c.da n (Config.peerAnswers s.nondet) = .ok qs) : ∃ (X : State) (orig : List Host.Cell),
      s.copySteps t.key c.tag 1 = X.putTeam (t.completeCmd { c with done := n, orig, peer := none } 1 id)
        ∧ X.mem = (s.storeAll (some (A.event false)) none (storePieces qs bytes)).mem := by
  subst hA
  have htotal : totalBytes c.dims = n := by simp [hdims, totalBytes]
  have hstaged : (l.p.mode != 0 && !t.direct) = false := by rcases hmode with h | h <;> simp [h]
  obtain ⟨seen, orig, hstep⟩ := Actor.copyStep_one horig rfl hsrc hread hdst
  have hruns : copyRuns c.dims 256 c.done (totalBytes c.dims) = [(0, 0, n)] := by rw [htotal, hdone, hdims, copyRuns_one hpos]
  obtain ⟨tlb, links, outbox, hlast⟩ := State.copySteps_last hteam hcmd hl hcx hmoves hcore hwatch (k := 0) (storeAll_memOnly _ _ _ _) hstaged
    (by omega) (hruns ▸ hstep)
  rw [htotal] at hlast
  exact ⟨_, orig, hlast, rfl⟩

/-- A load whose bytes are all reached replaces its bank and has completed (R327 to R329). -/
theorem execCbldComplete_loads {b : Nat} {bytes : List Byte} (hbank : c.bank = some b) (hfree : s.bankFree t c b = true)
    (hread : (c.actor cx t l false).read s c.src c.sa 4096 = .ok bytes) : ∃ tlb links outbox,
      execCbldComplete t.key c.tag s = .next (({ s with tlb, links, outbox, nondet := s.nondet + 1 } : State).putTeam
        ((t.putBank b ((t.bank b).loaded c bytes)).completeCmd { c with done := 4096 } 1 id)) := by
  have hA : (c.actor cx t l false).core = core := by simp [Cmd.actor, hcore]
  unfold execCbldComplete
  simp only [hteam, hcmd, hl, hcx, hbank]
  rw [if_neg (by simp [hmoves, hfree])]
  simp only [hread, hA]
  rw [State.touch_only, watch_off _ _ _ _ _ _ (by exact hwatch)]
  exact ⟨_, _, _, rfl⟩

end

/-- A copy that has not begun and is of one step runs it (R300). -/
theorem execCommandComplete_one {s : State} {t : Team} {c : Cmd} (hteam : s.team? t.key = some t)
    (hcmd : (t.cmds.find? fun x => x.tag == c.tag) = some c) (hruns : s.engineRuns t c = true) (hfault : c.fault = none) (hbank : c.bank = none)
    (hcancel : c.cancel = false) (hdone : c.done = 0) (hpos : 0 < totalBytes c.dims) (hle : totalBytes c.dims ≤ 256) :
    execCommandComplete t.key c.tag s = .next (({ s with nondet := s.nondet + 1 } : State).copySteps t.key c.tag 1) := by
  have hone : (totalBytes c.dims + 255) / 256 = 1 := by omega
  unfold execCommandComplete
  simp [hteam, hcmd, hruns, hbank, hcancel, hfault, hdone, hone, Nat.mod_one]

/-- Settles O56: each of the three ends in its command's completion, after what it stored or loaded. -/
theorem copyEngineEvents : Obligations.CopyEngineEvents := by
  unfold Obligations.CopyEngineEvents
  intro s t c l cx core hrun hteam hcmd hl hcx hsaved hended hcore hquad S A ans ends
  have hruns := State.engineRuns_of hrun hsaved hended hcore hquad c
  have hA : c.actor cx t l false = A := by simp only [Cmd.actor, hcore, Option.getD_some, A]
  -- a command's completion, in whatever state and on whatever banks, ends it
  have hends {i : Instr} {X : State} {x : Cmd} {status : Nat} {P : State → Team → Prop} (banks : List Bank) (htag : x.tag = c.tag)
      (hinst : x.install = none) (hexec : exec i s = .next (X.putTeam (({ t with banks } : Team).completeCmd x status id)))
      (hP : P (X.putTeam (({ t with banks } : Team).completeCmd x status id)) (({ t with banks } : Team).completeCmd x status id)) :
      ends i status x.done P := by
    obtain ⟨hcmds, htags, hstatus, hbusy, hdone, hothers⟩ := Team.completed hinst { t with banks } status
    rw [htag] at hcmds htags hstatus hbusy hdone hothers
    exact ⟨_, _, hexec, State.team_completeCmd hinst X { t with banks } status, hcmds, htags, hstatus, hbusy, hdone, hothers, hP⟩
  refine ⟨fun hbank hcancel hinst => ?_,
    fun n a b ps qs bytes hfault hbank hcancel hinst hmode hdone horig hdims hpos hle hwatch hsrc hread hdst => ?_,
    fun b bytes hfault hbank hinst hb hfree hwatch hread => ?_⟩
  · refine hends (X := s) (x := c) t.banks rfl hinst ?_ rfl
    change execCommandComplete t.key c.tag s = _
    unfold execCommandComplete
    simp [hteam, hcmd, hruns, hbank, hcancel]
  · have htotal : totalBytes c.dims = n := by simp [hdims, totalBytes]
    have hexec := execCommandComplete_one hteam hcmd hruns hfault hbank hcancel hdone (by omega) (by omega)
    obtain ⟨X, orig, hcopy, hmem⟩ := State.copySteps_stores (s := S) hteam hcmd hl hcx (State.engineMoves_of hruns hfault) hcore hwatch hA hmode
      hdone horig hdims hpos hle hsrc hread hdst
    exact hends (x := { c with done := n, orig, peer := none }) t.banks rfl hinst (hexec.trans (congrArg _ hcopy)) hmem
  · have hmoves := State.engineMoves_of hruns hfault
    obtain ⟨tlb, links, outbox, hload⟩ := execCbldComplete_loads hteam hcmd hl hcx hmoves hcore hwatch hbank hfree (hA ▸ hread)
    have hbanks := Team.bank_putBank hb ((t.bank b).loaded c bytes)
    have hloaded := (hbanks b).trans (if_pos rfl)
    refine hends (x := { c with done := 4096 }) (t.putBank b ((t.bank b).loaded c bytes)).banks rfl hinst hload ?_
    rw [Team.completeCmd_eq (by exact hinst)]
    refine ⟨rfl, fun n hn => (hbanks n).trans (if_neg hn), congrArg Bank.gen hloaded, congrArg Bank.backing hloaded, fun k hk => ?_⟩
    exact (congrArg (fun x : Bank => cget x.entries k) hloaded).trans (Bank.entries_loaded _ _ _ hk)

end Sys2Proof.Machine
end
